-- ==== Sys2Proof/Word.lean ====
section
/-! DEFINITION. Word: the word types of the Kolaro panel and their plainest arithmetic. -/

namespace Sys2Proof

/-- A 64-bit register value (R4). -/
abbrev Word := BitVec 64

/-- One byte of memory. -/
abbrev Byte := BitVec 8

/-- A set of lanes 0-31; bit `l` is lane `l` (R4). -/
abbrev Mask := BitVec 32

/-- Lane numbers 0-31. -/
def lanes : List Nat := List.range 32

/-- Lane `l` is in the mask. -/
def Mask.has (m : Mask) (l : Nat) : Bool := m.getLsbD l

/-- The mask holding lane `l` alone. -/
def Mask.one (l : Nat) : Mask := BitVec.ofNat 32 (2 ^ l)

/-- The lanes of a mask in ascending order. -/
def Mask.toList (m : Mask) : List Nat := lanes.filter m.has

/-- The mask of the lanes of a list that satisfy a test. -/
def Mask.ofPred (p : Nat → Bool) : Mask :=
  lanes.foldl (fun m l => if p l then m ||| Mask.one l else m) 0

end Sys2Proof
end

