-- ==== Sys2Proof/Syntax.lean ====
section
/-! DEFINITION. Syntax: the instruction words of Tuiro with their hints (spec 03), and the steps of the panel's
other agents (spec 95), one constructor of `Instr` for each row of spec/opcode_table.json. -/

namespace Sys2Proof

/-- A guard of a word with E = 1: predicate PG and sense PS (R59, R60). -/
structure Guard where
  p : BitVec 4
  ps : Bool
  deriving DecidableEq, Repr

/-- A decoded 6-bit source code (Table 3.5). -/
inductive Src where
  /-- v0-v31, codes 0x00-0x1F -/
  | v (n : BitVec 5)
  /-- bypass latches b0-b3, codes 0x20-0x23 -/
  | latch (k : BitVec 2)
  /-- the inline constants 0x24-0x2B -/
  | const (c : BitVec 3)
  /-- the reserved codes 0x2C-0x2F (illegal, R77 code 0x07) -/
  | resv (c : BitVec 2)
  /-- s0-s15, codes 0x30-0x3F -/
  | s (n : BitVec 4)
  deriving DecidableEq, Repr

/-- Payload of a `src3` hint (Table 3.3). -/
structure Src3 where
  v3 : Bool
  s3 : Src
  n1 : Bool
  n2 : Bool
  n3 : Bool
  a1 : Bool
  a2 : Bool
  a3 : Bool
  sat : Bool
  ro : Bool
  rm : BitVec 3
  deriving DecidableEq, Repr

/-- Payload of a `type` hint (Table 3.3). -/
structure TypeHint where
  ty : BitVec 5
  se : Bool
  sub : BitVec 4
  deriving DecidableEq, Repr

/-- Payload of a `memq` hint (Table 3.3). -/
structure MemQ where
  scope : BitVec 3
  ord : BitVec 2
  cp : BitVec 3
  fe : BitVec 2
  deriving DecidableEq, Repr

/-- Payload of a `rep` hint (Table 3.3). -/
structure RepHint where
  cnt : BitVec 6
  sd : Bool
  sa : Bool
  sb : Bool
  deriving DecidableEq, Repr

/-- Payload of a `sched` hint (Table 3.3). -/
structure SchedHint where
  y : Bool
  stall : BitVec 6
  deriving DecidableEq, Repr

/-- Payload of a `dead` hint (Table 3.3). -/
structure DeadHint where
  hi : Bool
  mask : BitVec 16
  deriving DecidableEq, Repr

/-- The hints of a sequence, each class at most once (R63, R65). -/
structure Hints where
  imm : Option (BitVec 26) := none
  src3 : Option Src3 := none
  type : Option TypeHint := none
  memq : Option MemQ := none
  rep : Option RepHint := none
  chain : Option (BitVec 4) := none
  sched : Option SchedHint := none
  guardq : Option (BitVec 3) := none
  dead : Option DeadHint := none
  deriving DecidableEq, Repr

/-- The head of a sequence: its hints and the guard of its instruction word (R59, R61). -/
structure Head where
  guard : Option Guard := none
  hints : Hints := {}
  deriving DecidableEq, Repr

/-- Format R (R66). -/
structure FR where
  nw : Bool
  d : BitVec 5
  a : Src
  b : Src
  deriving DecidableEq, Repr

/-- Format Ru: R with one source (R66). -/
structure FRu where
  nw : Bool
  d : BitVec 5
  a : Src
  deriving DecidableEq, Repr

/-- Format I (R66). -/
structure FI where
  nw : Bool
  d : BitVec 5
  a : Src
  imm6 : BitVec 6
  deriving DecidableEq, Repr

/-- Format Iu: I with no source (R66). -/
structure FIu where
  nw : Bool
  d : BitVec 5
  imm6 : BitVec 6
  deriving DecidableEq, Repr

/-- Format P: predicate destination (R66). -/
structure FP where
  cond : BitVec 2
  pd : BitVec 4
  a : Src
  b : Src
  deriving DecidableEq, Repr

/-- Format Pi (R66). -/
structure FPi where
  cond : BitVec 2
  pd : BitVec 4
  a : Src
  imm6 : BitVec 6
  deriving DecidableEq, Repr

/-- Format P of `fclass`, COND reserved (R66). -/
structure FPc where
  pd : BitVec 4
  a : Src
  b : Src
  deriving DecidableEq, Repr

/-- Format Q: predicate logic (R66). -/
structure FQ where
  pd : BitVec 4
  n1 : Bool
  pa : BitVec 4
  n2 : Bool
  pb : BitVec 4
  deriving DecidableEq, Repr

/-- Format Q of `pnot` (R66). -/
structure FQu where
  pd : BitVec 4
  n1 : Bool
  pa : BitVec 4
  deriving DecidableEq, Repr

/-- `movp` to a vector register, DIR = 0 (R145). -/
structure FMovpV where
  d : BitVec 5
  one : Bool
  pn : BitVec 4
  deriving DecidableEq, Repr

/-- `movp` to predicates, DIR = 1 (R145). -/
structure FMovpP where
  a : Src
  one : Bool
  pn : BitVec 4
  deriving DecidableEq, Repr

/-- `movs` (R76). -/
structure FMovs where
  sd : Bool
  d : BitVec 5
  a : Src
  srn : BitVec 6
  deriving DecidableEq, Repr

/-- `movsw` (R76). -/
structure FMovsw where
  a : Src
  srn : BitVec 6
  deriving DecidableEq, Repr

/-- `cvt` (R173). -/
structure FCvt where
  sat : Bool
  d : BitVec 5
  a : Src
  stype : BitVec 5
  rtz : Bool
  deriving DecidableEq, Repr

/-- `shfl` (Table 11.1). -/
structure FShfl where
  wc : BitVec 2
  d : BitVec 5
  vs : BitVec 5
  b : Src
  deriving DecidableEq, Repr

/-- `vote` (Table 11.1). -/
structure FVote where
  op : BitVec 2
  d : BitVec 5
  pa : BitVec 4
  n : Bool
  deriving DecidableEq, Repr

/-- `redg` (Table 11.1). -/
structure FRedg where
  op : BitVec 3
  d : BitVec 5
  a : Src
  deriving DecidableEq, Repr

/-- `scang` (Table 11.1). -/
structure FScang where
  op : BitVec 3
  incl : Bool
  d : BitVec 5
  a : Src
  deriving DecidableEq, Repr

/-- `bcast` (Table 11.1). -/
structure FBcast where
  d : BitVec 5
  a : Src
  first : Bool
  lane : BitVec 5
  deriving DecidableEq, Repr

/-- Format M (R66). -/
structure FM where
  cc : BitVec 2
  d : BitVec 5
  a : Src
  off5 : BitVec 5
  deriving DecidableEq, Repr

/-- Format M of `feq` (R69). -/
structure FFeq where
  cc : BitVec 2
  pd : BitVec 4
  a : Src
  off5 : BitVec 5
  deriving DecidableEq, Repr

/-- Format M with D reserved (R69). -/
structure FMn where
  cc : BitVec 2
  a : Src
  off5 : BitVec 5
  deriving DecidableEq, Repr

/-- A counter mask (R242). -/
structure FK4 where
  mask : BitVec 4
  deriving DecidableEq, Repr

/-- A 16-bit mask or code in [15:0]. -/
structure FK16 where
  mask : BitVec 16
  deriving DecidableEq, Repr

/-- `tdef` (Table 7.9). -/
structure FTdef where
  tid : BitVec 8
  sd : BitVec 4
  sa : BitVec 4
  deriving DecidableEq, Repr

/-- `tinv` (Table 7.9). -/
structure FTinv where
  tid : BitVec 8
  deriving DecidableEq, Repr

/-- `tget` (Table 7.9). -/
structure FTget where
  d : BitVec 5
  a : Src
  w : BitVec 3
  deriving DecidableEq, Repr

/-- `mload`, `mstore` (Table 7.9). -/
structure FMl where
  mt : BitVec 4
  sa : BitVec 4
  deriving DecidableEq, Repr

/-- `mma` (Table 7.9). -/
structure FMma where
  mt : BitVec 4
  cv : BitVec 3
  va : BitVec 5
  vb : BitVec 5
  deriving DecidableEq, Repr

/-- `cvset` (Table 7.9). -/
structure FCvset where
  cv : BitVec 3
  cm1 : BitVec 9
  deriving DecidableEq, Repr

/-- `copy` (Table 9.9). -/
structure FCopy where
  cc : BitVec 2
  ch : BitVec 2
  sa : BitVec 4
  deriving DecidableEq, Repr

/-- `gres`, OPEN = 0 (Table 9.9). -/
structure FGres where
  slot : BitVec 3
  a : Src
  deriving DecidableEq, Repr

/-- `gres.open`, OPEN = 1 (Table 9.9). -/
structure FGresO where
  slot : BitVec 3
  deriving DecidableEq, Repr

/-- `cflag` (Table 9.9). -/
structure FCflag where
  cc : BitVec 2
  ch : BitVec 2
  sa : BitVec 4
  sv : BitVec 4
  deriving DecidableEq, Repr

/-- `tlbp` (Table 9.9). -/
structure FTlbp where
  sd : BitVec 4
  sa : BitVec 4
  deriving DecidableEq, Repr

/-- `tlbp.fill` (Table 9.9). -/
structure FTlbpF where
  sd : BitVec 4
  sa : BitVec 4
  deriving DecidableEq, Repr

/-- `pattr.replicate` and `coll` (Table 9.9, R317). -/
structure FPattr0 where
  cc : BitVec 2
  sa : BitVec 4
  deriving DecidableEq, Repr

/-- `pattr.collapse` (Table 9.9). -/
structure FPattr1 where
  cc : BitVec 2
  sa : BitVec 4
  deriving DecidableEq, Repr

/-- `pattr.flush` (Table 9.9). -/
structure FPattr2 where
  cc : BitVec 2
  sa : BitVec 4
  deriving DecidableEq, Repr

/-- `tex` (Table 10.4). -/
structure FTex where
  cc : BitVec 2
  d : BitVec 5
  vc : BitVec 5
  st : BitVec 4
  filt : Bool
  wrap : Bool
  deriving DecidableEq, Repr

/-- `trace` (Table 10.4). -/
structure FTrace where
  cc : BitVec 2
  vh : BitVec 5
  vr : BitVec 5
  sb : BitVec 4
  mode : BitVec 2
  deriving DecidableEq, Repr

/-- `traceh` (Table 10.4). -/
structure FTraceh where
  cc : BitVec 2
  d : BitVec 5
  vh : BitVec 5
  sb : BitVec 4
  w : BitVec 2
  deriving DecidableEq, Repr

/-- `prim` (Table 10.4). -/
structure FPrim where
  vp : BitVec 5
  a : Src
  deriving DecidableEq, Repr

/-- `cwr` (Table 10.4). -/
structure FCwr where
  cc : BitVec 2
  bm : BitVec 4
  a : Src
  st : BitVec 4
  deriving DecidableEq, Repr

/-- `cclr`, `cdec` (Table 10.4). -/
structure FCclr where
  cc : BitVec 2
  st : BitVec 4
  sb : BitVec 4
  deriving DecidableEq, Repr

/-- `zcmp` (Table 10.4). -/
structure FZcmp where
  wr : Bool
  cond : BitVec 3
  pd : BitVec 4
  a : Src
  st : BitVec 4
  deriving DecidableEq, Repr

/-- Format B (R66). -/
structure FB where
  tpri : BitVec 4
  off14 : BitVec 14
  deriving DecidableEq, Repr

/-- `brx` (R118). -/
structure FBrx where
  tpri : BitVec 4
  a : Src
  deriving DecidableEq, Repr

/-- Format L (R66). -/
structure FL where
  sc : BitVec 4
  off14 : BitVec 14
  deriving DecidableEq, Repr

/-- `launch` (R122). -/
structure FLaunch where
  sd : BitVec 4
  q : BitVec 5
  sa : BitVec 4
  sb : BitVec 4
  ao : Bool
  deriving DecidableEq, Repr

/-- `emit` (R124). -/
structure FEmit where
  pd : BitVec 4
  a : Src
  b : Src
  deriving DecidableEq, Repr

/-- `await` (R369). -/
structure FAwait where
  cc : BitVec 2
  live : BitVec 16
  deriving DecidableEq, Repr

/-- `barinit` (Table 11.3). -/
structure FBi where
  a : Src
  b : Src
  deriving DecidableEq, Repr

/-- The barrier forms with one address (Table 11.3). -/
structure FBa where
  a : Src
  deriving DecidableEq, Repr

/-- `barjoin.now` (Table 11.3). -/
structure FBaN where
  a : Src
  deriving DecidableEq, Repr

/-- `fence` (R335). -/
structure FFence where
  scope : BitVec 3
  deriving DecidableEq, Repr

/-- `repl` (Table 13.8). -/
structure FRepl where
  a : Src
  half : Bool
  deriving DecidableEq, Repr

/-- `hmov` (Table 13.8). -/
structure FHmov where
  dir : Bool
  cl : BitVec 3
  n : BitVec 6
  h : BitVec 5
  deriving DecidableEq, Repr

/-- The control registers and records that REGISTER_WRITE reaches (R5): those with no row of their own. -/
inductive CtrlReg where
  /-- partition record `n` of a context (Table 2.7) -/
  | partition (ctx n : Nat)
  /-- trap control record of a context (Table 13.3); its first write creates the context -/
  | trapControl (ctx : Nat)
  /-- root table of a context (R248) -/
  | rootTable (ctx : Nat)
  /-- tensor identifier entry `n` of a context, written by system software (R20) -/
  | tensorEntry (ctx n : Nat)
  /-- share record `i` of a die (Table 9.3) -/
  | share (die i : Nat)
  /-- slot table of a channel of a die (Table 9.3) -/
  | channel (die h : Nat)
  /-- context area record `i` of a die (Table 15.7) -/
  | contextArea (die i : Nat)
  /-- tag record of a tile set (Table 7.7) -/
  | tagRecord (die cl set : Nat)
  /-- header of a save slot (Table 13.11) -/
  | slotHeader (ctx slot : Nat)
  /-- TLBINV with GO = 0 (Table 9.7) -/
  | tlbinvFields (die : Nat)
  /-- PREEMPT with GO = 0 (Table 13.10) -/
  | preemptFields (die : Nat)
  /-- DBGCTL's QUI and target with neither HALT nor STEP changed (Table 13.12) -/
  | dbgctlFields (die : Nat)
  /-- TRAPRES with ACT = 3, which does nothing more (Table 13.5) -/
  | trapresFields (die : Nat)
  /-- EVRING (Table 15.8) -/
  | evring
  /-- replica directory entry of a `repl` page at its home die; bit 0 of the value 1 = replicated (R252) -/
  | replica (die page : Nat)
  /-- the enable bit of a peer port, which firmware can clear (R397) -/
  | peerPort (n : Nat)
  deriving DecidableEq, Repr

/-- What a host access over the host link names: device memory (R341), or, read only, the lens table (R46, R385), the
retirement log and the event log (R385, R391), a host-link window (R381), and the registers BOOTST (R384), PKGPWR (R394) and EVRING
(R399). -/
inductive HostSpace where
  | device
  | lens
  | retireLog
  | eventLog
  | window (n : Nat)
  | bootst
  | pkgpwr
  | evring
  deriving DecidableEq, Repr

/-- A host access over the host link: `pa` is a physical address, an offset in the table, log or register, or an entry's place in the
event log (R341, R385). -/
structure HostAccess where
  write : Bool
  pa : Nat
  size : Nat
  data : BitVec 64
  space : HostSpace := .device
  deriving DecidableEq, Repr

/-- One constructor for each row of spec/opcode_table.json: the instructions with their sequence's head and format
fields, then the steps of other agents, those that only the outside world begins last. -/
inductive Instr where
  | nop (h : Head)
  | add (h : Head) (f : FR)
  | addI (h : Head) (f : FI)
  | sub (h : Head) (f : FR)
  | mul (h : Head) (f : FR)
  | mulh (h : Head) (f : FR)
  | mad (h : Head) (f : FR)
  | min (h : Head) (f : FR)
  | max (h : Head) (f : FR)
  | abs (h : Head) (f : FRu)
  | neg (h : Head) (f : FRu)
  | adds (h : Head) (f : FR)
  | subs (h : Head) (f : FR)
  | sad (h : Head) (f : FR)
  | and_ (h : Head) (f : FR)
  | andI (h : Head) (f : FI)
  | or_ (h : Head) (f : FR)
  | orI (h : Head) (f : FI)
  | xor_ (h : Head) (f : FR)
  | xorI (h : Head) (f : FI)
  | andn (h : Head) (f : FR)
  | not_ (h : Head) (f : FRu)
  | shl (h : Head) (f : FR)
  | shlI (h : Head) (f : FI)
  | shr (h : Head) (f : FR)
  | shrI (h : Head) (f : FI)
  | sar (h : Head) (f : FR)
  | sarI (h : Head) (f : FI)
  | rot (h : Head) (f : FR)
  | rotI (h : Head) (f : FI)
  | clz (h : Head) (f : FRu)
  | popc (h : Head) (f : FRu)
  | brev (h : Head) (f : FRu)
  | bfe (h : Head) (f : FR)
  | bfi (h : Head) (f : FR)
  | prmt (h : Head) (f : FR)
  | ext (h : Head) (f : FRu)
  | sel (h : Head) (f : FR)
  | cmp (h : Head) (f : FP)
  | cmpI (h : Head) (f : FPi)
  | pand (h : Head) (f : FQ)
  | por (h : Head) (f : FQ)
  | pxor (h : Head) (f : FQ)
  | pnot (h : Head) (f : FQu)
  | movpToVector (h : Head) (f : FMovpV)
  | movpToPredicates (h : Head) (f : FMovpP)
  | mov (h : Head) (f : FRu)
  | movi (h : Head) (f : FIu)
  | movs (h : Head) (f : FMovs)
  | movsw (h : Head) (f : FMovsw)
  | lea (h : Head) (f : FR)
  | leaI (h : Head) (f : FI)
  | fadd (h : Head) (f : FR)
  | fsub (h : Head) (f : FR)
  | fmul (h : Head) (f : FR)
  | ffma (h : Head) (f : FR)
  | fmin (h : Head) (f : FR)
  | fmax (h : Head) (f : FR)
  | fminm (h : Head) (f : FR)
  | fmaxm (h : Head) (f : FR)
  | fcmp (h : Head) (f : FP)
  | fclass (h : Head) (f : FPc)
  | frnd (h : Head) (f : FRu)
  | fscale (h : Head) (f : FR)
  | frcp (h : Head) (f : FRu)
  | frsq (h : Head) (f : FRu)
  | fsqrt (h : Head) (f : FRu)
  | fdivf (h : Head) (f : FR)
  | fexp2 (h : Head) (f : FRu)
  | flog2 (h : Head) (f : FRu)
  | fsin (h : Head) (f : FRu)
  | fcos (h : Head) (f : FRu)
  | ftanh (h : Head) (f : FRu)
  | cvt (h : Head) (f : FCvt)
  | cvtsr (h : Head) (f : FR)
  | pack (h : Head) (f : FR)
  | unpack (h : Head) (f : FR)
  | dot2 (h : Head) (f : FR)
  | dot4 (h : Head) (f : FR)
  | dot8 (h : Head) (f : FR)
  | dots (h : Head) (f : FR)
  | shfl (h : Head) (f : FShfl)
  | vote (h : Head) (f : FVote)
  | redg (h : Head) (f : FRedg)
  | scang (h : Head) (f : FScang)
  | bcast (h : Head) (f : FBcast)
  | ldN8 (h : Head) (f : FM)
  | ldN16 (h : Head) (f : FM)
  | ldN32 (h : Head) (f : FM)
  | ldB64 (h : Head) (f : FM)
  | ldS8 (h : Head) (f : FM)
  | ldS16 (h : Head) (f : FM)
  | ldS32 (h : Head) (f : FM)
  | stB8 (h : Head) (f : FM)
  | stB16 (h : Head) (f : FM)
  | stB32 (h : Head) (f : FM)
  | stB64 (h : Head) (f : FM)
  | ldfe (h : Head) (f : FM)
  | stfe (h : Head) (f : FM)
  | fefill (h : Head) (f : FM)
  | feq (h : Head) (f : FFeq)
  | atom (h : Head) (f : FM)
  | atomf (h : Head) (f : FM)
  | cas (h : Head) (f : FM)
  | pref (h : Head) (f : FMn)
  | cinv (h : Head) (f : FMn)
  | cwb (h : Head) (f : FMn)
  | waitk (h : Head) (f : FK4)
  | tdef (h : Head) (f : FTdef)
  | tinv (h : Head) (f : FTinv)
  | tget (h : Head) (f : FTget)
  | mzero (h : Head) (f : FK16)
  | mload (h : Head) (f : FMl)
  | mstore (h : Head) (f : FMl)
  | mmaW16 (h : Head) (f : FMma)
  | mmaW8 (h : Head) (f : FMma)
  | mmaW6 (h : Head) (f : FMma)
  | mmaW4 (h : Head) (f : FMma)
  | mwait (h : Head) (f : FK16)
  | copy (h : Head) (f : FCopy)
  | gres (h : Head) (f : FGres)
  | gresOpen (h : Head) (f : FGresO)
  | cflag (h : Head) (f : FCflag)
  | tlbp (h : Head) (f : FTlbp)
  | tlbpFill (h : Head) (f : FTlbpF)
  | pattrReplicate (h : Head) (f : FPattr0)
  | pattrCollapse (h : Head) (f : FPattr1)
  | pattrFlush (h : Head) (f : FPattr2)
  | coll (h : Head) (f : FPattr0)
  | tex (h : Head) (f : FTex)
  | trace (h : Head) (f : FTrace)
  | traceh (h : Head) (f : FTraceh)
  | prim (h : Head) (f : FPrim)
  | pend (h : Head)
  | cwr (h : Head) (f : FCwr)
  | cclr (h : Head) (f : FCclr)
  | cdec (h : Head) (f : FCclr)
  | zcmp (h : Head) (f : FZcmp)
  | bra (h : Head) (f : FB)
  | brx (h : Head) (f : FBrx)
  | brany (h : Head) (f : FB)
  | brall (h : Head) (f : FB)
  | call (h : Head) (f : FB)
  | ret (h : Head)
  | loop (h : Head) (f : FL)
  | rfpt (h : Head)
  | yield (h : Head)
  | launch (h : Head) (f : FLaunch)
  | emit (h : Head) (f : FEmit)
  | exit (h : Head)
  | await (h : Head) (f : FAwait)
  | barinit (h : Head) (f : FBi)
  | barjoin (h : Head) (f : FBa)
  | barjoinNow (h : Head) (f : FBaN)
  | bararr (h : Head) (f : FBa)
  | barwait (h : Head) (f : FBa)
  | bardrop (h : Head) (f : FBa)
  | pbar (h : Head)
  | cvset (h : Head) (f : FCvset)
  | fence (h : Head) (f : FFence)
  | fenceSc (h : Head)
  | trap (h : Head) (f : FK16)
  | rtt (h : Head)
  | rttSkip (h : Head)
  | brk (h : Head) (f : FK16)
  | repl (h : Head) (f : FRepl)
  | hmov (h : Head) (f : FHmov)
  | savept (h : Head) (f : FK16)
  /-- The service die of a queue admits its next LPB. (R32) -/
  | admission (ctx : Nat) (q : Nat)
  /-- A waiting launch is released. (R32) -/
  | release (l : Nat)
  /-- A launch whose drain conditions or status hold completes. (R34) -/
  | launchCompletion (l : Nat)
  /-- A die asks for a batch. (R36) -/
  | dealRequest (l : Nat) (die : Nat)
  /-- The home die serves the oldest request. (R36) -/
  | dealServe (l : Nat)
  /-- A die receives its reply. (R36) -/
  | dealReply (l : Nat) (die : Nat)
  /-- The dispatcher of a die places one gang. (R53) -/
  | placementStep (die : Nat)
  /-- A launch starved for 64 heartbeats holds the die. (R53) -/
  | starvationHold (die : Nat) (l : Nat)
  /-- A freed tile set is bound to the next parked gang. (R52) -/
  | tileSetBind (die : Nat) (cl : Nat)
  /-- A freed surge pool is granted. (R54) -/
  | surgeGrant (die : Nat) (cl : Nat) (core : Nat)
  /-- A free inrush token is granted to the oldest request. (R57) -/
  | inrushGrant (die : Nat)
  /-- A cluster wake completes and its token returns. (R57) -/
  | clusterWakeEnd (die : Nat) (cl : Nat)
  /-- A gate-down finishes. (R58) -/
  | gateDownEnd (die : Nat) (cl : Nat)
  /-- A store quarter ends its wake. (R230) -/
  | quarterWakeEnd (die : Nat) (cl : Nat) (quarter : Nat)
  /-- The clearing of a store range ends. (R231) -/
  | rangeClearEnd (die : Nat) (cl : Nat) (start : Nat)
  /-- A sched stall expires. (R107) -/
  | schedStallExpiry (g : Nat)
  /-- The refill entry of a group is selected. (R98) -/
  | refill (g : Nat)
  /-- A parked entry whose condition holds is unparked. (R95) -/
  | entryUnpark (g : Nat) (pc : Nat)
  /-- A counted operation completes for all its lanes. (R228) -/
  | countedOpComplete (op : Nat)
  /-- A bank performs its oldest queued access. (R221) -/
  | bankAccess (die : Nat) (cl : Nat) (bank : Nat)
  /-- A refused remote ldfe lane is sent again. (R226) -/
  | ldfeResend (acc : Nat)
  /-- An imprecise read error is delivered to its group. (R351) -/
  | memoryErrorDelivery (op : Nat)
  /-- The free matrix engine starts an eligible head. (R197) -/
  | matrixEngineStart (die : Nat) (cl : Nat)
  /-- The running matrix operation completes. (R198) -/
  | matrixOpComplete (die : Nat) (cl : Nat)
  /-- The base die performs a packet. (R244) -/
  | hbmPacket (die : Nat) (tag : Nat)
  /-- The render die receives the reply of a packet. (R244) -/
  | hbmReply (die : Nat) (tag : Nat)
  /-- A channel starts the packet chosen by its slot table. (R247) -/
  | channelSlot (die : Nat) (ch : Nat) (slot : Nat)
  /-- The oldest waiting walk starts. (R253) -/
  | pageWalkStart (die : Nat)
  /-- A running walk ends. (R253) -/
  | pageWalkDone (die : Nat) (walk : Nat)
  /-- The invalidation of a die ends. (R255) -/
  | tlbinvDone (die : Nat)
  /-- A die receives a collapse message. (R252) -/
  | collapseMessage (die : Nat) (page : Nat)
  /-- The home receives the acknowledgement of a die. (R252) -/
  | collapseAck (die : Nat) (page : Nat)
  /-- A channel starts the next engine queue head naming it. (R257) -/
  | copyStart (die : Nat) (ch : Nat)
  /-- A command in progress completes. (R267) -/
  | copyComplete (cmd : Nat)
  /-- A link direction grants a tag to its oldest request. (R261) -/
  | streamTagGrant (src : Nat) (dst : Nat)
  /-- The OPEN flit of a stream. (R260) -/
  | openFlit (st : Nat)
  /-- The next DATA flit of a stream is applied. (R262) -/
  | dataFlit (st : Nat)
  /-- The FLAG flit of a stream is applied. (R270) -/
  | flagFlit (st : Nat)
  /-- The CLOSE flit of a stream. (R261) -/
  | closeFlit (st : Nat)
  /-- An idle item stream is closed. (R334) -/
  | itemStreamClose (src : Nat) (dst : Nat)
  /-- An arriving write is applied. (R334) -/
  | remoteWriteApply (acc : Nat)
  /-- An owner receives a primitive. (R278) -/
  | primitivePacket (l : Nat) (src : Nat) (dst : Nat)
  /-- An owner receives an end marker. (R278) -/
  | endMarker (l : Nat) (src : Nat) (dst : Nat)
  /-- A die sends the end marker of a window. (R279) -/
  | markerSend (l : Nat) (die : Nat) (w : Nat)
  /-- The rasteriser takes the next released primitive. (R282) -/
  | rasterise (l : Nat) (die : Nat)
  /-- The colour unit applies a posted entry. (R292) -/
  | colourApply (l : Nat) (die : Nat) (ticket : Nat)
  /-- The depth unit applies a zcmp lane. (R293) -/
  | depthApply (l : Nat) (die : Nat) (ticket : Nat)
  /-- The ray unit finishes a traversal. (R300) -/
  | rayTraversalEnd (acc : Nat)
  /-- A die sends its package-barrier arrival. (R314) -/
  | dieArrival (l : Nat) (die : Nat)
  /-- A barrier-tree node forwards its gathered arrivals. (R314) -/
  | treeArrival (l : Nat) (node : Nat)
  /-- A release reaches a die. (R314) -/
  | pbarRelease (l : Nat) (die : Nat)
  /-- The collective engine matches a command by CID. (R318) -/
  | collectiveMatch (cmd : Nat)
  /-- A collective command completes. (R320) -/
  | collectiveComplete (cmd : Nat)
  /-- A relock ends. (R322) -/
  | relockEnd (die : Nat)
  /-- A die sends its next tick marker. (R338) -/
  | tickMarkerSend (die : Nat)
  /-- The tree gathers a tick marker. (R338) -/
  | tickMarker (die : Nat)
  /-- The closing of a tick reaches a die. (R338) -/
  | tickClosing (die : Nat)
  /-- The handler frame goes to the next stopped group. (R347) -/
  | handlerFrameGrant (die : Nat) (cl : Nat) (core : Nat)
  /-- A stopped gang is written to its slot. (R363) -/
  | gangSaved (gang : Nat)
  /-- A requested halt takes effect. (R366) -/
  | haltTakesEffect (g : Nat)
  /-- A continuation record becomes ready. (R370) -/
  | continuationReady (r : Nat)
  /-- A group retires. (R376) -/
  | groupRetire (g : Nat)
  /-- A gang retires. (R377) -/
  | gangRetire (gang : Nat)
  /-- A stalled core is scanned out. (R391) -/
  | watchdogScanout (die : Nat) (cl : Nat) (core : Nat)
  /-- A new watchdog threshold takes effect. (R400) -/
  | wdtRestart (die : Nat)
  /-- A peer package acknowledges a write. (R341) -/
  | peerAcknowledgement (acc : Nat)
  /-- A host-memory access is answered. (R380) -/
  | hostLinkReply (acc : Nat)
  /-- A read reply that crosses dies arrives. (R334) -/
  | remoteReadReply (acc : Nat)
  /-- A die becomes failed. (R389) -/
  | dieFailed (die : Nat)
  /-- The host writes TAIL alone. (R31) -/
  | doorbellWrite (ctx : Nat) (q : Nat) (tail : BitVec 48)
  /-- System software writes a whole queue descriptor. (R31) -/
  | descriptorWrite (ctx : Nat) (q : Nat) (d : BitVec 256)
  /-- The power manager commits an idle cluster to gating. (R58) -/
  | clusterGate (die : Nat) (cl : Nat)
  /-- The power manager gates an unused store quarter. (R229) -/
  | storeQuarterGate (die : Nat) (cl : Nat) (quarter : Nat)
  /-- A group of four die-cache ways is gated. (R234) -/
  | dieCacheWayGate (die : Nat) (ways : Nat)
  /-- A gated way group wakes. (R234) -/
  | dieCacheWayWake (die : Nat) (ways : Nat)
  /-- A ready, unchosen group's level rises. (R90) -/
  | levelRaise (g : Nat)
  /-- System software writes an element of the tile data window. (R201) -/
  | tileWindowWrite (die : Nat) (cl : Nat) (off : Nat) (v : BitVec 32)
  /-- A write of TLBINV. (R255) -/
  | tlbinv (die : Nat) (v : BitVec 128)
  /-- The power manager starts a frequency step. (R322) -/
  | frequencyStep (die : Nat) (f : Nat)
  /-- TRAPRES with ACT 0. (R353) -/
  | trapresRetry (die : Nat) (ctx : Nat) (grp : Word)
  /-- TRAPRES with ACT 1. (R353) -/
  | trapresForward (die : Nat) (ctx : Nat) (grp : Word)
  /-- TRAPRES with ACT 2. (R353) -/
  | trapresTerminate (die : Nat) (ctx : Nat) (grp : Word)
  /-- A write of PREEMPT. (R362) -/
  | preempt (die : Nat) (v : BitVec 128)
  /-- DBGCTL with HALT = 1. (R366) -/
  | dbgHalt (die : Nat) (v : BitVec 128)
  /-- DBGCTL with HALT = 0. (R366) -/
  | dbgResume (die : Nat) (v : BitVec 128)
  /-- DBGCTL with STEP = 1. (R366) -/
  | dbgStep (die : Nat) (v : BitVec 128)
  /-- A physical edge fails; direction 0 east, 1 south, 2 west, 3 north, 4 the router. (R45) -/
  | edgeFailure (px : Nat) (py : Nat) (dir : Nat)
  /-- A host-link port fails. (R380) -/
  | hostLinkPortFail (port : Nat)
  /-- System software writes WDTCTL. (R400) -/
  | wdtctlWrite (die : Nat) (v : BitVec 64)
  /-- The package powers up and boots. (R384) -/
  | powerUp
  /-- The host writes a new firmware image. (R387) -/
  | imageUpdate (sigOk : Bool) (secVer : Nat)
  /-- The host loads an image in recovery. (R387) -/
  | recoveryImageLoad (sigOk : Bool) (secVer : Nat)
  /-- SPDM GET_VERSION. (R388) -/
  | getVersion
  /-- SPDM GET_CAPABILITIES. (R388) -/
  | getCapabilities
  /-- SPDM NEGOTIATE_ALGORITHMS. (R388) -/
  | negotiateAlgorithms
  /-- SPDM GET_DIGESTS. (R388) -/
  | getDigests
  /-- SPDM GET_CERTIFICATE. (R388) -/
  | getCertificate
  /-- SPDM CHALLENGE. (R388) -/
  | challenge (nonce : Nat)
  /-- SPDM GET_MEASUREMENTS. (R388) -/
  | getMeasurements
  /-- The host writes a host-link window. (R381) -/
  | hostWindowWrite (n : Nat) (v : BitVec 128)
  /-- The host sets a peer port's enable bit. (R383) -/
  | peerPortEnable (n : Nat)
  /-- A corrected error in a page is counted; the sixteenth within an hour retires it. (R392) -/
  | correctedErrorRetire (die : Nat) (page : Nat)
  /-- A 1 ms power window ends with this measured power. (R394) -/
  | powerWindow (now : BitVec 16)
  /-- A write of LIMIT. (R394) -/
  | pkgpwrWrite (limit : BitVec 16)
  /-- Rail current is measured. (R395) -/
  | currentLimitTrip (amps : Nat)
  /-- Rail current is measured while limiting. (R395) -/
  | currentLimitRelease (amps : Nat)
  /-- A die's hottest sensor is read. (R396) -/
  | thermalStep (die : Nat) (degC : Nat)
  /-- A sensor reaches the trip point. (R396) -/
  | thermalTrip (degC : Nat)
  /-- A write to a control register or record with no row of its own. (R5) -/
  | registerWrite (r : CtrlReg) (v : BitVec 512)
  /-- External power is lost while an append has programmed this many bytes. (R393) -/
  | powerLoss (logBytes : Nat)
  /-- A peer port fails. (R383) -/
  | peerPortFail (n : Nat)
  /-- The host reads or writes device memory. (R341) -/
  | hostMemoryAccess (a : HostAccess)
  deriving DecidableEq, Repr

end Sys2Proof
end

