-- ==== Sys2Proof/Decode.lean ====
section
/-! DEFINITION. Decode: words to instructions, total and rejecting by the detail codes of Table 3.10, and the
encoder written from the same encoding tables (spec 03 and the chapters' encoding tables). -/

namespace Sys2Proof

/-! ### Source codes (Table 3.5) -/

/-- The source a 6-bit code names. -/
def Src.ofCode (c : BitVec 6) : Src :=
  if c.extractLsb' 5 1 = 0 then .v (c.extractLsb' 0 5)
  else if c.extractLsb' 4 1 = 1 then .s (c.extractLsb' 0 4)
  else if c.extractLsb' 2 2 = 0 then .latch (c.extractLsb' 0 2)
  else if c.extractLsb' 2 2 = 3 then .resv (c.extractLsb' 0 2)
  else .const (c.extractLsb' 0 3 - 4)

/-- The 6-bit code of a source. -/
def Src.code : Src → BitVec 6
  | .v n => 0#1 ++ n
  | .latch k => 0b1000#4 ++ k
  | .const c => 0b10#2 ++ ((0#1 ++ c) + 4#4)
  | .resv c => 0b1011#4 ++ c
  | .s n => 0b11#2 ++ n

/-! ### Format fields of bits [17:0] (R66 and the encoding tables) -/

def FR.ofBits (x : BitVec 18) : FR :=
  { nw := x.getLsbD 17, d := x.extractLsb' 12 5, a := Src.ofCode (x.extractLsb' 6 6), b := Src.ofCode (x.extractLsb' 0 6) }
def FR.bits (f : FR) : BitVec 18 := BitVec.ofBool f.nw ++ f.d ++ f.a.code ++ f.b.code

def FRu.ofBits (x : BitVec 18) : FRu :=
  { nw := x.getLsbD 17, d := x.extractLsb' 12 5, a := Src.ofCode (x.extractLsb' 6 6) }
def FRu.bits (f : FRu) : BitVec 18 := BitVec.ofBool f.nw ++ f.d ++ f.a.code ++ 0#6

def FI.ofBits (x : BitVec 18) : FI :=
  { nw := x.getLsbD 17, d := x.extractLsb' 12 5, a := Src.ofCode (x.extractLsb' 6 6), imm6 := x.extractLsb' 0 6 }
def FI.bits (f : FI) : BitVec 18 := BitVec.ofBool f.nw ++ f.d ++ f.a.code ++ f.imm6

def FIu.ofBits (x : BitVec 18) : FIu :=
  { nw := x.getLsbD 17, d := x.extractLsb' 12 5, imm6 := x.extractLsb' 0 6 }
def FIu.bits (f : FIu) : BitVec 18 := BitVec.ofBool f.nw ++ f.d ++ 0#6 ++ f.imm6

def FP.ofBits (x : BitVec 18) : FP :=
  { cond := x.extractLsb' 16 2, pd := x.extractLsb' 12 4, a := Src.ofCode (x.extractLsb' 6 6), b := Src.ofCode (x.extractLsb' 0 6) }
def FP.bits (f : FP) : BitVec 18 := f.cond ++ f.pd ++ f.a.code ++ f.b.code

def FPi.ofBits (x : BitVec 18) : FPi :=
  { cond := x.extractLsb' 16 2, pd := x.extractLsb' 12 4, a := Src.ofCode (x.extractLsb' 6 6), imm6 := x.extractLsb' 0 6 }
def FPi.bits (f : FPi) : BitVec 18 := f.cond ++ f.pd ++ f.a.code ++ f.imm6

def FPc.ofBits (x : BitVec 18) : FPc :=
  { pd := x.extractLsb' 12 4, a := Src.ofCode (x.extractLsb' 6 6), b := Src.ofCode (x.extractLsb' 0 6) }
def FPc.bits (f : FPc) : BitVec 18 := 0#2 ++ f.pd ++ f.a.code ++ f.b.code

def FQ.ofBits (x : BitVec 18) : FQ :=
  { pd := x.extractLsb' 12 4, n1 := x.getLsbD 11, pa := x.extractLsb' 6 4, n2 := x.getLsbD 5, pb := x.extractLsb' 0 4 }
def FQ.bits (f : FQ) : BitVec 18 := 0#2 ++ f.pd ++ BitVec.ofBool f.n1 ++ 0#1 ++ f.pa ++ BitVec.ofBool f.n2 ++ 0#1 ++ f.pb

def FQu.ofBits (x : BitVec 18) : FQu :=
  { pd := x.extractLsb' 12 4, n1 := x.getLsbD 11, pa := x.extractLsb' 6 4 }
def FQu.bits (f : FQu) : BitVec 18 := 0#2 ++ f.pd ++ BitVec.ofBool f.n1 ++ 0#1 ++ f.pa ++ 0#6

def FMovpV.ofBits (x : BitVec 18) : FMovpV :=
  { d := x.extractLsb' 12 5, one := x.getLsbD 5, pn := x.extractLsb' 0 4 }
def FMovpV.bits (f : FMovpV) : BitVec 18 := 0#1 ++ f.d ++ 0#6 ++ BitVec.ofBool f.one ++ 0#1 ++ f.pn

def FMovpP.ofBits (x : BitVec 18) : FMovpP :=
  { a := Src.ofCode (x.extractLsb' 6 6), one := x.getLsbD 5, pn := x.extractLsb' 0 4 }
def FMovpP.bits (f : FMovpP) : BitVec 18 := 1#1 ++ 0#5 ++ f.a.code ++ BitVec.ofBool f.one ++ 0#1 ++ f.pn

def FMovs.ofBits (x : BitVec 18) : FMovs :=
  { sd := x.getLsbD 17, d := x.extractLsb' 12 5, a := Src.ofCode (x.extractLsb' 6 6), srn := x.extractLsb' 0 6 }
def FMovs.bits (f : FMovs) : BitVec 18 := BitVec.ofBool f.sd ++ f.d ++ f.a.code ++ f.srn

def FMovsw.ofBits (x : BitVec 18) : FMovsw :=
  { a := Src.ofCode (x.extractLsb' 6 6), srn := x.extractLsb' 0 6 }
def FMovsw.bits (f : FMovsw) : BitVec 18 := 0#6 ++ f.a.code ++ f.srn

def FCvt.ofBits (x : BitVec 18) : FCvt :=
  { sat := x.getLsbD 17, d := x.extractLsb' 12 5, a := Src.ofCode (x.extractLsb' 6 6), stype := x.extractLsb' 1 5, rtz := x.getLsbD 0 }
def FCvt.bits (f : FCvt) : BitVec 18 := BitVec.ofBool f.sat ++ f.d ++ f.a.code ++ f.stype ++ BitVec.ofBool f.rtz

def FShfl.ofBits (x : BitVec 18) : FShfl :=
  { wc := x.extractLsb' 16 2, d := x.extractLsb' 11 5, vs := x.extractLsb' 6 5, b := Src.ofCode (x.extractLsb' 0 6) }
def FShfl.bits (f : FShfl) : BitVec 18 := f.wc ++ f.d ++ f.vs ++ f.b.code

def FVote.ofBits (x : BitVec 18) : FVote :=
  { op := x.extractLsb' 16 2, d := x.extractLsb' 11 5, pa := x.extractLsb' 7 4, n := x.getLsbD 6 }
def FVote.bits (f : FVote) : BitVec 18 := f.op ++ f.d ++ f.pa ++ BitVec.ofBool f.n ++ 0#6

def FRedg.ofBits (x : BitVec 18) : FRedg :=
  { op := x.extractLsb' 15 3, d := x.extractLsb' 8 5, a := Src.ofCode (x.extractLsb' 2 6) }
def FRedg.bits (f : FRedg) : BitVec 18 := f.op ++ 0#2 ++ f.d ++ f.a.code ++ 0#2

def FScang.ofBits (x : BitVec 18) : FScang :=
  { op := x.extractLsb' 15 3, incl := x.getLsbD 14, d := x.extractLsb' 8 5, a := Src.ofCode (x.extractLsb' 2 6) }
def FScang.bits (f : FScang) : BitVec 18 := f.op ++ BitVec.ofBool f.incl ++ 0#1 ++ f.d ++ f.a.code ++ 0#2

def FBcast.ofBits (x : BitVec 18) : FBcast :=
  { d := x.extractLsb' 12 5, a := Src.ofCode (x.extractLsb' 6 6), first := x.getLsbD 5, lane := x.extractLsb' 0 5 }
def FBcast.bits (f : FBcast) : BitVec 18 := 0#1 ++ f.d ++ f.a.code ++ BitVec.ofBool f.first ++ f.lane

def FM.ofBits (x : BitVec 18) : FM :=
  { cc := x.extractLsb' 16 2, d := x.extractLsb' 11 5, a := Src.ofCode (x.extractLsb' 5 6), off5 := x.extractLsb' 0 5 }
def FM.bits (f : FM) : BitVec 18 := f.cc ++ f.d ++ f.a.code ++ f.off5

def FFeq.ofBits (x : BitVec 18) : FFeq :=
  { cc := x.extractLsb' 16 2, pd := x.extractLsb' 11 4, a := Src.ofCode (x.extractLsb' 5 6), off5 := x.extractLsb' 0 5 }
def FFeq.bits (f : FFeq) : BitVec 18 := f.cc ++ 0#1 ++ f.pd ++ f.a.code ++ f.off5

def FMn.ofBits (x : BitVec 18) : FMn :=
  { cc := x.extractLsb' 16 2, a := Src.ofCode (x.extractLsb' 5 6), off5 := x.extractLsb' 0 5 }
def FMn.bits (f : FMn) : BitVec 18 := f.cc ++ 0#5 ++ f.a.code ++ f.off5

def FK4.ofBits (x : BitVec 18) : FK4 :=
  { mask := x.extractLsb' 0 4 }
def FK4.bits (f : FK4) : BitVec 18 := 0#14 ++ f.mask

def FK16.ofBits (x : BitVec 18) : FK16 :=
  { mask := x.extractLsb' 0 16 }
def FK16.bits (f : FK16) : BitVec 18 := 0#2 ++ f.mask

def FTdef.ofBits (x : BitVec 18) : FTdef :=
  { tid := x.extractLsb' 10 8, sd := x.extractLsb' 6 4, sa := x.extractLsb' 2 4 }
def FTdef.bits (f : FTdef) : BitVec 18 := f.tid ++ f.sd ++ f.sa ++ 0#2

def FTinv.ofBits (x : BitVec 18) : FTinv :=
  { tid := x.extractLsb' 10 8 }
def FTinv.bits (f : FTinv) : BitVec 18 := f.tid ++ 0#10

def FTget.ofBits (x : BitVec 18) : FTget :=
  { d := x.extractLsb' 12 5, a := Src.ofCode (x.extractLsb' 6 6), w := x.extractLsb' 3 3 }
def FTget.bits (f : FTget) : BitVec 18 := 0#1 ++ f.d ++ f.a.code ++ f.w ++ 0#3

def FMl.ofBits (x : BitVec 18) : FMl :=
  { mt := x.extractLsb' 14 4, sa := x.extractLsb' 10 4 }
def FMl.bits (f : FMl) : BitVec 18 := f.mt ++ f.sa ++ 0#10

def FMma.ofBits (x : BitVec 18) : FMma :=
  { mt := x.extractLsb' 14 4, cv := x.extractLsb' 11 3, va := x.extractLsb' 6 5, vb := x.extractLsb' 1 5 }
def FMma.bits (f : FMma) : BitVec 18 := f.mt ++ f.cv ++ f.va ++ f.vb ++ 0#1

def FCvset.ofBits (x : BitVec 18) : FCvset :=
  { cv := x.extractLsb' 15 3, cm1 := x.extractLsb' 0 9 }
def FCvset.bits (f : FCvset) : BitVec 18 := f.cv ++ 0#6 ++ f.cm1

def FCopy.ofBits (x : BitVec 18) : FCopy :=
  { cc := x.extractLsb' 16 2, ch := x.extractLsb' 14 2, sa := x.extractLsb' 10 4 }
def FCopy.bits (f : FCopy) : BitVec 18 := f.cc ++ f.ch ++ f.sa ++ 0#10

def FGres.ofBits (x : BitVec 18) : FGres :=
  { slot := x.extractLsb' 15 3, a := Src.ofCode (x.extractLsb' 6 6) }
def FGres.bits (f : FGres) : BitVec 18 := f.slot ++ 0#1 ++ 0#2 ++ f.a.code ++ 0#6

def FGresO.ofBits (x : BitVec 18) : FGresO :=
  { slot := x.extractLsb' 15 3 }
def FGresO.bits (f : FGresO) : BitVec 18 := f.slot ++ 1#1 ++ 0#14

def FCflag.ofBits (x : BitVec 18) : FCflag :=
  { cc := x.extractLsb' 16 2, ch := x.extractLsb' 14 2, sa := x.extractLsb' 10 4, sv := x.extractLsb' 6 4 }
def FCflag.bits (f : FCflag) : BitVec 18 := f.cc ++ f.ch ++ f.sa ++ f.sv ++ 0#6

def FTlbp.ofBits (x : BitVec 18) : FTlbp :=
  { sd := x.extractLsb' 14 4, sa := x.extractLsb' 10 4 }
def FTlbp.bits (f : FTlbp) : BitVec 18 := f.sd ++ f.sa ++ 0#1 ++ 0#9

def FTlbpF.ofBits (x : BitVec 18) : FTlbpF :=
  { sd := x.extractLsb' 14 4, sa := x.extractLsb' 10 4 }
def FTlbpF.bits (f : FTlbpF) : BitVec 18 := f.sd ++ f.sa ++ 1#1 ++ 0#9

def FPattr0.ofBits (x : BitVec 18) : FPattr0 :=
  { cc := x.extractLsb' 16 2, sa := x.extractLsb' 10 4 }
def FPattr0.bits (f : FPattr0) : BitVec 18 := f.cc ++ 0#2 ++ f.sa ++ 0#10

def FPattr1.ofBits (x : BitVec 18) : FPattr1 :=
  { cc := x.extractLsb' 16 2, sa := x.extractLsb' 10 4 }
def FPattr1.bits (f : FPattr1) : BitVec 18 := f.cc ++ 0#1 ++ 1#1 ++ f.sa ++ 0#10

def FPattr2.ofBits (x : BitVec 18) : FPattr2 :=
  { cc := x.extractLsb' 16 2, sa := x.extractLsb' 10 4 }
def FPattr2.bits (f : FPattr2) : BitVec 18 := f.cc ++ 1#1 ++ 0#1 ++ f.sa ++ 0#10

def FTex.ofBits (x : BitVec 18) : FTex :=
  { cc := x.extractLsb' 16 2, d := x.extractLsb' 11 5, vc := x.extractLsb' 6 5, st := x.extractLsb' 2 4, filt := x.getLsbD 1, wrap := x.getLsbD 0 }
def FTex.bits (f : FTex) : BitVec 18 := f.cc ++ f.d ++ f.vc ++ f.st ++ BitVec.ofBool f.filt ++ BitVec.ofBool f.wrap

def FTrace.ofBits (x : BitVec 18) : FTrace :=
  { cc := x.extractLsb' 16 2, vh := x.extractLsb' 11 5, vr := x.extractLsb' 6 5, sb := x.extractLsb' 2 4, mode := x.extractLsb' 0 2 }
def FTrace.bits (f : FTrace) : BitVec 18 := f.cc ++ f.vh ++ f.vr ++ f.sb ++ f.mode

def FTraceh.ofBits (x : BitVec 18) : FTraceh :=
  { cc := x.extractLsb' 16 2, d := x.extractLsb' 11 5, vh := x.extractLsb' 6 5, sb := x.extractLsb' 2 4, w := x.extractLsb' 0 2 }
def FTraceh.bits (f : FTraceh) : BitVec 18 := f.cc ++ f.d ++ f.vh ++ f.sb ++ f.w

def FPrim.ofBits (x : BitVec 18) : FPrim :=
  { vp := x.extractLsb' 12 5, a := Src.ofCode (x.extractLsb' 6 6) }
def FPrim.bits (f : FPrim) : BitVec 18 := 0#1 ++ f.vp ++ f.a.code ++ 0#6

def FCwr.ofBits (x : BitVec 18) : FCwr :=
  { cc := x.extractLsb' 16 2, bm := x.extractLsb' 12 4, a := Src.ofCode (x.extractLsb' 6 6), st := x.extractLsb' 2 4 }
def FCwr.bits (f : FCwr) : BitVec 18 := f.cc ++ f.bm ++ f.a.code ++ f.st ++ 0#2

def FCclr.ofBits (x : BitVec 18) : FCclr :=
  { cc := x.extractLsb' 16 2, st := x.extractLsb' 12 4, sb := x.extractLsb' 8 4 }
def FCclr.bits (f : FCclr) : BitVec 18 := f.cc ++ f.st ++ f.sb ++ 0#8

def FZcmp.ofBits (x : BitVec 18) : FZcmp :=
  { wr := x.getLsbD 17, cond := x.extractLsb' 14 3, pd := x.extractLsb' 10 4, a := Src.ofCode (x.extractLsb' 4 6), st := x.extractLsb' 0 4 }
def FZcmp.bits (f : FZcmp) : BitVec 18 := BitVec.ofBool f.wr ++ f.cond ++ f.pd ++ f.a.code ++ f.st

def FB.ofBits (x : BitVec 18) : FB :=
  { tpri := x.extractLsb' 14 4, off14 := x.extractLsb' 0 14 }
def FB.bits (f : FB) : BitVec 18 := f.tpri ++ f.off14

def FBrx.ofBits (x : BitVec 18) : FBrx :=
  { tpri := x.extractLsb' 14 4, a := Src.ofCode (x.extractLsb' 6 6) }
def FBrx.bits (f : FBrx) : BitVec 18 := f.tpri ++ 0#2 ++ f.a.code ++ 0#6

def FL.ofBits (x : BitVec 18) : FL :=
  { sc := x.extractLsb' 14 4, off14 := x.extractLsb' 0 14 }
def FL.bits (f : FL) : BitVec 18 := f.sc ++ f.off14

def FLaunch.ofBits (x : BitVec 18) : FLaunch :=
  { sd := x.extractLsb' 14 4, q := x.extractLsb' 9 5, sa := x.extractLsb' 5 4, sb := x.extractLsb' 1 4, ao := x.getLsbD 0 }
def FLaunch.bits (f : FLaunch) : BitVec 18 := f.sd ++ f.q ++ f.sa ++ f.sb ++ BitVec.ofBool f.ao

def FEmit.ofBits (x : BitVec 18) : FEmit :=
  { pd := x.extractLsb' 12 4, a := Src.ofCode (x.extractLsb' 6 6), b := Src.ofCode (x.extractLsb' 0 6) }
def FEmit.bits (f : FEmit) : BitVec 18 := 0#2 ++ f.pd ++ f.a.code ++ f.b.code

def FAwait.ofBits (x : BitVec 18) : FAwait :=
  { cc := x.extractLsb' 16 2, live := x.extractLsb' 0 16 }
def FAwait.bits (f : FAwait) : BitVec 18 := f.cc ++ f.live

def FBi.ofBits (x : BitVec 18) : FBi :=
  { a := Src.ofCode (x.extractLsb' 6 6), b := Src.ofCode (x.extractLsb' 0 6) }
def FBi.bits (f : FBi) : BitVec 18 := 0#6 ++ f.a.code ++ f.b.code

def FBa.ofBits (x : BitVec 18) : FBa :=
  { a := Src.ofCode (x.extractLsb' 6 6) }
def FBa.bits (f : FBa) : BitVec 18 := 0#1 ++ 0#5 ++ f.a.code ++ 0#6

def FBaN.ofBits (x : BitVec 18) : FBaN :=
  { a := Src.ofCode (x.extractLsb' 6 6) }
def FBaN.bits (f : FBaN) : BitVec 18 := 1#1 ++ 0#5 ++ f.a.code ++ 0#6

def FFence.ofBits (x : BitVec 18) : FFence :=
  { scope := x.extractLsb' 15 3 }
def FFence.bits (f : FFence) : BitVec 18 := f.scope ++ 0#15

def FRepl.ofBits (x : BitVec 18) : FRepl :=
  { a := Src.ofCode (x.extractLsb' 6 6), half := x.getLsbD 5 }
def FRepl.bits (f : FRepl) : BitVec 18 := 0#6 ++ f.a.code ++ BitVec.ofBool f.half ++ 0#5

def FHmov.ofBits (x : BitVec 18) : FHmov :=
  { dir := x.getLsbD 17, cl := x.extractLsb' 14 3, n := x.extractLsb' 8 6, h := x.extractLsb' 3 5 }
def FHmov.bits (f : FHmov) : BitVec 18 := BitVec.ofBool f.dir ++ f.cl ++ f.n ++ f.h ++ 0#3

/-! ### Instruction words -/

/-- The instruction word of a guard, an opcode and format bits (R59). -/
def wordOf (g : Option Guard) (op : BitVec 8) (x : BitVec 18) : BitVec 32 :=
  match g with
  | none => 0#6 ++ op ++ x
  | some g => 1#1 ++ g.p ++ BitVec.ofBool g.ps ++ op ++ x

/-- Reserved bits of [17:0] for an opcode and its variant bits (R66, R77 code 0x03). -/
def reservedMask (op : Nat) (x : BitVec 18) : BitVec 18 :=
  match op with
  | 0x00 => 0x3ffff
  | 0x01 => 0x00000
  | 0x02 => 0x00000
  | 0x03 => 0x00000
  | 0x04 => 0x00000
  | 0x05 => 0x00000
  | 0x06 => 0x00000
  | 0x07 => 0x00000
  | 0x08 => 0x00000
  | 0x09 => 0x0003f
  | 0x0a => 0x0003f
  | 0x0b => 0x00000
  | 0x0c => 0x00000
  | 0x0d => 0x00000
  | 0x10 => 0x00000
  | 0x11 => 0x00000
  | 0x12 => 0x00000
  | 0x13 => 0x00000
  | 0x14 => 0x00000
  | 0x15 => 0x00000
  | 0x16 => 0x00000
  | 0x17 => 0x0003f
  | 0x18 => 0x00000
  | 0x19 => 0x00000
  | 0x1a => 0x00000
  | 0x1b => 0x00000
  | 0x1c => 0x00000
  | 0x1d => 0x00000
  | 0x1e => 0x00000
  | 0x1f => 0x00000
  | 0x20 => 0x0003f
  | 0x21 => 0x0003f
  | 0x22 => 0x0003f
  | 0x23 => 0x00000
  | 0x24 => 0x00000
  | 0x25 => 0x00000
  | 0x26 => 0x0003f
  | 0x28 => 0x00000
  | 0x29 => 0x00000
  | 0x2a => 0x00000
  | 0x2b => 0x30410
  | 0x2c => 0x30410
  | 0x2d => 0x30410
  | 0x2e => 0x3043f
  | 0x2f => if x.getLsbD 17 then 0x1f010 else 0x20fd0
  | 0x30 => 0x0003f
  | 0x31 => 0x00fc0
  | 0x32 => 0x00000
  | 0x33 => 0x3f000
  | 0x34 => 0x00000
  | 0x35 => 0x00000
  | 0x40 => 0x00000
  | 0x41 => 0x00000
  | 0x42 => 0x00000
  | 0x43 => 0x00000
  | 0x44 => 0x00000
  | 0x45 => 0x00000
  | 0x46 => 0x00000
  | 0x47 => 0x00000
  | 0x48 => 0x00000
  | 0x49 => 0x30000
  | 0x4a => 0x0003f
  | 0x4b => 0x00000
  | 0x50 => 0x0003f
  | 0x51 => 0x0003f
  | 0x52 => 0x0003f
  | 0x53 => 0x00000
  | 0x54 => 0x0003f
  | 0x55 => 0x0003f
  | 0x56 => 0x0003f
  | 0x57 => 0x0003f
  | 0x58 => 0x0003f
  | 0x60 => 0x00000
  | 0x61 => 0x00000
  | 0x62 => 0x00000
  | 0x63 => 0x00000
  | 0x70 => 0x00000
  | 0x71 => 0x00000
  | 0x72 => 0x00000
  | 0x73 => 0x00000
  | 0x80 => 0x00000
  | 0x81 => 0x0003f
  | 0x82 => 0x06003
  | 0x83 => 0x02003
  | 0x84 => 0x20000
  | 0x90 => 0x00000
  | 0x91 => 0x00000
  | 0x92 => 0x00000
  | 0x93 => 0x00000
  | 0x94 => 0x00000
  | 0x95 => 0x00000
  | 0x96 => 0x00000
  | 0x98 => 0x00000
  | 0x99 => 0x00000
  | 0x9a => 0x00000
  | 0x9b => 0x00000
  | 0xa0 => 0x00000
  | 0xa1 => 0x00000
  | 0xa2 => 0x00000
  | 0xa3 => 0x08000
  | 0xa4 => 0x00000
  | 0xa5 => 0x00000
  | 0xa6 => 0x00000
  | 0xa7 => 0x0f800
  | 0xa8 => 0x0f800
  | 0xa9 => 0x0f800
  | 0xaa => 0x3fff0
  | 0xb0 => 0x00003
  | 0xb1 => 0x003ff
  | 0xb2 => 0x20007
  | 0xb3 => 0x30000
  | 0xb4 => 0x003ff
  | 0xb5 => 0x003ff
  | 0xb8 => 0x00001
  | 0xb9 => 0x00001
  | 0xba => 0x00001
  | 0xbb => 0x00001
  | 0xbc => 0x30000
  | 0xc0 => 0x003ff
  | 0xc1 => if x.getLsbD 14 then 0x03fff else 0x0703f
  | 0xc2 => 0x0003f
  | 0xc3 => 0x001ff
  | 0xc4 => 0x003ff
  | 0xc5 => 0x0c3ff
  | 0xc6 => 0x00000
  | 0xc7 => 0x00000
  | 0xc8 => 0x00000
  | 0xd0 => 0x2003f
  | 0xd1 => 0x3ffff
  | 0xd2 => 0x00003
  | 0xd3 => 0x000ff
  | 0xd4 => 0x000ff
  | 0xd5 => 0x00000
  | 0xe0 => 0x00000
  | 0xe1 => 0x0303f
  | 0xe2 => 0x00000
  | 0xe3 => 0x00000
  | 0xe4 => 0x00000
  | 0xe5 => 0x3ffff
  | 0xe6 => 0x00000
  | 0xe7 => 0x3ffff
  | 0xe8 => 0x3ffff
  | 0xe9 => 0x00000
  | 0xea => 0x30000
  | 0xeb => 0x3ffff
  | 0xec => 0x00000
  | 0xf0 => 0x3f000
  | 0xf1 => 0x1f03f
  | 0xf2 => 0x3f03f
  | 0xf3 => 0x3f03f
  | 0xf4 => 0x3f03f
  | 0xf5 => 0x3ffff
  | 0xf6 => 0x07e00
  | 0xf7 => 0x07fff
  | 0xf8 => 0x3ffff
  | 0xf9 => 0x30000
  | 0xfa => 0x3fffe
  | 0xfb => 0x30000
  | 0xfc => 0x3f01f
  | 0xfd => 0x00007
  | 0xfe => 0x30000
  | _ => 0

/-- The instruction of an opcode, head and format bits; none where the opcode is reserved or `pattr` has OP 3. -/
def decodeOp (op : Nat) (h : Head) (x : BitVec 18) : Option Instr :=
  match op with
  | 0x00 => some (.nop h)
  | 0x01 => some (.add h (FR.ofBits x))
  | 0x02 => some (.addI h (FI.ofBits x))
  | 0x03 => some (.sub h (FR.ofBits x))
  | 0x04 => some (.mul h (FR.ofBits x))
  | 0x05 => some (.mulh h (FR.ofBits x))
  | 0x06 => some (.mad h (FR.ofBits x))
  | 0x07 => some (.min h (FR.ofBits x))
  | 0x08 => some (.max h (FR.ofBits x))
  | 0x09 => some (.abs h (FRu.ofBits x))
  | 0x0a => some (.neg h (FRu.ofBits x))
  | 0x0b => some (.adds h (FR.ofBits x))
  | 0x0c => some (.subs h (FR.ofBits x))
  | 0x0d => some (.sad h (FR.ofBits x))
  | 0x10 => some (.and_ h (FR.ofBits x))
  | 0x11 => some (.andI h (FI.ofBits x))
  | 0x12 => some (.or_ h (FR.ofBits x))
  | 0x13 => some (.orI h (FI.ofBits x))
  | 0x14 => some (.xor_ h (FR.ofBits x))
  | 0x15 => some (.xorI h (FI.ofBits x))
  | 0x16 => some (.andn h (FR.ofBits x))
  | 0x17 => some (.not_ h (FRu.ofBits x))
  | 0x18 => some (.shl h (FR.ofBits x))
  | 0x19 => some (.shlI h (FI.ofBits x))
  | 0x1a => some (.shr h (FR.ofBits x))
  | 0x1b => some (.shrI h (FI.ofBits x))
  | 0x1c => some (.sar h (FR.ofBits x))
  | 0x1d => some (.sarI h (FI.ofBits x))
  | 0x1e => some (.rot h (FR.ofBits x))
  | 0x1f => some (.rotI h (FI.ofBits x))
  | 0x20 => some (.clz h (FRu.ofBits x))
  | 0x21 => some (.popc h (FRu.ofBits x))
  | 0x22 => some (.brev h (FRu.ofBits x))
  | 0x23 => some (.bfe h (FR.ofBits x))
  | 0x24 => some (.bfi h (FR.ofBits x))
  | 0x25 => some (.prmt h (FR.ofBits x))
  | 0x26 => some (.ext h (FRu.ofBits x))
  | 0x28 => some (.sel h (FR.ofBits x))
  | 0x29 => some (.cmp h (FP.ofBits x))
  | 0x2a => some (.cmpI h (FPi.ofBits x))
  | 0x2b => some (.pand h (FQ.ofBits x))
  | 0x2c => some (.por h (FQ.ofBits x))
  | 0x2d => some (.pxor h (FQ.ofBits x))
  | 0x2e => some (.pnot h (FQu.ofBits x))
  | 0x2f => if x.getLsbD 17 then some (.movpToPredicates h (FMovpP.ofBits x)) else some (.movpToVector h (FMovpV.ofBits x))
  | 0x30 => some (.mov h (FRu.ofBits x))
  | 0x31 => some (.movi h (FIu.ofBits x))
  | 0x32 => some (.movs h (FMovs.ofBits x))
  | 0x33 => some (.movsw h (FMovsw.ofBits x))
  | 0x34 => some (.lea h (FR.ofBits x))
  | 0x35 => some (.leaI h (FI.ofBits x))
  | 0x40 => some (.fadd h (FR.ofBits x))
  | 0x41 => some (.fsub h (FR.ofBits x))
  | 0x42 => some (.fmul h (FR.ofBits x))
  | 0x43 => some (.ffma h (FR.ofBits x))
  | 0x44 => some (.fmin h (FR.ofBits x))
  | 0x45 => some (.fmax h (FR.ofBits x))
  | 0x46 => some (.fminm h (FR.ofBits x))
  | 0x47 => some (.fmaxm h (FR.ofBits x))
  | 0x48 => some (.fcmp h (FP.ofBits x))
  | 0x49 => some (.fclass h (FPc.ofBits x))
  | 0x4a => some (.frnd h (FRu.ofBits x))
  | 0x4b => some (.fscale h (FR.ofBits x))
  | 0x50 => some (.frcp h (FRu.ofBits x))
  | 0x51 => some (.frsq h (FRu.ofBits x))
  | 0x52 => some (.fsqrt h (FRu.ofBits x))
  | 0x53 => some (.fdivf h (FR.ofBits x))
  | 0x54 => some (.fexp2 h (FRu.ofBits x))
  | 0x55 => some (.flog2 h (FRu.ofBits x))
  | 0x56 => some (.fsin h (FRu.ofBits x))
  | 0x57 => some (.fcos h (FRu.ofBits x))
  | 0x58 => some (.ftanh h (FRu.ofBits x))
  | 0x60 => some (.cvt h (FCvt.ofBits x))
  | 0x61 => some (.cvtsr h (FR.ofBits x))
  | 0x62 => some (.pack h (FR.ofBits x))
  | 0x63 => some (.unpack h (FR.ofBits x))
  | 0x70 => some (.dot2 h (FR.ofBits x))
  | 0x71 => some (.dot4 h (FR.ofBits x))
  | 0x72 => some (.dot8 h (FR.ofBits x))
  | 0x73 => some (.dots h (FR.ofBits x))
  | 0x80 => some (.shfl h (FShfl.ofBits x))
  | 0x81 => some (.vote h (FVote.ofBits x))
  | 0x82 => some (.redg h (FRedg.ofBits x))
  | 0x83 => some (.scang h (FScang.ofBits x))
  | 0x84 => some (.bcast h (FBcast.ofBits x))
  | 0x90 => some (.ldN8 h (FM.ofBits x))
  | 0x91 => some (.ldN16 h (FM.ofBits x))
  | 0x92 => some (.ldN32 h (FM.ofBits x))
  | 0x93 => some (.ldB64 h (FM.ofBits x))
  | 0x94 => some (.ldS8 h (FM.ofBits x))
  | 0x95 => some (.ldS16 h (FM.ofBits x))
  | 0x96 => some (.ldS32 h (FM.ofBits x))
  | 0x98 => some (.stB8 h (FM.ofBits x))
  | 0x99 => some (.stB16 h (FM.ofBits x))
  | 0x9a => some (.stB32 h (FM.ofBits x))
  | 0x9b => some (.stB64 h (FM.ofBits x))
  | 0xa0 => some (.ldfe h (FM.ofBits x))
  | 0xa1 => some (.stfe h (FM.ofBits x))
  | 0xa2 => some (.fefill h (FM.ofBits x))
  | 0xa3 => some (.feq h (FFeq.ofBits x))
  | 0xa4 => some (.atom h (FM.ofBits x))
  | 0xa5 => some (.atomf h (FM.ofBits x))
  | 0xa6 => some (.cas h (FM.ofBits x))
  | 0xa7 => some (.pref h (FMn.ofBits x))
  | 0xa8 => some (.cinv h (FMn.ofBits x))
  | 0xa9 => some (.cwb h (FMn.ofBits x))
  | 0xaa => some (.waitk h (FK4.ofBits x))
  | 0xb0 => some (.tdef h (FTdef.ofBits x))
  | 0xb1 => some (.tinv h (FTinv.ofBits x))
  | 0xb2 => some (.tget h (FTget.ofBits x))
  | 0xb3 => some (.mzero h (FK16.ofBits x))
  | 0xb4 => some (.mload h (FMl.ofBits x))
  | 0xb5 => some (.mstore h (FMl.ofBits x))
  | 0xb8 => some (.mmaW16 h (FMma.ofBits x))
  | 0xb9 => some (.mmaW8 h (FMma.ofBits x))
  | 0xba => some (.mmaW6 h (FMma.ofBits x))
  | 0xbb => some (.mmaW4 h (FMma.ofBits x))
  | 0xbc => some (.mwait h (FK16.ofBits x))
  | 0xc0 => some (.copy h (FCopy.ofBits x))
  | 0xc1 => if x.getLsbD 14 then some (.gresOpen h (FGresO.ofBits x)) else some (.gres h (FGres.ofBits x))
  | 0xc2 => some (.cflag h (FCflag.ofBits x))
  | 0xc3 => if x.getLsbD 9 then some (.tlbpFill h (FTlbpF.ofBits x)) else some (.tlbp h (FTlbp.ofBits x))
  | 0xc4 =>
    if x.getLsbD 15 then (if x.getLsbD 14 then none else some (.pattrFlush h (FPattr2.ofBits x)))
    else if x.getLsbD 14 then some (.pattrCollapse h (FPattr1.ofBits x)) else some (.pattrReplicate h (FPattr0.ofBits x))
  | 0xc5 => some (.coll h (FPattr0.ofBits x))
  | 0xc6 => some (.tex h (FTex.ofBits x))
  | 0xc7 => some (.trace h (FTrace.ofBits x))
  | 0xc8 => some (.traceh h (FTraceh.ofBits x))
  | 0xd0 => some (.prim h (FPrim.ofBits x))
  | 0xd1 => some (.pend h)
  | 0xd2 => some (.cwr h (FCwr.ofBits x))
  | 0xd3 => some (.cclr h (FCclr.ofBits x))
  | 0xd4 => some (.cdec h (FCclr.ofBits x))
  | 0xd5 => some (.zcmp h (FZcmp.ofBits x))
  | 0xe0 => some (.bra h (FB.ofBits x))
  | 0xe1 => some (.brx h (FBrx.ofBits x))
  | 0xe2 => some (.brany h (FB.ofBits x))
  | 0xe3 => some (.brall h (FB.ofBits x))
  | 0xe4 => some (.call h (FB.ofBits x))
  | 0xe5 => some (.ret h)
  | 0xe6 => some (.loop h (FL.ofBits x))
  | 0xe7 => some (.rfpt h)
  | 0xe8 => some (.yield h)
  | 0xe9 => some (.launch h (FLaunch.ofBits x))
  | 0xea => some (.emit h (FEmit.ofBits x))
  | 0xeb => some (.exit h)
  | 0xec => some (.await h (FAwait.ofBits x))
  | 0xf0 => some (.barinit h (FBi.ofBits x))
  | 0xf1 => if x.getLsbD 17 then some (.barjoinNow h (FBaN.ofBits x)) else some (.barjoin h (FBa.ofBits x))
  | 0xf2 => some (.bararr h (FBa.ofBits x))
  | 0xf3 => some (.barwait h (FBa.ofBits x))
  | 0xf4 => some (.bardrop h (FBa.ofBits x))
  | 0xf5 => some (.pbar h)
  | 0xf6 => some (.cvset h (FCvset.ofBits x))
  | 0xf7 => some (.fence h (FFence.ofBits x))
  | 0xf8 => some (.fenceSc h)
  | 0xf9 => some (.trap h (FK16.ofBits x))
  | 0xfa => if x.getLsbD 0 then some (.rttSkip h) else some (.rtt h)
  | 0xfb => some (.brk h (FK16.ofBits x))
  | 0xfc => some (.repl h (FRepl.ofBits x))
  | 0xfd => some (.hmov h (FHmov.ofBits x))
  | 0xfe => some (.savept h (FK16.ofBits x))
  | _ => none

/-- The head of an instruction (empty for a step of another agent). -/
def Instr.head : Instr → Head
  | .nop h => h
  | .add h _ => h
  | .addI h _ => h
  | .sub h _ => h
  | .mul h _ => h
  | .mulh h _ => h
  | .mad h _ => h
  | .min h _ => h
  | .max h _ => h
  | .abs h _ => h
  | .neg h _ => h
  | .adds h _ => h
  | .subs h _ => h
  | .sad h _ => h
  | .and_ h _ => h
  | .andI h _ => h
  | .or_ h _ => h
  | .orI h _ => h
  | .xor_ h _ => h
  | .xorI h _ => h
  | .andn h _ => h
  | .not_ h _ => h
  | .shl h _ => h
  | .shlI h _ => h
  | .shr h _ => h
  | .shrI h _ => h
  | .sar h _ => h
  | .sarI h _ => h
  | .rot h _ => h
  | .rotI h _ => h
  | .clz h _ => h
  | .popc h _ => h
  | .brev h _ => h
  | .bfe h _ => h
  | .bfi h _ => h
  | .prmt h _ => h
  | .ext h _ => h
  | .sel h _ => h
  | .cmp h _ => h
  | .cmpI h _ => h
  | .pand h _ => h
  | .por h _ => h
  | .pxor h _ => h
  | .pnot h _ => h
  | .movpToVector h _ => h
  | .movpToPredicates h _ => h
  | .mov h _ => h
  | .movi h _ => h
  | .movs h _ => h
  | .movsw h _ => h
  | .lea h _ => h
  | .leaI h _ => h
  | .fadd h _ => h
  | .fsub h _ => h
  | .fmul h _ => h
  | .ffma h _ => h
  | .fmin h _ => h
  | .fmax h _ => h
  | .fminm h _ => h
  | .fmaxm h _ => h
  | .fcmp h _ => h
  | .fclass h _ => h
  | .frnd h _ => h
  | .fscale h _ => h
  | .frcp h _ => h
  | .frsq h _ => h
  | .fsqrt h _ => h
  | .fdivf h _ => h
  | .fexp2 h _ => h
  | .flog2 h _ => h
  | .fsin h _ => h
  | .fcos h _ => h
  | .ftanh h _ => h
  | .cvt h _ => h
  | .cvtsr h _ => h
  | .pack h _ => h
  | .unpack h _ => h
  | .dot2 h _ => h
  | .dot4 h _ => h
  | .dot8 h _ => h
  | .dots h _ => h
  | .shfl h _ => h
  | .vote h _ => h
  | .redg h _ => h
  | .scang h _ => h
  | .bcast h _ => h
  | .ldN8 h _ => h
  | .ldN16 h _ => h
  | .ldN32 h _ => h
  | .ldB64 h _ => h
  | .ldS8 h _ => h
  | .ldS16 h _ => h
  | .ldS32 h _ => h
  | .stB8 h _ => h
  | .stB16 h _ => h
  | .stB32 h _ => h
  | .stB64 h _ => h
  | .ldfe h _ => h
  | .stfe h _ => h
  | .fefill h _ => h
  | .feq h _ => h
  | .atom h _ => h
  | .atomf h _ => h
  | .cas h _ => h
  | .pref h _ => h
  | .cinv h _ => h
  | .cwb h _ => h
  | .waitk h _ => h
  | .tdef h _ => h
  | .tinv h _ => h
  | .tget h _ => h
  | .mzero h _ => h
  | .mload h _ => h
  | .mstore h _ => h
  | .mmaW16 h _ => h
  | .mmaW8 h _ => h
  | .mmaW6 h _ => h
  | .mmaW4 h _ => h
  | .mwait h _ => h
  | .copy h _ => h
  | .gres h _ => h
  | .gresOpen h _ => h
  | .cflag h _ => h
  | .tlbp h _ => h
  | .tlbpFill h _ => h
  | .pattrReplicate h _ => h
  | .pattrCollapse h _ => h
  | .pattrFlush h _ => h
  | .coll h _ => h
  | .tex h _ => h
  | .trace h _ => h
  | .traceh h _ => h
  | .prim h _ => h
  | .pend h => h
  | .cwr h _ => h
  | .cclr h _ => h
  | .cdec h _ => h
  | .zcmp h _ => h
  | .bra h _ => h
  | .brx h _ => h
  | .brany h _ => h
  | .brall h _ => h
  | .call h _ => h
  | .ret h => h
  | .loop h _ => h
  | .rfpt h => h
  | .yield h => h
  | .launch h _ => h
  | .emit h _ => h
  | .exit h => h
  | .await h _ => h
  | .barinit h _ => h
  | .barjoin h _ => h
  | .barjoinNow h _ => h
  | .bararr h _ => h
  | .barwait h _ => h
  | .bardrop h _ => h
  | .pbar h => h
  | .cvset h _ => h
  | .fence h _ => h
  | .fenceSc h => h
  | .trap h _ => h
  | .rtt h => h
  | .rttSkip h => h
  | .brk h _ => h
  | .repl h _ => h
  | .hmov h _ => h
  | .savept h _ => h
  | _ => {}

/-- Opcode and format bits of an instruction's word; none for a step of another agent. -/
def Instr.opBits : Instr → Option (BitVec 8 × BitVec 18)
  | .nop _ => some (0x00#8, 0#18)
  | .add _ f => some (0x01#8, f.bits)
  | .addI _ f => some (0x02#8, f.bits)
  | .sub _ f => some (0x03#8, f.bits)
  | .mul _ f => some (0x04#8, f.bits)
  | .mulh _ f => some (0x05#8, f.bits)
  | .mad _ f => some (0x06#8, f.bits)
  | .min _ f => some (0x07#8, f.bits)
  | .max _ f => some (0x08#8, f.bits)
  | .abs _ f => some (0x09#8, f.bits)
  | .neg _ f => some (0x0a#8, f.bits)
  | .adds _ f => some (0x0b#8, f.bits)
  | .subs _ f => some (0x0c#8, f.bits)
  | .sad _ f => some (0x0d#8, f.bits)
  | .and_ _ f => some (0x10#8, f.bits)
  | .andI _ f => some (0x11#8, f.bits)
  | .or_ _ f => some (0x12#8, f.bits)
  | .orI _ f => some (0x13#8, f.bits)
  | .xor_ _ f => some (0x14#8, f.bits)
  | .xorI _ f => some (0x15#8, f.bits)
  | .andn _ f => some (0x16#8, f.bits)
  | .not_ _ f => some (0x17#8, f.bits)
  | .shl _ f => some (0x18#8, f.bits)
  | .shlI _ f => some (0x19#8, f.bits)
  | .shr _ f => some (0x1a#8, f.bits)
  | .shrI _ f => some (0x1b#8, f.bits)
  | .sar _ f => some (0x1c#8, f.bits)
  | .sarI _ f => some (0x1d#8, f.bits)
  | .rot _ f => some (0x1e#8, f.bits)
  | .rotI _ f => some (0x1f#8, f.bits)
  | .clz _ f => some (0x20#8, f.bits)
  | .popc _ f => some (0x21#8, f.bits)
  | .brev _ f => some (0x22#8, f.bits)
  | .bfe _ f => some (0x23#8, f.bits)
  | .bfi _ f => some (0x24#8, f.bits)
  | .prmt _ f => some (0x25#8, f.bits)
  | .ext _ f => some (0x26#8, f.bits)
  | .sel _ f => some (0x28#8, f.bits)
  | .cmp _ f => some (0x29#8, f.bits)
  | .cmpI _ f => some (0x2a#8, f.bits)
  | .pand _ f => some (0x2b#8, f.bits)
  | .por _ f => some (0x2c#8, f.bits)
  | .pxor _ f => some (0x2d#8, f.bits)
  | .pnot _ f => some (0x2e#8, f.bits)
  | .movpToVector _ f => some (0x2f#8, f.bits)
  | .movpToPredicates _ f => some (0x2f#8, f.bits)
  | .mov _ f => some (0x30#8, f.bits)
  | .movi _ f => some (0x31#8, f.bits)
  | .movs _ f => some (0x32#8, f.bits)
  | .movsw _ f => some (0x33#8, f.bits)
  | .lea _ f => some (0x34#8, f.bits)
  | .leaI _ f => some (0x35#8, f.bits)
  | .fadd _ f => some (0x40#8, f.bits)
  | .fsub _ f => some (0x41#8, f.bits)
  | .fmul _ f => some (0x42#8, f.bits)
  | .ffma _ f => some (0x43#8, f.bits)
  | .fmin _ f => some (0x44#8, f.bits)
  | .fmax _ f => some (0x45#8, f.bits)
  | .fminm _ f => some (0x46#8, f.bits)
  | .fmaxm _ f => some (0x47#8, f.bits)
  | .fcmp _ f => some (0x48#8, f.bits)
  | .fclass _ f => some (0x49#8, f.bits)
  | .frnd _ f => some (0x4a#8, f.bits)
  | .fscale _ f => some (0x4b#8, f.bits)
  | .frcp _ f => some (0x50#8, f.bits)
  | .frsq _ f => some (0x51#8, f.bits)
  | .fsqrt _ f => some (0x52#8, f.bits)
  | .fdivf _ f => some (0x53#8, f.bits)
  | .fexp2 _ f => some (0x54#8, f.bits)
  | .flog2 _ f => some (0x55#8, f.bits)
  | .fsin _ f => some (0x56#8, f.bits)
  | .fcos _ f => some (0x57#8, f.bits)
  | .ftanh _ f => some (0x58#8, f.bits)
  | .cvt _ f => some (0x60#8, f.bits)
  | .cvtsr _ f => some (0x61#8, f.bits)
  | .pack _ f => some (0x62#8, f.bits)
  | .unpack _ f => some (0x63#8, f.bits)
  | .dot2 _ f => some (0x70#8, f.bits)
  | .dot4 _ f => some (0x71#8, f.bits)
  | .dot8 _ f => some (0x72#8, f.bits)
  | .dots _ f => some (0x73#8, f.bits)
  | .shfl _ f => some (0x80#8, f.bits)
  | .vote _ f => some (0x81#8, f.bits)
  | .redg _ f => some (0x82#8, f.bits)
  | .scang _ f => some (0x83#8, f.bits)
  | .bcast _ f => some (0x84#8, f.bits)
  | .ldN8 _ f => some (0x90#8, f.bits)
  | .ldN16 _ f => some (0x91#8, f.bits)
  | .ldN32 _ f => some (0x92#8, f.bits)
  | .ldB64 _ f => some (0x93#8, f.bits)
  | .ldS8 _ f => some (0x94#8, f.bits)
  | .ldS16 _ f => some (0x95#8, f.bits)
  | .ldS32 _ f => some (0x96#8, f.bits)
  | .stB8 _ f => some (0x98#8, f.bits)
  | .stB16 _ f => some (0x99#8, f.bits)
  | .stB32 _ f => some (0x9a#8, f.bits)
  | .stB64 _ f => some (0x9b#8, f.bits)
  | .ldfe _ f => some (0xa0#8, f.bits)
  | .stfe _ f => some (0xa1#8, f.bits)
  | .fefill _ f => some (0xa2#8, f.bits)
  | .feq _ f => some (0xa3#8, f.bits)
  | .atom _ f => some (0xa4#8, f.bits)
  | .atomf _ f => some (0xa5#8, f.bits)
  | .cas _ f => some (0xa6#8, f.bits)
  | .pref _ f => some (0xa7#8, f.bits)
  | .cinv _ f => some (0xa8#8, f.bits)
  | .cwb _ f => some (0xa9#8, f.bits)
  | .waitk _ f => some (0xaa#8, f.bits)
  | .tdef _ f => some (0xb0#8, f.bits)
  | .tinv _ f => some (0xb1#8, f.bits)
  | .tget _ f => some (0xb2#8, f.bits)
  | .mzero _ f => some (0xb3#8, f.bits)
  | .mload _ f => some (0xb4#8, f.bits)
  | .mstore _ f => some (0xb5#8, f.bits)
  | .mmaW16 _ f => some (0xb8#8, f.bits)
  | .mmaW8 _ f => some (0xb9#8, f.bits)
  | .mmaW6 _ f => some (0xba#8, f.bits)
  | .mmaW4 _ f => some (0xbb#8, f.bits)
  | .mwait _ f => some (0xbc#8, f.bits)
  | .copy _ f => some (0xc0#8, f.bits)
  | .gres _ f => some (0xc1#8, f.bits)
  | .gresOpen _ f => some (0xc1#8, f.bits)
  | .cflag _ f => some (0xc2#8, f.bits)
  | .tlbp _ f => some (0xc3#8, f.bits)
  | .tlbpFill _ f => some (0xc3#8, f.bits)
  | .pattrReplicate _ f => some (0xc4#8, f.bits)
  | .pattrCollapse _ f => some (0xc4#8, f.bits)
  | .pattrFlush _ f => some (0xc4#8, f.bits)
  | .coll _ f => some (0xc5#8, f.bits)
  | .tex _ f => some (0xc6#8, f.bits)
  | .trace _ f => some (0xc7#8, f.bits)
  | .traceh _ f => some (0xc8#8, f.bits)
  | .prim _ f => some (0xd0#8, f.bits)
  | .pend _ => some (0xd1#8, 0#18)
  | .cwr _ f => some (0xd2#8, f.bits)
  | .cclr _ f => some (0xd3#8, f.bits)
  | .cdec _ f => some (0xd4#8, f.bits)
  | .zcmp _ f => some (0xd5#8, f.bits)
  | .bra _ f => some (0xe0#8, f.bits)
  | .brx _ f => some (0xe1#8, f.bits)
  | .brany _ f => some (0xe2#8, f.bits)
  | .brall _ f => some (0xe3#8, f.bits)
  | .call _ f => some (0xe4#8, f.bits)
  | .ret _ => some (0xe5#8, 0#18)
  | .loop _ f => some (0xe6#8, f.bits)
  | .rfpt _ => some (0xe7#8, 0#18)
  | .yield _ => some (0xe8#8, 0#18)
  | .launch _ f => some (0xe9#8, f.bits)
  | .emit _ f => some (0xea#8, f.bits)
  | .exit _ => some (0xeb#8, 0#18)
  | .await _ f => some (0xec#8, f.bits)
  | .barinit _ f => some (0xf0#8, f.bits)
  | .barjoin _ f => some (0xf1#8, f.bits)
  | .barjoinNow _ f => some (0xf1#8, f.bits)
  | .bararr _ f => some (0xf2#8, f.bits)
  | .barwait _ f => some (0xf3#8, f.bits)
  | .bardrop _ f => some (0xf4#8, f.bits)
  | .pbar _ => some (0xf5#8, 0#18)
  | .cvset _ f => some (0xf6#8, f.bits)
  | .fence _ f => some (0xf7#8, f.bits)
  | .fenceSc _ => some (0xf8#8, 0#18)
  | .trap _ f => some (0xf9#8, f.bits)
  | .rtt _ => some (0xfa#8, 0#18)
  | .rttSkip _ => some (0xfa#8, 1#18)
  | .brk _ f => some (0xfb#8, f.bits)
  | .repl _ f => some (0xfc#8, f.bits)
  | .hmov _ f => some (0xfd#8, f.bits)
  | .savept _ f => some (0xfe#8, f.bits)
  | _ => none

/-! ### Hint words (Tables 3.2, 3.3) -/

/-- The hint words of a sequence, in ascending class order. -/
def Hints.words (h : Hints) : List (BitVec 32) :=
  (h.imm.map fun x => 0b000001#6 ++ x).toList ++
  (h.src3.map fun x => 0b000010#6 ++ (BitVec.ofBool x.v3 ++ x.s3.code ++ BitVec.ofBool x.n1 ++ BitVec.ofBool x.n2 ++
    BitVec.ofBool x.n3 ++ BitVec.ofBool x.a1 ++ BitVec.ofBool x.a2 ++ BitVec.ofBool x.a3 ++ BitVec.ofBool x.sat ++
    BitVec.ofBool x.ro ++ x.rm ++ 0#8)).toList ++
  (h.type.map fun x => 0b000011#6 ++ (x.ty ++ BitVec.ofBool x.se ++ x.sub ++ 0#16)).toList ++
  (h.memq.map fun x => 0b000100#6 ++ (x.scope ++ x.ord ++ x.cp ++ x.fe ++ 0#16)).toList ++
  (h.rep.map fun x => 0b000101#6 ++ (x.cnt ++ BitVec.ofBool x.sd ++ BitVec.ofBool x.sa ++ BitVec.ofBool x.sb ++
    0#17)).toList ++
  (h.chain.map fun x => 0b000110#6 ++ (x ++ 0#22)).toList ++
  (h.sched.map fun x => 0b000111#6 ++ (BitVec.ofBool x.y ++ x.stall ++ 0#19)).toList ++
  (h.guardq.map fun x => 0b001000#6 ++ (x ++ 0#23)).toList ++
  (h.dead.map fun x => 0b001001#6 ++ (BitVec.ofBool x.hi ++ x.mask ++ 0#9)).toList

/-- Number of hint words of a sequence. -/
def Hints.count (h : Hints) : Nat := h.words.length

/-- The words of a sequence: its hints, then its instruction (R61). Nothing for a step of another agent. -/
def encode (i : Instr) : List (BitVec 32) :=
  match i.opBits with
  | none => []
  | some (op, x) => i.head.hints.words ++ [wordOf i.head.guard op x]

/-- A word is a hint word: E = 0 and [30:26] not zero (Table 3.1). -/
def isHint (w : BitVec 32) : Bool := w.getLsbD 31 == false && decide (w.extractLsb' 26 5 ≠ 0)

/-- The detail code `c` where a condition holds. -/
def codeIf (b : Bool) (c : Nat) : List Nat := if b then [c] else []

/-- Take one hint word into the hints read so far: the new hints and the detail codes it raises (R63-R65, R77). -/
def Hints.take (h : Hints) (w : BitVec 32) : Hints × List Nat :=
  let x := w.extractLsb' 0 26
  match (w.extractLsb' 26 5).toNat with
  | 1 => ({ h with imm := some x }, codeIf h.imm.isSome 4)
  | 2 =>
    ({ h with
        src3 := some (Src3.mk (x.getLsbD 25) (Src.ofCode (x.extractLsb' 19 6)) (x.getLsbD 18) (x.getLsbD 17)
          (x.getLsbD 16) (x.getLsbD 15) (x.getLsbD 14) (x.getLsbD 13) (x.getLsbD 12) (x.getLsbD 11)
          (x.extractLsb' 8 3)) },
     codeIf (decide (x.extractLsb' 0 8 ≠ 0)) 3 ++ codeIf h.src3.isSome 4)
  | 3 =>
    ({ h with type := some { ty := x.extractLsb' 21 5, se := x.getLsbD 20, sub := x.extractLsb' 16 4 } },
     codeIf (decide (x.extractLsb' 0 16 ≠ 0)) 3 ++ codeIf h.type.isSome 4)
  | 4 =>
    ({ h with
        memq := some { scope := x.extractLsb' 23 3, ord := x.extractLsb' 21 2, cp := x.extractLsb' 18 3,
                       fe := x.extractLsb' 16 2 } },
     codeIf (decide (x.extractLsb' 0 16 ≠ 0)) 3 ++ codeIf h.memq.isSome 4)
  | 5 =>
    ({ h with rep := some { cnt := x.extractLsb' 20 6, sd := x.getLsbD 19, sa := x.getLsbD 18, sb := x.getLsbD 17 } },
     codeIf (decide (x.extractLsb' 0 17 ≠ 0)) 3 ++ codeIf h.rep.isSome 4)
  | 6 =>
    ({ h with chain := some (x.extractLsb' 22 4) },
     codeIf (decide (x.extractLsb' 0 22 ≠ 0)) 3 ++ codeIf h.chain.isSome 4)
  | 7 =>
    ({ h with sched := some { y := x.getLsbD 25, stall := x.extractLsb' 19 6 } },
     codeIf (decide (x.extractLsb' 0 19 ≠ 0)) 3 ++ codeIf h.sched.isSome 4)
  | 8 =>
    ({ h with guardq := some (x.extractLsb' 23 3) },
     codeIf (decide (x.extractLsb' 0 23 ≠ 0)) 3 ++ codeIf h.guardq.isSome 4)
  | 9 =>
    ({ h with dead := some { hi := x.getLsbD 25, mask := x.extractLsb' 9 16 } },
     codeIf (decide (x.extractLsb' 0 9 ≠ 0)) 3 ++ codeIf h.dead.isSome 4)
  | _ => (h, [2])

/-- The sequence a list of words begins with: its instruction (none where its opcode is not assigned), the codes its
words raise by themselves, and how many words it takes; none where no instruction word follows the hints. -/
structure Decoded where
  instr : Option Instr
  codes : List Nat
  words : Nat
  deriving DecidableEq, Repr

/-- Decode from a run of words, with the hints read so far. -/
def decodeFrom (h : Hints) (codes : List Nat) (n : Nat) : List (BitVec 32) → Option Decoded
  | [] => none
  | w :: rest =>
    if isHint w then
      let (h', cs) := h.take w
      decodeFrom h' (codes ++ cs) (n + 1) rest
    else
      let op := (w.extractLsb' 18 8).toNat
      let x := w.extractLsb' 0 18
      let g : Option Guard :=
        if w.getLsbD 31 then some { p := w.extractLsb' 27 4, ps := w.getLsbD 26 } else none
      let i := decodeOp op { guard := g, hints := h } x
      let bad := if op = 0xc4 ∧ x.getLsbD 15 ∧ x.getLsbD 14 then [10] else codeIf i.isNone 1
      some { instr := i, codes := codes ++ bad ++ codeIf (decide (x &&& reservedMask op x ≠ 0)) 3, words := n + 1 }

/-- Decode the sequence a list of words begins with. -/
def decodeWords (ws : List (BitVec 32)) : Option Decoded := decodeFrom {} [] 0 ws

/-- The instruction a sequence's words give, where its words raise no code by themselves. -/
def decode (ws : List (BitVec 32)) : Option Instr :=
  match decodeWords ws with
  | some d => if d.codes = [] ∧ d.words = ws.length then d.instr else none
  | none => none

/-- The instruction of a table row's word: bit 0 of `w` is the least significant bit of the first word. A row that is
a step of another agent has no bits and no word. -/
def decodeTableWord (nbits w : Nat) : Option Instr :=
  if nbits = 0 then none else decode [BitVec.ofNat 32 w]

/-! ### Legality (R64-R77): what each form accepts -/

/-- Which `src3` negate and absolute-value flags a form accepts (Tables 5.1, 6.4). -/
inductive FlagUse where
  | none
  | signed
  | all
  | first
  deriving DecidableEq, Repr

/-- The facts of an opcode the checks of R77 need. -/
structure Info where
  /-- 0 Y, 1 N, 2 Req -/
  guard : Nat := 0
  types : List Nat := []
  rt : Bool := false
  /-- a register form in 0x00-0x7F of format R, Ru, Rt, I, Iu, P or Pi -/
  alu : Bool := false
  imm : Bool := false
  src3 : Bool := false
  flags : FlagUse := .none
  /-- 0 no, 1 yes, 2 integer types only -/
  sat : Nat := 0
  /-- 0 no, 1 yes, 2 except `bf16x4`, 3 `f16x4` only -/
  ro : Nat := 0
  se : Bool := false
  /-- 0 no, 1 access, 2 barrier, 3 engine -/
  memq : Nat := 0
  rep : Bool := false
  guardq : Bool := false
  deriving DecidableEq, Repr

/-- The facts of each instruction (Tables 3.4, 3.7, 5.1, 6.4). -/
def Instr.info : Instr → Info
  | .nop _ => { alu := true, src3 := true, rep := true }
  | .add _ _ => { types := [1, 2, 3, 4, 5, 6, 7, 8], alu := true, src3 := true, flags := .signed, se := true, rep := true }
  | .addI _ _ => { types := [1, 2, 3, 4, 5, 6, 7, 8], alu := true, imm := true, src3 := true, flags := .signed, se := true, rep := true }
  | .sub _ _ => { types := [1, 2, 3, 4, 5, 6, 7, 8], alu := true, src3 := true, flags := .signed, se := true, rep := true }
  | .mul _ _ => { types := [1, 2, 3, 4, 5, 6, 7, 8], alu := true, src3 := true, flags := .signed, sat := 1, se := true, rep := true }
  | .mulh _ _ => { types := [1, 2, 3, 4], alu := true, src3 := true, flags := .signed, se := true, rep := true }
  | .mad _ _ => { types := [1, 2, 3, 4, 5, 6, 7, 8], rt := true, alu := true, src3 := true, flags := .signed, sat := 1, se := true, rep := true }
  | .min _ _ => { types := [1, 2, 3, 4, 5, 6, 7, 8], alu := true, src3 := true, flags := .signed, se := true, rep := true }
  | .max _ _ => { types := [1, 2, 3, 4, 5, 6, 7, 8], alu := true, src3 := true, flags := .signed, se := true, rep := true }
  | .abs _ _ => { types := [1, 3, 5, 7], alu := true, src3 := true, sat := 1, se := true, rep := true }
  | .neg _ _ => { types := [1, 3, 5, 7], alu := true, src3 := true, sat := 1, se := true, rep := true }
  | .adds _ _ => { types := [1, 2, 3, 4, 5, 6, 7, 8], alu := true, src3 := true, flags := .signed, se := true, rep := true }
  | .subs _ _ => { types := [1, 2, 3, 4, 5, 6, 7, 8], alu := true, src3 := true, flags := .signed, se := true, rep := true }
  | .sad _ _ => { types := [8, 7, 6, 5], rt := true, alu := true, src3 := true, sat := 1, se := true, rep := true }
  | .and_ _ _ => { types := [0], alu := true, src3 := true, rep := true }
  | .andI _ _ => { types := [0], alu := true, imm := true, src3 := true, rep := true }
  | .or_ _ _ => { types := [0], alu := true, src3 := true, rep := true }
  | .orI _ _ => { types := [0], alu := true, imm := true, src3 := true, rep := true }
  | .xor_ _ _ => { types := [0], alu := true, src3 := true, rep := true }
  | .xorI _ _ => { types := [0], alu := true, imm := true, src3 := true, rep := true }
  | .andn _ _ => { types := [0], alu := true, src3 := true, rep := true }
  | .not_ _ _ => { types := [0], alu := true, src3 := true, rep := true }
  | .shl _ _ => { types := [2, 4, 6, 8], alu := true, src3 := true, sat := 1, se := true, rep := true }
  | .shlI _ _ => { types := [2, 4, 6, 8], alu := true, imm := true, src3 := true, sat := 1, se := true, rep := true }
  | .shr _ _ => { types := [2, 4, 6, 8], alu := true, src3 := true, sat := 1, se := true, rep := true }
  | .shrI _ _ => { types := [2, 4, 6, 8], alu := true, imm := true, src3 := true, sat := 1, se := true, rep := true }
  | .sar _ _ => { types := [1, 3, 5, 7], alu := true, src3 := true, sat := 1, se := true, rep := true }
  | .sarI _ _ => { types := [1, 3, 5, 7], alu := true, imm := true, src3 := true, sat := 1, se := true, rep := true }
  | .rot _ _ => { types := [2, 4, 6, 8], alu := true, src3 := true, se := true, rep := true }
  | .rotI _ _ => { types := [2, 4, 6, 8], alu := true, imm := true, src3 := true, se := true, rep := true }
  | .clz _ _ => { types := [2, 4, 6, 8], alu := true, src3 := true, se := true, rep := true }
  | .popc _ _ => { types := [2, 4, 6, 8], alu := true, src3 := true, se := true, rep := true }
  | .brev _ _ => { types := [2, 4, 6, 8], alu := true, src3 := true, se := true, rep := true }
  | .bfe _ _ => { types := [1, 2, 3, 4], alu := true, src3 := true, se := true, rep := true }
  | .bfi _ _ => { types := [2, 4], rt := true, alu := true, src3 := true, se := true, rep := true }
  | .prmt _ _ => { types := [0], rt := true, alu := true, src3 := true, rep := true }
  | .ext _ _ => { types := [1, 2, 3, 4, 5, 6, 7, 8, 9, 10], alu := true, src3 := true, rep := true }
  | .sel _ _ => { guard := 2, types := [0], alu := true, src3 := true, rep := true }
  | .cmp _ _ => { types := [1, 2, 3, 4, 5, 6, 7, 8], alu := true, src3 := true, flags := .signed, se := true, rep := true }
  | .cmpI _ _ => { types := [1, 2, 3, 4, 5, 6, 7, 8], alu := true, imm := true, se := true, rep := true }
  | .pand _ _ => {  }
  | .por _ _ => {  }
  | .pxor _ _ => {  }
  | .pnot _ _ => {  }
  | .movpToVector _ _ => {  }
  | .movpToPredicates _ _ => {  }
  | .mov _ _ => { types := [0], alu := true, src3 := true, rep := true }
  | .movi _ _ => { types := [0, 1, 2, 3, 4, 5, 6, 7, 8, 9, 10, 11, 12, 13, 14, 15, 16, 17, 18, 19, 20], alu := true, imm := true, se := true, rep := true }
  | .movs _ _ => {  }
  | .movsw _ _ => { guard := 1 }
  | .lea _ _ => { types := [2], alu := true, src3 := true, rep := true }
  | .leaI _ _ => { types := [2], alu := true, imm := true, src3 := true, rep := true }
  | .fadd _ _ => { types := [12, 11, 13, 14], alu := true, src3 := true, flags := .all, sat := 1, ro := 2, se := true, rep := true }
  | .fsub _ _ => { types := [12, 11, 13, 14], alu := true, src3 := true, flags := .all, sat := 1, ro := 2, se := true, rep := true }
  | .fmul _ _ => { types := [12, 11, 13, 14], alu := true, src3 := true, flags := .all, sat := 1, ro := 2, se := true, rep := true }
  | .ffma _ _ => { types := [12, 11, 13, 14], rt := true, alu := true, src3 := true, flags := .all, sat := 1, ro := 2, se := true, rep := true }
  | .fmin _ _ => { types := [12, 11, 13, 14], alu := true, src3 := true, flags := .all, se := true, rep := true }
  | .fmax _ _ => { types := [12, 11, 13, 14], alu := true, src3 := true, flags := .all, se := true, rep := true }
  | .fminm _ _ => { types := [12, 11, 13, 14], alu := true, src3 := true, flags := .all, se := true, rep := true }
  | .fmaxm _ _ => { types := [12, 11, 13, 14], alu := true, src3 := true, flags := .all, se := true, rep := true }
  | .fcmp _ _ => { types := [12, 11, 13, 14], alu := true, src3 := true, flags := .all, se := true, rep := true }
  | .fclass _ _ => { types := [12, 11, 13, 14], alu := true, src3 := true, se := true, rep := true }
  | .frnd _ _ => { types := [12, 11, 13, 14], alu := true, src3 := true, flags := .first, ro := 1, se := true, rep := true }
  | .fscale _ _ => { types := [12, 11, 13, 14], alu := true, src3 := true, flags := .first, ro := 2, se := true, rep := true }
  | .frcp _ _ => { types := [12, 11, 13], alu := true, src3 := true, flags := .first, ro := 2, se := true, rep := true }
  | .frsq _ _ => { types := [12, 11, 13], alu := true, src3 := true, flags := .first, ro := 2, se := true, rep := true }
  | .fsqrt _ _ => { types := [12, 11, 13], alu := true, src3 := true, flags := .first, ro := 2, se := true, rep := true }
  | .fdivf _ _ => { types := [12, 11], rt := true, alu := true, src3 := true, ro := 1, se := true, rep := true }
  | .fexp2 _ _ => { types := [12, 13], alu := true, src3 := true, flags := .first, se := true, rep := true }
  | .flog2 _ _ => { types := [12, 13], alu := true, src3 := true, flags := .first, se := true, rep := true }
  | .fsin _ _ => { types := [12, 13], alu := true, src3 := true, flags := .first, se := true, rep := true }
  | .fcos _ _ => { types := [12, 13], alu := true, src3 := true, flags := .first, se := true, rep := true }
  | .ftanh _ _ => { types := [12, 13], alu := true, src3 := true, flags := .first, se := true, rep := true }
  | .cvt _ _ => { types := [12, 1, 2, 3, 4, 5, 6, 7, 8, 9, 10, 11, 13, 14, 15, 16, 17, 18, 19, 20] }
  | .cvtsr _ _ => { types := [14, 13, 15, 16, 17, 18, 19], alu := true, src3 := true, rep := true }
  | .pack _ _ => { types := [13, 14, 15, 16, 17, 18, 19, 5, 6, 7, 8], alu := true, src3 := true, sat := 1, ro := 3, rep := true }
  | .unpack _ _ => { types := [13, 14, 15, 16, 17, 18, 19, 5, 6, 7, 8], alu := true, src3 := true, rep := true }
  | .dot2 _ _ => { types := [14, 13], rt := true, alu := true, src3 := true, sat := 2, rep := true }
  | .dot4 _ _ => { types := [15, 16, 7, 8], rt := true, alu := true, src3 := true, sat := 2, rep := true }
  | .dot8 _ _ => { types := [19, 9, 10], rt := true, alu := true, src3 := true, sat := 2, rep := true }
  | .dots _ _ => { types := [15, 16, 17, 18, 19], rt := true, alu := true, src3 := true, sat := 2, rep := true }
  | .shfl _ _ => { types := [0] }
  | .vote _ _ => {  }
  | .redg _ _ => { types := [1, 2, 3, 4, 5, 6, 7, 8, 12, 11, 13, 14] }
  | .scang _ _ => { types := [1, 2, 3, 4, 5, 6, 7, 8, 12, 11, 13, 14] }
  | .bcast _ _ => { types := [0] }
  | .ldN8 _ _ => { imm := true, memq := 1, rep := true }
  | .ldN16 _ _ => { imm := true, memq := 1, rep := true }
  | .ldN32 _ _ => { imm := true, memq := 1, rep := true }
  | .ldB64 _ _ => { imm := true, memq := 1, rep := true }
  | .ldS8 _ _ => { imm := true, memq := 1, rep := true }
  | .ldS16 _ _ => { imm := true, memq := 1, rep := true }
  | .ldS32 _ _ => { imm := true, memq := 1, rep := true }
  | .stB8 _ _ => { imm := true, memq := 1, rep := true }
  | .stB16 _ _ => { imm := true, memq := 1, rep := true }
  | .stB32 _ _ => { imm := true, memq := 1, rep := true }
  | .stB64 _ _ => { imm := true, memq := 1, rep := true }
  | .ldfe _ _ => { imm := true, memq := 1 }
  | .stfe _ _ => { imm := true, memq := 1 }
  | .fefill _ _ => { imm := true, memq := 1 }
  | .feq _ _ => { imm := true, memq := 1 }
  | .atom _ _ => { types := [2, 1, 4, 3], memq := 1 }
  | .atomf _ _ => { types := [12, 11, 13], memq := 1 }
  | .cas _ _ => { types := [0, 4], memq := 1 }
  | .pref _ _ => { imm := true, memq := 1 }
  | .cinv _ _ => { imm := true, memq := 1 }
  | .cwb _ _ => { imm := true, memq := 1 }
  | .waitk _ _ => { guard := 1 }
  | .tdef _ _ => { guard := 1 }
  | .tinv _ _ => { guard := 1 }
  | .tget _ _ => {  }
  | .mzero _ _ => { guard := 1 }
  | .mload _ _ => { guard := 1 }
  | .mstore _ _ => { guard := 1 }
  | .mmaW16 _ _ => {  }
  | .mmaW8 _ _ => {  }
  | .mmaW6 _ _ => {  }
  | .mmaW4 _ _ => {  }
  | .mwait _ _ => { guard := 1 }
  | .copy _ _ => { guard := 1, memq := 3, guardq := true }
  | .gres _ _ => { guard := 1 }
  | .gresOpen _ _ => { guard := 1 }
  | .cflag _ _ => { guard := 1, memq := 3, guardq := true }
  | .tlbp _ _ => { guard := 1 }
  | .tlbpFill _ _ => { guard := 1 }
  | .pattrReplicate _ _ => { guard := 1 }
  | .pattrCollapse _ _ => { guard := 1 }
  | .pattrFlush _ _ => { guard := 1 }
  | .coll _ _ => { guard := 1, guardq := true }
  | .tex _ _ => {  }
  | .trace _ _ => {  }
  | .traceh _ _ => {  }
  | .prim _ _ => {  }
  | .pend _ => { guard := 1 }
  | .cwr _ _ => {  }
  | .cclr _ _ => { guard := 1 }
  | .cdec _ _ => { guard := 1 }
  | .zcmp _ _ => {  }
  | .bra _ _ => { imm := true }
  | .brx _ _ => {  }
  | .brany _ _ => { guard := 2, imm := true }
  | .brall _ _ => { guard := 2, imm := true }
  | .call _ _ => { imm := true }
  | .ret _ => {  }
  | .loop _ _ => { guard := 1, imm := true }
  | .rfpt _ => { guard := 1 }
  | .yield _ => { guard := 1 }
  | .launch _ _ => { guard := 1 }
  | .emit _ _ => {  }
  | .exit _ => {  }
  | .await _ _ => {  }
  | .barinit _ _ => { guard := 1, memq := 2 }
  | .barjoin _ _ => { memq := 2 }
  | .barjoinNow _ _ => { memq := 2 }
  | .bararr _ _ => { memq := 2 }
  | .barwait _ _ => { memq := 2 }
  | .bardrop _ _ => { memq := 2 }
  | .pbar _ => { guard := 1 }
  | .cvset _ _ => { guard := 1 }
  | .fence _ _ => { guard := 1 }
  | .fenceSc _ => { guard := 1 }
  | .trap _ _ => {  }
  | .rtt _ => { guard := 1 }
  | .rttSkip _ => { guard := 1 }
  | .brk _ _ => { guard := 1 }
  | .repl _ _ => {  }
  | .hmov _ _ => {  }
  | .savept _ _ => { guard := 1 }
  | _ => {}

/-- The element type of an instruction: its `type` hint's, else its default (R74); `b64` where it has none. -/
def Instr.ty (i : Instr) : Nat :=
  match i.head.hints.type with
  | some t => t.ty.toNat
  | none => i.info.types.headD 0

/-- The wide partner W(t) of `pack` and `unpack` (R177). -/
def wideType (t : Nat) : Nat :=
  match t with
  | 13 => 12 | 14 => 12 | 15 => 13 | 16 => 13 | 17 => 13 | 18 => 13 | 19 => 15
  | 5 => 3 | 6 => 4 | 7 => 5 | 8 => 6 | _ => 0

/-- The result type of the dot products (R178). -/
def dotResult (t : Nat) : Nat :=
  match t with
  | 7 => 3 | 9 => 3 | 8 => 4 | 10 => 4 | _ => 12

/-- The signed integer type of an element's width (R72, `fscale`). -/
def countType (t : Nat) : Nat :=
  match t with
  | 12 => 3 | 11 => 1 | _ => 5

/-- Third source of an instruction. -/
def Hints.s3 (h : Hints) : Src := (h.src3.map (·.s3)).getD (.const 0)

/-- The source operands of an instruction, each with the type it is read in (R72). DESIGN CHOICE (log 79): for a form with no
element type R72 names no type in which a constant is judged; such a source is read as `b64`, in which codes 0x28-0x2B are
illegal. -/
def Instr.srcs (i : Instr) : List (Src × Nat) :=
  match i with
  | .add _ f => [(f.a, i.ty), (f.b, i.ty)]
  | .addI _ f => [(f.a, i.ty)]
  | .sub _ f => [(f.a, i.ty), (f.b, i.ty)]
  | .mul _ f => [(f.a, i.ty), (f.b, i.ty)]
  | .mulh _ f => [(f.a, i.ty), (f.b, i.ty)]
  | .mad h f => [(f.a, i.ty), (f.b, i.ty), (h.hints.s3, i.ty)]
  | .min _ f => [(f.a, i.ty), (f.b, i.ty)]
  | .max _ f => [(f.a, i.ty), (f.b, i.ty)]
  | .abs _ f => [(f.a, i.ty)]
  | .neg _ f => [(f.a, i.ty)]
  | .adds _ f => [(f.a, i.ty), (f.b, i.ty)]
  | .subs _ f => [(f.a, i.ty), (f.b, i.ty)]
  | .sad h f => [(f.a, i.ty), (f.b, i.ty), (h.hints.s3, i.ty)]
  | .and_ _ f => [(f.a, i.ty), (f.b, i.ty)]
  | .andI _ f => [(f.a, i.ty)]
  | .or_ _ f => [(f.a, i.ty), (f.b, i.ty)]
  | .orI _ f => [(f.a, i.ty)]
  | .xor_ _ f => [(f.a, i.ty), (f.b, i.ty)]
  | .xorI _ f => [(f.a, i.ty)]
  | .andn _ f => [(f.a, i.ty), (f.b, i.ty)]
  | .not_ _ f => [(f.a, i.ty)]
  | .shl _ f => [(f.a, i.ty), (f.b, i.ty)]
  | .shlI _ f => [(f.a, i.ty)]
  | .shr _ f => [(f.a, i.ty), (f.b, i.ty)]
  | .shrI _ f => [(f.a, i.ty)]
  | .sar _ f => [(f.a, i.ty), (f.b, i.ty)]
  | .sarI _ f => [(f.a, i.ty)]
  | .rot _ f => [(f.a, i.ty), (f.b, i.ty)]
  | .rotI _ f => [(f.a, i.ty)]
  | .clz _ f => [(f.a, i.ty)]
  | .popc _ f => [(f.a, i.ty)]
  | .brev _ f => [(f.a, i.ty)]
  | .bfe _ f => [(f.a, i.ty), (f.b, i.ty)]
  | .bfi h f => [(f.a, i.ty), (f.b, i.ty), (h.hints.s3, i.ty)]
  | .prmt h f => [(f.a, i.ty), (f.b, i.ty), (h.hints.s3, 0)]
  | .ext _ f => [(f.a, i.ty)]
  | .sel _ f => [(f.a, i.ty), (f.b, i.ty)]
  | .cmp _ f => [(f.a, i.ty), (f.b, i.ty)]
  | .cmpI _ f => [(f.a, i.ty)]
  | .movpToPredicates _ f => [(f.a, 0)]
  | .mov _ f => [(f.a, i.ty)]
  | .movs _ f => [(f.a, 0)]
  | .movsw _ f => [(f.a, 0)]
  | .lea _ f => [(f.a, i.ty), (f.b, i.ty)]
  | .leaI _ f => [(f.a, i.ty)]
  | .fadd _ f => [(f.a, i.ty), (f.b, i.ty)]
  | .fsub _ f => [(f.a, i.ty), (f.b, i.ty)]
  | .fmul _ f => [(f.a, i.ty), (f.b, i.ty)]
  | .ffma h f => [(f.a, i.ty), (f.b, i.ty), (h.hints.s3, i.ty)]
  | .fmin _ f => [(f.a, i.ty), (f.b, i.ty)]
  | .fmax _ f => [(f.a, i.ty), (f.b, i.ty)]
  | .fminm _ f => [(f.a, i.ty), (f.b, i.ty)]
  | .fmaxm _ f => [(f.a, i.ty), (f.b, i.ty)]
  | .fcmp _ f => [(f.a, i.ty), (f.b, i.ty)]
  | .fclass _ f => [(f.a, i.ty), (f.b, 0)]
  | .frnd _ f => [(f.a, i.ty)]
  | .fscale _ f => [(f.a, i.ty), (f.b, countType i.ty)]
  | .frcp _ f => [(f.a, i.ty)]
  | .frsq _ f => [(f.a, i.ty)]
  | .fsqrt _ f => [(f.a, i.ty)]
  | .fdivf h f => [(f.a, i.ty), (f.b, i.ty), (h.hints.s3, i.ty)]
  | .fexp2 _ f => [(f.a, i.ty)]
  | .flog2 _ f => [(f.a, i.ty)]
  | .fsin _ f => [(f.a, i.ty)]
  | .fcos _ f => [(f.a, i.ty)]
  | .ftanh _ f => [(f.a, i.ty)]
  | .cvt _ f => [(f.a, f.stype.toNat)]
  | .cvtsr _ f => [(f.a, 12), (f.b, 0)]
  | .pack _ f => [(f.a, wideType i.ty), (f.b, wideType i.ty)]
  | .unpack _ f => [(f.a, i.ty)]
  | .dot2 h f => [(f.a, i.ty), (f.b, i.ty), (h.hints.s3, dotResult i.ty)]
  | .dot4 h f => [(f.a, i.ty), (f.b, i.ty), (h.hints.s3, dotResult i.ty)]
  | .dot8 h f => [(f.a, i.ty), (f.b, i.ty), (h.hints.s3, dotResult i.ty)]
  | .dots h f => [(f.a, i.ty), (f.b, i.ty), (h.hints.s3, 0)]
  | .shfl _ f => [(f.b, i.ty)]
  | .redg _ f => [(f.a, i.ty)]
  | .scang _ f => [(f.a, i.ty)]
  | .bcast _ f => [(f.a, i.ty)]
  | .ldN8 _ f => [(f.a, 0)]
  | .ldN16 _ f => [(f.a, 0)]
  | .ldN32 _ f => [(f.a, 0)]
  | .ldB64 _ f => [(f.a, 0)]
  | .ldS8 _ f => [(f.a, 0)]
  | .ldS16 _ f => [(f.a, 0)]
  | .ldS32 _ f => [(f.a, 0)]
  | .stB8 _ f => [(f.a, 0)]
  | .stB16 _ f => [(f.a, 0)]
  | .stB32 _ f => [(f.a, 0)]
  | .stB64 _ f => [(f.a, 0)]
  | .ldfe _ f => [(f.a, 0)]
  | .stfe _ f => [(f.a, 0)]
  | .fefill _ f => [(f.a, 0)]
  | .feq _ f => [(f.a, 0)]
  | .atom _ f => [(f.a, 0)]
  | .atomf _ f => [(f.a, 0)]
  | .cas _ f => [(f.a, 0)]
  | .pref _ f => [(f.a, 0)]
  | .cinv _ f => [(f.a, 0)]
  | .cwb _ f => [(f.a, 0)]
  | .tget _ f => [(f.a, 0)]
  | .gres _ f => [(f.a, 0)]
  | .prim _ f => [(f.a, 0)]
  | .cwr _ f => [(f.a, 0)]
  | .zcmp _ f => [(f.a, 12)]
  | .brx _ f => [(f.a, 0)]
  | .emit _ f => [(f.a, 0), (f.b, 0)]
  | .barinit _ f => [(f.a, 0), (f.b, 0)]
  | .barjoin _ f => [(f.a, 0)]
  | .barjoinNow _ f => [(f.a, 0)]
  | .bararr _ f => [(f.a, 0)]
  | .barwait _ f => [(f.a, 0)]
  | .bardrop _ f => [(f.a, 0)]
  | .repl _ f => [(f.a, 0)]
  | _ => []

/-- The number of elements of a type (Table 3.8). -/
def typeCount (t : Nat) : Nat :=
  match t with
  | 3 => 2 | 4 => 2 | 5 => 4 | 6 => 4 | 7 => 8 | 8 => 8 | 9 => 16 | 10 => 16
  | 12 => 2 | 13 => 4 | 14 => 4 | 15 => 8 | 16 => 8 | 17 => 8 | 18 => 8 | 19 => 16 | 20 => 8 | _ => 1

/-- The type is a floating one (Table 3.8 codes 0x0B-0x14). -/
def typeFloat (t : Nat) : Bool := decide (11 ≤ t) && decide (t ≤ 20)

/-- The type is a signed integer one. -/
def typeSigned (t : Nat) : Bool := t == 1 || t == 3 || t == 5 || t == 7 || t == 9

/-- An inline constant is legal in a type (R72). -/
def constOk (c : BitVec 3) (t : Nat) : Bool :=
  if t == 20 then (c == 1 || c == 2 || c == 4 || c == 5 || c == 6)
  else if typeFloat t then true
  else decide (c.toNat < 4)

/-- Place of a sequence in its chain: index and member count; none outside a chain (R102). -/
abbrev ChainPos := Option (Nat × Nat)

/-- Codes of a source: 0x05 for a latch read that breaks R73, 0x07 for a reserved code or an illegal constant. -/
def srcCodes (pos : ChainPos) (x : Src × Nat) : List Nat :=
  match x.1 with
  | .latch k =>
    match pos with
    | some (i, _) => codeIf (decide (i < k.toNat + 1)) 5
    | none => [5]
  | .const c => codeIf (!constOk c x.2) 7
  | .resv _ => [7]
  | _ => []

/-- The source names a vector register. -/
def Src.vreg? : Src → Option Nat
  | .v n => some n.toNat
  | _ => none

/-- The fields that a `rep` hint can step: D, S1, S2 as vector registers (R64). -/
def Instr.stepFields (i : Instr) : Option Nat × Option Nat × Option Nat :=
  match i with
  | .add _ f => (some f.d.toNat, f.a.vreg?, f.b.vreg?)
  | .addI _ f => (some f.d.toNat, f.a.vreg?, none)
  | .sub _ f => (some f.d.toNat, f.a.vreg?, f.b.vreg?)
  | .mul _ f => (some f.d.toNat, f.a.vreg?, f.b.vreg?)
  | .mulh _ f => (some f.d.toNat, f.a.vreg?, f.b.vreg?)
  | .mad _ f => (some f.d.toNat, f.a.vreg?, f.b.vreg?)
  | .min _ f => (some f.d.toNat, f.a.vreg?, f.b.vreg?)
  | .max _ f => (some f.d.toNat, f.a.vreg?, f.b.vreg?)
  | .abs _ f => (some f.d.toNat, f.a.vreg?, none)
  | .neg _ f => (some f.d.toNat, f.a.vreg?, none)
  | .adds _ f => (some f.d.toNat, f.a.vreg?, f.b.vreg?)
  | .subs _ f => (some f.d.toNat, f.a.vreg?, f.b.vreg?)
  | .sad _ f => (some f.d.toNat, f.a.vreg?, f.b.vreg?)
  | .and_ _ f => (some f.d.toNat, f.a.vreg?, f.b.vreg?)
  | .andI _ f => (some f.d.toNat, f.a.vreg?, none)
  | .or_ _ f => (some f.d.toNat, f.a.vreg?, f.b.vreg?)
  | .orI _ f => (some f.d.toNat, f.a.vreg?, none)
  | .xor_ _ f => (some f.d.toNat, f.a.vreg?, f.b.vreg?)
  | .xorI _ f => (some f.d.toNat, f.a.vreg?, none)
  | .andn _ f => (some f.d.toNat, f.a.vreg?, f.b.vreg?)
  | .not_ _ f => (some f.d.toNat, f.a.vreg?, none)
  | .shl _ f => (some f.d.toNat, f.a.vreg?, f.b.vreg?)
  | .shlI _ f => (some f.d.toNat, f.a.vreg?, none)
  | .shr _ f => (some f.d.toNat, f.a.vreg?, f.b.vreg?)
  | .shrI _ f => (some f.d.toNat, f.a.vreg?, none)
  | .sar _ f => (some f.d.toNat, f.a.vreg?, f.b.vreg?)
  | .sarI _ f => (some f.d.toNat, f.a.vreg?, none)
  | .rot _ f => (some f.d.toNat, f.a.vreg?, f.b.vreg?)
  | .rotI _ f => (some f.d.toNat, f.a.vreg?, none)
  | .clz _ f => (some f.d.toNat, f.a.vreg?, none)
  | .popc _ f => (some f.d.toNat, f.a.vreg?, none)
  | .brev _ f => (some f.d.toNat, f.a.vreg?, none)
  | .bfe _ f => (some f.d.toNat, f.a.vreg?, f.b.vreg?)
  | .bfi _ f => (some f.d.toNat, f.a.vreg?, f.b.vreg?)
  | .prmt _ f => (some f.d.toNat, f.a.vreg?, f.b.vreg?)
  | .ext _ f => (some f.d.toNat, f.a.vreg?, none)
  | .sel _ f => (some f.d.toNat, f.a.vreg?, f.b.vreg?)
  | .cmp _ f => (none, f.a.vreg?, f.b.vreg?)
  | .cmpI _ f => (none, f.a.vreg?, none)
  | .mov _ f => (some f.d.toNat, f.a.vreg?, none)
  | .movi _ f => (some f.d.toNat, none, none)
  | .lea _ f => (some f.d.toNat, f.a.vreg?, f.b.vreg?)
  | .leaI _ f => (some f.d.toNat, f.a.vreg?, none)
  | .fadd _ f => (some f.d.toNat, f.a.vreg?, f.b.vreg?)
  | .fsub _ f => (some f.d.toNat, f.a.vreg?, f.b.vreg?)
  | .fmul _ f => (some f.d.toNat, f.a.vreg?, f.b.vreg?)
  | .ffma _ f => (some f.d.toNat, f.a.vreg?, f.b.vreg?)
  | .fmin _ f => (some f.d.toNat, f.a.vreg?, f.b.vreg?)
  | .fmax _ f => (some f.d.toNat, f.a.vreg?, f.b.vreg?)
  | .fminm _ f => (some f.d.toNat, f.a.vreg?, f.b.vreg?)
  | .fmaxm _ f => (some f.d.toNat, f.a.vreg?, f.b.vreg?)
  | .fcmp _ f => (none, f.a.vreg?, f.b.vreg?)
  | .fclass _ f => (none, f.a.vreg?, f.b.vreg?)
  | .frnd _ f => (some f.d.toNat, f.a.vreg?, none)
  | .fscale _ f => (some f.d.toNat, f.a.vreg?, f.b.vreg?)
  | .frcp _ f => (some f.d.toNat, f.a.vreg?, none)
  | .frsq _ f => (some f.d.toNat, f.a.vreg?, none)
  | .fsqrt _ f => (some f.d.toNat, f.a.vreg?, none)
  | .fdivf _ f => (some f.d.toNat, f.a.vreg?, f.b.vreg?)
  | .fexp2 _ f => (some f.d.toNat, f.a.vreg?, none)
  | .flog2 _ f => (some f.d.toNat, f.a.vreg?, none)
  | .fsin _ f => (some f.d.toNat, f.a.vreg?, none)
  | .fcos _ f => (some f.d.toNat, f.a.vreg?, none)
  | .ftanh _ f => (some f.d.toNat, f.a.vreg?, none)
  | .cvtsr _ f => (some f.d.toNat, f.a.vreg?, f.b.vreg?)
  | .pack _ f => (some f.d.toNat, f.a.vreg?, f.b.vreg?)
  | .unpack _ f => (some f.d.toNat, f.a.vreg?, f.b.vreg?)
  | .dot2 _ f => (some f.d.toNat, f.a.vreg?, f.b.vreg?)
  | .dot4 _ f => (some f.d.toNat, f.a.vreg?, f.b.vreg?)
  | .dot8 _ f => (some f.d.toNat, f.a.vreg?, f.b.vreg?)
  | .dots _ f => (some f.d.toNat, f.a.vreg?, f.b.vreg?)
  | .ldN8 _ f => (some f.d.toNat, f.a.vreg?, none)
  | .ldN16 _ f => (some f.d.toNat, f.a.vreg?, none)
  | .ldN32 _ f => (some f.d.toNat, f.a.vreg?, none)
  | .ldB64 _ f => (some f.d.toNat, f.a.vreg?, none)
  | .ldS8 _ f => (some f.d.toNat, f.a.vreg?, none)
  | .ldS16 _ f => (some f.d.toNat, f.a.vreg?, none)
  | .ldS32 _ f => (some f.d.toNat, f.a.vreg?, none)
  | .stB8 _ f => (some f.d.toNat, f.a.vreg?, none)
  | .stB16 _ f => (some f.d.toNat, f.a.vreg?, none)
  | .stB32 _ f => (some f.d.toNat, f.a.vreg?, none)
  | .stB64 _ f => (some f.d.toNat, f.a.vreg?, none)
  | _ => (none, none, none)

/-- A stepped field must name a vector register and not pass v31 (R64). -/
def stepOk (on : Bool) (r : Option Nat) (cnt : Nat) : Bool :=
  !on || (match r with | some n => decide (n + cnt ≤ 31) | none => false)

/-- `src3` flags a form does not accept (R129, Tables 5.1 and 6.4). -/
def flagMisfit (i : Instr) (x : Src3) : Bool :=
  let inf := i.info
  let t := i.ty
  let isI := match i with | .addI .. | .shlI .. | .shrI .. | .sarI .. | .rotI .. | .andI .. | .orI .. | .xorI .. | .leaI .. => true | _ => false
  let one := x.n1 || x.a1
  let rest2 := x.n2 || x.a2
  let rest3 := x.n3 || x.a3
  let okNeg :=
    match inf.flags with
    | .none => !one && !rest2 && !rest3
    | .first => !rest2 && !rest3
    | .signed => ((!one && !rest2 && !rest3) || typeSigned t) && (!isI || !rest2) && (inf.rt || !rest3)
    | .all => inf.rt || !rest3
  let okSat := !x.sat || inf.sat == 1 || (inf.sat == 2 && !typeFloat t)
  let okRo := !x.ro || inf.ro == 1 || (inf.ro == 2 && t != 14) || (inf.ro == 3 && t == 13)
  !(okNeg && okSat && okRo)

/-- Full/empty actions that Table 8.3 makes illegal. -/
def feIllegal (i : Instr) (fe : BitVec 2) : Bool :=
  match i with
  | .ldN8 .. | .ldN16 .. | .ldN32 .. | .ldB64 .. | .ldS8 .. | .ldS16 .. | .ldS32 .. => decide (2 ≤ fe.toNat)
  | .pref .. | .cinv .. | .cwb .. => fe != 0
  | _ => false

/-- `cvt`, whose SE = 1 is out of range (code 0x0A) where other forms' is a misfit (R173). -/
def Instr.isCvt : Instr → Bool
  | .cvt .. => true
  | _ => false

/-- Codes of the hints against their instruction (R64, R65, R77). -/
def hintCodes (i : Instr) (pos : ChainPos) : List Nat :=
  let h := i.head.hints
  let inf := i.info
  codeIf (h.imm.isSome && !inf.imm) 4 ++
  (match h.src3 with
   | none => codeIf inf.rt 8
   | some x =>
     codeIf (!x.v3 && decide (x.s3.code ≠ 0)) 3 ++ codeIf (!inf.src3 || (x.v3 != inf.rt) || flagMisfit i x) 4 ++
     codeIf (inf.rt && !x.v3) 8 ++ codeIf (decide (5 ≤ x.rm.toNat) || (!x.ro && decide (x.rm ≠ 0))) 10) ++
  (match h.type with
   | none => []
   | some t =>
     codeIf (decide (inf.types.length ≤ 1) || !inf.types.contains t.ty.toNat || (t.se && !inf.se && !i.isCvt)) 4 ++
     codeIf (decide (typeCount t.ty.toNat ≤ t.sub.toNat)) 10) ++
  (match h.memq with
   | none => []
   | some m =>
     codeIf (inf.memq == 0) 4 ++
     codeIf (m.scope == 7 || decide (4 ≤ m.cp.toNat) || feIllegal i m.fe ||
       (decide (2 ≤ inf.memq) && (m.ord != 0 || m.fe != 0)) || (inf.memq == 2 && m.cp != 0)) 10) ++
  (match h.rep with
   | none => []
   | some r =>
     let (d, a, b) := i.stepFields
     codeIf (!inf.rep || h.chain.isSome || pos.isSome || !stepOk r.sd d r.cnt.toNat || !stepOk r.sa a r.cnt.toNat ||
       !stepOk r.sb b r.cnt.toNat) 4) ++
  (match h.chain with
   | none => []
   | some l => codeIf (!inf.alu || (match pos with | some (n, _) => decide (n ≠ 0) | none => false)) 4 ++ codeIf (l == 0) 10) ++
  codeIf (h.guardq.isSome && !inf.guardq) 4

/-- Special registers listed in Table 3.9. -/
def srnListed (n : Nat) : Bool :=
  decide (n ≤ 0x0D) || (decide (0x10 ≤ n) && decide (n ≤ 0x15)) || (decide (0x18 ≤ n) && decide (n ≤ 0x1E))

/-- Special registers with the `movsw` right (Table 5.6). -/
def srnWritable (n : Nat) : Bool := n == 0x18 || n == 0x1A || n == 0x1B || n == 0x1C

/-- Destination types for which `cvt` accepts SAT (Table 6.6). -/
def cvtSatOk (t : Nat) : Bool := !(t == 11 || t == 12 || t == 13 || t == 14 || t == 20)

/-- Destination types for which `cvt` accepts RTZ (Table 6.6). -/
def cvtRtzOk (t : Nat) : Bool := t == 11 || t == 12 || t == 13 || decide (t ≤ 10)

/-- Offset of a B or L form in words: OFF14, extended by an `imm` hint (R70). -/
def wordOffset (imm : Option (BitVec 26)) (off : BitVec 14) : Int :=
  match imm with
  | none => off.toInt
  | some x => (x ++ off).toInt

/-- `hmov` N lies in the range of Table 13.9. -/
def hmovNOk (cl n : Nat) : Bool :=
  match cl with
  | 0 => decide (n < 32) | 1 => decide (n < 16) | 2 => n == 0
  | 3 => srnListed n | 4 => decide (n < 6) | 5 => decide (n < 4) | _ => true

/-- Codes of an instruction's own fields: reserved fields that depend on other fields (0x03), NW (0x09), and values
outside a stated range (0x0A). DESIGN CHOICE (log 103): any S2 of `unpack` but 0 and 1 has code 0x0A alone, as R177 says, where Table
3.10 gives some of those values a lower code too. -/
def fieldCodes (i : Instr) (pos : ChainPos) : List Nat :=
  let nwBad (nw : Bool) (d : BitVec 5) : List Nat :=
    codeIf (nw && !(match pos with | some (n, len) => decide (n + 1 < len) && d == 0 | none => false)) 9
  match i with
  | .movs _ f =>
    codeIf ((f.sd && f.d.getLsbD 4) || (!(f.sd && f.srn == 0x3F) && decide (f.a.code ≠ 0))) 3 ++
    codeIf (!(srnListed f.srn.toNat || (f.sd && f.srn == 0x3F))) 10
  | .movsw _ f => codeIf (!srnWritable f.srn.toNat) 10
  | .movpToVector _ f => codeIf (!f.one && f.pn != 0) 3
  | .movpToPredicates _ f => codeIf (!f.one && f.pn != 0) 3
  | .vote _ f => codeIf (decide (f.op.toNat < 2) && f.d.getLsbD 4) 3
  | .redg _ f => codeIf (decide (6 ≤ f.op.toNat) || (decide (3 ≤ f.op.toNat) && typeFloat i.ty)) 10
  | .scang _ f => codeIf (decide (6 ≤ f.op.toNat) || (decide (3 ≤ f.op.toNat) && typeFloat i.ty)) 10
  | .cvt h f =>
    codeIf (f.stype == 0 || decide (0x14 < f.stype.toNat) || (f.sat && !cvtSatOk i.ty) || (f.rtz && !cvtRtzOk i.ty) ||
      ((h.hints.type.map (·.se)).getD false)) 10
  | .unpack _ f => nwBad f.nw f.d ++ codeIf (!(f.b == .const 0 || f.b == .const 1)) 10
  | .atom _ f => codeIf (decide (8 ≤ f.off5.toNat)) 10
  | .atomf _ f => codeIf (decide (3 ≤ f.off5.toNat)) 10
  | .cas _ f => codeIf (f.off5 != 0 || f.d == 31) 10
  | .waitk _ f => codeIf (f.mask == 0) 10
  | .mzero _ f => codeIf (f.mask == 0) 10
  | .mwait _ f => codeIf (f.mask == 0) 10
  | .prim _ f => codeIf (decide (26 < f.vp.toNat)) 10
  | .cwr _ f => codeIf (decide (5 ≤ f.bm.toNat)) 10
  | .trace _ f => codeIf (decide (30 < f.vh.toNat) || decide (28 < f.vr.toNat)) 10
  | .traceh _ f => codeIf (decide (30 < f.d.toNat) || f.w == 3) 10
  | .loop h f => codeIf (decide (wordOffset h.hints.imm f.off14 < 1)) 10
  | .launch _ f => codeIf (!f.ao && f.sb != 0) 10
  | .fence _ f => codeIf (f.scope == 7) 10
  | .hmov _ f => codeIf (f.h.getLsbD 4 || !hmovNOk f.cl.toNat f.n.toNat) 10
  | .add _ f => nwBad f.nw f.d
  | .addI _ f => nwBad f.nw f.d
  | .sub _ f => nwBad f.nw f.d
  | .mul _ f => nwBad f.nw f.d
  | .mulh _ f => nwBad f.nw f.d
  | .mad _ f => nwBad f.nw f.d
  | .min _ f => nwBad f.nw f.d
  | .max _ f => nwBad f.nw f.d
  | .abs _ f => nwBad f.nw f.d
  | .neg _ f => nwBad f.nw f.d
  | .adds _ f => nwBad f.nw f.d
  | .subs _ f => nwBad f.nw f.d
  | .sad _ f => nwBad f.nw f.d
  | .and_ _ f => nwBad f.nw f.d
  | .andI _ f => nwBad f.nw f.d
  | .or_ _ f => nwBad f.nw f.d
  | .orI _ f => nwBad f.nw f.d
  | .xor_ _ f => nwBad f.nw f.d
  | .xorI _ f => nwBad f.nw f.d
  | .andn _ f => nwBad f.nw f.d
  | .not_ _ f => nwBad f.nw f.d
  | .shl _ f => nwBad f.nw f.d
  | .shlI _ f => nwBad f.nw f.d
  | .shr _ f => nwBad f.nw f.d
  | .shrI _ f => nwBad f.nw f.d
  | .sar _ f => nwBad f.nw f.d
  | .sarI _ f => nwBad f.nw f.d
  | .rot _ f => nwBad f.nw f.d
  | .rotI _ f => nwBad f.nw f.d
  | .clz _ f => nwBad f.nw f.d
  | .popc _ f => nwBad f.nw f.d
  | .brev _ f => nwBad f.nw f.d
  | .bfe _ f => nwBad f.nw f.d
  | .bfi _ f => nwBad f.nw f.d
  | .prmt _ f => nwBad f.nw f.d
  | .ext _ f => nwBad f.nw f.d
  | .sel _ f => nwBad f.nw f.d
  | .mov _ f => nwBad f.nw f.d
  | .movi _ f => nwBad f.nw f.d
  | .lea _ f => nwBad f.nw f.d
  | .leaI _ f => nwBad f.nw f.d
  | .fadd _ f => nwBad f.nw f.d
  | .fsub _ f => nwBad f.nw f.d
  | .fmul _ f => nwBad f.nw f.d
  | .ffma _ f => nwBad f.nw f.d
  | .fmin _ f => nwBad f.nw f.d
  | .fmax _ f => nwBad f.nw f.d
  | .fminm _ f => nwBad f.nw f.d
  | .fmaxm _ f => nwBad f.nw f.d
  | .frnd _ f => nwBad f.nw f.d
  | .fscale _ f => nwBad f.nw f.d
  | .frcp _ f => nwBad f.nw f.d
  | .frsq _ f => nwBad f.nw f.d
  | .fsqrt _ f => nwBad f.nw f.d
  | .fdivf _ f => nwBad f.nw f.d
  | .fexp2 _ f => nwBad f.nw f.d
  | .flog2 _ f => nwBad f.nw f.d
  | .fsin _ f => nwBad f.nw f.d
  | .fcos _ f => nwBad f.nw f.d
  | .ftanh _ f => nwBad f.nw f.d
  | .cvtsr _ f => nwBad f.nw f.d
  | .pack h f => nwBad f.nw f.d ++ codeIf ((h.hints.src3.map (·.sat)).getD false && !cvtSatOk i.ty) 10
  | .dot2 _ f => nwBad f.nw f.d
  | .dot4 _ f => nwBad f.nw f.d
  | .dot8 _ f => nwBad f.nw f.d
  | .dots _ f => nwBad f.nw f.d
  | _ => []

/-- Codes of the guard (R77 code 0x06). -/
def guardCodes (i : Instr) : List Nat :=
  codeIf ((i.info.guard == 1 && i.head.guard.isSome) || (i.info.guard == 2 && i.head.guard.isNone)) 6

/-- Every detail code an instruction raises at its place in a chain, if any (Table 3.10). -/
def Instr.codesAt (i : Instr) (pos : ChainPos) : List Nat :=
  hintCodes i pos ++ guardCodes i ++ (i.srcs.flatMap (srcCodes pos)) ++ fieldCodes i pos

/-- The last member of a chain may be an `st` form (R102). -/
def Instr.isStore : Instr → Bool
  | .stB8 .. | .stB16 .. | .stB32 .. | .stB64 .. => true
  | _ => false

/-- Codes of a chain's members taken as one unit (R102): a member of a form that no chain holds is a misfit. -/
def chainCodes (ms : List Instr) : List Nat :=
  let n := ms.length
  (ms.mapIdx fun k i =>
    i.codesAt (some (k, n)) ++ codeIf (!(i.info.alu || (decide (k + 1 = n) && decide (0 < k) && i.isStore))) 4).flatten

/-- The lowest code of a list (R77). -/
def lowestCode (cs : List Nat) : Option Nat := cs.min?

end Sys2Proof
end

