-- ==== Sys2Proof/Config.lean ====
section
/-! DEFINITION. Config: the values the spec leaves open. Each is an opaque constant: no proof and no run can
see a value of it. The first argument of a function drawn anew is the draw counter `State.draw`, which the step advances; the
others tell apart the values drawn at one count. -/

namespace Sys2Proof.Config

/-- Nanoseconds that a step takes beyond 1 (latencies are not given; log 6). -/
opaque elapsed : Nat → Nat

/-- Latch value left by a chain member that writes a predicate (R103 gives none; log 7): by member and lane. -/
opaque latchOfPredicate : Nat → Nat → Word

/-- Which of several allowed hits an any-mode traversal returns (R299; log 8). -/
opaque anyHit : Nat → Nat

/-- Whether a write in flight at termination or failure is performed (R353, R320; log 9): by access or element. -/
opaque inFlightPerformed : Nat → Nat → Bool

/-- A digest, certificate, signature or version answered by SPDM, as a number (R388 does not give the bytes; log 12): by what it is,
and by the number of what it is a digest or part of. -/
opaque spdm : Nat → Nat → Nat

/-- Latency in ns measured at boot for a logical link of a hop count (R46; log 13). -/
opaque linkLatency : Nat → Nat → Nat

/-- What a peer package's memory answers to a read (R383; log 16): by address or destination register. -/
opaque peerValue : Nat → Nat → Word

/-- Result bits that a rule leaves without a stated value for some operands (log 15): by command or pixel, and place in it. -/
opaque unstated : Nat → Nat → Nat → Word

/-- Physical page that holds the lens table's page of a context (R46 gives none; log 13), by its number. -/
opaque lensPage : Nat → Nat

/-- Place of the lens table's virtual page in a context (R46 gives none; log 13), by the context's number. -/
opaque lensSlot : Nat → Nat

/-- Which die draws the most power (R394; log 30). -/
opaque hungriest : Nat → Nat

end Sys2Proof.Config
end

