-- ==== Sys2Proof/Machine/State.lean ====
section
/-! DEFINITION. State: every piece of state the spec gives the Kolaro panel, as plain data. Lists stand for
collections; a list of pairs keyed by a Nat is in ascending key order. -/

namespace Sys2Proof.Machine

/-- Why the machine stops. -/
inductive Fault where
  /-- An instruction row was executed with no resident group, or no selectable entry, to issue it. Raised by the
  shared issue operation; the step never does it. Safe. -/
  | noIssuer
  /-- POWER_LOSS or the thermal trip removed every rail and all device state is lost (R393, R396): raised by a step
  other than POWER_UP while the package is unpowered. Safe. -/
  | unpowered
  deriving DecidableEq, Repr

/-- Why the model gives no meaning. -/
inductive Refusal where
  /-- Raised by an arm of `exec` whose instruction has no meaning yet. Safe. -/
  | notModelled (mnemonic : String)
  deriving DecidableEq, Repr

/-- A list of values keyed by ascending numbers. -/
abbrev AMap (α : Type) := List (Nat × α)

/-! ### Lanes, entries, groups -/

/-- A control-stack record (R108). Addresses are virtual. A stack lists its innermost record first. -/
inductive CRec where
  | loop (start fin : Nat) (l : BitVec 32)
  | call (ret : Nat) (prio : Nat)
  deriving DecidableEq, Repr

/-- What the hints of a parked sequence ask for when it completes: words, `dead` registers, Y and STALL. -/
structure Close where
  words : Nat
  dead : List Nat := []
  y : Bool := false
  stall : Nat := 0
  deriving DecidableEq, Repr

/-- What a parked entry waits for (R95). A parked `zcmp` or `pbar` completes when its condition comes; the others issue
their instruction again. -/
inductive Park where
  | ldfe
  /-- by lane: store location of the object, and the phase awaited (R312); lanes that a full pool of waiters refused (R313) -/
  | barwait (objs : AMap (Nat × Bool)) (refused : Mask := 0)
  | waitk (mask : BitVec 4)
  | mwait (mask : BitVec 16)
  | tileSet
  | contArea
  | zcmp (c : Close)
  | pbar (c : Close)
  deriving DecidableEq, Repr

/-- A frontier entry (R91), with the lanes of a parked `ldfe` that have read (R227), or that are done with a sequence of which other
lanes are not, and the restart mask of a trapped entry (R346). -/
structure Entry where
  pc : Nat
  prio : Nat := 0
  mask : Mask
  stack : List CRec := []
  yielded : Bool := false
  park : Option Park := none
  readDone : Mask := 0
  restart : Option Mask := none
  /-- the sequence holds its pipe part-way (R193, R228) -/
  mid : Bool := false
  /-- `fence.sc` in progress: accesses below this identifier drain; then its heartbeat and fence count (R336) -/
  sc : Option (Nat × Option (Nat × Nat)) := none
  /-- repeat at which a pending `rep` sequence of the entry was interrupted: `sr.repi` while it is pending (R106) -/
  repi : Nat := 0
  deriving DecidableEq, Repr

/-- One entry of an item's membership table (R310); `obj` is the store location of the granule. -/
structure Member where
  obj : Nat
  addr : Nat
  ph : Bool
  arr : Bool
  deriving DecidableEq, Repr

/-- An item's ticket at its pixel (R284, R371). -/
structure Ticket where
  num : Nat
  /-- the owner die -/
  die : Nat
  dres : Bool := false
  cres : Bool := false
  deriving DecidableEq, Repr

/-- An item (R17, R18) with the state that stays with it. -/
structure Item where
  item0 : BitVec 32 := 0
  item1 : BitVec 32 := 0
  item2 : BitVec 32 := 0
  itemid : BitVec 48 := 0
  stage : Nat := 0
  members : List Member := []
  tgEnded : Bool := false
  prims : Nat := 0
  ticket : Option Ticket := none
  tgseq : Nat := 0
  /-- registers v0-v2 that a refill writes for a pixel of a quad (R283) -/
  regs : List Word := []
  deriving DecidableEq, Repr

/-- A guard slot g0-g7 (R258). -/
inductive Slot where
  | opened
  | isTrue
  | isFalse
  deriving DecidableEq, Repr

/-- Where a stopped group stands (R345-R352, R366). -/
inductive Stop where
  | running
  | waitFrame
  | handling
  | waitSupervisor (recorded : Bool)
  deriving DecidableEq, Repr

/-- The trap record words of a group (Table 13.4) and what resumption needs. -/
structure TrapRec where
  cls : Nat
  detail : Nat := 0
  info : BitVec 32 := 0
  repi : Nat := 0
  pc : Nat := 0
  emask : Mask := 0
  tmask : Mask := 0
  addr : Nat := 0
  lmask : Mask := 0
  isRep : Bool := false
  isChain : Bool := false
  depth : Nat := 0
  prio : Nat := 0
  /-- words of the trapped sequence, its repeat count and what its hints ask for at completion, for resumption past it -/
  words : Nat := 1
  reps : Nat := 0
  dead : List Nat := []
  yields : Bool := false
  stall : Nat := 0
  /-- lanes outside the trap mask have not completed the sequence: it is reissued for them too (R227, R312, R361) -/
  joins : Bool := false
  /-- order in which groups trapped -/
  order : Nat := 0
  /-- class 0x0A: the destination registers still to supply, and the lanes supplied for each -/
  dests : List Nat := []
  supplied : List (Nat × Nat) := []
  /-- class 0x0A raised by an instruction fetch -/
  fetchError : Bool := false
  /-- class 0x0A: the poisoned operation delivered, 0 where none (R351) -/
  op : Nat := 0
  deriving DecidableEq, Repr

/-- The handler frame's registers while a group handles a trap (R349). -/
structure Frame where
  entries : List Entry := []
  v : AMap Word := []
  p : AMap (BitVec 16) := []
  s : AMap Word := []
  deriving DecidableEq, Repr

/-- What a matrix queue entry does (R196). -/
inductive MatKind where
  | tile (k : Nat) (a b : Word)
  | zero
  | load (desc : Word)
  | store (desc : Word)
  deriving DecidableEq, Repr

/-- A matrix operation (R197): its stamp, tiles, and the identifier entries read at issue. -/
structure MatOp where
  stamp : Nat
  mask : BitVec 16
  kind : MatKind
  ta : BitVec 512 := 0
  tb : BitVec 512 := 0
  sa : BitVec 512 := 0
  sb : BitVec 512 := 0
  deriving DecidableEq, Repr

/-- An engine command kind (R256), with what it read at issue. -/
inductive CmdKind where
  | copy (blk s d sc : BitVec 512)
  | cflag (addr : Nat) (v : Word)
  | pattr (op : Nat) (va : Nat)
  | coll (blk s d : BitVec 512)
  deriving DecidableEq, Repr

/-- An engine command (R256): channel, counted operation, guard slot, address of the issuing instruction; the context and
partition of its gang (R246) and its cache policy (R263). -/
structure Cmd where
  id : Nat
  grp : Nat
  gang : Nat
  launch : Nat
  ctx : Nat := 0
  part : Nat := 0
  cp : Nat := 0
  op : Nat
  ch : Nat
  kind : CmdKind
  guard : Option Nat := none
  /-- taken at the head of the queue (R258) -/
  verdict : Option Bool := none
  /-- discarded because no live item of its group is left (R259) -/
  orphan : Bool := false
  scope : Nat := 5
  pc : Nat := 0
  deriving DecidableEq, Repr

/-- A resident group. -/
structure Group where
  id : Nat
  gang : Nat
  index : Nat := 0
  die : Nat
  cluster : Nat
  core : Nat
  slot : Nat := 0
  entries : List Entry := []
  items : AMap Item := []
  ages : AMap Nat := []
  /-- vector registers: key 32·register + lane; a key that is present is a set live bit (R99) -/
  v : AMap Word := []
  /-- predicates p0-p15 of a lane -/
  p : AMap (BitVec 16) := []
  s : AMap Word := []
  fpmode : BitVec 64 := 0
  fpflags : BitVec 64 := 0
  syncst : BitVec 64 := 0
  gslots : AMap Slot := []
  engq : List Cmd := []
  matq : List MatOp := []
  level : Nat := 0
  /-- cycles the group was ready and not chosen since its level last rose, and whether it is so now (R90) -/
  waited : Nat := 0
  waits : Bool := false
  lastStart : Nat := 0
  stall : Nat := 0
  surge : Bool := false
  surgeWait : Option Nat := none
  tileWait : Option Nat := none
  stop : Stop := .running
  trap : Option TrapRec := none
  frame : Option Frame := none
  /-- poisoned counted operations awaiting delivery (R351) -/
  deliver : List Nat := []
  haltReq : Bool := false
  halted : Bool := false
  stepping : Bool := false
  /-- the record of the halt, class 0 for one by `DBGCTL` (R367) -/
  haltRec : Option TrapRec := none
  preempting : Bool := false
  /-- commands and matrix operations completed since the halt, oldest first, at most 64 (R367) -/
  doneCmds : List Nat := []
  retired : Bool := false
  deriving DecidableEq, Repr

/-! ### Gangs and launches -/

/-- A convergence register (Table 7.5). -/
structure CvReg where
  last : Nat := 0
  sig : Nat := 0
  cm1 : Nat := 31
  /-- group whose lane holds the register at its count (R193) -/
  hold : Option Nat := none
  deriving DecidableEq, Repr

/-- A gang: resident, or saved in a slot of its context's pool. -/
structure Gang where
  id : Nat
  launch : Nat
  stage : Nat := 0
  serial : Nat
  pdie : Nat
  ngroups : Nat
  span : Nat := 1
  die : Nat
  cluster : Nat
  core : Nat := 0
  start : Nat := 0
  size : Nat := 0
  tset : Option Nat := none
  cv : AMap CvReg := []
  live : BitVec 16 := 0xFFFF
  preempting : Bool := false
  saved : Option Nat := none
  savedGroups : List Group := []
  savedStore : List Host.Cell := []
  savedFull : List Nat := []
  savedScale : List Host.Cell := []
  /-- restored with matrix operations whose tag is still to be compared (R411) -/
  restoredOps : Bool := false
  /-- the save slot the gang has taken (R362) -/
  slot : Option Nat := none
  /-- saved in save-point mode: the slot holds its tiles until it binds a set (R205) -/
  savePoint : Bool := false
  stranded : Bool := false
  deriving DecidableEq, Repr

/-- The effective values of a stage (R13). -/
structure Stage where
  kobj : Nat
  entry : Nat
  refill : Nat
  thresh : Nat
  rpri : Nat
  codesz : Nat
  steady : Nat
  peak : Nat
  store : Nat
  groups : Nat
  span : Nat
  deriving DecidableEq, Repr

/-- Stock of one (die, stage): position ranges still to place (stage 0) and items (R36, R37). -/
structure Stock where
  die : Nat
  stage : Nat
  ranges : List (Nat × Nat) := []
  items : List Item := []
  final : Bool := false
  asked : Bool := false
  deriving DecidableEq, Repr

/-- A continuation record (R371) on a die. -/
structure Cont where
  id : Nat
  launch : Nat
  die : Nat
  grp : Nat
  item : Item
  pred : BitVec 16
  pc : Nat
  /-- words of the `await` sequence, which end at `pc` -/
  words : Nat := 1
  prio : Nat
  stack : List CRec
  cc : Nat
  live : BitVec 16
  addr : Nat
  regs : AMap Word := []
  waits : List Nat
  /-- the awaited operation -/
  awaited : Nat := 0
  /-- place in the continuation area (R398) -/
  slot : Nat
  ready : Option Nat := none
  deriving DecidableEq, Repr

/-- A primitive (R275) with its sequence token (Table 10.1). -/
structure Prim where
  verts : List (BitVec 32)
  handle : Word
  token : BitVec 64
  /-- held in the render spill area (R281) -/
  spilled : Bool := false
  deriving DecidableEq, Repr

/-- An end marker (R278): its header and the counts of its payload. -/
structure Marker where
  header : BitVec 64
  counts : List (BitVec 8)
  deriving DecidableEq, Repr

/-- A packet of the render traffic class (R278). -/
inductive RenderPkt where
  | prim (p : Prim)
  | marker (m : Marker)
  deriving DecidableEq, Repr

/-- A colour entry posted by `cwr` (R292). -/
structure ColourPost where
  bm : Nat
  colour : BitVec 32
  surface : BitVec 512
  op : Nat
  grp : Nat
  deriving DecidableEq, Repr

/-- A depth entry posted by `zcmp` (R293). -/
structure DepthPost where
  cond : Nat
  z : BitVec 32
  wr : Bool
  tensor : BitVec 512
  grp : Nat
  lane : Nat
  pd : Nat
  deriving DecidableEq, Repr

/-- A pixel's ticket on the owner die: what has been posted to it and what has been applied (R284). -/
structure Post where
  ticket : Nat
  px : Nat
  py : Nat
  helper : Bool := false
  depthDone : Bool := false
  colourDone : Bool := false
  colour : Option ColourPost := none
  depth : Option DepthPost := none
  deriving DecidableEq, Repr

/-- The owner-die state of a draw (R280-R284). -/
structure Focus where
  die : Nat
  k : Nat := 0
  held : List Prim := []
  counts : AMap Nat := []
  released : List Prim := []
  nextTicket : Nat := 0
  posts : List Post := []
  /-- primitives sent to each owner: key 64·task group + owner -/
  sent : AMap Nat := []
  ended : List Nat := []
  /-- task groups dealt to the die: first and count -/
  dealt : List (Nat × Nat) := []
  markers : List Nat := []
  deriving DecidableEq, Repr

/-- A launch: where it stands. -/
inductive Phase where
  | waiting
  | released
  | ending (status : Nat)
  deriving DecidableEq, Repr

/-- A launch (R32). -/
structure Launch where
  id : Nat
  ctx : Nat
  queue : Nat
  seq : Nat
  lpb : BitVec 1024
  lpbAddr : Nat := 0
  phase : Phase := .waiting
  order : Nat := 0
  stages : List Stage := []
  dies : List Nat := []
  home : Nat := 0
  cmask : BitVec 32 := 0
  total : Nat := 0
  supply : Nat := 0
  dealQ : List Nat := []
  dealR : AMap (List (Nat × Nat) × Bool) := []
  stocks : List Stock := []
  serials : AMap Nat := []
  starve : AMap Nat := []
  holds : List Nat := []
  placed : Bool := false
  arrived : List Nat := []
  treeAt : List Nat := []
  releasing : List Nat := []
  brokenBy : Option Nat := none
  draw : List Focus := []
  pkts : AMap RenderPkt := []
  tileMap : List Nat := []
  m0 : Nat := 0
  m1 : Nat := 0
  current : AMap Nat := []
  deriving DecidableEq, Repr

/-! ### Accesses -/

/-- What an access does at its location. -/
inductive AccKind where
  | load (signed : Bool)
  | store
  | ldfe
  | stfe
  | fefill
  | feq (pd : Nat)
  | atom (op ty : Nat)
  | atomf (op ty : Nat)
  | cas (ty : Nat)
  | line
  | tex (d : BitVec 512) (u v : BitVec 32) (filt wrap : Bool)
  | ray (mode : Nat) (base : Nat) (r : List (BitVec 32))
  deriving DecidableEq, Repr

/-- Where an access stands between issue and completion. -/
inductive AccPhase where
  | atBank
  | waiter
  | refused
  | toHbm
  | hbmDone
  | remoteWrite
  | remoteReply
  | toHost
  | toPeer (port : Nat)
  | traversing
  deriving DecidableEq, Repr

/-- Where a result goes (R370: a continuation record takes it after `await`). -/
inductive Dst where
  | none
  | lane
  | record (r : Nat)
  deriving DecidableEq, Repr

/-- One lane's access of a counted operation. `loc` is the location of its first byte; `va` the effective address. -/
structure Access where
  id : Nat
  op : Nat
  grp : Nat
  die : Nat
  lane : Nat
  kind : AccKind
  va : Nat
  loc : Nat
  size : Nat
  scope : Nat := 2
  acq : Bool := false
  d : Nat := 0
  data : Word := 0
  data2 : Word := 0
  fe : Nat := 0
  dst : Dst := .lane
  phase : AccPhase
  tag : Nat := 0
  started : Bool := false
  home : Nat := 0
  clock : AMap Nat := []
  seqNo : Nat := 0
  /-- context and partition of the gang, which its packets carry (R246) -/
  ctx : Nat := 0
  part : Nat := 0
  /-- cache policy (R233), and time of issue (R338) -/
  cp : Nat := 0
  time : Nat := 0
  /-- place in its bank's request queue, 0 while a requester still holds it (R221) -/
  queued : Nat := 0
  /-- issued in handler mode: the result goes to the frame (R349) -/
  hnd : Bool := false
  /-- context and leaf entry of a write to a `repl` page (R252) -/
  repl : Option (Nat × BitVec 64) := none
  /-- the read met an uncorrectable error (R245) -/
  bad : Bool := false
  /-- PC of the sequence -/
  pc : Nat := 0
  /-- destination registers whose value a `dead` hint discards (R100) -/
  discard : List Nat := []
  deriving DecidableEq, Repr

/-- A counted operation (R228): outstanding until it completes for every lane. -/
structure CountedOp where
  id : Nat
  grp : Nat
  /-- the counter it counts on: 4-7 those of the handler frame, 8 none, 9 a poisoned operation awaiting delivery -/
  ctr : Nat
  /-- the counter its sequence names: 8 where it is no operation of an item (R369) -/
  cc : Nat := 8
  lanes : Mask
  pc : Nat := 0
  /-- of the entry at issue, for the record of a poisoned operation (R348, R351): its lanes, whether it ran a `rep`, its stack's
  depth and its priority -/
  emask : Mask := 0
  isRep : Bool := false
  depth : Nat := 0
  prio : Nat := 0
  addrs : AMap Nat := []
  poisoned : Mask := 0
  poisonAddr : Nat := 0
  dests : List Nat := []
  ready : Bool := true
  engine : Bool := false
  deriving DecidableEq, Repr

/-- A page walk (R253). -/
inductive WalkPhase where
  | waiting
  | running
  | done (r : Option (Nat × Nat × BitVec 64)) (cause : Nat)
  deriving DecidableEq, Repr

/-- A walk of a die for a context and a 64 KiB virtual page number, with the partition of its requester (R246): a cluster, or with
`cluster` 32 the die's own engines, dispatcher and units. -/
structure Walk where
  id : Nat
  die : Nat
  cluster : Nat
  ctx : Nat
  part : Nat := 0
  vpn : Nat
  install : Bool := true
  stale : Bool := false
  phase : WalkPhase := .waiting
  deriving DecidableEq, Repr

/-- A TLB entry: context, first virtual address, level of the leaf, its entry word (R253). -/
structure TlbE where
  ctx : Nat
  va : Nat
  level : Nat
  pte : BitVec 64
  deriving DecidableEq, Repr

/-- Whose bytes a request is for: a page walk, the instruction fetch of a group at a PC, the block that a group's sequence reads, an
engine command's own elements, its status, its collective reads or writes, a payload of a stream, a ray traversal, a cluster's matrix
engine, a post of the colour or depth unit, a group's `cclr` or `cdec` or `launch`, and the dispatcher's work for a queue, a launch's
release and its completion. -/
inductive Owner where
  | walk (id : Nat)
  | fetch (grp pc : Nat)
  | block (grp : Nat)
  | copy (cmd : Nat)
  | status (cmd : Nat)
  | gives (cmd : Nat)
  | takes (cmd : Nat)
  | payload (stream : Nat)
  | ray (acc : Nat)
  | matrix (stamp : Nat)
  | colour (launch die ticket : Nat)
  | depth (launch die ticket : Nat)
  | box (grp : Nat)
  | append (grp : Nat)
  | admission (ctx queue : Nat)
  | release (launch : Nat)
  | complete (launch : Nat)
  deriving DecidableEq, Repr

/-- A request of an engine, a unit, a dispatcher, a walk or a fetch for one granule of a store, at a requester of its banks (R221), or
for one 64-byte span of device memory, as a packet with a tag (R244), context and partition (R246). -/
structure UnitReq where
  id : Nat
  owner : Owner
  die : Nat
  port : Nat := 5
  loc : Nat
  write : Bool := false
  ctx : Nat := 0
  part : Nat := 0
  /-- place in its bank's request queue, 0 while its requester still holds it -/
  queued : Nat := 0
  tag : Nat := 4096
  started : Bool := false
  done : Bool := false
  deriving DecidableEq, Repr

/-! ### Streams and commands in progress -/

/-- One element a command moves (R266): locations of its source bytes (none for a constant) and destination bytes, lowest
first, the bit each begins at, and its width at each. -/
structure Elem where
  src : List Nat := []
  sbit : Nat := 0
  sbits : Nat := 64
  const : Nat := 0
  dst : List Nat := []
  dbit : Nat := 0
  bits : Nat
  srcVa : Nat := 0
  dstVa : Nat := 0
  /-- context and leaf entry of the `repl` page written (R252) -/
  repl : Option (Nat × BitVec 64) := none
  deriving DecidableEq, Repr

/-- What the OPEN flit of a command's stream carries (R260): the tensor entries read and written, with their addresses, strides,
extents and format, and the command block. -/
structure Opening where
  src : BitVec 512
  dst : BitVec 512
  blk : BitVec 512
  deriving DecidableEq, Repr

/-- Payload of a flit (R260, R334): the addresses of OPEN, a quarter of the clock, the values written, the flag. The layout is given
for a quarter alone; OPEN of an item stream carries no address that the spec names. -/
inductive FlitBody where
  | addresses (o : Option Opening)
  | quarter (x : BitVec 512)
  | data (vs : List Nat)
  | flag (addr : Nat) (v : Word)
  | close
  deriving DecidableEq, Repr

/-- A flit as it was sent: its header on each link direction of its route (Table 9.8), and its payload. -/
structure Flit where
  headers : List (BitVec 64)
  body : FlitBody
  deriving DecidableEq, Repr

/-- A stream of a command between two dies, or, with `cmd` 0, the item stream of a die pair (R260, R334): the link
directions still to take, those held with their tags, and when it asked for the next; the commands whose FLAG it is still to carry;
the clock it has carried and the quarters of it still due; the last flit sent. -/
structure Stream where
  id : Nat
  cmd : Nat
  src : Nat
  dst : Nat
  ch : Nat := 0
  links : List (Nat × Nat) := []
  tags : List (Nat × Nat × Nat) := []
  since : Nat := 0
  opened : Bool := false
  elems : List Elem := []
  flags : List Nat := []
  beat : Nat := 0
  idle : Nat := 0
  carried : AMap Nat := []
  due : List Nat := []
  sent : Option Flit := none
  /-- its CLOSE has been sent and frees its tags link by link (R261) -/
  closing : Bool := false
  deriving DecidableEq, Repr

/-- A command started on a channel (R257), in channel order, with the elements that cross no die and its first failure: code,
cause, address (R268). -/
structure Active where
  cmd : Cmd
  die : Nat
  order : Nat
  elems : List Elem := []
  fail : Option (Nat × Nat × Nat) := none
  /-- peer and host-link ports its accesses go through -/
  ports : List Nat := []
  hosts : List Nat := []
  /-- its flag has been written or dropped (R270) -/
  flagged : Bool := false
  deriving DecidableEq, Repr

/-- A collective command at its engine (R318): its status once known, and what its member contributes. -/
structure CollCmd where
  cmd : Cmd
  die : Nat
  ctx : Nat
  status : Option Nat := none
  values : List Nat := []
  /-- contributions of all members in rank order, once the data phase has started -/
  all : List (Nat × List Nat) := []
  fail : Option (Nat × Nat × Nat) := none
  deriving DecidableEq, Repr

/-! ### Clusters and dies -/

/-- A tag record (Table 7.7); BUSY is derived. -/
structure TagRec where
  savep : BitVec 52 := 0
  held : BitVec 16 := 0
  gang : BitVec 46 := 0
  ctx : BitVec 16 := 0
  owned : Bool := false
  deriving DecidableEq, Repr

/-- Power state of a cluster (R57, R58). -/
inductive PState where
  | awake
  | gated
  | requesting
  | waking
  | gatingDown
  deriving DecidableEq, Repr

/-- Power state of a store quarter (R229, R230). -/
inductive QState where
  | on
  | off
  | waking
  deriving DecidableEq, Repr

/-- A cluster that differs from its state after reset. -/
structure Cluster where
  key : Nat
  power : PState := .awake
  quarters : List QState := [.on, .on, .on, .on]
  clearing : List (Nat × Nat) := []
  tags : AMap TagRec := []
  running : Option (Nat × MatOp) := none
  lastSlot : Nat := 127
  tlb : List TlbE := []
  handler : AMap Nat := []
  progress : AMap Nat := []
  stalls : AMap (Nat × Nat × Bool) := []
  /-- by bank: the requester that entered first in the last cycle in which one entered (R221) -/
  entered : AMap Nat := []
  deriving DecidableEq, Repr

/-- A context area record (Table 15.7). -/
structure AreaRec where
  ctx : Nat := 0
  spilln : Nat := 0
  spillp : Nat := 0
  contn : Nat := 0
  contp : Nat := 0
  emitn : Nat := 0
  emitp : Nat := 0
  valid : Bool := false
  deriving DecidableEq, Repr

/-- A share record (Table 9.3). -/
structure ShareRec where
  valid : Bool := false
  don : Bool := false
  part : Nat := 0
  ctx : Nat := 0
  deriving DecidableEq, Repr

/-- A line held in a die cache (R232). -/
structure CLine where
  line : Nat
  way : Nat
  dirty : Bool
  keep : Bool := false
  deriving DecidableEq, Repr

/-- A logical die. -/
structure Die where
  num : Nat
  px : Nat := 0
  py : Nat := 0
  failed : Bool := false
  freq : Nat := 18
  cyc : Nat := 0
  stepG : Nat := 0
  stepC : Nat := 0
  ratio : BitVec 64 := 0
  relock : Option Nat := none
  lastRelock : Option Nat := none
  tlb : List TlbE := []
  tlbinv : BitVec 128 := 0
  /-- invalidations started and not done (R255) -/
  invs : List (BitVec 128) := []
  preempt : BitVec 128 := 0
  dbgctl : BitVec 128 := 0
  /-- TRAPRES as last written (Table 13.5) -/
  trapres : BitVec 128 := 0
  wdt : BitVec 16 := 0
  wdtNext : Option (BitVec 16 × Nat) := none
  shares : AMap ShareRec := []
  channels : AMap (BitVec 192) := []
  areas : AMap AreaRec := []
  lastSlots : AMap Nat := []
  clock : AMap Nat := []
  fenceCount : BitVec 32 := 0
  sentTick : Nat := 0
  closedTick : Nat := 0
  replicas : List Nat := []
  waysOff : BitVec 4 := 0
  lines : List CLine := []
  tokens : Nat := 4
  wakes : List (Nat × Nat) := []
  /-- stepped down for heat (R396) -/
  hot : Bool := false
  /-- the model's own: tenths of a cycle counted beyond `cyc` -/
  frac : Nat := 0
  deriving DecidableEq, Repr

/-- A collapse in progress at a home die (R252): page, dies still to answer, dies that have dropped their copies. -/
structure Collapse where
  home : Nat
  page : Nat
  ctx : Nat
  va : Nat
  todo : List Nat
  dropped : List Nat := []
  deriving DecidableEq, Repr

/-! ### Contexts and the package -/

/-- A launch queue descriptor (Table 2.1). -/
structure QDesc where
  cseq : Nat := 0
  tail : Nat := 0
  head : Nat := 0
  lcause : Nat := 0
  state : Nat := 0
  en : Bool := false
  sdie : Nat := 0
  logn : Nat := 0
  rbase : Nat := 0
  /-- sequence numbers completed above CSEQ -/
  done : List Nat := []
  deriving DecidableEq, Repr

/-- A partition record (Table 2.7). -/
structure Partition where
  cmask : BitVec 32 := 0
  home : Nat := 0
  valid : Bool := false
  dmask : BitVec 64 := 0
  failed : Bool := false
  deriving DecidableEq, Repr

/-- A context. -/
structure Context where
  num : Nat
  queues : AMap QDesc := []
  parts : AMap Partition := []
  tensors : AMap (BitVec 512) := []
  root : Nat := 0
  hobj : Nat := 0
  dbgen : Bool := false
  savem : Bool := false
  run : Bool := false
  poolp : Nat := 0
  nslot : Nat := 0
  slotsz : Nat := 0
  supp : Nat := 0
  supn : Nat := 0
  shead : BitVec 32 := 0
  stail : BitVec 32 := 0
  logp : Nat := 0
  logn : Nat := 0
  lhead : BitVec 32 := 0
  ltail : BitVec 32 := 0
  lost : BitVec 32 := 0
  /-- save slots in use; their headers and tile areas are memory -/
  slots : List Nat := []
  lens : Nat := 0
  deriving DecidableEq, Repr

/-- A host-link window (Table 15.1). -/
structure HostWin where
  limit : Nat := 0
  base : Nat := 0
  ctx : Nat := 0
  tgt : Nat := 0
  w : Bool := false
  valid : Bool := false
  deriving DecidableEq, Repr

/-- Classes of a site (R39). -/
inductive Site where
  | dark
  | routerOnly
  | full
  deriving DecidableEq, Repr

/-- A retirement log entry (Table 15.4); `commit` is the programmed word. -/
structure RetEntry where
  commit : BitVec 32
  crc : BitVec 32
  seq : Nat
  kind : Nat
  site : Nat
  offset : Nat
  deriving DecidableEq, Repr

/-- A logical link: ends and direction as die number and direction, and its path of physical sites (R41). -/
structure LinkPath where
  die : Nat
  dir : Nat
  path : List (Nat × Nat)
  lat : Nat
  deriving DecidableEq, Repr

/-- Flash contents (R386): image, signed identity record and signed configuration record. -/
structure Flash where
  /-- the identity record and the image, each as a number that tells it from others: their bytes are not given (log 12) -/
  identity : Nat := 0
  image : Nat := 0
  imageCommitted : Bool := true
  imageSigOk : Bool := true
  imageSecVer : Nat := 0
  grade : Nat := 64
  gen : BitVec 32 := 0
  latch : BitVec 16 := 250
  ampCeiling : Nat := 24000
  minSecVer : Nat := 0
  mapping : List (Nat × Nat) := []
  paths : List LinkPath := []
  log : List RetEntry := []
  deriving DecidableEq, Repr

/-- What a region watchdog appends to the event log of a stalled core (R391): its groups as they stand, with the masks of parked
`ldfe` entries, and for each group its outstanding counted operations, its command states by number and code (Table 13.13), and the
lanes of parked `ldfe` entries that have read, by PC. -/
structure Scanout where
  die : Nat
  cluster : Nat
  core : Nat
  groups : List Group
  counters : AMap (List Nat) := []
  commands : AMap (List (Nat × Nat)) := []
  readLanes : AMap (List (Nat × Mask)) := []
  deriving DecidableEq, Repr

/-- The package: boot, edge, power and management (spec 15). -/
structure Package where
  powered : Bool := true
  boot : Nat := 0
  bootCause : Nat := 0
  /-- the recovery image runs (R387) -/
  recovery : Bool := false
  /-- what self-test finds of each site -/
  tested : List Site := List.replicate 72 .full
  /-- the classification of this boot -/
  sites : List Site := []
  flash : Flash := {}
  links : List LinkPath := []
  /-- the mirror maps of the routers: site, waypoint, output edge (R44) -/
  mirrors : List (Nat × Nat × Nat) := []
  /-- failed dies whose partitions the management subsystem has still to declare failed (R389, R315) -/
  declaring : List Nat := []
  /-- retirement-log appends to perform, oldest first -/
  appending : List RetEntry := []
  windows : AMap HostWin := []
  peers : List Nat := []
  peersFailed : List Nat := []
  portsFailed : List Nat := []
  edgesFailed : List (Nat × Nat × Nat) := []
  evEn : Bool := false
  evBase : Nat := 0
  evLogn : Nat := 0
  evOver : BitVec 32 := 0
  evTail : BitVec 32 := 0
  evHead : BitVec 32 := 0
  latch : BitVec 16 := 250
  limit : BitVec 16 := 250
  now : BitVec 16 := 0
  /-- current ceiling latched at boot, in amperes (R395) -/
  ampCeiling : Nat := 24000
  curl : Bool := false
  throt : Bool := false
  /-- idle flits stand on the die edges (R394) -/
  edgeIdle : Bool := false
  /-- dies stepped down by the power manager, latest first (R394) -/
  heldClocks : List Nat := []
  /-- corrected errors: die, page, time (R392) -/
  pageErrors : List (Nat × Nat × Nat) := []
  /-- pages that met an uncorrectable error, for the management controller: physical site and offset (R245, R392) -/
  badPages : List (Nat × Nat) := []
  /-- the event log (R391) -/
  scanouts : List Scanout := []
  spdmOut : List (Nat × List Nat) := []
  hostReads : List Word := []
  /-- entries of the event log that the host has read (R385) -/
  hostLogs : List Scanout := []
  deriving DecidableEq, Repr

/-- The state of the panel. `mem` holds every byte of the package and of host memory that differs from what an
unlisted location reads as; `full` the granules whose full/empty bit is full; `poison` the locations (64-byte spans of
device memory, granules of a store) whose read meets an uncorrectable error. -/
structure State where
  mem : List Host.Cell := []
  full : List Nat := []
  poison : List Nat := []
  groups : List Group := []
  gangs : List Gang := []
  launches : List Launch := []
  ctxs : List Context := []
  dies : List Die := []
  clusters : List Cluster := []
  accs : List Access := []
  ops : List CountedOp := []
  /-- the latest counted operation of each lane and counter, with its operand address: key 128·group + 4·lane + counter
  (R369, R372) -/
  lastOp : AMap (Nat × Nat) := []
  conts : List Cont := []
  walks : List Walk := []
  collapses : List Collapse := []
  active : List Active := []
  colls : List CollCmd := []
  streams : List Stream := []
  reqs : List UnitReq := []
  ticks : AMap (List Nat) := []
  closed : Nat := 0
  gtime : Nat := 0
  pkg : Package := {}
  /-- the model's own: steps that other agents take next, in order -/
  agenda : List Instr := []
  /-- the model's own: the group that issues next -/
  cur : Nat := 0
  /-- the model's own: draws of free values so far -/
  draw : Nat := 0
  /-- the model's own: next fresh identifier -/
  next : Nat := 1
  deriving DecidableEq, Repr

/-- The panel right after reset: nothing has booted, nothing is resident, no byte is listed (R384: BOOTST reads 0). -/
def State.reset : State := {}

end Sys2Proof.Machine
end

