-- ==== Sys2Proof/Machine/Ops.lean ====
section
/-! DEFINITION. Ops: the named operations over keyed lists, memory, registers, entries, groups and records, and taking
a trap (spec 13) as one shared operation. -/

namespace Sys2Proof.Machine

/-- What a step gives. -/
abbrev Out := Host.Outcome State Fault Refusal

/-! ### Fields and keyed lists -/

/-- Bits [hi:lo] of a number, as a number (R4). -/
def bits (x hi lo : Nat) : Nat := (x >>> lo) % 2 ^ (hi + 1 - lo)

/-- Bit `i` of a number. -/
def bit (x i : Nat) : Bool := x.testBit i

/-- A Boolean as 0 or 1. -/
def b2n (b : Bool) : Nat := if b then 1 else 0

/-- ⌈a / b⌉. -/
def ceilDiv (a b : Nat) : Nat := (a + b - 1) / b

/-- The value at a key. -/
def AMap.get? {α : Type} : AMap α → Nat → Option α
  | [], _ => none
  | (k, v) :: t, a => if a = k then some v else if a < k then none else AMap.get? t a

/-- The value at a key, or a default. -/
def AMap.getD {α : Type} (m : AMap α) (k : Nat) (d : α) : α := (AMap.get? m k).getD d

/-- Set the value at a key. -/
def AMap.set {α : Type} : AMap α → Nat → α → AMap α
  | [], a, x => [(a, x)]
  | (k, v) :: t, a, x =>
    if a = k then (a, x) :: t else if a < k then (a, x) :: (k, v) :: t else (k, v) :: AMap.set t a x

/-- Remove a key. -/
def AMap.erase {α : Type} : AMap α → Nat → AMap α
  | [], _ => []
  | (k, v) :: t, a => if a = k then t else (k, v) :: AMap.erase t a

/-! ### Memory -/

/-- What an unlisted byte reads as (R231 for a store; log 2 for device and host memory). -/
def Memory.blank : Byte := 0

/-- Read one byte. -/
def Memory.read : List Host.Cell → Nat → Byte
  | [], _ => Memory.blank
  | (k, b) :: t, a => if a = k then b else if a < k then Memory.blank else Memory.read t a

/-- Write one byte, keeping the canonical form. -/
def Memory.write : List Host.Cell → Nat → Byte → List Host.Cell
  | [], a, b => if b = Memory.blank then [] else [(a, b)]
  | (k, v) :: t, a, b =>
    if a = k then (if b = Memory.blank then t else (a, b) :: t)
    else if a < k then (if b = Memory.blank then (k, v) :: t else (a, b) :: (k, v) :: t)
    else (k, v) :: Memory.write t a b

/-- The canonical form: addresses strictly rising from `lo`, no listed blank byte. -/
def Memory.wfFrom : Nat → List Host.Cell → Bool
  | _, [] => true
  | lo, (k, b) :: t => decide (lo ≤ k) && decide (b ≠ Memory.blank) && Memory.wfFrom (k + 1) t

/-- Memory is in its canonical form. -/
def Memory.wf (m : List Host.Cell) : Bool := Memory.wfFrom 0 m

/-- `n` bytes from `a`, little-endian (R4). -/
def Memory.readN (m : List Host.Cell) (a : Nat) : Nat → Nat
  | 0 => 0
  | n + 1 => (Memory.read m a).toNat + 256 * Memory.readN m (a + 1) n

/-- Write the low `n` bytes of `v` at `a`, little-endian. -/
def Memory.writeN (m : List Host.Cell) (a : Nat) : Nat → Nat → List Host.Cell
  | 0, _ => m
  | n + 1, v => Memory.writeN (Memory.write m a (BitVec.ofNat 8 v)) (a + 1) n (v / 256)

/-- Drop every listed byte in [lo, hi): those bytes then read blank. -/
def Memory.clear (m : List Host.Cell) (lo hi : Nat) : List Host.Cell :=
  m.filter fun c => !(decide (lo ≤ c.1) && decide (c.1 < hi))

/-- The listed bytes in [lo, hi), with addresses relative to `lo`. -/
def Memory.slice (m : List Host.Cell) (lo hi : Nat) : List Host.Cell :=
  (m.filter fun c => decide (lo ≤ c.1) && decide (c.1 < hi)).map fun c => (c.1 - lo, c.2)

/-- Write listed bytes at `lo` upward. -/
def Memory.restore (m : List Host.Cell) (lo : Nat) (cs : List Host.Cell) : List Host.Cell :=
  cs.foldl (fun m c => Memory.write m (lo + c.1) c.2) m

/-- Location of a byte of a cluster store: the key space of a cluster store lies above the 52-bit physical space. -/
def storeLoc (die cl off : Nat) : Nat := 2 ^ 60 + die * 2 ^ 25 + cl * 2 ^ 20 + off

/-- Location of a byte of a cluster's scale memory (R184). -/
def scaleLoc (die cl off : Nat) : Nat := 2 ^ 61 + die * 2 ^ 21 + cl * 2 ^ 16 + off

/-- Location of a byte of a cluster's accumulator store, laid out as the tile data window (R201). -/
def tileLoc (die cl off : Nat) : Nat := 2 ^ 62 + die * 2 ^ 25 + cl * 2 ^ 20 + off

/-- The location lies in a cluster store. -/
def isStoreLoc (a : Nat) : Bool := decide (2 ^ 60 ≤ a) && decide (a < 2 ^ 61)

/-- Die of a store location. -/
def locDie (a : Nat) : Nat := bits a 30 25

/-- Cluster of a store location. -/
def locCluster (a : Nat) : Nat := bits a 24 20

/-- Bank of a store location (R220). -/
def locBank (a : Nat) : Nat := bits a 8 4

/-- Die that holds a device-memory physical address (R243). -/
def paDie (a : Nat) : Nat := bits a 47 42

/-- The physical address is host memory (R243). -/
def paHost (a : Nat) : Bool := bits a 51 48 == 8

/-- The physical address can be reached (R243). -/
def paOk (a : Nat) : Bool :=
  paHost a || (bits a 51 48 == 0 && bits a 41 36 == 0 && decide (bits a 35 0 < 0xC00000000))

/-- Insert into an ascending list of numbers without repeats. -/
def insertNat : List Nat → Nat → List Nat
  | [], a => [a]
  | k :: t, a => if a = k then k :: t else if a < k then a :: k :: t else k :: insertNat t a

namespace State

/-- Read `n` bytes at a location. -/
def rd (s : State) (a n : Nat) : Nat := Memory.readN s.mem a n

/-- Write `n` bytes at a location. -/
def wr (s : State) (a n v : Nat) : State := { s with mem := Memory.writeN s.mem a n v }

/-- The full/empty bit of the granule of a store location (R225). -/
def isFull (s : State) (a : Nat) : Bool := s.full.contains (a / 16)

/-- Set the full/empty bit of the granule of a store location. -/
def setFull (s : State) (a : Nat) (b : Bool) : State :=
  if b then { s with full := insertNat s.full (a / 16) } else { s with full := s.full.filter (· ≠ a / 16) }

/-- A fresh identifier. -/
def fresh (s : State) : State := { s with next := s.next + 1 }

/-- The next draw of a free value. -/
def drawn (s : State) : State := { s with draw := s.draw + 1 }

/-! ### Lookups and updates -/

def group? (s : State) (id : Nat) : Option Group := s.groups.find? (·.id == id)
def gang? (s : State) (id : Nat) : Option Gang := s.gangs.find? (·.id == id)
def launch? (s : State) (id : Nat) : Option Launch := s.launches.find? (·.id == id)
def ctx? (s : State) (n : Nat) : Option Context := s.ctxs.find? (·.num == n)
def die? (s : State) (n : Nat) : Option Die := s.dies.find? (·.num == n)

/-- Key of a cluster in the state's list. -/
def clKey (die cl : Nat) : Nat := 32 * die + cl

/-- A cluster: one not listed is as after reset. -/
def cluster (s : State) (die cl : Nat) : Cluster :=
  (s.clusters.find? (·.key == clKey die cl)).getD { key := clKey die cl }

def updGroup (s : State) (id : Nat) (f : Group → Group) : State :=
  { s with groups := s.groups.map fun g => if g.id = id then f g else g }
def updGang (s : State) (id : Nat) (f : Gang → Gang) : State :=
  { s with gangs := s.gangs.map fun g => if g.id = id then f g else g }
def updLaunch (s : State) (id : Nat) (f : Launch → Launch) : State :=
  { s with launches := s.launches.map fun l => if l.id = id then f l else l }
def updCtx (s : State) (n : Nat) (f : Context → Context) : State :=
  { s with ctxs := s.ctxs.map fun c => if c.num = n then f c else c }
def updDie (s : State) (n : Nat) (f : Die → Die) : State :=
  { s with dies := s.dies.map fun d => if d.num = n then f d else d }
def updCluster (s : State) (die cl : Nat) (f : Cluster → Cluster) : State :=
  if s.clusters.any (·.key == clKey die cl) then
    { s with clusters := s.clusters.map fun c => if c.key = clKey die cl then f c else c }
  else { s with clusters := s.clusters ++ [f { key := clKey die cl }] }
def updPkg (s : State) (f : Package → Package) : State := { s with pkg := f s.pkg }

/-- Virtual address of the lens table's page in a context: 64 KiB aligned, below the windows and not 0 (R46; log 13). -/
def lensVa (ctx : Nat) : Nat := 65536 * (1 + Config.lensSlot ctx % (0xFD * 2 ^ 32 - 1))

/-- A context that system software has set up: one without a record yet is as after reset. -/
def withCtx (s : State) (n : Nat) : State :=
  if (s.ctx? n).isSome then s else { s with ctxs := s.ctxs ++ [{ num := n, lens := lensVa n }] }

/-- The launch of a gang. -/
def gangLaunch? (s : State) (gang : Nat) : Option Launch := (s.gang? gang).bind fun g => s.launch? g.launch

/-- The launch of a group. -/
def groupLaunch? (s : State) (g : Group) : Option Launch := s.gangLaunch? g.gang

/-- The context number of a group (0 where it has no launch). -/
def groupCtx (s : State) (g : Group) : Nat := ((s.groupLaunch? g).map (·.ctx)).getD 0

/-- The partition number of a group's launch (Table 1.2). -/
def groupPart (s : State) (g : Group) : Nat := ((s.groupLaunch? g).map fun l => bits l.lpb.toNat 615 612).getD 0

/-- The context record of a group. -/
def groupContext? (s : State) (g : Group) : Option Context := s.ctx? (s.groupCtx g)

/-- The effective stage values a group runs (R13). -/
def groupStage? (s : State) (g : Group) : Option Stage :=
  (s.gang? g.gang).bind fun ga => (s.launch? ga.launch).bind fun l => l.stages[ga.stage]?

/-- A die relocks: its pipes, engines, dispatcher and colour unit stand still (R325). -/
def relocking (s : State) (die : Nat) : Bool := ((s.die? die).bind (·.relock)).isSome

/-- The groups of a gang. -/
def gangGroups (s : State) (gang : Nat) : List Group := s.groups.filter (·.gang == gang)

end State

/-! ### Identities (Table 5.7) -/

/-- `sr.launch`. -/
def Launch.sr (l : Launch) : Nat := l.queue * 2 ^ 48 + l.seq % 2 ^ 48

/-- `sr.gang`. -/
def Gang.sr (g : Gang) : Nat := g.pdie * 2 ^ 40 + g.serial % 2 ^ 40

/-- `sr.group`. -/
def State.srGroup (s : State) (g : Group) : Nat := ((s.gang? g.gang).map Gang.sr).getD 0 * 16 + g.index

/-- `sr.gang` of a group. -/
def State.srGang (s : State) (g : Group) : Nat := ((s.gang? g.gang).map Gang.sr).getD 0

/-! ### Registers of a group (R99, R349: in handler mode the frame's own registers) -/

namespace Group

/-- Read a vector register in a lane: zero where its live bit is clear (R99). -/
def getV (g : Group) (r l : Nat) : Word :=
  match g.frame with
  | some f => AMap.getD f.v (32 * r + l) 0
  | none => AMap.getD g.v (32 * r + l) 0

/-- Write a vector register in a lane, setting its live bit (R99). -/
def setV (g : Group) (r l : Nat) (x : Word) : Group :=
  match g.frame with
  | some f => { g with frame := some { f with v := AMap.set f.v (32 * r + l) x } }
  | none => { g with v := AMap.set g.v (32 * r + l) x }

/-- Clear the live bit of a vector register in a lane. -/
def killV (g : Group) (r l : Nat) : Group :=
  match g.frame with
  | some f => { g with frame := some { f with v := AMap.erase f.v (32 * r + l) } }
  | none => { g with v := AMap.erase g.v (32 * r + l) }

/-- The sixteen predicates of a lane. -/
def getP (g : Group) (l : Nat) : BitVec 16 :=
  match g.frame with
  | some f => AMap.getD f.p l 0
  | none => AMap.getD g.p l 0

/-- Set the sixteen predicates of a lane. -/
def setP (g : Group) (l : Nat) (x : BitVec 16) : Group :=
  match g.frame with
  | some f => { g with frame := some { f with p := AMap.set f.p l x } }
  | none => { g with p := AMap.set g.p l x }

/-- One predicate of a lane. -/
def getPn (g : Group) (n l : Nat) : Bool := (g.getP l).getLsbD n

/-- Set one predicate of a lane. -/
def setPn (g : Group) (n l : Nat) (b : Bool) : Group :=
  let m : BitVec 16 := BitVec.ofNat 16 (2 ^ n)
  g.setP l (if b then g.getP l ||| m else g.getP l &&& ~~~m)

/-- Read a scalar register. -/
def getS (g : Group) (n : Nat) : Word :=
  match g.frame with
  | some f => AMap.getD f.s n 0
  | none => AMap.getD g.s n 0

/-- Write a scalar register. -/
def setS (g : Group) (n : Nat) (x : Word) : Group :=
  match g.frame with
  | some f => { g with frame := some { f with s := AMap.set f.s n x } }
  | none => { g with s := AMap.set g.s n x }

/-- The entries that issue: the handler's in handler mode, else the group's (R349). -/
def front (g : Group) : List Entry :=
  match g.frame with
  | some f => f.entries
  | none => g.entries

/-- Replace the entries that issue. -/
def setFront (g : Group) (es : List Entry) : Group :=
  match g.frame with
  | some f => { g with frame := some { f with entries := es } }
  | none => { g with entries := es }

/-- The group is in handler mode. -/
def inHandler (g : Group) : Bool := g.frame.isSome

/-- Registers with a live lane: the mapped registers (R99). -/
def mapped (g : Group) : List Nat :=
  (List.range 32).filter fun r => g.v.any fun c => c.1 / 32 == r

/-- Lanes that hold an item. -/
def liveLanes (g : Group) : Mask := Mask.ofPred fun l => (AMap.get? g.items l).isSome

/-- Number of empty lanes. -/
def emptyLanes (g : Group) : Nat := 32 - g.items.length

/-- `sr.repi`: the repeat at which the group's interrupted `rep` sequence goes on, 0 where none is pending (R106, R151). DESIGN
CHOICE (log 93): where two entries of the group each hold one, R106 and R151 name one value for the group; each entry keeps its own,
and the register reads that of the first such entry of the frontier. -/
def repi (g : Group) : Nat := ((g.entries.find? fun e => e.repi != 0).map (·.repi)).getD 0

end Group

/-! ### The frontier (R91-R96) -/

/-- R92: priority descending, then PC ascending. -/
def Entry.before (a b : Entry) : Bool :=
  decide (b.prio < a.prio) || (decide (a.prio = b.prio) && decide (a.pc ≤ b.pc))

/-- Insert an entry in the order of R92. DESIGN CHOICE (log 75): R92 orders no two entries of equal priority and PC, which
differ in their stacks; the one inserted stands after its equals, and the parts of the sequence just issued are inserted first. -/
def Entry.insert (e : Entry) : List Entry → List Entry
  | [] => [e]
  | a :: t => if a.before e then a :: Entry.insert e t else e :: a :: t

/-- Sort a frontier by R92. -/
def Entry.sort (es : List Entry) : List Entry := es.foldl (fun acc e => Entry.insert e acc) []

/-- The entry stands inside its sequence: a `rep` that was interrupted, or a sequence that holds its pipe (R106, R193). -/
def Entry.inside (e : Entry) : Bool := e.mid || e.repi != 0

/-- The entry's sequence is in issue: part-way, and not between two repeats (R363, R366). -/
def Entry.midway (e : Entry) : Bool := e.mid && e.repi == 0

/-- R94: equal PC, priority and control stack. An entry that stands inside its sequence is compared once it has left it
(log 54). -/
def Entry.mergeable (a b : Entry) : Bool :=
  decide (a.pc = b.pc) && decide (a.prio = b.prio) && decide (a.stack = b.stack) && !a.inside && !b.inside

/-- Lanes to issue of two entries that merge: all of them, unless one has only some lanes still to restart (R346). -/
def Entry.mergedRestart (a b : Entry) : Option Mask :=
  if a.restart.isNone && b.restart.isNone then none
  else some (a.restart.getD a.mask ||| b.restart.getD b.mask)

/-- The merged entry of R94; the earlier entry's blocking condition stands. -/
def Entry.merge (a b : Entry) : Entry :=
  { a with
    mask := a.mask ||| b.mask
    restart := a.mergedRestart b
    yielded := a.yielded && b.yielded
    park := if b.park.isSome then a.park else none
    readDone := a.readDone ||| b.readDone
    sc := if a.sc = b.sc then a.sc else none }

/-- Merge an entry into the first entry it merges with, else add it. -/
def Entry.mergeInto (e : Entry) : List Entry → List Entry
  | [] => [e]
  | a :: t => if a.mergeable e then a.merge e :: t else a :: Entry.mergeInto e t

/-- Drop empty entries, merge (R94) and sort (R92). -/
def Entry.normalise (es : List Entry) : List Entry :=
  Entry.sort ((es.filter fun e => e.mask ≠ 0).foldl (fun acc e => Entry.mergeInto e acc) [])

/-- R92 and R96: the first entry neither parked nor yielded; if every unparked entry is yielded, the first of them. A
sequence that holds its pipe comes before any (R87). -/
def Entry.select (es : List Entry) : Option Entry :=
  match es.find? (·.mid) with
  | some e => some e
  | none =>
    match es.find? fun e => e.park.isNone && !e.yielded with
    | some e => some e
    | none => es.find? fun e => e.park.isNone

/-- Replace the entry with this lane mask by others, then normalise. -/
def Group.replaceEntry (g : Group) (m : Mask) (parts : List Entry) : Group :=
  g.setFront (Entry.normalise (parts ++ g.front.filter fun e => e.mask ≠ m))

/-- Update the entry with this lane mask in place. -/
def Group.updEntry (g : Group) (m : Mask) (f : Entry → Entry) : Group :=
  g.setFront (g.front.map fun e => if e.mask = m then f e else e)

/-! ### Pending registers and counters (R101, R228) -/

/-- Destination registers of an access (R101). -/
def Access.dregs (a : Access) : List Nat :=
  match a.kind with
  | .store | .stfe | .fefill | .line | .feq _ => []
  | .ray .. => [a.d, a.d + 1]
  | _ => [a.d]

/-- An access that writes a vector register or a predicate of its lane. -/
def Access.results (a : Access) : Bool := !a.dregs.isEmpty || (match a.kind with | .feq _ => true | _ => false)

/-- Accesses of a group in flight for its lanes. -/
def State.pendingAccs (s : State) (g : Nat) : List Access :=
  s.accs.filter fun a => a.grp == g && decide (a.dst = .lane)

/-- A vector register of a group is pending (R101), poisoned lanes of undelivered errors included (R351). In handler mode the
frame's registers are those that count (R349). -/
def State.pendV (s : State) (g : Group) (r : Nat) : Bool :=
  ((s.pendingAccs g.id).any fun a => a.hnd == g.inHandler && a.dregs.contains r) ||
    (!g.inHandler && s.ops.any fun o => o.grp == g.id && decide (o.poisoned ≠ 0) && o.dests.contains r)

/-- Predicates of a group that the depth unit has still to write for a `zcmp` (R293). -/
def State.depthDue (s : State) (g : Nat) : List Nat :=
  s.launches.flatMap fun l => l.draw.flatMap fun f => f.posts.filterMap fun p =>
    match p.depth with
    | some d => if d.grp = g then some d.pd else none
    | none => none

/-- A predicate of a group is pending (R101). -/
def State.pendP (s : State) (g : Group) (n : Nat) : Bool :=
  ((s.pendingAccs g.id).any fun a => a.hnd == g.inHandler && decide (a.kind = .feq n)) ||
    (!g.inHandler && (s.depthDue g.id).contains n)

/-- The value of counter `k` of a group: its outstanding counted operations (R228). In handler mode the frame's own
counters are those of operations issued in handler mode, which carry counter numbers 4-7. -/
def State.counter (s : State) (g : Nat) (k : Nat) : Nat :=
  (s.ops.filter fun o => o.grp == g && o.ctr == k).length

/-- A counted operation with what its record would say of the entry that issues it (R348). -/
def CountedOp.issuedBy (o : CountedOp) (e : Entry) (rep : Bool) : CountedOp :=
  { o with pc := e.pc, emask := e.mask, isRep := rep, depth := e.stack.length, prio := e.prio }

/-- A group's command or matrix operation has completed: a halted group remembers it, at most 64 (R367). -/
def Group.completed (g : Group) (id : Nat) : Group :=
  if g.halted then { g with doneCmds := (g.doneCmds ++ [id]).drop (g.doneCmds.length - 63) } else g

/-- Record a counted operation, and that it is now the latest of its lanes on its counter (R228, R369). -/
def State.addOp (s : State) (o : CountedOp) : State :=
  { s with
    ops := s.ops ++ [o]
    lastOp := if o.cc < 4 then
        o.lanes.toList.foldl (fun m l => AMap.set m (128 * o.grp + 4 * l + o.cc) (o.id, AMap.getD o.addrs l 0)) s.lastOp
      else s.lastOp }

/-- Counter number used for an operation of a group: the frame's own in handler mode (R349). -/
def Group.ctr (g : Group) (k : Nat) : Nat := if g.inHandler then k + 4 else k

/-- The counter that an operation of an item names, for its latest operation there (R369). -/
def Group.opCc (g : Group) (k : Nat) : Nat := if g.inHandler then 8 else k

/-! ### Rings (R343, R352, R354, R382, R399) -/

/-- Append 64 bytes to the context's error log ring, or count the loss (R354). -/
def State.logRecord (s : State) (ctx : Nat) (v : Nat) : State :=
  match s.ctx? ctx with
  | none => s
  | some c =>
    if (c.lhead - c.ltail).toNat = 2 ^ c.logn then s.updCtx ctx fun c => { c with lost := c.lost + 1 }
    else (s.wr (c.logp + 64 * (c.lhead.toNat % 2 ^ c.logn)) 64 v).updCtx ctx fun c => { c with lhead := c.lhead + 1 }

/-- An error log record (Table 13.6). -/
def errRec (gtime group launch info addr pc die cluster ctx detail cause : Nat) : Nat :=
  gtime % 2 ^ 64 * 2 ^ 448 + group % 2 ^ 64 * 2 ^ 384 + launch % 2 ^ 64 * 2 ^ 320 + info % 2 ^ 64 * 2 ^ 256 +
  addr % 2 ^ 56 * 2 ^ 192 + pc % 2 ^ 56 * 2 ^ 128 + die % 64 * 2 ^ 42 + cluster % 32 * 2 ^ 37 +
  ctx % 65536 * 2 ^ 21 + detail % 256 * 2 ^ 8 + cause % 256

/-- Append an error log record for a group (R354). -/
def State.logGroup (s : State) (g : Group) (cause detail info addr pc : Nat) : State :=
  let ctx := s.groupCtx g
  s.logRecord ctx (errRec s.gtime (s.srGroup g) (((s.groupLaunch? g).map Launch.sr).getD 0) info addr pc g.die
    g.cluster ctx detail cause)

/-- Append an event record to the event ring (R382, R399). -/
def State.event (s : State) (code arg0 arg1 : Nat) : State :=
  let p := s.pkg
  if !p.evEn then s
  else if (p.evHead - p.evTail).toNat = 2 ^ p.evLogn then s.updPkg fun p => { p with evOver := p.evOver + 1 }
  else
    (s.wr (8 * 2 ^ 48 + p.evBase + 32 * (p.evHead.toNat % 2 ^ p.evLogn)) 32
      (s.gtime % 2 ^ 64 * 2 ^ 192 + arg1 % 2 ^ 64 * 2 ^ 128 + arg0 % 2 ^ 64 * 2 ^ 64 + code)).updPkg
      fun p => { p with evHead := p.evHead + 1 }

/-- The eight record words of a trap as one 64-byte number (Table 13.4). -/
def State.trapWords (s : State) (g : Group) (t : TrapRec) : List Nat :=
  [ t.info.toNat * 2 ^ 32 + t.repi % 64 * 2 ^ 16 + t.detail % 256 * 2 ^ 8 + t.cls
  , t.pc % 2 ^ 56
  , t.emask.toNat * 2 ^ 32 + t.tmask.toNat
  , t.addr % 2 ^ 56
  , t.lmask.toNat
  , b2n t.isRep * 256 + b2n t.isChain * 128 + t.depth % 8 * 16 + t.prio % 16
  , s.srGroup g
  , g.core * 2 ^ 27 + g.cluster * 2 ^ 22 + g.die * 2 ^ 16 + s.groupCtx g ]

/-- Words joined little-endian. -/
def joinWords (ws : List Nat) : Nat := ws.foldr (fun w acc => w % 2 ^ 64 + 2 ^ 64 * acc) 0

/-- Append a group's trap record to the supervisor ring and raise event 0x01; a full ring leaves the group waiting to
append (R352). -/
def State.supAppend (s : State) (g : Group) (t : TrapRec) : State :=
  let ctx := s.groupCtx g
  match s.ctx? ctx with
  | none => s
  | some c =>
    if (c.shead - c.stail).toNat = 2 ^ c.supn then s
    else
      let s := (s.wr (c.supp + 64 * (c.shead.toNat % 2 ^ c.supn)) 64 (joinWords (s.trapWords g t))).updCtx ctx
        fun c => { c with shead := c.shead + 1 }
      (s.event 1 ctx (c.shead + 1).toNat).updGroup g.id fun g => { g with stop := .waitSupervisor true }

/-! ### Taking a trap (R342-R353) -/

/-- Classes whose destination is the context supervisor (Table 13.1). -/
def supervisorClass (c : Nat) : Bool := c == 8 || c == 13 || c == 14

/-- The trap of a sequence of a group: its class and the values of its record (Table 13.4). -/
structure TrapArgs where
  cls : Nat
  detail : Nat := 0
  info : Nat := 0
  tmask : Mask := 0
  addr : Nat := 0
  /-- the restart mask, where it is not the trap mask -/
  noRestart : Bool := false
  isRep : Bool := false
  isChain : Bool := false
  words : Nat := 1
  reps : Nat := 0
  dead : List Nat := []
  yields : Bool := false
  stall : Nat := 0
  fetchError : Bool := false
  /-- lanes outside the trap mask have not completed the sequence -/
  joins : Bool := false

/-- The trap record of an entry (Table 13.4). -/
def mkTrapRec (e : Entry) (a : TrapArgs) (order : Nat) : TrapRec :=
  { cls := a.cls, detail := a.detail, info := BitVec.ofNat 32 a.info, repi := e.repi, pc := e.pc, emask := e.mask
    tmask := a.tmask, addr := a.addr, lmask := if a.noRestart then 0 else a.tmask, isRep := a.isRep
    isChain := a.isChain, depth := e.stack.length, prio := e.prio, words := a.words, reps := a.reps, dead := a.dead
    yields := a.yields, stall := a.stall, order := order, fetchError := a.fetchError, joins := a.joins }

/-- The group once a sequence of it has been chosen and traps: its count of cycles not chosen ends (R90), and a step it was given is
spent (R366). -/
def Group.tried (g : Group) : Group :=
  { g with waited := 0, waits := false, haltReq := g.haltReq || g.stepping, stepping := false }

/-- The poisoned operation whose delivery the trap is, 0 where it is none (R351). -/
def TrapRec.delivered (t : TrapRec) : Nat := if t.cls = 10 ∧ !t.fetchError then t.op else 0

/-- Take a trap at a sequence of entry `e` of group `g` (R344-R352). Outside handler mode the group stops, the entry
keeps its PC and takes the restart mask, and the trap goes to its destination: the handler frame order, or the
supervisor ring. In handler mode it is a handler fault (R350): handler mode ends, and a class 0x0E record goes to the
supervisor. DESIGN CHOICE (log 91): a sequence that is chosen and traps with no effect is no start (R89, R90, R96): level, last
start and yielded flags stay. -/
def State.takeTrap (s : State) (g : Group) (e : Entry) (a : TrapArgs) : State :=
  let order := s.next
  let s := s.fresh
  let g := g.tried
  if g.inHandler then
    let t := { mkTrapRec e a order with cls := 14, op := (g.trap.map TrapRec.delivered).getD 0 }
    let g' := { g with frame := none, trap := some t, stop := .waitSupervisor false }
    let s := (s.updGroup g.id fun _ => g').updCluster g.die g.cluster fun c =>
      { c with handler := AMap.erase c.handler g.core }
    s.supAppend g' t
  else
    let t := mkTrapRec e a order
    let toSup := supervisorClass a.cls || ((s.groupContext? g).map (·.hobj)).getD 0 == 0
    let g' := { (g.updEntry e.mask fun x => { x with restart := some t.lmask, mid := false, repi := e.repi }) with
      trap := some t, stop := if toSup then .waitSupervisor false else .waitFrame }
    let s := s.updGroup g.id fun _ => g'
    if toSup then s.supAppend g' t else s

/-- A handler fault for an instruction the handler may not run (R350). -/
def State.handlerFault (s : State) (g : Group) (e : Entry) (words : Nat) : State :=
  s.takeTrap g e { cls := 14, tmask := e.mask, words := words }

/-! ### Moving past a sequence -/

/-- Clear the live bits of registers in lanes (R100). -/
def Group.applyDead (g : Group) (m : Mask) (rs : List Nat) : Group :=
  rs.foldl (fun g r => m.toList.foldl (fun g l => g.killV r l) g) g

/-- The end test of R110: next PC and control stack, innermost record first. -/
def endTest : List CRec → Nat → Nat → Nat × List CRec
  | .loop st fin l :: t, lo, next =>
    if lo ≤ fin ∧ fin < next then
      (if l.toNat ≤ 1 then
        (match t with
          | .loop _ fin' _ :: _ => if fin' = fin then endTest t fin (fin + 4) else (fin + 4, t)
          | _ => (fin + 4, t))
       else (st, .loop st fin (l - 1) :: t))
    else (next, .loop st fin l :: t)
  | stk, _, next => (next, stk)

/-- An entry after its sequence completed without a taken transfer. -/
def Entry.advance (e : Entry) (words : Nat) : Entry :=
  let (pc, st) := endTest e.stack e.pc (e.pc + 4 * words)
  { e with pc := pc, stack := st, restart := none, park := none, readDone := 0, mid := false, sc := none, repi := 0 }

/-- The trapped entry of a group, as the trap left it, completes with no effect of its restart-mask lanes: it moves past
the sequence, whose `dead`, `sched` and end test then act (R345, R346), or under `rep` to its next repeat (R361). In the lanes that
completed a chain its members' `dead` hints have acted already (R100, R104). -/
def Group.skipTrapped (g : Group) (t : TrapRec) : Group :=
  if t.isRep ∧ t.repi < t.reps then
    g.updEntry t.emask fun e => { e with restart := none, repi := t.repi + 1 }
  else
    let g := g.updEntry t.emask fun e => { e.advance t.words with yielded := e.yielded || t.yields }
    { (g.applyDead (if t.isChain then t.tmask else t.emask) t.dead) with stall := Nat.max g.stall t.stall }

/-- The trapped entry issues its sequence again for every lane that has not completed it; the lanes of an empty restart mask have
(R227, R312, R361). -/
def Group.rejoin (g : Group) (t : TrapRec) : Group :=
  g.updEntry t.emask fun e =>
    { e with restart := none, readDone := if e.restart = some 0 then e.readDone ||| t.tmask else e.readDone }

/-- The trap is the delivery of a poisoned operation (R351). -/
def TrapRec.delivery (t : TrapRec) : Bool := t.cls == 10 && !t.fetchError

/-- Lowest lane of a mask. -/
def lowLane (m : Mask) : Nat := m.toList.headD 0

/-- The trapped entry of a group: the one with the record's lanes, else, where entries have split or merged since, the one that holds
the lowest lane of the trap mask (R359). -/
def Group.trapped (g : Group) (t : TrapRec) : Option Entry :=
  match g.entries.find? fun e => e.mask = t.emask with
  | some e => some e
  | none => g.entries.find? fun e => e.mask.has (lowLane t.tmask)

/-- A trap that waits for the frame or the supervisor is withdrawn: the trapped entry is issued again after restore. A memory-error
delivery is handled first (R363), one that a handler fault broke off among them. DESIGN CHOICE (log 92): taking a floating-point
exception cleared PND (R161), and the withdrawal does not set it again, so the barrier issued again does not trap. -/
def Group.withdrawTrap (g : Group) : Group :=
  match g.stop, g.trap with
  | .running, _ | .handling, _ => g
  | _, some t =>
    if t.delivery then g
    else
      { g with
        stop := .running, trap := none
        deliver := if t.cls = 14 ∧ t.op ≠ 0 then g.deliver ++ [t.op] else g.deliver
        entries := g.entries.map fun (e : Entry) =>
          if e.restart = some 0 ∨ (t.joins ∧ e.mask = t.emask) then { e with restart := none } else e }
  | _, none => g

/-- The group is stopping for saving and its trap is no delivery: the trap is withdrawn, and nobody serves it (R363). -/
def Group.untended (g : Group) : Bool := g.preempting && !(g.trap.any TrapRec.delivery)

/-- The group resumes after a trap outside handler mode (R346): an empty restart mask continues past the sequence, a
non-empty one reissues the sequence for its lanes. -/
def Group.resume (g : Group) : Group :=
  match g.trap with
  | none => { g with stop := .running }
  | some t =>
    let g := if t.joins then g.rejoin t
      else if g.entries.any fun e => e.mask = t.emask && e.restart == some 0 then g.skipTrapped t else g
    { g with stop := .running, trap := none, entries := Entry.normalise g.entries }

end Sys2Proof.Machine
end

