-- ==== Sys2Proof/Machine/Operands.lean ====
section
/-! DEFINITION. Operands: elements of a register value, inline constants and immediates, source modifiers, and the
normalised operands of the register forms (spec 03, 05 R126-R129). -/

namespace Sys2Proof.Machine

/-! ### Elements (Table 3.8) -/

/-- Element width of a type in bits. -/
def typeWidth (t : Nat) : Nat := 64 / typeCount t

/-- Element `j` of a value. -/
def elem (x : Word) (t j : Nat) : Nat := (x.toNat >>> (typeWidth t * j)) % 2 ^ typeWidth t

/-- A value from its elements of width `w`, lowest first. -/
def joinElems (w : Nat) : List Nat → Nat
  | [] => 0
  | e :: es => e % 2 ^ w + 2 ^ w * joinElems w es

/-- The value whose element `j` is `f j`, for the elements of a type. -/
def buildElems (t : Nat) (f : Nat → Nat) : Word :=
  BitVec.ofNat 64 (joinElems (typeWidth t) ((List.range (typeCount t)).map f))

/-- The same element in every place of a type. -/
def splat (t e : Nat) : Word := buildElems t fun _ => e

/-- A `w`-bit pattern read in two's complement. -/
def toSigned (w x : Nat) : Int := if 2 ^ (w - 1) ≤ x then (x : Int) - 2 ^ w else x

/-- An element in its type's reading (R127). -/
def readElem (t e : Nat) : Int := if typeSigned t then toSigned (typeWidth t) e else e

/-- wrap(x): x mod 2^w (R127). -/
def wrapTo (w : Nat) (x : Int) : Nat := (x % (2 ^ w : Nat)).toNat

/-- sat(x): x clamped to the range of the type's reading, as a pattern (R127). -/
def satTo (t : Nat) (x : Int) : Nat :=
  let w := typeWidth t
  let lo : Int := if typeSigned t then -(2 ^ (w - 1) : Nat) else 0
  let hi : Int := if typeSigned t then (2 ^ (w - 1) : Nat) - 1 else (2 ^ w : Nat) - 1
  wrapTo w (if x < lo then lo else if hi < x then hi else x)

/-! ### Inline constants and immediates (R68, R72) -/

/-- Encodings of 0.5, 1.0, 2.0 and −1.0 in a floating element format. -/
def floatConsts (t : Nat) : Nat × Nat × Nat × Nat :=
  match t with
  | 11 => (0x3FE0000000000000, 0x3FF0000000000000, 0x4000000000000000, 0xBFF0000000000000)
  | 12 => (0x3F000000, 0x3F800000, 0x40000000, 0xBF800000)
  | 13 => (0x3800, 0x3C00, 0x4000, 0xBC00)
  | 14 => (0x3F00, 0x3F80, 0x4000, 0xBF80)
  | 15 => (0x30, 0x38, 0x40, 0xB8)
  | 16 => (0x38, 0x3C, 0x40, 0xBC)
  | 17 => (0x08, 0x0C, 0x10, 0x2C)
  | 18 => (0x04, 0x08, 0x10, 0x28)
  | 19 => (0x1, 0x2, 0x4, 0xA)
  | _ => (0x7E, 0x7F, 0x80, 0)

/-- The element an inline constant gives in a type (R72). -/
def constElem (c t : Nat) : Nat :=
  if typeFloat t then
    let (half, one, two, mone) := floatConsts t
    match c with
    | 0 => 0 | 1 => one | 2 => two | 3 => mone | 4 => half | 5 => one | 6 => two | _ => mone
  else
    match c with
    | 0 => 0 | 1 => 1 | 2 => 2 | _ => 2 ^ typeWidth t - 1

/-- The value of an inline constant (R72). -/
def constWord (c t : Nat) : Word := splat t (constElem c t)

/-- The immediate X of an I, Iu or Pi form (R68). -/
def immX (imm : Option (BitVec 26)) (imm6 : BitVec 6) : BitVec 32 :=
  match imm with
  | none => imm6.signExtend 32
  | some h => h ++ imm6

/-- FP32 to FP64, exactly; a NaN becomes the canonical NaN (R68; log 20). -/
def f32to64 (x : BitVec 32) : BitVec 64 :=
  let s := x.toNat / 2 ^ 31
  let e := bits x.toNat 30 23
  let f := bits x.toNat 22 0
  let sb := s * 2 ^ 63
  BitVec.ofNat 64 <|
    if e = 255 then (if f = 0 then sb + 0x7FF * 2 ^ 52 else 0x7FF8000000000000)
    else if e ≠ 0 then sb + (e + 896) * 2 ^ 52 + f * 2 ^ 29
    else if f = 0 then sb
    else
      let k := Nat.log2 f
      sb + (k + 874) * 2 ^ 52 + (f - 2 ^ k) * 2 ^ (52 - k)

/-- The value that X gives in a type (R68). -/
def immWord (x : BitVec 32) (t : Nat) : Word :=
  match t with
  | 0 | 1 => x.signExtend 64
  | 2 => x.zeroExtend 64
  | 11 => f32to64 x
  | 17 | 18 => splat t (x.toNat % 64)
  | _ => splat t x.toNat

/-! ### Source modifiers (R129, R156) -/

/-- Absolute value, then negation, of one element: two's complement for integers, the sign bit for floats. -/
def modElem (t : Nat) (neg abs : Bool) (e : Nat) : Nat :=
  let w := typeWidth t
  if typeFloat t then
    let e := if abs then e % 2 ^ (w - 1) else e
    if neg then e ^^^ 2 ^ (w - 1) else e
  else
    let e := if abs && decide (2 ^ (w - 1) ≤ e) then wrapTo w (-(e : Int)) else e
    if neg then wrapTo w (-(e : Int)) else e

/-- A source value after its `src3` flags. -/
def modWord (t : Nat) (neg abs : Bool) (x : Word) : Word :=
  if neg || abs then buildElems t fun j => modElem t neg abs (elem x t j) else x

/-- A source in one lane of a group, with the latches of its chain, newest first (R126, R73). -/
def readSrc (g : Group) (l : Nat) (lat : List Word) (t : Nat) : Src → Word
  | .v n => g.getV n.toNat l
  | .latch k => lat.getD k.toNat 0
  | .const c => constWord c.toNat t
  | .resv _ => 0
  | .s n => g.getS n.toNat

/-! ### Register forms (R66): operands normalised over R, Ru, Rt, I, Iu, P and Pi -/

/-- Destination, sources and immediate of a register form. -/
structure Alu where
  d : Nat := 0
  nw : Bool := false
  pd : Option Nat := none
  cond : Nat := 0
  a : Option Src := none
  b : Option Src := none
  imm : Option (BitVec 6) := none
  deriving DecidableEq, Repr

end Sys2Proof.Machine

namespace Sys2Proof

open Machine

def FR.alu (f : FR) : Alu := { d := f.d.toNat, nw := f.nw, a := some f.a, b := some f.b }
def FRu.alu (f : FRu) : Alu := { d := f.d.toNat, nw := f.nw, a := some f.a }
def FI.alu (f : FI) : Alu := { d := f.d.toNat, nw := f.nw, a := some f.a, imm := some f.imm6 }
def FIu.alu (f : FIu) : Alu := { d := f.d.toNat, nw := f.nw, imm := some f.imm6 }
def FP.alu (f : FP) : Alu := { pd := some f.pd.toNat, cond := f.cond.toNat, a := some f.a, b := some f.b }
def FPi.alu (f : FPi) : Alu := { pd := some f.pd.toNat, cond := f.cond.toNat, a := some f.a, imm := some f.imm6 }
def FPc.alu (f : FPc) : Alu := { pd := some f.pd.toNat, a := some f.a, b := some f.b }

/-- A source stepped by a repeat index (R105). -/
def Src.step (on : Bool) (j : Nat) : Src → Src
  | .v n => if on then .v (n + BitVec.ofNat 5 j) else .v n
  | x => x

/-- Repeats of a sequence beyond the first: CNT (R105). -/
def Hints.reps (h : Hints) : Nat := (h.rep.map (·.cnt.toNat)).getD 0

end Sys2Proof

namespace Sys2Proof.Machine

/-- The operands of repeat `j` (R105). -/
def Alu.step (o : Alu) (r : Option RepHint) (j : Nat) : Alu :=
  match r with
  | none => o
  | some r =>
    { o with d := if r.sd then o.d + j else o.d, a := o.a.map (Src.step r.sa j), b := o.b.map (Src.step r.sb j) }

/-- What one lane's operation of a register form sees. `q` is the guard predicate xor PS. -/
structure LaneOp where
  t : Nat
  se : Option Nat
  a : Word
  b : Word
  c : Word
  x : BitVec 32
  /-- the second operand is the immediate X -/
  isImm : Bool
  old : Word
  cond : Nat
  q : Bool
  sat : Bool
  /-- rounding mode by R159 steps 2 and 4 -/
  rm : Nat
  /-- in handler mode, where every form rounds to nearest even (R349) -/
  handler : Bool
  /-- the three flush bits of `sr.fpmode`: FTZ64, FTZ32, FTZ16 -/
  ftz : Nat
  deriving DecidableEq, Repr

/-- What one lane's operation gives: a value for D and the latch, a predicate, floating flags NV DZ OF UF NX as bits
4 to 0, and whether a checked shift count is out of range. -/
structure LaneOut where
  val : Word := 0
  pred : Bool := false
  fl : Nat := 0
  log : Bool := false
  /-- the operation writes no vector register -/
  noVal : Bool := false
  deriving DecidableEq, Repr

/-- Elements an operation computes: SUB alone, or all (R126). -/
def LaneOp.elems (o : LaneOp) : List Nat :=
  match o.se with
  | some k => [k]
  | none => List.range (typeCount o.t)

/-- The value whose computed elements are `f j`; the others keep D's (R126). -/
def LaneOp.build (o : LaneOp) (f : Nat → Nat) : Word :=
  match o.se with
  | none => buildElems o.t f
  | some k => buildElems o.t fun j => if j = k then f j else elem o.old o.t j

/-- An element-wise operation on bit patterns. -/
def LaneOp.map3 (o : LaneOp) (f : Nat → Nat → Nat → Nat) : LaneOut :=
  { val := o.build fun j => f (elem o.a o.t j) (elem o.b o.t j) (elem o.c o.t j) }

end Sys2Proof.Machine
end

