-- ==== Sys2Proof/Machine/Flags.lean ====
section
/-! DEFINITION. Flags: the floating mode and flags of a group and its synchronisation status (spec 06 R158-R161, spec 11
R316). -/

namespace Sys2Proof.Machine

/-- Rounding mode of R159 steps 2 and 4; to nearest even in handler mode (R349). -/
def Group.rmFor (g : Group) (h : Hints) : Nat :=
  if g.inHandler then 0
  else match h.src3 with
    | some x => if x.ro then x.rm.toNat else g.fpmode.toNat % 8
    | none => g.fpmode.toNat % 8

/-- Raise floating flags in the group (R160): none in handler mode (R349). -/
def Group.raise (g : Group) (fl : Nat) : Group :=
  if g.inHandler then g
  else
    let en := bits g.fpmode.toNat 12 8
    { g with fpflags := g.fpflags ||| BitVec.ofNat 64 (fl ||| ((fl &&& en) * 2 ^ 16)) }

/-- PND of `sr.fpflags` (R161). -/
def Group.pnd (g : Group) : Nat := bits g.fpflags.toNat 20 16

/-- A value that `movsw sr.fpmode` accepts: no reserved bit and RM 0-4 (R158). -/
def fpmodeOk (x : Word) : Bool := (x &&& ~~~0x1F77#64) == 0 && decide (x.toNat % 8 ≤ 4)

/-- A value may be written to `sr.fpflags`: its reserved bits are zero (R160). -/
def fpflagsOk (x : Word) : Bool := (x &&& ~~~0x1F001F#64) == 0

/-- `sr.syncst` after a write: each of CBRK and PBRK written as 1 clears (R316). -/
def syncstWrite (old x : Word) : Word := old &&& ~~~(x &&& 3#64)

/-- One more package barrier episode in PEP (R316). -/
def syncstEpisode (x : Word) : Word :=
  BitVec.ofNat 64 (x.toNat % 2 ^ 16 + 2 ^ 16 * ((bits x.toNat 47 16 + 1) % 2 ^ 32) + 2 ^ 48 * bits x.toNat 63 48)

/-- PBRK or CBRK with the die of a break (R315, R320). -/
def syncstBreak (x : Word) (flag die : Nat) : Word :=
  (x &&& ~~~0x3F00#64) ||| BitVec.ofNat 64 (die % 64 * 256 + flag)

end Sys2Proof.Machine
end

