-- ==== Sys2Proof/Machine/Float.lean ====
section
/-! DEFINITION. Float: number formats, exact values, one rounding routine for every format and mode, and the exact
operations of spec 06 (R155-R179). A finite value is a sign, a natural number and a power of two. -/

namespace Sys2Proof.Machine

/-! ### Formats (R155, Table 6.1) -/

/-- What the top exponent code holds. -/
inductive TopCode where
  /-- infinities and NaNs -/
  | ieee
  /-- ordinary values, the fraction of ones a NaN (E4M3) -/
  | nanOnly
  /-- ordinary values (the MX element formats) -/
  | finite
  deriving DecidableEq, Repr

/-- A floating format: exponent bits, fraction bits, bias, top code. -/
structure Fmt where
  ex : Nat
  fr : Nat
  bias : Nat
  top : TopCode
  deriving DecidableEq, Repr

def fp64 : Fmt := { ex := 11, fr := 52, bias := 1023, top := .ieee }
def fp32 : Fmt := { ex := 8, fr := 23, bias := 127, top := .ieee }
def fp16 : Fmt := { ex := 5, fr := 10, bias := 15, top := .ieee }
def bf16 : Fmt := { ex := 8, fr := 7, bias := 127, top := .ieee }
def e4m3 : Fmt := { ex := 4, fr := 3, bias := 7, top := .nanOnly }
def e5m2 : Fmt := { ex := 5, fr := 2, bias := 15, top := .ieee }
def e3m2 : Fmt := { ex := 3, fr := 2, bias := 3, top := .finite }
def e2m3 : Fmt := { ex := 2, fr := 3, bias := 1, top := .finite }
def e2m1 : Fmt := { ex := 2, fr := 1, bias := 1, top := .finite }

/-- The format of an element type; E8M0 and the integers have none. -/
def typeFmt (t : Nat) : Option Fmt :=
  match t with
  | 11 => some fp64 | 12 => some fp32 | 13 => some fp16 | 14 => some bf16 | 15 => some e4m3 | 16 => some e5m2
  | 17 => some e3m2 | 18 => some e2m3 | 19 => some e2m1 | _ => none

/-- The format of a type of Table FLT. -/
def fltFmt (t : Nat) : Fmt := (typeFmt t).getD fp32

/-- Least normal exponent. -/
def Fmt.emin (f : Fmt) : Int := 1 - (f.bias : Int)
/-- Largest exponent of a finite value. -/
def Fmt.emax (f : Fmt) : Int :=
  (2 ^ f.ex : Nat) - 1 - (f.bias : Int) - (match f.top with | .ieee => 1 | _ => 0)
/-- Position of the sign bit. -/
def Fmt.signPos (f : Fmt) : Nat := f.ex + f.fr
/-- Bits below the sign of the largest finite value. -/
def Fmt.maxBits (f : Fmt) : Nat :=
  match f.top with
  | .ieee => (2 ^ f.ex - 1) * 2 ^ f.fr - 1
  | .nanOnly => 2 ^ (f.ex + f.fr) - 2
  | .finite => 2 ^ (f.ex + f.fr) - 1
/-- Bits of the infinity below the sign. -/
def Fmt.infBits (f : Fmt) : Nat := (2 ^ f.ex - 1) * 2 ^ f.fr
/-- The positive canonical NaN (R156). -/
def Fmt.nanBits (f : Fmt) : Nat :=
  match f.top with
  | .ieee => (2 ^ f.ex - 1) * 2 ^ f.fr + 2 ^ (f.fr - 1)
  | .nanOnly => 2 ^ (f.ex + f.fr) - 1
  | .finite => 0

/-- A floating value: a NaN (signalling or not), an infinity, or ±m·2^e. -/
inductive FV where
  | nan (sig : Bool)
  | inf (neg : Bool)
  | fin (neg : Bool) (m : Nat) (e : Int)
  deriving DecidableEq, Repr

/-- The sign bit as a number of bits. -/
def Fmt.sign (f : Fmt) (neg : Bool) : Nat := if neg then 2 ^ f.signPos else 0

/-- The value of a bit pattern. Signalling NaNs exist in the 16-bit and wider formats (R156). -/
def Fmt.unpack (f : Fmt) (x : Nat) : FV :=
  let neg := x.testBit f.signPos
  let e := x / 2 ^ f.fr % 2 ^ f.ex
  let m := x % 2 ^ f.fr
  let top := e == 2 ^ f.ex - 1
  if f.top = .ieee ∧ top then
    (if m = 0 then .inf neg else .nan (decide (7 ≤ f.fr) && !m.testBit (f.fr - 1)))
  else if f.top = .nanOnly ∧ top ∧ m = 2 ^ f.fr - 1 then .nan false
  else if e = 0 then .fin neg m (f.emin - f.fr)
  else .fin neg (2 ^ f.fr + m) ((e : Int) - f.bias - f.fr)

/-- A subnormal pattern is non-zero with exponent field 0. -/
def Fmt.subnormal (f : Fmt) (x : Nat) : Bool := x / 2 ^ f.fr % 2 ^ f.ex == 0 && x % 2 ^ f.fr != 0

/-- The flush bit of a format is set (R157): `ftz` holds FTZ64, FTZ32, FTZ16 as bits 0 to 2. -/
def ftzOn (ftz t : Nat) : Bool :=
  match t with
  | 11 => ftz.testBit 0 | 12 => ftz.testBit 1 | 13 => ftz.testBit 2 | 14 => ftz.testBit 2 | _ => false

/-- A source element's value, flushed by R157. -/
def readFV (ftz t x : Nat) : FV :=
  let f := fltFmt t
  if ftzOn ftz t && f.subnormal x then .fin (x.testBit f.signPos) 0 0 else f.unpack x

/-- The value is a signalling NaN. -/
def FV.isSig : FV → Bool
  | .nan s => s
  | _ => false
/-- The value is a NaN. -/
def FV.isNan : FV → Bool
  | .nan _ => true
  | _ => false
/-- The value is zero. -/
def FV.isZero : FV → Bool
  | .fin _ 0 _ => true
  | _ => false

/-! ### Flags (Table 6.3) and rounding (R159) -/

def flNX : Nat := 1
def flUF : Nat := 2
def flOF : Nat := 4
def flDZ : Nat := 8
def flNV : Nat := 16

/-- A result pattern with the flags it raises. -/
structure FR2 where
  bits : Nat
  fl : Nat := 0
  deriving DecidableEq, Repr

/-- Round the quotient `m / 2^k` to an integer; `st` says that the exact value lies above m by less than one. Modes:
0 nearest even, 1 toward zero, 2 toward −∞, 3 toward +∞, 4 nearest, ties away. Gives the integer and exactness. -/
def roundShift (rm : Nat) (neg : Bool) (m k : Nat) (st : Bool) : Nat × Bool :=
  let q := m / 2 ^ k
  let r := m % 2 ^ k
  let exact := r == 0 && !st
  let half := 2 ^ k / 2
  let above := decide (half < r) || (r == half && st)
  let tie := r == half && !st && decide (0 < k)
  let up :=
    match rm with
    | 0 => (above && decide (0 < k)) || (tie && q % 2 == 1)
    | 1 => false
    | 2 => neg && !exact
    | 3 => !neg && !exact
    | _ => (above && decide (0 < k)) || tie
  (if up then q + 1 else q, exact)

/-- What an overflowing result delivers (R174, IEEE 754-2019). -/
inductive OvKind where
  | ieee
  | sat
  | nan
  deriving DecidableEq, Repr

/-- The pattern an overflowed magnitude delivers. -/
def Fmt.overflow (f : Fmt) (k : OvKind) (rm : Nat) (neg : Bool) : Nat :=
  match k with
  | .sat => f.sign neg + f.maxBits
  | .nan => f.nanBits
  | .ieee =>
    let toInf := match rm with | 0 => true | 1 => false | 2 => neg | 3 => !neg | _ => true
    f.sign neg + (if toInf then f.infBits else f.maxBits)

/-- Round ±m·2^e, plus a sticky fraction, once into a format (R159), with flags OF, UF, NX by R160 and flushing by R157.
With `st` the magnitude must have at least `fr + 3` significant bits. -/
def Fmt.round (f : Fmt) (rm : Nat) (ov : OvKind) (flush : Bool) (neg : Bool) (m : Nat) (e : Int) (st : Bool) : FR2 :=
  if m = 0 then { bits := f.sign neg }
  else
    let top := e + Nat.log2 m
    let q : Int := max top f.emin - f.fr
    let sh (q : Int) : Nat × Bool :=
      if q ≤ e then (m * 2 ^ (e - q).toNat, !st) else roundShift rm neg m (q - e).toNat st
    let (r, exact) := sh q
    -- tiny after rounding with unbounded exponent
    let tiny := decide (top < f.emin) &&
      !(decide (top + 1 = f.emin) && decide ((sh (top - f.fr)).1 = 2 ^ (f.fr + 1)))
    let (r, q) := if r = 2 ^ (f.fr + 1) then (2 ^ f.fr, q + 1) else (r, q)
    let mag := if r < 2 ^ f.fr then r else (q + f.fr + f.bias).toNat * 2 ^ f.fr + (r - 2 ^ f.fr)
    if f.maxBits < mag then { bits := f.overflow ov rm neg, fl := flOF + flNX }
    else if flush && decide (r < 2 ^ f.fr) && decide (r ≠ 0) then { bits := f.sign neg, fl := flUF + flNX }
    else { bits := f.sign neg + mag, fl := (if exact then 0 else flNX) + (if tiny && !exact then flUF else 0) }

/-- The canonical NaN with the invalid flag where asked. -/
def Fmt.nanR (f : Fmt) (nv : Bool) : FR2 := { bits := f.nanBits, fl := if nv then flNV else 0 }

/-- Rounding settings of a format in one lane's operation: mode, flush, type. -/
structure Rnd where
  t : Nat
  rm : Nat
  ftz : Nat
  deriving DecidableEq, Repr

def Rnd.fmt (r : Rnd) : Fmt := fltFmt r.t
/-- Round an exact value by the settings. -/
def Rnd.go (r : Rnd) (neg : Bool) (m : Nat) (e : Int) (st : Bool := false) : FR2 :=
  r.fmt.round r.rm .ieee (ftzOn r.ftz r.t) neg m e st
/-- A signed zero. -/
def Rnd.zero (r : Rnd) (neg : Bool) : FR2 := { bits := r.fmt.sign neg }
/-- A signed infinity. -/
def Rnd.inf (r : Rnd) (neg : Bool) : FR2 := { bits := r.fmt.sign neg + r.fmt.infBits }

/-- Exact sum of two finite values: sign, magnitude, exponent; none for a zero sum. -/
def addFin (n1 : Bool) (m1 : Nat) (e1 : Int) (n2 : Bool) (m2 : Nat) (e2 : Int) : Bool × Nat × Int :=
  let e := min e1 e2
  let a := m1 * 2 ^ (e1 - e).toNat
  let b := m2 * 2 ^ (e2 - e).toNat
  if n1 = n2 then (n1, a + b, e) else if b ≤ a then (n1, a - b, e) else (n2, b - a, e)

/-- Sum of two values, rounded once (R164). -/
def Rnd.add (r : Rnd) (x y : FV) : FR2 :=
  match x, y with
  | .nan s, y => r.fmt.nanR (s || y.isSig)
  | x, .nan s => r.fmt.nanR (s || x.isSig)
  | .inf a, .inf b => if a = b then r.inf a else r.fmt.nanR true
  | .inf a, _ => r.inf a
  | _, .inf b => r.inf b
  | .fin n1 m1 e1, .fin n2 m2 e2 =>
    let (n, m, e) := addFin n1 m1 e1 n2 m2 e2
    if m = 0 then r.zero (if m1 = 0 ∧ m2 = 0 ∧ n1 = n2 then n1 else r.rm == 2) else r.go n m e

/-- The negated value. -/
def FV.neg : FV → FV
  | .nan s => .nan s
  | .inf n => .inf (!n)
  | .fin n m e => .fin (!n) m e

/-- Product of two values, rounded once (R164). -/
def Rnd.mul (r : Rnd) (x y : FV) : FR2 :=
  match x, y with
  | .nan s, y => r.fmt.nanR (s || y.isSig)
  | x, .nan s => r.fmt.nanR (s || x.isSig)
  | .inf a, .fin b m _ => if m = 0 then r.fmt.nanR true else r.inf (a != b)
  | .fin a m _, .inf b => if m = 0 then r.fmt.nanR true else r.inf (a != b)
  | .inf a, .inf b => r.inf (a != b)
  | .fin n1 m1 e1, .fin n2 m2 e2 => if m1 * m2 = 0 then r.zero (n1 != n2) else r.go (n1 != n2) (m1 * m2) (e1 + e2)

/-- Product of two values as an exact value; none for 0 × ∞. -/
def FV.mulExact (x y : FV) : Option FV :=
  match x, y with
  | .nan s, y => some (.nan (s || y.isSig))
  | x, .nan s => some (.nan (s || x.isSig))
  | .inf a, .fin b m _ => if m = 0 then none else some (.inf (a != b))
  | .fin a m _, .inf b => if m = 0 then none else some (.inf (a != b))
  | .inf a, .inf b => some (.inf (a != b))
  | .fin n1 m1 e1, .fin n2 m2 e2 => some (.fin (n1 != n2) (m1 * m2) (e1 + e2))

/-- a × b + c with one rounding; 0 × ∞ raises NV even beside a quiet NaN (R164). -/
def Rnd.fma (r : Rnd) (x y z : FV) : FR2 :=
  match x.mulExact y with
  | none => r.fmt.nanR true
  | some p => r.add p z

/-- Total order of magnitudes and signs: x < y with −0 below +0 (R165). Neither is a NaN. -/
def FV.ltTotal (x y : FV) : Bool :=
  match x, y with
  | .inf a, .inf b => a && !b
  | .inf a, _ => a
  | _, .inf b => !b
  | .fin n1 m1 e1, .fin n2 m2 e2 =>
    let e := min e1 e2
    let a := m1 * 2 ^ (e1 - e).toNat
    let b := m2 * 2 ^ (e2 - e).toNat
    match n1, n2 with
    | true, false => true
    | false, true => false
    | false, false => decide (a < b)
    | true, true => decide (b < a)
  | _, _ => false

/-- Numeric equality, +0 = −0 (R166). -/
def FV.eqNum (x y : FV) : Bool :=
  match x, y with
  | .nan _, _ => false
  | _, .nan _ => false
  | .fin _ 0 _, .fin _ 0 _ => true
  | x, y => !x.ltTotal y && !y.ltTotal x

/-- Numeric order. -/
def FV.ltNum (x y : FV) : Bool := !x.isNan && !y.isNan && !x.eqNum y && x.ltTotal y

/-- Largest integer whose square does not exceed `n`: digit by digit, from bit `k` down. -/
def isqrtFrom : Nat → Nat → Nat → Nat
  | 0, n, r => if (r + 1) * (r + 1) ≤ n then r + 1 else r
  | k + 1, n, r =>
    let c := r + 2 ^ (k + 1)
    isqrtFrom k n (if c * c ≤ n then c else r)
/-- Integer square root. -/
def isqrt (n : Nat) : Nat := isqrtFrom (Nat.log2 n / 2 + 1) n 0

/-- 1/a (R170). -/
def Rnd.rcp (r : Rnd) (x : FV) : FR2 :=
  match x with
  | .nan s => r.fmt.nanR s
  | .inf n => r.zero n
  | .fin n 0 _ => { r.inf n with fl := flDZ }
  | .fin n m e =>
    let k := Nat.log2 m + 120
    r.go n (2 ^ k / m) (-(k : Int) - e) (2 ^ k % m != 0)

/-- √a (R170). -/
def Rnd.sqrt (r : Rnd) (x : FV) : FR2 :=
  match x with
  | .nan s => r.fmt.nanR s
  | .inf n => if n then r.fmt.nanR true else r.inf false
  | .fin n 0 _ => r.zero n
  | .fin true _ _ => r.fmt.nanR true
  | .fin false m e =>
    let (m, e) := if e % 2 = 0 then (m, e) else (2 * m, e - 1)
    let big := m * 2 ^ 240
    let q := isqrt big
    r.go false q (e / 2 - 120) (q * q != big)

/-- 1/√a (R170). -/
def Rnd.rsq (r : Rnd) (x : FV) : FR2 :=
  match x with
  | .nan s => r.fmt.nanR s
  | .inf n => if n then r.fmt.nanR true else r.zero false
  | .fin n 0 _ => { r.inf n with fl := flDZ }
  | .fin true _ _ => r.fmt.nanR true
  | .fin false m e =>
    let (m, e) := if e % 2 = 0 then (m, e) else (2 * m, e - 1)
    let p := Nat.log2 m + 120
    let q := isqrt (2 ^ (2 * p) / m)
    r.go false q (-(p : Int) - e / 2) (q * q * m != 2 ^ (2 * p))

/-- IEEE division (R171). -/
def Rnd.div (r : Rnd) (x y : FV) : FR2 :=
  match x, y with
  | .nan s, y => r.fmt.nanR (s || y.isSig)
  | x, .nan s => r.fmt.nanR (s || x.isSig)
  | .inf _, .inf _ => r.fmt.nanR true
  | .inf a, .fin b _ _ => r.inf (a != b)
  | .fin a _ _, .inf b => r.zero (a != b)
  | .fin n1 m1 e1, .fin n2 m2 e2 =>
    if m2 = 0 then (if m1 = 0 then r.fmt.nanR true else { r.inf (n1 != n2) with fl := flDZ })
    else if m1 = 0 then r.zero (n1 != n2)
    else
      let k := Nat.log2 m2 + 120
      let big := m1 * 2 ^ k
      r.go (n1 != n2) (big / m2) (e1 - e2 - k) (big % m2 != 0)

/-- Round a value to an integer of any size (IEEE roundToIntegral): sign, magnitude, exactness. -/
def intOf (rm : Nat) (neg : Bool) (m : Nat) (e : Int) : Nat × Bool :=
  if 0 ≤ e then (m * 2 ^ e.toNat, true)
  else
    let k := (-e).toNat
    if Nat.log2 m + 2 < k then roundShift rm neg (if m = 0 then 0 else 1) 2 false
    else roundShift rm neg m k false

/-- roundToIntegral without NX (R168). -/
def Rnd.rint (r : Rnd) (x : FV) : FR2 :=
  match x with
  | .nan s => r.fmt.nanR s
  | .inf n => r.inf n
  | .fin n m e =>
    let (q, _) := intOf r.rm n m e
    if q = 0 then r.zero n else { bits := (r.go n q 0).bits }

/-- a × 2^n, rounded (R169). Exponents beyond ±6000 give the same result as ±6000. -/
def Rnd.scale (r : Rnd) (x : FV) (n : Int) : FR2 :=
  match x with
  | .nan s => r.fmt.nanR s
  | .inf a => r.inf a
  | .fin a 0 _ => r.zero a
  | .fin a m e => r.go a m (e + max (-6000) (min 6000 n))

/-! ### Transcendental functions (R172; log 21): 400-bit fixed point, floor of the exact value plus a sticky fraction -/

/-- Fraction bits of the fixed-point values. -/
def fxP : Nat := 400
/-- ⌊ln 2 · 2^400⌋ -/
def fxLn2 : Nat := 1789879222497203190815761498240779176894896805856420935579692301363062920687047601279850318367644315849030039181347319086
/-- ⌊π · 2^400⌋ -/
def fxPi : Nat := 8112377246730971238862271351300894519161151600179265203591191037615230905373990498745523360926816815427566779727327576236
/-- ⌊2^400 / ln 2⌋ -/
def fxLog2e : Nat := 3725399093452113361508878261685348397064333121840474113669779251110053462896811095071531244706817557295705407090210624801

/-- Taylor terms x^k/k! from k = `k`, with term `t`: the sum of the next `n` terms. -/
def expTerms : Nat → Nat → Nat → Nat → Nat
  | 0, _, _, _ => 0
  | n + 1, k, x, t =>
    let t' := t * x / 2 ^ fxP / k
    t' + expTerms n (k + 1) x t'
/-- 2^f · 2^400 for a fraction f · 2^400 in [0, 2^400). -/
def fxExp2 (f : Nat) : Nat := 2 ^ fxP + expTerms 110 1 (f * fxLn2 / 2 ^ fxP) (2 ^ fxP)

/-- Odd terms z^k/k from k = `k`, with power `p` and z² = `zz`. -/
def atanhTerms : Nat → Nat → Nat → Nat → Nat
  | 0, _, _, _ => 0
  | n + 1, k, zz, p => p / k + atanhTerms n (k + 2) zz (p * zz / 2 ^ fxP)
/-- log₂ x · 2^400 for x · 2^400 in [2^400, 2^401). -/
def fxLog2 (x : Nat) : Nat :=
  let z := (x - 2 ^ fxP) * 2 ^ fxP / (x + 2 ^ fxP)
  2 * atanhTerms 140 1 (z * z / 2 ^ fxP) z * fxLog2e / 2 ^ fxP

/-- Alternating terms of sine: positive minus negative parts, from x^k/k!. -/
def sinTerms : Nat → Nat → Nat → Nat → Int
  | 0, _, _, _ => 0
  | n + 1, k, xx, t => (t : Int) - sinTerms n (k + 2) xx (t * xx / 2 ^ fxP / (k + 1) / (k + 2))
/-- sin(π t) · 2^400 for t · 2^400 in [0, 2^399]. -/
def fxSin (t : Nat) : Nat :=
  let x := t * fxPi / 2 ^ fxP
  (sinTerms 70 1 (x * x / 2 ^ fxP) x).toNat

/-- A magnitude m·2^e as fixed point, rounded down. -/
def toFx (m : Nat) (e : Int) : Nat :=
  if 0 ≤ e + fxP then m * 2 ^ (e + fxP).toNat else m / 2 ^ (-(e + fxP)).toNat

/-- 2^a rounded to nearest even (R172). -/
def Rnd.exp2 (r : Rnd) (x : FV) : FR2 :=
  match x with
  | .nan s => r.fmt.nanR s
  | .inf n => if n then r.zero false else r.inf false
  | .fin _ 0 _ => r.go false 1 0
  | .fin n m e =>
    if 12 ≤ e + Nat.log2 m then
      (if n then r.go false (2 ^ 60) (-5000) true else r.go false (2 ^ 60) 5000 true)
    else
      let v := toFx m e
      let k := v / 2 ^ fxP
      let f := v % 2 ^ fxP
      if f = 0 then r.go false 1 (if n then -(k : Int) else k)
      else if n then r.go false (fxExp2 (2 ^ fxP - f)) (-(k : Int) - 1 - fxP) true
      else r.go false (fxExp2 f) ((k : Int) - fxP) true

/-- log₂ a rounded to nearest even (R172). -/
def Rnd.log2 (r : Rnd) (x : FV) : FR2 :=
  match x with
  | .nan s => r.fmt.nanR s
  | .inf n => if n then r.fmt.nanR true else r.inf false
  | .fin _ 0 _ => { r.inf true with fl := flDZ }
  | .fin true _ _ => r.fmt.nanR true
  | .fin false m e =>
    let k := Nat.log2 m
    let top := e + k
    if m = 2 ^ k then (if top = 0 then r.zero false else r.go (decide (top < 0)) top.natAbs 0)
    else
      let v : Int := top * (2 ^ fxP : Nat) + fxLog2 (m * 2 ^ (fxP - k))
      if 0 ≤ v then r.go false v.toNat (-(fxP : Int)) true else r.go true (v.natAbs - 1) (-(fxP : Int)) true

/-- sin(π a) rounded to nearest even; the angle is reduced exactly (R172). -/
def Rnd.sinpi (r : Rnd) (x : FV) : FR2 :=
  match x with
  | .nan s => r.fmt.nanR s
  | .inf _ => r.fmt.nanR true
  | .fin n 0 _ => r.zero n
  | .fin n m e =>
    if 0 ≤ e then r.zero n
    else
      let v := toFx m e % 2 ^ (fxP + 1)
      let u := v % 2 ^ fxP
      let neg := n != decide (2 ^ fxP ≤ v)
      if u = 0 then r.zero n
      else if u = 2 ^ (fxP - 1) then r.go neg 1 0
      else r.go neg (fxSin (if u < 2 ^ (fxP - 1) then u else 2 ^ fxP - u)) (-(fxP : Int)) true

/-- cos(π a) rounded to nearest even (R172). -/
def Rnd.cospi (r : Rnd) (x : FV) : FR2 :=
  match x with
  | .nan s => r.fmt.nanR s
  | .inf _ => r.fmt.nanR true
  | .fin _ 0 _ => r.go false 1 0
  | .fin _ m e =>
    let v := if 0 ≤ e then (if e = 0 ∧ m % 2 = 1 then 2 ^ fxP else 0) else toFx m e % 2 ^ (fxP + 1)
    let w := if v ≤ 2 ^ fxP then v else 2 ^ (fxP + 1) - v
    if w = 0 then r.go false 1 0
    else if w = 2 ^ fxP then r.go true 1 0
    else if w = 2 ^ (fxP - 1) then r.zero false
    else if w < 2 ^ (fxP - 1) then
      -- cos(π w) = 1 − 2 sin²(π w / 2), taken from sin of the complement where that is accurate
      r.go false (if w < 2 ^ (fxP - 2) then
          (let h := fxSin (w / 2); 2 ^ fxP - 2 * h * h / 2 ^ fxP - 1) else fxSin (2 ^ (fxP - 1) - w)) (-(fxP : Int)) true
    else
      let w := 2 ^ fxP - w
      r.go true (if w < 2 ^ (fxP - 2) then
          (let h := fxSin (w / 2); 2 ^ fxP - 2 * h * h / 2 ^ fxP - 1) else fxSin (2 ^ (fxP - 1) - w)) (-(fxP : Int)) true

/-- tanh a rounded to nearest even (R172). -/
def Rnd.tanh (r : Rnd) (x : FV) : FR2 :=
  match x with
  | .nan s => r.fmt.nanR s
  | .inf n => r.go n 1 0
  | .fin n 0 _ => r.zero n
  | .fin n m e =>
    if 6 ≤ e + Nat.log2 m then r.go n (2 ^ fxP - 1) (-(fxP : Int)) true
    else if e + Nat.log2 m < -60 then
      -- tanh a = a − a³/3 + … lies just below a
      r.go n (m * 2 ^ 100 - 1) (e - 100) true
    else
      let y := 2 * toFx m e * fxLog2e / 2 ^ fxP
      let k := y / 2 ^ fxP
      let ex := fxExp2 (y % 2 ^ fxP) * 2 ^ k
      r.go n ((ex - 2 ^ fxP) * 2 ^ fxP / (ex + 2 ^ fxP)) (-(fxP : Int)) true

/-! ### Conversion (R173-R176) -/

/-- A conversion source: a floating value, or an exact integer. -/
inductive CvSrc where
  | flt (v : FV)
  | int (x : Int)
  deriving DecidableEq, Repr

/-- An element read for conversion in type `st` (R174). -/
def cvRead (ftz st x : Nat) : CvSrc :=
  match st with
  | 20 => .flt (if x = 255 then .nan false else .fin false 1 ((x : Int) - 127))
  | 17 | 18 => .flt ((fltFmt st).unpack (x % 64))
  | _ => if typeFloat st then .flt (readFV ftz st x) else .int (readElem st x)

/-- Conversion to E8M0 (R175). -/
def cvE8 (v : CvSrc) : FR2 :=
  let go (m : Nat) (e : Int) : FR2 :=
    let k := e + Nat.log2 m
    if m = 0 then { bits := 0 }
    else if k < -127 then { bits := 0, fl := flUF + flNX }
    else if 127 < k then { bits := 0xFE, fl := flOF + flNX }
    else { bits := (k + 127).toNat, fl := if m = 2 ^ Nat.log2 m then 0 else flNX }
  match v with
  | .flt (.nan s) => { bits := 0xFF, fl := if s then flNV else 0 }
  | .flt (.inf _) => { bits := 0xFE }
  | .flt (.fin _ m e) => go m e
  | .int x => go x.natAbs 0

/-- Conversion to an integer type: the nearest limit with NV where out of range (Table 6.6). -/
def cvInt (dt rm : Nat) (v : FV) : FR2 :=
  let w := typeWidth dt
  let lo : Int := if typeSigned dt then -(2 ^ (w - 1) : Nat) else 0
  let hi : Int := if typeSigned dt then (2 ^ (w - 1) : Nat) - 1 else (2 ^ w : Nat) - 1
  match v with
  | .nan _ => { bits := 0, fl := flNV }
  | .inf n => { bits := wrapTo w (if n then lo else hi), fl := flNV }
  | .fin n m e =>
    if 128 ≤ e + Nat.log2 m then { bits := wrapTo w (if n then lo else hi), fl := flNV }
    else
      let (q, exact) := intOf rm n m e
      let x : Int := if n then -(q : Int) else q
      if x < lo then { bits := wrapTo w lo, fl := flNV }
      else if hi < x then { bits := wrapTo w hi, fl := flNV }
      else { bits := wrapTo w x, fl := if exact then 0 else flNX }

/-- The value of a conversion source as a floating value. -/
def CvSrc.fv : CvSrc → FV
  | .flt v => v
  | .int x => .fin (decide (x < 0)) x.natAbs 0

/-- conv of R174 into type `dt`, with SAT and the rounding mode chosen by the caller. -/
def convTo (dt rm ftz : Nat) (sat : Bool) (v : CvSrc) : FR2 :=
  if dt = 20 then cvE8 v
  else if !typeFloat dt then
    match v with
    | .int x => { bits := if sat then satTo dt x else wrapTo (typeWidth dt) x }
    | .flt v => cvInt dt rm v
  else
    let f := fltFmt dt
    let ieee := dt == 11 || dt == 12 || dt == 13
    let rm := if ieee then rm else 0
    let ov : OvKind := match dt with
      | 15 => if sat then .sat else .nan
      | 16 => if sat then .sat else .ieee
      | 17 | 18 | 19 => .sat
      | _ => .ieee
    match v.fv with
    | .nan s => if f.top = .finite then { bits := 0, fl := flNV } else f.nanR s
    | .inf n =>
      { bits := match ov with
          | .sat => f.sign n + f.maxBits
          | .nan => f.nanBits
          | .ieee => f.sign n + f.infBits }
    | .fin n m e =>
      let neg := match v with | .int x => decide (x < 0) | _ => n
      f.round rm ov (ftzOn ftz dt) neg m e false

/-- A value of a type as it is read: a subnormal that R157 flushes is a zero of its sign. -/
def flushed (ftz t x : Nat) : Nat :=
  if ftzOn ftz t && (fltFmt t).subnormal x then (fltFmt t).sign (x.testBit (fltFmt t).signPos) else x

/-- A rounded result of a type as it is delivered: a subnormal that R157 flushes raises underflow and inexact. -/
def FR2.flush (ftz t : Nat) (r : FR2) : FR2 :=
  if ftzOn ftz t && (fltFmt t).subnormal r.bits then { bits := flushed ftz t r.bits, fl := r.fl ||| flUF ||| flNX } else r

/-- Stochastic rounding of an FP32 value with a 32-bit random word (R176). -/
def convSr (dt : Nat) (v : FV) (rnd : Nat) : FR2 :=
  let f := fltFmt dt
  match v with
  | .nan s => if f.top = .finite then { bits := 0, fl := flNV } else f.nanR s
  | .inf n => { bits := f.sign n + (if f.top = .ieee then f.infBits else f.maxBits) }
  | .fin n 0 _ => { bits := f.sign n }
  | .fin n m e =>
    let top := e + Nat.log2 m
    let u : Int := max top f.emin - f.fr
    -- |x|/u as a fraction over 2^32: m·2^(e-u)
    let d := e - u
    let y : Nat := if 0 ≤ d then m * 2 ^ d.toNat + rnd / 2 ^ 32
      else (m * 2 ^ 32 + rnd * 2 ^ (-d).toNat) / 2 ^ ((-d).toNat + 32)
    let exact : Bool := if 0 ≤ d then y == m * 2 ^ d.toNat else y * 2 ^ (-d).toNat == m
    let (y', u') := if y = 2 ^ (f.fr + 1) then (2 ^ f.fr, u + 1) else (y, u)
    let mag := if y' < 2 ^ f.fr then y' else (u' + f.fr + f.bias).toNat * 2 ^ f.fr + (y' - 2 ^ f.fr)
    if f.maxBits < mag then { bits := f.sign n + f.maxBits, fl := flOF + flNX }
    else
      { bits := f.sign n + mag
        fl := (if exact then 0 else flNX) + (if !exact && decide (y' < 2 ^ f.fr) && decide (y' ≠ 0) then flUF else 0) }

/-! ### Fixed-tree sums (R178, R179) -/

/-- FP32, to nearest even, subnormals kept. -/
def rne32 : Rnd := { t := 12, rm := 0, ftz := 0 }

/-- The value of an FP32 result. -/
def FR2.fv32 (x : FR2) : FV := fp32.unpack x.bits

/-- Exact sum of two values with NaN and infinity rules; `nv` reports invalid. -/
def FV.addExact (x y : FV) : FV × Bool :=
  match x, y with
  | .nan _, _ => (.nan false, false)
  | _, .nan _ => (.nan false, false)
  | .inf a, .inf b => if a = b then (.inf a, false) else (.nan false, true)
  | .inf a, _ => (.inf a, false)
  | _, .inf b => (.inf b, false)
  | .fin n1 m1 e1, .fin n2 m2 e2 =>
    let (n, m, e) := addFin n1 m1 e1 n2 m2 e2
    (.fin (if m = 0 then n1 && n2 else n) m e, false)

end Sys2Proof.Machine
end

