-- ==== Sys2Proof/Machine/FloatLanes.lean ====
section
/-! DEFINITION. FloatLanes: what each floating form, conversion and dot product computes in one lane (spec 06,
R163-R179). -/

namespace Sys2Proof.Machine

/-- Rounding settings of a lane's operation: BF16 results round to nearest even (R159 step 1). -/
def LaneOp.rnd (o : LaneOp) : Rnd := { t := o.t, rm := if o.t = 14 then 0 else o.rm, ftz := o.ftz }

/-- Settings of the special functions: always to nearest even (R159 step 1). -/
def LaneOp.rne (o : LaneOp) : Rnd := { t := o.t, rm := 0, ftz := o.ftz }

/-- SAT of R163: clamp to [+0, +1], a NaN to +0. -/
def clampUnit (t : Nat) (x : Nat) : Nat :=
  let f := fltFmt t
  let one := (floatConsts t).2.1
  match f.unpack x with
  | .nan _ => 0
  | .inf n => if n then 0 else one
  | .fin n m _ => if n || m = 0 then 0 else if one < x then one else x

/-- An element-wise floating operation: results and the union of the flags (R160). -/
def LaneOp.fmap (o : LaneOp) (f : FV → FV → FV → FR2) : LaneOut :=
  let at' (j : Nat) : FR2 :=
    f (readFV o.ftz o.t (elem o.a o.t j)) (readFV o.ftz o.t (elem o.b o.t j)) (readFV o.ftz o.t (elem o.c o.t j))
  { val := o.build fun j => if o.sat then clampUnit o.t (at' j).bits else (at' j).bits
    fl := o.elems.foldl (fun acc j => acc ||| (at' j).fl) 0 }

/-- R164 -/
def laneFadd (o : LaneOp) : LaneOut := o.fmap fun a b _ => o.rnd.add a b
/-- R164 -/
def laneFsub (o : LaneOp) : LaneOut := o.fmap fun a b _ => o.rnd.add a b.neg
/-- R164 -/
def laneFmul (o : LaneOp) : LaneOut := o.fmap fun a b _ => o.rnd.mul a b
/-- R164 -/
def laneFfma (o : LaneOp) : LaneOut := o.fmap fun a b c => o.rnd.fma a b c

/-- A value already of the format, as a pattern. -/
def Rnd.exactly (r : Rnd) (x : FV) : FR2 :=
  match x with
  | .nan _ => r.fmt.nanR false
  | .inf n => r.inf n
  | .fin n m e => if m = 0 then r.zero n else { bits := ({ r with ftz := 0 }.go n m e).bits }

/-- R165: the lesser or greater operand; `num` prefers a number to a NaN. -/
def Rnd.pick (r : Rnd) (num great : Bool) (x y : FV) : FR2 :=
  let nv := x.isSig || y.isSig
  let v : FV :=
    if x.isNan && y.isNan then .nan false
    else if x.isNan then (if num then y else .nan false)
    else if y.isNan then (if num then x else .nan false)
    else if x.ltTotal y != great then x else y
  { bits := (r.exactly v).bits, fl := if nv then flNV else 0 }

/-- R165 -/
def laneFmin (o : LaneOp) : LaneOut := o.fmap fun a b _ => o.rnd.pick true false a b
/-- R165 -/
def laneFmax (o : LaneOp) : LaneOut := o.fmap fun a b _ => o.rnd.pick true true a b
/-- R165 -/
def laneFminm (o : LaneOp) : LaneOut := o.fmap fun a b _ => o.rnd.pick false false a b
/-- R165 -/
def laneFmaxm (o : LaneOp) : LaneOut := o.fmap fun a b _ => o.rnd.pick false true a b

/-- R166 -/
def laneFcmp (o : LaneOp) : LaneOut :=
  let va (j : Nat) : FV := readFV o.ftz o.t (elem o.a o.t j)
  let vb (j : Nat) : FV := readFV o.ftz o.t (elem o.b o.t j)
  let eq (j : Nat) : Bool := (va j).eqNum (vb j)
  let nv (j : Nat) : Bool :=
    if o.cond < 2 then (va j).isSig || (vb j).isSig else (va j).isNan || (vb j).isNan
  { pred := match o.cond with
      | 0 => o.elems.all eq
      | 1 => !o.elems.all eq
      | 2 => o.elems.all fun j => (va j).ltNum (vb j)
      | _ => o.elems.all fun j => !(va j).isNan && !(vb j).isNan && !(va j).ltNum (vb j)
    fl := if o.elems.any nv then flNV else 0
    noVal := true }

/-- Class number of an element (R167). -/
def classOf (f : Fmt) (x : Nat) : Nat :=
  match f.unpack x with
  | .nan s => if s then 0 else 1
  | .inf n => if n then 2 else 9
  | .fin n m _ =>
    if m = 0 then (if n then 5 else 6)
    else if f.subnormal x then (if n then 4 else 7)
    else (if n then 3 else 8)

/-- R167 -/
def laneFclass (o : LaneOp) : LaneOut :=
  { pred := o.elems.any fun j => o.b.toNat.testBit (classOf (fltFmt o.t) (elem o.a o.t j)), noVal := true }

/-- R168: in the mode of R159, BF16 included. -/
def laneFrnd (o : LaneOp) : LaneOut :=
  o.fmap fun a _ _ => ({ t := o.t, rm := o.rm, ftz := o.ftz } : Rnd).rint a

/-- R169: the count is a signed integer of the element width. -/
def laneFscale (o : LaneOp) : LaneOut :=
  let w := typeWidth o.t
  let at' (j : Nat) : FR2 := o.rnd.scale (readFV o.ftz o.t (elem o.a o.t j)) (toSigned w (elem o.b o.t j))
  { val := o.build fun j => (at' j).bits, fl := o.elems.foldl (fun acc j => acc ||| (at' j).fl) 0 }

/-- R170 -/
def laneFrcp (o : LaneOp) : LaneOut := o.fmap fun a _ _ => o.rnd.rcp a
/-- R170 -/
def laneFrsq (o : LaneOp) : LaneOut := o.fmap fun a _ _ => o.rnd.rsq a
/-- R170 -/
def laneFsqrt (o : LaneOp) : LaneOut := o.fmap fun a _ _ => o.rnd.sqrt a

/-- Unbiased exponent of a normal pattern. -/
def Fmt.expOf (f : Fmt) (x : Nat) : Int := ((x / 2 ^ f.fr % 2 ^ f.ex : Nat) : Int) - f.bias

/-- A pattern is finite, non-zero and normal. -/
def Fmt.isNormal (f : Fmt) (x : Nat) : Bool :=
  let e := x / 2 ^ f.fr % 2 ^ f.ex
  e != 0 && e != 2 ^ f.ex - 1

/-- R171 -/
def laneFdivf (o : LaneOp) : LaneOut :=
  let f := fltFmt o.t
  let at' (j : Nat) : FR2 :=
    let a := elem o.a o.t j
    let b := elem o.b o.t j
    let d := f.expOf a - f.expOf b
    if f.isNormal a && f.isNormal b && decide (f.emin + 2 ≤ d) && decide (d ≤ f.emax - 2) then
      (if (f.unpack (elem o.c o.t j)).isNan then { bits := f.nanBits } else { bits := flushed o.ftz o.t (elem o.c o.t j) })
    else o.rnd.div (readFV o.ftz o.t a) (readFV o.ftz o.t b)
  { val := o.build fun j => (at' j).bits, fl := o.elems.foldl (fun acc j => acc ||| (at' j).fl) 0 }

/-- R172 -/
def laneFexp2 (o : LaneOp) : LaneOut := o.fmap fun a _ _ => o.rne.exp2 a
/-- R172 -/
def laneFlog2 (o : LaneOp) : LaneOut := o.fmap fun a _ _ => o.rne.log2 a
/-- R172 -/
def laneFsin (o : LaneOp) : LaneOut := o.fmap fun a _ _ => o.rne.sinpi a
/-- R172 -/
def laneFcos (o : LaneOp) : LaneOut := o.fmap fun a _ _ => o.rne.cospi a
/-- R172 -/
def laneFtanh (o : LaneOp) : LaneOut := o.fmap fun a _ _ => o.rne.tanh a

/-- R173: `cvt` from type `st` to the operation's type. Equal types copy the element's bits; an FP6 byte has bits [7:6]
zero. -/
def laneCvt (st : Nat) (rtz : Bool) (o : LaneOp) : LaneOut :=
  if st = o.t then { val := if st = 17 ∨ st = 18 then buildElems st fun j => elem o.a st j % 64 else o.a }
  else
    let rm := if o.handler then 0 else if rtz then 1 else o.rm
    let at' (j : Nat) : FR2 :=
      if j < typeCount st then convTo o.t rm o.ftz o.sat (cvRead o.ftz st (elem o.a st j)) else { bits := 0 }
    { val := buildElems o.t fun j => (at' j).bits
      fl := (List.range (typeCount o.t)).foldl (fun acc j => acc ||| (at' j).fl) 0 }

/-- R176 -/
def laneCvtsr (o : LaneOp) : LaneOut :=
  let at' (j : Nat) : FR2 :=
    if j < 2 then (convSr o.t (readFV o.ftz 12 (elem o.a 12 j)) (elem o.b 12 j)).flush o.ftz o.t else { bits := 0 }
  { val := buildElems o.t fun j => (at' j).bits, fl := (at' 0).fl ||| (at' 1).fl }

/-- R177 -/
def lanePack (o : LaneOp) : LaneOut :=
  let n := typeCount o.t / 2
  let w := wideType o.t
  let at' (j : Nat) : FR2 :=
    convTo o.t o.rm o.ftz o.sat
      (if j < n then cvRead o.ftz w (elem o.a w j) else cvRead o.ftz w (elem o.b w (j - n)))
  { val := buildElems o.t fun j => (at' j).bits
    fl := (List.range (typeCount o.t)).foldl (fun acc j => acc ||| (at' j).fl) 0 }

/-- Widen one element exactly into its partner, with no flag and no flushing (R177). -/
def widen (t x : Nat) : Nat :=
  (convTo (wideType t) 0 0 false (cvRead 0 t x)).bits

/-- R177: h is 0 or 1, read from the second source's code. -/
def laneUnpack (h : Nat) (o : LaneOp) : LaneOut :=
  let n := typeCount o.t / 2
  { val := buildElems (wideType o.t) fun j => widen o.t (elem o.a o.t (h * n + j)) }

/-! ### Dot products (R178, R179): FTZ does not apply -/

/-- The exact product of two elements, a NaN with invalid for 0 × ∞ and for a signalling operand. -/
def dotProd (t x y : Nat) : FV × Bool :=
  let f := fltFmt t
  let a := f.unpack (if t = 17 ∨ t = 18 then x % 64 else x)
  let b := f.unpack (if t = 17 ∨ t = 18 then y % 64 else y)
  match a.mulExact b with
  | none => (.nan false, true)
  | some p => (if p.isNan then .nan false else p, p.isSig)

/-- A node of the tree: the sum of two exact values rounded in FP32. -/
def dotNode (x y : FV) : FV × Nat :=
  let r := rne32.add x y
  (r.fv32, r.fl)

/-- Sum of `n` products of one dot product, by the tree of R178, with its flags. -/
def dotSum (t n : Nat) (p : Nat → FV) : FV × Nat :=
  if t = 19 then
    (List.range n).foldl (fun (acc : FV × Nat) i =>
      if i = 0 then (p 0, acc.2) else let (v, nv) := acc.1.addExact (p i); (v, acc.2 ||| (if nv then flNV else 0)))
      (.fin false 0 0, 0)
  else if n = 2 then dotNode (p 0) (p 1)
  else
    let (x, f1) := dotNode (p 0) (p 1)
    let (y, f2) := dotNode (p 2) (p 3)
    let (z, f3) := dotNode x y
    (z, f1 ||| f2 ||| f3)

/-- R178, for `dot2`, `dot4` and `dot8`. -/
def laneDot (o : LaneOp) : LaneOut :=
  let n := typeCount o.t / 2
  let rt := dotResult o.t
  if typeFloat o.t then
    let at' (k : Nat) : FR2 :=
      let p (i : Nat) : FV × Bool := dotProd o.t (elem o.a o.t (n * k + i)) (elem o.b o.t (n * k + i))
      let nv := (List.range n).any fun i => (p i).2
      let (s, fs) := dotSum o.t n fun i => (p i).1
      let r := rne32.add (fp32.unpack (elem o.c 12 k)) s
      { bits := r.bits, fl := fs ||| r.fl ||| (if nv then flNV else 0) }
    { val := buildElems 12 fun k => (at' k).bits, fl := (at' 0).fl ||| (at' 1).fl }
  else
    { val := buildElems rt fun k =>
        let s : Int := (List.range n).foldl
          (fun acc i => acc + readElem o.t (elem o.a o.t (n * k + i)) * readElem o.t (elem o.b o.t (n * k + i))) 0
        let x := readElem rt (elem o.c rt k) + s
        if o.sat then satTo rt x else wrapTo 32 x }

/-- R179 -/
def laneDots (o : LaneOp) : LaneOut :=
  let n := typeCount o.t / 2
  let at' (k : Nat) : FR2 :=
    let p (i : Nat) : FV × Bool := dotProd o.t (elem o.a o.t (n * k + i)) (elem o.b o.t (n * k + i))
    let sa := o.c.toNat / 2 ^ (16 * k) % 256
    let sb := o.c.toNat / 2 ^ (16 * k + 8) % 256
    let anyNan := (List.range n).any fun i => (p i).1.isNan && !(p i).2
    if sa = 255 ∨ sb = 255 ∨ anyNan then fp32.nanR false
    else if (List.range n).any fun i => (p i).2 then fp32.nanR true
    else
      let (s, nv) := (List.range n).foldl (fun (acc : FV × Bool) i =>
        let (v, b) := acc.1.addExact (p i).1; (v, acc.2 || b)) (FV.fin false 0 0, false)
      match s with
      | .nan _ => fp32.nanR nv
      | .inf neg => rne32.inf neg
      | .fin neg m e => if m = 0 then { bits := 0 } else rne32.go neg m (e + sa + sb - 254)
  { val := buildElems 12 fun k => (at' k).bits, fl := (at' 0).fl ||| (at' 1).fl }

end Sys2Proof.Machine
end

