-- ==== Sys2Proof/Machine/IntegerLanes.lean ====
section
/-! DEFINITION. IntegerLanes: what each integer, logic, bit-field, byte, selection, comparison and address form computes
in one lane (spec 05, R131-R148). -/

namespace Sys2Proof.Machine

/-- An element-wise integer operation on exact values, narrowed by wrap, or by sat where asked (R127). -/
def LaneOp.arith (o : LaneOp) (sat : Bool) (f : Int → Int → Int → Int) : LaneOut :=
  o.map3 fun a b c =>
    let x := f (readElem o.t a) (readElem o.t b) (readElem o.t c)
    if sat then satTo o.t x else wrapTo (typeWidth o.t) x

/-- R131 -/
def laneAdd (o : LaneOp) : LaneOut := o.arith false fun a b _ => a + b
/-- R131 -/
def laneSub (o : LaneOp) : LaneOut := o.arith false fun a b _ => a - b
/-- R131 -/
def laneMul (o : LaneOp) : LaneOut := o.arith o.sat fun a b _ => a * b
/-- R131 -/
def laneMad (o : LaneOp) : LaneOut := o.arith o.sat fun a b c => a * b + c
/-- R131 -/
def laneMin (o : LaneOp) : LaneOut := o.arith false fun a b _ => if a ≤ b then a else b
/-- R131 -/
def laneMax (o : LaneOp) : LaneOut := o.arith false fun a b _ => if a ≤ b then b else a
/-- R131 -/
def laneAdds (o : LaneOp) : LaneOut := o.arith true fun a b _ => a + b
/-- R131 -/
def laneSubs (o : LaneOp) : LaneOut := o.arith true fun a b _ => a - b
/-- R132: the high half of the exact product. -/
def laneMulh (o : LaneOp) : LaneOut := o.arith false fun a b _ => (a * b) / (2 ^ typeWidth o.t : Nat)
/-- R133 -/
def laneAbs (o : LaneOp) : LaneOut := o.arith o.sat fun a _ _ => if a < 0 then -a else a
/-- R133 -/
def laneNeg (o : LaneOp) : LaneOut := o.arith o.sat fun a _ _ => -a
/-- R134 -/
def laneSad (o : LaneOp) : LaneOut := o.arith o.sat fun a b c => c + (if a < b then b - a else a - b)

/-- R135 -/
def laneAnd (o : LaneOp) : LaneOut := { val := o.a &&& o.b }
/-- R135 -/
def laneOr (o : LaneOp) : LaneOut := { val := o.a ||| o.b }
/-- R135 -/
def laneXor (o : LaneOp) : LaneOut := { val := o.a ^^^ o.b }
/-- R135 -/
def laneAndn (o : LaneOp) : LaneOut := { val := o.a &&& ~~~o.b }
/-- R135 -/
def laneNot (o : LaneOp) : LaneOut := { val := ~~~o.a }

/-- Shift count of element `j`: b.e[j] unsigned, or X whole (R136). -/
def LaneOp.count (o : LaneOp) (j : Nat) : Nat := if o.isImm then o.x.toNat else elem o.b o.t j

/-- A shift: `f w a c` for c < w, `g w a` for a longer count; the checked form reports a count out of range (R136,
R137). -/
def LaneOp.shift (o : LaneOp) (f : Nat → Nat → Nat → Nat) (g : Nat → Nat → Nat) : LaneOut :=
  let w := typeWidth o.t
  { val := o.build fun j =>
      let a := elem o.a o.t j
      if o.count j < w then f w a (o.count j) else g w a
    log := o.sat && o.elems.any fun j => decide (w ≤ o.count j) }

/-- R136 -/
def laneShl (o : LaneOp) : LaneOut := o.shift (fun w a c => (a * 2 ^ c) % 2 ^ w) fun _ _ => 0
/-- R136 -/
def laneShr (o : LaneOp) : LaneOut := o.shift (fun _ a c => a / 2 ^ c) fun _ _ => 0
/-- R136 -/
def laneSar (o : LaneOp) : LaneOut :=
  o.shift (fun w a c => wrapTo w (toSigned w a / (2 ^ c : Nat))) fun w a => if toSigned w a < 0 then 2 ^ w - 1 else 0
/-- R136: rotate left by the count mod w. -/
def laneRot (o : LaneOp) : LaneOut :=
  let w := typeWidth o.t
  { val := o.build fun j =>
      let c := o.count j % w
      let a := elem o.a o.t j
      (a * 2 ^ c) % 2 ^ w + a / 2 ^ (w - c) }

/-- Number of leading zero bits of a `w`-bit pattern. -/
def clzN (w x : Nat) : Nat := if x = 0 then w else w - 1 - Nat.log2 x
/-- Number of one bits among the low `w`. -/
def popcN (w x : Nat) : Nat := ((List.range w).filter x.testBit).length
/-- A `w`-bit pattern with its bits reversed. -/
def brevN (w x : Nat) : Nat := (List.range w).foldl (fun acc i => 2 * acc + b2n (x.testBit i)) 0

/-- R138 -/
def laneClz (o : LaneOp) : LaneOut := o.map3 fun a _ _ => clzN (typeWidth o.t) a
/-- R138 -/
def lanePopc (o : LaneOp) : LaneOut := o.map3 fun a _ _ => popcN (typeWidth o.t) a
/-- R138 -/
def laneBrev (o : LaneOp) : LaneOut := o.map3 fun a _ _ => brevN (typeWidth o.t) a

/-- Position and effective length of a field operand (R139). -/
def fieldOf (w f : Nat) : Nat × Nat :=
  let pos := f % 256
  let len := f / 256 % 256
  (pos, if pos < w then min len (w - pos) else 0)

/-- R139 -/
def laneBfe (o : LaneOp) : LaneOut :=
  let w := typeWidth o.t
  o.map3 fun a f _ =>
    let (pos, k) := fieldOf w f
    if k = 0 then 0
    else
      let x := a / 2 ^ pos % 2 ^ k
      if typeSigned o.t then wrapTo w (toSigned k x) else x

/-- R139 -/
def laneBfi (o : LaneOp) : LaneOut :=
  let w := typeWidth o.t
  o.map3 fun a b f =>
    let (pos, k) := fieldOf w f
    if k = 0 then b
    else b - (b / 2 ^ pos % 2 ^ k) * 2 ^ pos + (a % 2 ^ k) * 2 ^ pos

/-- R140 -/
def lanePrmt (o : LaneOp) : LaneOut :=
  let byte (i : Nat) : Nat :=
    let s := o.c.toNat / 2 ^ (4 * i) % 16
    let y := if s < 8 then o.a.toNat / 2 ^ (8 * s) % 256 else o.b.toNat / 2 ^ (8 * (s - 8)) % 256
    if o.c.toNat.testBit (32 + i) then (if 128 ≤ y then 255 else 0) else y
  { val := BitVec.ofNat 64 (joinElems 8 ((List.range 8).map byte)) }

/-- R141: the low half of the source, element by element, widened to the type. -/
def laneExt (o : LaneOp) : LaneOut :=
  let w := typeWidth o.t
  let h := w / 2
  { val := buildElems o.t fun j =>
      let x := o.a.toNat / 2 ^ (h * j) % 2 ^ h
      if typeSigned o.t then wrapTo w (toSigned h x) else x }

/-- R142 -/
def laneSel (o : LaneOp) : LaneOut := { val := if o.q then o.a else o.b }

/-- The relation of COND on two integers; `ne` is taken as "some element differs" by the caller. -/
def condRel (cond : Nat) (a b : Int) : Bool :=
  match cond with
  | 0 => decide (a = b) | 1 => decide (a ≠ b) | 2 => decide (a < b) | _ => decide (b ≤ a)

/-- R143: every element in the relation, or for `ne` some element different. -/
def laneCmp (o : LaneOp) : LaneOut :=
  let r (j : Nat) : Bool := condRel o.cond (readElem o.t (elem o.a o.t j)) (readElem o.t (elem o.b o.t j))
  { pred := if o.cond = 1 then o.elems.any r else o.elems.all r, noVal := true }

/-- R146 -/
def laneMov (o : LaneOp) : LaneOut := { val := o.a }
/-- R147 -/
def laneMovi (o : LaneOp) : LaneOut := { val := o.build fun j => elem o.b o.t j }
/-- R148: a sum mod 2^56; the I form takes X sign-extended. -/
def laneLea (o : LaneOp) : LaneOut :=
  { val := BitVec.ofNat 64 ((o.a + (if o.isImm then o.x.signExtend 64 else o.b)).toNat % 2 ^ 56) }
/-- R121: a `nop` computes nothing. -/
def laneNop (_ : LaneOp) : LaneOut := { noVal := true }

end Sys2Proof.Machine
end

