-- ==== Sys2Proof/Machine/Mesh.lean ====
section
/-! DEFINITION. Mesh: routes over the logical mesh, links that have failed, and the item streams of die pairs (spec 02 R44-R45,
spec 09 R261, spec 12 R334). -/

namespace Sys2Proof.Machine

/-- Directions of a link: 0 east, 1 south, 2 west, 3 north (R46). -/
def stepDie (die dir : Nat) : Nat :=
  match dir with | 0 => die + 1 | 1 => die + 8 | 2 => die - 1 | _ => die - 8

/-- The link directions of the route between two dies: x first, then y (R44). -/
def routeFrom : Nat → Nat → Nat → List (Nat × Nat)
  | 0, _, _ => []
  | n + 1, a, b =>
    if a % 8 < b % 8 then (a, 0) :: routeFrom n (a + 1) b
    else if b % 8 < a % 8 then (a, 2) :: routeFrom n (a - 1) b
    else if a / 8 < b / 8 then (a, 1) :: routeFrom n (a + 8) b
    else if b / 8 < a / 8 then (a, 3) :: routeFrom n (a - 8) b
    else []

/-- The route of two dies of the mesh. -/
def route (a b : Nat) : List (Nat × Nat) := routeFrom 14 a b

/-- The edge that leaves a site in a direction, as the site and direction that name it east or south. -/
def edgeName (p q : Nat × Nat) : Nat × Nat × Nat :=
  if p.1 < q.1 then (p.1, p.2, 0) else if q.1 < p.1 then (q.1, q.2, 0)
  else if p.2 < q.2 then (p.1, p.2, 1) else (q.1, q.2, 1)

/-- The edge named from a site and any of its four directions. The west edge of column 0 leads to the bridge die, and the north
edge of row 0 to no site: each keeps its own direction. -/
def edgeOf (px py dir : Nat) : Nat × Nat × Nat :=
  match dir with
  | 0 => (px, py, 0)
  | 1 => (px, py, 1)
  | 2 => if px = 0 then (0, py, 2) else (px - 1, py, 0)
  | 3 => if py = 0 then (px, 0, 3) else (px, py - 1, 1)
  | _ => (px, py, 4)

/-- The direction in which a site's neighbour lies. -/
def edgeDir (p q : Nat × Nat) : Nat :=
  if p.1 < q.1 then 0 else if p.2 < q.2 then 1 else if q.1 < p.1 then 2 else 3

/-- The mirror-map entries of a path to a waypoint: each site before its end, with the output edge towards the next (R44). -/
def pathMirrors (waypoint : Nat) : List (Nat × Nat) → List (Nat × Nat × Nat)
  | p :: q :: t => (9 * p.2 + p.1, waypoint, edgeDir p q) :: pathMirrors waypoint (q :: t)
  | _ => []

/-- The mirror maps of the routers (R44): site, waypoint and output edge. The waypoints are the logical dies that the links end
at. -/
def mirrorMaps (ls : List LinkPath) : List (Nat × Nat × Nat) :=
  (ls.flatMap fun l => pathMirrors (stepDie l.die l.dir) l.path).dedup

/-- A path of sites crosses a failed edge or router (R45). -/
def pathBroken (failed : List (Nat × Nat × Nat)) : List (Nat × Nat) → Bool
  | [] => false
  | [p] => failed.contains (p.1, p.2, 4)
  | p :: q :: t => failed.contains (p.1, p.2, 4) || failed.contains (edgeName p q) || pathBroken failed (q :: t)

/-- A logical link has failed. -/
def State.linkBroken (s : State) (l : Nat × Nat) : Bool :=
  match s.pkg.links.find? fun x => x.die == l.1 && x.dir == l.2 with
  | some x => pathBroken s.pkg.edgesFailed x.path
  | none => false

/-- The host-link port of a host-memory address (R380). -/
def hostPort (pa : Nat) : Nat := bits pa 13 12 ^^^ bits pa 17 16

/-- Channel of a device-memory address (R243). -/
def hbmChannel (a : Nat) : Nat := bits a 12 8 ^^^ bits a 17 13

/-- Numbers of the west and east bridge dies, after those of the logical dies (R260, R380). -/
def bridgeDie (east : Bool) : Nat := if east then 65 else 64

/-- The last die of a row of the mesh on the way to a bridge die. -/
def State.edgeDie (s : State) (row bridge : Nat) : Nat :=
  if bridge = 65 then (((List.range 8).filter fun x => (s.die? (8 * row + x)).isSome).getLast?.map (8 * row + ·)).getD (8 * row)
  else 8 * row

/-- The link directions between two dies, either of which may be a bridge die. DESIGN CHOICE (log 84): the spec gives no route to a
bridge die; it follows the row of the other die to the edge of the mesh. -/
def State.path (s : State) (a b : Nat) : List (Nat × Nat) :=
  if 64 ≤ a then (if 64 ≤ b then [] else route (s.edgeDie (b / 8) a) b)
  else if 64 ≤ b then route a (s.edgeDie (a / 8) b)
  else route a b

/-- A die of the mesh has failed. -/
def State.lost (s : State) (die : Nat) : Bool := ((s.die? die).map (·.failed)).getD false

/-- The route of a pair of dies crosses a failure. -/
def State.cutPair (s : State) (a b : Nat) : Bool := (s.path a b).any s.linkBroken

/-- A pair of dies is stalled: its route crosses a failure, or an end has failed (R45, R389). -/
def State.stalledPair (s : State) (a b : Nat) : Bool := s.cutPair a b || s.lost a || s.lost b

/-- Parent of a node of the barrier tree, which has its root at die 0: the next die west, and from column 0 the next die north (R314). -/
def treeParent (node : Nat) : Nat := if node % 8 = 0 then node - 8 else node - 1

/-- The link between a node of the barrier tree and its parent stands cut (R45). -/
def State.hopCut (s : State) (node : Nat) : Bool :=
  node != 0 && (s.cutPair node (treeParent node) || s.cutPair (treeParent node) node)

/-- A link between a node, at most `fuel` hops from the root, and the root of the barrier tree stands cut. -/
def State.treeCut (s : State) : Nat → Nat → Bool
  | 0, _ => false
  | fuel + 1, node => node != 0 && (s.hopCut node || s.treeCut fuel (treeParent node))

/-! ### Flits (R260, R334) -/

/-- The header of a flit (Table 9.8): CLK, BEAT, KIND (0 OPEN, 1 DATA, 2 FLAG, 3 CLOSE) and TAG. -/
def flitHeader (clk beat kind tag : Nat) : BitVec 64 :=
  BitVec.ofNat 64 (clk % 2 ^ 32 * 2 ^ 32 + beat % 2 ^ 16 * 2 ^ 16 + kind % 16 * 2 ^ 8 + tag % 256)

/-- The CLK field of a write flit (Table 12.2): NDIE and the low bits of the write's sequence number. -/
def clkField (die seq : Nat) : Nat := die % 64 * 2 ^ 26 + seq % 2 ^ 26

/-- The headers of a stream's flit: each link direction of its route has the stream's tag there (R260, R261). -/
def Stream.headers (x : Stream) (clk beat kind : Nat) : List (BitVec 64) := x.tags.map fun t => flitHeader clk beat kind t.2.2

/-- Quarter `q` of a clock as an OPEN flit carries it: entries 16·q to 16·q + 15, the first lowest (R334). -/
def clockQuarter (c : AMap Nat) (q : Nat) : BitVec 512 :=
  BitVec.ofNat 512 ((List.range 16).map fun i => AMap.getD c (16 * q + i) 0 % 2 ^ 32 * 2 ^ (32 * i)).sum

/-- The clock of a die. -/
def State.clockOf (s : State) (die : Nat) : AMap Nat := ((s.die? die).map (·.clock)).getD []

/-- Quarters of the source's clock of which an entry other than its own has risen since the stream last carried it (R334). -/
def State.risen (s : State) (x : Stream) : List Nat :=
  (List.range 4).filter fun q => (s.clockOf x.src).any fun e =>
    e.1 / 16 == q && e.1 != x.src && AMap.getD x.carried e.1 0 != e.2

/-- The stream is set up and has carried the clock: a write flit may follow (R334). -/
def State.streamReady (s : State) (x : Stream) : Bool := x.opened && x.due == [] && s.risen x == []

/-- Replace a stream. -/
def State.updStream (s : State) (id : Nat) (f : Stream → Stream) : State :=
  { s with streams := s.streams.map fun (x : Stream) => if x.id = id then f x else x }

/-- A stream is the item stream of a die pair: one that is closing carries nothing more (R334). -/
def Stream.forItems (x : Stream) (src dst : Nat) : Bool := x.cmd == 0 && x.src == src && x.dst == dst && !x.closing

/-- The item stream of a die pair is used: it is opened on first use and keeps the time of its last traffic (R334). -/
def State.itemStream (s : State) (src dst : Nat) : State :=
  if s.streams.any (·.forItems src dst) then
    { s with streams := s.streams.map fun (st : Stream) => if st.forItems src dst then { st with idle := s.gtime } else st }
  else
    { s with
      streams := s.streams ++
        [{ id := s.next, cmd := 0, src := src, dst := dst, links := s.path src dst, since := s.next, idle := s.gtime }]
      next := s.next + 1 }

/-- The item stream of a pair may carry a write. -/
def State.itemStreamOpen (s : State) (src dst : Nat) : Bool :=
  s.streams.any fun st => st.forItems src dst && s.streamReady st

/-- A write leaves on the item stream of its dies: a DATA flit with its sequence number (R334, Table 12.2). -/
def State.itemFlit (s : State) (src dst seq v : Nat) : State :=
  { s with streams := s.streams.map fun (x : Stream) =>
      if x.forItems src dst then
        { x with sent := some { headers := x.headers (clkField src seq) x.beat 1, body := .data [v] }, beat := (x.beat + 1) % 65536 }
      else x }

end Sys2Proof.Machine
end

