-- ==== Sys2Proof/Machine/Requests.lean ====
section
/-! DEFINITION. Requests: what an engine, a unit, a dispatcher, a page walk or an instruction fetch asks of the store banks and of
device memory before it acts: a request for each granule of a store, at the requesters of R221, and for each 64-byte span of device
memory, as a packet (spec 08 R221, spec 09 R244-R247; log 85). -/

namespace Sys2Proof.Machine

/-! ### Where bytes are -/

/-- A location lies in device memory. -/
def isDevice (l : Nat) : Bool := decide (l < 2 ^ 48)

/-- Die at whose bank or stack an access acts. -/
def locHome (die loc : Nat) : Nat :=
  if isStoreLoc loc then locDie loc else if loc < 2 ^ 52 ∧ ¬ paHost loc then paDie loc else die

/-- The die that holds the byte at a location: for host memory the bridge die of its port (R260). -/
def holder (die loc : Nat) : Nat :=
  if loc < 2 ^ 52 ∧ paHost loc then bridgeDie (decide (2 ≤ hostPort loc)) else locHome die loc

/-- A die's cache holds the line of a location (R232). -/
def State.cached (s : State) (die loc : Nat) : Bool :=
  ((s.die? die).map fun d => d.lines.any fun x => x.line == loc / 128).getD false

/-! ### The die cache (R232, R233) -/

/-- Touch a line of a die's cache: lines stand in order from least to most recently used; `dirty` marks a store, `cp` is
the policy. At most 4 lines of a set are exempt; a full set gives up its least recently used line, for a stream or default
allocation one that is not exempt. -/
def Die.touch (d : Die) (loc : Nat) (dirty : Bool) (cp : Nat) : Die :=
  let line := loc / 128
  let set := line % 8192
  let mine := d.lines.filter fun x => x.line % 8192 == set
  let keep := cp == 2 && decide ((mine.filter (·.keep)).length < 4)
  match d.lines.find? fun x => x.line == line with
  | some x =>
    let rest := d.lines.filter fun y => y.line != line
    { d with lines := rest ++ [{ x with dirty := x.dirty || dirty, keep := x.keep || keep }] }
  | none =>
    if cp = 3 then d
    else
      let ways := (List.range 16).filter fun w => !d.waysOff.getLsbD (w / 4)
      let put (way : Nat) (ls : List CLine) : List CLine :=
        let x : CLine := { line := line, way := way, dirty := dirty, keep := keep }
        if cp = 1 then x :: ls else ls ++ [x]
      match ways.find? fun w => !mine.any fun x => x.way == w with
      | some w => { d with lines := put w d.lines }
      | none =>
        match mine.find? fun x => cp == 2 || !x.keep with
        | some v => { d with lines := put v.way (d.lines.filter fun y => y.line != v.line) }
        | none => d

/-- An access through the die cache of its die. -/
def State.cacheTouch (s : State) (die loc : Nat) (dirty : Bool) (cp : Nat) : State :=
  if loc < 2 ^ 52 then s.updDie die fun d => d.touch loc dirty cp else s

/-- A die's engine or unit reads or writes bytes at locations through the die cache (R232, R263). -/
def State.unitTouch (s : State) (die cp : Nat) (dirty : Bool) (ls : List Nat) : State :=
  ((ls.map (· / 128 * 128)).dedup).foldl (fun (s : State) l => s.cacheTouch die l dirty cp) s

/-! ### Tags (R244) -/

/-- In place of a tag: a packet that waits for one, since 4096 are outstanding (R244). -/
def noTag : Nat := 4096

/-- Die whose bank or base die a request goes to. -/
def UnitReq.home (r : UnitReq) : Nat := locHome r.die r.loc

/-- A packet of an access is outstanding at its base die: it carries a tag. -/
def Access.tagged (a : Access) : Bool :=
  a.phase == .toHbm || a.phase == .hbmDone || (a.phase == .remoteWrite && a.started)

/-- Tags of the outstanding packets of a die. -/
def State.tags (s : State) (die : Nat) : List Nat :=
  ((s.accs.filter fun a => a.home == die && a.tagged).map (·.tag)) ++
    (s.reqs.filter fun r => r.home == die && isDevice r.loc && r.started && !r.done).map (·.tag)

/-- The lowest of the 4096 tags that no outstanding packet of a die carries (R244). -/
def State.freeTag (s : State) (die : Nat) : Nat :=
  let used := s.tags die
  ((List.range (Nat.min noTag (used.length + 1))).find? fun t => !used.contains t).getD noTag

/-- Kind of the packet of a request (Table 9.2): RD64, or WR64 with the mask of its bytes. -/
def UnitReq.packet (r : UnitReq) : Nat := if r.write then 2 else 0

/-! ### Asking -/

/-- What asks: whose requests they are, the die and cluster it stands at (32: none), its requester number there (R221), and the
context and partition that its packets carry (R246). -/
structure Asker where
  owner : Owner
  die : Nat
  cluster : Nat := 32
  port : Nat := 5
  ctx : Nat := 0
  part : Nat := 0
  cp : Nat := 0
  deriving DecidableEq, Repr

/-- The granule or 64-byte span that a request for the byte at a location names; other memory asks for none. -/
def spanOf (l : Nat) : Option Nat :=
  if isStoreLoc l then some (l / 16 * 16) else if isDevice l then some (l / 64 * 64) else none

/-- The granules and spans of bytes at locations. -/
def spansOf (ls : List Nat) : List Nat := (ls.filterMap spanOf).dedup

/-- The requester of a cluster's banks through which a location's request comes: the asker's own, or the mesh port from another
cluster or die (R221). A die's engines stand at every cluster of it. -/
def Asker.portAt (q : Asker) (l : Nat) : Nat :=
  if q.die = locDie l ∧ (q.cluster = 32 ∨ q.cluster = locCluster l) then q.port else 7

/-- One more request. -/
def State.addReq (s : State) (q : Asker) (write : Bool) (l : Nat) : State :=
  { s with
    reqs := s.reqs ++
      [{ id := s.next, owner := q.owner, die := q.die, port := q.portAt l, loc := l, write := write, ctx := q.ctx, part := q.part }]
    next := s.next + 1 }

/-- A request of an owner for a span, done or not. -/
def State.asked (s : State) (o : Owner) (write : Bool) (l : Nat) : Bool :=
  s.reqs.any fun r => r.owner == o && r.write == write && r.loc == l

/-- Every request of an owner for these spans has been performed. -/
def State.answered (s : State) (o : Owner) (write : Bool) (ls : List Nat) : Bool :=
  ls.all fun l => s.reqs.any fun r => r.owner == o && r.write == write && r.loc == l && r.done

/-- The requests of an owner are over. -/
def State.endReqs (s : State) (o : Owner) : State := { s with reqs := s.reqs.filter fun r => r.owner ≠ o }

/-- Ask for spans to read and spans to write that have not been asked for. -/
def State.askSpans (s : State) (q : Asker) (rs ws : List Nat) : State :=
  let s := (rs.filter fun l => !s.asked q.owner false l).foldl (fun (s : State) l => s.addReq q false l) s
  (ws.filter fun l => !s.asked q.owner true l).foldl (fun (s : State) l => s.addReq q true l) s

/-- The bytes at some locations may be read, and those at others written, once every request for them has been performed; the first
call makes the requests. -/
def State.askFor (s : State) (q : Asker) (reads writes : List Nat) : State × Bool :=
  let rs := spansOf reads
  let ws := spansOf writes
  if s.answered q.owner false rs && s.answered q.owner true ws then (s.endReqs q.owner, true) else (s.askSpans q rs ws, false)

/-- As `askFor`, for what goes through the die cache (R232). -/
def State.ask (s : State) (q : Asker) (reads writes : List Nat) : State × Bool :=
  match s.askFor q reads writes with
  | (s, true) => ((s.unitTouch q.die q.cp false reads).unitTouch q.die q.cp true writes, true)
  | r => r

/-- What an owner of requests does is still to come. -/
def State.ownerLives (s : State) : Owner → Bool
  | .walk id => s.walks.any (·.id == id)
  | .fetch g _ | .block g | .box g | .append g => s.groups.any (·.id == g)
  | .copy c | .status c | .gives c | .takes c =>
    s.active.any (·.cmd.id == c) || s.colls.any (·.cmd.id == c) || s.groups.any fun g => g.engq.any (·.id == c)
  | .payload x => s.streams.any (·.id == x)
  | .ray a => s.accs.any (·.id == a)
  | .matrix stamp => s.groups.any fun g => g.matq.any (·.stamp == stamp)
  | .colour l .. | .depth l .. | .release l => s.launches.any fun (x : Launch) => x.id == l && (match x.phase with | .ending _ => false | _ => true)
  | .complete l => s.launches.any (·.id == l)
  | .admission .. => true

/-- Requests of what has been given up are dropped. -/
def State.pruneReqs (s : State) : State := { s with reqs := s.reqs.filter fun r => s.ownerLives r.owner }

/-- The request waits for the base die to start its packet. -/
def State.reqWaits (s : State) (r : UnitReq) : Bool :=
  isDevice r.loc && !r.started && !r.done && decide (s.freeTag r.home < noTag) && !(r.die != r.home && s.stalledPair r.die r.home)

/-- Replace a request. -/
def State.updReq (s : State) (id : Nat) (f : UnitReq → UnitReq) : State :=
  { s with reqs := s.reqs.map fun (r : UnitReq) => if r.id = id then f r else r }

end Sys2Proof.Machine
end

