-- ==== Sys2Proof/Machine/Translation.lean ====
section
/-! DEFINITION. Translation: windows, page tables, page attributes, host-link windows, TLBs and walks (spec 08
R216-R218, spec 09 R243-R255, spec 15 R380-R383), and fetching the words of a sequence (R59-R62, R113). -/

namespace Sys2Proof.Machine

/-- Bytes [a, a + n) meet an uncorrectable error (R224, R245): a 64-byte span of device memory, a granule of a store. -/
def State.poisoned (s : State) (a n : Nat) : Bool :=
  s.poison.any fun p => decide (p < a + n) && decide (a < p + (if isStoreLoc p then 16 else 64))

/-- The management controller learns of an uncorrectable error of device memory: the 64 KiB page that holds it (R245, R392). -/
def State.noteError (s : State) (loc : Nat) : State :=
  match (if loc < 2 ^ 48 then s.die? (paDie loc) else none) with
  | some d => s.updPkg fun p => { p with badPages := p.badPages ++ [(9 * d.py + d.px, loc % 2 ^ 36 / 65536 * 65536)] }
  | none => s

/-- Location of the lens table's page, outside every other key space (R46). -/
def lensLoc : Nat := 2 ^ 63

/-! ### Partitions (R47) -/

/-- The dies of a partition that exist in the mesh, ascending; none where the record is undefined or acts as V = 0. -/
def State.partDies (s : State) (c : Context) (n : Nat) : Option (List Nat) :=
  match AMap.get? c.parts n with
  | none => none
  | some p =>
    if p.valid && p.dmask.getLsbD p.home && (s.die? p.home).isSome then
      some ((List.range 64).filter fun d => p.dmask.getLsbD d && (s.die? d).isSome)
    else none

/-! ### Page tables (R248, R249) -/

/-- Lowest VA bit and index bits of a level (Table 9.4). -/
def levelBits : Nat → Nat × Nat
  | 0 => (48, 8) | 1 => (39, 9) | 2 => (30, 9) | 3 => (21, 9) | _ => (16, 5)

/-- Bytes a leaf at a level maps. -/
def pageSize (level : Nat) : Nat := 2 ^ (levelBits level).1

/-- ADDR of an entry (Table 9.5). -/
def pteAddr (e : Nat) : Nat := e / 256 % 2 ^ 44 * 256
def pteAttr (e : Nat) : Nat := bits e 5 4
def ptePart (e : Nat) : Nat := bits e 63 60

/-- A leaf entry breaks R249 or R250. -/
def leafMalformed (level e : Nat) : Bool :=
  let a := pteAddr e
  let at' := pteAttr e
  let region := bits a 51 48
  bits e 59 52 != 0 || bits e 7 6 != 0 || a % pageSize level != 0 ||
    (ptePart e != 0 && (at' == 0 || at' == 3)) ||
    (match at' with | 0 => false | 3 => region != 8 | _ => region != 0)

/-- A non-leaf entry breaks R249: only V and ADDR may be set, and ADDR is aligned to the next table. -/
def tableMalformed (level e : Nat) : Bool :=
  e != pteAddr e + e % 2 || pteAddr e % (8 * 2 ^ (levelBits (level + 1)).2) != 0

/-- What a walk finds: a leaf, or a cause of Table 9.6 (R254). -/
inductive WalkRes where
  | leaf (level : Nat) (pte : Nat)
  | cause (c : Nat)
  deriving DecidableEq, Repr

/-- Walk from a table at `level`, with `fuel` levels left (R248, R254). -/
def State.walkFrom (s : State) (va : Nat) : Nat → Nat → Nat → WalkRes
  | 0, _, _ => .cause 0
  | fuel + 1, level, tbl =>
    let (sh, nb) := levelBits level
    let a := tbl + 8 * (va / 2 ^ sh % 2 ^ nb)
    if paHost a || !paOk a || s.poisoned a 8 then .cause 4
    else
      let e := s.rd a 8
      if e % 2 = 0 then .cause 0
      else if e / 2 % 2 = 1 then
        (if level < 2 || leafMalformed level e then .cause 4 else .leaf level e)
      else if level = 4 then .cause 0
      else if tableMalformed level e then .cause 4
      else s.walkFrom va fuel (level + 1) (pteAddr e)

/-- Kind of an effective address. -/
inductive Win where
  | gang
  | sram
  | translated
  deriving DecidableEq, Repr

/-- The window of an effective address (R216). -/
def winOf (ea : Nat) : Win :=
  match bits ea 55 48 with
  | 0xFD => .gang | 0xFE => .sram | _ => .translated

/-- Walk the tables of a context (R248). A window address is never walked; where only a translated address can be meant the spec
gives one no outcome, and it acts as an entry with V = 0 (DESIGN CHOICE, log 81). -/
def State.walk (s : State) (ctx va : Nat) : WalkRes :=
  match s.ctx? ctx with
  | none => .cause 0
  | some c => if winOf va = .translated then s.walkFrom va 5 0 c.root else .cause 0

/-- The entry of a walk that meets an uncorrectable error (R245, R254). -/
def State.poisonedEntry (s : State) (va : Nat) : Nat → Nat → Nat → Option Nat
  | 0, _, _ => none
  | fuel + 1, level, tbl =>
    let a := tbl + 8 * (va / 2 ^ (levelBits level).1 % 2 ^ (levelBits level).2)
    let e := s.rd a 8
    if paHost a || !paOk a then none
    else if s.poisoned a 8 then some a
    else if e % 2 = 0 ∨ e / 2 % 2 = 1 ∨ level = 4 ∨ tableMalformed level e then none
    else s.poisonedEntry va fuel (level + 1) (pteAddr e)

/-- The management controller learns of a page-table entry that a walk could not read (R245). -/
def State.noteWalk (s : State) (ctx va : Nat) : State :=
  match (s.ctx? ctx).bind fun c => if winOf va = .translated then s.poisonedEntry va 5 0 c.root else none with
  | some a => s.noteError a
  | none => s

/-! ### Using a leaf (R250-R254) -/

/-- How an address is used. -/
inductive Use where
  | read
  | write
  | fetch
  deriving DecidableEq, Repr

/-- The host-link window that allows an access, as its target (R381, R383). -/
def State.hostWindow (s : State) (ctx pa : Nat) (write : Bool) : Option Nat :=
  let u := bits pa 47 16
  ((s.pkg.windows.find? fun w =>
      w.2.valid && decide (w.2.tgt ≤ 8) && w.2.ctx == ctx && decide (w.2.base ≤ u) && decide (u ≤ w.2.limit) &&
        (!write || w.2.w)).map (·.2.tgt)).bind fun t =>
    if write && decide (0 < t) && !s.pkg.peers.contains (t - 1) then none else some t

/-- The result of a translation. -/
inductive Xl where
  /-- physical address or lens location, and target of the host-link window (0 the host) -/
  | ok (pa tgt : Nat)
  | fault (cause : Nat)
  /-- no translation is held: a walk is needed -/
  | wait
  deriving DecidableEq, Repr

/-- Key of a `repl` page in its home's replica directory: its offset B. -/
def replKey (pte : Nat) : Nat := pteAddr pte % 2 ^ 42

/-- The page's entry at its home is in the replicated state (R252). -/
def State.replicated (s : State) (pte : Nat) : Bool :=
  match s.die? (bits (pteAddr pte) 47 42) with
  | some d => d.replicas.contains (replKey pte)
  | none => false

/-- The physical address a leaf gives a die for a use, or cause 4 (R250-R252). -/
def State.leafAddr (s : State) (ctx die level pte va : Nat) (use : Use) : Option Nat :=
  let a := pteAddr pte
  let off := va % pageSize level
  match pteAttr pte with
  | 1 =>
    match (s.ctx? ctx).bind fun c => s.partDies c (ptePart pte) with
    | none => none
    | some [] => none
    | some ds =>
      let q := off / 4096
      let h := (q + q / ds.length) % ds.length
      some (ds.getD h 0 * 2 ^ 42 + a % 2 ^ 42 + 4096 * (q / ds.length) + va % 4096)
  | 2 =>
    match (s.ctx? ctx).bind fun c => s.partDies c (ptePart pte) with
    | none => none
    | some [] => none
    | some ds =>
      if use ≠ .write && ds.contains die && s.replicated pte then some (die * 2 ^ 42 + a % 2 ^ 42 + off)
      else some (a + off)
  | _ => some (a + off)

/-- Use a leaf: causes 4, 2, 1, 3 in this order (R254). -/
def State.useLeaf (s : State) (ctx die level pte va : Nat) (use : Use) : Xl :=
  match s.leafAddr ctx die level pte va use with
  | none => .fault 4
  | some pa =>
    if leafMalformed level pte || !paOk pa then .fault 4
    else if use = .fetch && !bit pte 3 then .fault 2
    else if use = .write && !bit pte 2 then .fault 1
    else if paHost pa then
      match s.hostWindow ctx pa (use == .write) with
      | none => .fault 3
      | some t => .ok pa t
    else .ok pa 0

/-- A TLB entry holds a virtual address of a context. -/
def TlbE.hits (e : TlbE) (ctx va : Nat) : Bool :=
  e.ctx == ctx && e.va / pageSize e.level == va / pageSize e.level

/-- The number that stands for a cluster in the walks of a die's own engines, dispatcher and units. -/
def dieUnits : Nat := 32

/-- The entry held for an address: the cluster TLB, then the die TLB (R253). -/
def State.tlbLookup (s : State) (die cl ctx va : Nat) : Option TlbE :=
  match (if cl < dieUnits then (s.cluster die cl).tlb.find? (·.hits ctx va) else none) with
  | some e => some e
  | none => ((s.die? die).map (·.tlb)).getD [] |>.find? (·.hits ctx va)

/-- The finished walk of a requester for an address. -/
def State.walkDone (s : State) (die cl ctx va : Nat) : Option Walk :=
  s.walks.find? fun w => w.die == die && w.cluster == cl && w.ctx == ctx && w.vpn == va / 65536 &&
    (match w.phase with | .done .. => true | _ => false)

/-- What a requester holds for an address: the entry of a TLB, or the result of its walk, which need not have been installed (R253,
R255). -/
def State.held (s : State) (die cl ctx va : Nat) : Option WalkRes :=
  match s.tlbLookup die cl ctx va with
  | some e => some (.leaf e.level e.pte.toNat)
  | none =>
    (s.walkDone die cl ctx va).bind fun (w : Walk) =>
      match w.phase with
      | .done (some (_, level, pte)) _ => some (.leaf level pte.toNat)
      | .done none cause => some (.cause cause)
      | _ => none

/-- Translate by what a walk found: the page of the lens table has an entry of its own in every context (R46). -/
def State.xlateBy (s : State) (die ctx va : Nat) (use : Use) (r : Option WalkRes) : Xl :=
  match s.ctx? ctx with
  | none => .fault 0
  | some c =>
    if c.lens ≠ 0 ∧ va / 65536 = c.lens / 65536 then
      match use with
      | .read => .ok (lensLoc + va % 65536) 0
      | .write => .fault 1
      | .fetch => .fault 2
    else
      match r with
      | some (.leaf level pte) => s.useLeaf ctx die level pte va use
      | some (.cause k) => .fault k
      | none => .wait

/-- Translate an address for an access made by a cluster of a die in a context (R253, R254). -/
def State.xlate (s : State) (die cl ctx va : Nat) (use : Use) : Xl := s.xlateBy die ctx va use (s.held die cl ctx va)

/-- Ask for a walk, unless the requester has one (R253): for a context and the partition of the requester (R246). Its leaf is installed
in the TLBs unless `install` says not to (R271). -/
def State.requestWalk (s : State) (die cl ctx va : Nat) (part : Nat := 0) (install : Bool := true) : State :=
  let mine (w : Walk) : Bool := w.die == die && w.cluster == cl && w.ctx == ctx && w.vpn == va / 65536
  if s.walks.any mine then
    { s with walks := s.walks.map fun (w : Walk) => if mine w ∧ install then { w with install := true } else w }
  else { s with
    walks := s.walks ++ [{ id := s.next, die := die, cluster := cl, ctx := ctx, part := part, vpn := va / 65536, install := install }]
    next := s.next + 1 }

/-- Drop the finished walks of a requester: their results have been used (R253: a failed walk is not cached). -/
def State.consumeWalks (s : State) (die cl ctx : Nat) : State :=
  { s with walks := s.walks.filter fun w => !(w.die == die && w.cluster == cl && w.ctx == ctx &&
      (match w.phase with | .done .. => true | _ => false)) }

/-- Drop the finished walks of a die's units for some addresses. -/
def State.useWalks (s : State) (die ctx : Nat) (vas : List Nat) : State :=
  { s with walks := s.walks.filter fun w => !(w.die == die && w.cluster == dieUnits && w.ctx == ctx &&
      vas.any (fun va => w.vpn == va / 65536) && (match w.phase with | .done .. => true | _ => false)) }

/-- A die's engines and units hold what an address of a context translates to: it needs no walk, or its walk has ended (R253). -/
def State.translated (s : State) (die ctx va : Nat) : Bool :=
  match s.ctx? ctx with
  | none => true
  | some c => (c.lens != 0 && va / 65536 == c.lens / 65536) || winOf va != .translated || (s.held die dieUnits ctx va).isSome

/-- What a die's units hold for an address; a step that `translated` does not gate reads the tables itself (log 85). -/
def State.leafNow (s : State) (die ctx va : Nat) : WalkRes := (s.held die dieUnits ctx va).getD (s.walk ctx va)

/-- Translate within a step of an engine, a dispatcher or a unit of a die (R14, R253, R268). -/
def State.xlateNow (s : State) (die ctx va : Nat) (use : Use) : Xl := s.xlateBy die ctx va use (some (s.leafNow die ctx va))

/-- An access to host memory through a target of a host-link window stands still: its host-link port has failed, its peer port has
failed or is disabled, or the route to the port's bridge die is cut (R45, R380, R383). -/
def State.linkHeld (s : State) (die pa tgt : Nat) : Bool :=
  decide (pa < 2 ^ 52) && paHost pa &&
    (if tgt = 0 then s.pkg.portsFailed.contains (hostPort pa) || s.stalledPair die (holder die pa)
     else s.pkg.peersFailed.contains (tgt - 1) || !s.pkg.peers.contains (tgt - 1) || s.stalledPair die (bridgeDie (decide (5 ≤ tgt))))

/-- Bytes of a peer package's memory, lowest first: each is free (log 16). -/
def peerBytes (draw va : Nat) : Nat → Nat
  | 0 => 0
  | n + 1 => (Config.peerValue draw va).toNat % 256 + 256 * peerBytes draw (va + 1) n

/-- Bytes read at a physical address through a target: those of a peer package are free (log 16). -/
def State.rdTgt (s : State) (tgt pa va n : Nat) : Nat := if tgt = 0 then s.rd pa n else peerBytes s.draw va n

/-- Bytes at a physical address read through a target meet an uncorrectable error; those of a peer package meet none here. -/
def State.badTgt (s : State) (tgt pa n : Nat) : Bool := tgt == 0 && s.poisoned pa n

/-- The error that a read at a virtual address met, if one stands there (R245). -/
def State.noteErrorVa (s : State) (die ctx va : Nat) : State :=
  match s.xlateNow die ctx va .read with
  | .ok pa tgt => if s.badTgt tgt pa 1 then s.noteError pa else s
  | _ => s

/-! ### Windows (R216-R219) -/

/-- Bytes of a store range for a gang's STORE value. -/
def rangeBytes (store : Nat) : Nat := 4096 * ceilDiv store 4096

/-- Bytes [off, off + n) lie in the range of a gang of the context resident on the cluster (R219). -/
def State.inSomeRange (s : State) (die cl ctx off n : Nat) : Bool :=
  s.gangs.any fun g => g.die == die && g.cluster == cl && g.saved.isNone && g.size != 0 &&
    (match s.launch? g.launch with | some l => l.ctx == ctx | none => false) &&
    decide (g.start ≤ off) && decide (off + n ≤ g.start + g.size)

/-- The store location a window address of a gang names, or an address fault of cause 0 (R217-R219). -/
def State.windowLoc (s : State) (ga : Gang) (ctx ea n : Nat) : Option Nat :=
  match winOf ea with
  | .gang =>
    let o := bits ea 19 0
    if bits ea 47 20 != 0 || decide (ga.size < o + n) || ga.size == 0 then none
    else some (storeLoc ga.die ga.cluster (ga.start + o))
  | .sram =>
    let die := 8 * bits ea 47 44 + bits ea 43 40
    let cl := bits ea 39 35
    let off := bits ea 19 0
    if bits ea 34 20 != 0 || decide (8 ≤ bits ea 43 40) || (s.die? die).isNone || !s.inSomeRange die cl ctx off n then none
    else some (storeLoc die cl off)
  | .translated => none

/-! ### Fetching a sequence (R59-R62, R113, R253, R351) -/

/-- Code section of the kernel a group runs: base and CODESZ; in handler mode, of the HOBJ object (R113, R349). -/
def State.codeSpan (s : State) (g : Group) : Nat × Nat :=
  if g.inHandler then
    let c := s.groupCtx g
    let h := ((s.ctx? c).map (·.hobj)).getD 0
    match s.xlateNow g.die c (h + 24) .read with
    | .ok pa tgt => (h, s.rdTgt tgt pa (h + 24) 4)
    | _ => (h, 0)
  else
    match s.groupStage? g with
    | some st => (st.kobj, st.codesz)
    | none => (0, 0)

/-- An address lies in a code section (R113). -/
def inCode (sp : Nat × Nat) (a : Nat) : Bool := decide (sp.1 + 64 ≤ a) && decide (a < sp.1 + 64 + sp.2)

/-- Outcome of fetching the words of a sequence. -/
inductive Fetch where
  | ok (ws : List (BitVec 32))
  /-- a word lies outside the code section -/
  | outside (a : Nat)
  /-- a translation fault at an address -/
  | fault (a cause : Nat)
  /-- an uncorrectable error at an address -/
  | poison (a : Nat)
  /-- a walk is needed for an address -/
  | wait (a : Nat)
  /-- the line at a location has still to be read from device memory -/
  | packet (pa : Nat)
  /-- the port it is read through carries no traffic -/
  | held
  deriving DecidableEq, Repr

/-- The bytes at a location can be fetched by a group: its die cache holds their line, or its fetch has read them (R232, R244; log
85). -/
def State.fetched (s : State) (g : Group) (pa : Nat) : Bool :=
  s.cached g.die pa || s.reqs.any fun r =>
    r.done && r.loc == pa / 64 * 64 && (match r.owner with | .fetch grp _ => grp == g.id | _ => false)

/-- A fetch of a group asks for the bytes at a location; what it asked for at another PC is over. -/
def State.askFetch (s : State) (g : Group) (pc pa : Nat) : State :=
  let o := Owner.fetch g.id pc
  { s with reqs := s.reqs.filter fun (r : UnitReq) =>
      r.owner == o || (match r.owner with | .fetch grp _ => grp != g.id | _ => true) }.askSpans
    { owner := o, die := g.die, cluster := g.cluster, port := g.core, ctx := s.groupCtx g
      part := ((s.groupLaunch? g).map fun (l : Launch) => bits l.lpb.toNat 615 612).getD 0 } (spansOf [pa]) []

/-- One word at an address. -/
def State.fetchWord (s : State) (g : Group) (sp : Nat × Nat) (a : Nat) : Fetch :=
  if !inCode sp a then .outside a
  else
    match s.xlate g.die g.cluster (s.groupCtx g) a .fetch with
    | .wait => .wait a
    | .fault c => .fault a c
    | .ok pa tgt =>
      if s.linkHeld g.die pa tgt then .held
      else if isDevice pa && !s.fetched g pa then .packet pa
      else if s.badTgt tgt pa 4 then .poison a
      else .ok [BitVec.ofNat 32 (s.rdTgt tgt pa a 4)]

/-- The words from `a` up to the first word that is no hint, at most `fuel` of them (R61). -/
def State.fetchFrom (s : State) (g : Group) (sp : Nat × Nat) : Nat → Nat → Fetch
  | 0, a => .outside a
  | fuel + 1, a =>
    match s.fetchWord g sp a with
    | .ok [w] =>
      if isHint w then
        match s.fetchFrom g sp fuel (a + 4) with
        | .ok ws => .ok (w :: ws)
        | r => r
      else .ok [w]
    | r => r

/-- The words of the sequence at an address: no run of hints in a code section is longer than the section. -/
def State.fetchSeq (s : State) (g : Group) (a : Nat) : Fetch :=
  let sp := s.codeSpan g
  s.fetchFrom g sp (sp.2 / 4 + 1) a

end Sys2Proof.Machine
end

