-- ==== Sys2Proof/Machine/Work.lean ====
section
/-! DEFINITION. Work: the fields of launch parameter blocks, kernel object headers and dependences, effective stage values,
and the traversal of an index space (spec 01). -/

namespace Sys2Proof.Machine

/-! ### The launch parameter block (Table 1.2) -/

namespace Launch

def field (l : Launch) (hi lo : Nat) : Nat := bits l.lpb.toNat hi lo
def compl (l : Launch) : Nat := l.field 767 704
def arg (l : Launch) : Nat := l.field 703 640
def drawt (l : Launch) : Nat := l.field 639 632
def swz (l : Launch) : Nat := l.field 631 624
def order' (l : Launch) : Nat := l.field 623 622
def deal (l : Launch) : Bool := l.field 621 621 == 1
def isDraw (l : Launch) : Bool := l.field 620 620 == 1
def cores (l : Launch) : Bool := l.field 619 619 == 1
def pin (l : Launch) : Bool := l.field 618 618 == 1
def nstage (l : Launch) : Nat := l.field 617 616 + 1
def part (l : Launch) : Nat := l.field 615 612
def prio (l : Launch) : Nat := l.field 611 609
def dim2 (l : Launch) : Nat := l.field 543 512
def dim1 (l : Launch) : Nat := l.field 511 480
def dim0 (l : Launch) : Nat := l.field 479 448
def kobj (l : Launch) (s : Nat) : Nat := l.field (64 * s + 63) (64 * s)
def dep (l : Launch) (i : Nat) : Nat := l.field (768 + 64 * i + 63) (768 + 64 * i)

/-- Items of stage 0 (R15). -/
def items (l : Launch) : Nat := l.dim0 * l.dim1 * l.dim2

/-- Linear number of a point of the index space (R17). -/
def linear (l : Launch) (c : Nat × Nat × Nat) : Nat := c.1 + l.dim0 * (c.2.1 + l.dim1 * c.2.2)

end Launch

/-! ### Kernel object headers (Table 1.1) -/

/-- Causes 0x02-0x09 that one stage's header raises against its LPB (Table 1.4). `rfpt` says whether the word at REFILL is
an `rfpt`. -/
def headerCauses (l : Launch) (s : Nat) (h : Nat) (rfpt : Bool) : List Nat :=
  let f (hi lo : Nat) : Nat := bits h hi lo
  let entry := f 95 64
  let refill := f 127 96
  let codesz := f 223 192
  let dataoff := f 255 224
  let steady := f 145 140
  let peak := f 151 146
  let groups := f 156 152
  let store := f 180 160
  let span := f 158 157
  let inCode (x : Nat) : Bool := decide (64 ≤ x) && decide (x < 64 + codesz) && x % 4 == 0
  let c2 := f 15 0 != 0x4B4F || f 23 16 != 1
  let c3 := f 511 288 != 0 || f 191 181 != 0 || f 63 24 != 0
  let c4 := !inCode entry || (refill != 0 && !inCode refill) || codesz % 4 != 0 || codesz == 0 ||
    dataoff % 16 != 0 || decide (dataoff < 64 + codesz)
  let lsteady := l.field 601 596
  let lpeak := l.field 595 590
  let lstore := l.field 564 544
  let lgroups := l.field 606 602
  let lspan := l.field 608 607
  let esteady := if lsteady = 0 then steady else lsteady
  let epeak := if lpeak = 0 then peak else lpeak
  let c6 := (refill != 0 && (f 133 128 == 0 || decide (32 < f 133 128))) || steady == 0 || decide (32 < steady) ||
    decide (32 < peak) || decide (peak < steady) || decide (16 < groups) || decide (0x100000 < store)
  let c7 := (lsteady != 0 && decide (lsteady < steady)) || (lpeak != 0 && decide (lpeak < peak)) ||
    (lstore != 0 && decide (lstore < store)) || (lgroups != 0 && groups != 0 && lgroups != groups) ||
    (lspan != 0 && span != 0 && lspan != span) || decide (epeak < esteady) ||
    (l.isDraw && s == 1 && decide (esteady < 3))
  codeIf c2 2 ++ codeIf c3 3 ++ codeIf c4 4 ++
    codeIf (!c2 && !c3 && !c4 && refill != 0 && !rfpt) 5 ++ codeIf c6 6 ++ codeIf c7 7 ++
    codeIf (f 139 138 != s) 8 ++ codeIf (f 159 159 == 1 && !l.cores) 9

/-- Causes an LPB raises by itself (Table 1.4), translation and headers apart; `partOk` says PART is a partition. -/
def lpbCauses (l : Launch) (partOk : Bool) : List Nat :=
  let n := l.nstage
  let c3 := l.field 589 565 != 0 || l.field 447 256 != 0 || (List.range 4).any fun i => bits (l.dep i) 57 48 != 0
  let steady := l.field 601 596
  let peak := l.field 595 590
  let c6 := decide (32 < steady) || decide (32 < peak) || decide (16 < l.field 606 602) ||
    decide (0x100000 < l.field 564 544) || (steady != 0 && peak != 0 && decide (peak < steady))
  let c8 := ((List.range 4).any fun s => if s < n then l.kobj s == 0 || l.kobj s % 256 != 0 else l.kobj s != 0) ||
    (l.isDraw && n != 2)
  let c11 := decide (2 ^ 48 < l.items) || (l.swz != 0 && decide (2 ≤ l.order'))
  codeIf c3 3 ++ codeIf c6 6 ++ codeIf c8 8 ++ codeIf (!partOk) 10 ++ codeIf c11 11

/-- The effective values of a stage (R13). -/
def mkStage (l : Launch) (s : Nat) (h : Nat) : Stage :=
  let pick (lp k : Nat) : Nat := if lp = 0 then k else lp
  let groups := pick (l.field 606 602) (bits h 156 152)
  let span := pick (l.field 608 607) (bits h 158 157)
  { kobj := l.kobj s, entry := bits h 95 64, refill := bits h 127 96, thresh := bits h 133 128, rpri := bits h 137 134
    codesz := bits h 223 192, steady := pick (l.field 601 596) (bits h 145 140)
    peak := pick (l.field 595 590) (bits h 151 146), store := pick (l.field 564 544) (bits h 180 160)
    groups := if groups = 0 then 1 else groups
    span := match span with | 2 => 2 | 3 => 4 | _ => 1 }

/-! ### Traversal (R16) -/

/-- The point at a position of one plane of a strip order of width `w` over extents `d0`, `d1`: the fast and the slow
coordinate. -/
def stripPoint (w d0 d1 p : Nat) : Nat × Nat :=
  let q := p / (w * d1)
  let r := p % (w * d1)
  let wq := Nat.min w (d0 - q * w)
  (q * w + r % wq, r / wq)

/-- Points of the square [x, x+n) × [y, y+n) inside the extents. -/
def inside (d0 d1 x y n : Nat) : Nat := Nat.min n (d0 - x) * Nat.min n (d1 - y)

/-- The point of a quadtree order at a position among the points inside the extents: `k` levels left, the square's origin,
and whether its local frame is flipped and swapped (Morton: never; Hilbert: by R16). -/
def quadPoint (hilbert : Bool) (d0 d1 : Nat) : Nat → Nat → Nat → Bool → Bool → Nat → Nat × Nat
  | 0, ox, oy, _, _, _ => (ox, oy)
  | k + 1, ox, oy, fl, sw, p =>
    let n := 2 ^ k
    let quad (g : Nat) : Nat × Nat × Bool × Bool :=
      let rx := if hilbert then g / 2 else g % 2
      let ry := if hilbert then (g % 2 + rx) % 2 else g / 2
      let fx := if fl then 1 - rx else rx
      let fy := if fl then 1 - ry else ry
      let (qx, qy) := if sw then (fy, fx) else (fx, fy)
      (ox + n * qx, oy + n * qy, fl ^^ (hilbert && ry == 0 && rx == 1), sw ^^ (hilbert && ry == 0))
    let q0 := quad 0
    let q1 := quad 1
    let q2 := quad 2
    let q3 := quad 3
    let c0 := inside d0 d1 q0.1 q0.2.1 n
    let c1 := inside d0 d1 q1.1 q1.2.1 n
    let c2 := inside d0 d1 q2.1 q2.2.1 n
    if p < c0 then quadPoint hilbert d0 d1 k q0.1 q0.2.1 q0.2.2.1 q0.2.2.2 p
    else if p < c0 + c1 then quadPoint hilbert d0 d1 k q1.1 q1.2.1 q1.2.2.1 q1.2.2.2 (p - c0)
    else if p < c0 + c1 + c2 then quadPoint hilbert d0 d1 k q2.1 q2.2.1 q2.2.2.1 q2.2.2.2 (p - c0 - c1)
    else quadPoint hilbert d0 d1 k q3.1 q3.2.1 q3.2.2.1 q3.2.2.2 (p - c0 - c1 - c2)

/-- Least k with 2^k ≥ n. -/
def log2Up (n : Nat) : Nat := if n ≤ 1 then 0 else Nat.log2 (n - 1) + 1

/-- The coordinates of the item at a position of a launch's traversal (R16). -/
def Launch.point (l : Launch) (p : Nat) : Nat × Nat × Nat :=
  let plane := l.dim0 * l.dim1
  let i2 := p / plane
  let r := p % plane
  let width (d : Nat) : Nat := if l.swz = 0 then d else l.swz + 1
  match l.order' with
  | 0 => let (a, b) := stripPoint (width l.dim0) l.dim0 l.dim1 r; (a, b, i2)
  | 1 => let (a, b) := stripPoint (width l.dim1) l.dim1 l.dim0 r; (b, a, i2)
  | o =>
    let k := log2Up (Nat.max l.dim0 l.dim1)
    let (a, b) := quadPoint (o == 3) l.dim0 l.dim1 k 0 0 false false r
    (a, b, i2)

/-- The fresh stage-0 item at a position (R17). -/
def Launch.itemAt (l : Launch) (p : Nat) : Item :=
  let c := l.point p
  { item0 := BitVec.ofNat 32 c.1, item1 := BitVec.ofNat 32 c.2.1, item2 := BitVec.ofNat 32 c.2.2
    itemid := BitVec.ofNat 48 (l.linear c), stage := 0, tgseq := p }

/-! ### Stocks (R36, R37) -/

/-- Number of fresh items of a stock. -/
def Stock.count (k : Stock) : Nat := (k.ranges.map (·.2)).sum + k.items.length

/-- The stock of a die and stage. -/
def Launch.stock (l : Launch) (die stage : Nat) : Stock :=
  (l.stocks.find? fun k => k.die == die && k.stage == stage).getD { die := die, stage := stage }

/-- Update the stock of a die and stage. -/
def Launch.updStock (l : Launch) (die stage : Nat) (f : Stock → Stock) : Launch :=
  if l.stocks.any fun k => k.die == die && k.stage == stage then
    { l with stocks := l.stocks.map fun k => if k.die = die ∧ k.stage = stage then f k else k }
  else { l with stocks := l.stocks ++ [f { die := die, stage := stage }] }

/-- The render state of a die. -/
def Launch.focus (l : Launch) (die : Nat) : Focus := (l.draw.find? (·.die == die)).getD { die := die }

/-- Update the render state of a die. -/
def Launch.updFocus (l : Launch) (die : Nat) (f : Focus → Focus) : Launch :=
  if l.draw.any (·.die == die) then { l with draw := l.draw.map fun (x : Focus) => if x.die = die then f x else x }
  else { l with draw := l.draw ++ [f { die := die }] }

/-- Task groups of a draw are dealt to a die (R279). -/
def Launch.dealtTo (l : Launch) (die : Nat) (rs : List (Nat × Nat)) : Launch :=
  if l.isDraw then l.updFocus die fun f => { f with dealt := f.dealt ++ rs } else l

/-- A die's arrival at the package barrier is withdrawn, and the tree gathers anew (R314, R363). -/
def Launch.withdrawn (l : Launch) (die : Nat) : Launch :=
  if l.arrived.contains die then { l with arrived := l.arrived.filter (· ≠ die), treeAt := [] } else l

/-- The launch is released and still runs. -/
def Launch.live (l : Launch) : Bool := l.phase == .released

end Sys2Proof.Machine
end

