-- ==== Sys2Proof/Machine/Issue.lean ====
section
/-! DEFINITION. Issue: the parts of issuing a sequence that every instruction shares (spec 04, spec 13): finding the
issuing entry, legality, handler-mode limits, pending registers, registers and the surge pool, completing the sequence,
and the lane runner of the register forms. -/

namespace Sys2Proof

open Machine

/-- Operands of a register form, and of `cvt` (R66, R173). -/
def Instr.alu : Instr → Option Alu
  | .nop _ => some { nw := true }
  | .cvt _ f => some { d := f.d.toNat, a := some f.a }
  | .add _ f => some f.alu
  | .addI _ f => some f.alu
  | .sub _ f => some f.alu
  | .mul _ f => some f.alu
  | .mulh _ f => some f.alu
  | .mad _ f => some f.alu
  | .min _ f => some f.alu
  | .max _ f => some f.alu
  | .abs _ f => some f.alu
  | .neg _ f => some f.alu
  | .adds _ f => some f.alu
  | .subs _ f => some f.alu
  | .sad _ f => some f.alu
  | .and_ _ f => some f.alu
  | .andI _ f => some f.alu
  | .or_ _ f => some f.alu
  | .orI _ f => some f.alu
  | .xor_ _ f => some f.alu
  | .xorI _ f => some f.alu
  | .andn _ f => some f.alu
  | .not_ _ f => some f.alu
  | .shl _ f => some f.alu
  | .shlI _ f => some f.alu
  | .shr _ f => some f.alu
  | .shrI _ f => some f.alu
  | .sar _ f => some f.alu
  | .sarI _ f => some f.alu
  | .rot _ f => some f.alu
  | .rotI _ f => some f.alu
  | .clz _ f => some f.alu
  | .popc _ f => some f.alu
  | .brev _ f => some f.alu
  | .bfe _ f => some f.alu
  | .bfi _ f => some f.alu
  | .prmt _ f => some f.alu
  | .ext _ f => some f.alu
  | .sel _ f => some f.alu
  | .cmp _ f => some f.alu
  | .cmpI _ f => some f.alu
  | .mov _ f => some f.alu
  | .movi _ f => some f.alu
  | .lea _ f => some f.alu
  | .leaI _ f => some f.alu
  | .fadd _ f => some f.alu
  | .fsub _ f => some f.alu
  | .fmul _ f => some f.alu
  | .ffma _ f => some f.alu
  | .fmin _ f => some f.alu
  | .fmax _ f => some f.alu
  | .fminm _ f => some f.alu
  | .fmaxm _ f => some f.alu
  | .fcmp _ f => some f.alu
  | .fclass _ f => some f.alu
  | .frnd _ f => some f.alu
  | .fscale _ f => some f.alu
  | .frcp _ f => some f.alu
  | .frsq _ f => some f.alu
  | .fsqrt _ f => some f.alu
  | .fdivf _ f => some f.alu
  | .fexp2 _ f => some f.alu
  | .flog2 _ f => some f.alu
  | .fsin _ f => some f.alu
  | .fcos _ f => some f.alu
  | .ftanh _ f => some f.alu
  | .cvtsr _ f => some f.alu
  | .pack _ f => some f.alu
  | .unpack _ f => some f.alu
  | .dot2 _ f => some f.alu
  | .dot4 _ f => some f.alu
  | .dot8 _ f => some f.alu
  | .dots _ f => some f.alu
  | _ => none

/-- What a register form computes in one lane; `nop` and the forms outside chains compute nothing. -/
def Instr.lane : Instr → LaneOp → LaneOut
  | .add _ _ => laneAdd
  | .addI _ _ => laneAdd
  | .sub _ _ => laneSub
  | .mul _ _ => laneMul
  | .mulh _ _ => laneMulh
  | .mad _ _ => laneMad
  | .min _ _ => laneMin
  | .max _ _ => laneMax
  | .abs _ _ => laneAbs
  | .neg _ _ => laneNeg
  | .adds _ _ => laneAdds
  | .subs _ _ => laneSubs
  | .sad _ _ => laneSad
  | .and_ _ _ => laneAnd
  | .andI _ _ => laneAnd
  | .or_ _ _ => laneOr
  | .orI _ _ => laneOr
  | .xor_ _ _ => laneXor
  | .xorI _ _ => laneXor
  | .andn _ _ => laneAndn
  | .not_ _ _ => laneNot
  | .shl _ _ => laneShl
  | .shlI _ _ => laneShl
  | .shr _ _ => laneShr
  | .shrI _ _ => laneShr
  | .sar _ _ => laneSar
  | .sarI _ _ => laneSar
  | .rot _ _ => laneRot
  | .rotI _ _ => laneRot
  | .clz _ _ => laneClz
  | .popc _ _ => lanePopc
  | .brev _ _ => laneBrev
  | .bfe _ _ => laneBfe
  | .bfi _ _ => laneBfi
  | .prmt _ _ => lanePrmt
  | .ext _ _ => laneExt
  | .sel _ _ => laneSel
  | .cmp _ _ => laneCmp
  | .cmpI _ _ => laneCmp
  | .mov _ _ => laneMov
  | .movi _ _ => laneMovi
  | .lea _ _ => laneLea
  | .leaI _ _ => laneLea
  | .fadd _ _ => laneFadd
  | .fsub _ _ => laneFsub
  | .fmul _ _ => laneFmul
  | .ffma _ _ => laneFfma
  | .fmin _ _ => laneFmin
  | .fmax _ _ => laneFmax
  | .fminm _ _ => laneFminm
  | .fmaxm _ _ => laneFmaxm
  | .fcmp _ _ => laneFcmp
  | .fclass _ _ => laneFclass
  | .frnd _ _ => laneFrnd
  | .fscale _ _ => laneFscale
  | .frcp _ _ => laneFrcp
  | .frsq _ _ => laneFrsq
  | .fsqrt _ _ => laneFsqrt
  | .fdivf _ _ => laneFdivf
  | .fexp2 _ _ => laneFexp2
  | .flog2 _ _ => laneFlog2
  | .fsin _ _ => laneFsin
  | .fcos _ _ => laneFcos
  | .ftanh _ _ => laneFtanh
  | .cvt _ f => laneCvt f.stype.toNat f.rtz
  | .cvtsr _ _ => laneCvtsr
  | .pack _ _ => lanePack
  | .unpack _ f => laneUnpack (if f.b = .const 1 then 1 else 0)
  | .dot2 _ _ => laneDot
  | .dot4 _ _ => laneDot
  | .dot8 _ _ => laneDot
  | .dots _ _ => laneDots
  | _ => laneNop

/-! ### Registers a sequence names (R101) -/

/-- The 16 or fewer repeat offsets of a stepped field. -/
def spread (on : Bool) (cnt n : Nat) : List Nat := if on then (List.range (cnt + 1)).map (n + ·) else [n]

/-- The handler register of an `hmov` of this class is a vector register (Table 13.9). -/
def FHmov.vector (f : FHmov) : Bool := f.cl.toNat == 0 || f.cl.toNat == 2 || f.cl.toNat == 3

/-- Vector registers a sequence writes, over all repeats. -/
def Instr.vwrites (i : Instr) : List Nat :=
  let cnt := i.head.hints.reps
  let sd := (i.head.hints.rep.map (·.sd)).getD false
  match i with
  | .nop _ => []
  | .cvt _ f => [f.d.toNat]
  | .movpToVector _ f => [f.d.toNat]
  | .movs _ f => if f.sd then [] else [f.d.toNat]
  | .shfl _ f => [f.d.toNat]
  | .vote _ f => if f.op.toNat < 2 then [] else [f.d.toNat]
  | .redg _ f => [f.d.toNat]
  | .scang _ f => [f.d.toNat]
  | .bcast _ f => [f.d.toNat]
  | .ldfe _ f => [f.d.toNat]
  | .atom _ f => [f.d.toNat]
  | .atomf _ f => [f.d.toNat]
  | .cas _ f => [f.d.toNat]
  | .tget _ f => [f.d.toNat]
  | .tex _ f => [f.d.toNat]
  | .trace _ f => [f.vh.toNat, f.vh.toNat + 1]
  | .traceh _ f => [f.d.toNat, f.d.toNat + 1]
  | .hmov _ f => if !f.dir && f.vector then [f.h.toNat] else []
  | .stB8 .. | .stB16 .. | .stB32 .. | .stB64 .. => []
  | .ldN8 _ f | .ldN16 _ f | .ldN32 _ f | .ldB64 _ f | .ldS8 _ f | .ldS16 _ f | .ldS32 _ f =>
    spread sd cnt f.d.toNat
  | i =>
    match Instr.alu i with
    | some o => if o.pd.isSome || o.nw then [] else spread sd cnt o.d
    | none => []

/-- Vector registers a sequence reads besides its source operands. -/
def Instr.extraReads (i : Instr) : List Nat :=
  let cnt := i.head.hints.reps
  let sd := (i.head.hints.rep.map (·.sd)).getD false
  match i with
  | .stB8 _ f | .stB16 _ f | .stB32 _ f | .stB64 _ f => spread sd cnt f.d.toNat
  | .stfe _ f | .fefill _ f | .atom _ f | .atomf _ f => [f.d.toNat]
  | .cas _ f => [f.d.toNat, f.d.toNat + 1]
  | .shfl _ f => [f.vs.toNat]
  | .mmaW16 _ f | .mmaW8 _ f | .mmaW6 _ f | .mmaW4 _ f => [f.va.toNat, f.vb.toNat]
  | .prim _ f => (List.range 6).map (f.vp.toNat + ·)
  | .tex _ f => [f.vc.toNat]
  | .trace _ f => (List.range 4).map (f.vr.toNat + ·)
  | .traceh _ f => [f.vh.toNat]
  | .hmov _ f => if f.dir && f.vector then [f.h.toNat] else []
  | _ => []

/-- Vector registers a sequence reads, over all repeats. -/
def Instr.vreads (i : Instr) : List Nat :=
  let cnt := i.head.hints.reps
  let r := i.head.hints.rep
  let flag (k : Nat) : Bool := match k with | 0 => (r.map (·.sa)).getD false | 1 => (r.map (·.sb)).getD false | _ => false
  ((i.srcs.mapIdx fun k x => match x.1 with | .v n => spread (flag k) cnt n.toNat | _ => []).flatten) ++ i.extraReads

/-- Predicates a sequence reads or writes, its guard among them. -/
def Instr.preds (i : Instr) : List Nat :=
  ((i.head.guard.map (·.p.toNat)).toList) ++
  match i with
  | .pand _ f | .por _ f | .pxor _ f => [f.pd.toNat, f.pa.toNat, f.pb.toNat]
  | .pnot _ f => [f.pd.toNat, f.pa.toNat]
  | .movpToVector _ f => if f.one then [f.pn.toNat] else List.range 16
  | .movpToPredicates _ f => if f.one then [f.pn.toNat] else List.range 16
  | .vote _ f => if f.op.toNat < 2 then [f.pa.toNat, f.d.toNat % 16] else [f.pa.toNat]
  | .feq _ f => [f.pd.toNat]
  | .zcmp _ f => [f.pd.toNat]
  | .emit _ f => [f.pd.toNat]
  | i => match (Instr.alu i).bind (·.pd) with | some p => [p] | none => []

/-- The sequence names a register above v15 (R350). -/
def Instr.namesHigh (i : Instr) : Bool :=
  (i.vreads ++ i.vwrites).any (16 ≤ ·) || (match i.head.hints.dead with | some d => d.hi && d.mask != 0 | none => false)

/-- Registers a `dead` hint names (Table 3.3). -/
def DeadHint.regs (d : DeadHint) : List Nat :=
  ((List.range 16).filter d.mask.getLsbD).map fun n => if d.hi then 16 + n else n

/-- Registers a sequence's own `dead` hint names (R100). -/
def Hints.deadRegs (h : Hints) : List Nat := (h.dead.map DeadHint.regs).getD []

end Sys2Proof

namespace Sys2Proof.Machine

/-! ### The issuing sequence -/

/-- A sequence at issue: the state, the group, its selected entry, the lanes it is issued for (active(entry), or the
restart mask of R346), those that pass the guard, and the later members of a chain with the address of each one's first
word (R102). -/
structure Iss where
  s : State
  g : Group
  e : Entry
  i : Instr
  words : Nat
  act : Mask
  ex : Mask
  ms : List (Instr × Nat) := []

/-- The guard passes in a lane (R60). -/
def Group.passes (g : Group) (q : Option Guard) (l : Nat) : Bool :=
  match q with
  | none => true
  | some q => g.getPn q.p.toNat l != q.ps

/-- The lanes of a mask that pass a guard (R60, R126). Forms with Guard Req execute in every lane (R142, R115). -/
def Group.execMask (g : Group) (i : Instr) (m : Mask) : Mask :=
  if i.info.guard = 2 then m
  else match i.head.guard with
    | none => m
    | q => Mask.ofPred fun l => m.has l && g.passes q l

/-- A sequence of an entry. -/
def Iss.mk' (s : State) (g : Group) (e : Entry) (i : Instr) : Iss :=
  let act := e.restart.getD e.mask
  { s := s, g := g, e := e, i := i, words := i.head.hints.count + 1, act := act, ex := g.execMask i act }

/-- Address of the instruction word (R61, R70). -/
def Iss.ia (u : Iss) : Nat := u.e.pc + 4 * (u.words - 1)

/-- Context number of the group. -/
def Iss.ctx (u : Iss) : Nat := u.s.groupCtx u.g

/-- Forms a handler may not issue (R350). -/
def handlerBanned : Instr → Bool
  | .movsw .. | .exit .. | .await .. | .emit .. | .launch .. | .ldfe .. => true
  | .barinit .. | .barjoin .. | .barjoinNow .. | .bararr .. | .barwait .. | .bardrop .. | .pbar .. | .cvset .. => true
  | .savept .. | .mmaW16 .. | .mmaW8 .. | .mmaW6 .. | .mmaW4 .. | .mzero .. | .mload .. | .mstore .. | .mwait .. => true
  | .copy .. | .cflag .. | .pattrReplicate .. | .pattrCollapse .. | .pattrFlush .. | .coll .. => true
  | .prim .. | .pend .. | .cwr .. | .cclr .. | .cdec .. | .zcmp .. | .trace .. | .trap .. | .brk .. => true
  | _ => false

/-- The barrier and fence instructions of R161. -/
def fpBarrier : Instr → Bool
  | .barinit .. | .barjoin .. | .barjoinNow .. | .bararr .. | .barwait .. | .bardrop .. | .pbar .. => true
  | .fence .. | .fenceSc .. => true
  | _ => false

/-- The accesses in flight that the sequence can wait for: an `ldfe` issued again is not held by its own lanes' (R227). -/
def Iss.others (u : Iss) : State :=
  match u.i with
  | .ldfe .. => { u.s with accs := u.s.accs.filter fun a => !(a.grp == u.g.id && a.kind == .ldfe && a.pc == u.e.pc) }
  | _ => u.s

/-- A register or predicate the sequence names is pending (R101). -/
def Iss.pending (u : Iss) : Bool :=
  (u.i.vreads ++ u.i.vwrites).any (u.others.pendV u.g) || u.i.preds.any (u.s.pendP u.g)

/-- Every earlier sequence of the group has written its results (R153, R154, R161); those of a poisoned operation are supplied at
its delivery (R351), which a handler does not wait for. -/
def Iss.allWritten (u : Iss) : Bool :=
  ((u.s.pendingAccs u.g.id).all fun a => !a.results) && (u.s.depthDue u.g.id).isEmpty &&
    (u.g.inHandler || !u.s.ops.any fun o => o.grp == u.g.id && decide (o.poisoned ≠ 0))

/-- Launch priority of a group (Table 1.2). -/
def State.prioOf (s : State) (g : Group) : Nat := ((s.groupLaunch? g).map Launch.prio).getD 0

/-- The group once its sequence has started: its level returns, its last start is now, and every yielded flag clears
(R89, R90, R96). A stepped group halts at its next boundary (R366). -/
def Iss.started (u : Iss) (g : Group) : Group :=
  { (g.setFront (g.front.map fun e => { e with yielded := false })) with
    level := u.s.prioOf g, waited := 0, waits := false, lastStart := u.s.next, haltReq := g.haltReq || g.stepping
    stepping := false }

/-- The state with the group replaced, the step's identifier spent and the core's progress counted (R391). -/
def Iss.put (u : Iss) (g : Group) : State :=
  let s := { u.s with next := u.s.next + 1 }
  (s.updGroup u.g.id fun _ => g).updCluster u.g.die u.g.cluster fun c =>
    { c with progress := AMap.set c.progress u.g.core ((AMap.getD c.progress u.g.core 0 + 1) % 2 ^ 32) }

/-- The hints of a sequence, and of every member of a chain. -/
def Iss.allHints (u : Iss) : List Hints := u.i.head.hints :: u.ms.map (·.1.head.hints)

/-- Registers the `dead` hints of a sequence, and of every member of a chain, name. -/
def Iss.deads (u : Iss) : List Nat := u.allHints.flatMap Hints.deadRegs

/-- Y of the `sched` hints (R107). -/
def Iss.y (u : Iss) : Bool := u.allHints.any fun h => (h.sched.map (·.y)).getD false

/-- The largest STALL of the `sched` hints (R107). -/
def Iss.stall (u : Iss) : Nat := (u.allHints.map fun h => (h.sched.map (·.stall.toNat)).getD 0).foldl Nat.max 0

/-- The trap values that come from the sequence itself. -/
def Iss.trapArgs (u : Iss) (a : TrapArgs) : TrapArgs :=
  { a with
    isRep := u.i.head.hints.rep.isSome, isChain := u.i.head.hints.chain.isSome, words := u.words
    reps := u.i.head.hints.reps, dead := u.deads, yields := u.y, stall := u.stall }

/-- The sequence as it stands at repeat `j` (R106). -/
def Iss.atRepeat (u : Iss) (j : Nat) : Iss := { u with e := { u.e with repi := j } }

/-- Take a trap at the sequence with no effect of it. -/
def Iss.trap (u : Iss) (a : TrapArgs) : State := u.s.takeTrap u.g u.e (u.trapArgs a)

/-- Take a trap after the other lanes took effect in `g` (R344, R425). -/
def Iss.trapAfter (u : Iss) (g : Group) (a : TrapArgs) : State :=
  (u.put g).takeTrap (u.started g) u.e (u.trapArgs a)

/-! ### Registers and the surge pool (R49, R54, R99) -/

/-- Destination registers of an access whose value is not discarded (R100). -/
def Access.newRegs (a : Access) : List Nat := a.dregs.filter fun d => !a.discard.contains d

/-- Registers of a group that hold a physical register: those with a live lane and those with a write on its way. -/
def State.mappedRegs (s : State) (g : Group) : List Nat :=
  (g.mapped ++ (s.pendingAccs g.id).flatMap Access.newRegs).dedup

/-- Steady reservation and peak of a group (R49). -/
def State.regLimits (s : State) (g : Group) : Nat × Nat :=
  match s.groupStage? g with
  | some st => (8 * ceilDiv st.steady 8, st.peak)
  | none => (32, 32)

/-- Another group of the core holds the surge pool. -/
def State.surgeHeld (s : State) (g : Group) : Bool :=
  s.groups.any fun h => h.id != g.id && h.die == g.die && h.cluster == g.cluster && h.core == g.core && h.surge

/-- Another group of the core waits for the surge pool ahead of this one: in order of request, with ties going to the lower group
number (R54). -/
def State.surgeWaited (s : State) (g : Group) : Bool :=
  let t := g.surgeWait.getD s.next
  s.groups.any fun h => h.id != g.id && h.die == g.die && h.cluster == g.cluster && h.core == g.core &&
    (match h.surgeWait with
      | some x => decide (x < t) || (x == t && decide (s.srGroup h < s.srGroup g))
      | none => false)

/-- What mapping registers for a sequence comes to. -/
inductive RegGate where
  | ok (g : Group)
  | wait (g : Group)
  | limit
  deriving DecidableEq, Repr

/-- Map registers for writes: the surge pool is granted or waited for, and a count beyond P is a trap (R54). -/
def State.regGate (s : State) (g : Group) (ws : List Nat) : RegGate :=
  if g.inHandler then .ok g
  else
    let m := s.mappedRegs g
    let n := (ws.filter fun r => !m.contains r).dedup.length + m.length
    let (st, p) := s.regLimits g
    if n = m.length then .ok g
    else if p < n then .limit
    else if n ≤ st || g.surge then .ok g
    else if !s.surgeHeld g && !s.surgeWaited g then .ok { g with surge := true, surgeWait := none }
    else .wait { g with surgeWait := some (g.surgeWait.getD s.next) }

/-- Return the surge pool when the mapped count allows (R54). -/
def State.surgeReturn (s : State) (g : Group) : Group :=
  if g.surge && decide ((s.mappedRegs g).length ≤ (s.regLimits g).1) then { g with surge := false } else g

/-- A group changed outside the completion of a sequence: where its mapped count fell, the surge pool returns (R54). -/
def State.surgeFall (s : State) (g g' : Group) : Group :=
  if (s.mappedRegs g').length < (s.mappedRegs g).length then s.surgeReturn g' else g'

/-! ### Completing a sequence -/

/-- Effects of the sequence that do not depend on where its lanes go: `dead`, the stall, the surge pool. -/
def Iss.close (u : Iss) (g : Group) (dead : List Nat) (y : Bool) (stall : Nat) : Group :=
  let g := u.started g
  let g := g.applyDead u.e.mask dead
  let g := u.s.surgeReturn g
  let g := { g with stall := stall }
  if y then g.updEntry u.e.mask fun e => { e with yielded := true } else g

/-- The values on their way to registers that a `dead` hint names are discarded in the lanes of a mask (R100; log 24). -/
def State.discard (s : State) (g : Group) (m : Mask) (dead : List Nat) : State :=
  if dead = [] then s
  else
    { s with accs := s.accs.map fun (a : Access) =>
        if a.grp = g.id ∧ a.dst = .lane ∧ a.hnd = g.inHandler ∧ m.has a.lane then { a with discard := a.discard ++ dead } else a }

/-- The sequence completes, with what its hints ask for, and its entry is replaced by parts (R93, R94). -/
def Iss.finishAs (u : Iss) (g : Group) (dead : List Nat) (y : Bool) (stall : Nat)
    (parts : Entry → List Entry) : State :=
  let u := { u with s := u.s.discard u.g u.e.mask dead }
  let g := u.close g dead y stall
  let e := (g.front.find? fun x => x.mask = u.e.mask).getD u.e
  u.put (g.replaceEntry u.e.mask (parts e))

/-- The sequence completes and its entry is replaced by parts. -/
def Iss.finishWith (u : Iss) (g : Group) (parts : Entry → List Entry) : State :=
  u.finishAs g u.deads u.y u.stall parts

/-- The sequence completes and its whole entry moves past it. -/
def Iss.finish (u : Iss) (g : Group) : State := u.finishWith g fun e => [e.advance u.words]

/-- The sequence's entry parks at it (R95). -/
def Iss.park (u : Iss) (g : Group) (p : Park) : State :=
  u.put (u.s.surgeFall u.g ((u.started g).updEntry u.e.mask fun e => { e with park := some p }))

/-- The hint words that can be read from an address on, at most `fuel` of them (R61). -/
def State.hintsFrom (s : State) (g : Group) : Nat → Nat → List (BitVec 32)
  | 0, _ => []
  | fuel + 1, a =>
    match s.fetchWord g (s.codeSpan g) a with
    | .ok [w] => if isHint w then w :: s.hintsFrom g fuel (a + 4) else []
    | _ => []

/-- Hints of a list of hint words. -/
def Hints.ofWords (ws : List (BitVec 32)) : Hints := ws.foldl (fun h w => (h.take w).1) {}

/-- The trap values of a sequence that cannot be read whole: which hints it holds as far as they can be read; its length in words
is not known (R348; log 94). -/
def TrapArgs.unread (a : TrapArgs) (h : Hints) : TrapArgs :=
  { a with isRep := h.rep.isSome, isChain := h.chain.isSome, words := 0 }

/-- What stops the fetch of a sequence of an entry: the traps of R113, R254 and R351, or a walk or a packet asked for (R253, R244). -/
def State.fetchStop (s : State) (g : Group) (e : Entry) (f : Fetch) : State :=
  let m := e.restart.getD e.mask
  let h := Hints.ofWords (s.hintsFrom g ((s.codeSpan g).2 / 4) e.pc)
  match f with
  | .ok _ => s
  | .outside a => s.takeTrap g e (TrapArgs.unread { cls := 4, info := a % 2 ^ 32, tmask := m } h)
  | .fault a c =>
    (s.consumeWalks g.die g.cluster (s.groupCtx g)).takeTrap g e
      (TrapArgs.unread { cls := 8, detail := c, addr := a, tmask := m } h)
  | .poison a =>
    (s.noteErrorVa g.die (s.groupCtx g) a).takeTrap g e
      (TrapArgs.unread { cls := 10, addr := a, tmask := m, fetchError := true } h)
  | .wait a => s.requestWalk g.die g.cluster (s.groupCtx g) a (s.groupPart g)
  | .packet pa => s.askFetch g e.pc pa
  | .held => s

/-- The sequences after the first of a chain, or what stops their fetch. -/
inductive Members where
  | ok (ds : List Decoded)
  | stop (f : Fetch)

/-- Fetch `n` sequences from an address upward (R102). -/
def State.members (s : State) (g : Group) : Nat → Nat → Members
  | 0, _ => .ok []
  | n + 1, a =>
    match s.fetchSeq g a with
    | .ok ws =>
      match decodeWords ws with
      | none => .stop (.outside a)
      | some d =>
        match s.members g n (a + 4 * d.words) with
        | .ok ds => .ok (d :: ds)
        | r => r
    | f => .stop f

/-- Addresses of sequences that follow each other from an address. -/
def addrsFrom (a : Nat) : List Decoded → List Nat
  | [] => []
  | d :: ds => a :: addrsFrom (a + 4 * d.words) ds

/-- The codes a chain raises as one unit (R77, R102): a member with no instruction raises its own code and, like any form
a chain cannot hold, 0x04. -/
def unitCodes (i : Instr) (ds : List Decoded) : List Nat :=
  ds.flatMap (·.codes) ++ chainCodes (i :: ds.map fun d => d.instr.getD (.ret {}))

/-- Issue a chain (R102): the unit is fetched and checked before any member takes effect. -/
def chainAt (u : Iss) (len : Nat) (k : Iss → State) : State :=
  let a := u.e.pc + 4 * u.words
  match u.s.members u.g len a with
  | .stop f => u.s.fetchStop u.g u.e f
  | .ok ds =>
    let is := ds.map fun d => d.instr.getD (.ret {})
    let u := { u with words := u.words + (ds.map (·.words)).sum, ms := is.zip (addrsFrom a ds) }
    let all := u.i :: is
    match lowestCode (unitCodes u.i ds) with
    | some c => u.trap { cls := 1, detail := c, tmask := u.act }
    | none =>
      if u.g.inHandler && all.any Instr.namesHigh then u.trap { cls := 14, tmask := u.act }
      else if all.any fun i => (i.vreads ++ i.vwrites).any (u.s.pendV u.g) || i.preds.any (u.s.pendP u.g) then u.s
      else k u

/-- Issue an instruction for an entry of a group: the checks that come before any effect (R77, R350, R161, R101), then
the meaning. A sequence that cannot start leaves the state as it is (R88). -/
def issueAt (i : Instr) (s : State) (g : Group) (e : Entry) (k : Iss → State) : State :=
  let u := Iss.mk' s g e i
  match i.head.hints.chain with
  | some len => chainAt u len.toNat k
  | none =>
    match lowestCode (i.codesAt none) with
    | some c => u.trap { cls := 1, detail := c, tmask := u.act }
    | none =>
      if g.inHandler && (handlerBanned i || i.namesHigh) then u.trap { cls := 14, tmask := u.act }
      else if !g.inHandler && fpBarrier i && !u.allWritten then s
      else if !g.inHandler && fpBarrier i && decide (g.pnd ≠ 0) then
        u.trapAfter { g with fpflags := g.fpflags &&& 0x1F } { cls := 7, info := g.pnd, tmask := u.act }
      else if u.pending then s
      else k u

/-- The meaning of an instruction in the group that issues. -/
def issue (i : Instr) (s : State) (k : Iss → State) : Host.Outcome State Fault Refusal :=
  match s.group? s.cur with
  | none => .fault .noIssuer
  | some g =>
    match Entry.select g.front with
    | none => .fault .noIssuer
    | some e => .next (issueAt i s g e k)

/-! ### The lane runner of the register forms -/

/-- What one lane's operation sees: its sources with their flags, its immediate, D before, and the controls. DESIGN CHOICE
(log 76): of a chain member with SE = 1 whose D is written as 0 (NW = 1), R126 states no other elements of the latch result;
they are those of v0. -/
def Group.laneOp (g : Group) (i : Instr) (o : Alu) (l : Nat) (lat : List Word) : LaneOp :=
  let h := i.head.hints
  let t := i.ty
  let ty (k : Nat) : Nat := (i.srcs.getD k (.const 0, t)).2
  let x3 := h.src3
  let fl (f : Src3 → Bool) : Bool := (x3.map f).getD false
  let rd (k : Nat) (s : Option Src) : Word := (s.map (readSrc g l lat (ty k))).getD 0
  let x := immX h.imm (o.imm.getD 0)
  let c3 := if fl (·.v3) then rd 2 (some h.s3) else 0
  { t := t
    se := (h.type.bind fun y => if y.se then some y.sub.toNat else none)
    a := modWord t (fl (·.n1)) (fl (·.a1)) (rd 0 o.a)
    b := if o.imm.isSome then immWord x t else modWord t (fl (·.n2)) (fl (·.a2)) (rd 1 o.b)
    c := modWord t (fl (·.n3)) (fl (·.a3)) c3
    x := x, isImm := o.imm.isSome, old := g.getV o.d l, cond := o.cond
    q := (match i.head.guard with | some q => g.passes (some q) l | none => true)
    sat := fl (·.sat) || (match i with | .cvt _ f => f.sat | _ => false)
    rm := g.rmFor h
    handler := g.inHandler
    ftz := if g.inHandler then 0 else g.fpmode.toNat / 16 % 8 }

/-- Write one lane's result (R126). -/
def Group.laneWrite (g : Group) (o : Alu) (l : Nat) (r : LaneOut) : Group :=
  let g := if r.noVal || o.nw then g else g.setV o.d l r.val
  let g := match o.pd with | some p => g.setPn p l r.pred | none => g
  g.raise r.fl

/-- Run a register form in the lanes of a list; the result says whether a checked shift count was out of range. -/
def Group.runLanes (i : Instr) (o : Alu) : List Nat → Group → Group × Bool
  | [], g => (g, false)
  | l :: ls, g =>
    let r := i.lane (g.laneOp i o l [])
    let (g', lg) := Group.runLanes i o ls (g.laneWrite o l r)
    (g', lg || r.log)

/-- Run the repeats of a register form from `j`, `n` of them; the first repeat issues the restart mask, later ones the
whole entry. Stops at a repeat that meets the register limit, with that repeat's lanes (R54, R106). -/
def Iss.runReps (u : Iss) (o : Alu) : Nat → Nat → Group → Bool → Group × Bool × Option (Nat × Mask)
  | 0, _, g, lg => (g, lg, none)
  | n + 1, j, g, lg =>
    let m := g.execMask u.i (if j = u.e.repi then u.act else u.e.mask)
    let oj := o.step u.i.head.hints.rep j
    let ws := if oj.pd.isSome || oj.nw || m = 0 then [] else [oj.d]
    match u.s.regGate g ws with
    | .limit => (g, lg, some (j, m))
    | .wait _ => (g, lg, none)
    | .ok g =>
      let (g, b) := Group.runLanes u.i oj m.toList g
      u.runReps o n (j + 1) g (lg || b)

/-- The writes of a list that can be mapped before the register limit is met (R54). -/
def State.fitting (s : State) (g : Group) (ws : List Nat) : List Nat :=
  ws.foldl (fun acc r => match s.regGate g (acc ++ [r]) with | .limit => acc | _ => acc ++ [r]) []

/-- Issue a register form outside a chain (R126). A checked shift issued again after a trap logs the counts out of range that it meets
again (R137; DESIGN CHOICE, log 100). -/
def Iss.runAlu (u : Iss) (o : Alu) : State :=
  let cnt := u.i.head.hints.reps
  let all := if o.pd.isSome || o.nw || u.ex = 0 then [] else u.i.vwrites
  match u.s.regGate u.g (u.s.fitting u.g all) with
  | .wait g => u.s.updGroup g.id fun _ => g
  | .limit => u.s
  | .ok g =>
    let (g, lg, lim) := u.runReps o (cnt + 1 - u.e.repi) u.e.repi g false
    let s := match lim with
      | some (j, m) => (u.atRepeat j).trapAfter g { cls := 5, tmask := m }
      | none => u.finish g
    if lg then s.logGroup u.g 1 0 0 0 u.e.pc else s

end Sys2Proof.Machine
end

