-- ==== Sys2Proof/Machine/Access.lean ====
section
/-! DEFINITION. Access: the access forms of opcodes 0x90-0xA9 from issue to completion (spec 08 R216-R241, spec 09
R244-R247, spec 12 R326-R334): planning the lanes, the accesses in flight, performing one at its location, delivering its
result, and the store's full/empty waiters. -/

namespace Sys2Proof

open Machine

/-- What an access form does, as its word gives it (Table 8.5). -/
structure AccForm where
  kind : AccKind
  size : Nat
  use : Use
  d : Nat
  a : Src
  off : Int
  cc : Nat
  /-- a full/empty form: illegal on a translated address (R219) -/
  feForm : Bool := false
  /-- the default full/empty action: 1 leave, 2 set full, 3 set empty (Table 8.3) -/
  feDefault : Nat := 1
  /-- cache forms: 1 `pref`, 2 `cinv`, 3 `cwb` -/
  line : Nat := 0
  deriving DecidableEq, Repr

/-- Byte offset of an M form: OFF5 times the size, or with `imm` the signed 31-bit value times the size (R69). -/
def mOffset (h : Hints) (off5 : BitVec 5) (size : Nat) : Int :=
  match h.imm with
  | none => (off5.toNat * size : Nat)
  | some x => (x ++ off5).toInt * size

/-- The access form of an instruction (Table 8.5). -/
def Instr.accForm (i : Instr) : Option AccForm :=
  let ld (h : Head) (f : FM) (n : Nat) (sg : Bool) : Option AccForm :=
    some { kind := .load sg, size := n, use := .read, d := f.d.toNat, a := f.a, off := mOffset h.hints f.off5 n
           cc := f.cc.toNat }
  let st (h : Head) (f : FM) (n : Nat) : Option AccForm :=
    some { kind := .store, size := n, use := .write, d := f.d.toNat, a := f.a, off := mOffset h.hints f.off5 n
           cc := f.cc.toNat }
  let fe (h : Head) (f : FM) (k : AccKind) (n act : Nat) : Option AccForm :=
    some { kind := k, size := n, use := .write, d := f.d.toNat, a := f.a, off := mOffset h.hints f.off5 n
           cc := f.cc.toNat, feForm := true, feDefault := act }
  let at' (f : FM) (k : AccKind) : Option AccForm :=
    some { kind := k, size := 8, use := .write, d := f.d.toNat, a := f.a, off := 0, cc := f.cc.toNat }
  let ln (h : Head) (f : FMn) (k : Nat) : Option AccForm :=
    some { kind := .line, size := 128, use := .read, d := 0, a := f.a, off := mOffset h.hints f.off5 128
           cc := f.cc.toNat, line := k }
  match i with
  | .ldN8 h f => ld h f 1 false
  | .ldN16 h f => ld h f 2 false
  | .ldN32 h f => ld h f 4 false
  | .ldB64 h f => ld h f 8 false
  | .ldS8 h f => ld h f 1 true
  | .ldS16 h f => ld h f 2 true
  | .ldS32 h f => ld h f 4 true
  | .stB8 h f => st h f 1
  | .stB16 h f => st h f 2
  | .stB32 h f => st h f 4
  | .stB64 h f => st h f 8
  | .ldfe h f => fe h f .ldfe 8 3
  | .stfe h f => fe h f .stfe 8 2
  | .fefill h f => fe h f .fefill 16 3
  | .feq h f =>
    some { kind := .feq f.pd.toNat, size := 16, use := .write, d := 0, a := f.a, off := mOffset h.hints f.off5 16
           cc := f.cc.toNat, feForm := true, feDefault := 1 }
  | .atom _ f => at' f (.atom f.off5.toNat i.ty)
  | .atomf _ f => at' f (.atomf f.off5.toNat i.ty)
  | .cas _ f => at' f (.cas i.ty)
  | .pref h f => ln h f 1
  | .cinv h f => ln h f 2
  | .cwb h f => ln h f 3
  | _ => none

/-- The form with its registers stepped to repeat `j` (R105). -/
def AccForm.step (f : AccForm) (r : Option RepHint) (j : Nat) : AccForm :=
  match r with
  | none => f
  | some r => { f with d := if r.sd then f.d + j else f.d, a := Src.step r.sa j f.a }

/-- The full/empty action of a form with its `memq` hint: 1 leave, 2 set full, 3 set empty (Table 8.3). -/
def AccForm.action (f : AccForm) (h : Hints) : Nat :=
  match h.memq with
  | none => f.feDefault
  | some q =>
    if q.fe = 0 then f.feDefault
    else if f.kind = .ldfe ∧ q.fe = 2 then 1
    else q.fe.toNat

/-- The form needs a window address: a full/empty form, or a set action asked for (R219). -/
def AccForm.needsWindow (f : AccForm) (h : Hints) : Bool :=
  f.feForm || (match h.memq with | some q => decide (2 ≤ q.fe.toNat) | none => false)

/-- Scope of an access: gang without a hint (R236). -/
def Hints.scope (h : Hints) : Nat := (h.memq.map (·.scope.toNat)).getD 2
/-- Acquire order. -/
def Hints.acq (h : Hints) : Bool := (h.memq.map (·.ord.getLsbD 0)).getD false
/-- Release order. -/
def Hints.rel (h : Hints) : Bool := (h.memq.map (·.ord.getLsbD 1)).getD false
/-- Cache policy. -/
def Hints.cp (h : Hints) : Nat := (h.memq.map (·.cp.toNat)).getD 0

end Sys2Proof


namespace Sys2Proof.Machine

/-! ### Planning the lanes of one repeat (R216-R219, R254, R425) -/

/-- Effective address of a lane, with its latches, newest first, where the form ends a chain (R73): bits [63:56] of the source
are ignored (R69, R216). -/
def Group.effAddr (g : Group) (f : AccForm) (l : Nat) (lat : List Word := []) : Nat :=
  ((((readSrc g l lat 0 f.a).toNat : Int) + f.off) % (2 ^ 56 : Nat)).toNat

/-- What a lane's address comes to. -/
inductive Plan where
  /-- location, host-link target, and leaf entry of a write to a `repl` page -/
  | go (ea loc tgt : Nat) (repl : Option (Nat × BitVec 64))
  /-- the lane performs nothing (a dropped `pref`, a cache form on a window) -/
  | skip (ea : Nat)
  /-- class, detail and address of a fault -/
  | bad (cls detail ea : Nat)
  | wait (ea : Nat)
  deriving DecidableEq, Repr

/-- Context and entry of a leaf, where the access is a write to a `repl` page. -/
def State.replWrite (s : State) (die cl ctx ea : Nat) (use : Use) : Option (Nat × BitVec 64) :=
  if use = .write then
    match s.held die cl ctx ea with
    | some (.leaf _ pte) => if pteAttr pte = 2 then some (ctx, BitVec.ofNat 64 pte) else none
    | _ => none
  else none

/-- Check and translate one lane's address (Table 8.2 before translation, then Table 9.6). -/
def State.planAddr (s : State) (g : Group) (f : AccForm) (needWin : Bool) (ea : Nat) : Plan :=
  let ctx := s.groupCtx g
  if f.line ≠ 0 then
    match winOf ea with
    | .translated =>
      match s.xlate g.die g.cluster ctx ea .read with
      | .ok pa tgt => .go ea (pa / 128 * 128) tgt none
      | .fault c => if f.line = 1 then .skip ea else .bad 8 c ea
      | .wait => .wait ea
    | _ => .skip ea
  else
    let mis := ea % f.size != 0
    match winOf ea with
    | .translated =>
      if mis then .bad 9 1 ea
      else if needWin then .bad 9 2 ea
      else
        match s.xlate g.die g.cluster ctx ea f.use with
        | .ok pa tgt => .go ea pa tgt (s.replWrite g.die g.cluster ctx ea f.use)
        | .fault c => .bad 8 c ea
        | .wait => .wait ea
    | _ =>
      match (s.gang? g.gang).bind fun ga => s.windowLoc ga ctx ea f.size with
      | none => .bad 9 0 ea
      | some loc => if mis then .bad 9 1 ea else .go ea loc 0 none

/-- The trap a list of failing lanes gives (R425): the lowest lane's class, detail and address, and the mask of all. -/
def planTrap : List (Nat × Plan) → Option TrapArgs
  | [] => none
  | (l, .bad c d ea) :: t =>
    let rest := t.filter fun x => match x.2 with | .bad .. => true | _ => false
    some { cls := c, detail := d, addr := ea, tmask := Mask.ofPred fun k => k == l || rest.any (·.1 == k) }
  | _ :: t => planTrap t

/-! ### Accesses in flight -/

/-- The access has not yet acted on its location. -/
def Access.unperformed (a : Access) : Bool :=
  match a.phase with
  | .hbmDone => false
  | .remoteReply => false
  | _ => true

/-- Bytes of two accesses overlap. -/
def Access.overlaps (a b : Access) : Bool := decide (a.loc < b.loc + b.size) && decide (b.loc < a.loc + a.size)

/-- A write to a `repl` page and an access that may read another copy of it touch the same bytes of the page: the copies of a page lie at
the same offset on every die (R223, R252). -/
def Access.samePage (b a : Access) : Bool :=
  b.grp == a.grp && b.repl.isSome && isDevice b.loc && isDevice a.loc &&
    decide (a.loc % 2 ^ 42 < b.loc % 2 ^ 42 + b.size) && decide (b.loc % 2 ^ 42 < a.loc % 2 ^ 42 + a.size)

/-- Where an access starts its way (R221, R244, R334, R380, R383). -/
def firstPhase (die : Nat) (kind : AccKind) (loc tgt : Nat) : AccPhase :=
  let writeOnly := match kind with | .store | .stfe | .fefill => true | _ => false
  if isStoreLoc loc then (if locDie loc = die || !writeOnly then .atBank else .remoteWrite)
  else if loc < 2 ^ 52 ∧ paHost loc then (if tgt = 0 then .toHost else .toPeer (tgt - 1))
  else if locHome die loc = die || !writeOnly then .toHbm else .remoteWrite

/-- The access changes its location. -/
def AccKind.writes : AccKind → Bool
  | .store | .stfe | .fefill | .atom .. | .atomf .. | .cas _ => true
  | _ => false

/-- Kind of the packet that carries an access to the base die (Table 9.2): 0 RD64, 1 RD128, 2 WR64, 3 WR128, 4 ATOM. -/
def Access.packet (a : Access) : Nat :=
  match a.kind with
  | .atom .. | .atomf .. | .cas _ => 4
  | .store | .stfe | .fefill => if a.size = 128 then 3 else 2
  | _ => if a.loc % 64 + a.size ≤ 64 then 0 else 1

/-- Raise the die's own clock entry at a package- or system-scope write, and take its clock (R334). -/
def State.sendWrite (s : State) (die : Nat) (a : Access) : State × Access :=
  if a.kind.writes && decide (5 ≤ a.scope) then
    match s.die? die with
    | some d =>
      let n := (AMap.getD d.clock die 0 + 1) % 2 ^ 32
      (s.updDie die fun d => { d with clock := AMap.set d.clock die n },
       { a with seqNo := n, clock := AMap.set d.clock die n })
    | none => (s, a)
  else (s, { a with clock := ((s.die? die).map (·.clock)).getD [] })

/-! ### The die cache (R244) -/

/-- A die cache writes back and drops its copy of a line (R244). -/
def State.dropLine (s : State) (die loc : Nat) : State :=
  s.updDie die fun d => { d with lines := d.lines.filter fun x => x.line ≠ loc / 128 }

/-! ### Issuing one repeat -/

/-- Data an access carries from its lane. -/
def Group.accData (g : Group) (f : AccForm) (l : Nat) : Word × Word :=
  match f.kind with
  | .line => (BitVec.ofNat 64 f.line, 0)
  | _ => (g.getV f.d l, g.getV (f.d + 1) l)

/-- Issue the access of one lane. -/
def State.issueLane (s : State) (g : Group) (f : AccForm) (h : Hints) (op l ea loc tgt pc : Nat)
    (repl : Option (Nat × BitVec 64)) : State :=
  let (x, y) := g.accData f l
  let home := locHome g.die loc
  let ph := firstPhase g.die f.kind loc tgt
  let a : Access :=
    { id := s.next, op := op, grp := g.id, die := g.die, lane := l, kind := f.kind, va := ea, loc := loc, size := f.size
      scope := h.scope, acq := h.acq, d := f.d, data := x, data2 := y, fe := f.action h, dst := .lane, phase := ph
      tag := if ph = .toHbm then s.freeTag home else 0, home := home, ctx := s.groupCtx g, part := s.groupPart g
      cp := h.cp, time := s.gtime, hnd := g.inHandler, repl := repl, pc := pc }
  let (s, a) := s.sendWrite g.die a
  let s := if f.kind.writes ∧ home ≠ g.die then s.itemStream g.die home else s
  let s := { s with accs := s.accs ++ [a], next := s.next + 1 }
  if a.packet = 4 then s.dropLine home loc else if f.line = 0 then s.cacheTouch g.die loc f.kind.writes h.cp else s

/-- Issue a counted operation for the lanes that can go (R228). A repeat that traps in other lanes counts as complete
(R345): it carries no counter. -/
def State.issueOp (s : State) (g : Group) (f : AccForm) (h : Hints) (e : Entry) (trapping : Bool)
    (ps : List (Nat × Plan)) : State :=
  let op := s.next
  let lanes := Mask.ofPred fun l => ps.any fun x => x.1 == l && (match x.2 with | .bad .. => false | _ => true)
  if lanes = 0 then s
  else
    let a0 : Access := { id := 0, op := 0, grp := 0, die := 0, lane := 0, kind := f.kind, va := 0, loc := 0, size := 0
                         d := f.d, phase := .atBank }
    let o : CountedOp :=
      { id := op, grp := g.id, ctr := if trapping then 8 else g.ctr f.cc, cc := g.opCc f.cc, lanes := lanes
        addrs := ps.filterMap fun x => match x.2 with | .go ea .. | .skip ea => some (x.1, ea) | _ => none
        dests := a0.dregs }
    let s := (s.addOp (o.issuedBy e h.rep.isSome)).fresh
    ps.foldl (fun s x => match x.2 with
      | .go ea loc tgt repl => s.issueLane g f h op x.1 ea loc tgt e.pc repl
      | _ => s) s

/-- An access of these lanes must wait for earlier ones: an acquire still in flight, or any at a release (R329). Those of a handler
stand in the item's one program order (R326, R349). -/
def State.orderHolds (s : State) (g : Group) (m : Mask) (rel : Bool) : Bool :=
  s.accs.any fun a => a.grp == g.id && m.has a.lane && (a.acq || rel)

/-- Issue the repeats of an access form from `j`, `n` of them. A repeat that must wait leaves the group between repeats
(R106, R228); one that traps issues its other lanes first. -/
def Iss.accReps (u : Iss) (f0 : AccForm) : Nat → Nat → State
  | 0, _ => u.finish u.g
  | n + 1, j =>
    let h := u.i.head.hints
    let f := f0.step h.rep j
    let m := u.g.execMask u.i (if j = u.e.repi then u.act else u.e.mask)
    let hold (s : State) : State :=
      if j = u.e.repi then s
      else s.updGroup u.g.id fun g => g.updEntry u.e.mask fun e => { e with restart := none, mid := true, repi := j }
    let regs := f.d :: (match f.a with | .v n => [n.toNat] | _ => [])
    if m = 0 then u.accReps f0 n (j + 1)
    else if 63 ≤ u.s.counter u.g.id (u.g.ctr f.cc) then hold u.s
    else if u.s.orderHolds u.g m h.rel then hold u.s
    else if decide (j ≠ u.e.repi) && regs.any (u.s.pendV u.g) then hold u.s
    else
      let ps : List (Nat × Plan) :=
        m.toList.map fun l => (l, u.s.planAddr u.g f (f.needsWindow h) (u.g.effAddr f l))
      let waits := ps.filterMap fun x => match x.2 with | .wait ea => some ea | _ => none
      if waits ≠ [] then hold (waits.foldl (fun s ea => s.requestWalk u.g.die u.g.cluster u.ctx ea (u.s.groupPart u.g)) u.s)
      else
        let s := u.s.consumeWalks u.g.die u.g.cluster u.ctx
        let ws := match f.kind with | .load _ | .ldfe | .atom .. | .atomf .. | .cas _ => [f.d] | _ => []
        match s.regGate u.g ws with
        | .wait g => hold (s.updGroup g.id fun _ => g)
        | .limit => ({ u with s := s }.atRepeat j).trapAfter u.g { cls := 5, tmask := m }
        | .ok g =>
          let t := planTrap ps
          let s := s.issueOp g f h u.e t.isSome ps
          match t with
          | some a => ({ u with s := s }.atRepeat j).trapAfter g a
          | none =>
            Iss.accReps { u with s := s, g := g } f0 n (j + 1)

/-- Issue an access form other than `ldfe` (R237-R241). -/
def Iss.runAcc (u : Iss) : State :=
  match u.i.accForm with
  | some f => u.accReps f (u.i.head.hints.reps + 1 - u.e.repi) u.e.repi
  | none => u.s

end Sys2Proof.Machine
end

