-- ==== Sys2Proof/Machine/Perform.lean ====
section
/-! DEFINITION. Perform: what an access does at its location, its full/empty action and the waiters it serves, the way of
its result back to its group, and the completion of counted operations (spec 08 R222-R228, R239-R240; spec 09 R244;
spec 12 R334; spec 13 R351). -/

namespace Sys2Proof.Machine

/-! ### Atomic operations (Table 8.6) -/

/-- One element of `atom`. -/
def atomElem (op t x y : Nat) : Nat :=
  let w := typeWidth t
  let a := readElem t x
  let b := readElem t y
  match op with
  | 0 => wrapTo w (a + b)
  | 1 => if a ≤ b then x else y
  | 2 => if a ≤ b then y else x
  | 3 => x &&& y
  | 4 => x ||| y
  | 5 => x ^^^ y
  | 6 => y
  | _ => satTo t (a + b)

/-- One element of `atomf`: to nearest even, subnormals kept, no flags (R239). -/
def atomfElem (op t x y : Nat) : Nat :=
  let r : Rnd := { t := t, rm := 0, ftz := 0 }
  let a := readFV 0 t x
  let b := readFV 0 t y
  match op with
  | 0 => (r.add a b).bits
  | 1 => (r.pick true false a b).bits
  | _ => (r.pick true true a b).bits

/-- The value an atomic stores, from the old value and its operands (R239, R240). -/
def atomNew (k : AccKind) (old x y : Word) : Word :=
  match k with
  | .atom op t => buildElems t fun j => atomElem op t (elem old t j) (elem x t j)
  | .atomf op t => buildElems t fun j => atomfElem op t (elem old t j) (elem x t j)
  | .cas t => buildElems t fun j => if elem old t j = elem x t j then elem y t j else elem old t j
  | _ => old

/-! ### Results -/

/-- Write a vector register of a group, in the frame for an access of the handler, else in the group (R349). -/
def Group.setVat (g : Group) (hnd : Bool) (r l : Nat) (x : Word) : Group :=
  if hnd then
    match g.frame with
    | some f => { g with frame := some { f with v := AMap.set f.v (32 * r + l) x } }
    | none => g
  else { g with v := AMap.set g.v (32 * r + l) x }

/-- Write a predicate of a group, in the frame or in the group. -/
def Group.setPat (g : Group) (hnd : Bool) (n l : Nat) (b : Bool) : Group :=
  let m : BitVec 16 := BitVec.ofNat 16 (2 ^ n)
  let upd (p : BitVec 16) : BitVec 16 := if b then p ||| m else p &&& ~~~m
  if hnd then
    match g.frame with
    | some f => { g with frame := some { f with p := AMap.set f.p l (upd (AMap.getD f.p l 0)) } }
    | none => g
  else { g with p := AMap.set g.p l (upd (AMap.getD g.p l 0)) }

/-- Values an access returns: registers by number, and a predicate. -/
structure AccResult where
  vals : List (Nat × Word) := []
  pred : Option (Nat × Bool) := none
  deriving DecidableEq, Repr

/-- A lane of a parked `ldfe` has read (R227). -/
def State.markRead (s : State) (a : Access) : State :=
  s.updGroup a.grp fun g =>
    { g with entries := g.entries.map fun e =>
        if e.mask.has a.lane && e.pc == a.pc then { e with readDone := e.readDone ||| Mask.one a.lane } else e }

/-- Deliver a result to its destination (R101, R370), and mark an `ldfe` lane as read (R227). -/
def State.writeResult (s : State) (a : Access) (r : AccResult) : State :=
  match a.dst with
  | .none => s
  | .record n =>
    { s with conts := s.conts.map fun c =>
        if c.id = n then
          { c with
            regs := r.vals.foldl (fun m x => if c.live.getLsbD x.1 && !a.discard.contains x.1 then AMap.set m x.1 x.2 else m) c.regs
            pred := match r.pred with
              | some (p, b) => if b then c.pred ||| BitVec.ofNat 16 (2 ^ p) else c.pred &&& ~~~(BitVec.ofNat 16 (2 ^ p))
              | none => c.pred }
        else c }
  | .lane =>
    let s := s.updGroup a.grp fun g =>
      let g := r.vals.foldl (fun g x => if a.discard.contains x.1 then g else g.setVat a.hnd x.1 a.lane x.2) g
      match r.pred with | some (p, b) => g.setPat a.hnd p a.lane b | none => g
    if a.kind = .ldfe then s.markRead a else s

/-- The access is done: it leaves the list. -/
def State.dropAcc (s : State) (id : Nat) : State := { s with accs := s.accs.filter fun a => a.id ≠ id }

/-- Replace an access. -/
def State.updAcc (s : State) (id : Nat) (f : Access → Access) : State :=
  { s with accs := s.accs.map fun a => if a.id = id then f a else a }

/-- Mark a lane of a counted operation as poisoned (R351): its destinations stay pending. -/
def State.poisonLane (s : State) (a : Access) : State :=
  { s with ops := s.ops.map fun o =>
      if o.id = a.op then
        { o with poisonAddr := if o.poisoned = 0 ∨ o.poisoned &&& (Mask.one a.lane - 1) = 0 then a.va else o.poisonAddr
                 poisoned := o.poisoned ||| Mask.one a.lane }
      else o }

/-- A value that cannot be read is supplied to a continuation record as 0, and the loss is logged (R351, R370). -/
def State.zeroRecord (s : State) (a : Access) (r : Nat) : State :=
  let s := s.writeResult { a with dst := .record r } { vals := a.dregs.map fun d => (d, 0) }
  match s.group? a.grp with
  | some g => s.logGroup g 12 0 (2 ^ (a.lane - 32)) 0 a.pc
  | none => s

/-- The lane's read met an uncorrectable error and has returned: a lane takes no effect and stays pending (R351). -/
def State.poisonEnd (s : State) (a : Access) : State :=
  match a.dst with
  | .none => s.dropAcc a.id
  | .record r => (s.zeroRecord a r).dropAcc a.id
  | .lane =>
    let s := (s.poisonLane a).dropAcc a.id
    if a.kind = .ldfe then s.markRead a else s

/-- The answer of an access leaves its home die with that die's clock, after every reply that left before it (R334, R44). -/
def State.reply (s : State) (a : Access) (f : Access → Access) : State :=
  let clk := ((s.die? a.home).map (·.clock)).getD []
  { s with next := s.next + 1 }.updAcc a.id fun a => { f a with phase := .remoteReply, clock := clk, tag := s.next }

/-- An access that met an uncorrectable error answers so (R224, R245). -/
def State.badDone (s : State) (a : Access) : State :=
  if a.phase = .toHbm then s.updAcc a.id fun a => { a with bad := true, phase := .hbmDone }
  else if a.die = a.home then s.poisonEnd a
  else s.reply a fun a => { a with bad := true }

/-- An access meets an uncorrectable error at its location, of which the management controller learns (R224, R245). -/
def State.poisonDone (s : State) (a : Access) : State := (s.noteError a.loc).badDone a

/-- Raise a die's clock entries to at least those carried (R334). -/
def State.raiseClock (s : State) (die : Nat) (c : AMap Nat) : State :=
  s.updDie die fun d =>
    { d with clock := c.foldl (fun m x => if AMap.getD m x.1 0 < x.2 then AMap.set m x.1 x.2 else m) d.clock }

/-- Keep a result in its access until its reply arrives. -/
def Access.hold (a : Access) (r : AccResult) : Access :=
  { a with
    data := match r.vals with | (_, x) :: _ => x | [] => a.data
    data2 := match r.vals, r.pred with
      | [_, (_, y)], _ => y
      | _, some (_, b) => BitVec.ofNat 64 (b2n b)
      | _, none => a.data2 }

/-- The result goes from the access's home die to its group: at once on the group's own die, by a reply across dies that
carries the home die's clock (R334). -/
def State.returnAcc (s : State) (a : Access) (r : AccResult) : State :=
  if a.die = a.home then (s.writeResult a r).dropAcc a.id else s.reply a fun a => a.hold r

/-- An access has acted: a packet waits for its reply (R244), any other returns. -/
def State.finishAcc (s : State) (a : Access) (r : AccResult) : State :=
  if a.phase = .toHbm then s.updAcc a.id fun a => { a.hold r with phase := .hbmDone } else s.returnAcc a r

/-- The result a reply carries. -/
def Access.result (a : Access) : AccResult :=
  match a.kind with
  | .load _ | .ldfe | .atom .. | .atomf .. | .cas _ | .tex .. => { vals := [(a.d, a.data)] }
  | .ray .. => { vals := [(a.d, a.data), (a.d + 1, a.data2)] }
  | .feq p => { pred := some (p, decide (a.data2 ≠ 0)) }
  | _ => {}

/-! ### Performing at the location -/

/-- Sign- or zero-extend `n` bytes (R237). -/
def extBytes (sg : Bool) (n x : Nat) : Word :=
  if sg then BitVec.ofNat 64 (wrapTo 64 (toSigned (8 * n) x)) else BitVec.ofNat 64 x

/-- A waiter of a parked `ldfe`, or one refused (R226). -/
def Access.isWaiter (a : Access) : Bool := a.kind == .ldfe && (a.phase == .waiter || a.phase == .refused)

/-- The waiters of a granule in order of arrival (R226). -/
def State.waitersOf (s : State) (loc : Nat) : List Access :=
  s.accs.filter fun a => a.phase == .waiter && a.loc / 16 == loc / 16

/-- Insert by arrival order. -/
def byArrival (a : Access) : List Access → List Access
  | [] => [a]
  | b :: t => if b.tag ≤ a.tag then b :: byArrival a t else a :: b :: t

/-- Serve the waiters of a full granule: each peeking waiter reads; the first consuming one reads and empties, and
serving stops there (R226). -/
def State.serve (s : State) : List Access → State
  | [] => s
  | a :: t =>
    if s.poisoned a.loc 8 then (s.poisonDone a).serve t
    else
      let s' := s.finishAcc a { vals := [(a.d, BitVec.ofNat 64 (s.rd a.loc 8))] }
      if a.fe = 3 then s'.setFull a.loc false else s'.serve t

/-- The full/empty action of an access at its granule; setting it full serves the waiters (R225). -/
def State.feAct (s : State) (loc fe : Nat) : State :=
  match fe with
  | 2 => (s.setFull loc true).serve (((s.setFull loc true).waitersOf loc).foldl (fun l a => byArrival a l) [])
  | 3 => s.setFull loc false
  | _ => s

/-- Granules of the bytes at locations of a store that have been written whole are set full, each once (R191, R225). -/
def State.fillGranules (s : State) (ls : List Nat) : State :=
  ((ls.filter isStoreLoc).map (· / 16 * 16)).dedup.foldl (fun (s : State) l => s.feAct l 2) s

/-- Write bytes at locations, lowest first. -/
def State.scatterBytes (s : State) : List Nat → Nat → State
  | [], _ => s
  | l :: t, v => (s.wr l 1 v).scatterBytes t (v / 256)

/-- Write the bytes of an element at locations, lowest first; each granule written is then set full, and its waiters see the whole
write (R225, R267, R331). -/
def State.scatter (s : State) (ls : List Nat) (v : Nat) : State :=
  (s.scatterBytes ls v).fillGranules ls

/-- A store location lies on another cluster than a group. -/
def State.fromOutside (s : State) (grp loc : Nat) : Bool :=
  match s.group? grp with
  | some g => decide (g.die ≠ locDie loc) || decide (g.cluster ≠ locCluster loc)
  | none => true

/-- Lanes of a group's parked `barwait` that a cluster other than its own records as waiters (R313). -/
def Group.barWaiters (g : Group) (die cl : Nat) : Nat :=
  if g.die = die ∧ g.cluster = cl then 0
  else (g.entries.map fun e => match e.park with
    | some (.barwait objs refused) =>
      (objs.filter fun x => !refused.has x.1 && locDie x.2.1 == die && locCluster x.2.1 == cl).length
    | _ => 0).sum

/-- Waiters from other clusters that a cluster records: of `ldfe` (R226) and of `barwait` (R313). -/
def State.outsideWaiters (s : State) (die cl : Nat) : Nat :=
  (s.accs.filter fun b => b.phase == .waiter && locDie b.loc == die && locCluster b.loc == cl && s.fromOutside b.grp b.loc).length +
    (s.groups.map fun g => g.barWaiters die cl).sum

/-- `tex` reads are performed by an operation given by the caller; every other access acts here. The result is
none for an `ldfe` that finds its granule empty. -/
def State.actAt (s : State) (a : Access) : State :=
  let win := isStoreLoc a.loc
  let fe (s : State) : State := if win then s.feAct a.loc a.fe else s
  match a.kind with
  | .load sg =>
    if s.poisoned a.loc a.size then s.poisonDone a
    else s.finishAcc a { vals := [(a.d, extBytes sg a.size (s.rd a.loc a.size))] }
  | .store => (fe (s.wr a.loc a.size a.data.toNat)).finishAcc a {}
  | .stfe => (fe (s.wr a.loc 8 a.data.toNat)).finishAcc a {}
  | .fefill => (fe (s.wr a.loc 16 (a.data.toNat + 2 ^ 64 * a.data.toNat))).finishAcc a {}
  | .feq p =>
    let b := s.isFull a.loc
    (fe s).finishAcc a { pred := some (p, b) }
  | .ldfe =>
    if s.isFull a.loc then
      (if s.poisoned a.loc 8 then s.poisonDone a
       else
        let s' := s.finishAcc a { vals := [(a.d, BitVec.ofNat 64 (s.rd a.loc 8))] }
        if a.fe = 3 then s'.setFull a.loc false else s')
    else
      if s.fromOutside a.grp a.loc && decide (512 ≤ s.outsideWaiters (locDie a.loc) (locCluster a.loc)) then
        s.updAcc a.id fun a => { a with phase := .refused }
      else { s with next := s.next + 1 }.updAcc a.id fun a => { a with phase := .waiter, tag := s.next }
  | .atom .. | .atomf .. | .cas _ =>
    if s.poisoned a.loc 8 then s.poisonDone a
    else
      let old := BitVec.ofNat 64 (s.rd a.loc 8)
      (fe (s.wr a.loc 8 (atomNew a.kind old a.data a.data2).toNat)).finishAcc a { vals := [(a.d, old)] }
  | .line =>
    let s := s.updDie a.die fun d =>
      match a.data.toNat with
      | 1 => d.touch a.loc false a.cp
      | 2 => { d with lines := d.lines.filter fun x => x.line ≠ a.loc / 128 }
      | _ => { d with lines := d.lines.map fun x => if x.line = a.loc / 128 then { x with dirty := false } else x }
    s.dropAcc a.id
  | _ => s

/-! ### When an access may act (R221, R223, R230, R244, R252, R334) -/

/-- An earlier access of the group to overlapping bytes has not acted yet, or an earlier packet to overlapping bytes stands at the
same base die (R244). DESIGN CHOICE (log 83): R223 leaves the order of an item's accesses to the same bytes open where they go through
different windows with no fence between them; they too act in program order. -/
def State.mustFollow (s : State) (a : Access) : Bool :=
  s.accs.any fun b => decide (b.id < a.id) && b.unperformed && (b.overlaps a || b.samePage a) && b.phase != .waiter &&
    (b.grp == a.grp || (b.phase == .toHbm && a.phase == .toHbm && b.home == a.home))

/-- The write of a sequence number is not yet applied at a die, to which it or a line that the die's cache holds is addressed: it precedes
one that left `die` as number `n` with a clock (R334). -/
def State.precedes (s : State) (b : Access) (home die n : Nat) (clock : AMap Nat) : Bool :=
  b.kind.writes && b.unperformed && decide (0 < b.seqNo) && (b.home == home || (isDevice b.loc && s.cached home b.loc)) &&
    (if b.die = die then decide (b.seqNo < n) else decide (b.seqNo ≤ AMap.getD clock b.die 0))

/-- An earlier write of its stream (R262), or a write that precedes an arriving write in its clock, addressed to the same
die, has not been applied (R334). -/
def State.clockHolds (s : State) (a : Access) : Bool :=
  s.accs.any fun b => b.id != a.id && decide (0 < a.seqNo) && s.precedes b a.home a.die a.seqNo a.clock ||
    b.phase == .remoteWrite && b.home == a.home && b.die == a.die && decide (b.id < a.id)

/-- The quarter of a store location is waking or off (R229, R230). -/
def State.quarterOn (s : State) (loc : Nat) : Bool :=
  ((s.cluster (locDie loc) (locCluster loc)).quarters.getD (loc % 2 ^ 20 / 262144) .on) == .on

/-- Requests stand in the queue of the bank of a store location (R221). -/
def State.bankBusy (s : State) (l : Nat) : Bool :=
  (s.accs.any fun a => a.phase == .atBank && decide (0 < a.queued) && isStoreLoc a.loc && a.loc / 2 ^ 20 == l / 2 ^ 20 &&
    locBank a.loc == locBank l) ||
  s.reqs.any fun r => !r.done && decide (0 < r.queued) && isStoreLoc r.loc && r.loc / 2 ^ 20 == l / 2 ^ 20 && locBank r.loc == locBank l

/-- A request of a barrier form to one of these locations stands in its bank's queue: behind older requests, in a waking quarter, or on
a die that is relocking (R221, R230, R325; log 86). -/
def State.waking (s : State) (ls : List Nat) : Bool :=
  ls.any fun l => isStoreLoc l &&
    ((s.cluster (locDie l) (locCluster l)).quarters.getD (l % 2 ^ 20 / 262144) .on == .waking || s.bankBusy l || s.relocking (locDie l))

/-- A write to a `repl` page of a context at its leaf entry: it starts the collapse of a replicated page, and a page being collapsed is
not written (R252). The state, and whether the write may be performed now. -/
def State.collapseGate (s : State) (ctx : Nat) (pte : BitVec 64) (va : Nat) : State × Bool :=
  let home := bits (pteAddr pte.toNat) 47 42
  let key := replKey pte.toNat
  if s.collapses.any fun c => c.home == home && c.page == key then (s, false)
  else if s.replicated pte.toNat then
    let dies := (((s.ctx? ctx).bind fun c => s.partDies c (ptePart pte.toNat)).getD []).filter (· ≠ home)
    let s := s.updDie home fun d => { d with replicas := d.replicas.filter (· ≠ key) }
    if dies = [] then (s, true)
    else ({ s with collapses := s.collapses ++
      [{ home := home, page := key, ctx := ctx, va := va, todo := dies }] }, false)
  else (s, true)

/-- The writes of a list may all be performed now; the first that may not starts its collapse (R252). -/
def State.collapseAll (s : State) : List (Nat × BitVec 64 × Nat) → State × Bool
  | [] => (s, true)
  | (ctx, pte, va) :: t =>
    match s.collapseGate ctx pte va with
    | (s, false) => (s, false)
    | (s, true) => s.collapseAll t

/-- The gate of R252 for an access. -/
def State.replGate (s : State) (a : Access) : State × Bool :=
  match a.repl with
  | none => (s, true)
  | some (ctx, pte) => s.collapseGate ctx pte a.va

/-- The `repl` page that holds an address of a context, as an entry of `collapseAll`, by what the units of a die hold for it. -/
def State.replPage (s : State) (die ctx va : Nat) : List (Nat × BitVec 64 × Nat) :=
  match s.leafNow die ctx va with
  | .leaf level pte =>
    if pteAttr pte = 2 ∧ bit pte 2 ∧ !leafMalformed level pte then [(ctx, BitVec.ofNat 64 pte, va)] else []
  | .cause _ => []

/-! ### What a step of an engine or a unit needs (R244-R253, R380) -/

/-- What a step of an engine, a dispatcher or a unit uses: addresses to translate, writes to `repl` pages, bytes it reads and writes,
and whether a port or a route it goes through carries no traffic. -/
structure Need where
  vas : List Nat := []
  repl : List (Nat × BitVec 64 × Nat) := []
  reads : List Nat := []
  writes : List Nat := []
  stalled : Bool := false

/-- What two lists of accesses need together. -/
def Need.both (a b : Need) : Need :=
  { vas := a.vas ++ b.vas, repl := a.repl ++ b.repl, reads := a.reads ++ b.reads, writes := a.writes ++ b.writes
    stalled := a.stalled || b.stalled }

/-- Bytes from a location. -/
def bytesFrom (loc n : Nat) : List Nat := (List.range n).map (loc + ·)

/-- What a read, or a write, of `n` bytes at a virtual address of a context needs on a die. -/
def State.needVa (s : State) (die ctx : Nat) (write : Bool) (va n : Nat) : Need :=
  let repl := if write then s.replPage die ctx va else []
  match s.xlateNow die ctx va (if write then .write else .read) with
  | .ok pa tgt =>
    let bs := if tgt = 0 then bytesFrom pa n else []
    { vas := [va], repl := repl, reads := if write then [] else bs, writes := if write then bs else [], stalled := s.linkHeld die pa tgt }
  | _ => { vas := [va] }

/-- What reads and writes of virtual addresses need: pairs of an address and a count of bytes. -/
def State.needVas (s : State) (die ctx : Nat) (reads writes : List (Nat × Nat)) : Need :=
  let rs := reads.foldl (fun n p => n.both (s.needVa die ctx false p.1 p.2)) {}
  writes.foldl (fun n p => n.both (s.needVa die ctx true p.1 p.2)) rs

/-- The reads that a step needs have all been performed: `gate` answers yes. -/
def State.prepared (s : State) (q : Asker) (n : Need) : Bool :=
  n.vas.all (s.translated q.die q.ctx) && !n.stalled && s.answered q.owner false (spansOf n.reads)

/-- A step that needs these accesses may act now. Otherwise what it waits for is asked for: a walk for each address that is not
translated, the collapse of a page that it writes, and the requests to banks and base dies (R221, R244, R252, R253). -/
def State.gate (s : State) (q : Asker) (n : Need) : State × Bool :=
  match n.vas.filter fun va => !s.translated q.die q.ctx va with
  | [] =>
    if n.stalled then (s, false)
    else
      match s.collapseAll n.repl with
      | (s, false) => (s, false)
      | (s, true) =>
        match s.ask q n.reads n.writes with
        | (s, true) => (s.useWalks q.die q.ctx n.vas, true)
        | r => r
  | vas => (vas.foldl (fun (s : State) va => s.requestWalk q.die dieUnits q.ctx va q.part) s, false)

/-- A write of another die arrives on the item stream of the two, and raises the clock of the die once it has been applied there
(R334). -/
def State.arrive (s : State) (a : Access) : State :=
  if a.kind.writes ∧ a.die ≠ a.home then
    let s := s.itemFlit a.die a.home (AMap.getD a.clock a.die 0) a.data.toNat
    if 0 < a.seqNo then s.raiseClock a.home (AMap.set a.clock a.die a.seqNo) else s
  else s

/-- An access of another die cannot act yet: the two dies are cut off from each other (R45), or it writes and must wait for those that
precede it in its clock or for the item stream of the two (R334). -/
def State.crossHeld (s : State) (a : Access) : Bool :=
  a.die != a.home && (s.stalledPair a.die a.home || s.clockHolds a || (a.kind.writes && !s.itemStreamOpen a.die a.home))

/-- Perform an access at its location, by `act`, if it may act now. -/
def State.performAcc (act : State → Access → State) (s : State) (a : Access) : State :=
  if s.mustFollow a || s.crossHeld a then s
  else
    match s.replGate a with
    | (s, false) => s
    | (s, true) => act (s.arrive a) a

/-! ### Counted operations (R228, R351) -/

/-- Every lane of the operation has returned. -/
def State.opReturned (s : State) (o : CountedOp) : Bool := o.ready && !o.engine && !s.accs.any fun a => a.op == o.id

/-- The operation leaves its counter; a poisoned one is kept for delivery, off its counter, as number 9 (R351). One issued in handler
mode is a handler fault (R350). -/
def State.completeOp (s : State) (o : CountedOp) : State :=
  let rest := { s with ops := s.ops.filter fun (p : CountedOp) => p.id ≠ o.id }
  if o.poisoned = 0 then rest
  else if 4 ≤ o.ctr ∧ o.ctr < 8 then
    match s.group? o.grp with
    | some g =>
      if g.inHandler then
        rest.takeTrap g { pc := o.pc, prio := 15, mask := o.lanes } { cls := 14, addr := o.poisonAddr, tmask := o.poisoned }
      else rest
    | none => rest
  else
    let s := { s with ops := s.ops.map fun (p : CountedOp) => if p.id = o.id then { p with ctr := 9 } else p }
    s.updGroup o.grp fun g => { g with deliver := g.deliver ++ [o.id] }

end Sys2Proof.Machine
end

