-- ==== Sys2Proof/Machine/Chain.lean ====
section
/-! DEFINITION. Chain: running the members of a chain lane by lane (spec 04 R102-R104), and the runner every register form
shares. -/

namespace Sys2Proof.Machine

/-- What a chain has done so far: the group, the vector registers written, which members logged a shift count (by their
addresses, lowest first), and the latches of each lane, newest first. -/
structure ChainRun where
  g : Group
  written : List Nat := []
  logs : List Nat := []
  lats : AMap (List Word) := []

/-- Run the members of a chain in one lane, latches newest first (R103): `n` and `k` number the free latch value of a member that
writes no vector register. Each member's `dead` hint acts in the lane once the member has run there (R100; log 24). -/
def ChainRun.lane (n l : Nat) : List (Instr × Nat) → Nat → List Word → ChainRun → ChainRun
  | [], _, lat, r => { r with lats := AMap.set r.lats l lat }
  | (m, pc) :: ms, k, lat, r =>
    match m.alu with
    | none => r
    | some o =>
      let runs := m.info.guard == 2 || r.g.passes m.head.guard l
      let out := if runs then m.lane (r.g.laneOp m o l lat) else {}
      let g := if runs then r.g.laneWrite o l out else r.g
      let latch := if runs && out.noVal then Config.latchOfPredicate n k else out.val
      ChainRun.lane n l ms (k + 32) (latch :: lat)
        { r with
          g := g.applyDead (Mask.one l) m.head.hints.deadRegs
          written := if runs && !out.noVal && !o.nw then insertNat r.written o.d else r.written
          logs := if out.log then insertNat r.logs pc else r.logs }

/-- Run the members in the lanes of a list, in order. -/
def ChainRun.lanes (ms : List (Instr × Nat)) (n : Nat) (ls : List Nat) (r : ChainRun) : ChainRun :=
  ls.foldl (fun r l => ChainRun.lane n l ms l [] r) r

/-- The members of a chain with their addresses, and its final `st`, if it ends in one. -/
def Iss.chainParts (u : Iss) : List (Instr × Nat) × Option Instr :=
  let all := (u.i, u.e.pc) :: u.ms
  match all.getLast? with
  | some (m, _) => if m.isStore then (all.dropLast, some m) else (all, none)
  | none => (all, none)

/-- One log record for each member that met a shift count out of range (R136, R354). -/
def State.logShifts (s : State) (g : Group) (pcs : List Nat) : State :=
  pcs.foldl (fun s pc => s.logGroup g 1 0 0 0 pc) s

/-- The chain completes (R104, R107): its `dead` hints have acted member by member; what is still on its way to a register they
name, which no member names otherwise (R101), is discarded (R100). -/
def Iss.chainDone (u : Iss) (r : ChainRun) : State :=
  let u := { u with s := u.s.discard u.g u.e.mask u.deads }
  (u.finishAs r.g [] u.y u.stall fun e => [e.advance u.words]).logShifts u.g r.logs

/-- The vector registers the members of a chain write in one lane. -/
def Iss.chainWrites (u : Iss) (ms : List (Instr × Nat)) (n l : Nat) : List Nat :=
  (ChainRun.lane n l ms 0 [] { g := u.g }).written

/-- The registers that the lanes of a list write, and the lanes whose writes cannot be mapped (R54): registers are mapped lane by lane, in
ascending order. -/
def State.chainFits (s : State) (g : Group) (writes : Nat → List Nat) : List Nat → List Nat → List Nat × Mask
  | [], acc => (acc, 0)
  | l :: ls, acc =>
    let ws := (acc ++ writes l).dedup
    match s.regGate g ws with
    | .limit => let r := s.chainFits g writes ls acc; (r.1, r.2 ||| Mask.one l)
    | _ => s.chainFits g writes ls ws

/-- A lane whose writes cannot be mapped takes the register-limit trap, whatever else it meets: class 5 is the lowest (R54, R425). -/
def limitPlans (lim : Mask) (ps : List (Nat × Plan)) : List (Nat × Plan) :=
  if lim = 0 then ps
  else (lanes.filter fun l => lim.has l || ps.any (·.1 == l)).map fun l =>
    (l, if lim.has l then .bad 5 0 0 else ((ps.find? (·.1 == l)).map (·.2)).getD (.skip 0))

/-- A chain with lanes that trap: they take none of their chain writes, the others complete theirs (R104, R425). -/
def Iss.chainTrap (u : Iss) (ms : List (Instr × Nat)) (g0 : Group) (n : Nat) (a : TrapArgs) (d : Group → Group) : State :=
  let r := ChainRun.lanes ms n (u.act &&& ~~~a.tmask).toList { g := g0 }
  (u.trapAfter (d r.g) a).logShifts u.g r.logs

/-- The final `st` of a chain, once the other members have run in `all` (R104): lanes that fault take none of their chain writes. A chain
issued again logs the shift counts of the lanes it runs in again (R137; DESIGN CHOICE, log 100). -/
def Iss.chainStore (u : Iss) (ms : List (Instr × Nat)) (st : Instr) (g0 : Group) (n : Nat) (lim : Mask) (all : ChainRun) : State :=
  match st.accForm with
  | none => u.s
  | some f =>
    let h := st.head.hints
    let m := Mask.ofPred fun l => u.act.has l && all.g.passes st.head.guard l
    if m ≠ 0 ∧ 63 ≤ u.s.counter u.g.id (u.g.ctr f.cc) then u.s
    else if u.s.orderHolds u.g m h.rel then u.s
    else
      let ps : List (Nat × Plan) := limitPlans lim <|
        m.toList.map fun l => (l, u.s.planAddr all.g f (f.needsWindow h) (all.g.effAddr f l (AMap.getD all.lats l [])))
      let waits := ps.filterMap fun x => match x.2 with | .wait ea => some ea | _ => none
      if waits ≠ [] then waits.foldl (fun s ea => s.requestWalk u.g.die u.g.cluster u.ctx ea (u.s.groupPart u.g)) u.s
      else
        let s := u.s.consumeWalks u.g.die u.g.cluster u.ctx
        match planTrap ps with
        | some a =>
          let run := ChainRun.lanes ms n (u.act &&& ~~~a.tmask).toList { g := g0 }
          let u := { u with s := s.issueOp run.g f h u.e true ps }
          u.chainTrap ms g0 n a fun g => g.applyDead (u.act &&& ~~~a.tmask) h.deadRegs
        | none =>
          let u := { u with s := s.issueOp all.g f h u.e false ps }
          u.chainDone { all with g := all.g.applyDead u.act h.deadRegs }

/-- Run a chain (R102-R104): the conditions of its members and of its final `st` are taken together, lane by lane (R425). -/
def Iss.runChain (u : Iss) : State :=
  let (ms, st) := u.chainParts
  let n := u.s.draw
  let (ws, lim) := u.s.chainFits u.g (u.chainWrites ms n) u.act.toList []
  match u.s.regGate u.g ws with
  | .wait g => u.s.updGroup g.id fun _ => g
  | .limit => u.s
  | .ok g =>
    let u := { u with s := { u.s with draw := n + 512 } }
    let r := ChainRun.lanes ms n u.act.toList { g := g }
    match st with
    | some st => u.chainStore ms st g n lim r
    | none =>
      match planTrap (limitPlans lim []) with
      | some a => u.chainTrap ms g n a id
      | none => u.chainDone r

/-- Issue a register form, alone or as the head of a chain (R126, R102). -/
def aluSeq (i : Instr) (s : State) : Host.Outcome State Fault Refusal :=
  issue i s fun u =>
    if i.head.hints.chain.isSome then u.runChain
    else
      match i.alu with
      | some o => u.runAlu o
      | none => u.s

end Sys2Proof.Machine
end

