-- ==== Sys2Proof/Machine/Special.lean ====
section
/-! DEFINITION. Special: predicate logic, predicate moves, and the special registers (spec 05 R144-R145, R149-R154; spec 04
R112; spec 06 R158-R160; spec 11 R316). -/

namespace Sys2Proof.Machine

/-- Run a meaning once the vector registers it writes are mapped (R54, R99). -/
def Iss.withRegs (u : Iss) (ws : List Nat) (k : Iss → State) : State :=
  match u.s.regGate u.g ws with
  | .wait g => u.s.updGroup g.id fun _ => g
  | .limit => u.trap { cls := 5, tmask := u.ex }
  | .ok g => k { u with g := g }

/-- Write a vector register in every executing lane and complete. -/
def Iss.writeV (u : Iss) (d : Nat) (f : Nat → Word) : State :=
  u.withRegs (if u.ex = 0 then [] else [d]) fun u =>
    u.finish (u.ex.toList.foldl (fun g l => g.setV d l (f l)) u.g)

/-- Write one predicate in every executing lane and complete. -/
def Iss.writeP (u : Iss) (pd : Nat) (f : Nat → Bool) : State :=
  u.finish (u.ex.toList.foldl (fun g l => g.setPn pd l (f l)) u.g)

/-! ### Predicate logic (Table 5.5) -/

/-- A predicate operand of a Q form, inverted by its N bit. -/
def Group.predOp (g : Group) (p : BitVec 4) (n : Bool) (l : Nat) : Bool := g.getPn p.toNat l != n

/-- Run a two-operand predicate form. -/
def predSeq (i : Instr) (f : FQ) (op : Bool → Bool → Bool) (s : State) : Out :=
  issue i s fun u => u.writeP f.pd.toNat fun l => op (u.g.predOp f.pa f.n1 l) (u.g.predOp f.pb f.n2 l)

/-- `pand` (R144). -/
def execPand (h : Head) (f : FQ) (s : State) : Out := predSeq (.pand h f) f (· && ·) s

/-- `por` (R144). -/
def execPor (h : Head) (f : FQ) (s : State) : Out := predSeq (.por h f) f (· || ·) s

/-- `pxor` (R144). -/
def execPxor (h : Head) (f : FQ) (s : State) : Out := predSeq (.pxor h f) f (· != ·) s

/-- `pnot` (R144). -/
def execPnot (h : Head) (f : FQu) (s : State) : Out :=
  issue (.pnot h f) s fun u => u.writeP f.pd.toNat fun l => !u.g.predOp f.pa f.n1 l

/-- `movp` from predicates to a vector register (R145). -/
def execMovpToVector (h : Head) (f : FMovpV) (s : State) : Out :=
  issue (.movpToVector h f) s fun u =>
    u.writeV f.d.toNat fun l =>
      if f.one then BitVec.ofNat 64 (b2n (u.g.getPn f.pn.toNat l)) else (u.g.getP l).zeroExtend 64

/-- `movp` from a source to predicates (R145). -/
def execMovpToPredicates (h : Head) (f : FMovpP) (s : State) : Out :=
  issue (.movpToPredicates h f) s fun u =>
    u.finish <| u.ex.toList.foldl (fun g l =>
      let a := readSrc u.g l [] 0 f.a
      if f.one then g.setPn f.pn.toNat l (a != 0) else g.setP l (a.truncate 16)) u.g

/-! ### Special registers (Tables 5.6, 5.7) -/

/-- `sr.supply` for an item of a stage (Table 5.7). -/
def State.srSupply (s : State) (g : Group) (stage : Nat) : Nat :=
  match s.groupLaunch? g with
  | none => 0
  | some l =>
    let k := l.stock g.die stage
    let exh := stage == 0 && k.count == 0 && (!l.deal || l.cores || k.final)
    b2n exh * 2 ^ 63 + k.count % 2 ^ 48

/-- A special register as seen by a lane of an entry (R151). -/
def State.srRead (s : State) (g : Group) (e : Entry) (l n : Nat) : Word :=
  let it := (AMap.get? g.items l).getD {}
  let d := (s.die? g.die).getD { num := g.die }
  match n with
  | 0x00 => it.item0.zeroExtend 64
  | 0x01 => it.item1.zeroExtend 64
  | 0x02 => it.item2.zeroExtend 64
  | 0x03 => it.itemid.zeroExtend 64
  | 0x04 => BitVec.ofNat 64 it.stage
  | 0x05 => BitVec.ofNat 64 (AMap.getD g.ages l 0)
  | 0x06 => BitVec.ofNat 64 l
  | 0x07 => BitVec.ofNat 64 (s.srGroup g)
  | 0x08 => BitVec.ofNat 64 (s.srGang g)
  | 0x09 => BitVec.ofNat 64 (((s.groupLaunch? g).map Launch.sr).getD 0)
  | 0x0A => BitVec.ofNat 64 (s.groupCtx g % 65536)
  | 0x0B => BitVec.ofNat 64 g.die
  | 0x0C => BitVec.ofNat 64 g.cluster
  | 0x0D => BitVec.ofNat 64 g.core
  | 0x10 => BitVec.ofNat 64 s.gtime
  | 0x11 => BitVec.ofNat 64 d.cyc
  | 0x12 => BitVec.ofNat 64 d.stepG
  | 0x13 => BitVec.ofNat 64 d.stepC
  | 0x14 => d.ratio
  | 0x15 => BitVec.ofNat 64 (s.gtime / 2048)
  | 0x18 => match e.stack with | .loop _ _ k :: _ => k.zeroExtend 64 | _ => 0
  | 0x19 => BitVec.ofNat 64 g.repi
  | 0x1A => g.fpmode
  | 0x1B => g.fpflags
  | 0x1C => g.syncst
  | 0x1D => BitVec.ofNat 64 (s.srSupply g it.stage)
  | 0x1E => BitVec.ofNat 64 (((s.groupContext? g).map (·.lens)).getD 0)
  | _ => 0

/-- `movs` (R149, R153). -/
def execMovs (h : Head) (f : FMovs) (s : State) : Out :=
  issue (.movs h f) s fun u =>
    let n := f.srn.toNat
    if (n = 0x1B ∨ n = 0x1C) ∧ !u.allWritten then u.s
    else
      let val (l : Nat) : Word := if n = 0x3F then readSrc u.g l [] 0 f.a else u.s.srRead u.g u.e l n
      if f.sd then u.finish (if u.ex = 0 then u.g else u.g.setS f.d.toNat (val (lowLane u.ex)))
      else u.writeV f.d.toNat val

/-- `movsw` (R150, R154). -/
def execMovsw (h : Head) (f : FMovsw) (s : State) : Out :=
  issue (.movsw h f) s fun u =>
    let a := readSrc u.g (lowLane u.act) [] 0 f.a
    match f.srn.toNat with
    | 0x18 =>
      u.finishWith u.g fun e =>
        [({ e with stack := match e.stack with | .loop st fin _ :: t => .loop st fin (a.truncate 32) :: t | t => t }).advance
          u.words]
    | 0x1A =>
      if fpmodeOk a then u.finish { u.g with fpmode := a } else u.trap { cls := 1, detail := 10, tmask := u.act }
    | 0x1B =>
      if !u.allWritten then u.s
      else if fpflagsOk a then u.finish { u.g with fpflags := a }
      else u.trap { cls := 1, detail := 10, tmask := u.act }
    | _ => if u.allWritten then u.finish { u.g with syncst := syncstWrite u.g.syncst a } else u.s

end Sys2Proof.Machine
end

