-- ==== Sys2Proof/Machine/Barrier.lean ====
section
/-! DEFINITION. Barrier: barrier objects, the package barrier and its tree (spec 11 R309-R316, spec 20 R420-R421). A barrier
step is performed at its granule's bank when its sequence issues (log 17). -/

namespace Sys2Proof.Machine

/-! ### Barrier objects (Table 11.2) -/

def barInit (o : Nat) : Bool := bit o 34
def barPhase (o : Nat) : Bool := bit o 32
def barPend (o : Nat) : Nat := bits o 31 16
def barExp (o : Nat) : Nat := bits o 15 0

/-- An object with new PHASE, PEND and EXP; its other bits stay. -/
def barSet (o : Nat) (phase : Bool) (pend exp : Nat) : Nat :=
  o / 2 ^ 33 * 2 ^ 33 + b2n phase * 2 ^ 32 + pend % 2 ^ 16 * 2 ^ 16 + exp % 2 ^ 16

/-- The phase completes where PEND is 0: PHASE turns and PEND takes EXP (R309). -/
def barComplete (o : Nat) : Nat := if barPend o = 0 then barSet o (!barPhase o) (barExp o) (barExp o) else o

/-- A barrier form that acts on one lane. -/
inductive BarOp where
  | join (now : Bool)
  | arrive
  | wait
  | drop
  deriving DecidableEq, Repr

/-- The lane's membership entry for an object. -/
def Item.member? (it : Item) (obj : Nat) : Option Member := it.members.find? (·.obj == obj)

/-- Table 11.4: the step takes the illegal-state trap. -/
def BarOp.misused (op : BarOp) (o : Nat) (it : Item) (obj : Nat) : Bool :=
  !barInit o ||
  match op, it.member? obj with
  | .join now, e =>
    e.isSome || decide (2 ≤ it.members.length) ||
      (if now then barPend o == 0 && barExp o == 0 else barExp o == 0xFFFF)
  | .arrive, none | .drop, none | .wait, none => true
  | .arrive, some e => e.ph != barPhase o || barPend o == 0
  | .drop, some e => barExp o == 0 || (e.ph == barPhase o && barPend o == 0)
  | .wait, some e => !e.arr

/-- One step on an object and an item (R312); `barwait` changes neither. -/
def BarOp.act (op : BarOp) (o : Nat) (it : Item) (obj addr : Nat) : Nat × Item :=
  match op with
  | .join true => (o, { it with members := it.members ++ [{ obj := obj, addr := addr, ph := barPhase o, arr := false }] })
  | .join false =>
    if barPend o = 0 ∧ barExp o = 0 then
      (barSet o (barPhase o) 1 1, { it with members := it.members ++ [{ obj := obj, addr := addr, ph := barPhase o, arr := false }] })
    else
      (barSet o (barPhase o) (barPend o) (barExp o + 1),
        { it with members := it.members ++ [{ obj := obj, addr := addr, ph := !barPhase o, arr := false }] })
  | .arrive =>
    (barComplete (barSet o (barPhase o) (barPend o - 1) (barExp o)),
      { it with members := it.members.map fun (m : Member) => if m.obj = obj then { m with ph := !barPhase o, arr := true } else m })
  | .drop =>
    let owes := ((it.member? obj).map fun m => m.ph == barPhase o).getD false
    let o1 := barSet o (barPhase o) (barPend o) (barExp o - 1)
    (if owes then barComplete (barSet o1 (barPhase o1) (barPend o1 - 1) (barExp o1)) else o1,
      { it with members := it.members.filter fun m => m.obj ≠ obj })
  | .wait => (o, it)

/-- A source of a barrier form as a lane's address: bits [63:56] ignored. -/
def Group.barAddr (g : Group) (a : Src) (l : Nat) : Nat := (readSrc g l [] 0 a).toNat % 2 ^ 56

/-- The access a barrier form makes at an address, for the checks of R219 (R309). -/
def barForm : AccForm :=
  { kind := .fefill, size := 16, use := .write, d := 0, a := .const 0, off := 0, cc := 0, feForm := true }

/-- What the lanes of a barrier sequence have come to. -/
structure BarRun where
  s : State
  g : Group
  bad : List (Nat × Plan) := []
  /-- lanes whose `barwait` must wait: object and phase -/
  waits : AMap (Nat × Bool) := []
  /-- those of them that a full pool refuses (R313), and lanes whose `barwait` is done -/
  refused : Mask := 0
  passed : Mask := 0

/-- The phase of an object is the one awaited (R312). -/
def State.barPassed (s : State) (w : Nat × Bool) : Bool := barPhase (s.rd w.1 16) == w.2

/-- Entries of a group whose parked `barwait` names an object unpark where every lane's condition holds (R313). -/
def Group.wakeBarwaits (g : Group) (obj : Nat) (ok : Nat × Bool → Bool) : Group :=
  { g with entries := g.entries.map fun e =>
      match e.park with
      | some (.barwait objs refused) =>
        if refused = 0 && objs.any (fun x => x.2.1 == obj) && objs.all (fun x => ok x.2) then { e with park := none } else e
      | _ => e }

/-- A barrier step has written an object: a phase that completed unparks its waiters in the same bank cycle (R313). -/
def BarRun.wrote (r : BarRun) (loc old new : Nat) : BarRun :=
  if barPhase old = barPhase new then r
  else { r with s := { r.s with groups := r.s.groups.map fun (g : Group) => g.wakeBarwaits loc r.s.barPassed }
                g := r.g.wakeBarwaits loc r.s.barPassed }

/-- A lane's `barwait` becomes a waiter of its object, or is refused by a full pool of another cluster (R313). -/
def BarRun.wait (r : BarRun) (l loc : Nat) (ph : Bool) : BarRun :=
  let mine := (r.waits.filter fun x => !r.refused.has x.1 && x.2.1 / 2 ^ 20 == loc / 2 ^ 20).length
  let full := r.s.fromOutside r.g.id loc && decide (512 ≤ r.s.outsideWaiters (locDie loc) (locCluster loc) + mine)
  { r with waits := AMap.set r.waits l (loc, ph), refused := if full then r.refused ||| Mask.one l else r.refused }

/-- One lane's step (R309, R312, R425). -/
def BarRun.lane (op : BarOp) (a : Src) (r : BarRun) (l : Nat) : BarRun :=
  let ea := r.g.barAddr a l
  match r.s.planAddr r.g barForm true ea with
  | .bad c d x => { r with bad := r.bad ++ [(l, .bad c d x)] }
  | .go _ loc _ _ =>
    let o := r.s.rd loc 16
    let it := (AMap.get? r.g.items l).getD {}
    if r.s.poisoned loc 16 then { r with bad := r.bad ++ [(l, .bad 10 0 ea)] }
    else if op.misused o it loc then { r with bad := r.bad ++ [(l, .bad 2 5 0)] }
    else
      match op with
      | .wait =>
        let ph := ((it.member? loc).map (·.ph)).getD (barPhase o)
        if barPhase o = ph then { r with passed := r.passed ||| Mask.one l } else r.wait l loc ph
      | _ =>
        let (o', it') := op.act o it loc ea
        { r with s := r.s.wr loc 16 o', g := { r.g with items := AMap.set r.g.items l it' } }.wrote loc o o'
  | _ => r

/-- A barrier step can be performed at the bank of an object: its quarter is on, no older request stands in its queue, and its die
does not relock (R221, R230, R325; log 17). -/
def State.barBank (s : State) (loc : Nat) : Bool := s.quarterOn loc && !s.waking [loc]

/-- The objects that lanes of the sequence name can be reached. -/
def Iss.barReady (u : Iss) (a : Src) (ls : List Nat) : Bool :=
  ls.all fun l => match u.s.planAddr u.g barForm true (u.g.barAddr a l) with | .go _ loc _ _ => u.s.barBank loc | _ => true

/-- Earlier accesses of the lanes to the objects' bytes have not acted, or any at a release (R223, R311, R329). -/
def Iss.barHeld (u : Iss) (release : Bool) : Bool :=
  u.s.accs.any fun a => a.grp == u.g.id && u.e.mask.has a.lane && a.unperformed && (release || isStoreLoc a.loc || a.acq)

/-- Lanes in which a barrier form acts: `barwait` in those of the entry that are not done with it (R346, R361). -/
def Iss.barLanes (u : Iss) (op : BarOp) : Mask :=
  if op = .wait then u.g.execMask u.i u.e.mask &&& ~~~u.e.readDone else u.ex

/-- Issue a barrier form that acts on one lane at a time. Where lanes of a `barwait` trap, the others go on waiting. -/
def barSeq (i : Instr) (op : BarOp) (a : Src) (s : State) : Out :=
  issue i s fun u =>
    let ls := (u.barLanes op).toList
    if !u.barReady a ls || u.barHeld (op == .arrive || op == .drop) then u.s
    else
      let r := ls.foldl (BarRun.lane op a) { s := u.s, g := u.g }
      let u := { u with s := r.s }
      match planTrap r.bad with
      | some t =>
        let g := r.g.updEntry u.e.mask fun e => { e with readDone := e.readDone ||| r.passed }
        u.trapAfter g
          { t with fetchError := t.cls == 10, addr := if t.cls = 2 then 0 else t.addr, joins := op == .wait }
      | none => if r.waits = [] then u.finish r.g else u.park r.g (.barwait r.waits r.refused)

/-- `barjoin` (R312). -/
def execBarjoin (h : Head) (f : FBa) (s : State) : Out := barSeq (.barjoin h f) (.join false) f.a s

/-- `barjoin.now` (R312). -/
def execBarjoinNow (h : Head) (f : FBaN) (s : State) : Out := barSeq (.barjoinNow h f) (.join true) f.a s

/-- `bararr` (R312). -/
def execBararr (h : Head) (f : FBa) (s : State) : Out := barSeq (.bararr h f) .arrive f.a s

/-- `barwait` (R312, R313). -/
def execBarwait (h : Head) (f : FBa) (s : State) : Out := barSeq (.barwait h f) .wait f.a s

/-- `bardrop` (R312). -/
def execBardrop (h : Head) (f : FBa) (s : State) : Out := barSeq (.bardrop h f) .drop f.a s

/-- `barinit` (R312): once, for the lowest lane of active(entry). -/
def execBarinit (h : Head) (f : FBi) (s : State) : Out :=
  issue (.barinit h f) s fun u =>
    let l := lowLane u.act
    let ea := u.g.barAddr f.a l
    let n := (readSrc u.g l [] 0 f.b).toNat % 2 ^ 16
    match u.s.planAddr u.g barForm true ea with
    | .bad c d x => u.trap { cls := c, detail := d, addr := x, tmask := u.act }
    | .go _ loc _ _ =>
      if !u.s.barBank loc || u.barHeld false then u.s
      else { u with s := u.s.wr loc 16 (2 ^ 34 + n * 2 ^ 16 + n) }.finish u.g
    | _ => u.s

/-! ### The package barrier (R314-R316) -/

/-- What the hints of a sequence ask for at its completion. -/
def Iss.toClose (u : Iss) : Close := { words := u.words, dead := u.deads, y := u.y, stall := u.stall }

/-- The parked sequence of an entry completes (R95, R100, R107), while the group handles a trap too (R349). -/
def Group.closePark (g : Group) (m : Mask) (c : Close) : Group :=
  let f := g.frame
  let g := { g with frame := none }.applyDead m c.dead
  let g := g.updEntry m fun e => { e.advance c.words with yielded := e.yielded || c.y }
  { g.setFront (Entry.normalise g.front) with stall := Nat.max g.stall c.stall, frame := f }

/-- `pbar` (R314): it parks until its launch's episode is released; after a break it completes at once (R315). -/
def execPbar (h : Head) (s : State) : Out :=
  issue (.pbar h) s fun u =>
    match (u.s.groupLaunch? u.g).bind (·.brokenBy) with
    | some d => u.finish { u.g with syncst := syncstBreak u.g.syncst 1 d }
    | none => u.park u.g (.pbar u.toClose)

/-- Groups of a launch on a die. -/
def State.launchGroups (s : State) (l die : Nat) : List Group :=
  s.groups.filter fun g => g.die == die && ((s.gang? g.gang).map (·.launch)) == some l

/-- Lanes of a group parked at `pbar`. -/
def Group.atPbar (g : Group) : Mask :=
  g.entries.foldl (fun m e => match e.park with | some (.pbar _) => m ||| e.mask | _ => m) 0

/-- Dies that hold gangs of a launch. -/
def State.launchDies (s : State) (l : Launch) : List Nat :=
  l.dies.filter fun d => s.gangs.any fun g => g.launch == l.id && g.pdie == d

/-- Every item of the launch on the die is parked at `pbar` and its earlier writes are performed (R314, R420). -/
def State.dieReady (s : State) (l : Launch) (die : Nat) : Bool :=
  let gs := s.launchGroups l.id die
  !gs.isEmpty && gs.all (fun g => g.liveLanes == g.atPbar) && !s.conts.any (fun c => c.launch == l.id && c.die == die) &&
    !(s.gangs.any fun g => g.launch == l.id && g.pdie == die && (g.saved.isSome || g.preempting)) &&
    ((gs.any fun g => g.atPbar != 0) || (l.stock die 0).count == 0) &&
    !s.accs.any fun a => gs.any (·.id == a.grp) && decide (a.lane < 32)

/-- DIE_ARRIVAL (R314, R325, R420). -/
def execDieArrival (l die : Nat) (s : State) : Out :=
  .next <|
    match s.launch? l with
    | none => s
    | some x =>
      if x.live && !s.relocking die && (s.launchDies x).contains die && !x.arrived.contains die &&
          !x.releasing.contains die && x.brokenBy.isNone && s.dieReady x die then
        s.updLaunch l fun x => { x with arrived := insertNat x.arrived die }
      else s

/-- Children of a node of the barrier tree (R314): the next die east, and from column 0 the next die south. -/
def treeChildren (node : Nat) : List Nat :=
  (if node % 8 < 7 then [node + 1] else []) ++ (if node % 8 = 0 ∧ node < 56 then [node + 8] else [])

/-- TREE_ARRIVAL: a node forwards once all its children have, unless the link to its parent is cut (R45); at the root the release goes
down (R314, R421). -/
def execTreeArrival (l node : Nat) (s : State) : Out :=
  .next <|
    match s.launch? l with
    | none => s
    | some x =>
      let need := s.launchDies x
      let own := !need.contains node || x.arrived.contains node
      let kids := (treeChildren node).all fun c => (s.die? c).isNone || x.treeAt.contains c
      if x.live && x.brokenBy.isNone && need ≠ [] && own && kids && !x.treeAt.contains node && !s.hopCut node &&
          (s.die? node).isSome then
        s.updLaunch l fun x =>
          if node = 0 then { x with arrived := [], treeAt := [], releasing := need }
          else { x with treeAt := insertNat x.treeAt node }
      else s

/-- The entries of a group parked at `pbar` complete, with its status register updated (R314-R316). -/
def Group.releasePbar (g : Group) (f : Word → Word) : Group :=
  if g.atPbar = 0 then g
  else
    let g' := { g with syncst := f g.syncst }
    g.entries.foldl (fun g e => match e.park with | some (.pbar c) => g.closePark e.mask c | _ => g) g'

/-- The entries of a launch on a die that are parked at `pbar` unpark: the surge pool returns where their `dead` hints free its
registers (R54). -/
def State.unparkPbar (s : State) (l die : Nat) (f : Word → Word) : State :=
  let ids := (s.launchGroups l die).map (·.id)
  { s with groups := s.groups.map fun (g : Group) => if ids.contains g.id then s.surgeFall g (g.releasePbar f) else g }

/-- What reaches a die of a launch's package barrier takes effect there: its episode's release, which comes down
the tree (R45), or the break (R314-R316). -/
def State.pbarReaches (s : State) (x : Launch) (die : Nat) : State :=
  match x.brokenBy with
  | some d => s.unparkPbar x.id die fun w => syncstBreak w 1 d
  | none =>
    if x.releasing.contains die && !s.treeCut 16 die then
      (s.updLaunch x.id fun x => { x with releasing := x.releasing.filter (· ≠ die) }).unparkPbar x.id die syncstEpisode
    else s

/-- PBAR_RELEASE: the release reaches a die, whose parked entries unpark unless it relocks (R314, R316, R421). -/
def execPbarRelease (l die : Nat) (s : State) : Out :=
  .next <|
    match s.launch? l with
    | none => s
    | some x => if x.releasing.contains die && !s.relocking die then s.pbarReaches x die else s

/-- R315: a break of a launch's package barrier releases every waiter on the surviving dies, on one that relocks when the relock ends
(R421). -/
def State.breakBarrier (s : State) (l die : Nat) : State :=
  let s := s.updLaunch l fun x => { x with brokenBy := some (x.brokenBy.getD die), arrived := [], treeAt := [], releasing := [] }
  match s.launch? l with
  | none => s
  | some x => (x.dies.filter fun d => d != die && !s.relocking d).foldl (fun (s : State) d => s.pbarReaches x d) s

end Sys2Proof.Machine
end

