-- ==== Sys2Proof/Machine/Fence.lean ====
section
/-! DEFINITION. Fence: fences, and the ticks that order `fence.sc` over the package (spec 12 R335-R338, R341). -/

namespace Sys2Proof.Machine

/-- An access that a fence waits for: one not yet performed, a ray traversal excepted (R335, R326). -/
def Access.fenced (a : Access) : Bool :=
  match a.kind with
  | .ray .. => false
  | _ => a.phase != .hbmDone && a.phase != .remoteReply || !a.kind.writes

/-- Earlier accesses of the lanes of the entry are not all performed (R335). -/
def Iss.fenceHeld (u : Iss) : Bool :=
  u.s.accs.any fun a => a.grp == u.g.id && u.e.mask.has a.lane && a.fenced

/-- `fence` (R335): every scope waits for all earlier accesses of the items. -/
def execFence (h : Head) (f : FFence) (s : State) : Out :=
  issue (.fence h f) s fun u => if u.fenceHeld then u.s else u.finish u.g

/-- Accesses that a core issued before an identifier are not all performed (R336). -/
def State.coreUndrained (s : State) (g : Group) (bound : Nat) : Bool :=
  s.accs.any fun a => decide (a.id < bound) && a.fenced &&
    (match s.group? a.grp with
      | some h => h.die == g.die && h.cluster == g.cluster && h.core == g.core
      | none => false)

/-- `fence.sc` (R336): it drains its core, takes its heartbeat and fence count, and waits until that tick closes. -/
def execFenceSc (h : Head) (s : State) : Out :=
  issue (.fenceSc h) s fun u =>
    let mark (s : State) (x : Nat × Option (Nat × Nat)) : State :=
      s.updGroup u.g.id fun g => g.updEntry u.e.mask fun e => { e with sc := some x, mid := true }
    match u.e.sc with
    | none => mark u.s.fresh (u.s.next, none)
    | some (n, none) =>
      if u.s.coreUndrained u.g n || u.fenceHeld then u.s
      else
        let d := (u.s.die? u.g.die).getD { num := u.g.die }
        let c := d.fenceCount + 1
        mark (u.s.updDie u.g.die fun d => { d with fenceCount := c }) (n, some (u.s.gtime / 2048, c.toNat))
    | some (_, some (hb, _)) =>
      if hb < ((u.s.die? u.g.die).map (·.closedTick)).getD 0 then u.finish u.g else u.s

/-! ### Ticks (R338) -/

/-- A package- or system-scope write that a die issued before a time is not yet performed (R338); one to a failed die never is, and is not
waited for. -/
def State.writesOpen (s : State) (die before : Nat) : Bool :=
  s.accs.any fun a => a.die == die && a.kind.writes && decide (5 ≤ a.scope) && a.unperformed && decide (a.time < before) && !s.lost a.home

/-- TICK_MARKER_SEND: a die sends its next tick marker (R338, R325). -/
def execTickMarkerSend (die : Nat) (s : State) : Out :=
  .next <|
    match s.die? die with
    | none => s
    | some d =>
      if 2048 * (d.sentTick + 1) ≤ s.gtime && !s.writesOpen die (2048 * (d.sentTick + 1)) && !d.failed && d.relock.isNone then
        s.updDie die fun d => { d with sentTick := d.sentTick + 1 }
      else s

/-- Every logical die that is not marked failed has given its marker for the next tick. -/
def State.tickGathered (s : State) : Bool :=
  s.dies ≠ [] && s.dies.all fun d => d.failed || (AMap.getD s.ticks s.closed []).contains d.num

/-- TICK_MARKER: the tree gathers the next marker of a die; the root closes ticks in ascending order (R338). -/
def execTickMarker (die : Nat) (s : State) : Out :=
  .next <|
    match s.die? die with
    | none => s
    | some d =>
      let got := AMap.getD s.ticks s.closed []
      if s.closed < d.sentTick && !got.contains die && !s.treeCut 16 die then
        let s := { s with ticks := AMap.set s.ticks s.closed (insertNat got die) }
        if s.tickGathered then { s with closed := s.closed + 1, ticks := AMap.erase s.ticks s.closed } else s
      else s

/-- TICK_CLOSING: the closing of the next tick reaches a die (R338). -/
def execTickClosing (die : Nat) (s : State) : Out :=
  .next <|
    match s.die? die with
    | some d => if d.closedTick < s.closed && !s.treeCut 16 die then s.updDie die fun d => { d with closedTick := d.closedTick + 1 } else s
    | none => s

end Sys2Proof.Machine
end

