-- ==== Sys2Proof/Machine/Local.lean ====
section
/-! DEFINITION. Local: the access forms of opcodes 0x90-0xA9 (spec 08 R237-R241), each issued by the shared access runner. -/

namespace Sys2Proof.Machine

/-- `ld.n8` (R237). -/
def execLdN8 (h : Head) (f : FM) (s : State) : Out := issue (.ldN8 h f) s Iss.runAcc

/-- `ld.n16` (R237). -/
def execLdN16 (h : Head) (f : FM) (s : State) : Out := issue (.ldN16 h f) s Iss.runAcc

/-- `ld.n32` (R237). -/
def execLdN32 (h : Head) (f : FM) (s : State) : Out := issue (.ldN32 h f) s Iss.runAcc

/-- `ld.b64` (R237). -/
def execLdB64 (h : Head) (f : FM) (s : State) : Out := issue (.ldB64 h f) s Iss.runAcc

/-- `ld.s8` (R237). -/
def execLdS8 (h : Head) (f : FM) (s : State) : Out := issue (.ldS8 h f) s Iss.runAcc

/-- `ld.s16` (R237). -/
def execLdS16 (h : Head) (f : FM) (s : State) : Out := issue (.ldS16 h f) s Iss.runAcc

/-- `ld.s32` (R237). -/
def execLdS32 (h : Head) (f : FM) (s : State) : Out := issue (.ldS32 h f) s Iss.runAcc

/-- `st.b8` (R237). -/
def execStB8 (h : Head) (f : FM) (s : State) : Out := issue (.stB8 h f) s Iss.runAcc

/-- `st.b16` (R237). -/
def execStB16 (h : Head) (f : FM) (s : State) : Out := issue (.stB16 h f) s Iss.runAcc

/-- `st.b32` (R237). -/
def execStB32 (h : Head) (f : FM) (s : State) : Out := issue (.stB32 h f) s Iss.runAcc

/-- `st.b64` (R237). -/
def execStB64 (h : Head) (f : FM) (s : State) : Out := issue (.stB64 h f) s Iss.runAcc

/-- `stfe` (R238). -/
def execStfe (h : Head) (f : FM) (s : State) : Out := issue (.stfe h f) s Iss.runAcc

/-- `fefill` (R238). -/
def execFefill (h : Head) (f : FM) (s : State) : Out := issue (.fefill h f) s Iss.runAcc

/-- `feq` (R238). -/
def execFeq (h : Head) (f : FFeq) (s : State) : Out := issue (.feq h f) s Iss.runAcc

/-- `atom` (R239). -/
def execAtom (h : Head) (f : FM) (s : State) : Out := issue (.atom h f) s Iss.runAcc

/-- `atomf` (R239). -/
def execAtomf (h : Head) (f : FM) (s : State) : Out := issue (.atomf h f) s Iss.runAcc

/-- `cas` (R240). -/
def execCas (h : Head) (f : FM) (s : State) : Out := issue (.cas h f) s Iss.runAcc

/-- `pref` (R241). -/
def execPref (h : Head) (f : FMn) (s : State) : Out := issue (.pref h f) s Iss.runAcc

/-- `cinv` (R241). -/
def execCinv (h : Head) (f : FMn) (s : State) : Out := issue (.cinv h f) s Iss.runAcc

/-- `cwb` (R241). -/
def execCwb (h : Head) (f : FMn) (s : State) : Out := issue (.cwb h f) s Iss.runAcc

/-! ### `ldfe` and `waitk` -/

/-- Lanes whose `ldfe` of this sequence is on its way (R226). -/
def Iss.inFlight (u : Iss) : Mask :=
  Mask.ofPred fun l => u.s.accs.any fun a => a.grp == u.g.id && a.kind == .ldfe && a.pc == u.e.pc && a.lane == l

/-- Send the `ldfe` of some lanes (R226, R238); the others of the entry have read or are on their way. -/
def Iss.sendLdfe (u : Iss) (f : AccForm) (send : Mask) : State :=
  let h := u.i.head.hints
  if 63 ≤ u.s.counter u.g.id (u.g.ctr f.cc) then u.s
  else if u.s.orderHolds u.g send h.rel then u.s
  else
    match u.s.regGate u.g [f.d] with
    | .wait g => u.s.updGroup g.id fun _ => g
    | .limit => u.trap { cls := 5, tmask := send, joins := true }
    | .ok g =>
      let ps : List (Nat × Plan) := send.toList.map fun l => (l, u.s.planAddr g f true (g.effAddr f l))
      let t := planTrap ps
      let s := u.s.issueOp g f h u.e t.isSome ps
      match t with
      | some a => { u with s := s }.trapAfter g { a with joins := true }
      | none => { u with s := s }.park g .ldfe

/-- `ldfe` (R226, R227, R238): it parks until every lane has read. Issued again, it sends the lanes that have neither read nor are on
their way. -/
def execLdfe (h : Head) (f : FM) (s : State) : Out :=
  issue (.ldfe h f) s fun u =>
    match u.i.accForm with
    | none => u.s
    | some fm =>
      let todo := u.g.execMask u.i u.e.mask &&& ~~~u.e.readDone
      let send := todo &&& ~~~u.inFlight
      if todo = 0 then u.finish u.g else if send = 0 then u.park u.g .ldfe else u.sendLdfe fm send

/-- Every named counter of the group is 0 (R242). -/
def State.countersZero (s : State) (g : Group) (m : BitVec 4) : Bool :=
  (List.range 4).all fun k => !m.getLsbD k || s.counter g.id (g.ctr k) == 0

/-- `waitk` (R242). -/
def execWaitk (h : Head) (f : FK4) (s : State) : Out :=
  issue (.waitk h f) s fun u =>
    if u.s.countersZero u.g f.mask then u.finish u.g else u.park u.g (.waitk f.mask)

end Sys2Proof.Machine
end

