-- ==== Sys2Proof/Machine/Control.lean ====
section
/-! DEFINITION. Control: branches, calls, loops and scheduling (spec 04 R108-R120). A control transfer traps before any
lane moves, so its reissue moves every lane of the entry (log 23). -/

namespace Sys2Proof.Machine

/-- R111: loop records whose range does not hold the target are popped, innermost first, down to a call record. -/
def popLoops (t : Nat) : List CRec → List CRec
  | .loop st fin l :: r => if st ≤ t ∧ t ≤ fin then .loop st fin l :: r else popLoops t r
  | r => r

/-- R117: the record of the innermost call, and the stack below it. -/
def popCall : List CRec → Option (Nat × Nat × List CRec)
  | [] => none
  | .call ret prio :: r => some (ret, prio, r)
  | .loop .. :: r => popCall r

/-- A transfer may go to an address (R113). -/
def Iss.targetOk (u : Iss) (t : Nat) : Bool := t % 4 == 0 && inCode (u.s.codeSpan u.g) t

/-- Target of a B or L form: the instruction word's address plus the offset (R70). -/
def Iss.target (u : Iss) (off : BitVec 14) : Nat :=
  (((u.ia : Int) + 4 * wordOffset u.i.head.hints.imm off) % (2 ^ 56 : Nat)).toNat

/-- The branch-target trap (R113). -/
def Iss.badTarget (u : Iss) (t : Nat) (m : Mask) : State := u.trap { cls := 4, info := t % 2 ^ 32, tmask := m }

/-- Lanes of the entry that pass the guard. -/
def Iss.taken (u : Iss) : Mask := u.g.execMask u.i u.e.mask

/-- A part of an entry sent to a target (R93). -/
def Entry.goto (e : Entry) (m : Mask) (t prio : Nat) (stack : List CRec) : Entry :=
  { e with mask := m, pc := t, prio := prio, stack := stack, restart := none, park := none, readDone := 0
           mid := false, sc := none, repi := 0 }

/-- The part of an entry that falls through. -/
def Entry.fall (e : Entry) (m : Mask) (words : Nat) : Entry := Entry.advance { e with mask := m } words

/-- Send some lanes of the entry to a target and the others on (R114); R111 applies to the taken part. -/
def Iss.branch (u : Iss) (taken : Mask) (t prio : Nat) : State :=
  if taken = 0 then u.finish u.g
  else if !u.targetOk t then u.badTarget t taken
  else u.finishWith u.g fun e =>
    [e.goto taken t prio (popLoops t e.stack), e.fall (e.mask &&& ~~~taken) u.words]

/-- `bra` (R114). -/
def execBra (h : Head) (f : FB) (s : State) : Out :=
  issue (.bra h f) s fun u => u.branch u.taken (u.target f.off14) f.tpri.toNat

/-- The tested predicate of `brany` and `brall` in the lanes of the entry (R115). -/
def Iss.tested (u : Iss) : List Bool := u.e.mask.toList.map fun l => u.g.passes u.i.head.guard l

/-- `brany` (R115). -/
def execBrany (h : Head) (f : FB) (s : State) : Out :=
  issue (.brany h f) s fun u =>
    u.branch (if u.tested.any id then u.e.mask else 0) (u.target f.off14) f.tpri.toNat

/-- `brall` (R115). -/
def execBrall (h : Head) (f : FB) (s : State) : Out :=
  issue (.brall h f) s fun u =>
    u.branch (if u.tested.all id then u.e.mask else 0) (u.target f.off14) f.tpri.toNat

/-- The parts of an indirect branch: lanes with equal targets form one entry (R118). -/
def brxParts (e : Entry) (prio : Nat) : List (Nat × Nat) → List Entry
  | [] => []
  | (l, t) :: r =>
    match brxParts e prio r with
    | ps =>
      if ps.any (·.pc = t) then ps.map fun (p : Entry) => if p.pc = t then { p with mask := p.mask ||| Mask.one l } else p
      else e.goto (Mask.one l) t prio (popLoops t e.stack) :: ps

/-- `brx` (R118). Where only some lanes trap, no lane has moved: those that a handler skips fall through, and the others still branch
(R361; log 23). -/
def execBrx (h : Head) (f : FBrx) (s : State) : Out :=
  issue (.brx h f) s fun u =>
    let base := (u.s.codeSpan u.g).1
    let go := u.taken &&& ~~~u.e.readDone
    let ts := go.toList.map fun l => (l, base + (readSrc u.g l [] 0 f.a).toNat % 2 ^ 32)
    let bad := ts.filter fun x => !u.targetOk x.2
    match bad with
    | (_, t) :: _ =>
      u.trap { cls := 4, info := t % 2 ^ 32, tmask := Mask.ofPred fun l => bad.any (·.1 == l), joins := true }
    | [] => u.finishWith u.g fun e =>
        e.fall (e.mask &&& ~~~go) u.words :: brxParts e f.tpri.toNat ts

/-- `call` (R116, R108). -/
def execCall (h : Head) (f : FB) (s : State) : Out :=
  issue (.call h f) s fun u =>
    let t := u.target f.off14
    if u.taken = 0 then u.finish u.g
    else if 4 ≤ u.e.stack.length then u.trap { cls := 3, detail := 1, tmask := u.taken }
    else if !u.targetOk t then u.badTarget t u.taken
    else u.finishWith u.g fun e =>
      [e.goto u.taken t f.tpri.toNat (.call (u.ia + 4) e.prio :: e.stack), e.fall (e.mask &&& ~~~u.taken) u.words]

/-- `ret` (R117). -/
def execRet (h : Head) (s : State) : Out :=
  issue (.ret h) s fun u =>
    if u.taken = 0 then u.finish u.g
    else
      match popCall u.e.stack with
      | none => u.trap { cls := 3, detail := 2, tmask := u.taken }
      | some (t, prio, stk) =>
        if !u.targetOk t then u.badTarget t u.taken
        else u.finishWith u.g fun e => [e.goto u.taken t prio stk, e.fall (e.mask &&& ~~~u.taken) u.words]

/-- `loop` (R109). -/
def execLoop (h : Head) (f : FL) (s : State) : Out :=
  issue (.loop h f) s fun u =>
    let n : BitVec 32 := (u.g.getS f.sc.toNat).truncate 32
    let last := u.target f.off14
    if n = 0 then
      (if !u.targetOk (last + 4) then u.badTarget (last + 4) u.e.mask
       else u.finishWith u.g fun e => [e.goto e.mask (last + 4) e.prio e.stack])
    else if 4 ≤ u.e.stack.length then u.trap { cls := 3, detail := 1, tmask := u.e.mask }
    else u.finishWith u.g fun e => [e.goto e.mask (u.ia + 4) e.prio (.loop (u.ia + 4) last n :: e.stack)]

/-- `rfpt` (R119). -/
def execRfpt (h : Head) (s : State) : Out := issue (.rfpt h) s fun u => u.finish u.g

/-- `yield` (R120, R96). -/
def execYield (h : Head) (s : State) : Out :=
  issue (.yield h) s fun u =>
    u.finishAs u.g u.deads true u.stall fun e => [e.advance u.words]

end Sys2Proof.Machine
end

