-- ==== Sys2Proof/Machine/Handler.lean ====
section
/-! DEFINITION. Handler: taking the handler frame, the trap and handler instructions, and the delivery of memory errors
(spec 13 R347-R361). -/

namespace Sys2Proof.Machine

/-! ### The handler frame (R347, R349) -/

/-- A group of the core is in handler mode. -/
def State.frameBusy (s : State) (die cl core : Nat) : Bool :=
  s.groups.any fun g => g.die == die && g.cluster == cl && g.core == core && g.inHandler

/-- The stopped group of a core that trapped first; ties go to the lower `sr.group` (R347). -/
def State.nextFrame (s : State) (die cl core : Nat) : Option Group :=
  s.groups.foldl (fun best g =>
    if g.die = die ∧ g.cluster = cl ∧ g.core = core ∧ g.stop = .waitFrame ∧ !g.untended then
      match best with
      | none => some g
      | some b =>
        let x : Nat := (g.trap.map (·.order)).getD 0
        let y : Nat := (b.trap.map (·.order)).getD 0
        if x < y ∨ (x = y ∧ s.srGroup g < s.srGroup b) then some g else some b
    else best) none

/-- ENTRY of the kernel object at HOBJ; an unreadable header gives offset 0, whose fetch is a handler fault. A program counter is
a multiple of 4 (R59): the low bits of an ENTRY that is none are dropped (DESIGN CHOICE, log 78). -/
def State.handlerEntry (s : State) (g : Group) : Nat :=
  let c := s.groupCtx g
  let h := ((s.ctx? c).map (·.hobj)).getD 0
  match s.xlateNow g.die c (h + 8) .read with
  | .ok pa tgt => (h + s.rdTgt tgt pa (h + 8) 4) / 4 * 4
  | _ => h / 4 * 4

/-- HANDLER_FRAME_GRANT: the free frame of a core goes to the next stopped group (R347). -/
def execHandlerFrameGrant (die cl core : Nat) (s : State) : Out :=
  if s.frameBusy die cl core then .next s
  else
    match s.nextFrame die cl core with
    | none => .next s
    | some g =>
      let c := s.groupCtx g
      match s.gate { owner := .block g.id, die := die, cluster := cl, port := core, ctx := c, part := s.groupPart g }
          (s.needVa die c false (((s.ctx? c).map (·.hobj)).getD 0) 64) with
      | (s, false) => .next s
      | (s, true) =>
      let e : Entry := { pc := s.handlerEntry g, prio := 15, mask := (g.trap.map (·.tmask)).getD 0 }
      let s := s.updGroup g.id fun g => { g with frame := some { entries := [e] }, stop := .handling }
      .next (s.updCluster die cl fun c => { c with handler := AMap.set c.handler core g.id })

/-! ### Resuming after class 0x0A (R351) -/

/-- Every lane still to be replaced receives 0 in each destination still unsupplied, and the loss is logged. -/
def State.zeroPoisoned (s : State) (g : Group) (t : TrapRec) : State :=
  let ls := t.lmask.toList
  let s := s.updGroup g.id fun g =>
    t.dests.foldl (fun g d => ls.foldl (fun g l =>
      if t.supplied.contains (d, l) then g else { g with v := AMap.set g.v (32 * d + l) 0 }) g) g
  let s := if ls = [] then s else s.logGroup g 12 0 t.lmask.toNat 0 t.pc
  { s with ops := s.ops.filter fun (o : CountedOp) => o.id ≠ t.op }

/-- A group stopped by a trap resumes (R346, R351). -/
def State.resumeGroup (s : State) (g : Group) : State :=
  let s :=
    match g.trap with
    | some t => if t.delivery then s.zeroPoisoned g t else s
    | none => s
  s.updGroup g.id fun g => s.surgeFall g g.resume

/-- The record of a poisoned operation's delivery: the fields of its entry are those at issue (R348, R351; log 26). -/
def CountedOp.record (o : CountedOp) (g : Group) (order : Nat) : TrapRec :=
  { cls := 10, repi := g.repi, pc := o.pc, emask := o.emask, tmask := o.poisoned, addr := o.poisonAddr, lmask := o.poisoned
    isRep := o.isRep, depth := o.depth, prio := o.prio, order := order, dests := o.dests, op := o.id }

/-- MEMORY_ERROR_DELIVERY: a poisoned operation that has returned in every lane is delivered at a sequence boundary (R351). -/
def execMemoryErrorDelivery (op : Nat) (s : State) : Out :=
  match s.ops.find? fun (o : CountedOp) => o.id == op with
  | none => .next s
  | some o =>
    match s.group? o.grp with
    | none => .next s
    | some g =>
      if !(g.stop == .running && !g.inHandler && !g.halted && g.deliver.contains op && !g.entries.any Entry.midway) then .next s
      else
        let t := o.record g s.next
        let toSup := ((s.groupContext? g).map (·.hobj)).getD 0 == 0
        let g' := { g with
          trap := some t, deliver := g.deliver.filter (· ≠ op), stop := if toSup then .waitSupervisor false else .waitFrame }
        let s := s.fresh.updGroup g.id fun _ => g'
        .next (if toSup then s.supAppend g' t else s)

/-! ### `trap` and `brk` (R357, R358) -/

/-- `trap` (R357): a guard that passes no lane raises nothing. -/
def execTrap (h : Head) (f : FK16) (s : State) : Out :=
  issue (.trap h f) s fun u =>
    if u.ex = 0 then u.finish u.g
    else u.trap { cls := 11, info := f.mask.toNat, tmask := u.ex, noRestart := true }

/-- `brk` (R358): with DBGEN = 1 the group halts, its record filled, and continues past the sequence when resumed. -/
def execBrk (h : Head) (f : FK16) (s : State) : Out :=
  issue (.brk h f) s fun u =>
    let a : TrapArgs := { cls := 12, info := f.mask.toNat, tmask := u.act, noRestart := true }
    if ((s.groupContext? u.g).map (·.dbgen)).getD false then
      (u.finish u.g).updGroup u.g.id fun g =>
        { g with halted := true, haltReq := false, haltRec := some (mkTrapRec u.e (u.trapArgs a) s.next) }
    else u.trap a

/-! ### Leaving handler mode (R361) -/

/-- Hints and length of `n` sequences from an address on, as they read now: one that cannot be read counts as one word without hints
(DESIGN CHOICE, log 94). -/
def State.spans (s : State) (g : Group) : Nat → Nat → List (Hints × Nat)
  | 0, _ => []
  | n + 1, a =>
    let x : Hints × Nat :=
      match s.fetchSeq g a with
      | .ok ws => (Hints.ofWords (ws.takeWhile isHint), ws.length)
      | _ => ({}, 1)
    x :: s.spans g n (a + 4 * x.2)

/-- A trapped sequence that could not be read whole, as it reads now: what passing it leaves behind (R361). -/
def State.reread (s : State) (g : Group) (t : TrapRec) : TrapRec :=
  if t.words ≠ 0 then t
  else
    let g := { g with frame := none }
    let n := (((s.spans g 1 t.pc).head?.bind fun x => x.1.chain).map (·.toNat)).getD 0
    let xs := s.spans g (n + 1) t.pc
    let hs := xs.map (·.1)
    { t with
      words := (xs.map (·.2)).sum, reps := (hs.head?.map Hints.reps).getD 0, dead := hs.flatMap Hints.deadRegs
      yields := hs.any fun h => (h.sched.map (·.y)).getD false
      stall := (hs.map fun h => (h.sched.map (·.stall.toNat)).getD 0).foldl Nat.max 0 }

/-- `rtt` and `rtt.skip` (R361); outside handler mode an illegal state (R356). -/
def rttSeq (i : Instr) (skip : Bool) (s : State) : Out :=
  issue i s fun u =>
    if !u.g.inHandler then u.trap { cls := 2, detail := 6, tmask := u.act }
    else if (u.s.accs.any fun a => a.grp == u.g.id && a.hnd) ||
        (u.s.ops.any fun (o : CountedOp) => o.grp == u.g.id && decide (4 ≤ o.ctr) && decide (o.ctr < 8)) then u.s
    else
      let g : Group :=
        { u.g with
          frame := none, level := u.s.prioOf u.g, lastStart := u.s.next, stall := u.stall, waited := 0, waits := false
          haltReq := u.g.haltReq || u.g.stepping, stepping := false }
      let g := match g.trap with
        | some t =>
          if skip && t.cls != 10 then
            { g.updEntry t.emask (fun e => { e with restart := some 0 }) with trap := some { u.s.reread u.g t with lmask := 0 } }
          else g
        | none => g
      let s := (u.put g).updCluster u.g.die u.g.cluster fun c => { c with handler := AMap.erase c.handler u.g.core }
      s.resumeGroup g

/-- `rtt` (R361). -/
def execRtt (h : Head) (s : State) : Out := rttSeq (.rtt h) false s

/-- `rtt.skip` (R361). -/
def execRttSkip (h : Head) (s : State) : Out := rttSeq (.rttSkip h) true s

/-! ### `repl` and `hmov` (R359, R360) -/

/-- Issue a form that only a handler may run (R356). -/
def handlerOnly (i : Instr) (s : State) (k : Iss → TrapRec → State) : Out :=
  issue i s fun u =>
    if u.g.inHandler then
      match u.g.trap with
      | some t => k u t
      | none => u.s
    else if u.ex = 0 then u.finish u.g
    else u.trap { cls := 2, detail := 6, tmask := u.ex }

/-- `repl` (R360). -/
def execRepl (h : Head) (f : FRepl) (s : State) : Out :=
  handlerOnly (.repl h f) s fun u t =>
    if t.cls ≠ 10 ∨ t.fetchError ∨ (f.half ∧ t.dests.length < 2) then u.trap { cls := 14, tmask := u.ex }
    else
      match t.dests[b2n f.half]? with
      | none => u.finish u.g
      | some d =>
        let ls := (u.ex &&& t.lmask).toList
        let g := ls.foldl (fun (g : Group) l => { g with v := AMap.set g.v (32 * d + l) (readSrc u.g l [] 0 f.a) }) u.g
        let sup := ls.foldl (fun acc l => if acc.contains (d, l) then acc else acc ++ [(d, l)]) t.supplied
        let left := Mask.ofPred fun l => t.lmask.has l && !(t.dests.all fun x => sup.contains (x, l))
        u.finish { g with trap := some { t with supplied := sup, lmask := left } }

/-- Lanes of a register of the interrupted group that await a value (R101, R351). -/
def State.awaited (s : State) (g : Group) (t : TrapRec) (r : Nat) (m : Mask) : Bool :=
  ((s.pendingAccs g.id).any fun a => !a.hnd && a.dregs.contains r) ||
    s.ops.any fun (o : CountedOp) => o.grp == g.id && decide (o.poisoned ≠ 0) && o.dests.contains r &&
      (o.poisoned &&& m).toList.any fun l => !(o.id == t.op && t.supplied.contains (r, l))

/-- The predicates of the interrupted group await a value (R101). -/
def State.awaitedP (s : State) (g : Group) : Bool :=
  ((s.pendingAccs g.id).any fun a => !a.hnd && (match a.kind with | .feq _ => true | _ => false)) || !(s.depthDue g.id).isEmpty

/-- Write a special register of the interrupted group (R359, Table 5.6); none is a handler fault. -/
def Group.srWrite (g : Group) (t : TrapRec) (n : Nat) (x : Word) : Option Group :=
  match n with
  | 0x18 =>
    some { g with entries := g.entries.map fun e =>
      if (g.trapped t).map (·.mask) = some e.mask then
        { e with stack := match e.stack with | .loop st fin _ :: r => .loop st fin (x.truncate 32) :: r | r => r }
      else e }
  | 0x1A => if fpmodeOk x then some { g with fpmode := x } else none
  | 0x1B => if fpflagsOk x then some { g with fpflags := x } else none
  | 0x1C => some { g with syncst := syncstWrite g.syncst x }
  | _ => none

/-- A word of a group's state outside the handler frame, by class of Table 13.9, as seen by a lane: `recs` holds the record words, `e`
the entry of a lane that no entry holds. -/
def State.innerWord (s : State) (g : Group) (e : Entry) (recs : List Nat) (cl n l : Nat) : Word :=
  let g := { g with frame := none }
  match cl with
  | 0 => g.getV n l
  | 1 => g.getS n
  | 2 => (g.getP l).zeroExtend 64
  | 3 => s.srRead g ((g.entries.find? fun x => x.mask.has l).getD e) l n
  | 4 => BitVec.ofNat 64 (recs.getD n 0)
  | _ => BitVec.ofNat 64 (s.counter g.id n)

/-- Read interrupted state into a handler register (R359, DIR = 0). -/
def Iss.hmovRead (u : Iss) (t : TrapRec) (cl n hr : Nat) : State :=
  let word (l : Nat) : Word :=
    u.s.innerWord u.g ((u.g.trapped t).getD u.e) (u.s.trapWords { u.g with frame := none } t) cl n l
  let perLane : State := u.finish (u.ex.toList.foldl (fun g l => g.setV hr l (word l)) u.g)
  let once : State := u.finish (if u.ex = 0 then u.g else u.g.setS hr (word (lowLane u.ex)))
  match cl with
  | 0 => if u.s.awaited u.g t n u.ex then u.s else perLane
  | 1 => once
  | 2 => if u.s.awaitedP u.g then u.s else perLane
  | 3 => perLane
  | 4 => once
  | 5 => once
  | _ => u.trap { cls := 14, tmask := u.ex }

/-- Write a handler register into interrupted state (R359, DIR = 1), once no earlier value is on its way there (R101). A special
register is written once, from the lowest lane (log 25). -/
def Iss.hmovWrite (u : Iss) (t : TrapRec) (cl n hr : Nat) : State :=
  let inner := { u.g with frame := none }
  let ls := u.ex.toList
  match cl with
  | 0 =>
    if u.s.awaited u.g t n u.ex then u.s
    else
    match u.s.regGate inner (if u.ex = 0 then [] else [n]) with
    | .wait g => u.s.updGroup g.id fun _ => { g with frame := u.g.frame }
    | .limit => u.trap { cls := 14, tmask := u.ex }
    | .ok g =>
      let g := ls.foldl (fun g l => g.setV n l (u.g.getV hr l)) g
      u.finish { g with frame := u.g.frame }
  | 1 => u.finish (if u.ex = 0 then u.g else { inner.setS n (u.g.getS hr) with frame := u.g.frame })
  | 2 =>
    if u.s.awaitedP u.g then u.s
    else
      let g := ls.foldl (fun g l => g.setP l ((u.g.getV hr l).truncate 16)) inner
      u.finish { g with frame := u.g.frame }
  | 3 =>
    if !srnWritable n then u.trap { cls := 14, tmask := u.ex }
    else if u.ex = 0 then u.finish u.g
    else
      match u.g.srWrite t n (u.g.getV hr (lowLane u.ex)) with
      | some g => u.finish g
      | none => u.trap { cls := 14, tmask := u.ex }
  | _ => u.trap { cls := 14, tmask := u.ex }

/-- `hmov` (R359). -/
def execHmov (h : Head) (f : FHmov) (s : State) : Out :=
  handlerOnly (.hmov h f) s fun u t =>
    if f.dir then u.hmovWrite t f.cl.toNat f.n.toNat f.h.toNat else u.hmovRead t f.cl.toNat f.n.toNat f.h.toNat

end Sys2Proof.Machine
end

