-- ==== Sys2Proof/Machine/Ending.lean ====
section
/-! DEFINITION. Ending: removing gangs, terminating launches, and the completion of a launch (spec 02 R34-R35, spec 07 R200,
spec 08 R231, spec 13 R353, spec 14 R377). -/

namespace Sys2Proof.Machine

/-- Tiles of a gang's bound set, by the set's tag (R200): a set the gang owns loses its values and its owner. -/
def State.releaseSet (s : State) (ga : Gang) (ctx : Nat) : State :=
  match ga.tset with
  | none => s
  | some n =>
    s.updCluster ga.die ga.cluster fun c =>
      let r := AMap.getD c.tags n {}
      if r.owned && r.gang.toNat == ga.sr % 2 ^ 46 && r.ctx.toNat == ctx then
        { c with tags := AMap.set c.tags n { r with held := 0, owned := false } }
      else c

/-- Start the clearing of a gang's store range (R231). -/
def State.startClear (s : State) (ga : Gang) : State :=
  if ga.size = 0 then s
  else s.updCluster ga.die ga.cluster fun c => { c with clearing := c.clearing ++ [(ga.start, ga.size)] }

/-- The slice of a gang's tile set reads zero for the next gang bound there (R186). -/
def State.clearSlice (s : State) (ga : Gang) : State :=
  match ga.tset with
  | none => s
  | some n =>
    { s with mem := Memory.clear s.mem (scaleLoc ga.die ga.cluster (16384 * n)) (scaleLoc ga.die ga.cluster (16384 * (n + 1))) }

/-- Memory address of a save slot of a context (R343, R364). -/
def Context.slotAddr (c : Context) (n : Nat) : Nat := c.poolp + 65536 * c.slotsz * n

/-- The slot of a context's pool whose header names a gang (Table 13.11). -/
def State.slotOf (s : State) (c : Context) (gang : Nat) : Option Nat :=
  (List.range c.nslot).find? fun n => s.rd (c.slotAddr n + 8) 8 == gang && bits (s.rd (c.slotAddr n) 8) 1 0 != 0

/-- Forget where a gang's tiles are saved: its record shows none (R202). -/
def State.forgetSaved (s : State) (ga : Gang) (ctx : Nat) : State :=
  match s.ctx? ctx with
  | none => s
  | some c =>
    match s.slotOf c ga.sr with
    | some n => if c.slots.contains n && ga.saved != some n then s else s.wr (c.slotAddr n) 16 0
    | none => s

/-- GO of a die's `PREEMPT` reads 0 once every named gang is saved or has retired (R362). -/
def State.preemptDone (s : State) (die : Nat) : State :=
  match s.die? die with
  | none => s
  | some d =>
    let named := s.gangs.any fun g => g.die == die && g.saved.isNone && g.preempting &&
      ((s.launch? g.launch).map (·.ctx)) == some (bits d.preempt.toNat 95 80)
    if named then s else s.updDie die fun d => { d with preempt := d.preempt &&& ~~~(1#128) }

/-- The gang leaves its cluster for good: set, range, groups (R377, R353). -/
def State.removeGang (s : State) (ga : Gang) : State :=
  let ctx := ((s.launch? ga.launch).map (·.ctx)).getD 0
  let ids := (s.gangGroups ga.id ++ ga.savedGroups).map (·.id)
  let s := s.forgetSaved ga ctx
  let s := match ga.slot with
    | some n => s.updCtx ctx fun c => { c with slots := c.slots.filter (· ≠ n) }
    | none => s
  let s := if ga.saved.isSome then s else ((s.releaseSet ga ctx).clearSlice ga).startClear ga
  let s := s.updCluster ga.die ga.cluster fun c =>
    { c with handler := c.handler.filter fun x => !ids.contains x.2 }
  let s :=
    { s with
      gangs := s.gangs.filter fun x => x.id ≠ ga.id
      groups := s.groups.filter fun g => g.gang ≠ ga.id
      ops := s.ops.filter fun (o : CountedOp) => !ids.contains o.grp
      lastOp := s.lastOp.filter fun x => !ids.contains (x.1 / 128) }
  let s := s.pruneReqs
  if ga.preempting then s.preemptDone ga.die else s

/-- Accesses of removed groups: a write in flight is performed or not (never on a failed die, R338), a read is dropped (R353; log 9). -/
def State.dropInFlight (s : State) (ids : List Nat) : State :=
  let accs := s.accs.filter fun a =>
    !ids.contains a.grp ||
      (a.kind.writes && a.unperformed && a.phase != .waiter && !s.lost a.home && Config.inFlightPerformed s.draw a.id)
  { s with accs := accs, draw := s.draw + 1 }

/-- End a launch with a status and without drain (R353, R390): gangs, stocks, items and records go; commands already
started run on. -/
def State.endLaunch (s : State) (id : Nat) (status : Nat) : State :=
  match s.launch? id with
  | none => s
  | some l =>
    match l.phase with
    | .ending _ => s
    | _ =>
      let gs := s.gangs.filter (·.launch == id)
      let ids := (gs.flatMap fun ga => s.gangGroups ga.id).map (·.id)
      let s := s.dropInFlight ids
      let s := gs.foldl State.removeGang s
      let s :=
        { s with
          conts := s.conts.filter fun c => c.launch ≠ id
          colls := s.colls.filter fun (c : CollCmd) => !(c.cmd.launch == id && c.all.isEmpty && c.status.isNone) }
      State.pruneReqs <| s.updLaunch id fun l =>
        { l with
          phase := .ending status, stocks := [], dealQ := [], dealR := [], supply := l.total, pkts := [], draw := []
          arrived := [], treeAt := [], releasing := [], holds := [] }

/-! ### Completion (R34, R35) -/

/-- Greatest CSEQ a queue may show, from the completed sequence numbers above it (R34). -/
def raiseCseq : Nat → Nat → List Nat → Nat
  | 0, n, _ => n
  | k + 1, n, done => if done.contains (n + 1) then raiseCseq k (n + 1) done else n

/-- A launch of a queue completed: CSEQ and LCAUSE (R34). -/
def QDesc.completed (d : QDesc) (seq status : Nat) : QDesc :=
  let done := d.done ++ [seq]
  let n := raiseCseq done.length d.cseq done
  { d with cseq := n, done := done.filter (n < ·), lcause := if status = 0 then d.lcause else status }

/-- Write bytes at a virtual address of a context from a die, with release order; false where they cannot be written. The step has passed
`gate` for them (R244, R252). -/
def State.writeVa (s : State) (die ctx va n v : Nat) : State × Bool :=
  match s.xlateNow die ctx va .write with
  | .ok pa tgt =>
    if s.badTgt tgt pa n then (s, false)
    else (if tgt = 0 then s.wr pa n v else s, true)
  | _ => (s, false)

/-- The service die of a launch's queue. -/
def State.serviceDie (s : State) (l : Launch) : Nat :=
  ((s.ctx? l.ctx).map fun c => (AMap.getD c.queues l.queue {}).sdie).getD 0

/-- Complete a launch with its status: the completion word, CSEQ, LCAUSE (R34). -/
def State.completeLaunch (s : State) (l : Launch) (status : Nat) : State :=
  let word := status * 2 ^ 56 + l.queue * 2 ^ 48 + l.seq % 2 ^ 48
  let sdie := s.serviceDie l
  let s :=
    if l.compl = 0 then s
    else
      match s.writeVa sdie l.ctx l.compl 8 word with
      | (s, true) => s
      | (s, false) => s.logRecord l.ctx (errRec s.gtime 0 l.sr 0 l.compl 0 sdie 0 l.ctx 0 4)
  let s := s.updCtx l.ctx fun c =>
    { c with queues := AMap.set c.queues l.queue ((AMap.getD c.queues l.queue {}).completed (l.seq % 2 ^ 48) status) }
  { s with launches := s.launches.filter fun x => x.id ≠ l.id }

/-- Complete a launch once its completion word can be written (R34, R45, R244, R252, R253, R380). -/
def State.completeWhenReady (s : State) (l : Launch) (status : Nat) : State :=
  if l.compl = 0 then s.completeLaunch l status
  else
    let die := s.serviceDie l
    match s.gate { owner := .complete l.id, die := die, ctx := l.ctx, part := l.part } (s.needVa die l.ctx true l.compl 8) with
    | (s, true) => s.completeLaunch l status
    | (s, false) => s

end Sys2Proof.Machine
end

