-- ==== Sys2Proof/Machine/Power.lean ====
section
/-! DEFINITION. Power: waking and gating clusters, store quarters and die-cache ways, and clearing store ranges (spec 02
R57-R58, spec 08 R229-R234). A step whose condition does not hold leaves the state as it is. -/

namespace Sys2Proof.Machine

/-- Groups resident on a cluster. -/
def State.residents (s : State) (die cl : Nat) : List Group :=
  s.groups.filter fun g => g.die == die && g.cluster == cl

/-- Gangs resident on a cluster. -/
def State.residentGangs (s : State) (die cl : Nat) : List Gang :=
  s.gangs.filter fun g => g.die == die && g.cluster == cl && g.saved.isNone

/-- Accesses that stand in the bank queues of a cluster's store. -/
def State.atBanks (s : State) (die cl : Nat) : List Access :=
  s.accs.filter fun a => isStoreLoc a.loc && locDie a.loc == die && locCluster a.loc == cl && a.unperformed

/-- Requests of engines and units that stand at the banks of a cluster's store. -/
def State.unitsAt (s : State) (die cl : Nat) : List UnitReq :=
  s.reqs.filter fun r => isStoreLoc r.loc && locDie r.loc == die && locCluster r.loc == cl && !r.done

/-- The request for an inrush token that is served next: the oldest, with ties going to the lower cluster number (R57). -/
def firstWake : List (Nat × Nat) → Option (Nat × Nat)
  | [] => none
  | x :: t =>
    match firstWake t with
    | none => some x
    | some y => some (if y.1 < x.1 ∨ (y.1 = x.1 ∧ y.2 < x.2) then y else x)

/-- INRUSH_GRANT: a free token goes to the oldest request (R57). -/
def execInrushGrant (die : Nat) (s : State) : Out :=
  .next <|
    match s.die? die with
    | none => s
    | some d =>
      match d.tokens, firstWake d.wakes with
      | k + 1, some (t, cl) =>
        (s.updDie die fun d => { d with tokens := k, wakes := d.wakes.erase (t, cl) }).updCluster die cl fun c =>
          { c with power := .waking }
      | _, _ => s

/-- CLUSTER_WAKE_END: the rails settle and the token returns (R57). -/
def execClusterWakeEnd (die cl : Nat) (s : State) : Out :=
  .next <|
    if (s.cluster die cl).power = .waking then
      (s.updCluster die cl fun c => { c with power := .awake }).updDie die fun d => { d with tokens := d.tokens + 1 }
    else s

/-- CLUSTER_GATE: an idle cluster is committed to gating (R58). -/
def execClusterGate (die cl : Nat) (s : State) : Out :=
  .next <|
    let c := s.cluster die cl
    if c.power = .awake ∧ s.residents die cl = [] ∧ s.residentGangs die cl = [] ∧ c.clearing = [] ∧
        s.atBanks die cl = [] ∧ s.unitsAt die cl = [] ∧ c.running = none ∧ (s.die? die).isSome then
      s.updCluster die cl fun c => { c with power := .gatingDown }
    else s

/-- Everything a cluster's store and scale memory hold is lost. -/
def State.blankCluster (s : State) (die cl : Nat) : State :=
  let lo := storeLoc die cl 0
  let mem := Memory.clear s.mem lo (lo + 2 ^ 20)
  { s with
    mem := Memory.clear mem (scaleLoc die cl 0) (scaleLoc die cl 0 + 2 ^ 16)
    full := s.full.filter fun g => !(decide (lo / 16 ≤ g) && decide (g < (lo + 2 ^ 20) / 16)) }

/-- GATE_DOWN_END: the cluster is gated, with all four store quarters (R58, R229). -/
def execGateDownEnd (die cl : Nat) (s : State) : Out :=
  .next <|
    if (s.cluster die cl).power = .gatingDown then
      (s.blankCluster die cl).updCluster die cl fun c =>
        { c with power := .gated, quarters := [.off, .off, .off, .off] }
    else s

/-- A range overlaps a quarter. -/
def overlapsQuarter (q start size : Nat) : Bool := decide (start < 262144 * (q + 1)) && decide (262144 * q < start + size)

/-- The quarter holds no range and no request (R229). -/
def State.quarterIdle (s : State) (die cl q : Nat) : Bool :=
  !((s.residentGangs die cl).any fun g => g.size != 0 && overlapsQuarter q g.start g.size) &&
  !((s.cluster die cl).clearing.any fun r => overlapsQuarter q r.1 r.2) &&
  !((s.atBanks die cl).any fun a => a.loc % 2 ^ 20 / 262144 == q) && !((s.unitsAt die cl).any fun r => r.loc % 2 ^ 20 / 262144 == q)

/-- Blank one quarter of a store, every granule empty (R230). -/
def State.blankRange (s : State) (die cl start size : Nat) : State :=
  let lo := storeLoc die cl start
  { s with
    mem := Memory.clear s.mem lo (lo + size)
    full := s.full.filter fun g => !(decide (lo / 16 ≤ g) && decide (g < (lo + size) / 16)) }

/-- STORE_QUARTER_GATE: an unused quarter is gated (R229). -/
def execStoreQuarterGate (die cl quarter : Nat) (s : State) : Out :=
  .next <|
    if quarter < 4 ∧ s.quarterIdle die cl quarter ∧ (s.cluster die cl).quarters.getD quarter .off = .on then
      (s.blankRange die cl (262144 * quarter) 262144).updCluster die cl fun c =>
        { c with quarters := c.quarters.set quarter .off }
    else s

/-- A placement whose range overlaps gated quarters starts their wake (R230). -/
def State.wakeQuarters (s : State) (die cl start size : Nat) : State :=
  if size = 0 then s
  else s.updCluster die cl fun c =>
    { c with quarters := c.quarters.mapIdx fun q x => if x = .off ∧ overlapsQuarter q start size then .waking else x }

/-- QUARTER_WAKE_END: a waking quarter is on, zero and empty (R230). -/
def execQuarterWakeEnd (die cl quarter : Nat) (s : State) : Out :=
  .next <|
    if (s.cluster die cl).quarters.getD quarter .off = .waking then
      s.updCluster die cl fun c => { c with quarters := c.quarters.set quarter .on }
    else s

/-- Requests to bytes of a range are on their way: clearing takes only cycles that no requester wants (R221). One that a failed route
holds never arrives (R45). -/
def State.rangeWanted (s : State) (die cl start size : Nat) : Bool :=
  ((s.atBanks die cl).any fun a => !a.isWaiter && decide (a.loc % 2 ^ 20 < start + size) && decide (start < a.loc % 2 ^ 20 + a.size) &&
    !(a.die != die && s.stalledPair a.die die)) ||
  (s.unitsAt die cl).any fun r => decide (r.loc % 2 ^ 20 < start + size) && decide (start < r.loc % 2 ^ 20 + 16) &&
    !(r.die != die && s.stalledPair r.die die)

/-- RANGE_CLEAR_END: every byte of the range is 0 and every granule empty; the range is free (R231). -/
def execRangeClearEnd (die cl start : Nat) (s : State) : Out :=
  .next <|
    match (s.cluster die cl).clearing.find? fun r => r.1 == start with
    | none => s
    | some (st, n) =>
      if s.rangeWanted die cl st n then s else
      (s.blankRange die cl st n).updCluster die cl fun c => { c with clearing := c.clearing.filter fun r => r.1 ≠ start }

/-- DIE_CACHE_WAY_GATE: dirty lines of four ways are written back and the ways hold nothing (R234). -/
def execDieCacheWayGate (die ways : Nat) (s : State) : Out :=
  .next <|
    if ways < 4 then
      s.updDie die fun d =>
        { d with waysOff := d.waysOff ||| BitVec.ofNat 4 (2 ^ ways), lines := d.lines.filter fun x => x.way / 4 ≠ ways }
    else s

/-- DIE_CACHE_WAY_WAKE: four gated ways wake invalid (R234). -/
def execDieCacheWayWake (die ways : Nat) (s : State) : Out :=
  .next <|
    if ways < 4 then s.updDie die fun d => { d with waysOff := d.waysOff &&& ~~~(BitVec.ofNat 4 (2 ^ ways)) } else s

end Sys2Proof.Machine
end

