-- ==== Sys2Proof/Machine/Queues.lean ====
section
/-! DEFINITION. Queues: launch queues, admission and dealing, and the `launch` instruction (spec 02 R29-R36, spec 01 R12-R14,
spec 04 R122). A step whose condition does not hold leaves the state as it is. -/

namespace Sys2Proof.Machine

/-- STATE codes of Table 2.1. -/
def qDisabled : Nat := 0
def qRunning : Nat := 1
def qOverrun : Nat := 2

/-- A descriptor from its 256 bits, with the read-only fields of the one it replaces (Table 2.1). The spec says nothing of LOGN
13-15 or an RBASE that is not 128-byte aligned: they are stored and used as they stand (log 67). -/
def QDesc.ofBits (old : QDesc) (d : Nat) : QDesc :=
  { old with tail := bits d 207 160, en := bit d 85, sdie := bits d 84 79, logn := bits d 78 75, rbase := bits d 55 0 }

/-- DOORBELL_WRITE (R31). -/
def execDoorbellWrite (ctx q : Nat) (tail : BitVec 48) (s : State) : Out :=
  .next <| (s.withCtx ctx).updCtx ctx fun c =>
    let d := AMap.getD c.queues q {}
    let st :=
      if d.state ≠ qRunning then d.state
      else if tail.toNat < d.tail ∨ 2 ^ d.logn < tail.toNat - d.head then qOverrun
      else d.state
    if q < 32 then { c with queues := AMap.set c.queues q { d with tail := tail.toNat, state := st } } else c

/-- DESCRIPTOR_WRITE (R31). -/
def execDescriptorWrite (ctx q : Nat) (d : BitVec 256) (s : State) : Out :=
  .next <| (s.withCtx ctx).updCtx ctx fun c =>
    let n := (AMap.getD c.queues q {}).ofBits d.toNat
    let st :=
      if !n.en then qDisabled
      else if n.tail < n.head ∨ 2 ^ n.logn < n.tail - n.head ∨ (s.die? n.sdie).isNone then qOverrun
      else qRunning
    if q < 32 then { c with queues := AMap.set c.queues q { n with state := st } } else c

/-! ### Admission (R32, R14) -/

/-- Read bytes at a virtual address of a context from a die: none on a translation fault or an uncorrectable error. -/
def State.readVa (s : State) (die ctx va n : Nat) : Option Nat :=
  match s.xlateNow die ctx va .read with
  | .ok pa tgt => if s.badTgt tgt pa n then none else some (s.rdTgt tgt pa va n)
  | _ => none

/-- The management controller learns of the uncorrectable errors that reads at virtual addresses met (R245). -/
def State.noteReads (s : State) (die ctx : Nat) (ps : List (Nat × Nat)) : State :=
  (ps.flatMap fun p => (List.range (ceilDiv p.2 64)).map fun i => p.1 + 64 * i).foldl
    (fun (s : State) va => s.noteErrorVa die ctx va) s

/-- A word is an `rfpt` word (R119). -/
def isRfpt (w : Nat) : Bool := w == 0x039C0000

/-- Offset of the refill word that a header names, where the header has no cause that comes before reading it (R14). -/
def Launch.refillOff (l : Launch) (k h : Nat) : Option Nat :=
  if bits h 127 96 == 0 || (headerCauses l k h true).any fun c => c == 2 || c == 3 || c == 4 then none else some (bits h 127 96)

/-- Address of the header of a stage that is read: its KOBJ is not null and aligned (R14). -/
def Launch.headerVa (l : Launch) (k : Nat) : Option Nat := if l.kobj k = 0 ∨ l.kobj k % 256 ≠ 0 then none else some (l.kobj k)

/-- What reading the stages of an LPB reads: headers and refill words (R14). -/
def State.stageReads (s : State) (sdie ctx : Nat) (l : Launch) : List (Nat × Nat) :=
  (List.range l.nstage).flatMap fun k =>
    match l.headerVa k with
    | none => []
    | some va =>
      (va, 64) :: (((s.readVa sdie ctx va 64).bind (l.refillOff k)).map fun o => (va + o, 4)).toList

/-- Causes and effective values of the stages of an LPB (R13, R14): causes, stages. -/
def State.readStages (s : State) (sdie ctx : Nat) (l : Launch) : List Nat × List Stage :=
  (List.range l.nstage).foldl (fun acc k =>
    match l.headerVa k with
    | none => acc
    | some va =>
      match s.readVa sdie ctx va 64 with
      | none => (acc.1 ++ [1], acc.2)
      | some h =>
        let w := match l.refillOff k h with
          | none => some 0x039C0000
          | some o => s.readVa sdie ctx (va + o) 4
        match w with
        | none => (acc.1 ++ 1 :: headerCauses l k h true, acc.2 ++ [mkStage l k h])
        | some w => (acc.1 ++ headerCauses l k h (isRfpt w), acc.2 ++ [mkStage l k h])) ([], [])

/-- R33: a dependence on the launch's own queue that can never hold. -/
def Launch.selfDep (l : Launch) : Bool :=
  (List.range 4).any fun i => bit (l.dep i) 63 && bits (l.dep i) 62 58 == l.queue && decide (l.seq % 2 ^ 48 ≤ bits (l.dep i) 47 0)

/-- An earlier launch of the queue is neither released nor completed (R32). -/
def State.admissionHeld (s : State) (ctx q : Nat) : Bool :=
  s.launches.any fun l => l.ctx == ctx && l.queue == q && l.order == 0

/-- The launch that the LPB at HEAD of a queue makes. -/
def State.headLaunch (s : State) (ctx q : Nat) (d : QDesc) (lpb : Nat) : Launch :=
  { id := s.next, ctx := ctx, queue := q, seq := d.head + 1, lpb := BitVec.ofNat 1024 lpb, lpbAddr := d.rbase + 128 * (d.head % 2 ^ d.logn) }

/-- The service die admits the launch at HEAD of a queue, what it read of its LPB given, and advances HEAD (R14, R32, R33). Where an LPB is
both rejected and has a dependence of R33, the rejection cause is its status: the spec gives no precedence (log 68). -/
def State.admitLaunch (s : State) (c : Context) (ctx q : Nat) (d : QDesc) (lpb : Option Nat) : State :=
  let l := s.headLaunch ctx q d (lpb.getD 0)
  let (cs, sts) := s.readStages d.sdie ctx l
  let cause := match lpb with
    | none => some 1
    | some _ => lowestCode (cs ++ lpbCauses l (s.partDies c l.part).isSome)
  let l := match cause with
    | some k => { l with phase := .ending k }
    | none => if l.selfDep then { l with phase := .ending 0x83 } else { l with stages := sts }
  let s := s.noteReads d.sdie ctx ((l.lpbAddr, 128) :: (if lpb.isSome then s.stageReads d.sdie ctx l else []))
  let s := s.updCtx ctx fun c => { c with queues := AMap.set c.queues q { d with head := d.head + 1 } }
  { s with launches := s.launches ++ [l], next := s.next + 1 }

/-- ADMISSION: the service die reads and checks the next LPB of a queue (R32); none is admitted before the boot has ended in state 3
(R384), and none by a die that is relocking (R325). -/
def execAdmission (ctx q : Nat) (s : State) : Out :=
  .next <|
    match s.ctx? ctx with
    | none => s
    | some c =>
      let d := AMap.getD c.queues q {}
      if s.pkg.boot ≠ 3 ∨ d.state ≠ qRunning ∨ d.tail ≤ d.head ∨ s.admissionHeld ctx q ∨ s.relocking d.sdie then s
      else
        let va := d.rbase + 128 * (d.head % 2 ^ d.logn)
        let lpb := s.readVa d.sdie ctx va 128
        let l := s.headLaunch ctx q d (lpb.getD 0)
        match s.gate { owner := .admission ctx q, die := d.sdie, ctx := ctx, part := l.part }
            (s.needVas d.sdie ctx ((va, 128) :: (if lpb.isSome then s.stageReads d.sdie ctx l else [])) []) with
        | (s, false) => s
        | (s, true) => s.admitLaunch c ctx q d lpb

/-- Every dependence of a launch holds (R12). -/
def State.depsHold (s : State) (l : Launch) : Bool :=
  (List.range 4).all fun i =>
    let w := l.dep i
    !bit w 63 ||
      (match s.ctx? l.ctx with
        | some c => decide (bits w 47 0 ≤ (AMap.getD c.queues (bits w 62 58) {}).cseq % 2 ^ 48)
        | none => false)

/-! ### Dealing (R36, R56) -/

/-- Positions a die receives at release: block dealing, or whole gangs of a co-resident launch. -/
def Launch.blockShare (l : Launch) (dies : List Nat) (die : Nat) : Nat × Nat :=
  let n := l.items
  let d := dies.length
  let i := dies.idxOf die
  if l.cores then
    let per := 32 * ((l.stages[0]?.map (·.groups)).getD 1)
    let gs := ceilDiv n per
    (Nat.min n (per * (i * gs / d)), Nat.min n (per * ((i + 1) * gs / d)))
  else (i * n / d, (i + 1) * n / d)

/-- Deal the supply at release: block ranges, or an empty stock that asks for batches. -/
def Launch.dealStart (l : Launch) (dies : List Nat) : Launch :=
  if l.deal && !l.cores then { l with supply := 0 }
  else
    let shares := dies.filterMap fun d =>
      let (lo, hi) := l.blockShare dies d
      if lo < hi then some (d, lo, hi - lo) else none
    let l : Launch :=
      { l with
        supply := l.items
        stocks := shares.map fun (x : Nat × Nat × Nat) => { die := x.1, stage := 0, ranges := [x.2] } }
    shares.foldl (fun (l : Launch) (x : Nat × Nat × Nat) => l.dealtTo x.1 [x.2]) l

/-- DEAL_REQUEST: a die whose unissued stock is 128 items or fewer asks for a batch (R36). Requests and replies of a stalled
pair stand still (R45). -/
def execDealRequest (l die : Nat) (s : State) : Out :=
  .next <|
    match s.launch? l with
    | none => s
    | some x =>
      let k := x.stock die 0
      if x.live && x.deal && !x.cores && x.dies.contains die && decide (k.count ≤ 128) && !k.asked && !k.final &&
          !s.stalledPair die x.home && !s.relocking die then
        s.updLaunch l fun x => { (x.updStock die 0 fun k => { k with asked := true }) with dealQ := x.dealQ ++ [die] }
      else s

/-- DEAL_SERVE: the home die serves the oldest request with the next 256 positions (R36). -/
def execDealServe (l : Nat) (s : State) : Out :=
  .next <|
    match s.launch? l with
    | none => s
    | some x =>
      match x.dealQ with
      | [] => s
      | die :: rest =>
        if !x.live || s.stalledPair die x.home || s.relocking x.home then s
        else
          let n := Nat.min 256 (x.total - x.supply)
          s.updLaunch l fun x =>
            { x with
              dealQ := rest, supply := x.supply + n
              dealR := AMap.set x.dealR die (if n = 0 then [] else [(x.supply, n)], decide (x.total ≤ x.supply + n)) }

/-- DEAL_REPLY: a die receives its reply (R36). -/
def execDealReply (l die : Nat) (s : State) : Out :=
  .next <|
    match s.launch? l with
    | none => s
    | some x =>
      match AMap.get? x.dealR die with
      | none => s
      | some (rs, fin) =>
        if s.stalledPair x.home die || s.relocking die then s
        else s.updLaunch l fun x =>
          let x := (x.updStock die 0 fun k => { k with ranges := k.ranges ++ rs, final := fin, asked := false }).dealtTo die rs
          { x with dealR := AMap.erase x.dealR die }

/-! ### `launch` (R122) -/

/-- Read the aligned block of `n` bytes at an address, by the address rules of an access, then go on with it. Faults are
precise; an uncorrectable error is reported as one met by an instruction fetch (R122, R207, R264; log 27). -/
def Iss.withBlock (u : Iss) (va n : Nat) (k : Iss → Nat → State) : State :=
  let ea := va % 2 ^ 56 / n * n
  let q : Asker :=
    { owner := .block u.g.id, die := u.g.die, cluster := u.g.cluster, port := u.g.core, ctx := u.ctx, part := u.s.groupPart u.g }
  let use (loc tgt : Nat) : State :=
    if u.s.linkHeld u.g.die loc tgt then u.s
    else
      match u.s.ask q (if tgt = 0 then bytesFrom loc n else []) [] with
      | (s, false) => s
      | (s, true) =>
        let u := { u with s := s.consumeWalks u.g.die u.g.cluster u.ctx }
        if u.s.badTgt tgt loc n then
          { u with s := u.s.noteError loc }.trap { cls := 10, addr := ea, tmask := u.act, fetchError := true }
        else k u (u.s.rdTgt tgt loc ea n)
  match winOf ea with
  | .translated =>
    match u.s.xlate u.g.die u.g.cluster u.ctx ea .read with
    | .ok pa tgt => use pa tgt
    | .fault c => { u with s := u.s.consumeWalks u.g.die u.g.cluster u.ctx }.trap { cls := 8, detail := c, addr := ea, tmask := u.act }
    | .wait => u.s.requestWalk u.g.die u.g.cluster u.ctx ea (u.s.groupPart u.g)
  | _ =>
    match (u.s.gang? u.g.gang).bind fun ga => u.s.windowLoc ga u.ctx ea n with
    | some loc => use loc 0
    | none => u.trap { cls := 9, detail := 0, addr := ea, tmask := u.act }

/-- Earlier accesses of the lanes of the entry are not yet all performed (R122). -/
def Iss.accessesOpen (u : Iss) : Bool := u.s.accs.any fun a => a.grp == u.g.id && u.e.mask.has a.lane

/-- Address of the queue slot that the next LPB takes. -/
def QDesc.nextSlot (d : QDesc) : Nat := d.rbase + 128 * (d.tail % 2 ^ d.logn)

/-- A queue takes an LPB: it is enabled, in state 1 and not full (R122). -/
def QDesc.takes (d : QDesc) : Bool := d.en && d.state == qRunning && decide (d.tail - d.head ≠ 2 ^ d.logn)

/-- The queue of a context as it stands. -/
def State.queue (s : State) (ctx q : Nat) : QDesc := ((s.ctx? ctx).map fun c => AMap.getD c.queues q {}).getD {}

/-- Append an LPB image to a queue: the new TAIL, or none with the slot address where its write failed (R122). -/
def State.appendLpb (s : State) (ctx q v : Nat) : State × Nat × Option Nat :=
  match s.ctx? ctx with
  | none => (s, 0, none)
  | some c =>
    let d := AMap.getD c.queues q {}
    let slot := d.nextSlot
    if !d.takes then (s, 0, none)
    else
      match s.writeVa d.sdie ctx slot 128 v with
      | (s, true) =>
        (s.updCtx ctx fun c => { c with queues := AMap.set c.queues q { d with tail := d.tail + 1 } }, d.tail + 1, none)
      | (_, false) => (s, 0, some slot)

/-- `launch` (R122). -/
def execLaunch (h : Head) (f : FLaunch) (s : State) : Out :=
  issue (.launch h f) s fun u =>
    let d := u.s.queue u.ctx f.q.toNat
    if u.accessesOpen then u.s
    else
      u.withBlock (u.g.getS f.sa.toNat).toNat 128 fun u v =>
        match (if d.takes then
            u.s.gate { owner := .append u.g.id, die := d.sdie, ctx := u.ctx, part := u.s.groupPart u.g }
              (u.s.needVa d.sdie u.ctx true d.nextSlot 128)
          else (u.s, true)) with
        | (s, false) => s
        | (s, true) =>
          let v := if f.ao then v - bits v 703 640 * 2 ^ 640 + (u.g.getS f.sb.toNat).toNat * 2 ^ 640 else v
          let (s, t, bad) := s.appendLpb u.ctx f.q.toNat v
          let s := { u with s := s }.finish (u.g.setS f.sd.toNat (BitVec.ofNat 64 t))
          match bad with
          | some a => s.logGroup u.g 5 0 0 a u.ia
          | none => s

end Sys2Proof.Machine
end

