-- ==== Sys2Proof/Machine/Tensor.lean ====
section
/-! DEFINITION. Tensor: tensor identifier entries, the placing of their elements, and the instructions that define and read
them (spec 01 R20-R27, R424; spec 07 R183-R185, R207-R209; spec 08 R220). -/

namespace Sys2Proof.Machine

/-! ### Entries (Table 1.5) -/

/-- A tensor identifier entry as a number. -/
abbrev Ent := Nat

namespace Ent

def valid (e : Ent) : Bool := bit e 63
def loc (e : Ent) : Nat := bits e 57 56
def base (e : Ent) : Nat := bits e 55 0
def fmt (e : Ent) : Nat := bits e 71 64
def rank (e : Ent) : Nat := bits e 73 72 + 1
def pad (e : Ent) : Nat := bits e 75 74
def rot (e : Ent) : Nat := bits e 80 76
def clear (e : Ent) : Nat := bits e 127 96
def dim (e : Ent) (i : Nat) : Nat := bits e (128 + 32 * i + 31) (128 + 32 * i)
def rowp (e : Ent) : Nat := bits e 287 256
def tilep (e : Ent) : Nat := bits e 319 288
def scalet (e : Ent) : Nat := bits e 327 320
def sv (e : Ent) : Bool := bit e 328
def saxis (e : Ent) : Nat := bits e 385 384
def sord (e : Ent) : Nat := bits e 387 386
def sblk (e : Ent) : Nat := bits e 390 388
def spitch (e : Ent) : Nat := bits e 447 416

/-- The LOC is a store window. -/
def windowed (e : Ent) : Bool := decide (e.loc < 2)

/-- BASE lies in the space LOC names (R424). -/
def baseOk (e : Ent) : Bool :=
  let top := bits e.base 55 48
  match e.loc with
  | 0 => top == 0xFD
  | 1 => top == 0xFE
  | _ => top != 0xFD && top != 0xFE

end Ent

/-- Bits of an element of a format (Table 1.6); none where the code is reserved. -/
def fmtWidth (f : Nat) : Option Nat :=
  match f with
  | 0x01 => some 64 | 0x02 => some 32 | 0x03 => some 16 | 0x04 => some 16 | 0x05 => some 8 | 0x06 => some 8
  | 0x07 => some 6 | 0x08 => some 6 | 0x09 => some 4 | 0x0A => some 8 | 0x0B => some 8 | 0x0C => some 8
  | 0x0D => some 32 | 0x0E => some 32 | 0x10 => some 32 | 0x11 => some 32 | _ => none

/-- A 6-bit format. -/
def isFp6 (f : Nat) : Bool := f == 7 || f == 8

namespace Ent

/-- Bits from one element to the next along dimension 0 (R23). -/
def step (e : Ent) : Nat := if isFp6 e.fmt && e.pad == 1 then 8 else (fmtWidth e.fmt).getD 8

/-- Bits of an element's value. -/
def width (e : Ent) : Nat := (fmtWidth e.fmt).getD 8

/-- A coordinate lies inside the extents (R24). -/
def inside (e : Ent) (c : Nat × Nat × Nat × Nat) : Bool :=
  decide (c.1 < e.dim 0) && decide (c.2.1 < e.dim 1) && decide (c.2.2.1 < e.dim 2) && decide (c.2.2.2 < e.dim 3)

/-- Bit address of an element, counted from virtual address 0 (R23). -/
def bitAddr (e : Ent) (c : Nat × Nat × Nat × Nat) : Nat :=
  8 * (e.base + c.2.1 * e.rowp + c.2.2.1 * e.tilep + c.2.2.2 * e.tilep * e.dim 2) + e.step * c.1

end Ent

/-- The reserved bits of an entry (Table 1.5). -/
def entReserved : Nat :=
  (2 ^ 64 - 1) * 2 ^ 448 + (2 ^ 25 - 1) * 2 ^ 391 + (2 ^ 55 - 1) * 2 ^ 329 + (2 ^ 15 - 1) * 2 ^ 81 + (2 ^ 5 - 1) * 2 ^ 58

/-- The status of a `tdef` image (Table 7.10). -/
def tdefStatus (e : Ent) : Nat :=
  let rsv := e &&& entReserved != 0
  let w := fmtWidth e.fmt
  let padBad :=
    if isFp6 e.fmt then (if e.windowed then e.pad != 1 else e.pad != 0)
    else e.pad != 0
  let ext := (List.range 4).any fun i => e.dim i == 0 || (decide (e.rank ≤ i) && e.dim i != 1)
  if !e.valid then 1
  else if rsv then 2
  else if w.isNone then 3
  else if e.base % 16 ≠ 0 ∨ e.rowp % 16 ≠ 0 ∨ e.tilep % 16 ≠ 0 ∨ e.spitch % 16 ≠ 0 then 4
  else if ext then 5
  else if padBad then 6
  else if e.sblk ≠ 0 ∨ e.sord = 3 ∨ e.rank ≤ e.saxis ∨ (e.sv ∧ e.dim e.saxis % 32 ≠ 0) then 7
  else 0

/-- The entry of an identifier in a context: an entry never written reads zero (R209). -/
def State.ent (s : State) (ctx t : Nat) : Ent :=
  ((s.ctx? ctx).map fun c => (AMap.getD c.tensors t 0).toNat).getD 0

/-- The scale tensor of a data tensor obeys R26 (scale-memory order: R185). -/
def State.scaleOk (s : State) (ctx : Nat) (e : Ent) : Bool :=
  let k := s.ent ctx e.scalet
  let d (i : Nat) : Nat := if i = e.saxis then e.dim i / 32 else e.dim i
  let want (i : Nat) : Nat := if e.sord = 1 then (match i with | 0 => d 1 | 1 => d 0 | i => d i) else d i
  k.valid && k.fmt == 0x0A && e.dim e.saxis % 32 == 0 && (List.range 4).all fun i => k.dim i == want i

/-! ### Where the bytes of an element live (R23, R25, R220) -/

/-- A store address with the bank rotated for coordinate `c1` (R220). -/
def rotate (off rot c1 : Nat) : Nat :=
  off - bits off 8 4 * 16 + (bits off 8 4 ^^^ (c1 * rot % 32)) * 16

/-- Where a byte of an engine access lies, or why it cannot be reached. -/
inductive ELoc where
  | at (loc : Nat) (tgt : Nat)
  | window
  | xlate (cause : Nat)
  | wait
  deriving DecidableEq, Repr

/-- Location of a byte at a virtual address of a tensor, for a row coordinate (R25, R219, R254). Engines use translations
in their new form (R255). DESIGN CHOICE (log 102): where the offsets lead out of the space that LOC names, the byte's own address
decides between a window and a translated access. -/
def State.tensorByte (s : State) (ga : Gang) (ctx : Nat) (e : Ent) (c1 va : Nat) (use : Use) : ELoc :=
  let va := va % 2 ^ 56
  match winOf va with
  | .translated =>
    match s.xlateNow ga.die ctx va use with
    | .ok pa tgt => .at pa tgt
    | .fault c => .xlate c
    | .wait => .wait
  | _ =>
    match s.windowLoc ga ctx va 1 with
    | none => .window
    | some loc => .at (loc - loc % 2 ^ 20 + rotate (loc % 2 ^ 20) e.rot c1) 0

/-- What reads, or writes, of bytes of a tensor need: pairs of a row coordinate and a virtual address (R244, R252). -/
def State.needTensor (s : State) (ga : Gang) (ctx : Nat) (e : Ent) (write : Bool) (ps : List (Nat × Nat)) : Need :=
  let pages := (ps.map fun p => p.2 % 2 ^ 56 / 65536 * 65536).dedup
  let ls := ps.map fun p => s.tensorByte ga ctx e p.1 p.2 (if write then .write else .read)
  let here := ls.filterMap fun x => match x with | .at loc 0 => some loc | _ => none
  { vas := pages, repl := if write then pages.flatMap (s.replPage ga.die ctx) else []
    reads := if write then [] else here, writes := if write then here else []
    stalled := ls.any fun x => match x with | .at loc tgt => s.linkHeld ga.die loc tgt | _ => false }

/-- The bytes that hold an element: virtual addresses, lowest first. -/
def Ent.bytesOf (e : Ent) (c : Nat × Nat × Nat × Nat) : List Nat :=
  let b := e.bitAddr c
  let lo := b / 8
  let hi := (b + e.width - 1) / 8
  (List.range (hi + 1 - lo)).map (lo + ·)

/-- Result of reading an element. -/
inductive ERead where
  | val (x : Nat)
  | fail (window : Bool) (cause : Nat) (va : Nat)
  | poison (va : Nat)
  deriving DecidableEq, Repr

/-- Read bytes of a tensor at virtual addresses, lowest first. -/
def State.readBytes (s : State) (ga : Gang) (ctx : Nat) (e : Ent) (c1 : Nat) : List Nat → ERead
  | [] => .val 0
  | va :: t =>
    match s.tensorByte ga ctx e c1 va .read with
    | .window => .fail true 0 va
    | .xlate c => .fail false c va
    | .wait => .fail false 0 va
    | .at loc tgt =>
      if s.badTgt tgt loc 1 then .poison va
      else
        match s.readBytes ga ctx e c1 t with
        | .val x => .val (s.rdTgt tgt loc va 1 + 256 * x)
        | r => r

/-- What reading elements of a tensor needs. -/
def State.needElems (s : State) (ga : Gang) (ctx : Nat) (e : Ent) (cs : List (Nat × Nat × Nat × Nat)) : Need :=
  s.needTensor ga ctx e false ((cs.filter e.inside).flatMap fun c => (e.bytesOf c).map fun va => (c.2.1, va))

/-- Read an element of a tensor: beyond an extent, the low bits of CLEAR (R24). -/
def State.readElemAt (s : State) (ga : Gang) (ctx : Nat) (e : Ent) (c : Nat × Nat × Nat × Nat) : ERead :=
  if !e.inside c then .val (e.clear % 2 ^ e.step)
  else
    match s.readBytes ga ctx e c.2.1 (e.bytesOf c) with
    | .val x => .val (x >>> (e.bitAddr c % 8) % 2 ^ e.width)
    | r => r

/-! ### `tdef`, `tinv`, `tget` -/

/-- Set the entry of an identifier in a context. -/
def State.setEnt (s : State) (ctx t : Nat) (e : Ent) : State :=
  s.updCtx ctx fun c => { c with tensors := AMap.set c.tensors t (BitVec.ofNat 512 e) }

/-- `tdef` (R207). -/
def execTdef (h : Head) (f : FTdef) (s : State) : Out :=
  issue (.tdef h f) s fun u =>
    u.withBlock (u.g.getS f.sa.toNat).toNat 64 fun u img =>
      let st := tdefStatus img
      let s := if st = 0 then u.s.setEnt u.ctx f.tid.toNat img else u.s
      { u with s := s }.finish (u.g.setS f.sd.toNat (BitVec.ofNat 64 st))

/-- `tinv` (R208). -/
def execTinv (h : Head) (f : FTinv) (s : State) : Out :=
  issue (.tinv h f) s fun u =>
    let e := u.s.ent u.ctx f.tid.toNat
    let s := if e.valid then u.s.setEnt u.ctx f.tid.toNat (e - 2 ^ 63) else u.s
    { u with s := s }.finish u.g

/-- `tget` (R209). -/
def execTget (h : Head) (f : FTget) (s : State) : Out :=
  issue (.tget h f) s fun u =>
    u.writeV f.d.toNat fun l =>
      let t := (readSrc u.g l [] 0 f.a).toNat % 256
      BitVec.ofNat 64 (bits (u.s.ent u.ctx t) (64 * f.w.toNat + 63) (64 * f.w.toNat))

end Sys2Proof.Machine
end

