-- ==== Sys2Proof/Machine/Matrix.lean ====
section
/-! DEFINITION. Matrix: tile sets and tags, convergence registers, the matrix queue and engine, and their instructions (spec 07
R184-R215, spec 02 R52). -/

namespace Sys2Proof.Machine

/-! ### Tile sets (R52, R200-R202) -/

/-- Tile sets of a cluster that no resident gang is bound to. -/
def State.freeSets (s : State) (die cl : Nat) : List Nat :=
  (List.range 4).filter fun n => !((s.residentGangs die cl).any fun g => g.tset == some n)

/-- Other gangs of a cluster that wait for a set ahead of a request made at `t` (R52). -/
def State.setAhead (s : State) (die cl gang t : Nat) : List Nat :=
  (((s.residents die cl).filter fun g => g.gang != gang && decide (g.tileWait.getD t < t)).map (·.gang)).dedup

/-- What a gang's saved record shows of its tiles (Table 13.11): TLOC, and the place of tiles in place. -/
def State.savedTiles (s : State) (ga : Gang) (ctx : Nat) : Nat × Nat × Nat × Nat :=
  match (s.ctx? ctx).bind fun c => (s.slotOf c ga.sr).map fun n => s.rd (c.slotAddr n) 8 with
  | some w => (bits w 1 0, bits w 14 9, bits w 8 4, bits w 3 2)
  | none => (0, 0, 0, 0)

/-- Outcome of the tag comparison (Table 7.8). -/
inductive Claim where
  | go
  | retag
  | trap (cause : Nat)
  deriving DecidableEq, Repr

/-- Compare a gang with the tag of its bound set (R202). -/
def State.claim (s : State) (ga : Gang) (ctx n : Nat) : Claim :=
  let r := AMap.getD (s.cluster ga.die ga.cluster).tags n {}
  let mine := r.gang.toNat == ga.sr % 2 ^ 46 && r.ctx.toNat == ctx
  let (tloc, d, c, sl) := s.savedTiles ga ctx
  let elsewhere := tloc == 2 || (tloc == 1 && !(d == ga.die && c == ga.cluster && sl == n))
  if (!r.owned || (!mine && r.held == 0)) && !elsewhere then .retag
  else if r.owned && !mine && r.held != 0 then .trap 0
  else if tloc == 1 && elsewhere then .trap 1
  else if tloc == 2 then .trap 2
  else .go

/-- Retag a set to a gang silently: its tiles read +0.0 (Table 7.8). -/
def State.retag (s : State) (ga : Gang) (ctx n : Nat) : State :=
  s.updCluster ga.die ga.cluster fun (c : Cluster) =>
    let r : TagRec := AMap.getD c.tags n {}
    let r : TagRec := { r with owned := true, held := 0, gang := BitVec.ofNat 46 ga.sr, ctx := BitVec.ofNat 16 ctx }
    { c with tags := AMap.set c.tags n r }

/-- The set a gang binds: the free set that holds its tiles in place, else the lowest free one (R52, R204). -/
def State.pickSet (s : State) (ga : Gang) : Option Nat :=
  let free := s.freeSets ga.die ga.cluster
  let (tloc, d, c, n) := s.savedTiles ga (((s.launch? ga.launch).map (·.ctx)).getD 0)
  if tloc = 1 ∧ d = ga.die ∧ c = ga.cluster ∧ free.contains n then some n else free.head?

/-- The set a gang binds at a request made at `t`: one that is free beside those the gangs ahead of it are to receive (R52). -/
def State.setFor (s : State) (ga : Gang) (t : Nat) : Option Nat :=
  if (s.freeSets ga.die ga.cluster).length ≤ (s.setAhead ga.die ga.cluster ga.id t).length then none else s.pickSet ga

/-- Tile `t` of the tile area of a save slot (R364, Table 13.11). -/
def Context.slotTile (c : Context) (slot t : Nat) : Nat := c.slotAddr slot + 65536 * c.slotsz - 262144 + 16384 * t

/-- Copy `n` bytes of memory. -/
def Memory.copy (m : List Host.Cell) (src dst n : Nat) : List Host.Cell :=
  Memory.restore (Memory.clear m dst (dst + n)) dst (Memory.slice m src (src + n))

/-- The scale slice saved with a gang goes into the slice of the set it binds next (R186). -/
def State.restoreSlice (s : State) (ga : Gang) (n : Nat) : State :=
  if ga.savedScale = [] then s
  else
    ({ s with mem := Memory.restore s.mem (scaleLoc ga.die ga.cluster (16384 * n)) ga.savedScale }).updGang ga.id
      fun ga => { ga with savedScale := [] }

/-- The tiles of a save-point save go into the set the gang binds, with HELD set (R205). Where none was saved the set's tag stays, for
the gang has named no tile of it (R200). DESIGN CHOICE (log 95): where tiles were saved and the tag names another gang whose tiles
stand there in place, the spec orders no claim before the restore: the tag becomes the restored gang's and its tiles are written.
-/
def State.restoreTiles (s : State) (ga : Gang) (ctx n : Nat) : State :=
  match s.ctx? ctx, ga.slot with
  | some c, some k =>
    if !ga.savePoint then s
    else
      let w := s.rd (c.slotAddr k) 8
      let held := bits w 30 15
      let mem := ((List.range 16).filter (bit held)).foldl (fun m t =>
        Memory.copy m (c.slotTile k t) (tileLoc ga.die ga.cluster (16384 * (16 * n + t))) 16384) s.mem
      let s :=
        if held = 0 then s
        else
          let s := { s with mem := mem }
          let s := s.wr (c.slotAddr k) 8 (w - w % 2 ^ 15 + ga.die * 2 ^ 9 + ga.cluster * 2 ^ 4 + n * 4 + 1)
          s.updCluster ga.die ga.cluster fun (c : Cluster) =>
            let r : TagRec := AMap.getD c.tags n {}
            let r : TagRec :=
              { r with owned := true, held := BitVec.ofNat 16 held, gang := BitVec.ofNat 46 ga.sr, ctx := BitVec.ofNat 16 ctx }
            { c with tags := AMap.set c.tags n r }
      (s.updGang ga.id fun ga => { ga with savePoint := false, slot := none }).updCtx ctx fun c =>
        { c with slots := c.slots.filter (· ≠ k) }
  | _, _ => s

/-- The group whose queue holds the lowest-stamped saved operation of a gang (R411). -/
def State.lowestOp (s : State) (gang : Nat) : Option Group :=
  let first (g : Group) : Nat := (g.matq.head?.map (·.stamp)).getD 0
  ((s.gangGroups gang).filter fun g => !g.matq.isEmpty).foldl (fun (best : Option Group) g =>
    match best with | none => some g | some b => if first g < first b then some g else some b) none

/-- A gang restored with saved matrix operations that has bound a set: its tag is compared, and a claim traps in the group of
the lowest-stamped operation (R411, R202). -/
def State.compareRestored (s : State) (gang : Nat) : State :=
  match s.gang? gang with
  | none => s
  | some ga =>
    match ga.restoredOps, ga.tset with
    | true, some n =>
      let ctx := ((s.launch? ga.launch).map (·.ctx)).getD 0
      let go (s : State) : State := s.updGang gang fun ga => { ga with restoredOps := false }
      match s.claim ga ctx n with
      | .go => go s
      | .retag => go (s.retag ga ctx n)
      | .trap c =>
        match s.lowestOp gang with
        | none => go s
        | some g =>
          let e : Entry := ((Entry.sort g.entries).head?).getD { pc := 0, mask := 0 }
          let g := g.updEntry e.mask fun e => { e with park := none }
          s.takeTrap g e { cls := 13, detail := c, tmask := e.mask }
    | _, _ => s

/-- Bind a gang to a tile set; no group of it waits any more, and what was saved for its set is written back. -/
def State.bindSet (s : State) (gang n : Nat) : State :=
  let s := s.updGang gang fun ga => { ga with tset := some n }
  let s := { s with groups := s.groups.map fun (g : Group) => if g.gang = gang then { g with tileWait := none } else g }
  match s.gang? gang with
  | none => s
  | some ga =>
    let ctx := ((s.launch? ga.launch).map (·.ctx)).getD 0
    ((s.restoreSlice ga n).restoreTiles ga ctx n).compareRestored gang

/-- The group of a cluster that asked for a tile set first, with ties going to the lower group number (R52). -/
def State.firstTileWait (s : State) (die cl : Nat) : Option Group :=
  (s.residents die cl).foldl (fun (best : Option Group) g =>
    match g.tileWait, best with
    | none, b => b
    | some _, none => some g
    | some t, some b =>
      let w := b.tileWait.getD 0
      if t < w ∨ (t = w ∧ s.srGroup g < s.srGroup b) then some g else some b) none

/-- TILE_SET_BIND: a freed set goes to the gang whose first tile-naming instruction came first (R52). -/
def execTileSetBind (die cl : Nat) (s : State) : Out :=
  .next <|
    match s.freeSets die cl with
    | [] => s
    | _ :: _ =>
      match s.firstTileWait die cl with
      | some g =>
        match (s.gang? g.gang).bind s.pickSet with
        | some n => s.bindSet g.gang n
        | none => s
      | none => s

/-- Bind a set for an instruction that needs one, or park its entry (R52, R184). -/
def Iss.withSet (u : Iss) (k : Iss → Gang → Nat → State) : State :=
  match u.s.gang? u.g.gang with
  | none => u.s
  | some ga =>
    match ga.tset with
    | some n => k u ga n
    | none =>
      match u.s.setFor ga (u.g.tileWait.getD u.s.next) with
      | some n =>
        let s := u.s.bindSet ga.id n
        k { u with s := s, g := { u.g with tileWait := none } } { ga with tset := some n } n
      | none => u.park { u.g with tileWait := some (u.g.tileWait.getD u.s.next) } .tileSet

/-- Bind a set and compare tags before any other effect of a tile-naming instruction (R202). -/
def Iss.withTiles (u : Iss) (k : Iss → Gang → Nat → State) : State :=
  u.withSet fun u ga n =>
    match u.s.claim ga u.ctx n with
    | .go => k u ga n
    | .retag => k { u with s := u.s.retag ga u.ctx n } ga n
    | .trap c => u.trap { cls := 13, detail := c, tmask := u.act }

/-! ### Matrix queues (R196, R197) -/

/-- Tiles of a cluster an operation names: 16 per set. -/
def MatOp.tiles (o : MatOp) (set : Nat) : List Nat :=
  ((List.range 16).filter o.mask.getLsbD).map (16 * set + ·)

/-- Matrix operations queued or running on a cluster, with their gangs' sets; those of a restored gang count from the comparison
that proceeds (R411; log 61). -/
def State.matOps (s : State) (die cl : Nat) : List (MatOp × Nat) :=
  (s.residents die cl).flatMap fun g =>
    match (s.gang? g.gang).bind fun ga => if ga.restoredOps then none else ga.tset with
    | some n => g.matq.map fun o => (o, n)
    | none => []

/-- BUSY of a tile of a cluster (Table 7.7). -/
def State.tileBusy (s : State) (die cl tile : Nat) : Bool :=
  (s.matOps die cl).any fun x => (x.1.tiles x.2).contains tile

/-- Queue a matrix operation on a group with the next stamp. -/
def Group.enqueue (g : Group) (o : MatOp) : Group := { g with matq := g.matq ++ [o] }

/-! ### Descriptors (R188, R211) -/

/-- A tile operand descriptor (Table 7.4). -/
def descTid (d : Word) : Nat := bits d.toNat 63 56
def descC1 (d : Word) : Nat := bits d.toNat 51 26
def descC0 (d : Word) : Nat := bits d.toNat 25 0

/-- The entry's LOC suits the matrix engine: gang store, or the SRAM window of the own cluster (R188, R424). -/
def Ent.matLoc (e : Ent) (g : Group) : Bool :=
  e.baseOk && (e.loc == 0 || (e.loc == 1 && 8 * bits e.base 47 44 + bits e.base 43 40 == g.die && bits e.base 39 35 == g.cluster))

/-- Bits of K of a form (Table 7.3). -/
def formK (w : Nat) : Nat := match w with | 16 => 128 | 4 => 512 | _ => 256

/-- One operand's format and SV can stand in a form (Table 7.3). -/
def formOne (w : Nat) (e : Ent) : Bool :=
  match w with
  | 16 => (e.fmt == 4 || e.fmt == 3) && !e.sv
  | 8 => e.fmt == 5 || e.fmt == 6 || e.fmt == 0x0B
  | 6 => (e.fmt == 7 || e.fmt == 8) && e.sv
  | _ => e.fmt == 9 && e.sv

/-- Two operands can stand together (Table 7.3). -/
def formPair (w : Nat) (a b : Ent) : Bool :=
  match w with
  | 16 => a.fmt == b.fmt
  | 8 => a.sv == b.sv && ((a.fmt == 0x0B) == (b.fmt == 0x0B))
  | _ => true

/-- The scale bytes an operand reads lie in the slice (R185, R188). -/
def scalesInSlice (k : Ent) (e : Ent) (c0 c1 kk : Nat) : Bool :=
  let rows := Nat.min 64 (e.dim 1 - c1)
  let blocks := Nat.min (kk / 32) (ceilDiv (e.dim 0 - c0) 32)
  rows == 0 || blocks == 0 ||
    decide (k.base % 16384 + (c1 + rows - 1) * e.spitch + (c0 / 32 + blocks - 1) < 16384)

/-- A tile operand descriptor is valid by itself (R188). -/
def State.descOk (s : State) (g : Group) (ctx w : Nat) (d : Word) : Bool :=
  let e := s.ent ctx (descTid d)
  let k := s.ent ctx e.scalet
  bits d.toNat 55 52 == 0 && descC0 d % 32 == 0 && e.valid && e.matLoc g && formOne w e &&
    (!e.sv || (e.sord == 2 && e.saxis == 0 && s.scaleOk ctx e && k.base / 16384 == 0 &&
      scalesInSlice k e (descC0 d) (descC1 d) (formK w)))

/-- The identifier an invalid pair of descriptors names (R27): A before B, a pairing names B. -/
def State.descFault (s : State) (g : Group) (ctx w : Nat) (a b : Word) : Option Nat :=
  if !s.descOk g ctx w a then some (descTid a)
  else if !s.descOk g ctx w b then some (descTid b)
  else if !formPair w (s.ent ctx (descTid a)) (s.ent ctx (descTid b)) then some (descTid b)
  else none

/-! ### `mma` (R193, R212) -/

/-- A convergence register of a gang. -/
def Gang.cvAt (ga : Gang) (n : Nat) : CvReg := AMap.getD ga.cv n {}

/-- A tile operation with the entries read now (R193). -/
def State.tileOp (s : State) (ctx w mt : Nat) (a b : Word) : MatOp :=
  let ea := s.ent ctx (descTid a)
  let eb := s.ent ctx (descTid b)
  { stamp := s.next, mask := BitVec.ofNat 16 (2 ^ mt), kind := .tile w a b, ta := BitVec.ofNat 512 ea
    tb := BitVec.ofNat 512 eb, sa := BitVec.ofNat 512 (s.ent ctx ea.scalet), sb := BitVec.ofNat 512 (s.ent ctx eb.scalet) }

/-- What a lane's signature comes to (R193): it signs, or it holds the pipe. -/
inductive Sign where
  | signed (s : State) (g : Group)
  | held (s : State)

/-- One lane signs a register: it holds while another lane holds the register at its count, and where its signature completes the
count and the queue is full (R193). -/
def signLane (ctx w : Nat) (f : FMma) (l : Nat) (s : State) (g : Group) : Sign :=
  match s.gang? g.gang with
  | none => .signed s g
  | some ga =>
    let cv := f.cv.toNat
    let r := ga.cvAt cv
    let put (s : State) (r : CvReg) : State := s.updGang ga.id fun ga => { ga with cv := AMap.set ga.cv cv r }
    if r.hold.isSome && r.hold != some g.id then .held s
    else if r.sig + 1 < r.cm1 + 1 then .signed (put s { r with sig := r.sig + 1, last := g.index }) g
    else if 4 ≤ g.matq.length then .held (put s { r with hold := some g.id })
    else
      let o := s.tileOp ctx w f.mt.toNat (g.getV f.va.toNat l) (g.getV f.vb.toNat l)
      .signed { put s { r with sig := 0, last := g.index, hold := none } with next := s.next + 1 } (g.enqueue o)

/-- The sequence holds its pipe with lanes still to sign. -/
def Iss.signMid (u : Iss) (s : State) (g : Group) (left : Mask) : State :=
  s.updGroup u.g.id fun _ => (u.started g).updEntry u.e.mask fun e => { e with restart := some left, mid := true }

/-- The lowest lane left signs: lanes sign one at a time, so that the lanes of other groups may sign between them (R193, R194). A
signature is a release: its lane's earlier accesses are performed first (R195). -/
def Iss.signNext (u : Iss) (w : Nat) (f : FMma) : State :=
  match u.ex.toList with
  | [] => u.finish u.g
  | l :: ls =>
    if u.s.orderHolds u.g (Mask.one l) true then u.s
    else
      match signLane u.ctx w f l u.s u.g with
      | .held s => u.signMid s u.g u.ex
      | .signed s g =>
        if ls = [] then { u with s := s }.finish g else u.signMid s g (u.ex &&& ~~~Mask.one l)

/-- Issue an `mma` of a form width (R212): the tag and the descriptors are checked before the first lane signs. -/
def mmaSeq (i : Instr) (w : Nat) (f : FMma) (s : State) : Out :=
  issue i s fun u =>
    if u.e.mid then u.signNext w f
    else u.withTiles fun u _ _ =>
      let bad := u.ex.toList.filterMap fun l =>
        (u.s.descFault u.g u.ctx w (u.g.getV f.va.toNat l) (u.g.getV f.vb.toNat l)).map fun t => (l, t)
      match bad with
      | (_, t) :: _ => u.trap { cls := 6, info := t, tmask := Mask.ofPred fun l => bad.any (·.1 == l) }
      | [] => u.signNext w f

/-- `mma.w16` (R187, R212). -/
def execMmaW16 (h : Head) (f : FMma) (s : State) : Out := mmaSeq (.mmaW16 h f) 16 f s
/-- `mma.w8` (R187, R212). -/
def execMmaW8 (h : Head) (f : FMma) (s : State) : Out := mmaSeq (.mmaW8 h f) 8 f s
/-- `mma.w6` (R187, R212). -/
def execMmaW6 (h : Head) (f : FMma) (s : State) : Out := mmaSeq (.mmaW6 h f) 6 f s
/-- `mma.w4` (R187, R212). -/
def execMmaW4 (h : Head) (f : FMma) (s : State) : Out := mmaSeq (.mmaW4 h f) 4 f s

/-! ### The other matrix instructions -/

/-- `mzero` (R210). -/
def execMzero (h : Head) (f : FK16) (s : State) : Out :=
  issue (.mzero h f) s fun u =>
    if 4 ≤ u.g.matq.length then u.s
    else u.withTiles fun u _ _ =>
      { u with s := u.s.fresh }.finish (u.g.enqueue { stamp := u.s.next, mask := f.mask, kind := .zero })

/-- Issue `mload` or `mstore` (R211): a release at gang scope for the items of the entry. -/
def tileMove (i : Instr) (f : FMl) (kind : Word → MatKind) (s : State) : Out :=
  issue i s fun u =>
    if 4 ≤ u.g.matq.length || u.s.orderHolds u.g u.act true then u.s
    else u.withTiles fun u _ _ =>
      let d := u.g.getS f.sa.toNat
      let e := u.s.ent u.ctx (descTid d)
      if bits d.toNat 55 52 == 0 && e.valid && e.matLoc u.g && e.fmt == 2 then
        { u with s := u.s.fresh }.finish (u.g.enqueue
          { stamp := u.s.next, mask := BitVec.ofNat 16 (2 ^ f.mt.toNat), kind := kind d, ta := BitVec.ofNat 512 e })
      else u.trap { cls := 6, info := descTid d, tmask := u.act }

/-- `mload` (R211). -/
def execMload (h : Head) (f : FMl) (s : State) : Out := tileMove (.mload h f) f .load s

/-- `mstore` (R211). -/
def execMstore (h : Head) (f : FMl) (s : State) : Out := tileMove (.mstore h f) f .store s

/-- An operation naming a tile of a mask is queued or running in a group of the gang (R214). -/
def State.gangTilesBusy (s : State) (gang : Nat) (m : BitVec 16) : Bool :=
  (s.gangGroups gang).any fun g => g.matq.any fun o => o.mask &&& m != 0

/-- `mwait` (R214). -/
def execMwait (h : Head) (f : FK16) (s : State) : Out :=
  issue (.mwait h f) s fun u =>
    if u.s.gangTilesBusy u.g.gang f.mask then u.park u.g (.mwait f.mask) else u.finish u.g

/-- `cvset` (R213). -/
def execCvset (h : Head) (f : FCvset) (s : State) : Out :=
  issue (.cvset h f) s fun u =>
    match u.s.gang? u.g.gang with
    | none => u.s
    | some ga =>
      if (ga.cvAt f.cv.toNat).hold.isSome then u.s
      else
        let s := u.s.updGang ga.id fun ga => { ga with cv := AMap.set ga.cv f.cv.toNat { cm1 := f.cm1.toNat } }
        { u with s := s }.finish u.g

/-- `savept` (R215): no effect in the lazy mode. -/
def execSavept (h : Head) (f : FK16) (s : State) : Out :=
  issue (.savept h f) s fun u =>
    let s :=
      if ((u.s.ctx? u.ctx).map (·.savem)).getD false then u.s.updGang u.g.gang fun ga => { ga with live := f.mask } else u.s
    { u with s := s }.finish u.g

/-! ### The engine (R197-R199) -/

/-- An operation is eligible: none with a lower stamp names one of its tiles (R197). -/
def State.eligible (s : State) (die cl : Nat) (o : MatOp) (set : Nat) : Bool :=
  !(s.matOps die cl).any fun x => decide (x.1.stamp < o.stamp) && (x.1.tiles x.2).any (o.tiles set).contains

/-- The gang's stop for saving has begun: none of its queued operations and commands starts (R259, R411). -/
def Gang.stopped (ga : Gang) : Bool := ga.preempting

/-- MATRIX_ENGINE_START: the free engine starts the head of the first queue, in slot order after the last, whose head is
eligible (R197). A restored gang's operation first compares the tag (R411, R202). -/
def execMatrixEngineStart (die cl : Nat) (s : State) : Out :=
  .next <|
    let c := s.cluster die cl
    if c.running.isSome || c.power != .awake || s.relocking die then s
    else
      let slots := (List.range 128).map fun k => (c.lastSlot + 1 + k) % 128
      let pick := slots.findSome? fun sl =>
        (s.residents die cl).findSome? fun g =>
          if 32 * g.core + g.slot != sl then none
          else
            match g.matq, s.gang? g.gang with
            | o :: _, some ga =>
              match ga.tset with
              | some n =>
                if s.eligible die cl o n && !ga.stopped && !ga.restoredOps then some (g, o, sl) else none
              | none => none
            | _, _ => none
      match pick with
      | none => s
      | some (g, o, sl) => s.updCluster die cl fun c => { c with running := some (g.id, o), lastSlot := sl }

/-- Value of a scale code (R182): NaN for 0xFF. -/
def scaleExp (x : Nat) : Option Int := if x = 255 then none else some (x : Int)

/-- The exact value of an operand element (R180, R181, R190); INT8 elements are integers here. -/
def operandVal (fmt x : Nat) : FV :=
  match fmt with
  | 3 => fp16.unpack x
  | 4 => bf16.unpack x
  | 5 => e4m3.unpack x
  | 6 => e5m2.unpack x
  | 7 => e3m2.unpack (x % 64)
  | 8 => e2m3.unpack (x % 64)
  | 9 => e2m1.unpack x
  | _ => let i := toSigned 8 x; .fin (decide (i < 0)) i.natAbs 0

/-- A node of the tree: the FP32 value of the rounded sum (R189, R190). -/
def treeAdd (x y : FV) : FV := (rne32.add x y).fv32

/-- The tree of R189 over a list of 2^k products. -/
def treeSum : Nat → List FV → FV
  | 0, ps => ps.headD (.fin false 0 0)
  | k + 1, ps => treeAdd (treeSum k (ps.take (2 ^ k))) (treeSum k (ps.drop (2 ^ k)))

/-- The exact sum of a block; a zero sum is +0. -/
def exactSum (ps : List FV) : FV :=
  match ps.foldl (fun (a p : FV) => (a.addExact p).1) (FV.fin false 0 0) with
  | .fin n m e => if m = 0 then .fin false 0 0 else .fin n m e
  | v => v

/-- The block value, scaled and rounded (R189): `e` is the power of two, `round` whether it is rounded here. -/
def blockValue (v : FV) (e : Int) (round : Bool) : FV :=
  if round then
    match v with
    | .fin n m x => if m = 0 then .fin n 0 0 else (rne32.go n m (x + e)).fv32
    | .inf n => .inf n
    | .nan _ => .nan false
  else v

/-- Product of two operand elements; NaN for ∞ × 0. -/
def elemProd (x y : FV) : FV := (x.mulExact y).getD (.nan false)

/-- One accumulator element after a tile operation (R189): `av`, `bv` give the operand elements at `k`, `as`, `bs` the scale
codes of a block. -/
def tileElem (w : Nat) (int8 sv : Bool) (acc : Nat) (av bv : Nat → FV) (as bs : Nat → Nat) : Nat :=
  let n := if w = 16 then 16 else 32
  let trees := w == 16 || (w == 8 && !int8)
  let r := (List.range (formK w / n)).foldl (fun c q =>
    let ps := (List.range n).map fun i => elemProd (av (n * q + i)) (bv (n * q + i))
    let t := if trees then treeSum (if n = 16 then 4 else 5) ps else exactSum ps
    let t :=
      if sv then
        match scaleExp (as q), scaleExp (bs q) with
        | some x, some y => blockValue t (x + y - 254 - (if int8 then 12 else 0)) true
        | _, _ => .nan false
      else if trees then t
      else blockValue t 0 true
    treeAdd c t) (fp32.unpack acc)
  match r with
  | .nan _ => 0x7FC00000
  | .inf neg => (rne32.inf neg).bits
  | .fin neg m e => if m = 0 then (if neg then 2 ^ 31 else 0) else (rne32.go neg m e).bits

/-- The first read of a list that fails: detail and address (R199). The spec gives the accesses of an operation no order: the
model takes A's rows before B's and each row from its first element on (log 72). -/
def firstFail : List ERead → Option (Nat × Nat)
  | [] => none
  | .val _ :: t => firstFail t
  | .poison a :: _ => some (0, a)
  | .fail _ _ a :: _ => some (1, a)

/-- Location of an accumulator element (R201). -/
def tileElemLoc (die cl tile r c : Nat) : Nat := tileLoc die cl (16384 * tile + 256 * r + 4 * c)

/-- An accumulator element as an operation reads it: +0.0 where HELD is clear (R200). -/
def State.tileRead (s : State) (die cl set t r c : Nat) : Nat :=
  if (AMap.getD (s.cluster die cl).tags set {}).held.getLsbD t then s.rd (tileElemLoc die cl (16 * set + t) r c) 4 else 0

/-- Write every element of a tile and set its HELD bit. -/
def State.tileWrite (s : State) (die cl set t : Nat) (f : Nat → Nat → Nat) : State :=
  let s := (List.range 64).foldl (fun s r =>
    (List.range 64).foldl (fun s c => s.wr (tileElemLoc die cl (16 * set + t) r c) 4 (f r c)) s) s
  s.updCluster die cl fun x =>
    let k := AMap.getD x.tags set {}
    { x with tags := AMap.set x.tags set { k with held := k.held ||| BitVec.ofNat 16 (2 ^ t) } }

/-- The value of a read. -/
def ERead.get : ERead → Nat
  | .val x => x
  | _ => 0

/-- Rows of an operand: 64 rows of K elements along dimension 0 (R188). -/
def State.operand (s : State) (ga : Gang) (ctx : Nat) (e : Ent) (d : Word) (k : Nat) : List (List ERead) :=
  (List.range 64).map fun r => (List.range k).map fun i => s.readElemAt ga ctx e (descC0 d + i, descC1 d + r, 0, 0)

/-- Scale code of a block of a row of an operand (R185, R188). -/
def State.scaleAt (s : State) (ga : Gang) (set : Nat) (e k : Ent) (d : Word) (r q : Nat) : Nat :=
  let c0 := descC0 d + 32 * q
  let c1 := descC1 d + r
  if e.dim 0 ≤ c0 ∨ e.dim 1 ≤ c1 then 0x7F
  else s.rd (scaleLoc ga.die ga.cluster (16384 * set + k.base % 16384 + c1 * e.spitch + c0 / 32)) 1

/-- Log a failed matrix access (R199); the management controller learns of an uncorrectable error (R245). -/
def State.logMatrix (s : State) (g : Group) (tile : Nat) (fail : Option (Nat × Nat)) : State :=
  match fail with
  | some (d, a) => (if d = 0 then s.noteErrorVa g.die (s.groupCtx g) a else s).logGroup g 7 d tile a 0
  | none => s

/-- The effect of a matrix operation (R187, R199, R210, R211): an `mstore` writes its elements, and each granule written is then set
full, once, so that its waiters see the whole write (R191, R331). -/
def State.matEffect (s : State) (g : Group) (ga : Gang) (set : Nat) (o : MatOp) : State :=
  let ctx := s.groupCtx g
  let t := ((List.range 16).find? o.mask.getLsbD).getD 0
  let nan : Nat → Nat → Nat := fun _ _ => 0x7FC00000
  match o.kind with
  | .zero =>
    ((List.range 16).filter o.mask.getLsbD).foldl (fun s t => s.tileWrite ga.die ga.cluster set t fun _ _ => 0) s
  | .tile w a b =>
    let ea : Ent := o.ta.toNat
    let eb : Ent := o.tb.toNat
    let ra := s.operand ga ctx ea a (formK w)
    let rb := s.operand ga ctx eb b (formK w)
    match firstFail (ra.flatten ++ rb.flatten) with
    | some f => (s.tileWrite ga.die ga.cluster set t nan).logMatrix g t (some f)
    | none =>
      let va := ra.map (·.map fun x => operandVal ea.fmt x.get)
      let vb := rb.map (·.map fun x => operandVal eb.fmt x.get)
      s.tileWrite ga.die ga.cluster set t fun r c =>
        tileElem w (ea.fmt == 0x0B) ea.sv (s.tileRead ga.die ga.cluster set t r c)
          (fun k => (va.getD r []).getD k (.nan false)) (fun k => (vb.getD c []).getD k (.nan false))
          (fun q => s.scaleAt ga set ea o.sa.toNat a r q) (fun q => s.scaleAt ga set eb o.sb.toNat b c q)
  | .load d =>
    let rs := s.operand ga ctx o.ta.toNat d 64
    match firstFail rs.flatten with
    | some f => (s.tileWrite ga.die ga.cluster set t nan).logMatrix g t (some f)
    | none => s.tileWrite ga.die ga.cluster set t fun r c => ((rs.getD r []).getD c (.val 0)).get
  | .store d =>
    let e : Ent := o.ta.toNat
    let cells := (List.range 64).flatMap fun r => (List.range 64).map fun c => (r, c)
    let (s', ls, f) := cells.foldl (fun (acc : State × List Nat × Option (Nat × Nat)) rc =>
      let c := (descC0 d + rc.2, descC1 d + rc.1, 0, 0)
      if !e.inside c then acc
      else
        let va := e.bitAddr c / 8
        match s.tensorByte ga ctx e c.2.1 va .write with
        | .at loc 0 =>
          (acc.1.wr loc 4 (s.tileRead ga.die ga.cluster set t rc.1 rc.2), loc :: (loc + 3) :: acc.2.1, acc.2.2)
        | .at .. => acc
        | _ => (acc.1, acc.2.1, some (acc.2.2.getD (1, va)))) (s, [], none)
    (s'.fillGranules ls.reverse).logMatrix g t f

/-- Coordinates of an operand's elements: 64 rows of `k` (R188). -/
def operandCoords (d : Word) (k : Nat) : List (Nat × Nat × Nat × Nat) :=
  (List.range 64).flatMap fun r => (List.range k).map fun i => (descC0 d + i, descC1 d + r, 0, 0)

/-- What a matrix operation reads and writes beside its tiles: its operands, or the elements that it stores (R187, R210, R211). -/
def State.matNeed (s : State) (ga : Gang) (ctx : Nat) (o : MatOp) : Need :=
  let ea : Ent := o.ta.toNat
  match o.kind with
  | .zero => {}
  | .tile w a b =>
    (s.needElems ga ctx ea (operandCoords a (formK w))).both (s.needElems ga ctx o.tb.toNat (operandCoords b (formK w)))
  | .load d => s.needElems ga ctx ea (operandCoords d 64)
  | .store d =>
    s.needTensor ga ctx ea true (((operandCoords d 64).filter ea.inside).flatMap fun c =>
      (List.range 4).map fun i => (c.2.1, ea.bitAddr c / 8 + i))

/-- The group of a running operation, its gang, and the tile set that the gang is bound to. -/
def State.matOwner (s : State) (gid : Nat) : Option (Group × Gang × Nat) :=
  (s.group? gid).bind fun g => (s.gang? g.gang).bind fun ga => ga.tset.map fun n => (g, ga, n)

/-- MATRIX_OP_COMPLETE: the running operation writes its results and leaves its queue, once the banks and base dies have performed its
requests (R198, R221, R244). -/
def execMatrixOpComplete (die cl : Nat) (s : State) : Out :=
  .next <|
    match (if s.relocking die then none else (s.cluster die cl).running) with
    | none => s
    | some (gid, o) =>
      match s.matOwner gid with
      | none => s.updCluster die cl fun c => { c with running := none }
      | some (g, ga, n) =>
        let ctx := s.groupCtx g
        match s.gate { owner := .matrix o.stamp, die := die, cluster := cl, port := 4, ctx := ctx, part := s.groupPart g }
            (s.matNeed ga ctx o) with
        | (s, false) => s
        | (s, true) =>
          ((s.updCluster die cl fun c => { c with running := none }).matEffect g ga n o).updGroup gid fun g =>
            { g with matq := g.matq.filter fun (x : MatOp) => x.stamp ≠ o.stamp }.completed o.stamp

/-- TILE_WINDOW_WRITE: system software writes an element of the tile data window; a write to a busy tile is dropped
(R201). -/
def execTileWindowWrite (die cl off : Nat) (v : BitVec 32) (s : State) : Out :=
  .next <|
    if off % 4 ≠ 0 ∨ 2 ^ 20 ≤ off ∨ s.tileBusy die cl (off / 16384) ∨ (s.die? die).isNone then s
    else s.wr (tileLoc die cl off) 4 v.toNat

end Sys2Proof.Machine
end

