-- ==== Sys2Proof/Machine/Walks.lean ====
section
/-! DEFINITION. Walks: page walks, TLB invalidation, the collapse of replicated pages and `tlbp` (spec 09 R252-R255, R271). A
step whose condition does not hold leaves the state as it is. -/

namespace Sys2Proof.Machine

/-! ### TLBs (R253) -/

/-- Add an entry to a TLB of a capacity: it replaces the page's own entry, else the oldest of a full TLB goes. -/
def tlbAdd (cap : Nat) (l : List TlbE) (e : TlbE) : List TlbE :=
  let l := l.filter fun x => !(x.ctx == e.ctx && x.va == e.va && x.level == e.level)
  (if l.length < cap then l else l.drop (l.length + 1 - cap)) ++ [e]

/-- Install a leaf in a cluster TLB and its die TLB; for a die's units, in the die TLB. -/
def State.installTlb (s : State) (die cl : Nat) (e : TlbE) : State :=
  (if cl < dieUnits then s.updCluster die cl fun c => { c with tlb := tlbAdd 256 c.tlb e } else s).updDie die fun d =>
    { d with tlb := tlbAdd 8192 d.tlb e }

/-- The TLB entry of a leaf for an address. -/
def leafEntry (ctx va level pte : Nat) : TlbE :=
  { ctx := ctx, va := va / pageSize level * pageSize level, level := level, pte := BitVec.ofNat 64 pte }

/-! ### Walks (R253, R254) -/

/-- Two walks of a die want the same leaf entry. -/
def State.sameWalk (s : State) (a b : Walk) : Bool :=
  a.die == b.die && a.ctx == b.ctx &&
    (match s.walk a.ctx (a.vpn * 65536) with
      | .leaf level _ => a.vpn * 65536 / pageSize level == b.vpn * 65536 / pageSize level
      | .cause _ => a.vpn == b.vpn)

/-- The walk is running. -/
def Walk.isRunning (w : Walk) : Bool := match w.phase with | .running => true | _ => false

/-- The walk waits to start. -/
def Walk.isWaiting (w : Walk) : Bool := match w.phase with | .waiting => true | _ => false

/-- The walk has ended. -/
def Walk.isDone (w : Walk) : Bool := match w.phase with | .done .. => true | _ => false

/-- PAGE_WALK_START: the oldest waiting walk of a die starts; a die runs 64 at once, and a walk whose entry another walk of the die is
fetching waits for its result (R253). -/
def execPageWalkStart (die : Nat) (s : State) : Out :=
  .next <|
    if 64 ≤ (s.walks.filter fun w => w.die == die && w.isRunning).length then s
    else
      match s.walks.find? fun w => w.die == die && w.isWaiting && !s.walks.any fun x => x.isRunning && s.sameWalk x w with
      | none => s
      | some w => { s with walks := s.walks.map fun (x : Walk) => if x.id = w.id then { x with phase := .running } else x }

/-- The entries of a context's tables that a walk reads, root first (R248). -/
def State.walkReads (s : State) (va : Nat) : Nat → Nat → Nat → List Nat
  | 0, _, _ => []
  | fuel + 1, level, tbl =>
    let a := tbl + 8 * (va / 2 ^ (levelBits level).1 % 2 ^ (levelBits level).2)
    if paHost a || !paOk a then []
    else
      let e := s.rd a 8
      if s.poisoned a 8 || e % 2 == 0 || e / 2 % 2 == 1 || level == 4 || tableMalformed level e then [a]
      else a :: s.walkReads va fuel (level + 1) (pteAddr e)

/-- Bytes that a walk reads: its packets to base dies are asked for together (log 85), and they bypass the die cache (R253). -/
def State.walkBytes (s : State) (w : Walk) : List Nat :=
  match s.ctx? w.ctx with
  | some c => if winOf (w.vpn * 65536) = Win.translated then s.walkReads (w.vpn * 65536) 5 0 c.root else []
  | none => []

/-- A walk ends: its leaf is installed unless it was invalidated, and every walk that waited for it takes its result (R253, R255). The
management controller learns of an entry that could not be read (R245). -/
def State.endWalk (s : State) (w : Walk) : State :=
  let s := s.noteWalk w.ctx (w.vpn * 65536)
  let va := w.vpn * 65536
  let ph : WalkPhase := match s.walk w.ctx va with
    | .leaf level pte => .done (some (va, level, BitVec.ofNat 64 pte)) 0
    | .cause c => .done none c
  let takes (x : Walk) : Bool := x.id == w.id || (x.isWaiting && s.sameWalk w x)
  let s' := match s.walk w.ctx va with
    | .leaf level pte =>
      s.walks.foldl (fun (s : State) (x : Walk) =>
        if takes x && x.install && !w.stale then s.installTlb w.die x.cluster (leafEntry w.ctx va level pte) else s) s
    | .cause _ => s
  { s' with walks := s'.walks.map fun (x : Walk) => if takes x then { x with phase := ph } else x }

/-- PAGE_WALK_DONE: a running walk ends, once the base dies have performed its reads (R244, R246, R253). -/
def execPageWalkDone (die walk : Nat) (s : State) : Out :=
  .next <|
    match s.walks.find? fun w => w.id == walk && w.die == die && w.isRunning with
    | none => s
    | some w =>
      match s.askFor { owner := .walk w.id, die := die, cluster := w.cluster, ctx := w.ctx, part := w.part } (s.walkBytes w) [] with
      | (s, false) => s
      | (s, true) => s.endWalk w

/-! ### Invalidation (R255) -/

/-- Bytes [lo, hi) a TLBINV names, where it does not name a whole context. -/
def invRange (v : Nat) : Nat × Nat :=
  let size := match bits v 3 2 with | 0 => 2 ^ 16 | 1 => 2 ^ 21 | 2 => 2 ^ 30 | _ => 0
  (bits v 127 72, bits v 127 72 + (bits v 47 32 + 1) * size)

/-- A span of a context lies under a TLBINV. -/
def invHits (v ctx lo n : Nat) : Bool :=
  bits v 71 56 == ctx && (bit v 1 || (decide (lo < (invRange v).2) && decide ((invRange v).1 < lo + n)))

/-- The register with its RW fields; GO reads 1 while an invalidation of the die is not done (R255). -/
def tlbinvWord (v : BitVec 128) (busy : Bool) : BitVec 128 :=
  (v &&& ~~~(BitVec.ofNat 128 (0xFF * 2 ^ 48 + 0xFFFFFFF1))) ||| (if busy then 1 else 0)

/-- TLBINV: a write of the register; GO = 1 starts the invalidation on every die, after those of the die that are not done (R255). -/
def execTlbinv (die : Nat) (v : BitVec 128) (s : State) : Out :=
  .next <|
    let go := bit v.toNat 0
    let s := s.updDie die fun d =>
      let is := if go then d.invs ++ [v] else d.invs
      { d with tlbinv := tlbinvWord v (!is.isEmpty), invs := is }
    if go && (s.die? die).isSome then
      { s with walks := s.walks.map fun (w : Walk) =>
          if w.isRunning && invHits v.toNat w.ctx (w.vpn * 65536) 65536 then { w with stale := true } else w }
    else s

/-- A command in progress has still to use a translation that an invalidation names: one it made when it started (R255). -/
def State.oldPlans (s : State) (v : Nat) : Bool :=
  s.active.any fun a =>
    (a.elems ++ (s.streams.filter (·.cmd == a.cmd.id)).flatMap (·.elems)).any fun e =>
      (e.src != [] && winOf e.srcVa == .translated && invHits v a.cmd.ctx e.srcVa 1) ||
        (e.dst != [] && winOf e.dstVa == .translated && invHits v a.cmd.ctx e.dstVa 1)

/-- TLBINV_DONE: every walk that read a matching entry has completed, no command in progress has still to use one, and no TLB holds
one (R255). -/
def execTlbinvDone (die : Nat) (s : State) : Out :=
  .next <|
    match (s.die? die).map (·.invs) with
    | some (i :: rest) =>
      let v := i.toNat
      if s.walks.any (fun w => w.isRunning && w.stale && invHits v w.ctx (w.vpn * 65536) 65536) || s.oldPlans v then s
      else
        let keep (e : TlbE) : Bool := !invHits v e.ctx e.va (pageSize e.level)
        { s with
          walks := s.walks.filter fun w => !(w.isDone && invHits v w.ctx (w.vpn * 65536) 65536)
          clusters := s.clusters.map fun (c : Cluster) => { c with tlb := c.tlb.filter keep }
          dies := s.dies.map fun (x : Die) =>
            let x := { x with tlb := x.tlb.filter keep }
            if x.num = die then { x with invs := rest, tlbinv := if rest = [] then x.tlbinv &&& ~~~1#128 else x.tlbinv } else x }
    | _ => s

/-! ### Collapse (R252) -/

/-- Bytes of a die's copy of the page of a collapse. -/
def State.collapseSpan (s : State) (c : Collapse) (die : Nat) : Nat × Nat :=
  let n := match s.walk c.ctx c.va with | .leaf level _ => pageSize level | .cause _ => 65536
  (die * 2 ^ 42 + c.page, n)

/-- What is still to be read of a die's copy of a page is read from the home copy. -/
def Elem.rehome (lo n home : Nat) (e : Elem) : Elem :=
  { e with src := e.src.map fun l => if lo ≤ l ∧ l < lo + n then home + (l - lo) else l }

/-- COLLAPSE_MESSAGE: a die drops its translations of the page and its cache lines of its copy; commands in progress read the home
copy from now on (R252). -/
def execCollapseMessage (die page : Nat) (s : State) : Out :=
  .next <|
    match s.collapses.find? fun c => c.page == page && c.todo.contains die && !c.dropped.contains die with
    | none => s
    | some c =>
      let (lo, n) := s.collapseSpan c die
      let keep (e : TlbE) : Bool := !(pteAttr e.pte.toNat == 2 && replKey e.pte.toNat == page &&
        bits (pteAddr e.pte.toNat) 47 42 == c.home)
      let base := c.home * 2 ^ 42 + c.page
      { s with
        collapses := s.collapses.map fun (x : Collapse) =>
          if x.page = page ∧ x.home = c.home then { x with dropped := insertNat x.dropped die } else x
        active := s.active.map fun (a : Active) => { a with elems := a.elems.map (Elem.rehome lo n base) }
        streams := s.streams.map fun (x : Stream) => { x with elems := x.elems.map (Elem.rehome lo n base) }
        clusters := s.clusters.map fun (k : Cluster) => if k.key / 32 = die then { k with tlb := k.tlb.filter keep } else k
        dies := s.dies.map fun (d : Die) =>
          if d.num = die then
            { d with
              tlb := d.tlb.filter keep
              lines := d.lines.filter fun x => !(decide (lo ≤ 128 * x.line) && decide (128 * x.line < lo + n)) }
          else d }

/-- A read of bytes of device memory, of an item or of a unit, is in flight. -/
def State.readOpen (s : State) (lo n : Nat) : Bool :=
  (s.accs.any fun a => isDevice a.loc && !a.kind.writes && decide (lo ≤ a.loc) && decide (a.loc < lo + n)) ||
    s.reqs.any fun r => isDevice r.loc && !r.write && !r.done && decide (lo ≤ r.loc) && decide (r.loc < lo + n)

/-- COLLAPSE_ACK: the home receives a die's acknowledgement, once the die's reads of its copy have ended (R252). -/
def execCollapseAck (die page : Nat) (s : State) : Out :=
  .next <|
    match s.collapses.find? fun c => c.page == page && c.dropped.contains die && c.todo.contains die with
    | none => s
    | some c =>
      let (lo, n) := s.collapseSpan c die
      if s.readOpen lo n then s
      else
        let cs := s.collapses.map fun (x : Collapse) =>
          if x.page = page ∧ x.home = c.home then { x with todo := x.todo.filter (· ≠ die) } else x
        { s with collapses := cs.filter fun (x : Collapse) => x.todo ≠ [] }

/-- Offsets and lengths of the pages, of any size, that would hold a byte of device memory. -/
def pagesOf (pa : Nat) : List (Nat × Nat) := [2 ^ 16, 2 ^ 21, 2 ^ 30].map fun n => (pa % 2 ^ 42 / n * n, n)

/-- A page that may hold the byte is being collapsed. -/
def State.collapsing (s : State) (pa : Nat) : Bool :=
  s.collapses.any fun c => c.home == paDie pa && (pagesOf pa).any fun p => p.1 == c.page

/-- The pages that the home of a byte of device memory holds as replicated and that may hold it: offsets and lengths. -/
def State.replicasAt (s : State) (pa : Nat) : List (Nat × Nat) :=
  (pagesOf pa).filter fun p => (((s.die? (paDie pa)).map (·.replicas)).getD []).contains p.1

/-- A read of a copy, on another die than its home, of a replicated page that may hold the byte is in flight. -/
def State.copyRead (s : State) (pa : Nat) : Bool :=
  (s.replicasAt pa).any fun p => s.dies.any fun d => d.num != paDie pa && s.readOpen (d.num * 2 ^ 42 + p.1) p.2

/-- A write of the host at a page's home collapses it in one step: no die keeps a translation or a cached line of its copy, and commands
in progress read the home copy from now on (R252). The home knows a replicated page by its offset alone, and the model takes every
page size that fits (DESIGN CHOICE, log 82). -/
def State.collapseHome (s : State) (pa : Nat) : State :=
  let home := paDie pa
  let ps := s.replicasAt pa
  let move (e : Elem) : Elem := ps.foldl (fun e p =>
    s.dies.foldl (fun (e : Elem) d => e.rehome (d.num * 2 ^ 42 + p.1) p.2 (home * 2 ^ 42 + p.1)) e) e
  if ps = [] then s
  else
    let keep (e : TlbE) : Bool := !(pteAttr e.pte.toNat == 2 && bits (pteAddr e.pte.toNat) 47 42 == home &&
      ps.any fun p => p.1 == replKey e.pte.toNat)
    { s with
      active := s.active.map fun (a : Active) => { a with elems := a.elems.map move }
      streams := s.streams.map fun (x : Stream) => { x with elems := x.elems.map move }
      clusters := s.clusters.map fun (k : Cluster) => { k with tlb := k.tlb.filter keep }
      dies := s.dies.map fun (d : Die) =>
        { d with
          replicas := if d.num = home then d.replicas.filter fun k => !ps.any fun p => p.1 == k else d.replicas
          tlb := d.tlb.filter keep
          lines := d.lines.filter fun x => d.num == home || !ps.any fun p =>
            decide (d.num * 2 ^ 42 + p.1 ≤ 128 * x.line) && decide (128 * x.line < d.num * 2 ^ 42 + p.1 + p.2) } }

/-! ### `tlbp` (R271) -/

/-- Translate for `tlbp`: level, entry and physical address, or a cause; none while its walk is to come (R253). -/
def State.probe (s : State) (g : Group) (va : Nat) : Option (Except Nat (Nat × Nat × Nat)) :=
  (s.held g.die g.cluster (s.groupCtx g) va).map fun r =>
    match r with
    | .cause c => .error c
    | .leaf level pte =>
      match s.useLeaf (s.groupCtx g) g.die level pte va .read with
      | .ok pa _ => .ok (level, pte, pa)
      | .fault c => .error c
      | .wait => .error 0

/-- The word of `tlbp` (R271); none while its walk is to come. Where the lens table's page lies in physical memory is not stated (log
13). -/
def State.probeWord (s : State) (g : Group) (va : Nat) : Option Nat :=
  let lens := ((s.groupContext? g).map (·.lens)).getD 0
  if winOf va ≠ .translated then some (7 * 2 ^ 60)
  else if lens ≠ 0 ∧ va / 65536 = lens / 65536 then
    some (2 ^ 63 + Config.lensPage (s.groupCtx g) % 2 ^ 36 * 2 ^ 16 + va % 65536)
  else
    (s.probe g va).map fun r =>
      match r with
      | .error c => c * 2 ^ 60
      | .ok (level, pte, pa) =>
        2 ^ 63 + (4 - level) * 2 ^ 58 + pteAttr pte * 2 ^ 56 + b2n (bit pte 2) * 2 ^ 55 +
          b2n (pteAttr pte == 2 && s.replicated pte) * 2 ^ 54 + pa % 2 ^ 52

/-- Issue `tlbp`; with `fill` a successful translation is installed. Its walk takes its turn with the others and leaves no entry of its
own. -/
def tlbpSeq (i : Instr) (sd sa : BitVec 4) (fill : Bool) (s : State) : Out :=
  issue i s fun u =>
    let va := (u.g.getS sa.toNat).toNat % 2 ^ 56
    match u.s.probeWord u.g va with
    | none => u.s.requestWalk u.g.die u.g.cluster u.ctx va (u.s.groupPart u.g) false
    | some w =>
      let s := match fill, u.s.probe u.g va with
        | true, some (.ok (level, pte, _)) =>
          if winOf va = Win.translated ∧ bit w 63 then u.s.installTlb u.g.die u.g.cluster (leafEntry u.ctx va level pte) else u.s
        | _, _ => u.s
      { u with s := s.consumeWalks u.g.die u.g.cluster u.ctx }.finish (u.g.setS sd.toNat (BitVec.ofNat 64 w))

/-- `tlbp` (R271). -/
def execTlbp (h : Head) (f : FTlbp) (s : State) : Out := tlbpSeq (.tlbp h f) f.sd f.sa false s

/-- `tlbp.fill` (R271). -/
def execTlbpFill (h : Head) (f : FTlbpF) (s : State) : Out := tlbpSeq (.tlbpFill h f) f.sd f.sa true s

end Sys2Proof.Machine
end

