-- ==== Sys2Proof/Machine/Engine.lean ====
section
/-! DEFINITION. Engine: the engine queue, guard slots and the instructions that queue engine commands; starting a command on a
channel and planning the elements it moves (spec 09 R256-R272). -/

namespace Sys2Proof.Machine

/-! ### The engine queue and its guards (R256-R259) -/

/-- The command at the head of the queue takes its verdict, unless its slot is open (R258). -/
def Group.judge (g : Group) : Group :=
  match g.engq with
  | [] => g
  | c :: t =>
    if c.verdict.isSome then g
    else
      let v := match c.guard with
        | none => some true
        | some n =>
          match AMap.getD g.gslots n .opened with
          | .opened => none
          | .isTrue => some true
          | .isFalse => some false
      { g with engq := { c with verdict := v } :: t }

/-- The head of the queue is held by an open slot. -/
def Group.heldHead (g : Group) : Bool := match g.engq with | c :: _ => c.verdict.isNone | [] => false

/-- A held head of a group that has no live item is to be discarded (R259). -/
def Group.orphanHead (g : Group) : Group :=
  match g.engq with
  | c :: t => if g.items.isEmpty ∧ c.verdict.isNone then { g with engq := { c with verdict := some false, orphan := true } :: t } else g
  | [] => g

/-- The head leaves the queue and the next takes its verdict. -/
def Group.popHead (g : Group) : Group := Group.judge { g with engq := g.engq.drop 1 }

/-- Queue a command, counted on a counter, and complete the sequence (R256, R228). -/
def Iss.queueCmd (u : Iss) (cc ch : Nat) (kind : CmdKind) (scope blk : Nat) : State :=
  let op := u.s.next
  let c : Cmd :=
    { id := op, grp := u.g.id, gang := u.g.gang, launch := ((u.s.gang? u.g.gang).map (·.launch)).getD 0, ctx := u.ctx
      part := u.s.groupPart u.g, cp := u.i.head.hints.cp, op := op, ch := ch, kind := kind, guard := u.i.head.hints.guardq.map (·.toNat), scope := scope, pc := u.ia }
  let o : CountedOp :=
    { id := op, grp := u.g.id, ctr := cc, cc := cc, lanes := u.e.mask, pc := u.e.pc, addrs := u.e.mask.toList.map fun l => (l, blk)
      engine := true }
  let u := { u with s := (u.s.addOp o).fresh }
  u.finish (Group.judge { u.g with engq := u.g.engq ++ [c] })

/-- A command cannot be queued yet: the queue is full, its counter is at 63, or its issue as a release must wait (R256,
R228, R263). -/
def Iss.queueHeld (u : Iss) (cc : Nat) : Bool :=
  decide (4 ≤ u.g.engq.length) || decide (63 ≤ u.s.counter u.g.id cc) || u.accessesOpen

/-- SCOPE of an engine command: package without a hint (R263). -/
def engScope (h : Hints) : Nat := (h.memq.map (·.scope.toNat)).getD 5

/-- Take the invalid-identifier trap (R27). -/
def Iss.badTensor (u : Iss) (t : Nat) : State := u.trap { cls := 6, info := t, tmask := u.act }

/-! ### `copy` (R264, R265) -/

/-- Fields of a copy command block (Table 9.10). -/
def cbE (b i : Nat) : Nat := bits b (384 + 32 * i + 31) (384 + 32 * i)
def cbDC (b i : Nat) : Nat := bits b (256 + 32 * i + 31) (256 + 32 * i)
def cbSC (b i : Nat) : Nat := bits b (128 + 32 * i + 31) (128 + 32 * i)
def cbStat (b : Nat) : Nat := bits b 127 72
def cbDtid (b : Nat) : Nat := bits b 23 16
def cbStid (b : Nat) : Nat := bits b 15 8
def cbKind (b : Nat) : Nat := bits b 3 0

/-- Offset in the gang's slice of the scale byte of a block of a row (R185, R266). -/
def scaleOff (d k : Ent) (c0 c1 : Nat) : Nat := k.base % 16384 + c1 * d.spitch + c0 / 32

/-- The greatest scale byte a scale copy writes lies in the slice (R266). -/
def scaleBoxOk (b : Nat) (d k : Ent) : Bool :=
  let rows := Nat.min (cbE b 1) (d.dim 1 - cbDC b 1)
  let blocks := Nat.min (cbE b 0) (ceilDiv (d.dim 0 - cbDC b 0) 32)
  rows == 0 || blocks == 0 || decide (scaleOff d k (cbDC b 0 + 32 * (blocks - 1)) (cbDC b 1 + rows - 1) < 16384)

/-- The identifier an invalid copy block names (R27, R265). DESIGN CHOICE (log 53): R27 gives no order between a condition of one entry
and one that concerns no identifier; the model names STID first, but under a reserved KIND, which does not say that STID is read, DTID. -/
def State.copyFault (s : State) (ctx b : Nat) : Option Nat :=
  let k := cbKind b
  let src := s.ent ctx (cbStid b)
  let dst := s.ent ctx (cbDtid b)
  let sc := s.ent ctx dst.scalet
  if k ≠ 3 ∧ k < 4 ∧ !(src.valid && src.baseOk && (k != 2 || src.fmt == 0x0A)) then some (cbStid b)
  else if !(dst.valid && dst.baseOk) then some (cbDtid b)
  else if k = 2 ∧ !(dst.sv && dst.sord == 2 && dst.saxis == 0 && s.scaleOk ctx dst && decide (sc.base / 16384 = 0)) then
    some (cbDtid b)
  else if 4 ≤ k ∨ bits b 71 24 ≠ 0 ∨ bits b 7 4 ≠ 0 ∨ (List.range 4).any (fun i => cbE b i == 0) ∨ (k = 3 ∧ cbStid b ≠ 0) then
    some (cbDtid b)
  else if k < 2 ∧ src.fmt ≠ dst.fmt then some (cbDtid b)
  else if k = 2 ∧ (cbDC b 0 % 32 ≠ 0 ∨ cbE b 2 ≠ 1 ∨ cbE b 3 ≠ 1 ∨ !scaleBoxOk b dst sc) then some (cbDtid b)
  else none

/-- `copy` (R264): scale binds a tile set first (R266, R184). -/
def execCopy (h : Head) (f : FCopy) (s : State) : Out :=
  issue (.copy h f) s fun u =>
    if u.queueHeld f.cc.toNat then u.s
    else
      let va := (u.g.getS f.sa.toNat).toNat
      u.withBlock va 64 fun u b =>
        match u.s.copyFault u.ctx b with
        | some t => u.badTensor t
        | none =>
          let d := u.s.ent u.ctx (cbDtid b)
          let kind := CmdKind.copy (BitVec.ofNat 512 b)
            (BitVec.ofNat 512 (if cbKind b = 3 then 0 else u.s.ent u.ctx (cbStid b))) (BitVec.ofNat 512 d)
            (BitVec.ofNat 512 (u.s.ent u.ctx d.scalet))
          let go (u : Iss) : State := u.queueCmd f.cc.toNat f.ch.toNat kind (engScope h.hints) (va % 2 ^ 56 / 64 * 64)
          if cbKind b = 2 then u.withSet fun u _ _ => go u else go u

/-! ### `cflag` and `pattr` (R270, R272) -/

/-- The store location of a flag, with the checks of R219 (R270). -/
def State.flagPlan (s : State) (g : Group) (ea : Nat) : Plan :=
  s.planAddr g { kind := .store, size := 8, use := .write, d := 0, a := .const 0, off := 0, cc := 0 } true ea

/-- `cflag` (R270). -/
def execCflag (h : Head) (f : FCflag) (s : State) : Out :=
  issue (.cflag h f) s fun u =>
    if u.queueHeld f.cc.toNat then u.s
    else
      let ea := (u.g.getS f.sa.toNat).toNat % 2 ^ 56
      match u.s.flagPlan u.g ea with
      | .bad c d a => u.trap { cls := c, detail := d, addr := a, tmask := u.act }
      | _ => u.queueCmd f.cc.toNat f.ch.toNat (.cflag ea (u.g.getS f.sv.toNat)) (engScope h.hints) ea

/-- Issue a `pattr` form: the address is translated at issue; a window address is no translated address (R272). The channel
is channel 0 (log 19). -/
def pattrSeq (i : Instr) (cc : BitVec 2) (sa : BitVec 4) (op : Nat) (s : State) : Out :=
  issue i s fun u =>
    if u.queueHeld cc.toNat then u.s
    else
      let ea := (u.g.getS sa.toNat).toNat % 2 ^ 56
      if winOf ea ≠ .translated then u.queueCmd cc.toNat 0 (.pattr 3 ea) 6 ea
      else
        match u.s.xlate u.g.die u.g.cluster u.ctx ea .read with
        | .wait => u.s.requestWalk u.g.die u.g.cluster u.ctx ea (u.s.groupPart u.g)
        | .fault c =>
          { u with s := u.s.consumeWalks u.g.die u.g.cluster u.ctx }.trap { cls := 8, detail := c, addr := ea, tmask := u.act }
        | .ok _ _ =>
          { u with s := u.s.consumeWalks u.g.die u.g.cluster u.ctx }.queueCmd cc.toNat 0 (.pattr op ea) 6 ea

/-- `pattr.replicate` (R272). -/
def execPattrReplicate (h : Head) (f : FPattr0) (s : State) : Out := pattrSeq (.pattrReplicate h f) f.cc f.sa 0 s

/-- `pattr.collapse` (R272). -/
def execPattrCollapse (h : Head) (f : FPattr1) (s : State) : Out := pattrSeq (.pattrCollapse h f) f.cc f.sa 1 s

/-- `pattr.flush` (R272). -/
def execPattrFlush (h : Head) (f : FPattr2) (s : State) : Out := pattrSeq (.pattrFlush h f) f.cc f.sa 2 s

/-! ### `gres` (R269) -/

/-- Set a guard slot; a held head is examined again. -/
def Group.setSlot (g : Group) (n : Nat) (v : Slot) : Group := Group.judge { g with gslots := AMap.set g.gslots n v }

/-- `gres` (R269). -/
def execGres (h : Head) (f : FGres) (s : State) : Out :=
  issue (.gres h f) s fun u =>
    let x := readSrc u.g (lowLane u.act) [] 0 f.a
    u.finish (u.g.setSlot f.slot.toNat (if x = 0 then .isFalse else .isTrue))

/-- `gres.open` (R269). -/
def execGresOpen (h : Head) (f : FGresO) (s : State) : Out :=
  issue (.gresOpen h f) s fun u => u.finish (u.g.setSlot f.slot.toNat .opened)

/-! ### Planning a copy's elements (R266, R268) -/

/-- Locations of bytes of a tensor, lowest first, with the host-link target of the first; a failure as code, cause, address. -/
def State.bytesAt (s : State) (ga : Gang) (ctx : Nat) (e : Ent) (c1 : Nat) (use : Use) :
    List Nat → Except (Nat × Nat × Nat) (List Nat × Nat)
  | [] => .ok ([], 0)
  | va :: t =>
    match s.tensorByte ga ctx e c1 va use with
    | .window => .error (3, 0, va % 2 ^ 56)
    | .xlate c => .error (1, c, va % 2 ^ 56)
    | .wait => .error (1, 0, va % 2 ^ 56)
    | .at loc tgt =>
      match s.bytesAt ga ctx e c1 use t with
      | .ok (ls, _) => .ok (loc :: ls, tgt)
      | r => r

/-- Context and leaf entry of the `repl` page that holds an address (R252). -/
def State.replAt (s : State) (die ctx va : Nat) : Option (Nat × BitVec 64) :=
  (s.replPage die ctx va).head?.map fun x => (x.1, x.2.1)

/-- The element that a coordinate of the source gives a coordinate of the destination (R23, R24, R266), and the host-link targets it
is read and written through. DESIGN CHOICE (log 101): a fill, or an element outside the extents, of a byte-padded FP6 tensor is the low
8 bits of CLEAR as R24 says, bits [7:6] among them, which R23 has zero. -/
def State.planElem (s : State) (ga : Gang) (ctx : Nat) (src dst : Ent) (cs cd : Nat × Nat × Nat × Nat) (fill : Bool) :
    Except (Nat × Nat × Nat) (Option (Elem × List Nat)) :=
  if !dst.inside cd then .ok none
  else
    let sa := src.bitAddr cs / 8
    let da := dst.bitAddr cd / 8
    let from' : Except (Nat × Nat × Nat) (List Nat × Nat × Nat × Nat) :=
      if fill then .ok ([], 0, dst.clear % 2 ^ dst.step, 0)
      else if !src.inside cs then .ok ([], 0, src.clear % 2 ^ src.step, 0)
      else
        match s.bytesAt ga ctx src cs.2.1 .read (src.bytesOf cs) with
        | .error x => .error x
        | .ok (ls, tgt) =>
          if tgt = 0 then .ok (ls, src.bitAddr cs % 8, 0, 0)
          else .ok ([], 0, (Config.peerValue s.draw (src.bitAddr cs)).toNat % 2 ^ src.width, tgt)
    match from' with
    | .error x => .error x
    | .ok (ls, sbit, k, stgt) =>
      let n := (dst.bitAddr cd % 8 + dst.step + 7) / 8
      match s.bytesAt ga ctx dst cd.2.1 .write ((List.range n).map (da + ·)) with
      | .error x => .error x
      | .ok (ds, tgt) =>
        .ok (some
          ({ src := ls, sbit := sbit, sbits := src.width, const := k, dst := if tgt = 0 then ds else [], dbit := dst.bitAddr cd % 8
             bits := dst.step, srcVa := sa % 2 ^ 56, dstVa := da % 2 ^ 56
             repl := if dst.windowed then none else s.replAt ga.die ctx (da % 2 ^ 56) }, [stgt, tgt]))

/-- Coordinates of a box, dimension 0 fastest. -/
def boxCoords (n0 n1 n2 n3 : Nat) : List (Nat × Nat × Nat × Nat) :=
  (List.range n3).flatMap fun c3 => (List.range n2).flatMap fun c2 =>
    (List.range n1).flatMap fun c1 => (List.range n0).map fun c0 => (c0, c1, c2, c3)

/-- Host-link ports that bytes at locations are reached through (R380). -/
def hostPorts (ls : List Nat) : List Nat := (ls.filter fun l => decide (l < 2 ^ 52) && paHost l).map hostPort

/-- Elements planned so far, the addresses they are read and written at, peer and host-link ports they go through, and the first
failure. -/
structure Planned where
  elems : List Elem := []
  vas : List Nat := []
  ports : List Nat := []
  hosts : List Nat := []
  fail : Option (Nat × Nat × Nat) := none

/-- Plan one more element: nothing after a failure (R268). -/
def Planned.add (p : Planned) (r : Except (Nat × Nat × Nat) (Option (Elem × List Nat))) : Planned :=
  if p.fail.isSome then p
  else
    match r with
    | .error x => { p with fail := some x, vas := p.vas ++ [x.2.2] }
    | .ok none => p
    | .ok (some (e, ts)) =>
      { p with
        elems := p.elems ++ [e], vas := p.vas ++ (if e.src = [] ∧ ts.all (· = 0) then [] else [e.srcVa]) ++ [e.dstVa], ports := (ts.filter (0 < ·)).foldl (fun l t => insertNat l (t - 1)) p.ports
        hosts := (hostPorts (e.src ++ e.dst)).foldl insertNat p.hosts }

/-- In place of the virtual address of a byte of a scale slice, which has none: a window's, which is never walked. -/
def sliceVa : Nat := 0xFE * 2 ^ 48

/-- Plan a copy command (R266): extents are clipped to where the destination has elements. -/
def State.planCopy (s : State) (ga : Gang) (ctx b : Nat) (src dst sc : Ent) : Planned :=
  let clip (i e : Nat) : Nat := Nat.min e (dst.dim i - cbDC b i)
  let add4 (c : Nat × Nat × Nat × Nat) (o : Nat → Nat) : Nat × Nat × Nat × Nat :=
    (c.1 + o 0, c.2.1 + o 1, c.2.2.1 + o 2, c.2.2.2 + o 3)
  match cbKind b with
  | 1 =>
    (boxCoords (clip 1 (cbE b 0)) (clip 0 (cbE b 1)) (clip 2 (cbE b 2)) (clip 3 (cbE b 3))).foldl (fun p c =>
      p.add (s.planElem ga ctx src dst (add4 c (cbSC b)) (add4 (c.2.1, c.1, c.2.2.1, c.2.2.2) (cbDC b)) false)) {}
  | 2 =>
    let n := ceilDiv (dst.dim 0 - cbDC b 0) 32
    (boxCoords (Nat.min (cbE b 0) n) (clip 1 (cbE b 1)) 1 1).foldl (fun p c =>
      let cs := (cbSC b 0 + c.1, cbSC b 1 + c.2.1, 0, 0)
      let loc := scaleLoc ga.die ga.cluster (16384 * ga.tset.getD 0 + scaleOff dst sc (cbDC b 0 + 32 * c.1) (cbDC b 1 + c.2.1))
      let e : Elem := { dst := [loc], bits := 8, srcVa := src.bitAddr cs / 8 % 2 ^ 56, dstVa := sliceVa }
      p.add (if !src.inside cs then .ok (some ({ e with const := src.clear % 256 }, []))
        else match s.bytesAt ga ctx src cs.2.1 .read (src.bytesOf cs) with
          | .error x => .error x
          | .ok (ls, tgt) =>
            if tgt = 0 then .ok (some ({ e with src := ls }, []))
            else .ok (some ({ e with const := (Config.peerValue s.draw (src.bitAddr cs)).toNat % 256 }, [tgt])))) {}
  | k =>
    (boxCoords (clip 0 (cbE b 0)) (clip 1 (cbE b 1)) (clip 2 (cbE b 2)) (clip 3 (cbE b 3))).foldl (fun p c =>
      p.add (s.planElem ga ctx src dst (add4 c (cbSC b)) (add4 c (cbDC b)) (k == 3))) {}

/-! ### Moving elements (R267, R268) -/

/-- Bytes of store locations still lie in a range of the context (R219). -/
def State.stillResident (s : State) (ctx : Nat) (ls : List Nat) : Bool :=
  ls.all fun l => !isStoreLoc l || s.inSomeRange (locDie l) (locCluster l) ctx (l % 2 ^ 20) 1

/-- Bytes at locations as a number, lowest first. -/
def State.gather (s : State) : List Nat → Nat
  | [] => 0
  | l :: t => s.rd l 1 + 256 * s.gather t

/-- The value that an element carries. -/
def State.elemValue (s : State) (e : Elem) : Nat := if e.src = [] then e.const else s.gather e.src >>> e.sbit % 2 ^ e.sbits

/-- Move one element for an engine in a context, or say why it cannot be moved: code, cause, address (R268). -/
def State.moveElem (s : State) (ctx : Nat) (e : Elem) : Except (Nat × Nat × Nat) State :=
  if !s.stillResident ctx e.src then .error (3, 0, e.srcVa)
  else if e.src.any fun l => s.poisoned l 1 then .error (2, 0, e.srcVa)
  else if !s.stillResident ctx e.dst then .error (3, 0, e.dstVa)
  else
    let old := s.gather e.dst
    let m := (2 ^ e.bits - 1) <<< e.dbit
    .ok (s.scatter e.dst (old - (old &&& m) + (s.elemValue e % 2 ^ e.bits) <<< e.dbit))

/-- Move elements until one fails. -/
def State.moveAll (s : State) (ctx : Nat) : List Elem → State × Option (Nat × Nat × Nat)
  | [] => (s, none)
  | e :: t =>
    match s.moveElem ctx e with
    | .error x => (s, some x)
    | .ok s => s.moveAll ctx t

/-- What moving elements needs: nothing of a port or a route that carries no traffic, and the collapse of pages they write (R252,
R380). -/
def State.needMoves (s : State) (die : Nat) (es : List Elem) : Need :=
  { repl := es.filterMap fun e => e.repl.map fun r => (r.1, r.2, e.dstVa), reads := es.flatMap (·.src), writes := es.flatMap (·.dst)
    stalled := es.any fun e => (e.src ++ e.dst).any fun l => s.linkHeld die l 0 }

/-- Elements may be moved now. -/
def State.elemsGate (s : State) (q : Asker) (es : List Elem) : State × Bool := s.gate q (s.needMoves q.die es)

/-- Die whose bytes an element writes, and die whose bytes it reads. -/
def Elem.dstDie (die : Nat) (e : Elem) : Nat := match e.dst with | l :: _ => holder die l | [] => die
def Elem.srcDie (die : Nat) (e : Elem) : Nat := match e.src with | l :: _ => holder die l | [] => e.dstDie die

/-! ### Starting a command (R257) -/

/-- Context of a command. -/
def State.cmdCtx (_ : State) (c : Cmd) : Nat := c.ctx

/-- Add one stream for each pair of different dies that elements cross between (R260). -/
def State.openStreams (s : State) (die : Nat) (c : Cmd) : List Elem → State
  | [] => s
  | e :: t =>
    let (a, b) := (e.srcDie die, e.dstDie die)
    let s := s.openStreams die c t
    if a = b then s
    else if s.streams.any fun x => x.cmd == c.id && x.src == a && x.dst == b then
      { s with streams := s.streams.map fun (x : Stream) =>
          if x.cmd = c.id ∧ x.src = a ∧ x.dst = b then { x with elems := e :: x.elems } else x }
    else
      { s with
        streams := s.streams ++ [{ id := s.next, cmd := c.id, src := a, dst := b, ch := c.ch, links := s.path a b
                                   since := s.next, elems := [e] }]
        next := s.next + 1 }

/-- Store location of a flag as the gang's windows stand now (R270). -/
def State.flagLoc (s : State) (c : Cmd) (ea : Nat) : Option Nat :=
  match s.gang? c.gang with
  | some ga => if ga.saved.isSome then none else s.windowLoc ga (s.cmdCtx c) ea 8
  | none => none

/-- The stream that carries a flag (R270): the last one of an earlier command of its channel that writes to the flag's die. -/
def State.flagStream (s : State) (die ch dst : Nat) : Option Stream :=
  (s.streams.filter fun x => x.dst == dst && x.ch == ch && s.active.any fun b => b.cmd.id == x.cmd && b.die == die).getLast?

/-- A started command begins its work on a die: its elements are planned, its streams asked for. -/
def State.beginCmd (s : State) (die : Nat) (c : Cmd) : State :=
  let a : Active := { cmd := c, die := die, order := s.next }
  let s := s.fresh
  match c.kind with
  | .copy blk se de sc =>
    match s.gang? c.gang with
    | none => { s with active := s.active ++ [a] }
    | some ga =>
      let p := s.planCopy ga (s.cmdCtx c) blk.toNat se.toNat de.toNat sc.toNat
      let own := p.elems.filter fun e => e.srcDie die == e.dstDie die
      let s := { s.drawn with active := s.active ++ [{ a with elems := own, fail := p.fail, ports := p.ports, hosts := p.hosts }] }
      s.openStreams die c p.elems
  | .cflag ea _ =>
    let s := { s with active := s.active ++ [a] }
    match s.flagLoc c ea with
    | some loc =>
      if locDie loc = die then s
      else
        match s.flagStream die c.ch (locDie loc) with
        | some y =>
          { s with streams := s.streams.map fun (x : Stream) => if x.id = y.id then { x with flags := x.flags ++ [c.id] } else x }
        | none =>
          { s with
            streams := s.streams ++ [{ id := s.next, cmd := c.id, src := die, dst := locDie loc, ch := c.ch
                                       links := s.path die (locDie loc), since := s.next, flags := [c.id] }]
            next := s.next + 1 }
    | none => s
  | .pattr 1 va =>
    let ctx := s.cmdCtx c
    let s := { s with active := s.active ++ [a] }
    match s.walk ctx va with
    | .leaf _ pte => if pteAttr pte = 2 then (s.collapseGate ctx (BitVec.ofNat 64 pte) va).1 else s
    | .cause _ => s
  | _ => { s with active := s.active ++ [a] }

/-- Status address of a command (Tables 9.10, 11.7). -/
def Cmd.stat (c : Cmd) : Nat :=
  match c.kind with
  | .copy blk .. => cbStat blk.toNat
  | .coll blk .. => bits blk.toNat 439 384
  | _ => 0

/-- Append an engine command's record (R354, R355). -/
def State.logCmd (s : State) (c : Cmd) (die cause detail info addr : Nat) : State :=
  let s := if cause = 6 ∧ detail = 2 then s.noteErrorVa die (s.cmdCtx c) addr
    else if cause = 6 ∧ detail = 1 then s.noteWalk (s.cmdCtx c) addr else s
  let grp := s.group? c.grp
  s.logRecord (s.cmdCtx c) (errRec s.gtime ((grp.map s.srGroup).getD 0) (((s.launch? c.launch).map Launch.sr).getD 0) info addr
    c.pc die ((grp.map (·.cluster)).getD 0) (s.cmdCtx c) detail cause)

/-- Write one status word, in a window or translated; false where it cannot be written (R268). -/
def State.writeStat (s : State) (c : Cmd) (die a v : Nat) : State × Bool :=
  match winOf a with
  | .translated => s.writeVa die (s.cmdCtx c) a 8 v
  | _ =>
    match (s.gang? c.gang).bind fun ga => if ga.saved.isSome then none else s.windowLoc ga (s.cmdCtx c) a 8 with
    | some loc => ((s.wr loc 8 v).feAct loc 2, true)
    | none => (s, false)

/-- Write a command's status word, and the second word of code 0x01; a write that fails is dropped, and one record says so with the
status address (R268). -/
def State.putStatus (s : State) (c : Cmd) (die code cause addr : Nat) : State :=
  if c.stat = 0 then s
  else
    let (s, ok) := s.writeStat c die c.stat (code * 2 ^ 56 + addr % 2 ^ 56)
    let (s, ok2) := if code = 1 then s.writeStat c die (c.stat + 8) (cause * 2 ^ 53) else (s, true)
    if ok && ok2 then s else s.logCmd c die 6 code 0 c.stat

/-- What asks for a command, as an engine of a die. -/
def Cmd.asker (c : Cmd) (die : Nat) (o : Owner) : Asker := { owner := o, die := die, ctx := c.ctx, part := c.part, cp := c.cp }

/-- What writing a command's status words needs (R230, R252, R253, R380). -/
def State.needStat (s : State) (c : Cmd) (die : Nat) : Need :=
  if c.stat = 0 then {}
  else if winOf c.stat = Win.translated then s.needVas die (s.cmdCtx c) [] [(c.stat, 8), (c.stat + 8, 8)]
  else
    { writes := ((s.gang? c.gang).bind fun ga => if ga.saved.isSome then none else s.windowLoc ga (s.cmdCtx c) c.stat 8).toList }

/-- A command's status words may be written now. -/
def State.cmdGate (s : State) (c : Cmd) (die : Nat) : State × Bool := s.gate (c.asker die (.status c.id)) (s.needStat c die)

/-- A command's counted operation completes; a halted group remembers it, at most 64 (R228, R367). -/
def State.endCmd (s : State) (c : Cmd) : State :=
  let s := { s with ops := s.ops.filter fun (o : CountedOp) => o.id ≠ c.op }
  s.updGroup c.grp fun g => g.completed c.id

/-- A discarded command has no effect but its status write, and its counter falls (R258); a held one that no live item is left to release
is recorded (R259). -/
def State.discardCmd (s : State) (c : Cmd) (die : Nat) : State :=
  let s := (s.putStatus c die 4 0 0).endCmd c
  if c.orphan then s.logCmd c die 3 0 (c.guard.getD 0) 0 else s

/-- A scale copy of a gang that is bound to no tile set (after a restore) waits for one (R184, R204). -/
def State.wantsSet (s : State) (c : Cmd) : Bool :=
  match c.kind with
  | .copy blk .. => cbKind blk.toNat == 2 && !((s.gang? c.gang).map (·.tset.isSome)).getD true
  | _ => false

/-- A channel is stalled by a stream that waits at a link direction whose 256 tags are all held (R261). -/
def State.channelStalled (s : State) (die ch : Nat) : Bool :=
  s.streams.any fun x => x.ch == ch && (s.active.any fun a => a.cmd.id == x.cmd && a.die == die) &&
    (match x.links with
      | l :: _ => decide (256 ≤ ((s.streams.flatMap (·.tags)).filter fun t => (t.1, t.2.1) == l).length)
      | [] => false)

/-- Groups of a die whose queue head a channel may take, in the channel's round-robin order (R257): `coll` heads go to the
collective engine, and a gang that stops for saving starts nothing (R363). -/
def State.nextHead (s : State) (die ch : Nat) : Option (Group × Cmd × Nat) :=
  let last := ((s.die? die).map fun d => AMap.getD d.lastSlots ch 4095).getD 4095
  let cand := s.groups.filterMap fun g =>
    match g.engq with
    | c :: _ =>
      let coll := match c.kind with | .coll .. => true | _ => false
      let stopped := ((s.gang? g.gang).map Gang.stopped).getD true
      if g.die == die && c.ch == ch && c.verdict.isSome && !coll && !stopped && (c.verdict == some false || !s.wantsSet c) then
        some (g, c, (g.cluster * 128 + g.core * 32 + g.slot + 4096 - (last + 1)) % 4096)
      else none
    | [] => none
  (cand.foldl (fun (best : Option (Group × Cmd × Nat)) x =>
    match best with | none => some x | some b => if x.2.2 < b.2.2 then some x else some b) none).map fun x =>
      (x.1, x.2.1, x.1.cluster * 128 + x.1.core * 32 + x.1.slot)

/-- Addresses that must be translated before a command can be planned (R253, R266, R272). -/
def State.cmdVas (s : State) (c : Cmd) : List Nat :=
  match c.kind with
  | .copy blk se de sc =>
    match s.gang? c.gang with
    | some ga => (s.planCopy ga (s.cmdCtx c) blk.toNat se.toNat de.toNat sc.toNat).vas
    | none => []
  | .pattr _ va => [va]
  | _ => []

/-- COPY_START: a channel with room starts the next engine queue head naming it; a discarded one leaves its queue (R257,
R258). -/
def execCopyStart (die ch : Nat) (s : State) : Out :=
  .next <|
    if s.relocking die || s.channelStalled die ch then s
    else
      match s.nextHead die ch with
      | none => s
      | some (g, c, slot) =>
        if c.verdict = some false then
          match s.cmdGate c die with
          | (s, false) => s
          | (s, true) => (s.updGroup g.id Group.popHead).discardCmd c die
        else if 8 ≤ (s.active.filter fun a => a.die == die && a.cmd.ch == ch).length then s
        else
          match s.gate (c.asker die (.copy c.id)) { vas := s.cmdVas c } with
          | (s, false) => s
          | (s, true) =>
            ((s.updGroup g.id Group.popHead).updDie die fun d => { d with lastSlots := AMap.set d.lastSlots ch slot }).beginCmd die c

end Sys2Proof.Machine
end

