-- ==== Sys2Proof/Machine/Streams.lean ====
section
/-! DEFINITION. Streams: the flits of Mefen streams, their tags, and the completion of engine commands (spec 09 R260-R262,
R267-R272, spec 12 R334). A step whose condition does not hold leaves the state as it is. -/

namespace Sys2Proof.Machine

/-! ### Tags (R261) -/

/-- The link direction from a die to the next. -/
def linkTo (src dst : Nat) : Nat × Nat :=
  (src, if dst = src + 1 then 0 else if dst = src + 8 then 1 else if dst + 1 = src then 2 else 3)

/-- Tags held on a link direction. -/
def State.tagsOn (s : State) (l : Nat × Nat) : List Nat :=
  s.streams.flatMap fun st => st.tags.filterMap fun t => if (t.1, t.2.1) = l then some t.2.2 else none

/-- STREAM_TAG_GRANT: a link direction grants its lowest free tag to the oldest request (R261). -/
def execStreamTagGrant (src dst : Nat) (s : State) : Out :=
  .next <|
    let l := linkTo src dst
    let used := s.tagsOn l
    let want := s.streams.filter fun st => st.links.head? == some l
    let first := want.foldl (fun (best : Option Stream) st =>
      match best with
      | none => some st
      | some b =>
        if st.since < b.since ∨ (st.since = b.since ∧ (st.src < b.src ∨ (st.src = b.src ∧ st.ch < b.ch))) then some st else some b) none
    match first, (List.range 256).find? fun t => !used.contains t with
    | some st, some t =>
      { s with
        streams := s.streams.map fun (x : Stream) =>
          if x.id = st.id then { x with links := x.links.drop 1, tags := x.tags ++ [(l.1, l.2, t)], since := s.next } else x
        next := s.next + 1 }
    | _, _ => s

/-- The quarter of the clock that an open stream sends next: one still due, else one of which an entry has risen (R334). -/
def State.dueQuarter (s : State) (x : Stream) : Option Nat := if x.due = [] then (s.risen x).head? else x.due.head?

/-- A stream sends a quarter of its source's clock (R334). -/
def State.sendQuarter (s : State) (x : Stream) (q : Nat) : Stream :=
  let c := s.clockOf x.src
  { x with
    due := x.due.filter (· ≠ q)
    carried := (c.filter fun e => e.1 / 16 == q).foldl (fun m e => AMap.set m e.1 e.2) x.carried
    sent := some { headers := x.headers 0 q 0, body := .quarter (clockQuarter c q) } }

/-- The command of a stream. -/
def State.streamCmd (s : State) (x : Stream) : Option Active := s.active.find? fun a => a.cmd.id == x.cmd

/-- What the first OPEN flit of a stream carries: the entries and the block of its command (R260). -/
def State.opening (s : State) (x : Stream) : Option Opening :=
  (s.streamCmd x).bind fun a =>
    match a.cmd.kind with
    | .copy blk se de _ => some { src := se, dst := de, blk := blk }
    | _ => none

/-- OPEN_FLIT: a stream that holds a tag on every link of its route opens; OPEN flits of the four quarters of its source's clock
follow, and later those of the quarters that have risen (R260, R334). -/
def execOpenFlit (st : Nat) (s : State) : Out :=
  .next <|
    match s.streams.find? fun (x : Stream) => x.id == st with
    | some x =>
      if x.links ≠ [] ∨ x.closing ∨ s.stalledPair x.src x.dst then s
      else if !x.opened then
        s.updStream st fun x =>
          { x with
            opened := true, due := List.range 4
            sent := some { headers := x.headers 0 0xFFFF 0, body := .addresses (s.opening x) } }
      else
        match s.dueQuarter x with
        | some q => s.updStream st fun x => s.sendQuarter x q
        | none => s
    | none => s

/-- The sequence number of the next write flit of a die: package- and system-scope writes count (R334). -/
def State.nextSeq (s : State) (src scope : Nat) : Nat :=
  (AMap.getD (s.clockOf src) src 0 + b2n (decide (5 ≤ scope))) % 2 ^ 32

/-- A write that precedes a flit's in its clock is not applied at its destination (R334). -/
def State.flitHeld (s : State) (src dst scope : Nat) : Bool :=
  s.accs.any fun b => s.precedes b dst src (s.nextSeq src scope) (s.clockOf src)

/-- A write flit of a die is sent and applied at another: the source's sequence number rises and the destination takes its clock
(R334). -/
def State.carryClock (s : State) (src dst scope : Nat) : State :=
  match s.die? src with
  | some d =>
    let c := AMap.set d.clock src (s.nextSeq src scope)
    (s.updDie src fun d => { d with clock := c }).raiseClock dst c
  | none => s

/-- A command stops its further accesses with its first failure (R268). -/
def State.failCmd (s : State) (cmd : Nat) (f : Nat × Nat × Nat) : State :=
  { s with
    active := s.active.map fun (a : Active) =>
      if a.cmd.id = cmd then { a with fail := some (a.fail.getD f), elems := [] } else a
    streams := s.streams.map fun (x : Stream) => if x.cmd = cmd ∧ cmd ≠ 0 then { x with elems := [] } else x }

/-- Elements of a stream's next payload. -/
def Stream.payload (x : Stream) : List Elem :=
  match x.elems with
  | [] => []
  | e :: _ => x.elems.take (Nat.max 1 (512 / Nat.max 1 e.bits))

/-- A write flit may be sent on a stream and applied (R325, R334, R45). -/
def State.flitReady (s : State) (x : Stream) (scope : Nat) : Bool :=
  s.streamReady x && !s.stalledPair x.src x.dst && !s.relocking x.src && !s.relocking x.dst && !s.flitHeld x.src x.dst scope

/-- A write flit leaves on a stream (R260, R334). -/
def State.flitSent (s : State) (x : Stream) (scope kind : Nat) (body : FlitBody) (f : Stream → Stream) : State :=
  s.updStream x.id fun y =>
    { f y with sent := some { headers := x.headers (clkField x.src (s.nextSeq x.src scope)) x.beat kind, body := body } }

/-- What asks for a stream's flits. -/
def Active.payer (a : Active) (x : Stream) : Asker := a.cmd.asker a.die (.payload x.id)

/-- A DATA flit with elements leaves on a stream (R262). -/
def State.dataSent (s : State) (x : Stream) (a : Active) (es : List Elem) : State :=
  s.flitSent x a.cmd.scope 1 (.data (es.map s.elemValue)) fun y =>
    { y with elems := y.elems.drop es.length, beat := (y.beat + 1) % 65536 }

/-- DATA_FLIT: the next 64-byte payload of a stream is applied at its destination, once the banks and base dies have performed its
requests (R221, R244, R260, R262, R267). -/
def execDataFlit (st : Nat) (s : State) : Out :=
  .next <|
    match s.streams.find? fun (x : Stream) => x.id == st with
    | none => s
    | some x =>
      match s.streamCmd x with
      | none => s
      | some a =>
        let es := x.payload
        if es = [] || !s.flitReady x a.cmd.scope then s
        else
          match s.elemsGate (a.payer x) es with
          | (s, false) => s
          | (s, true) =>
            match (s.dataSent x a es).moveAll (s.cmdCtx a.cmd) es with
            | (s, none) => s.carryClock x.src x.dst a.cmd.scope
            | (s, some f) => (s.carryClock x.src x.dst a.cmd.scope).failCmd x.cmd f

/-- Writes of a command are still to come. -/
def State.writesLeft (s : State) (b : Active) : Bool :=
  b.elems != [] || (s.streams.any fun x => x.cmd == b.cmd.id && x.elems != []) ||
    (match b.cmd.kind with | .cflag .. => !b.flagged | _ => false)

/-- Writes of commands started earlier on the flag's channel are still to come (R270). Those to other dies too: a party of a third die
that has seen the flag sees them (R339, Table 12.8; log 80). -/
def State.flagHeld (s : State) (a : Active) : Bool :=
  s.active.any fun b => b.die == a.die && b.cmd.ch == a.cmd.ch && decide (b.order < a.order) && s.writesLeft b

/-- The flag is written, unless its range is no longer resident (R270). -/
def State.putFlag (s : State) (a : Active) (ea : Nat) (v : Word) : State :=
  let s := { s with active := s.active.map fun (b : Active) => if b.cmd.id = a.cmd.id then { b with flagged := true } else b }
  match s.flagLoc a.cmd ea with
  | some loc => (s.wr loc 8 v.toNat).feAct loc 2
  | none => s.logCmd a.cmd a.die 8 0 0 ea

/-- FLAG_FLIT: the first flag of a stream is applied, after every payload sent before it (R262, R270). -/
def execFlagFlit (st : Nat) (s : State) : Out :=
  .next <|
    match s.streams.find? fun (x : Stream) => x.id == st with
    | none => s
    | some x =>
      match x.flags with
      | [] => s
      | c :: _ =>
        match s.active.find? fun a => a.cmd.id == c with
        | none => s.updStream st fun x => { x with flags := x.flags.drop 1 }
        | some a =>
          match a.cmd.kind with
          | .cflag ea v =>
            if x.elems ≠ [] || s.flagHeld a || !s.flitReady x a.cmd.scope then s
            else
              match s.gate (a.payer x) { writes := (s.flagLoc a.cmd ea).toList } with
              | (s, false) => s
              | (s, true) =>
                ((s.flitSent x a.cmd.scope 2 (.flag ea v) fun x => { x with flags := x.flags.drop 1 }).putFlag a ea v).carryClock
                  x.src x.dst a.cmd.scope
          | _ => s

/-- A stream sends its CLOSE. -/
def Stream.close (x : Stream) : Stream := { x with closing := true, sent := some { headers := x.headers 0 x.beat 3, body := .close } }

/-- CLOSE_FLIT: a stream of a command with nothing left to send sends its CLOSE; a CLOSE passes the next link of its route, whose tag is
free, and after the last one the stream is gone (R261). -/
def execCloseFlit (st : Nat) (s : State) : Out :=
  .next <|
    match s.streams.find? fun (x : Stream) => x.id == st with
    | some x =>
      if s.stalledPair x.src x.dst then s
      else if x.closing then
        if x.tags.length ≤ 1 then { s with streams := s.streams.filter fun (y : Stream) => y.id ≠ st }
        else s.updStream st fun x => { x with tags := x.tags.drop 1 }
      else if x.cmd ≠ 0 ∧ x.opened ∧ x.elems = [] ∧ x.flags = [] then s.updStream st Stream.close
      else s
    | none => s

/-- Writes of items of a die are on their way to another. -/
def State.itemWritesOpen (s : State) (src dst : Nat) : Bool :=
  s.accs.any fun a => a.die == src && a.home == dst && a.kind.writes && a.unperformed

/-- ITEM_STREAM_CLOSE: an item stream sends its CLOSE after a whole heartbeat with no traffic (R334). -/
def execItemStreamClose (src dst : Nat) (s : State) : Out :=
  .next <|
    match s.streams.find? fun (x : Stream) => x.forItems src dst with
    | some x =>
      if x.opened ∧ (x.idle / 2048 + 2) * 2048 ≤ s.gtime ∧ !s.itemWritesOpen src dst ∧ !s.stalledPair src dst then
        s.updStream x.id Stream.close
      else s
    | none => s

/-! ### Completion (R267, R268, R272) -/

/-- Write back the dirty lines of a page on every die, keeping them (R272). -/
def State.flushPage (s : State) (ctx va : Nat) : State :=
  match s.walk ctx va with
  | .cause _ => s
  | .leaf level pte =>
    let a := pteAddr pte
    let spread := pteAttr pte = 1 ∨ pteAttr pte = 2
    let inPage (line : Nat) : Bool :=
      let lo := if spread then 128 * line / 2 ^ 42 * 2 ^ 42 + a % 2 ^ 42 else a
      decide (lo ≤ 128 * line) && decide (128 * line < lo + pageSize level)
    { s with dies := s.dies.map fun (d : Die) =>
        { d with lines := d.lines.map fun x => if inPage x.line then { x with dirty := false } else x } }

/-- Copy a collapsed page's home copy to every copy of its partition and set it replicated (R272); a write to the home copy
on its way leaves the page collapsed. -/
def State.replicatePage (s : State) (ctx va : Nat) : State :=
  match s.walk ctx va with
  | .cause _ => s
  | .leaf level pte =>
    let home := bits (pteAddr pte) 47 42
    let key := replKey pte
    let n := pageSize level
    let dies := (((s.ctx? ctx).bind fun x => s.partDies x (ptePart pte)).getD []).filter (· ≠ home)
    let src := home * 2 ^ 42 + key
    let full := (((s.die? home).map (·.replicas.length)).getD 0)
    if pteAttr pte ≠ 2 ∨ s.replicated pte ∨ 16384 ≤ full then s
    else
      let page := Memory.slice s.mem src (src + n)
      let s := dies.foldl (fun (s : State) d =>
        { s with mem := Memory.restore (Memory.clear s.mem (d * 2 ^ 42 + key) (d * 2 ^ 42 + key + n)) (d * 2 ^ 42 + key) page }) s
      if s.accs.any fun a => a.kind.writes && a.unperformed && decide (src ≤ a.loc) && decide (a.loc < src + n) then s
      else s.updDie home fun d => { d with replicas := insertNat d.replicas key }

/-- Take a command out of progress with its status (R268). -/
def State.closeCmd (s : State) (a : Active) (f : Option (Nat × Nat × Nat)) : State :=
  let s := { s with active := s.active.filter fun (b : Active) => b.cmd.id ≠ a.cmd.id }
  let (code, cause, addr) := f.getD (0, 0, 0)
  let s := s.putStatus a.cmd a.die code cause addr
  let s := if code = 0 then s else s.logCmd a.cmd a.die 6 code 0 addr
  s.endCmd a.cmd

/-- Ports that a command's accesses go through carry no traffic: it stalls (R380, R383). -/
def State.portsStall (s : State) (a : Active) : Bool :=
  a.ports.any (fun n => s.pkg.peersFailed.contains n || !s.pkg.peers.contains n) || a.hosts.any s.pkg.portsFailed.contains

/-- A command that can never complete: it waits on a failed port or on a pair of dies cut off from each other (R379, R45). -/
def State.cmdStuck (s : State) (a : Active) : Bool :=
  s.portsStall a || (a.elems.any fun e => s.stalledPair a.die (e.dstDie a.die)) || s.streams.any fun x => (x.cmd == a.cmd.id || x.flags.contains a.cmd.id) && s.stalledPair x.src x.dst

/-- Set what a command in progress has come to. -/
def State.updActive (s : State) (cmd : Nat) (f : Active → Active) : State :=
  { s with active := s.active.map fun (a : Active) => if a.cmd.id = cmd then f a else a }

/-- The elements of a command that cross no die are moved; a failed command moves no more (R267, R268). -/
def State.moveOwn (s : State) (a : Active) : State × Active :=
  let put (s : State) (a : Active) : State × Active := (s.updActive a.cmd.id fun _ => a, a)
  match a.fail with
  | some (3, _, _) | some (2, _, _) => put s { a with elems := [] }
  | _ =>
    match s.moveAll (s.cmdCtx a.cmd) a.elems with
    | (s, some f) => put s { a with elems := [], fail := some (a.fail.getD f) }
    | (s, none) => put s { a with elems := [] }

/-- A copy whose streams have closed completes with its status. -/
def State.closeCopy (s : State) (a : Active) : State :=
  if s.streams.any fun x => x.cmd == a.cmd.id then s
  else
    match s.cmdGate a.cmd a.die with
    | (s, false) => s
    | (s, true) => s.closeCmd a a.fail

/-- A `pattr` command acts on its page and completes; a collapse completes once every die has acknowledged it (R272). -/
def State.pattrAct (s : State) (a : Active) (op va : Nat) : State :=
  let ctx := s.cmdCtx a.cmd
  match op with
  | 0 => (s.replicatePage ctx va).closeCmd a none
  | 1 =>
    match s.walk ctx va with
    | .leaf _ pte =>
      if s.collapses.any fun c => c.page == replKey pte && c.home == bits (pteAddr pte) 47 42 then s else s.closeCmd a none
    | .cause _ => s.closeCmd a none
  | 2 => (s.flushPage ctx va).closeCmd a none
  | _ => s.closeCmd a none

/-- COPY_COMPLETE: a command performs what crosses no die, once the banks and base dies have performed its requests, and completes when
its streams have closed (R221, R244, R267, R270, R272). -/
def execCopyComplete (cmd : Nat) (s : State) : Out :=
  .next <|
    match s.active.find? fun a => a.cmd.id == cmd with
    | none => s
    | some a =>
      let q := a.cmd.asker a.die (.copy cmd)
      if s.relocking a.die || s.portsStall a then s
      else
        match a.cmd.kind with
        | .copy .. =>
          match s.elemsGate q a.elems with
          | (s, false) => s
          | (s, true) => let (s, a) := s.moveOwn a; s.closeCopy a
        | .cflag ea v =>
          if s.streams.any fun x => x.cmd == cmd || x.flags.contains cmd then s
          else if a.flagged then s.closeCmd a none
          else if s.flagHeld a then s
          else
            match s.gate q { writes := (s.flagLoc a.cmd ea).toList } with
            | (s, false) => s
            | (s, true) => (s.putFlag a ea v).closeCmd a none
        | .pattr op va =>
          match s.gate q { vas := [va] } with
          | (s, false) => s
          | (s, true) => s.pattrAct a op va
        | .coll .. => s.closeCmd a none

end Sys2Proof.Machine
end

