-- ==== Sys2Proof/Machine/Collective.lean ====
section
/-! DEFINITION. Collective: the `coll` instruction, matching, and the five collectives (spec 11 R317-R320). A step whose
condition does not hold leaves the state as it is. -/

namespace Sys2Proof.Machine

/-! ### The collective block (Table 11.7) -/

def colMembers (b : Nat) : Nat := bits b 511 448
def colCount (b : Nat) : Nat := bits b 383 352
def colCid (b : Nat) : Nat := bits b 351 320
def colRoot (b : Nat) : Nat := bits b 37 32
def colDtid (b : Nat) : Nat := bits b 23 16
def colStid (b : Nat) : Nat := bits b 15 8
def colOp (b : Nat) : Nat := bits b 5 4
def colKind (b : Nat) : Nat := bits b 3 0

/-- Dies of a member mask, ascending: the ranks. -/
def memberDies (m : Nat) : List Nat := (List.range 64).filter m.testBit

/-- Formats of collectives. -/
def collFmt (f : Nat) : Bool := f == 2 || f == 3 || f == 4 || f == 0x0D || f == 0x0E

/-- The element type of a format (Table 3.8). -/
def fmtType (f : Nat) : Nat := match f with | 3 => 13 | 4 => 14 | 0x0D => 3 | 0x0E => 4 | _ => 12

/-- The identifier an invalid block names (R27, R317). -/
def State.collFault (s : State) (g : Group) (ctx b : Nat) : Option Nat :=
  let one (t : Nat) : Bool := let e := s.ent ctx t; e.valid && e.baseOk && collFmt e.fmt
  let part := ((s.ctx? ctx).bind fun c => s.partDies c (((s.groupLaunch? g).map Launch.part).getD 0)).getD []
  if !one (colStid b) then some (colStid b)
  else if !one (colDtid b) then some (colDtid b)
  else if (s.ent ctx (colStid b)).fmt ≠ (s.ent ctx (colDtid b)).fmt then some (colDtid b)
  else if bits b 447 440 ≠ 0 ∨ bits b 319 38 ≠ 0 ∨ bits b 31 24 ≠ 0 ∨ bits b 7 6 ≠ 0 ∨ colOp b = 3 ∨ 4 < colKind b ∨
      !(colMembers b).testBit g.die ∨ !(memberDies (colMembers b)).all part.contains then some (colDtid b)
  else none

/-- `coll` (R317): channel 0 (log 19); its issue is a release at package scope. -/
def execColl (h : Head) (f : FPattr0) (s : State) : Out :=
  issue (.coll h f) s fun u =>
    if u.queueHeld f.cc.toNat then u.s
    else
      let va := (u.g.getS f.sa.toNat).toNat
      u.withBlock va 64 fun u b =>
        match u.s.collFault u.g u.ctx b with
        | some t => u.badTensor t
        | none =>
          u.queueCmd f.cc.toNat 0 (.coll (BitVec.ofNat 512 b) (BitVec.ofNat 512 (u.s.ent u.ctx (colStid b)))
            (BitVec.ofNat 512 (u.s.ent u.ctx (colDtid b)))) 5 (va % 2 ^ 56 / 64 * 64)

/-! ### Matching (R318) -/

/-- Block of a collective command. -/
def CollCmd.blk (c : CollCmd) : Nat := match c.cmd.kind with | .coll b _ _ => b.toNat | _ => 0
/-- Source entry. -/
def CollCmd.src (c : CollCmd) : Ent := match c.cmd.kind with | .coll _ e _ => e.toNat | _ => 0
/-- Destination entry. -/
def CollCmd.dst (c : CollCmd) : Ent := match c.cmd.kind with | .coll _ _ e => e.toNat | _ => 0

/-- The command waits for others to match. -/
def CollCmd.pending (c : CollCmd) : Bool := c.status.isNone && c.all.isEmpty

/-- Two commands share context, launch and CID. -/
def CollCmd.same (a b : CollCmd) : Bool := a.ctx == b.ctx && a.cmd.launch == b.cmd.launch && colCid a.blk == colCid b.blk

/-- What matching commands must agree in: KIND, OP, COUNT, MEMBERS, ROOT, FMT. -/
def CollCmd.agrees (a b : CollCmd) : Bool :=
  colKind a.blk == colKind b.blk && colOp a.blk == colOp b.blk && colCount a.blk == colCount b.blk &&
    colMembers a.blk == colMembers b.blk && colRoot a.blk == colRoot b.blk && a.src.fmt == b.src.fmt

/-- Coordinate of a linear element number, c0 fastest. -/
def Ent.coordOf (e : Ent) (i : Nat) : Nat × Nat × Nat × Nat :=
  (i % e.dim 0, i / e.dim 0 % e.dim 1, i / e.dim 0 / e.dim 1 % e.dim 2, i / e.dim 0 / e.dim 1 / e.dim 2)

/-- The gang whose windows a command uses; without it no window address is resident. -/
def State.cmdGang (s : State) (c : Cmd) (die : Nat) : Gang :=
  (s.gang? c.gang).getD { id := 0, launch := 0, serial := 0, pdie := die, ngroups := 1, die := die, cluster := 0 }

/-- Read one element for a collective (R24). -/
def State.collRead (s : State) (c : CollCmd) (i : Nat) : Except (Nat × Nat × Nat) Nat :=
  let e := c.src
  let p := e.coordOf i
  let va := e.bitAddr p / 8 % 2 ^ 56
  if !e.inside p then .ok (e.clear % 2 ^ e.step)
  else
    match s.bytesAt (s.cmdGang c.cmd c.die) c.ctx e p.2.1 .read (e.bytesOf p) with
    | .error x => .error x
    | .ok (ls, tgt) =>
      if tgt ≠ 0 then .ok ((Config.peerValue s.draw (e.bitAddr p)).toNat % 2 ^ e.width)
      else if ls.any fun l => s.poisoned l 1 then .error (2, 0, va)
      else .ok (s.gather ls)

/-- Read the elements a member contributes; one that cannot be read stops the others, whose values are free (R268; log
15). -/
def State.collReads (s : State) (c : CollCmd) : List Nat → List Nat × Option (Nat × Nat × Nat)
  | [] => ([], none)
  | i :: t =>
    match s.collRead c i with
    | .error x => ((i :: t).map fun k => (Config.unstated s.draw c.cmd.id k).toNat % 2 ^ c.src.width, some x)
    | .ok v => let r := s.collReads c t; (v :: r.1, r.2)

/-- Number of elements a member contributes (R319). -/
def CollCmd.sends (c : CollCmd) (n : Nat) : Nat :=
  match colKind c.blk with
  | 1 => n * colCount c.blk
  | 3 => if c.die = colRoot c.blk then colCount c.blk else 0
  | _ => colCount c.blk

/-- The data phase starts: every member's contribution is read (R318). -/
def State.startColl (s : State) (cs : List CollCmd) : State :=
  let read := cs.map fun c => (c.cmd.id, c.die, s.collReads c (List.range (c.sends cs.length)))
  let all := read.map fun r => (r.2.1, r.2.2.1)
  { s.drawn with
    colls := s.colls.map fun (c : CollCmd) =>
      match read.find? (·.1 == c.cmd.id) with
      | some r => { c with values := r.2.2.1, all := all, fail := r.2.2.2 }
      | none => c }

/-- Set the status of commands. -/
def State.statusColls (s : State) (ids : List Nat) (st : Nat) : State :=
  { s with colls := s.colls.map fun (c : CollCmd) => if ids.contains c.cmd.id then { c with status := some (c.status.getD st) } else c }

/-- The commands that match a pending one, one of every die of MEMBERS, once all have been issued (R318). -/
def State.collMates (s : State) (x : CollCmd) : Option (List CollCmd) :=
  let pend := s.colls.filter fun c => c.pending && c.same x
  let full (y : CollCmd) : Bool := (memberDies (colMembers y.blk)).all fun d => pend.any (·.die == d)
  (pend.find? full).map fun y => (memberDies (colMembers y.blk)).filterMap fun d => pend.find? (·.die == d)

/-- Matching commands agree, and the root of a broadcast is a member (R318). -/
def collAgree (part : List CollCmd) : Bool :=
  match part with
  | [] => false
  | y :: _ => part.all y.agrees && (colKind y.blk != 3 || (memberDies (colMembers y.blk)).contains (colRoot y.blk))

/-- A collective whose commands have all been issued starts, or ends on a mismatch (R318). -/
def State.runColl (s : State) (part : List CollCmd) : State :=
  if collAgree part then s.startColl part else s.statusColls (part.map (·.cmd.id)) 5

/-- The host-link target and locations of a tensor's elements that a collective reaches. -/
def State.collBytes (s : State) (c : CollCmd) (e : Ent) (use : Use) (is : List Nat) : List (List Nat × Nat) :=
  is.filterMap fun i =>
    let p := e.coordOf i
    if !e.inside p then none
    else match s.bytesAt (s.cmdGang c.cmd c.die) c.ctx e p.2.1 use (e.bytesOf p) with | .ok x => some x | .error _ => none

/-- A port that carries no traffic, or a cut route, holds a die's accesses at locations reached through targets (R45, R380, R383). -/
def State.bytesCut (s : State) (die : Nat) (bs : List (List Nat × Nat)) : Bool :=
  bs.any fun b => b.1.any fun l => s.linkHeld die l b.2 || (locHome die l != die && s.stalledPair die (locHome die l))

/-- What accesses of a collective to elements of a tensor need. -/
def State.collNeed (s : State) (c : CollCmd) (e : Ent) (write : Bool) (is : List Nat) : Need :=
  let ps := (is.map e.coordOf).filter e.inside
  s.needTensor (s.cmdGang c.cmd c.die) c.ctx e write (ps.flatMap fun p => (e.bytesOf p).map fun va => (p.2.1, va))

/-- What a member contributes. -/
def State.givesNeed (s : State) (c : CollCmd) : Need :=
  s.collNeed c c.src false (List.range (c.sends (memberDies (colMembers c.blk)).length))

/-- What asks for a member's contribution. -/
def CollCmd.giver (c : CollCmd) : Asker := c.cmd.asker c.die (.gives c.cmd.id)

/-- What a member contributes can be read now: its die does not relock (R325), and its engine's requests have been performed (R221,
R244). -/
def State.collReadable (s : State) (c : CollCmd) : Bool := !s.relocking c.die && s.prepared c.giver (s.givesNeed c)

/-- What every member contributes can be read now; what is missing is asked for. -/
def State.collsReadable (s : State) (cs : List CollCmd) : State × Bool :=
  let ask (s : State) (c : CollCmd) : State := if s.relocking c.die then s else (s.gate c.giver (s.givesNeed c)).1
  if cs.all s.collReadable then (cs.foldl ask s, true) else ((cs.filter fun c => !s.collReadable c).foldl ask s, false)

/-- What a member receives, and its status word, can be written now (R221, R244, R252). -/
def State.collWritable (s : State) (c : CollCmd) (rs : List (Nat × Nat)) : State × Bool :=
  s.gate (c.cmd.asker c.die (.takes c.cmd.id)) ((s.collNeed c c.dst true (rs.map (·.1))).both (s.needStat c.cmd c.die))

/-- COLLECTIVE_MATCH: the die's collective engine takes the command at a queue head and matches it by CID (R258, R318). -/
def execCollectiveMatch (cmd : Nat) (s : State) : Out :=
  .next <|
    match s.groups.find? fun g => (g.engq.head?.map (·.id)) == some cmd with
    | none => s
    | some g =>
      match g.engq with
      | [] => s
      | c :: _ =>
        let isColl := match c.kind with | .coll .. => true | _ => false
        let stopped := ((s.gang? g.gang).map Gang.stopped).getD true
        if !isColl || c.verdict.isNone || stopped || s.relocking g.die then s
        else if c.verdict = some false then
          match s.cmdGate c g.die with
          | (s, false) => s
          | (s, true) => (s.updGroup g.id Group.popHead).discardCmd c g.die
        else if 16 ≤ (s.colls.filter fun x => x.die == g.die && x.pending).length then s
        else
          let x : CollCmd := { cmd := c, die := g.die, ctx := c.ctx }
          let twice := s.colls.any fun y => y.die == g.die && y.pending && y.same x
          let lost := (memberDies (colMembers x.blk)).any fun d => ((s.die? d).map (·.failed)).getD true
          let x := { x with status := if twice then some 5 else if lost then some 6 else none }
          let put (s : State) : State := { s.updGroup g.id Group.popHead with colls := s.colls ++ [x] }
          match (if x.status.isSome then none else (put s).collMates x) with
          | none => put s
          | some part =>
            if !collAgree part then (put s).runColl part
            else
              match s.collsReadable part with
              | (s, false) => s
              | (s, true) => (put s).runColl part

/-! ### The ring order (R319) -/

/-- Members grouped by row of the mesh, with their values of one element. -/
def ringRows (ms : List (Nat × Nat)) : List (List Nat) :=
  (List.range 8).filterMap fun y =>
    match ms.filter fun m => m.1 / 8 == y with
    | [] => none
    | r => some (r.map (·.2))

/-- Left fold of a non-empty list. -/
def foldl1 {α : Type} (f : α → α → α) (d : α) : List α → α
  | [] => d
  | x :: t => t.foldl f x

/-- red of one element over the members (R319). -/
def redElem (fmt op : Nat) (ms : List (Nat × Nat)) : Nat :=
  let t := fmtType fmt
  let r : Rnd := { t := t, rm := 0, ftz := 0 }
  let fold {α : Type} (f : α → α → α) (d : α) (rd : Nat → α) : α :=
    foldl1 f d ((ringRows ms).map fun row => foldl1 f d (row.map rd))
  let zero : FV := .fin false 0 0
  if typeFloat t then
    if op = 0 then (r.exactly (fold treeAdd zero (readFV 0 t))).bits
    else (r.exactly (fold (fun x y => readFV 0 t (r.pick true (op == 2) x y).bits) zero (readFV 0 t))).bits
  else
    match op with
    | 0 => fold (fun x y => (x + y) % 2 ^ 32) 0 id
    | 1 => fold (fun x y => if readElem t x ≤ readElem t y then x else y) 0 id
    | _ => fold (fun x y => if readElem t x ≤ readElem t y then y else x) 0 id

/-- Destination elements of a member, in linear order: index and value (R319). -/
def CollCmd.results (c : CollCmd) : List (Nat × Nat) :=
  let n := c.all.length
  let k := colCount c.blk
  let rank := c.all.findIdx fun x => x.1 == c.die
  let at' (m : Nat × List Nat) (i : Nat) : Nat := m.2.getD i 0
  let red (i : Nat) : Nat := redElem c.src.fmt (colOp c.blk) (c.all.map fun m => (m.1, at' m i))
  let own (f : Nat → Nat) : List (Nat × Nat) := (List.range k).map fun i => (i, f i)
  let of (j : Nat) : List Nat := (c.all[j]?.map (·.2)).getD []
  match colKind c.blk with
  | 0 => own red
  | 1 => own fun i => red (rank * k + i)
  | 2 => (List.range n).flatMap fun j => (List.range k).map fun i => (j * k + i, (of j).getD i 0)
  | 3 => own fun i => ((c.all.find? fun x => x.1 == colRoot c.blk).map (·.2)).getD [] |>.getD i 0
  | _ => own fun i => (of ((rank + n - 1) % n)).getD i 0

/-- What a member still writes, with the targets it reaches (R379). -/
def State.collTargets (s : State) (c : CollCmd) : List (List Nat × Nat) := s.collBytes c c.dst .write (c.results.map (·.1))

/-- Write destination elements, granules set full, until one fails (R320, R268). -/
def State.collWrite (s : State) (c : CollCmd) : List (Nat × Nat) → State × Option (Nat × Nat × Nat)
  | [] => (s, none)
  | (i, v) :: t =>
    let e := c.dst
    let p := e.coordOf i
    if !e.inside p then s.collWrite c t
    else
      let va := e.bitAddr p / 8 % 2 ^ 56
      match s.bytesAt (s.cmdGang c.cmd c.die) c.ctx e p.2.1 .write (e.bytesOf p) with
      | .error x => (s, some x)
      | .ok (ls, tgt) =>
        let repl := if e.windowed then none else s.replAt c.die c.ctx va
        match s.moveElem c.ctx { const := v, dst := if tgt = 0 then ls else [], bits := e.step, dstVa := va, repl := repl } with
        | .error x => (s, some x)
        | .ok s => s.collWrite c t

/-- COLLECTIVE_COMPLETE: a started or ended command writes its destinations and its status (R319, R320). A failed member
leaves any subset of the destinations written (log 9). -/
def execCollectiveComplete (cmd : Nat) (s : State) : Out :=
  .next <|
    match s.colls.find? fun c => c.cmd.id == cmd && !c.pending with
    | none => s
    | some c =>
      if s.relocking c.die then s
      else
        let some' := c.results.filter fun r => c.status == some 6 && !c.all.isEmpty && Config.inFlightPerformed s.draw r.1
        match s.collWritable c (if c.fail.isSome then [] else if c.status.isSome then some' else c.results) with
        | (s, false) => s
        | (s, true) =>
        let rest := { s with colls := s.colls.filter fun (x : CollCmd) => x.cmd.id ≠ cmd }
        match c.status with
        | some st =>
          let s := (rest.drawn.collWrite c some').1
          let s := if st = 6 then s.updGroup c.cmd.grp fun g => { g with syncst := g.syncst ||| 2#64 } else s
          (s.putStatus c.cmd c.die st 0 0).endCmd c.cmd
        | none =>
          let (s, f) := match c.fail with | some f => (rest, some f) | none => rest.collWrite c c.results
          let (code, cause, addr) := f.getD (0, 0, 0)
          let s := s.putStatus c.cmd c.die code cause addr
          (if code = 0 then s else s.logCmd c.cmd c.die 6 code 0 addr).endCmd c.cmd

/-- A die failed: the collectives it is a member of end with status 0x06 on the survivors, whose groups see CBRK (R320). -/
def State.failColls (s : State) (die : Nat) : State :=
  let hit := s.colls.filter fun c => c.status.isNone && (colMembers c.blk).testBit die
  let s := s.statusColls (hit.map (·.cmd.id)) 6
  hit.foldl (fun (s : State) c => s.updGroup c.cmd.grp fun g => { g with syncst := syncstBreak g.syncst 2 die }) s

end Sys2Proof.Machine
end

