-- ==== Sys2Proof/Machine/Render.lean ====
section
/-! DEFINITION. Render: sending primitives, restoring their order, and rasterising them (spec 10 R273-R286). A step whose
condition does not hold leaves the state as it is. -/

namespace Sys2Proof.Machine

/-! ### Exact values of FP32 patterns -/

/-- An FP32 pattern as an exact multiple of 2^-149. -/
inductive Ext where
  | nan
  | inf (neg : Bool)
  | fin (n : Int)
  deriving DecidableEq, Repr

/-- 2^149: the scale of `Ext.fin`. -/
def extOne : Int := 2 ^ 149

/-- The exact value of an FP32 pattern. -/
def extOf (x : Nat) : Ext :=
  let e := bits x 30 23
  let f := bits x 22 0
  let neg := bit x 31
  if e = 255 then (if f = 0 then .inf neg else .nan)
  else
    let m : Nat := if e = 0 then f else (2 ^ 23 + f) * 2 ^ (e - 1)
    .fin (if neg then -(m : Int) else m)

/-- The integer of a finite value, 0 otherwise. -/
def Ext.int : Ext → Int
  | .fin n => n
  | _ => 0

/-- The value is finite. -/
def Ext.isFin : Ext → Bool
  | .fin _ => true
  | _ => false

/-- A quotient of integers, the divisor positive, rounded once to nearest even in a format; an exact zero is +0. -/
def ratRound (t : Nat) (n : Int) (d : Nat) : Nat :=
  if n = 0 then 0
  else
    let a := n.natAbs
    let k := Nat.log2 d + 64
    let q := a * 2 ^ k / d
    (({ t := t, rm := 0, ftz := 0 } : Rnd).go (decide (n < 0)) q (-(k : Int)) (decide (a * 2 ^ k % d ≠ 0))).bits

/-- A quotient of integers, the divisor not zero, in FP32. -/
def ratF32 (n d : Int) : Nat := if d < 0 then ratRound 12 (-n) d.natAbs else ratRound 12 n d.natAbs

/-! ### The draw of an item -/

/-- The item of a lane is a stage-`st` item of a draw. -/
def State.drawItem (s : State) (g : Group) (l st : Nat) : Bool :=
  ((s.groupLaunch? g).map Launch.isDraw).getD false && ((AMap.get? g.items l).map (·.stage)).getD 4 == st

/-- Distinct owner dies of a tile map, ascending. -/
def Launch.owners (l : Launch) : List Nat := l.tileMap.foldl (fun acc d => if d = 0xFF then acc else insertNat acc d) []

/-! ### Binning (R277) -/

/-- A mapped coordinate's tile: ⌊(a + w)·32·M / w / 64⌋ where `w` is positive; beyond the screen for an infinity, none for a
NaN. -/
def tileOf (a w : Ext) (m : Nat) : Option Int :=
  match a, w with
  | .fin x, .fin y => some ((x + y) * (32 * m : Nat) / (64 * y))
  | .inf neg, .fin _ => some (if neg then -1 else (m : Int))
  | .fin _, .inf _ => some ((m / 2 : Nat) : Int)
  | _, _ => none

/-- Negate an exact value. -/
def Ext.neg : Ext → Ext
  | .fin n => .fin (-n)
  | .inf s => .inf !s
  | .nan => .nan

/-- The value is not above zero. -/
def Ext.nonPos : Ext → Bool
  | .fin n => decide (n ≤ 0)
  | .inf neg => neg
  | .nan => true

/-- The four coordinates of vertex `i` of twelve values. -/
def vertOf (vs : List (BitVec 32)) (i : Nat) : Ext × Ext × Ext × Ext :=
  let c (k : Nat) : Ext := extOf (vs.getD (4 * i + k) 0).toNat
  (c 0, c 1, c 2, c 3)

/-- Owner dies a primitive is sent to, ascending: none where it is culled (R277). -/
def Launch.bin (l : Launch) (vs : List (BitVec 32)) : List Nat :=
  let v := (List.range 3).map (vertOf vs)
  if vs.any fun x => extOf x.toNat == .nan then []
  else if v.all (·.2.2.2.nonPos) then []
  else
    let span (f : Ext × Ext × Ext × Ext → Option Int) (m : Nat) : Option (List Nat) :=
      if v.any (·.2.2.2.nonPos) then some (List.range m)
      else
        match v.map f with
        | [some a, some b, some c] =>
          let lo := min a (min b c)
          let hi := max a (max b c)
          if hi < 0 ∨ (m : Int) ≤ lo then some []
          else some ((List.range m).filter fun t => decide (max 0 lo ≤ (t : Int)) && decide ((t : Int) ≤ hi))
        | _ => none
    match span (fun p => tileOf p.1 p.2.2.2 l.m0) l.m0, span (fun p => tileOf p.2.1.neg p.2.2.2 l.m1) l.m1 with
    | some cols, some rows =>
      rows.foldl (fun acc r => cols.foldl (fun acc c =>
        let d := l.tileMap.getD (r * l.m0 + c) 0xFF
        if d = 0xFF then acc else insertNat acc d) acc) []
    | _, _ => []

/-! ### Tokens and packets (R274, R278) -/

/-- The sequence token of primitive `pidx` of a task group of a draw (Table 10.1). -/
def Launch.token (l : Launch) (tgseq pidx : Nat) : BitVec 64 :=
  BitVec.ofNat 64 (l.seq % 2 ^ 8 * 2 ^ 56 + tgseq % 2 ^ 48 * 2 ^ 8 + pidx % 2 ^ 8)

def Prim.tgseq (p : Prim) : Nat := bits p.token.toNat 55 8
def Prim.pidx (p : Prim) : Nat := bits p.token.toNat 7 0

/-- Header of the end marker of a window (R278). -/
def Launch.markerHeader (l : Launch) (w : Nat) : BitVec 64 := BitVec.ofNat 64 (l.seq % 2 ^ 8 * 2 ^ 56 + w % 2 ^ 42 * 2 ^ 14)

def Marker.window (m : Marker) : Nat := bits m.header.toNat 55 14

/-- The 64-byte payload of a packet (R278): of a primitive packet, the vertices, the handle and the token; of an end marker, the
counts. -/
def RenderPkt.payload : RenderPkt → BitVec 512
  | .prim p => BitVec.ofNat 512 (joinElems 32 (p.verts.map (·.toNat)) + p.handle.toNat * 2 ^ 384 + p.token.toNat * 2 ^ 448)
  | .marker m => BitVec.ofNat 512 (joinElems 8 (m.counts.map (·.toNat)))

/-! ### `prim` and `pend` (R275, R276) -/

/-- A packet joins the render traffic from one die to another: keys of a pair rise with the order of sending (R278). -/
def State.sendPkt (s : State) (l src dst : Nat) (p : RenderPkt) : State :=
  ({ s with next := s.next + 1 }).updLaunch l fun l => { l with pkts := AMap.set l.pkts (s.next * 4096 + 64 * src + dst) p }

/-- The oldest packet on its way between two dies. -/
def Launch.firstPkt (l : Launch) (src dst : Nat) : Option (Nat × RenderPkt) :=
  l.pkts.find? fun p => p.1 % 4096 == 64 * src + dst

/-- One lane sends its primitive (R275, R277). -/
def sendPrim (vp : Nat) (a : Src) (x : State × Group) (l : Nat) : State × Group :=
  let (s, g) := x
  match s.groupLaunch? g, AMap.get? g.items l with
  | some la, some it =>
    let vs : List (BitVec 32) := (List.range 6).flatMap fun k =>
      let w := g.getV (vp + k) l
      [w.truncate 32, (w >>> 32).truncate 32]
    let p : Prim := { verts := vs, handle := readSrc g l [] 0 a, token := la.token it.tgseq it.prims }
    let s := (la.bin vs).foldl (fun (s : State) d =>
      (s.sendPkt la.id g.die d (.prim p)).updLaunch la.id fun l => l.updFocus g.die fun f =>
        let k := 64 * it.tgseq + d
        { f with sent := AMap.set f.sent k (AMap.getD f.sent k 0 + 1) }) s
    (s, { g with items := AMap.set g.items l { it with prims := it.prims + 1 } })
  | _, _ => (s, g)

/-- `prim` (R275). -/
def execPrim (h : Head) (f : FPrim) (s : State) : Out :=
  issue (.prim h f) s fun u =>
    let bad := Mask.ofPred fun l => u.ex.has l && (!u.s.drawItem u.g l 0 ||
      (match AMap.get? u.g.items l with | some it => it.tgEnded || decide (254 ≤ it.prims) | none => true))
    if bad ≠ 0 then u.trap { cls := 2, detail := 3, tmask := bad }
    else
      let (s, g) := u.ex.toList.foldl (sendPrim f.vp.toNat f.a) (u.s, u.g)
      { u with s := s }.finish g

/-- End the task group of a lane's item, if it is one that has not ended (R276). -/
def endTask (x : State × Group) (l : Nat) : State × Group :=
  let (s, g) := x
  match s.groupLaunch? g, AMap.get? g.items l with
  | some la, some it =>
    if !s.drawItem g l 0 || it.tgEnded then (s, g)
    else
      (s.updLaunch la.id fun l => l.updFocus g.die fun f => { f with ended := insertNat f.ended it.tgseq },
       { g with items := AMap.set g.items l { it with tgEnded := true } })
  | _, _ => (s, g)

/-- `pend` (R276). -/
def execPend (h : Head) (s : State) : Out :=
  issue (.pend h) s fun u =>
    let bad := Mask.ofPred fun l => u.act.has l && !u.s.drawItem u.g l 0
    if bad ≠ 0 then u.trap { cls := 2, detail := 3, tmask := bad }
    else
      let (s, g) := u.act.toList.foldl endTask (u.s, u.g)
      { u with s := s }.finish g

/-! ### Markers and restoring order (R278-R281) -/

/-- Task groups of a window that were dealt to a die. -/
def Focus.window (f : Focus) (n w : Nat) : List Nat :=
  ((List.range 64).map (64 * w + ·)).filter fun t =>
    decide (t < n) && f.dealt.any fun r => decide (r.1 ≤ t) && decide (t < r.1 + r.2)

/-- Windows that hold a task group dealt to the die. -/
def Focus.windows (f : Focus) : List Nat :=
  (f.dealt.flatMap fun r => (List.range ((r.1 + r.2 + 63) / 64 - r.1 / 64)).map (r.1 / 64 + ·)).dedup

/-- MARKER_SEND: a die sends the end marker of a window to every owner (R279). -/
def execMarkerSend (l die w : Nat) (s : State) : Out :=
  .next <|
    match s.launch? l with
    | none => s
    | some la =>
      let f := la.focus die
      let tgs := f.window la.items w
      if !la.live || !la.isDraw || tgs = [] || f.markers.contains w || !tgs.all f.ended.contains || s.relocking die then s
      else
        let s := s.updLaunch l fun l => l.updFocus die fun f => { f with markers := insertNat f.markers w }
        la.owners.foldl (fun (s : State) d =>
          s.sendPkt l die d (.marker
            { header := la.markerHeader w
              counts := (List.range 64).map fun i =>
                if tgs.contains (64 * w + i) then BitVec.ofNat 8 (AMap.getD f.sent (64 * (64 * w + i) + d) 0) else 0xFF })) s

/-- Insert a primitive by PIDX. -/
def insertPrim (p : Prim) : List Prim → List Prim
  | [] => [p]
  | q :: t => if p.pidx < q.pidx then p :: q :: t else q :: insertPrim p t

/-- The focus stage releases every task group whose count is known, in order (R280). -/
def Focus.release : Nat → Focus → Focus
  | 0, f => f
  | n + 1, f =>
    match AMap.get? f.counts f.k with
    | none => f
    | some _ =>
      let mine := (f.held.filter fun p => p.tgseq == f.k).foldl (fun acc p => insertPrim p acc) []
      Focus.release n
        { f with k := f.k + 1, held := f.held.filter fun p => p.tgseq ≠ f.k, released := f.released ++ mine
                 counts := AMap.erase f.counts f.k }

/-- Primitives that an owner's draws hold, of all contexts or of one. -/
def State.primsHeld (s : State) (die : Nat) (spilled : Bool) (ctx : Option Nat) : Nat :=
  ((s.launches.filter fun l => match ctx with | some c => l.ctx == c | none => true).map fun l =>
    (((l.focus die).held ++ (l.focus die).released).filter fun p => p.spilled == spilled).length).sum

/-- The context area record of a context on a die (R398). -/
def State.areaOf (s : State) (die ctx : Nat) : Option AreaRec :=
  (s.die? die).bind fun d => (d.areas.find? fun a => a.2.valid && a.2.ctx == ctx).map (·.2)

/-- PRIMITIVE_PACKET: an owner receives a primitive (R278, R281). A full spill area fails the launch's partition: `failPart`
says how. -/
def primitivePacket (failPart : State → Launch → State) (l src dst : Nat) (s : State) : Out :=
  .next <|
    match s.launch? l with
    | none => s
    | some la =>
      match la.firstPkt src dst with
      | some (k, .prim p) =>
        if s.stalledPair src dst || s.relocking dst then s
        else
          let spill := decide (4096 ≤ s.primsHeld dst false none)
          let room := 32 * ((s.areaOf dst la.ctx).map (·.spilln)).getD 0
          let s := s.updLaunch l fun l => { l with pkts := AMap.erase l.pkts k }
          if spill && decide (room ≤ s.primsHeld dst true (some la.ctx)) then failPart s la
          else s.updLaunch l fun l => l.updFocus dst fun f => { f with held := f.held ++ [{ p with spilled := spill }] }
      | _ => s

/-- END_MARKER: an owner receives an end marker and releases what it completes (R278, R280). -/
def execEndMarker (l src dst : Nat) (s : State) : Out :=
  .next <|
    match s.launch? l with
    | none => s
    | some la =>
      match la.firstPkt src dst with
      | some (k, .marker m) =>
        if s.stalledPair src dst || s.relocking dst then s
        else
          s.updLaunch l fun l => ({ l with pkts := AMap.erase l.pkts k }).updFocus dst fun f =>
            let counts := (m.counts.zip (List.range 64)).foldl (fun c (x : BitVec 8 × Nat) =>
              if x.1 = 0xFF then c else AMap.set c (64 * m.window + x.2) x.1.toNat) f.counts
            Focus.release counts.length { f with counts := counts }
      | _ => s

/-! ### Rasterising (R282, R283) -/

/-- A vertex in exact homogeneous form: the true value of each field is that field over `s`; `b1` and `b2` are the weights of
the primitive's vertices 1 and 2. -/
structure HVert where
  x : Int
  y : Int
  z : Int
  w : Int
  s : Int
  b1 : Int
  b2 : Int
  deriving DecidableEq, Repr

/-- Vertex `i` of a primitive: one with an infinite w maps to the screen's centre and weighs nothing. -/
def hvert (vs : List (BitVec 32)) (i : Nat) : HVert :=
  let (x, y, z, w) := vertOf vs i
  match w with
  | .fin n =>
    { x := x.int, y := y.int, z := z.int, w := n, s := extOne, b1 := if i = 1 then extOne else 0
      b2 := if i = 2 then extOne else 0 }
  | _ => { x := 0, y := 0, z := 0, w := 1, s := 0, b1 := 0, b2 := 0 }

/-- Signed distance of a vertex from the plane w = 2^-20, scaled (R282). -/
def HVert.clip (v : HVert) : Int := v.w * 2 ^ 20 - v.s

/-- The point of an edge on the clip plane. -/
def HVert.cut (a b : HVert) : HVert :=
  let sg : Int := if a.clip < 0 then -1 else 1
  let f (p : HVert → Int) : Int := sg * (a.clip * p b - b.clip * p a)
  { x := f (·.x), y := f (·.y), z := f (·.z), w := f (·.w), s := f (·.s), b1 := f (·.b1), b2 := f (·.b2) }

/-- Clip a closed polygon, edge by edge from its first vertex. -/
def clipPoly (ps : List HVert) : List HVert :=
  (ps.zip (ps.drop 1 ++ ps.take 1)).flatMap fun (a, b) =>
    (if 0 ≤ a.clip then [a] else []) ++
      (if (0 ≤ a.clip ∧ b.clip < 0) ∨ (a.clip < 0 ∧ 0 < b.clip) then [a.cut b] else [])

/-- Snap an FP32 pattern to 1/256 pixel, ties to even; none for an infinity (R282). -/
def snap (x : Nat) : Option Int :=
  match extOf x with
  | .fin n =>
    let q : Nat := n.natAbs / 2 ^ 141
    let r : Nat := n.natAbs % 2 ^ 141
    let m : Nat := if 2 ^ 140 < r ∨ (r = 2 ^ 140 ∧ q % 2 = 1) then q + 1 else q
    some (if n < 0 then -(m : Int) else m)
  | _ => none

/-- A vertex's snapped place. -/
def HVert.place (l : Launch) (v : HVert) : Option (Int × Int) :=
  match snap (ratF32 ((v.x + v.w) * (32 * l.m0 : Nat)) v.w), snap (ratF32 ((v.w - v.y) * (32 * l.m1 : Nat)) v.w) with
  | some x, some y => some (x, y)
  | _, _ => none

/-- (b − a) × (p − a). -/
def cross (a b p : Int × Int) : Int := (b.1 - a.1) * (p.2 - a.2) - (b.2 - a.2) * (p.1 - a.1)

/-- A triangle of a primitive's fan. -/
structure FanTri where
  p0 : Int × Int
  p1 : Int × Int
  p2 : Int × Int
  v0 : HVert
  v1 : HVert
  v2 : HVert
  deriving DecidableEq, Repr

/-- A of R282. -/
def FanTri.area (t : FanTri) : Int := cross t.p0 t.p1 t.p2

/-- An edge from `a` to `b` is a top or a left edge, `c` lying inside. -/
def topLeft (a b c : Int × Int) : Bool :=
  if a.2 = b.2 then decide (a.2 < c.2)
  else decide (0 < ((c.1 - a.1) * (b.2 - a.2) - (b.1 - a.1) * (c.2 - a.2)) * (b.2 - a.2))

/-- A point lies on the inner side of an edge (R282). -/
def edgeIn (a b c p : Int × Int) : Bool :=
  let e := cross a b p
  decide (0 < e * cross a b c) || (decide (e = 0) && topLeft a b c)

/-- The triangle covers a point. -/
def FanTri.covers (t : FanTri) (p : Int × Int) : Bool :=
  decide (t.area ≠ 0) && edgeIn t.p0 t.p1 t.p2 p && edgeIn t.p1 t.p2 t.p0 p && edgeIn t.p2 t.p0 t.p1 p

/-- The fan of a primitive: none where it covers nothing (R282). A primitive that must be clipped and has an infinite w has no stated
clipped polygon: it covers nothing, as one that maps to infinity (DESIGN CHOICE, log 15). -/
def Launch.fan (l : Launch) (vs : List (BitVec 32)) : List FanTri :=
  let v := (List.range 3).map (vertOf vs)
  let clips := v.any (·.2.2.2.nonPos)
  if v.any fun p => !p.1.isFin || !p.2.1.isFin || (clips && !p.2.2.2.isFin) then []
  else
    let ps := (List.range 3).map (hvert vs)
    let ps := if clips then clipPoly ps else ps
    let pl := ps.map (HVert.place l)
    if pl.any Option.isNone then []
    else
      let at' (i : Nat) : Int × Int := ((pl[i]?).bind fun x => x).getD (0, 0)
      let vt (i : Nat) : HVert := (ps[i]?).getD (hvert vs 0)
      (List.range (ps.length - 2)).map fun i =>
        { p0 := at' 0, p1 := at' (i + 1), p2 := at' (i + 2), v0 := vt 0, v1 := vt (i + 1), v2 := vt (i + 2) }

/-- Centre of a pixel in 1/256. -/
def centre (x y : Nat) : Int × Int := (256 * (x : Int) + 128, 256 * (y : Int) + 128)

/-- A quantity of the vertices divided by w, interpolated at a point: its value is the result over `FanTri.denom`. -/
def FanTri.interp (t : FanTri) (p : Int × Int) (f : HVert → Int) : Int :=
  cross t.p1 t.p2 p * f t.v0 * (t.v1.w * t.v2.w) + cross t.p2 t.p0 p * f t.v1 * (t.v0.w * t.v2.w) +
    cross t.p0 t.p1 p * f t.v2 * (t.v0.w * t.v1.w)

/-- The common denominator of interpolated quantities. -/
def FanTri.denom (t : FanTri) : Int := t.area * (t.v0.w * t.v1.w * t.v2.w)

/-- Two FP32 patterns in one register. -/
def pair32 (lo hi : Nat) : Word := BitVec.ofNat 64 (lo % 2 ^ 32 + 2 ^ 32 * hi)

/-- Registers v0-v2 of a pixel (R283). A depth interpolated from an infinite z has no stated value (log 15). -/
def FanTri.regs (t : FanTri) (p : Int × Int) (handle : Word) (zfree : Option Nat) : List Word :=
  let n := t.interp p (·.s)
  let z := match zfree with | some k => (Config.unstated k p.1.toNat p.2.toNat).toNat % 2 ^ 32 | none => ratF32 (t.interp p (·.z)) t.denom
  [ if n = 0 then pair32 0x7FC00000 0x7FC00000 else pair32 (ratF32 (t.interp p (·.b1)) n) (ratF32 (t.interp p (·.b2)) n)
  , handle
  , pair32 z (ratF32 n t.denom) ]

/-- Items and posts of a primitive's quads so far (R283, R284). -/
structure Quads where
  next : Nat
  items : List Item := []
  posts : List Post := []

/-- Emit the quad of a block, if it holds a covered pixel. -/
def Quads.block (q : Quads) (l : Launch) (die : Nat) (ts : List FanTri) (p : Prim) (zfree : Option Nat) (bx by' : Nat) : Quads :=
  if l.tileMap.getD (by' / 32 * l.m0 + bx / 32) 0xFF ≠ die then q
  else
    let px (i : Nat) : Nat × Nat := (2 * bx + i % 2, 2 * by' + i / 2)
    let tri (i : Nat) : Option FanTri := ts.find? fun t => t.covers (centre (px i).1 (px i).2)
    match (List.range 4).findSome? tri with
    | none => q
    | some first =>
      (List.range 4).foldl (fun (q : Quads) i =>
        let (x, y) := px i
        let t := (tri i).getD first
        let cov := (tri i).isSome
        let it : Item :=
          { item0 := BitVec.ofNat 32 x, item1 := BitVec.ofNat 32 y
            item2 := BitVec.ofNat 32 (b2n cov + 2 * b2n (decide (t.area < 0)) + 256 * p.pidx)
            itemid := BitVec.ofNat 48 p.tgseq, stage := 1, ticket := some { num := q.next, die := die }, tgseq := p.tgseq
            regs := t.regs (centre x y) p.handle zfree }
        { next := q.next + 1, items := q.items ++ [it]
          posts := q.posts ++ [{ ticket := q.next, px := x, py := y, helper := !cov }] }) q

/-- First and last pixel of a list of snapped coordinates on a screen of `n` pixels. -/
def pixelSpan (cs : List Int) (n : Nat) : Nat × Nat :=
  let lo := foldl1 min 0 cs / 256 - 1
  let hi := foldl1 max 0 cs / 256 + 1
  (lo.toNat, Nat.min (n - 1) hi.toNat)

/-- The quads of a primitive on an owner die, in screen order (R283). -/
def Launch.quads (l : Launch) (die next : Nat) (p : Prim) (zfree : Option Nat) : Quads :=
  let ts := l.fan p.verts
  if ts = [] then { next := next }
  else
    let corners := ts.flatMap fun t => [t.p0, t.p1, t.p2]
    let (x0, x1) := pixelSpan (corners.map (·.1)) (64 * l.m0)
    let (y0, y1) := pixelSpan (corners.map (·.2)) (64 * l.m1)
    ((List.range (y1 / 2 + 1)).drop (y0 / 2)).foldl (fun (q : Quads) y =>
      ((List.range (x1 / 2 + 1)).drop (x0 / 2)).foldl (fun (q : Quads) x => q.block l die ts p zfree x y) q) { next := next }

/-- RASTERISE: the rasteriser takes the next released primitive and emits its quads into the owner's stage-1 stock (R282,
R283). The spec bounds no slots of the colour unit. -/
def execRasterise (l die : Nat) (s : State) : Out :=
  .next <|
    match s.launch? l with
    | none => s
    | some la =>
      match (la.focus die).released with
      | [] => s
      | p :: rest =>
        if s.relocking die then s
        else
          let inf := (List.range 3).any fun i => !(vertOf p.verts i).2.2.1.isFin
          let q := la.quads die (la.focus die).nextTicket p (if inf then some s.draw else none)
          let s := if inf then s.drawn else s
          s.updLaunch l fun l =>
            (l.updFocus die fun f => { f with released := rest, nextTicket := q.next, posts := f.posts ++ q.posts }).updStock die 1
              fun k => { k with items := k.items ++ q.items }

end Sys2Proof.Machine
end

