-- ==== Sys2Proof/Machine/Colour.lean ====
section
/-! DEFINITION. Colour: pixel tickets, colour surfaces and their compression, the colour and depth units, and `cwr`, `zcmp`,
`cclr` and `cdec` (spec 10 R284, R287-R295). A step whose condition does not hold leaves the state as it is. -/

namespace Sys2Proof.Machine

/-! ### Tickets (R284) -/

/-- Update the post of a ticket; one with nothing left to apply leaves. -/
def State.updPost (s : State) (l die tk : Nat) (f : Post → Post) : State :=
  s.updLaunch l fun l => l.updFocus die fun x =>
    { x with posts := (x.posts.map fun p => if p.ticket = tk then f p else p).filter fun p => !(p.depthDone && p.colourDone) }

/-- Resolve a lane's open tickets as "no depth operation" and, where `colour` is set, as "no write". -/
def resolveTicket (colour : Bool) (x : State × Group) (l : Nat) : State × Group :=
  let (s, g) := x
  match s.groupLaunch? g, AMap.get? g.items l with
  | some la, some it =>
    match it.ticket with
    | none => (s, g)
    | some t =>
      let s := if t.dres then s else s.updPost la.id t.die t.num fun p => { p with depthDone := true }
      let s := if t.cres || !colour then s else s.updPost la.id t.die t.num fun p => { p with colourDone := true }
      let t' : Ticket := { t with dres := true, cres := t.cres || colour }
      (s, { g with items := AMap.set g.items l { it with ticket := some t' } })
  | _, _ => (s, g)

/-- The ticket of a lane's item, where it is a stage-1 item of a draw. -/
def State.ticketOf (s : State) (g : Group) (l : Nat) : Option Ticket :=
  if s.drawItem g l 1 then (AMap.get? g.items l).bind (·.ticket) else none

/-! ### Blocks of a colour surface (R287-R290) -/

/-- A colour surface (R287). -/
def Ent.isSurface (e : Ent) : Bool :=
  e.valid && e.baseOk && e.fmt == 0x10 && e.rank == 2 && e.dim 0 % 8 == 0 && e.dim 1 % 8 == 0 && decide (2 ≤ e.loc)

/-- Virtual address of a block's mode byte. -/
def Ent.modeVa (e : Ent) (bx y : Nat) : Nat := (e.base + e.rowp * e.dim 1 + y * (e.dim 0 / 8) + bx) % 2 ^ 56

/-- Virtual address of 16-byte piece `i` of a block's store. -/
def Ent.pieceVa (e : Ent) (bx y i : Nat) : Nat := (e.base + (8 * y + i / 2) * e.rowp + 32 * bx + 16 * (i % 2)) % 2 ^ 56

/-- What a mode byte says. -/
inductive BlockMode where
  | plain
  | cleared
  | delta (w : Nat)
  | reserved
  deriving DecidableEq, Repr

/-- Read a mode byte (Table 10.3, R289). -/
def blockMode (m : Nat) : BlockMode :=
  if m = 0 then .plain else if m = 0x40 then .cleared
  else match m with | 0x80 => .delta 1 | 0x81 => .delta 2 | 0x82 => .delta 4 | 0x83 => .delta 8 | _ => .reserved

/-- Bytes of its store that a block in a mode uses. -/
def BlockMode.bytes : BlockMode → Nat
  | .plain => 256
  | .delta w => ceilDiv (32 + 252 * w) 8
  | _ => 0

/-- Channel `c` of a pixel value. -/
def chan (p c : Nat) : Nat := p / 256 ^ c % 256

/-- A pixel value from its channels. -/
def ofChans (f : Nat → Nat) : Nat := f 0 % 256 + 256 * (f 1 % 256) + 65536 * (f 2 % 256) + 16777216 * (f 3 % 256)

/-- The 64 pixels of a block from its store bytes (R289). -/
def BlockMode.pixels (m : BlockMode) (clear store : Nat) : List Nat :=
  (List.range 64).map fun p =>
    match m with
    | .plain => store / 2 ^ (32 * p) % 2 ^ 32
    | .cleared => clear % 2 ^ 32
    | .delta w =>
      let p0 := store % 2 ^ 32
      if p = 0 then p0 else ofChans fun c => chan p0 c + store / 2 ^ (32 + w * (4 * (p - 1) + c)) % 2 ^ w
    | .reserved => 0

/-- Read the first 16-byte pieces of a block's store, `n` of them from piece `i`; a failing address. -/
def State.readPieces (s : State) (die ctx : Nat) (e : Ent) (bx y : Nat) : Nat → Nat → Except Nat Nat
  | 0, _ => .ok 0
  | n + 1, i =>
    match s.readVa die ctx (e.pieceVa bx y i) 16 with
    | none => .error (e.pieceVa bx y i)
    | some v => (s.readPieces die ctx e bx y n (i + 1)).map fun r => v + 2 ^ 128 * r

/-- Read a block: its mode and pixels, or the failing address. -/
def State.readBlock (s : State) (die ctx : Nat) (e : Ent) (bx y : Nat) : Except Nat (BlockMode × List Nat) :=
  match s.readVa die ctx (e.modeVa bx y) 1 with
  | none => .error (e.modeVa bx y)
  | some b =>
    let m := blockMode b
    (s.readPieces die ctx e bx y (ceilDiv m.bytes 16) 0).map fun st => (m, m.pixels e.clear st)

/-- Write bytes of a block's store from piece `i`, until one fails: its address. -/
def State.writePieces (s : State) (die ctx : Nat) (e : Ent) (bx y : Nat) : Nat → Nat → Nat → Nat → State × Option Nat
  | 0, _, _, _ => (s, none)
  | n + 1, i, len, v =>
    if len = 0 then (s, none)
    else
      match s.writeVa die ctx (e.pieceVa bx y i) (Nat.min 16 len) v with
      | (_, false) => (s, some (e.pieceVa bx y i))
      | (s, true) => s.writePieces die ctx e bx y n (i + 1) (len - 16) (v / 2 ^ 128)

/-- A block to be written: its place, mode byte, bytes of its store and their value. -/
structure BlockWrite where
  bx : Nat
  y : Nat
  mode : Nat
  len : Nat
  v : Nat

/-- Write a block's store and then its mode byte, until a write fails: its address. -/
def State.writeBlock (s : State) (die ctx : Nat) (e : Ent) (w : BlockWrite) : State × Option Nat :=
  match s.writePieces die ctx e w.bx w.y 16 0 w.len w.v with
  | (s, some a) => (s, some a)
  | (s, none) =>
    match s.writeVa die ctx (e.modeVa w.bx w.y) 1 w.mode with
    | (_, false) => (s, some (e.modeVa w.bx w.y))
    | (s, true) => (s, none)

/-- Addresses of a block's mode byte and of the pieces that hold the first `len` bytes of its store, with their sizes. -/
def Ent.blockPieces (e : Ent) (bx y len : Nat) : List (Nat × Nat) :=
  (e.modeVa bx y, 1) :: (List.range (ceilDiv len 16)).map fun i => (e.pieceVa bx y i, 16)

/-- Bytes that reading a block reads. -/
def State.blockReads (s : State) (die ctx : Nat) (e : Ent) (bx y : Nat) : List (Nat × Nat) :=
  e.blockPieces bx y (((s.readVa die ctx (e.modeVa bx y) 1).map fun b => (blockMode b).bytes).getD 0)

/-- Every delta of the pixels fits a width (R290). -/
def deltaFits (ps : List Nat) (w : Nat) : Bool :=
  let p0 := ps.headD 0
  ps.all fun p => (List.range 4).all fun c => decide ((chan p c + 256 - chan p0 c) % 256 < 2 ^ w)

/-- The store of a block written back: mode byte, bytes used, their value (R290). The bits above the last field of width 1 are
not stated: `pad` (log 15). -/
def packBlock (ps : List Nat) (pad : Nat) : Nat × Nat × Nat :=
  let p0 := ps.headD 0
  let delta (w : Nat) : Nat :=
    p0 + 2 ^ 32 * joinElems w ((ps.drop 1).flatMap fun p => (List.range 4).map fun c => (chan p c + 256 - chan p0 c) % 256)
  if deltaFits ps 1 then (0x80, 36, delta 1 + pad % 16 * 2 ^ 284)
  else if deltaFits ps 2 then (0x81, 67, delta 2)
  else if deltaFits ps 4 then (0x82, 130, delta 4)
  else (0, 256, joinElems 32 ps)

/-- Append a record of a colour or depth unit (R354, Table 13.7). -/
def State.logUnit (s : State) (l : Launch) (grp die cause addr : Nat) : State :=
  let g := s.group? grp
  let s := s.noteErrorVa die l.ctx addr
  s.logRecord l.ctx (errRec s.gtime ((g.map s.srGroup).getD 0) l.sr 0 addr 0 die ((g.map (·.cluster)).getD 0) l.ctx 0 cause)

/-- The stored byte of a blend (R292). -/
def blend (bm s a d : Nat) : Nat :=
  match bm with
  | 0 => s
  | 1 => (s * a + d * (255 - a) + 127) / 255
  | 2 => Nat.min 255 (s + d)
  | 3 => Nat.max s d
  | _ => Nat.min s d

/-! ### `cwr` and the colour unit -/

/-- The fields of a lane's colour post. -/
def cwrLane (f : FCwr) (surface op : Nat) (x : State × Group) (l : Nat) : State × Group :=
  let (s, g) := x
  match s.groupLaunch? g, AMap.get? g.items l with
  | some la, some it =>
    match it.ticket with
    | none => (s, g)
    | some t =>
      let c : ColourPost :=
        { bm := f.bm.toNat, colour := (readSrc g l [] 0 f.a).truncate 32, surface := BitVec.ofNat 512 surface, op := op, grp := g.id }
      let s := s.updPost la.id t.die t.num fun p =>
        if p.helper then { p with colourDone := true } else { p with colour := some c }
      let t' : Ticket := { t with cres := true }
      (s, { g with items := AMap.set g.items l { it with ticket := some t' } })
  | _, _ => (s, g)

/-- A launch still holds colour posts of a counted operation. -/
def State.colourOpen (s : State) (l op : Nat) : Bool :=
  match s.launch? l with
  | some la => la.draw.any fun f => f.posts.any fun p => (p.colour.map (·.op)) == some op
  | none => false

/-- The trap of a `cwr` or `zcmp`: lanes of `bad` meet the illegal-state condition, and where the identifier does not describe the
surface or depth tensor asked for every lane meets class 6 (R425). -/
def Iss.pixelTrap (u : Iss) (bad : Mask) (t : Nat) (valid : Bool) : Option TrapArgs :=
  if u.ex = 0 then none
  else if !valid then
    some (if bad.has (lowLane u.ex) then { cls := 2, detail := 4, tmask := u.ex } else { cls := 6, info := t, tmask := u.ex })
  else if bad ≠ 0 then some { cls := 2, detail := 4, tmask := bad }
  else none

/-- The posts of some lanes of a `cwr`, as one operation under a counter (R292). -/
def Iss.postColours (u : Iss) (f : FCwr) (e : Ent) (ctr : Nat) (lanes : Mask) : State × Group :=
  if lanes = 0 then (u.s, u.g)
  else
    let op := u.s.next
    let o : CountedOp := { id := op, grp := u.g.id, ctr := ctr, cc := f.cc.toNat, lanes := lanes, pc := u.e.pc }
    let (s, g) := lanes.toList.foldl (cwrLane f e op) (u.s.fresh, u.g)
    let wait := match s.groupLaunch? g with | some la => s.colourOpen la.id op | none => false
    (s.addOp { o with ready := !wait }, g)

/-- `cwr` (R292): the accesses of its items come before those of the colour unit (R326, R330). Where some lanes trap the others post all
the same, their operation under no counter (R344, R345; log 23). -/
def execCwr (h : Head) (f : FCwr) (s : State) : Out :=
  issue (.cwr h f) s fun u =>
    if u.accessesOpen then u.s else
    let bad := Mask.ofPred fun l => u.ex.has l &&
      (match u.s.ticketOf u.g l with | some t => t.cres | none => true)
    let t := (u.g.getS f.st.toNat).toNat % 256
    let e := u.s.ent u.ctx t
    match u.pixelTrap bad t (Ent.isSurface e) with
    | some a =>
      let (s, g) := u.postColours f e 8 (u.ex &&& ~~~a.tmask)
      if a.tmask = u.ex then u.trap a else { u with s := s }.trapAfter g a
    | none =>
      if u.ex ≠ 0 ∧ 63 ≤ u.s.counter u.g.id f.cc.toNat then u.s
      else
        let (s, g) := u.postColours f e f.cc.toNat u.ex
        { u with s := s }.finish g

/-- What the blend of one entry into its surface writes, and whether the block's mode was reserved; none for a pixel outside, an
error for a failing address (R292). -/
def State.planColour (s : State) (la : Launch) (die : Nat) (p : Post) (c : ColourPost) : Except Nat (Option (BlockWrite × Bool)) :=
  let e : Ent := c.surface.toNat
  if !e.inside (p.px, p.py, 0, 0) then .ok none
  else
    let bx := p.px / 8
    let y := p.py / 8
    match s.readBlock die la.ctx e bx y with
    | .error a => .error a
    | .ok (m, ps) =>
      let i := 8 * (p.py % 8) + p.px % 8
      let old := ps.getD i 0
      let src := c.colour.toNat
      let new := ofChans fun k => blend c.bm (chan src k) (chan src 3) (chan old k)
      let (mode, len, v) := packBlock (ps.set i new) (Config.unstated s.draw p.ticket 0).toNat
      .ok (some ({ bx := bx, y := y, mode := mode, len := len, v := v }, decide (m = .reserved)))

/-- Write what a blend writes: where a write fails, the entry's write is dropped and its address logged (R292). -/
def State.applyColour (s : State) (la : Launch) (die : Nat) (c : ColourPost) (w : BlockWrite) (reserved : Bool) : State :=
  let e : Ent := c.surface.toNat
  match s.writeBlock die la.ctx e w with
  | (_, some a) => s.logUnit la c.grp die 0x0D a
  | (s, none) => if reserved then s.logUnit la c.grp die 0x0A (e.modeVa w.bx w.y) else s

/-- What a blend reads and writes: nothing for a pixel outside the surface. -/
def State.blendNeed (s : State) (la : Launch) (die : Nat) (p : Post) (c : ColourPost) : Need :=
  let e : Ent := c.surface.toNat
  if !e.inside (p.px, p.py, 0, 0) then {}
  else
    s.needVas die la.ctx (s.blockReads die la.ctx e (p.px / 8) (p.py / 8))
      (match s.planColour la die p c with | .ok (some (w, _)) => e.blockPieces w.bx w.y w.len | _ => [])

/-- Every earlier ticket of a post's pixel satisfies a test. -/
def Focus.clearBefore (f : Focus) (p : Post) (done : Post → Bool) : Bool :=
  f.posts.all fun q => decide (p.ticket ≤ q.ticket) || q.px != p.px || q.py != p.py || done q

/-- What asks for a die's colour and depth units in a draw: their port is that of texture, ray and colour (R221). -/
def Launch.asker (l : Launch) (die : Nat) (o : Owner) : Asker := { owner := o, die := die, port := 6, ctx := l.ctx, part := l.part }

/-- COLOUR_APPLY: the colour unit applies a posted entry in ticket order, once the banks and base dies have performed its requests
(R221, R244); one whose access fails is dropped (R292). -/
def execColourApply (l die ticket : Nat) (s : State) : Out :=
  .next <|
    match s.launch? l with
    | none => s
    | some la =>
      let f := la.focus die
      match f.posts.find? (·.ticket == ticket) with
      | none => s
      | some p =>
        match p.colour with
        | none => s
        | some c =>
          let applied (s : State) : State :=
            let s := s.updPost l die ticket fun p => { p with colour := none, colourDone := true }
            if s.colourOpen l c.op then s
            else { s with ops := s.ops.map fun (o : CountedOp) => if o.id = c.op then { o with ready := true } else o }
          if s.relocking die || !f.clearBefore p (·.colourDone) then s
          else
            match s.gate (la.asker die (.colour l die ticket)) (s.blendNeed la die p c) with
            | (s, false) => s
            | (s, true) =>
              match s.planColour la die p c with
              | .error a => applied (s.logUnit la c.grp die 0x0D a)
              | .ok none => applied s
              | .ok (some (w, reserved)) => applied (s.drawn.applyColour la die c w reserved)

/-! ### `zcmp` and the depth unit -/

/-- A depth tensor (R293). -/
def Ent.isDepth (e : Ent) : Bool := e.valid && e.baseOk && e.fmt == 0x11 && e.rank == 2 && decide (2 ≤ e.loc)

/-- The fields of a lane's depth post. -/
def zcmpLane (f : FZcmp) (tensor : Nat) (x : State × Group) (l : Nat) : State × Group :=
  let (s, g) := x
  match s.groupLaunch? g, AMap.get? g.items l with
  | some la, some it =>
    match it.ticket with
    | none => (s, g)
    | some t =>
      let d : DepthPost :=
        { cond := f.cond.toNat, z := (readSrc g l [] 12 f.a).truncate 32, wr := f.wr, tensor := BitVec.ofNat 512 tensor
          grp := g.id, lane := l, pd := f.pd.toNat }
      let s := s.updPost la.id t.die t.num fun p => { p with depth := some d }
      let t' : Ticket := { t with dres := true }
      (s, { g with items := AMap.set g.items l { it with ticket := some t' } })
  | _, _ => (s, g)

/-- `zcmp` (R293): it parks until every lane's result is written. Where some lanes trap the others post all the same (R344; log
23). The accesses of its items come before those of the depth unit (R326, R330). -/
def execZcmp (h : Head) (f : FZcmp) (s : State) : Out :=
  issue (.zcmp h f) s fun u =>
    if u.accessesOpen then u.s else
    let bad := Mask.ofPred fun l => u.ex.has l &&
      (match u.s.ticketOf u.g l with | some t => t.dres || t.cres | none => true)
    let t := (u.g.getS f.st.toNat).toNat % 256
    let e := u.s.ent u.ctx t
    match u.pixelTrap bad t (Ent.isDepth e) with
    | some a =>
      let (s, g) := (u.ex &&& ~~~a.tmask).toList.foldl (zcmpLane f e) (u.s, u.g)
      if a.tmask = u.ex then u.trap a else { u with s := s }.trapAfter g a
    | none =>
      if u.ex = 0 then u.finish u.g
      else
      let (s, g) := u.ex.toList.foldl (zcmpLane f e) (u.s, u.g)
      { u with s := s }.park g (.zcmp u.toClose)

/-- A depth comparison (R293). -/
def depthCond (cond z d : Nat) : Bool :=
  let x := fp32.unpack z
  let y := fp32.unpack d
  if x.isNan || y.isNan then cond == 7
  else
    match cond with
    | 0 => false
    | 1 => x.ltNum y
    | 2 => x.eqNum y
    | 3 => x.ltNum y || x.eqNum y
    | 4 => y.ltNum x
    | 5 => !x.eqNum y
    | 6 => y.ltNum x || x.eqNum y
    | _ => true

/-- Address of the depth value that a post compares with: none for a helper or a pixel outside the tensor (R293). -/
def Post.depthVa (p : Post) (d : DepthPost) : Option Nat :=
  let e : Ent := d.tensor.toNat
  if p.helper || !e.inside (p.px, p.py, 0, 0) then none
  else some (e.bitAddr (p.px, p.py, 0, 0) / 8 % 2 ^ 56)

/-- One depth operation at an address: the state and whether it passes; false where an access fails, which is logged (R293, R292). -/
def State.applyDepth (s : State) (la : Launch) (die va : Nat) (d : DepthPost) : State × Bool :=
  let fail : State × Bool := (s.logUnit la d.grp die 0x0D va, false)
  match s.readVa die la.ctx va 4 with
  | none => fail
  | some old =>
    if !depthCond d.cond d.z.toNat old then (s, false)
    else if !d.wr then (s, true)
    else
      match s.writeVa die la.ctx va 4 d.z.toNat with
      | (s, true) => (s, true)
      | (_, false) => fail

/-- The depth operation at an address writes. -/
def State.depthWrites (s : State) (la : Launch) (die va : Nat) (d : DepthPost) : Bool :=
  d.wr && ((s.readVa die la.ctx va 4).map fun old => depthCond d.cond d.z.toNat old).getD false

/-- DEPTH_APPLY: the depth unit applies a `zcmp` lane in ticket order (R293). -/
def execDepthApply (l die ticket : Nat) (s : State) : Out :=
  .next <|
    match s.launch? l with
    | none => s
    | some la =>
      let f := la.focus die
      match f.posts.find? (·.ticket == ticket) with
      | none => s
      | some p =>
        match p.depth with
        | none => s
        | some d =>
          let applied (x : State × Bool) : State :=
            let s := x.1.updPost l die ticket fun p => { p with depth := none, depthDone := true }
            s.updGroup d.grp fun g => g.setPat false d.pd d.lane x.2
          if s.relocking die || !f.clearBefore p (·.depthDone) then s
          else
            match p.depthVa d with
            | none => applied (s, false)
            | some va =>
              match s.gate (la.asker die (.depth l die ticket))
                  (s.needVas die la.ctx [(va, 4)] (if s.depthWrites la die va d then [(va, 4)] else [])) with
              | (s, false) => s
              | (s, true) => applied (s.applyDepth la die va d)

/-- A lane's depth result is still to come (R293). -/
def State.depthOpen (s : State) (g : Group) (m : Mask) : Bool :=
  match s.groupLaunch? g with
  | some la => la.draw.any fun f => f.posts.any fun p =>
      match p.depth with | some d => d.grp == g.id && m.has d.lane | none => false
  | none => false

/-! ### `cclr` and `cdec` (R294) -/

/-- Blocks of a box that lie in a surface, in row order. -/
def boxBlocks (e : Ent) (b : Nat) : List (Nat × Nat) :=
  let x0 := bits b 15 0
  let y0 := bits b 31 16
  let w := Nat.min (bits b 47 32) (e.dim 0 / 8 - x0)
  let h := Nat.min (bits b 63 48) (e.dim 1 / 8 - y0)
  (List.range h).flatMap fun y => (List.range w).map fun x => (x0 + x, y0 + y)

/-- Set the mode bytes of blocks to fast-cleared, until one fails. -/
def State.clearBlocks (s : State) (die ctx : Nat) (e : Ent) : List (Nat × Nat) → State × Option Nat
  | [] => (s, none)
  | (x, y) :: t =>
    match s.writeVa die ctx (e.modeVa x y) 1 0x40 with
    | (s, true) => s.clearBlocks die ctx e t
    | (_, false) => (s, some (e.modeVa x y))

/-- Decompress blocks until one fails; addresses of the mode bytes of reserved ones. -/
def State.decodeBlocks (s : State) (die ctx : Nat) (e : Ent) : List (Nat × Nat) → State × Option Nat × List Nat
  | [] => (s, none, [])
  | (x, y) :: t =>
    match s.readBlock die ctx e x y with
    | .error a => (s, some a, [])
    | .ok (.plain, _) => s.decodeBlocks die ctx e t
    | .ok (.reserved, _) =>
      let r := s.decodeBlocks die ctx e t
      (r.1, r.2.1, e.modeVa x y :: r.2.2)
    | .ok (_, ps) =>
      match s.writeBlock die ctx e { bx := x, y := y, mode := 0, len := 256, v := joinElems 32 ps } with
      | (s, some a) => (s, some a, [])
      | (s, none) => s.decodeBlocks die ctx e t

/-- Addresses that `cclr` or `cdec` writes: the mode bytes, and the stores of the blocks that are decompressed. -/
def State.boxWrites (s : State) (die ctx : Nat) (e : Ent) (dec : Bool) (bs : List (Nat × Nat)) : List (Nat × Nat) :=
  bs.flatMap fun b =>
    if !dec then [(e.modeVa b.1 b.2, 1)]
    else
      match (s.readVa die ctx (e.modeVa b.1 b.2) 1).map blockMode with
      | some .cleared => e.blockPieces b.1 b.2 256
      | some (.delta _) => e.blockPieces b.1 b.2 256
      | _ => []

/-- What `cclr` or `cdec` reads and writes of the boxes' blocks (R244, R252, R253, R380). -/
def State.boxNeed (s : State) (die ctx : Nat) (e : Ent) (dec : Bool) (bs : List (Nat × Nat)) : Need :=
  s.needVas die ctx (if dec then bs.flatMap fun b => s.blockReads die ctx e b.1 b.2 else []) (s.boxWrites die ctx e dec bs)

/-- Issue `cclr` or `cdec`: the colour unit acts when the sequence issues, after the accesses of its items, which come before every access
of the command (R326, R330), and the counted operation then completes. -/
def boxSeq (i : Instr) (f : FCclr) (dec : Bool) (s : State) : Out :=
  issue i s fun u =>
    let t := (u.g.getS f.st.toNat).toNat % 256
    let e := u.s.ent u.ctx t
    if !Ent.isSurface e then u.badTensor t
    else if 63 ≤ u.s.counter u.g.id f.cc.toNat || u.accessesOpen then u.s
    else
      let bs := boxBlocks e (u.g.getS f.sb.toNat).toNat
      match u.s.gate
          { owner := .box u.g.id, die := u.g.die, cluster := u.g.cluster, port := 6, ctx := u.ctx, part := u.s.groupPart u.g }
          (u.s.boxNeed u.g.die u.ctx e dec bs) with
      | (s, false) => s
      | (s, true) =>
      let (s, bad, rs) :=
        if dec then s.decodeBlocks u.g.die u.ctx e bs
        else let r := s.clearBlocks u.g.die u.ctx e bs; (r.1, r.2, [])
      let s := rs.foldl (fun (s : State) a => s.logGroup u.g 0x0A 0 0 a 0) s
      let s := match bad with | some a => s.logGroup u.g 0x0D 0 0 a 0 | none => s
      let o : CountedOp := { id := s.next, grp := u.g.id, ctr := f.cc.toNat, cc := f.cc.toNat, lanes := u.e.mask, pc := u.e.pc }
      { u with s := (s.addOp o).fresh }.finish u.g

/-- `cclr` (R294). -/
def execCclr (h : Head) (f : FCclr) (s : State) : Out := boxSeq (.cclr h f) f false s

/-- `cdec` (R294). -/
def execCdec (h : Head) (f : FCclr) (s : State) : Out := boxSeq (.cdec h f) f true s

end Sys2Proof.Machine
end

