-- ==== Sys2Proof/Machine/Texture.lean ====
section
/-! DEFINITION. Texture: `tex`, its samples, and `traceh` (spec 10 R296, R301). -/

namespace Sys2Proof.Machine

/-! ### Issuing lanes whose reads a meaning plans itself -/

/-- What a lane of a planned read does: its check, the accesses it makes, and what it does to the group at once. -/
structure LanePlan where
  lane : Nat
  plan : Plan
  accs : List Access := []
  now : Group → Group := id

/-- Send one access of an operation. -/
def Iss.sendAcc (u : Iss) (op lane : Nat) (s : State) (a : Access) : State :=
  let home := locHome u.g.die a.loc
  let a : Access := { a with
    id := s.next, op := op, grp := u.g.id, die := u.g.die, lane := lane, hnd := u.g.inHandler, pc := u.e.pc, home := home
    tag := if a.phase = .toHbm then s.freeTag home else 0, ctx := u.ctx, part := s.groupPart u.g, time := s.gtime
    clock := ((s.die? u.g.die).map (·.clock)).getD [] }
  let s := { s with accs := s.accs ++ [a], next := s.next + 1 }
  if a.size = 0 then s else s.cacheTouch u.g.die a.loc false 0

/-- Issue a counted read for the executing lanes (R228): `cc` its counter, `ws` the registers it writes, `addr` its operand
address in a lane (R372). -/
def Iss.runPlanned (u : Iss) (cc : Nat) (ws : List Nat) (addr : Nat → Nat) (plan : Nat → LanePlan) : State :=
  if u.ex = 0 then u.finish u.g
  else if 63 ≤ u.s.counter u.g.id (u.g.ctr cc) then u.s
  else if u.s.orderHolds u.g u.ex false then u.s
  else
    match u.s.regGate u.g ws with
    | .wait g => u.s.updGroup g.id fun _ => g
    | .limit => u.trap { cls := 5, tmask := u.ex }
    | .ok g =>
      let ps := u.ex.toList.map plan
      let waits := ps.filterMap fun x => match x.plan with | .wait ea => some ea | _ => none
      if waits ≠ [] then waits.foldl (fun s ea => s.requestWalk u.g.die u.g.cluster u.ctx ea (u.s.groupPart u.g)) u.s
      else
        let s := u.s.consumeWalks u.g.die u.g.cluster u.ctx
        let t := planTrap (ps.map fun x => (x.lane, x.plan))
        let good := ps.filter fun x => match x.plan with | .bad .. => false | _ => true
        let o : CountedOp :=
          { id := s.next, grp := u.g.id, ctr := if t.isSome then 8 else u.g.ctr cc, cc := u.g.opCc cc, dests := ws
            lanes := Mask.ofPred fun l => good.any (·.lane == l), addrs := good.map fun x => (x.lane, addr x.lane) }
        let s := if good = [] then s else (s.addOp (o.issuedBy u.e false)).fresh
        let s := good.foldl (fun s x => x.accs.foldl (u.sendAcc o.id x.lane) s) s
        let g := good.foldl (fun g x => x.now g) g
        match t with
        | some a => { u with s := s }.trapAfter g a
        | none => { u with s := s }.finish g

/-! ### Sampling (R296) -/

/-- An integer reduced to a texel index. -/
def texIndex (wrap : Bool) (n : Nat) (i : Int) : Nat :=
  if wrap then (i % (n : Int)).toNat else if i < 0 then 0 else if (n : Int) ≤ i then n - 1 else i.toNat

/-- Texel indices along one axis with weights out of 256; none where an infinite coordinate wraps, for which no rule states
an index (log 15). -/
def texAxis (filt wrap : Bool) (n : Nat) (c : Ext) : Option (List (Nat × Nat)) :=
  let at' (u : Int) : List (Nat × Nat) :=
    if filt then
      let x := 2 * u * (n : Int) - extOne
      let i := x / 2 ^ 150
      let r := (x % 2 ^ 150).toNat
      let q := r / 2 ^ 142
      let h := r % 2 ^ 142
      let f := if 2 ^ 141 < h ∨ (h = 2 ^ 141 ∧ q % 2 = 1) then q + 1 else q
      [(texIndex wrap n i, 256 - f), (texIndex wrap n (i + 1), f)]
    else [(texIndex wrap n (u * (n : Int) / extOne), 256)]
  match c with
  | .nan => some (at' 0)
  | .fin u => some (at' u)
  | .inf neg => if wrap then none else some [(if neg then 0 else n - 1, 256)]

/-- Texels of a sample with weights out of 65536. -/
def texels (e : Ent) (u v : BitVec 32) (filt wrap : Bool) : Option (List (Nat × Nat × Nat)) :=
  match texAxis filt wrap (e.dim 0) (extOf u.toNat),
      (if e.rank = 1 then some [(0, 256)] else texAxis filt wrap (e.dim 1) (extOf v.toNat)) with
  | some xs, some ys => some (ys.flatMap fun y => xs.map fun x => (x.1, y.1, x.2 * y.2))
  | _, _ => none

/-- Weighted sum of floating texels, rounded once: none where an infinity or a NaN has weight 0 (log 15). -/
def texSum (t : Nat) (ws : List (Nat × Nat)) : Option Nat :=
  let r : Rnd := { t := t, rm := 0, ftz := 0 }
  let vs := ws.map fun x => (readFV 0 t x.1, x.2)
  let odd := vs.any fun x => x.2 == 0 && (match x.1 with | .fin .. => false | _ => true)
  if odd then none
  else
    let parts := (vs.filter (·.2 ≠ 0)).map fun x => match x.1 with | .fin n m e => FV.fin n (m * x.2) e | y => y
    some (match foldl1 (fun (a b : FV) => (a.addExact b).1) (.fin false 0 0) parts with
      | .fin n m e => if m = 0 then (r.zero n).bits else (r.go n m (e - 16)).bits
      | .inf n => (r.inf n).bits
      | .nan _ => r.fmt.nanBits)

/-- The result of a sample: texel patterns with their weights (R296). -/
def texResult (fmt : Nat) (ws : List (Nat × Nat)) : Option Word :=
  let unorm (c : Nat) : Nat := ratRound 13 ((ws.map fun x => x.2 * chan x.1 c).sum : Nat) (65536 * 255)
  match fmt with
  | 0x10 => some (BitVec.ofNat 64 (joinElems 16 ((List.range 4).map unorm)))
  | 0x0C => some (BitVec.ofNat 64 (joinElems 16 [unorm 0, 0, 0, 0x3C00]))
  | 0x03 => (texSum 13 ws).map fun x => BitVec.ofNat 64 (joinElems 16 [x, 0, 0, 0x3C00])
  | _ => (texSum 12 ws).map fun x => BitVec.ofNat 64 x

/-! ### Where the bytes lie -/

/-- Check and translate one address of a tensor, for a row coordinate (R25, R219, R254). -/
def State.texByte (s : State) (g : Group) (e : Ent) (c1 va n : Nat) : Plan :=
  let ctx := s.groupCtx g
  match winOf va with
  | .translated =>
    match s.xlate g.die g.cluster ctx va .read with
    | .ok pa tgt => .go va pa tgt none
    | .fault c => .bad 8 c va
    | .wait => .wait va
  | _ =>
    match (s.gang? g.gang).bind fun ga => s.windowLoc ga ctx va n with
    | some loc => .go va (loc - loc % 2 ^ 20 + rotate (loc % 2 ^ 20) e.rot c1) 0 none
    | none => .bad 9 0 va

/-- Addresses a texel's read touches, each with its row coordinate and byte count: the mode byte of a block and, unless the
block is cleared, its store; or the element's bytes. -/
def State.texelVas (s : State) (g : Group) (e : Ent) (x y : Nat) : List (Nat × Nat × Nat) :=
  if Ent.isSurface e then
    let m := e.modeVa (x / 8) (y / 8)
    let cleared := s.readVa g.die (s.groupCtx g) m 1 == some 0x40
    (0, m, 1) :: (if cleared then [] else (List.range 16).map fun i => (0, e.pieceVa (x / 8) (y / 8) i, 16))
  else (e.bytesOf (x, y, 0, 0)).map fun a => (y, a % 2 ^ 56, 1)

/-- The plan of a list of addresses: the first that cannot be read, or the span of their locations and a target. -/
def spanPlan (va : Nat) : List (Plan × Nat) → Plan × Nat × Nat
  | [] => (.go va 0 0 none, 0, 0)
  | (.go a loc tgt r, n) :: t =>
    match spanPlan va t with
    | (.go _ _ _ _, lo, hi) =>
      if hi = 0 then (.go a loc tgt r, loc, loc + n) else (.go a loc tgt r, Nat.min lo loc, Nat.max hi (loc + n))
    | p => p
  | (p, _) :: _ => (p, 0, 0)

/-- The plan of a lane of `tex`. -/
def Iss.texLane (u : Iss) (f : FTex) (e : Ent) (l : Nat) : LanePlan :=
  let w := u.g.getV f.vc.toNat l
  let x : BitVec 32 := w.truncate 32
  let y : BitVec 32 := (w >>> 32).truncate 32
  let ts := (texels e x y f.filt f.wrap).getD []
  let vas := ts.flatMap fun t => u.s.texelVas u.g e t.1 t.2.1
  let (p, lo, hi) := spanPlan (e.base % 2 ^ 56) (vas.map fun v => (u.s.texByte u.g e v.1 v.2.1 v.2.2, v.2.2))
  match p with
  | .go ea _ tgt _ =>
    if ts = [] then
      { lane := l, plan := .skip e.base, now := fun g => g.setV f.d.toNat l (Config.unstated u.s.draw 0 l) }
    else
      let k := AccKind.tex (BitVec.ofNat 512 e) x y f.filt f.wrap
      { lane := l, plan := p
        accs := [{ id := 0, op := 0, grp := 0, die := 0, lane := l, kind := k, va := ea, loc := lo, size := hi - lo
                   d := f.d.toNat, phase := firstPhase u.g.die k lo tgt }] }
  | p => { lane := l, plan := p }

/-- A tensor that `tex` samples (R296). -/
def Ent.isTexture (e : Ent) : Bool :=
  e.valid && e.baseOk && decide (e.rank ≤ 2) &&
    (e.fmt == 0x10 || e.fmt == 2 || e.fmt == 3 || e.fmt == 0x0C || e.fmt == 0x11)

/-- `tex` (R296). -/
def execTex (h : Head) (f : FTex) (s : State) : Out :=
  issue (.tex h f) s fun u =>
    let t := (u.g.getS f.st.toNat).toNat % 256
    let e := u.s.ent u.ctx t
    if u.ex = 0 then u.finish u.g
    else if !Ent.isTexture e then u.trap { cls := 6, info := t, tmask := u.ex }
    else { u with s := { u.s with draw := u.s.draw + 32 } }.runPlanned f.cc.toNat [f.d.toNat] (fun _ => e.base) (u.texLane f e)

/-! ### Performing a sample -/

/-- One texel's pattern, with the mode byte's address of a reserved block; an uncorrectable error, or bytes that are no longer
mapped. -/
def State.readTexel (s : State) (ga : Gang) (ctx : Nat) (e : Ent) (x y : Nat) : ERead × Option Nat :=
  if Ent.isSurface e then
    match s.readBlock ga.die ctx e (x / 8) (y / 8) with
    | .ok (m, ps) =>
      (.val (ps.getD (8 * (y % 8) + x % 8) 0), if m = .reserved then some (e.modeVa (x / 8) (y / 8)) else none)
    | .error a =>
      match s.xlateNow ga.die ctx a .read with
      | .ok .. => (.poison a, none)
      | _ => (.fail false 0 a, none)
  else (s.readElemAt ga ctx e (x, y, 0, 0), none)

/-- A `tex` lane reads its texels and forms its sample (R296). Where no rule states a value, or a page was unmapped after the
issue, the value is free (log 15). -/
def State.sampleAcc (s : State) (a : Access) (d : BitVec 512) (u v : BitVec 32) (filt wrap : Bool) : State :=
  match s.group? a.grp with
  | none => s
  | some g =>
    match s.gang? g.gang with
    | none => s
    | some ga =>
      let e : Ent := d.toNat
      let ctx := s.groupCtx g
      let ts := (texels e u v filt wrap).getD []
      let rs := ts.map fun t => (s.readTexel ga ctx e t.1 t.2.1, t.2.2)
      let s := ((rs.filterMap (·.1.2)).dedup).foldl (fun (s : State) m => s.logGroup g 0x0A 0 0 m 0) s
      let bad := rs.filterMap fun r => match r.1.1 with | .poison va => some va | _ => none
      if bad ≠ [] then (bad.foldl (fun (s : State) va => s.noteErrorVa ga.die ctx va) s).badDone a
      else
        let lost := rs.any fun r => match r.1.1 with | .fail .. => true | _ => false
        let x := if lost then none else texResult e.fmt (rs.map fun r => (r.1.1.get, r.2))
        s.drawn.finishAcc a { vals := [(a.d, x.getD (Config.unstated s.draw 0 0))] }

/-- Any access acts at its location. -/
def State.actAny (s : State) (a : Access) : State :=
  match a.kind with
  | .tex d u v filt wrap => s.sampleAcc a d u v filt wrap
  | _ => s.actAt a

/-! ### `traceh` (R301) -/

/-- The access of one 8-byte half of a record's read. -/
def halfForm : AccForm := { kind := .load false, size := 8, use := .read, d := 0, a := .const 0, off := 0, cc := 0 }

/-- The plan of a lane of `traceh`. -/
def Iss.tracehLane (u : Iss) (f : FTraceh) (l : Nat) : LanePlan :=
  let hd := bits (u.g.getV f.vh.toNat l).toNat 63 32
  let d := f.d.toNat
  let a := ((u.g.getS f.sb.toNat).toNat + 16 * hd + 16 * f.w.toNat) % 2 ^ 56
  if 0xFFFFFFFE ≤ hd then { lane := l, plan := .skip a, now := fun g => (g.setV d l 0).setV (d + 1) l 0 }
  else
    let half (k : Nat) : Plan := u.s.planAddr u.g halfForm false ((a + 8 * k) % 2 ^ 56)
    let acc (k ea loc tgt : Nat) : Access :=
      { id := 0, op := 0, grp := 0, die := 0, lane := l, kind := .load false, va := ea, loc := loc, size := 8, d := d + k
        phase := firstPhase u.g.die (.load false) loc tgt }
    match half 0, half 1 with
    | .go ea loc tgt r, .go eb locb tgtb _ => { lane := l, plan := .go ea loc tgt r, accs := [acc 0 ea loc tgt, acc 1 eb locb tgtb] }
    | .go .., p => { lane := l, plan := p }
    | p, _ => { lane := l, plan := p }

/-- `traceh` (R301). -/
def execTraceh (h : Head) (f : FTraceh) (s : State) : Out :=
  issue (.traceh h f) s fun u =>
    let addr (l : Nat) : Nat := (u.g.getS f.sb.toNat).toNat + 16 * bits (u.g.getV f.vh.toNat l).toNat 63 32
    u.runPlanned f.cc.toNat [f.d.toNat, f.d.toNat + 1] addr (u.tracehLane f)

end Sys2Proof.Machine
end

