-- ==== Sys2Proof/Machine/Ray.lean ====
section
/-! DEFINITION. Ray: `trace` and the ray units (spec 10 R297-R302). The ray unit's step leaves the state as it is where its
condition does not hold. -/

namespace Sys2Proof.Machine

/-! ### Rays and boxes (R297, R299) -/

/-- A ray: origin, direction and interval, as multiples of 2^-149; an end of the interval may be infinite. -/
structure Ray where
  o : Int × Int × Int
  d : Int × Int × Int
  tmin : Option Int
  tmax : Option Int
  deriving DecidableEq, Repr

/-- Read the eight values in register order: ox, oy, oz, tmin, dx, dy, dz, tmax (R300). None is a miss: a NaN, a zero direction, an
empty interval, or an infinite origin or direction, for which no exact solution of R299 exists. -/
def rayOf (r : List (BitVec 32)) : Option Ray :=
  let v (i : Nat) : Ext := extOf (r.getD i 0).toNat
  let all := (List.range 8).map v
  if all.any (· == .nan) then none
  else if v 4 == .fin 0 && v 5 == .fin 0 && v 6 == .fin 0 then none
  else if v 3 == .inf false || v 7 == .inf true then none
  else if [0, 1, 2, 4, 5, 6].any fun i => !(v i).isFin then none
  else
    let tmin := match v 3 with | .fin n => some n | _ => none
    let tmax := match v 7 with | .fin n => some n | _ => none
    let empty := match tmin, tmax with | some a, some b => decide (b < a) | _, _ => false
    if empty then none
    else some { o := ((v 0).int, (v 1).int, (v 2).int), d := ((v 4).int, (v 5).int, (v 6).int), tmin := tmin, tmax := tmax }

/-- A fraction with a positive denominator. -/
abbrev Frac := Int × Int

/-- The fraction a / b, b not zero. -/
def mkFrac (a b : Int) : Frac := if b < 0 then (-a, -b) else (a, b)

def Frac.le (x y : Frac) : Bool := decide (x.1 * y.2 ≤ y.1 * x.2)
def Frac.lt (x y : Frac) : Bool := decide (x.1 * y.2 < y.1 * x.2)

/-- Bounds that one axis of a box sets on t: lower and upper, or whether a parallel ray lies within (R299). -/
def axisSlab (o d lo hi : Int) : Option (Frac × Frac) × Bool :=
  if d = 0 then (none, decide (lo ≤ o) && decide (o ≤ hi))
  else
    let a := mkFrac (lo - o) d
    let b := mkFrac (hi - o) d
    (some (if a.le b then (a, b) else (b, a)), decide (lo ≤ hi))

/-- Lower and upper bound of child `i`'s box on axis `a` (R297): none for a NaN or an infinite origin. -/
def boxBound (node i a : Nat) : Option (Int × Int) :=
  let e := bits node (96 + 8 * a + 7) (96 + 8 * a)
  let box := bits node (224 + 48 * i + 47) (224 + 48 * i)
  match extOf (bits node (32 * a + 31) (32 * a)) with
  | .fin n =>
    if e = 255 then none
    else
      let step : Int := 2 ^ (e + 22)
      some (n + (bits box (8 * a + 7) (8 * a) : Nat) * step, n + (bits box (8 * a + 31) (8 * a + 24) : Nat) * step)
  | _ => none

/-- The ray meets child `i`'s box (R299). -/
def Ray.meets (r : Ray) (node i : Nat) : Bool :=
  match boxBound node i 0, boxBound node i 1, boxBound node i 2 with
  | some x, some y, some z =>
    let ss := [axisSlab r.o.1 r.d.1 x.1 x.2, axisSlab r.o.2.1 r.d.2.1 y.1 y.2, axisSlab r.o.2.2 r.d.2.2 z.1 z.2]
    let lows := (r.tmin.map fun n => (n, extOne)).toList ++ ss.filterMap fun s => s.1.map (·.1)
    let highs := (r.tmax.map fun n => (n, extOne)).toList ++ ss.filterMap fun s => s.1.map (·.2)
    ss.all (·.2) && lows.all fun l => highs.all fun h => Frac.le l h
  | _, _, _ => false

/-! ### Triangles (R298, R299) -/

/-- Vector operations on exact triples. -/
def vsub (a b : Int × Int × Int) : Int × Int × Int := (a.1 - b.1, a.2.1 - b.2.1, a.2.2 - b.2.2)
def vdot (a b : Int × Int × Int) : Int := a.1 * b.1 + a.2.1 * b.2.1 + a.2.2 * b.2.2
def vcross (a b : Int × Int × Int) : Int × Int × Int :=
  (a.2.1 * b.2.2 - a.2.2 * b.2.1, a.2.2 * b.1 - a.1 * b.2.2, a.1 * b.2.1 - a.2.1 * b.1)

/-- Vertex `i` of a record: none unless finite. -/
def recVert (rec i : Nat) : Option (Int × Int × Int) :=
  match extOf (bits rec (96 * i + 31) (96 * i)), extOf (bits rec (96 * i + 63) (96 * i + 32)),
      extOf (bits rec (96 * i + 95) (96 * i + 64)) with
  | .fin x, .fin y, .fin z => some (x, y, z)
  | _, _, _ => none

/-- A hit: t, u, v as exact fractions, and the record's place in 16-byte units. -/
structure RayHit where
  t : Frac
  u : Frac
  v : Frac
  handle : Nat
  deriving DecidableEq, Repr

/-- Test a triangle record (R299). -/
def Ray.test (r : Ray) (cull : Bool) (rec handle : Nat) : Option RayHit :=
  match recVert rec 0, recVert rec 1, recVert rec 2 with
  | some v0, some v1, some v2 =>
    let e1 := vsub v1 v0
    let e2 := vsub v2 v0
    let p := vcross r.d e2
    let det := vdot p e1
    if det = 0 ∨ (cull ∧ !bit rec 320 ∧ det < 0) then none
    else
      let s := vsub r.o v0
      let q := vcross s e1
      let u := mkFrac (vdot s p) det
      let v := mkFrac (vdot r.d q) det
      let t := mkFrac (vdot e2 q) det
      let inT := (match r.tmin with | some n => Frac.le (n, extOne) t | none => true) &&
        (match r.tmax with | some n => t.le (n, extOne) | none => true)
      if 0 ≤ u.1 ∧ 0 ≤ v.1 ∧ u.1 + v.1 ≤ u.2 ∧ inT then some { t := t, u := u, v := v, handle := handle } else none
  | _, _, _ => none

/-! ### Traversal -/

/-- Where the ray unit reads, and for which access. -/
structure RayCtx where
  g : Group
  ctx : Nat
  base : Nat
  acc : Nat

/-- Why a traversal cannot go on: an address that cannot be read, or 0, which ends it (R302), or something it waits for. -/
inductive RayStop where
  | fail (a : Nat)
  | need (n : Need)

/-- Read bytes at a location through a target, once the ray unit's requests for them have been performed (R221, R244). -/
def State.rayBytes (s : State) (c : RayCtx) (va loc tgt n : Nat) : Except RayStop Nat :=
  let bs := if tgt = 0 then bytesFrom loc n else []
  if s.linkHeld c.g.die loc tgt then .error (.need { stalled := true })
  else if !s.answered (.ray c.acc) false (spansOf bs) then .error (.need { reads := bs })
  else if s.badTgt tgt loc n then .error (.fail va)
  else .ok (s.rdTgt tgt loc va n)

/-- Read an aligned block of at most 64 bytes (R302). -/
def State.rayRead (s : State) (c : RayCtx) (off n : Nat) : Except RayStop Nat :=
  let va := (c.base + off) % 2 ^ 56
  match winOf va with
  | .translated =>
    if !s.translated c.g.die c.ctx va then .error (.need { vas := [va] })
    else
      match s.xlateNow c.g.die c.ctx va .read with
      | .ok pa tgt => s.rayBytes c va pa tgt n
      | _ => .error (.fail va)
  | _ =>
    match (s.gang? c.g.gang).bind fun ga => s.windowLoc ga c.ctx va n with
    | some loc => s.rayBytes c va loc 0 n
    | none => .error (.fail va)

/-- Read a triangle record in its three 16-byte parts. -/
def State.rayRecord (s : State) (c : RayCtx) (unit : Nat) : Except RayStop Nat :=
  match s.rayRead c (16 * unit) 16, s.rayRead c (16 * unit + 16) 16, s.rayRead c (16 * unit + 32) 16 with
  | .ok a, .ok b, .ok d => .ok (a + 2 ^ 128 * b + 2 ^ 256 * d)
  | .error a, _, _ => .error a
  | _, .error a, _ => .error a
  | _, _, .error a => .error a

/-- Test `n` records from a unit upward. -/
def State.rayLeaf (s : State) (c : RayCtx) (r : Ray) (cull : Bool) : Nat → Nat → Except RayStop (List RayHit)
  | 0, _ => .ok []
  | n + 1, unit =>
    match s.rayRecord c unit with
    | .error a => .error a
    | .ok rec => (s.rayLeaf c r cull n (unit + 3)).map fun hs => (r.test cull rec unit).toList ++ hs

/-- META of a child: its kind and count. -/
def nodeMeta (node i : Nat) : Nat × Nat := (bits node (192 + 8 * i + 7) (192 + 8 * i + 6), bits node (192 + 8 * i + 5) (192 + 8 * i))

/-- The children of a node from `i`, `k` of them, with the internal children and triangles below: nodes to visit and hits. -/
def State.rayChildren (s : State) (c : RayCtx) (r : Ray) (cull : Bool) (node : Nat) :
    Nat → Nat → Nat → Nat → Except RayStop (List Nat × List RayHit)
  | 0, _, _, _ => .ok ([], [])
  | k + 1, i, inner, tris =>
    match nodeMeta node i with
    | (0, _) => s.rayChildren c r cull node k (i + 1) inner tris
    | (1, _) =>
      (s.rayChildren c r cull node k (i + 1) (inner + 1) tris).map fun x =>
        (if r.meets node i then (bits node 159 128 + inner) :: x.1 else x.1, x.2)
    | (2, n) =>
      let own := if r.meets node i then s.rayLeaf c r cull n (bits node 191 160 + 3 * tris) else .ok []
      match own with
      | .error a => .error a
      | .ok hs => (s.rayChildren c r cull node k (i + 1) inner (tris + n)).map fun x => (x.1, hs ++ x.2)
    | _ => .error (.fail 0)

/-- Visit the nodes of a list, `fuel` of them at most (R302): every hit. -/
def State.rayWalk (s : State) (c : RayCtx) (r : Ray) (cull : Bool) : Nat → List Nat → Except RayStop (List RayHit)
  | _, [] => .ok []
  | 0, _ => .error (.fail 0)
  | fuel + 1, n :: rest =>
    match s.rayRead c (64 * n) 64 with
    | .error a => .error a
    | .ok node =>
      match s.rayChildren c r cull node 4 0 0 0 with
      | .error a => .error a
      | .ok (ns, hs) => (s.rayWalk c r cull fuel (ns ++ rest)).map (hs ++ ·)

/-- The closest hit: least t, then lowest record address (R299). -/
def closestHit (hs : List RayHit) : Option RayHit :=
  hs.foldl (fun (best : Option RayHit) h =>
    match best with
    | none => some h
    | some b => if h.t.lt b.t || (h.t.le b.t && decide (h.handle < b.handle)) then some h else some b) none

/-- The result words of a traversal, the hit's place, and the address to log (R300). -/
structure RayOut where
  lo : Word
  hi : Word
  handle : Option Nat := none
  log : Option Nat := none

/-- Result of a miss. -/
def rayMiss : RayOut := { lo := pair32 0x7F800000 0xFFFFFFFF, hi := 0 }

/-- Result of an error at an address, or at none. -/
def rayErr (a : Nat) : RayOut := { lo := pair32 0x7FC00000 0xFFFFFFFE, hi := 0, log := some a }

/-- Result of a hit. -/
def RayHit.out (h : RayHit) : RayOut :=
  { lo := pair32 (ratF32 h.t.1 h.t.2) (h.handle % 2 ^ 32), hi := pair32 (ratF32 h.u.1 h.u.2) (ratF32 h.v.1 h.v.2)
    handle := some h.handle }

/-- A whole traversal for an access (R299, R302), or what it waits for. A base that is not 64-byte aligned is an address fault of the
traversal. -/
def State.traverse (s : State) (acc : Nat) (g : Group) (mode base : Nat) (r : List (BitVec 32)) : Except Need RayOut :=
  match rayOf r with
  | none => .ok rayMiss
  | some r =>
    if base % 64 ≠ 0 then .ok (rayErr (base % 2 ^ 56))
    else
      match s.rayWalk { g := g, ctx := s.groupCtx g, base := base, acc := acc } r (decide (2 ≤ mode)) (2 ^ 20) [0] with
      | .error (.need n) => .error n
      | .error (.fail a) => .ok (rayErr a)
      | .ok hs =>
        let hit := if mode % 2 = 1 then hs[Config.anyHit s.draw % hs.length]? else closestHit hs
        match hit with
        | some h => .ok h.out
        | none => .ok rayMiss

/-- What asks for a traversal. -/
def State.rayAsker (s : State) (g : Group) (acc : Nat) : Asker :=
  { owner := .ray acc, die := g.die, cluster := g.cluster, port := 6, ctx := s.groupCtx g, part := s.groupPart g }

/-- The requests of a traversal and the walks it used are over; its reads went through the die cache (R232). -/
def State.rayOver (s : State) (g : Group) (acc : Nat) : State :=
  let s := s.unitTouch g.die 0 false ((s.reqs.filter fun (r : UnitReq) => r.owner == .ray acc).map (·.loc))
  (s.endReqs (.ray acc)).consumeWalks g.die dieUnits (s.groupCtx g)

/-- Earlier accesses of the lane that change memory have not acted (R302). -/
def State.rayHeld (s : State) (a : Access) : Bool :=
  s.accs.any fun b => b.grp == a.grp && b.lane == a.lane && decide (b.id < a.id) && b.kind.writes && b.unperformed

/-- RAY_TRAVERSAL_END: the ray unit asks for the next bytes of a traversal, or finishes it and writes its result (R300). The operand address of a hit is its
record's (R372). -/
def execRayTraversalEnd (acc : Nat) (s : State) : Out :=
  .next <|
    match s.accs.find? fun a => a.id == acc && a.phase == .traversing with
    | none => s
    | some a =>
      match a.kind, s.group? a.grp with
      | .ray mode base r, some g =>
        if s.rayHeld a || s.relocking a.die then s
        else
          match s.traverse a.id g mode base r with
          | .error n => (s.gate (s.rayAsker g a.id) n).1
          | .ok o =>
            let s := { s.rayOver g a.id with draw := s.draw + 2 }
            let s := match o.log with | some x => (s.noteErrorVa g.die (s.groupCtx g) x).logGroup g 0x0B 0 0 x 0 | none => s
            let addr := match o.handle with | some h => base + 16 * h | none => base
            let s := { s with
              lastOp := s.lastOp.map fun (x : Nat × Nat × Nat) =>
                if x.2.1 = a.op ∧ x.1 % 128 / 4 = a.lane ∧ a.dst = Dst.lane then (x.1, x.2.1, addr) else x
              conts := s.conts.map fun (c : Cont) => if a.dst = Dst.record c.id ∧ c.awaited = a.op then { c with addr := addr } else c }
            (s.writeResult a { vals := [(a.d, o.lo), (a.d + 1, o.hi)] }).dropAcc acc
      | _, _ => s

/-- `trace` (R300): it always issues; its faults are those of the traversal. -/
def execTrace (h : Head) (f : FTrace) (s : State) : Out :=
  issue (.trace h f) s fun u =>
    let base := (u.g.getS f.sb.toNat).toNat
    let vals (l : Nat) : List (BitVec 32) := (List.range 4).flatMap fun k =>
      let w := u.g.getV (f.vr.toNat + k) l
      [w.truncate 32, (w >>> 32).truncate 32]
    u.runPlanned f.cc.toNat [f.vh.toNat, f.vh.toNat + 1] (fun _ => base) fun l =>
      { lane := l, plan := .go (base % 2 ^ 56) 0 0 none
        accs := [{ id := 0, op := 0, grp := 0, die := 0, lane := l, kind := .ray f.mode.toNat base (vals l), va := base % 2 ^ 56
                   loc := 0, size := 0, d := f.vh.toNat, phase := .traversing }] }

end Sys2Proof.Machine
end

