-- ==== Sys2Proof/Machine/Retire.lean ====
section
/-! DEFINITION. Retire: `exit`, `await`, continuation records, and the retirement of groups and gangs (spec 14 R368-R378, spec 09
R259). A step whose condition does not hold leaves the state as it is. -/

namespace Sys2Proof.Machine

/-! ### A lane loses its item -/

/-- The registers, predicates and item of a lane go (R368, R370). -/
def Group.dropLane (g : Group) (l : Nat) : Group :=
  { g with v := g.v.filter fun x => x.1 % 32 ≠ l, p := AMap.erase g.p l, items := AMap.erase g.items l }

/-- What a lane's accesses become when its item goes: `f` gives the new destination of each. They stand for the lane no more:
lanes 32-63 are those of items gone. -/
def State.detach (s : State) (g : Group) (l : Nat) (f : Access → Dst) : State :=
  { s with accs := s.accs.map fun (a : Access) =>
      if a.grp = g.id ∧ a.lane = l ∧ !a.hnd then { a with lane := 32 + l, dst := f a } else a }

/-- A lane leaves the counted operations of its group; a delivery with no lane left goes (R351, R369). -/
def State.leaveOps (s : State) (g : Group) (l : Nat) : State :=
  let m := ~~~Mask.one l
  let ops := s.ops.map fun (o : CountedOp) =>
    if o.grp = g.id then { o with lanes := o.lanes &&& m, poisoned := o.poisoned &&& m } else o
  { s with
    ops := ops.filter fun (o : CountedOp) => !(o.grp == g.id && o.ctr == 9 && o.poisoned == 0)
    lastOp := s.lastOp.filter fun x => x.1 / 4 ≠ 32 * g.id + l }

/-- Deliveries of a group that still have a poisoned lane. -/
def State.liveDeliveries (s : State) (g : Group) : Group :=
  { g with deliver := g.deliver.filter fun d => s.ops.any fun o => o.id == d && o.poisoned != 0 }

/-- A lane that lost its item still awaits results that it discards (R368). -/
def State.leaving (s : State) (g : Group) (l : Nat) : Bool :=
  s.accs.any fun a => a.grp == g.id && a.lane == 32 + l && a.dst == .none &&
    (a.dregs != [] || (match a.kind with | .feq _ => true | _ => false))

/-- Lanes that hold no item and await nothing (R98, R368). -/
def State.emptyLanes (s : State) (g : Group) : List Nat :=
  lanes.filter fun l => (AMap.get? g.items l).isNone && !s.leaving g l

/-! ### `exit` (R368) -/

/-- One lane exits. -/
def exitLane (x : State × Group) (l : Nat) : State × Group :=
  let (s, g) := resolveTicket true (endTask x l) l
  let s := (s.detach g l fun _ => .none).leaveOps g l
  (s, s.liveDeliveries (g.dropLane l))

/-- `exit` (R368): a command held when the last live item exits is discarded (R259). -/
def execExit (h : Head) (s : State) : Out :=
  issue (.exit h) s fun u =>
    let bad := Mask.ofPred fun l => u.ex.has l && ((AMap.get? u.g.items l).map fun it => !it.members.isEmpty).getD false
    if bad ≠ 0 then u.trap { cls := 2, detail := 1, tmask := bad }
    else
      let (s, g) := u.ex.toList.foldl exitLane (u.s, u.g)
      ({ u with s := s }.finishWith g fun e => [e.fall (e.mask &&& ~~~u.ex) u.words]).updGroup u.g.id Group.orphanHead

/-! ### Continuation records (R370, R371) -/

/-- Facet of an operand address (R372). -/
def facet (a : Nat) : Nat := bits a 10 7 ^^^ bits a 14 11 ^^^ bits a 18 15 ^^^ bits a 22 19

/-- The words of a control-stack record, as word offsets from the kernel object base (R371). -/
def CRec.pack (base : Nat) : CRec → List Nat
  | .loop st fin l => [(st - base) / 4 % 2 ^ 30 + 2 ^ 30 * ((fin - base) / 4 % 2 ^ 30), l.toNat]
  | .call ret prio => [(ret - base) / 4 % 2 ^ 30 + 2 ^ 30 * (prio % 16)]

/-- Payload words of a record (R371). -/
def Cont.payload (c : Cont) (base : Nat) : List Nat :=
  [c.addr] ++ (c.item.members.map fun m => m.addr % 2 ^ 56 + 2 ^ 56 * b2n m.ph + 2 ^ 57 * b2n m.arr) ++
    ((c.item.ticket.map fun t => t.num % 2 ^ 32 + 2 ^ 32 * b2n t.dres + 2 ^ 33 * b2n t.cres).toList) ++
    c.stack.reverse.flatMap (CRec.pack base) ++
    ((List.range 16).filter c.live.getLsbD).map fun r => (AMap.getD c.regs r 0).toNat

/-- The 192 bytes of a record (Table 14.1). -/
def Cont.pack (c : Cont) (base : Nat) : Nat :=
  let kinds := (c.stack.reverse.mapIdx fun i r => match r with | .call .. => 2 ^ i | _ => 0).sum
  c.live.toNat * 2 ^ 240 + c.pred.toNat * 2 ^ 224 + c.item.item2.toNat * 2 ^ 192 + c.item.item1.toNat * 2 ^ 160 +
    c.item.item0.toNat * 2 ^ 128 + (c.pc - base) / 4 % 2 ^ 30 * 2 ^ 98 + c.cc * 2 ^ 96 + c.prio * 2 ^ 92 +
    c.item.stage * 2 ^ 90 + c.item.members.length * 2 ^ 88 + kinds * 2 ^ 84 + c.stack.length * 2 ^ 81 + c.item.itemid.toNat +
    joinWords (c.payload base) * 2 ^ 256

/-- Write a record to its place in the continuation area (R371, R398). -/
def State.writeRecord (s : State) (c : Cont) : State :=
  match s.launch? c.launch with
  | none => s
  | some l =>
    match s.areaOf c.die l.ctx with
    | some a => s.wr (a.contp + 192 * c.slot) 192 (c.pack ((l.stages[c.item.stage]?.map (·.kobj)).getD 0))
    | none => s

/-- Slots of a context's continuation area on a die that hold a record. -/
def State.contSlots (s : State) (die ctx : Nat) : List Nat :=
  (s.conts.filter fun c => c.die == die && ((s.launch? c.launch).map (·.ctx)) == some ctx).map (·.slot)

/-- The lowest free record of a context's continuation area on a die. -/
def State.freeCont (s : State) (die ctx : Nat) : Option Nat :=
  let used := s.contSlots die ctx
  let n := 64 * ((s.areaOf die ctx).map (·.contn)).getD 0
  (List.range (Nat.min n (used.length + 1))).find? fun k => !used.contains k

/-! ### `await` (R369, R370) -/

/-- Counted operations on a counter that include a lane: the awaited set. -/
def State.awaitSet (s : State) (g : Group) (cc l : Nat) : List Nat :=
  (s.ops.filter fun o => o.grp == g.id && o.cc == cc && o.lanes.has l).map (·.id)

/-- Payload words that a lane's record would take (Table 14.2). -/
def State.contWords (s : State) (g : Group) (e : Entry) (l : Nat) (live : BitVec 16) : Nat :=
  let it := (AMap.get? g.items l).getD {}
  1 + it.members.length + (e.stack.map fun r => match r with | .loop .. => 2 | .call .. => 1).sum +
    ((List.range 16).filter live.getLsbD).length + b2n (s.drawItem g l 1)

/-- An access of a lane outside the awaited set still writes registers or is not performed (R370). -/
def State.awaitHeld (s : State) (g : Group) (cc l : Nat) : Bool :=
  let set := s.awaitSet g cc l
  (s.accs.any fun a => a.grp == g.id && a.lane == l && !set.contains a.op &&
      (a.unperformed || (a.dst == .lane && a.results))) ||
    s.ops.any fun o => o.grp == g.id && o.poisoned.has l && !set.contains o.id

/-- Pack one lane's record: its PC is that of the word after the `await` (Table 14.1), and its stack is the one the `await` found; the
end test of R110 is made when the record resumes (DEDUCED, log 99). -/
def packLane (u : Iss) (f : FAwait) (x : State × Group) (l : Nat) : State × Group :=
  let cc := f.cc.toNat
  let set := x.1.awaitSet x.2 cc l
  let (s, g) := resolveTicket false x l
  match AMap.get? g.items l, s.groupLaunch? g with
  | some it, some la =>
    let last := AMap.get? s.lastOp (128 * g.id + 4 * l + cc)
    let ls := (List.range 16).filter f.live.getLsbD
    let c : Cont :=
      { id := s.next, launch := la.id, die := g.die, grp := g.id, item := it, pred := g.getP l
        pc := u.e.pc + 4 * u.words, words := u.words, prio := u.e.prio, stack := u.e.stack, cc := cc, live := f.live, addr := (last.map (·.2)).getD 0
        regs := ls.map fun r => (r, g.getV r l), waits := set, awaited := (last.map (·.1)).getD 0
        slot := (s.freeCont g.die la.ctx).getD 0 }
    let lost := s.ops.filter fun o => set.contains o.id && o.poisoned.has l
    let s := lost.foldl (fun (s : State) o => s.logGroup g 12 0 (2 ^ l) 0 o.pc) s
    let c := { c with regs := lost.foldl (fun m o => o.dests.foldl (fun m d =>
      if f.live.getLsbD d then AMap.set m d 0 else m) m) c.regs }
    let s := s.detach g l fun a => if set.contains a.op then .record c.id else .none
    let s := ({ s with conts := s.conts ++ [c], next := s.next + 1 }.writeRecord c).leaveOps g l
    (s, s.liveDeliveries (g.dropLane l))
  | _, _ => (s, g)

/-- `await` (R369, R370): lanes pack while the continuation area has room; the entry parks with the others. -/
def execAwait (h : Head) (f : FAwait) (s : State) : Out :=
  issue (.await h f) s fun u =>
    let refill := ((u.s.groupStage? u.g).map (·.refill)).getD 0
    let long := Mask.ofPred fun l => u.ex.has l && decide (20 < u.s.contWords u.g u.e l f.live)
    if u.ex ≠ 0 ∧ refill = 0 then u.trap { cls := 2, detail := 7, tmask := u.ex }
    else if long ≠ 0 then u.trap { cls := 2, detail := 8, tmask := long }
    else if u.ex.toList.any fun l => u.s.awaitHeld u.g f.cc.toNat l then u.s
    else
      let cap := 64 * ((u.s.areaOf u.g.die u.ctx).map (·.contn)).getD 0
      let room := cap - (u.s.contSlots u.g.die u.ctx).length
      let go := u.ex.toList.take room
      let (s, g) := go.foldl (packLane u f) (u.s, u.g)
      let m := Mask.ofPred go.contains
      let u := { u with s := s }
      if m = u.ex then u.finishWith g fun e => [e.fall (e.mask &&& ~~~m) u.words]
      else
        u.put (u.s.surgeFall u.g ((u.started g).updEntry u.e.mask fun e =>
          { e with mask := e.mask &&& ~~~m, restart := e.restart.map (· &&& ~~~m), park := some .contArea }))

/-! ### Readiness (R370) -/

/-- Every operation of a record's awaited set has completed for its lane. -/
def State.contDone (s : State) (c : Cont) : Bool :=
  !(s.accs.any fun a => a.dst == .record c.id) &&
  !(s.ops.any fun o => c.waits.contains o.id && o.engine) &&
  (match c.item.ticket, s.launch? c.launch with
    | some t, some l => !((l.focus t.die).posts.any fun p => p.ticket == t.num &&
        (match p.colour with | some x => c.waits.contains x.op | none => false))
    | _, _ => true)

/-- CONTINUATION_READY: a record enters the ready list (R370, R374). -/
def execContinuationReady (r : Nat) (s : State) : Out :=
  .next <|
    match s.conts.find? fun c => c.id == r && c.ready.isNone with
    | none => s
    | some c =>
      if s.contDone c then
        ({ s with
          conts := s.conts.map fun (x : Cont) => if x.id = r then { x with ready := some s.next } else x
          next := s.next + 1 }).writeRecord c
      else s

/-! ### Retirement (R376-R378) -/

/-- Stock of fresh items and ready records of a die and stage (R37, R374). -/
def State.stockOf (s : State) (l : Launch) (die stage : Nat) : Nat :=
  (l.stock die stage).count +
    (s.conts.filter fun c => c.launch == l.id && c.die == die && c.item.stage == stage && c.ready.isSome).length

/-- The group holds the refill entry (R98). -/
def State.holdsRefill (s : State) (g : Group) : Bool :=
  match s.groupLaunch? g, s.groupStage? g, s.gang? g.gang with
  | some l, some st, some ga =>
    st.refill != 0 && !g.retired && decide (st.thresh ≤ (s.emptyLanes g).length) && decide (0 < s.stockOf l g.die ga.stage)
  | _, _, _ => false

/-- The group is stopped by nothing (R88, R345, R366). -/
def Group.free (g : Group) : Bool := g.stop == .running && !g.halted && !g.preempting

/-- GROUP_RETIRE (R376): held commands are discarded first. -/
def execGroupRetire (g : Nat) (s : State) : Out :=
  .next <|
    match s.group? g with
    | none => s
    | some x =>
      if !x.retired && x.items.isEmpty && !(s.conts.any fun c => c.grp == g) && !s.holdsRefill x &&
          x.frame.isNone then
        if x.heldHead then s.updGroup g Group.orphanHead
        else if x.engq.isEmpty && x.matq.isEmpty && !(s.ops.any fun o => o.grp == g) && !(s.accs.any fun a => a.grp == g) then
          let s := if x.pnd = 0 then s else s.logGroup x 2 0 x.pnd 0 0
          s.updGroup g fun x => { x with retired := true, entries := [], v := [], surge := false, surgeWait := none }
        else s
      else s

/-- Convergence registers that hold signatures, as a mask. -/
def Gang.signed (ga : Gang) : Nat := (ga.cv.map fun c => if c.2.sig = 0 then 0 else 2 ^ c.1).sum

/-- The stranded gang's trap, in the group that signed the lowest such register last (R378). -/
def State.strand (s : State) (ga : Gang) : State :=
  let cv := (ga.cv.find? fun c => c.2.sig != 0).map (·.2)
  match (s.gangGroups ga.id).find? fun g => some g.index == cv.map (·.last) with
  | none => s
  | some g =>
    let t : TrapRec := { cls := 2, detail := 9, info := BitVec.ofNat 32 ga.signed, pc := 0, order := s.next }
    let s := (s.fresh.updGang ga.id fun ga => { ga with stranded := true }).updGroup g.id fun g =>
      { g with trap := some t, stop := .waitSupervisor false }
    s.supAppend { g with trap := some t, stop := .waitSupervisor false } t

/-- GANG_RETIRE (R377, R378). -/
def execGangRetire (gang : Nat) (s : State) : Out :=
  .next <|
    match s.gang? gang with
    | none => s
    | some ga =>
      if ga.saved.isSome || ga.stranded || !((s.gangGroups gang).all (·.retired)) then s
      else if ga.signed = 0 then s.removeGang ga
      else if ga.preempting then s
      else s.strand ga

end Sys2Proof.Machine
end

