-- ==== Sys2Proof/Machine/Frontier.lean ====
section
/-! DEFINITION. Frontier: refill, unparking, `emit`, and a group's level and stall (spec 04 R90-R98, R107, R124, spec 14
R374-R375). A step whose condition does not hold leaves the state as it is. -/

namespace Sys2Proof.Machine

/-! ### Refill (R98, R374, R375) -/

/-- The refill entry is selected: it comes before every entry that is neither parked nor yielded (R92, R98). DESIGN CHOICE
(log 77): the pseudo-entry counts as unparked and unyielded, so it is preferred to a yielded entry. -/
def State.refillSelected (s : State) (g : Group) : Bool :=
  s.holdsRefill g && g.frame.isNone && !g.entries.any (·.mid) &&
    (match g.entries.find? fun e => e.park.isNone && !e.yielded, s.groupStage? g with
      | some e, some st => decide (e.prio < st.rpri) || (e.prio == st.rpri && decide (st.kobj + st.refill < e.pc))
      | _, _ => true)

/-- Key of a ready list's current facet in its launch. -/
def facetKey (die stage : Nat) : Nat := 4 * die + stage

/-- The next ready record of a list, and the facet it comes from (R374). -/
def State.nextCont (s : State) (l : Launch) (die stage : Nat) : Option (Cont × Nat) :=
  let cur := AMap.getD l.current (facetKey die stage) 0
  let all := s.conts.filter fun c => c.launch == l.id && c.die == die && c.item.stage == stage && c.ready.isSome
  (List.range 16).findSome? fun k =>
    let f := (cur + k) % 16
    match (all.filter fun c => facet c.addr == f).foldl (fun (best : Option Cont) c =>
      match best with
      | none => some c
      | some b => if c.ready.getD 0 < b.ready.getD 0 then some c else some b) none with
    | some c => some (c, f)
    | none => none

/-- The age of a lane rises as it takes an item. -/
def Group.fillLane (g : Group) (l : Nat) (it : Item) : Group :=
  { g with items := AMap.set g.items l it, ages := AMap.set g.ages l (AMap.getD g.ages l 0 + 1), p := AMap.erase g.p l }

/-- A record resumes in a lane (R375): its entry. The `await` completes there, with the end test of R110; then R111 pops the loops its
PC lies outside (log 99). -/
def resumeCont (s : State) (g : Group) (l : Nat) (c : Cont) (f stage : Nat) : State × Group × Entry :=
  let g := (g.fillLane l c.item).setP l c.pred
  let g := c.regs.foldl (fun (g : Group) r => g.setV r.1 l r.2) g
  let s := { s with conts := s.conts.filter fun x => x.id ≠ c.id }
  let s := s.updLaunch c.launch fun x => { x with current := AMap.set x.current (facetKey c.die stage) f }
  let (pc, st) := endTest c.stack (c.pc - 4 * c.words) c.pc
  (s, g, { pc := pc, prio := c.prio, mask := Mask.one l, stack := popLoops pc st })

/-- The next fresh item of a stock, and the stock without it (R37). -/
def Stock.take (l : Launch) (k : Stock) : Option (Item × Stock) :=
  match k.ranges with
  | (p, n) :: t =>
    if n = 0 then none
    else some (l.itemAt p, { k with ranges := if n = 1 then t else (p + 1, n - 1) :: t })
  | [] => match k.items with | it :: t => some (it, { k with items := t }) | [] => none

/-- A fresh item enters a lane, with the registers a quad's pixel brings (R283). -/
def Group.fresh (g : Group) (l : Nat) (it : Item) : Group :=
  let g := g.fillLane l { it with regs := [] }
  (it.regs.mapIdx fun i x => (i, x)).foldl (fun (g : Group) r => g.setV r.1 l r.2) g

/-- What filling lanes with ready records came to. -/
inductive Filled where
  /-- no record is left: the state, the group, the entries so far and the lanes still empty -/
  | dry (s : State) (g : Group) (es : List Entry) (rest : List Nat)
  /-- the next record's registers must wait for the surge pool (R54), or go beyond P -/
  | held (s : State) (g : Group) (es : List Entry) (l : Nat) (limit : Bool)

/-- Fill lanes with ready records, lowest lane first, as long as the registers they map can be had (R54, R99). -/
def fillConts (la : Nat) (stage : Nat) : List Nat → State → Group → List Entry → Filled
  | [], s, g, es => .dry s g es []
  | l :: ls, s, g, es =>
    match (s.launch? la).bind fun x => s.nextCont x g.die stage with
    | some (c, f) =>
      match s.regGate g (c.regs.map (·.1)) with
      | .wait g => .held s g es l false
      | .limit => .held s g es l true
      | .ok g =>
        let (s, g, e) := resumeCont s g l c f stage
        fillConts la stage ls s g (es ++ [e])
    | none => .dry s g es (l :: ls)

/-- Fill lanes with fresh items, lowest lane first: the lanes filled. -/
def fillFresh (la : Nat) (stage : Nat) : List Nat → State → Group → List Nat → State × Group × List Nat
  | [], s, g, done => (s, g, done)
  | l :: ls, s, g, done =>
    match s.launch? la with
    | none => (s, g, done)
    | some x =>
      match (x.stock g.die stage).take x with
      | none => (s, g, done)
      | some (it, k) => fillFresh la stage ls (s.updLaunch la fun x => x.updStock g.die stage fun _ => k) (g.fresh l it) (done ++ [l])

/-- Lanes that fresh items may take: for fragment items those of wholly empty aligned quartets (R283). -/
def freshLanes (quads : Bool) (empty : List Nat) : List Nat :=
  if quads then empty.filter fun l => (List.range 4).all fun i => empty.contains (l / 4 * 4 + i) else empty

/-- The fragment items of a launch: stage 1 of a draw. -/
def Launch.fragments (l : Launch) (stage : Nat) : Bool := l.isDraw && stage == 1

/-- The group with its new entries, which merge under R94. A refill is no sequence: it clears no flag and is no start (log 77). -/
def Group.filled (g : Group) (es : List Entry) : Group := { g with entries := Entry.normalise (g.entries ++ es) }

/-- Fill the lanes and merge the new entries. A record whose registers must wait for the surge pool ends the fill; so does one
whose registers go beyond P, and where it is the first the group takes the register-limit trap at the pseudo-entry (R54, R99;
DESIGN CHOICE, log 74). -/
def State.refillWith (s : State) (x : Group) (la : Launch) (st : Stage) (stage : Nat) : State :=
  match fillConts la.id stage (s.emptyLanes x) s x [] with
  | .held t y [] l true =>
    t.takeTrap y { pc := st.kobj + st.refill, prio := st.rpri, mask := 0 } { cls := 5, tmask := Mask.one l }
  | .held t y [] _ false => t.updGroup x.id fun _ => y
  | .held t y es _ _ => t.updGroup x.id fun _ => y.filled es
  | .dry t y es rest =>
    let (t, y, done) := fillFresh la.id stage (freshLanes (la.fragments stage) rest) t y []
    let e : Entry := { pc := st.kobj + st.refill + 4, prio := st.rpri, mask := Mask.ofPred done.contains }
    t.updGroup x.id fun _ => y.filled (e :: es)

/-- REFILL: the refill entry of a group is selected (R98). The items it admits join an open episode of the package barrier: the die's
arrival is withdrawn (R314). No group of a restored gang acts before its tag comparison (R411). DESIGN CHOICE (log 98): R107 holds the
group from being ready, and a refill is no sequence: it is taken while a `sched` stall runs. -/
def execRefill (g : Nat) (s : State) : Out :=
  .next <|
    match s.group? g with
    | none => s
    | some x =>
      match s.groupLaunch? x, s.groupStage? x, s.gang? x.gang with
      | some la, some st, some ga =>
        if !x.free || ga.restoredOps || s.relocking x.die || !s.refillSelected x || (s.cluster x.die x.cluster).power != .awake then s
        else (s.updLaunch la.id fun l => l.withdrawn x.die).refillWith x la st ga.stage
      | _, _, _ => s

/-! ### Unparking (R95) -/

/-- A lane that a full pool of waiters refused can be sent again (R226, R313). -/
def State.poolRoom (s : State) (g : Group) (objs : AMap (Nat × Bool)) (refused : Mask) : Bool :=
  objs.any fun x => refused.has x.1 && (!s.fromOutside g.id x.2.1 ||
    decide (s.outsideWaiters (locDie x.2.1) (locCluster x.2.1) < 512))

/-- The condition of a parked entry holds; a `barwait` some lanes of which were refused may issue again to send them. -/
def State.parkHolds (s : State) (g : Group) (e : Entry) : Bool :=
  match e.park with
  | none => false
  | some .ldfe => !(s.accs.any fun a => a.grp == g.id && a.kind == .ldfe && a.pc == e.pc && e.mask.has a.lane)
  | some (.barwait objs refused) => objs.all (fun o => s.barPassed o.2) || (refused != 0 && s.poolRoom g objs refused)
  | some (.waitk m) => s.countersZero g m
  | some (.mwait m) => !s.gangTilesBusy g.gang m
  | some .tileSet => ((s.gang? g.gang).bind (·.tset)).isSome
  | some .contArea => (s.freeCont g.die (s.groupCtx g)).isSome
  | some (.zcmp _) => !s.depthOpen g e.mask
  | some (.pbar _) => ((s.groupLaunch? g).bind (·.brokenBy)).isSome && !s.relocking g.die

/-- ENTRY_UNPARK: a parked entry whose condition holds is unparked (R95); a `zcmp` has then completed. -/
def execEntryUnpark (g pc : Nat) (s : State) : Out :=
  .next <|
    match s.group? g with
    | none => s
    | some x =>
      match x.front.find? fun e => e.pc == pc && s.parkHolds x e with
      | none => s
      | some e =>
        match e.park with
        | some (.zcmp c) => s.updGroup g fun x => s.surgeFall x (x.closePark e.mask c)
        | _ => s.updGroup g fun x => x.updEntry e.mask fun e => { e with park := none }

/-! ### `emit` (R124) -/

/-- Emitted items of a context on a die: those its emit area holds (R398). -/
def State.emitted (s : State) (die ctx : Nat) : Nat :=
  ((s.launches.filter fun l => l.ctx == ctx && !l.isDraw).map fun l =>
    ((l.stocks.filter fun k => k.die == die && decide (0 < k.stage)).map fun k => k.items.length).sum).sum

/-- One lane emits its item. -/
def emitLane (f : FEmit) (x : State × Group) (l : Nat) : State × Group :=
  let (s, g) := x
  match s.groupLaunch? g, AMap.get? g.items l with
  | some la, some it =>
    let a := readSrc g l [] 0 f.a
    let b := readSrc g l [] 0 f.b
    let new : Item :=
      { item0 := a.truncate 32, item1 := (a >>> 32).truncate 32, item2 := (b >>> 48).truncate 32, itemid := b.truncate 48
        stage := it.stage + 1 }
    if s.emitted g.die la.ctx < 64 * ((s.areaOf g.die la.ctx).map (·.emitn)).getD 0 then
      (s.updLaunch la.id fun x => x.updStock g.die (it.stage + 1) fun k => { k with items := k.items ++ [new] },
        g.setPn f.pd.toNat l true)
    else (s, g.setPn f.pd.toNat l false)
  | _, _ => (s, g)

/-- `emit` (R124): a release at die scope. -/
def execEmit (h : Head) (f : FEmit) (s : State) : Out :=
  issue (.emit h f) s fun u =>
    let bad := Mask.ofPred fun l => u.ex.has l &&
      (match u.s.groupLaunch? u.g, AMap.get? u.g.items l with
        | some la, some it => decide (la.nstage ≤ it.stage + 1) || (la.isDraw && it.stage == 0)
        | _, _ => true)
    if bad ≠ 0 then u.trap { cls := 2, detail := 2, tmask := bad }
    else if u.s.accs.any fun a => a.grp == u.g.id && u.ex.has a.lane && a.unperformed then u.s
    else
      let (s, g) := u.ex.toList.foldl (emitLane f) (u.s, u.g)
      { u with s := s }.finish g

/-! ### Levels and stalls (R90, R107) -/

/-- LEVEL_RAISE: 4,096 cycles ready and not chosen raise a group's level, up to 7 (R90). -/
def execLevelRaise (g : Nat) (s : State) : Out :=
  .next <| s.updGroup g fun x =>
    if 4096 ≤ x.waited ∧ x.level < 7 then { x with level := x.level + 1, waited := x.waited - 4096 } else x

/-- SCHED_STALL_EXPIRY: a `sched` stall ends (R107). -/
def execSchedStallExpiry (g : Nat) (s : State) : Out :=
  .next <| s.updGroup g fun x => { x with stall := 0 }

/-- SURGE_GRANT: a free surge pool goes to the group of the core that asked first (R54). -/
def execSurgeGrant (die cl core : Nat) (s : State) : Out :=
  .next <|
    let here := s.groups.filter fun g => g.die == die && g.cluster == cl && g.core == core
    if here.any (·.surge) then s
    else
      let first := here.foldl (fun (best : Option Group) g =>
        match g.surgeWait, best with
        | none, b => b
        | some _, none => some g
        | some t, some b =>
          let w := b.surgeWait.getD 0
          if t < w ∨ (t = w ∧ s.srGroup g < s.srGroup b) then some g else some b) none
      match first with
      | some g => s.updGroup g.id fun g => { g with surge := true, surgeWait := none }
      | none => s

end Sys2Proof.Machine
end

