-- ==== Sys2Proof/Machine/Placement.lean ====
section
/-! DEFINITION. Placement: release of launches, the placing and restoring of gangs, and the completion of launches (spec 02
R32-R37, R45-R56, spec 10 R273-R286, spec 13 R365, spec 14 R379, spec 15 R390). A step whose condition does not hold leaves the
state as it is. -/

namespace Sys2Proof.Machine

/-! ### A partition declared failed (R390) -/

/-- Every running launch of the partition completes with status 0x80, and event 0x03 is raised (R390). -/
def State.failPartition (s : State) (ctx part : Nat) : State :=
  let ls := s.launches.filter fun l => l.ctx == ctx && l.part == part && l.live
  let s := ls.foldl (fun (s : State) l => s.endLaunch l.id 0x80) s
  let s := s.updCtx ctx fun c =>
    let p : Partition := AMap.getD c.parts part {}
    { c with parts := AMap.set c.parts part { p with failed := true } }
  s.event 3 ctx part

/-- Declare failed every partition that satisfies a test and is not failed yet. -/
def State.failParts (s : State) (p : Context → Partition → Bool) : State :=
  s.ctxs.foldl (fun (s : State) (c : Context) => c.parts.foldl (fun (s : State) (x : Nat × Partition) =>
    if x.2.valid && !x.2.failed && p c x.2 then s.failPartition c.num x.1 else s) s) s

/-- The management subsystem declares a launch's partition failed, unless it has (R281, R379, R390). -/
def State.failLaunchPartition (s : State) (l : Launch) : State :=
  let p : Partition := AMap.getD (((s.ctx? l.ctx).map (·.parts)).getD []) l.part {}
  if p.failed then s.endLaunch l.id 0x80 else s.failPartition l.ctx l.part

/-- PRIMITIVE_PACKET: an owner receives a primitive (R278, R281). -/
def execPrimitivePacket (l src dst : Nat) (s : State) : Out := primitivePacket State.failLaunchPartition l src dst s

/-! ### Where a gang fits (R49-R51) -/

/-- What is taken on a cluster: by core the steady reservation and surge need of each group; the store ranges, those being
cleared among them. -/
structure CLoad where
  cl : Nat
  cores : List (List (Nat × Nat)) := [[], [], [], []]
  ranges : List (Nat × Nat) := []
  deriving DecidableEq, Repr

/-- Steady reservation of a group (R49). -/
def Stage.steadyRegs (st : Stage) : Nat := 8 * ceilDiv st.steady 8

/-- Surge need of a group (R49). -/
def Stage.surgeRegs (st : Stage) : Nat := 8 * ceilDiv st.peak 8 - st.steadyRegs

/-- R49 holds on a core. -/
def coreOk (gs : List (Nat × Nat)) : Bool :=
  decide (gs.length ≤ 32) && decide ((gs.map (·.1)).sum + (gs.map (·.2)).foldl Nat.max 0 ≤ 1024)

/-- A store range overlaps another. -/
def rangesMeet (a b : Nat × Nat) : Bool := decide (a.1 < b.1 + b.2) && decide (b.1 < a.1 + a.2)

/-- A range is free (R50). -/
def CLoad.rangeFree (x : CLoad) (start n : Nat) : Bool :=
  n == 0 || (decide (start + n ≤ 2 ^ 20) && !x.ranges.any (rangesMeet (start, n)))

/-- The lowest free range of `n` bytes (R51): it begins at 0 or where another ends. -/
def CLoad.firstFree (x : CLoad) (n : Nat) : Option Nat :=
  ((0 :: x.ranges.map fun r => r.1 + r.2).filter fun a => x.rangeFree a n).foldl (fun (best : Option Nat) a =>
    match best with | none => some a | some b => some (Nat.min a b)) none

/-- Aligned first cores of a span. -/
def spanStarts (span : Nat) : List Nat :=
  match span with | 4 => [0] | 2 => [0, 2] | _ => [0, 1, 2, 3]

/-- The cluster with a gang of a stage added at a core and a store address. -/
def CLoad.add (x : CLoad) (st : Stage) (a start : Nat) : CLoad :=
  let n := rangeBytes st.store
  { x with
    cores := x.cores.mapIdx fun k gs =>
      gs ++ (((List.range st.groups).filter fun j => a + j % st.span == k).map fun _ => (st.steadyRegs, st.surgeRegs))
    ranges := if n = 0 then x.ranges else x.ranges ++ [(start, n)] }

/-- A gang fits at a core and a store address (R50). -/
def CLoad.fitAt (x : CLoad) (st : Stage) (a start : Nat) : Bool :=
  x.rangeFree start (rangeBytes st.store) && (x.add st a start).cores.all coreOk

/-- Where a gang fits: the lowest aligned span, the lowest free range (R51). -/
def CLoad.fit (x : CLoad) (st : Stage) : Option (Nat × Nat) :=
  (x.firstFree (rangeBytes st.store)).bind fun start =>
    ((spanStarts st.span).find? fun a => x.fitAt st a start).map fun a => (a, start)

/-- A gang goes on the first of some clusters where it fits: those clusters after it. -/
def planOne (st : Stage) : List CLoad → Option (List CLoad)
  | [] => none
  | x :: t =>
    match x.fit st with
    | some (a, start) => some (x.add st a start :: t)
    | none => (planOne st t).map (x :: ·)

/-- Several gangs of a stage fit some clusters together. -/
def planMany (st : Stage) : Nat → List CLoad → Bool
  | 0, _ => true
  | n + 1, xs =>
    match planOne st xs with
    | some ys => planMany st n ys
    | none => false

/-- What is taken on a cluster now. -/
def State.load (s : State) (die cl : Nat) : CLoad :=
  let gs := s.residents die cl
  { cl := cl
    cores := (List.range 4).map fun k => (gs.filter (·.core == k)).map fun g =>
      ((s.groupStage? g).map fun st => (st.steadyRegs, st.surgeRegs)).getD (0, 0)
    ranges := (((s.residentGangs die cl).filter (·.size != 0)).map fun g => (g.start, g.size)) ++ (s.cluster die cl).clearing }

/-- A launch may put a gang on a cluster: it belongs to the partition, is not being gated down, and is not being cleared of the
context (R50, R51, R362). -/
def State.clusterOpen (s : State) (die cl : Nat) (l : Launch) : Bool :=
  let p := ((s.die? die).map (·.preempt.toNat)).getD 0
  l.cmask.getLsbD cl && (s.cluster die cl).power != .gatingDown &&
    !(bit p 0 && bits p 95 80 == l.ctx && bit p (96 + cl))

/-- A die takes gangs of a context: it has its area record, and at most 4 contexts are resident (R48, R398). -/
def State.dieTakes (s : State) (die ctx : Nat) : Bool :=
  let cs := ((s.gangs.filter fun g => g.die == die && g.saved.isNone).map fun g => ((s.launch? g.launch).map (·.ctx)).getD 0).dedup
  (s.areaOf die ctx).isSome && (cs.contains ctx || decide (cs.length < 4)) &&
    ((s.die? die).map fun d => !d.failed && d.relock.isNone).getD false

/-- Where a launch's next gang of a stage goes on a die: cluster, core, store address (R51). -/
def State.spot (s : State) (die : Nat) (l : Launch) (st : Stage) : Option (Nat × Nat × Nat) :=
  if !s.dieTakes die l.ctx then none
  else ((List.range 32).filter fun cl => s.clusterOpen die cl l).findSome? fun cl =>
    ((s.load die cl).fit st).map fun r => (cl, r)

/-! ### Release (R32, R36, R273, R277) -/

/-- Address of an element of a tile map, by its number in row order (R273). -/
def Ent.mapVa (e : Ent) (t : Nat) : Nat := e.bitAddr (t % e.dim 0, t / e.dim 0, 0, 0) / 8 % 2 ^ 56

/-- An identifier describes a tile map (R273). -/
def Ent.isTileMap (e : Ent) : Bool := e.valid && e.rank == 2 && e.fmt == 0x0C && !e.windowed && e.baseOk

/-- Elements of a tile map, and a log record for each that cannot be used: the address is given where it was not readable. -/
def State.mapElems (s : State) (l : Launch) (e : Ent) : List Nat → State × List Nat
  | [] => (s, [])
  | t :: ts =>
    let va := e.mapVa t
    let log (d a : Nat) : State := s.logRecord l.ctx (errRec s.gtime 0 l.sr t a 0 l.home 0 l.ctx d 9)
    let (s, x) :=
      match s.readVa l.home l.ctx va 1 with
      | none => ((log 1 va).noteErrorVa l.home l.ctx va, 0xFF)
      | some d => if d = 0xFF ∨ l.dies.contains d then (s, d) else (log 0 0, 0xFF)
    let (s, xs) := s.mapElems l e ts
    (s, x :: xs)

/-- The tile map of a draw: none where the identifier does not describe one (R273). -/
def State.readTileMap (s : State) (l : Launch) : Option (State × Launch) :=
  let e := s.ent l.ctx l.drawt
  if !Ent.isTileMap e then none
  else
    let (s, m) := s.mapElems l e (List.range (e.dim 0 * e.dim 1))
    some (s, { l with tileMap := m, m0 := e.dim 0, m1 := e.dim 1 })

/-- Gangs of stage 0 that a die's share of a co-resident launch makes (R56). -/
def Launch.share (l : Launch) (die : Nat) (st : Stage) : Nat := ceilDiv (l.stock die 0).count (32 * st.groups)

/-- Some die's share of a co-resident launch cannot fit its clusters even when they are empty (R56). -/
def Launch.neverFits (l : Launch) : Bool :=
  match l.stages[0]? with
  | none => false
  | some st =>
    l.cores && l.dies.any fun d =>
      !planMany st (l.share d st) (((List.range 32).filter l.cmask.getLsbD).map fun cl => { cl := cl })

/-- A launch whose dependences hold is released to the dies of its partition (R32). -/
def State.releaseLaunch (s : State) (l : Launch) : State :=
  match s.ctx? l.ctx with
  | none => s
  | some c =>
    let p : Partition := AMap.getD c.parts l.part {}
    let dies := (s.partDies c l.part).getD []
    let l : Launch :=
      { l with phase := .released, order := s.next, dies := dies, home := p.home, cmask := p.cmask, total := l.items
               starve := dies.map fun d => (d, s.gtime) }
    let s := s.fresh
    let start (s : State) (l : Launch) : State :=
      let l := l.dealStart dies
      s.updLaunch l.id fun _ => if l.neverFits then { l with phase := .ending 0x81 } else l
    if p.failed then s.updLaunch l.id fun _ => { l with phase := .ending 0x80 }
    else if l.isDraw then
      match s.readTileMap l with
      | none => s.updLaunch l.id fun _ => { l with phase := .ending 0x84 }
      | some (s, l) => start s l
    else start s l

/-- What the release of a draw reads: its tile map (R273). -/
def State.releaseNeed (s : State) (l : Launch) (home : Nat) : Need :=
  let e := s.ent l.ctx l.drawt
  if l.isDraw && Ent.isTileMap e then s.needVas home l.ctx ((List.range (e.dim 0 * e.dim 1)).map fun t => (e.mapVa t, 1)) [] else {}

/-- The home die of a launch cannot release it now: it is relocking (R325), or a die of a partition that has not been declared failed is
cut off from it (R45). -/
def State.releaseHeld (s : State) (l : Launch) (p : Partition) : Bool :=
  s.relocking p.home || (!p.failed && (((s.ctx? l.ctx).bind fun c => s.partDies c l.part).getD []).any fun d => s.stalledPair p.home d)

/-- The partition of a launch as its record stands. -/
def State.partOf (s : State) (l : Launch) : Partition := ((s.ctx? l.ctx).map fun c => AMap.getD c.parts l.part {}).getD {}

/-- RELEASE: a launch is released once its dependences hold and its tile map can be read (R12, R32, R273). -/
def execRelease (l : Nat) (s : State) : Out :=
  .next <|
    match s.launch? l with
    | none => s
    | some x =>
      let p := s.partOf x
      if x.phase ≠ .waiting ∨ !s.depsHold x ∨ s.releaseHeld x p then s
      else if p.failed then s.releaseLaunch x
      else
        match s.gate { owner := .release l, die := p.home, ctx := x.ctx, part := x.part } (s.releaseNeed x p.home) with
        | (s, false) => s
        | (s, true) => s.releaseLaunch x

/-! ### Placing a gang (R19, R37, R51, R52, R57) -/

/-- The lowest free group slot of a core. -/
def State.freeSlot (s : State) (die cl core : Nat) : Nat :=
  let used := ((s.residents die cl).filter (·.core == core)).map (·.slot)
  ((List.range 32).find? fun k => !used.contains k).getD 0

/-- A gated cluster asks for an inrush token, and gated quarters under the range wake (R57, R230). -/
def State.wakeFor (s : State) (die cl start size : Nat) : State :=
  let s := s.wakeQuarters die cl start size
  if (s.cluster die cl).power = .gated then
    (s.updCluster die cl fun c => { c with power := .requesting }).updDie die fun d => { d with wakes := d.wakes ++ [(s.gtime, cl)] }
  else s

/-- A gang takes a free tile set of its cluster, beside those that the gangs waiting there are to receive (R52, R204). -/
def State.takeSet (s : State) (gang : Nat) : State :=
  match s.gang? gang with
  | none => s
  | some ga => match s.setFor ga s.next with | some n => s.bindSet gang n | none => s

/-- Group `j` of a gang is created, its lanes filled from the stock in order (R19, R37). -/
def State.newGroup (s : State) (ga : Gang) (l : Launch) (st : Stage) (j : Nat) : State :=
  let core := ga.core + j % ga.span
  let g : Group :=
    { id := s.next, gang := ga.id, index := j, die := ga.die, cluster := ga.cluster, core := core
      slot := s.freeSlot ga.die ga.cluster core, s := [(0, BitVec.ofNat 64 l.arg), (1, BitVec.ofNat 64 l.lpbAddr)]
      level := l.prio, lastStart := s.next }
  let (s, g, done) := fillFresh l.id ga.stage (freshLanes (l.fragments ga.stage) lanes) s.fresh g []
  let e : Entry := { pc := st.kobj + st.entry, mask := Mask.ofPred done.contains }
  { s with groups := s.groups ++ [{ g with entries := if done = [] then [] else [e] }] }

/-- A launch has placed a gang on a die (R53). -/
def Launch.placedOn (l : Launch) (die now : Nat) : Launch :=
  { l with starve := AMap.set l.starve die now, holds := l.holds.filter (· ≠ die) }

/-- Place a new gang of a stage on a cluster. -/
def State.placeGang (s : State) (l : Launch) (st : Stage) (stage die cl core start : Nat) : State :=
  let n := AMap.getD l.serials die 0
  let ga : Gang :=
    { id := s.next, launch := l.id, stage := stage, serial := n, pdie := die, ngroups := st.groups, span := st.span, die := die
      cluster := cl, core := core, start := start, size := rangeBytes st.store }
  let s := ({ s.fresh with gangs := s.gangs ++ [ga] }).updLaunch l.id fun l =>
    { (l.placedOn die s.gtime).withdrawn die with serials := AMap.set l.serials die (n + 1) }
  let s := (List.range st.groups).foldl (fun (s : State) j => s.newGroup ga l st j) s
  (s.wakeFor die cl start ga.size).takeSet ga.id

/-! ### Restoring a saved gang (R55, R365) -/

/-- Where a saved gang goes on a die: its own place where it is pinned (R55). -/
def State.restoreSpot (s : State) (die : Nat) (l : Launch) (ga : Gang) (st : Stage) : Option (Nat × Nat × Nat) :=
  if l.pin then
    if ga.die = die ∧ s.dieTakes die l.ctx ∧ s.clusterOpen die ga.cluster l ∧ (s.load die ga.cluster).fitAt st ga.core ga.start then
      some (ga.cluster, ga.core, ga.start)
    else none
  else s.spot die l st

/-- A group comes back: its level and last start are fresh, and a holder of the surge pool asks first (R54, R365). -/
def State.backGroup (s : State) (ga : Gang) (prio : Nat) (g : Group) : State :=
  let core := ga.core + g.index % ga.span
  { s with groups := s.groups ++
      [{ g with
         die := ga.die, cluster := ga.cluster, core := core, slot := s.freeSlot ga.die ga.cluster core, level := prio
         lastStart := s.next, preempting := false, surge := false, surgeWait := if g.surge then some 0 else none }] }

/-- An item's memberships of objects in a range of `n` bytes follow the range to another place (R310, R365; DESIGN CHOICE, log 88). -/
def Item.rebase (it : Item) (old new n : Nat) : Item :=
  { it with members := it.members.map fun (m : Member) =>
      if old ≤ m.obj ∧ m.obj < old + n then { m with obj := new + (m.obj - old) } else m }

/-- The objects that a parked `barwait` names follow the gang's range to another place (R365). -/
def Entry.rebase (e : Entry) (old new n : Nat) : Entry :=
  match e.park with
  | some (.barwait objs r) =>
    { e with park := some (.barwait (objs.map fun (x : Nat × Nat × Bool) =>
        if old ≤ x.2.1 ∧ x.2.1 < old + n then (x.1, new + (x.2.1 - old), x.2.2) else x) r) }
  | _ => e

/-- The group of a restored gang that waits for a tile set, where none is free: that of the lowest-stamped saved operation, or one with
an entry parked for a set or a scale copy in its engine queue (R184, R204, R411). -/
def State.wantingSet (s : State) (gang : Nat) : Option Group :=
  match s.lowestOp gang with
  | some g => some g
  | none => (s.gangGroups gang).find? fun g => (g.entries.any fun e => e.park == some .tileSet) || g.engq.any fun c =>
      match c.kind with | .copy blk .. => cbKind blk.toNat == 2 | _ => false

/-- Restore a saved gang on a cluster (R365). -/
def State.restoreGang (s : State) (l : Launch) (ga : Gang) (die cl core start : Nat) : State :=
  let new : Gang :=
    { ga with
      die := die, cluster := cl, core := core, start := start, saved := none, savedGroups := [], savedStore := [], savedFull := []
      restoredOps := ga.savedGroups.any fun g => !g.matq.isEmpty, slot := if ga.savePoint then ga.slot else none }
  let lo := storeLoc die cl start
  let old := storeLoc ga.die ga.cluster ga.start
  let move (it : Item) : Item := it.rebase old lo ga.size
  let ids := ga.savedGroups.map (·.id)
  let s := (s.fresh.updGang ga.id fun _ => new).updLaunch l.id fun l => l.withdrawn ga.pdie
  let s := { s with
    mem := Memory.restore s.mem lo ga.savedStore
    full := ga.savedFull.foldl (fun f k => insertNat f (lo / 16 + k)) s.full
    conts := s.conts.map fun (c : Cont) => if ids.contains c.grp then { c with item := move c.item } else c }
  let s := if ga.savePoint then s
    else s.updCtx l.ctx fun c => { c with slots := c.slots.filter fun n => some n ≠ ga.slot }
  let s := ga.savedGroups.foldl (fun (s : State) g =>
    s.backGroup new l.prio
      { g with
        items := g.items.map fun (x : Nat × Item) => (x.1, move x.2)
        entries := g.entries.map fun (e : Entry) => e.rebase old lo ga.size }) s
  let s := (s.wakeFor die cl start ga.size).takeSet ga.id
  match s.gang? ga.id, s.wantingSet ga.id with
  | some x, some g =>
    if x.tset.isNone then s.fresh.updGroup g.id fun g => { g with tileWait := some s.next } else s
  | _, _ => s

/-- Launches in the order of R53: higher PRIO first, then earlier release. -/
def Launch.before (a b : Launch) : Bool := decide (b.prio < a.prio) || (decide (a.prio = b.prio) && decide (a.order < b.order))

/-- Insert a launch in the order of R53. -/
def Launch.insert (l : Launch) : List Launch → List Launch
  | [] => [l]
  | a :: t => if l.before a then l :: a :: t else a :: Launch.insert l t

/-- The running launches of a die in the order of R53. -/
def State.ranked (s : State) (die : Nat) : List Launch :=
  (s.launches.filter fun l => l.live && l.dies.contains die).foldl (fun acc l => l.insert acc) []

/-- Restore all saved gangs of a co-resident launch, each on the die it left, where all fit (R56, R363). -/
def State.restoreShares (s : State) (l : Launch) : Option State :=
  (s.gangs.filter fun ga => ga.launch == l.id && ga.saved.isSome).foldl (fun (acc : Option State) ga =>
    acc.bind fun s => (l.stages[ga.stage]?).bind fun st =>
      (s.restoreSpot ga.die l ga st).map fun r => s.restoreGang l ga ga.die r.1 r.2.1 r.2.2) (some s)

/-- The state after a die restores a waiting gang: that of the highest launch priority that fits (R53, R55, R273). Among equal launch
priorities R53 gives no order: the earlier-released launch comes first, then the gang created first (log 70). -/
def State.restoreStep (s : State) (die : Nat) : Option State :=
  (s.ranked die).findSome? fun l =>
    if !((s.ctx? l.ctx).map (·.run)).getD false then none
    else if l.cores then
      if s.gangs.any fun ga => ga.launch == l.id && ga.saved.isSome && ga.die == die then s.restoreShares l else none
    else
      (s.gangs.filter fun ga => ga.launch == l.id && ga.saved.isSome && (!(l.isDraw && ga.stage == 0) || ga.pdie == die)).findSome?
        fun ga => (l.stages[ga.stage]?).bind fun st =>
          (s.restoreSpot die l ga st).map fun r => s.restoreGang l ga die r.1 r.2.1 r.2.2

/-! ### A placement step (R53, R56) -/

/-- The co-resident launch that a die holds for: one not placed yet that is the highest-priority released launch on every die of
its partition, running launches among them; of those of equal PRIO the earlier-released waiting one (R56; log 28). -/
def State.heldFor (s : State) (die : Nat) : Option Launch :=
  (s.ranked die).find? fun l =>
    l.cores && !l.placed && l.dies.all fun d => (s.ranked d).all fun x =>
      x.id == l.id || decide (x.prio < l.prio) || (x.prio == l.prio && (!x.cores || x.placed || decide (l.order < x.order)))

/-- Place a number of stage-0 gangs of a launch on a die, where all fit. -/
def State.placeMany (l : Nat) (st : Stage) (die : Nat) : Nat → State → Option State
  | 0, s => some s
  | n + 1, s =>
    match s.launch? l with
    | none => none
    | some x => (s.spot die x st).bind fun r => State.placeMany l st die n (s.placeGang x st 0 die r.1 r.2.1 r.2.2)

/-- All dies place their shares of a co-resident launch at once, where every share fits (R56) and the barrier tree has a slot
(R314). DESIGN CHOICE (log 97): R53 does not say whether a starvation hold of another launch keeps a launch that the dies hold for
under R56 from being placed: it does not. -/
def State.placeShares (s : State) (l : Launch) : Option State :=
  match (if (s.launches.filter fun x => x.cores && x.placed).length < 16 then l.stages[0]? else none) with
  | none => none
  | some st =>
    (l.dies.foldl (fun (acc : Option State) d => acc.bind fun s => State.placeMany l.id st d (l.share d st) s) (some s)).map
      fun s => s.updLaunch l.id fun l => { l with placed := true }

/-- A starved launch keeps this one from placing gangs on a die (R53). Starved launches of equal PRIO do not keep each other (log
36). -/
def State.barred (s : State) (die : Nat) (l : Launch) : Bool :=
  s.launches.any fun x => x.live && x.id != l.id && x.holds.contains die && decide (l.prio ≤ x.prio) &&
    !(l.holds.contains die && l.prio == x.prio)

/-- The state after a die places a new gang: of the first launch, then the highest stage, that has stock and fits (R53). Stage 0 of a
co-resident launch is left out: it is placed only where its dies hold for it, even where every share would fit (log 71). -/
def State.placeNew (s : State) (die : Nat) : Option State :=
  (s.ranked die).findSome? fun l =>
    if s.barred die l then none
    else (List.range l.nstage).reverse.findSome? fun k =>
      if (l.cores && k == 0) || s.stockOf l die k == 0 then none
      else (l.stages[k]?).bind fun st => (s.spot die l st).map fun r => s.placeGang l st k die r.1 r.2.1 r.2.2

/-- PLACEMENT_STEP: the dispatcher of a die restores or places one gang, or all dies place a co-resident launch (R53, R56). -/
def execPlacementStep (die : Nat) (s : State) : Out :=
  .next <|
    if s.relocking die then s
    else
      match s.restoreStep die with
      | some s => s
      | none =>
        match s.heldFor die with
        | some l => (s.placeShares l).getD s
        | none => (s.placeNew die).getD s

/-- STARVATION_HOLD: after 64 heartbeats without a placement, a launch with stock on a die holds it (R53). -/
def execStarvationHold (die l : Nat) (s : State) : Out :=
  .next <|
    match s.launch? l with
    | none => s
    | some x =>
      if x.live && x.dies.contains die && ((List.range x.nstage).any fun k => decide (0 < s.stockOf x die k)) && !x.holds.contains die &&
          decide (AMap.getD x.starve die 0 + 64 * 2048 ≤ s.gtime) then
        s.updLaunch l fun x => { x with holds := insertNat x.holds die }
      else s

/-! ### Completion (R34, R286, R353, R379) -/

/-- Commands of a launch that have started still run; `stuck` says whether those that can never complete count (R379). -/
def State.commandsRun (s : State) (l : Nat) (stuck : Bool) : Bool :=
  s.active.any (fun a => a.cmd.launch == l && (stuck || !s.cmdStuck a)) ||
    s.colls.any (fun c => c.cmd.launch == l && (stuck || !s.bytesCut c.die (s.collTargets c))) || s.collapses.any fun c => s.active.any fun a =>
    a.cmd.launch == l && (match a.cmd.kind with | .pattr 1 va => va == c.va | _ => false)

/-- The commands of an ending launch that can never complete are given up (R379; log 89). -/
def State.dropStuck (s : State) (l : Nat) : State :=
  let ids := (s.active.filter fun a => a.cmd.launch == l && s.cmdStuck a).map (·.cmd.id)
  State.pruneReqs { s with
    active := s.active.filter fun (a : Active) => !ids.contains a.cmd.id
    colls := s.colls.filter fun (c : CollCmd) => c.cmd.launch ≠ l
    streams := s.streams.filterMap fun (x : Stream) =>
      if x.cmd ≠ 0 ∧ ids.contains x.cmd then none else some { x with flags := x.flags.filter fun c => !ids.contains c } }

/-- A draw has drained: markers sent and received, every task group released, every ticket applied (R286). -/
def Launch.drawDrained (l : Launch) : Bool :=
  !l.isDraw || (l.pkts.isEmpty && (l.owners.all fun d => (l.focus d).k == l.items) && l.draw.all fun f =>
    f.held.isEmpty && f.released.isEmpty && f.posts.isEmpty &&
      f.dealt.all fun r => (List.range r.2).all fun i => f.markers.contains ((r.1 + i) / 64))

/-- The drain conditions of a launch hold (R379). -/
def State.drained (s : State) (l : Launch) : Bool :=
  decide (l.total ≤ l.supply) && l.dealR.all (·.2.1.isEmpty) && (l.stocks.all fun k => k.count == 0) &&
    !s.conts.any (·.launch == l.id) && !s.gangs.any (·.launch == l.id) && !s.commandsRun l.id true && l.drawDrained

/-- LAUNCH_COMPLETION: a launch completes with its status (R34). -/
def execLaunchCompletion (l : Nat) (s : State) : Out :=
  .next <|
    match s.launch? l with
    | none => s
    | some x =>
      if s.relocking (s.serviceDie x) then s else
      match x.phase with
      | .waiting => s
      | .released => if s.drained x then s.completeWhenReady x 0 else s
      | .ending st => if s.commandsRun l false then s else (s.dropStuck l).completeWhenReady x st

end Sys2Proof.Machine
end

