-- ==== Sys2Proof/Machine/Supervise.lean ====
section
/-! DEFINITION. Supervise: what system software and the debugger do to groups and gangs: `TRAPRES`, pre-emption and debug halts
(spec 13 R352-R353, R362-R367, spec 14 R378, spec 18 R411). A step whose condition does not hold leaves the state as it is. -/

namespace Sys2Proof.Machine

/-! ### `TRAPRES` (R352, R353) -/

/-- A write of `TRAPRES` stores its fields (Table 13.5). -/
def State.storeTrapres (s : State) (die ctx act : Nat) (grp : Word) : State :=
  s.updDie die fun d => { d with trapres := BitVec.ofNat 128 (grp.toNat * 2 ^ 64 + ctx % 2 ^ 16 * 2 ^ 48 + act) }

/-- The group that a `TRAPRES` write names: one stopped on the die for the supervisor. -/
def State.supGroup (s : State) (die ctx : Nat) (grp : Word) : Option Group :=
  s.groups.find? fun g => g.die == die && s.groupCtx g == ctx && s.srGroup g == grp.toNat && !g.untended &&
    (match g.stop with | .waitSupervisor _ => true | _ => false)

/-- The stop is a handler fault, for which only terminate is accepted (R353). -/
def Group.handlerFaulted (g : Group) : Bool := (g.trap.map (·.cls)) == some 14

/-- A stranded gang's signatures are discarded, and it may retire (R378). -/
def State.unstrand (s : State) (g : Group) : State :=
  let s := s.updGang g.gang fun ga =>
    { ga with stranded := false, cv := ga.cv.map fun (c : Nat × CvReg) => (c.1, { c.2 with sig := 0, hold := none }) }
  s.updGroup g.id fun g => { g with stop := .running, trap := none }

/-- The group belongs to a stranded gang (R378). -/
def State.isStranded (s : State) (g : Group) : Bool := ((s.gang? g.gang).map (·.stranded)).getD false

/-- TRAPRES_RETRY (R353): the group resumes; a restored gang's tag is compared again (R411). -/
def execTrapresRetry (die ctx : Nat) (grp : Word) (s : State) : Out :=
  .next <|
    let s := s.storeTrapres die ctx 0 grp
    match s.supGroup die ctx grp with
    | none => s
    | some g =>
      if g.handlerFaulted then s
      else if s.isStranded g then s.unstrand g
      else (s.resumeGroup g).compareRestored g.gang

/-- The launch of a group ends with status 0x82 (R353). -/
def State.terminate (s : State) (g : Group) : State :=
  match s.groupLaunch? g with
  | some l => s.endLaunch l.id 0x82
  | none => s

/-- TRAPRES_FORWARD (R353): the group joins the handler-frame order; with HOBJ = 0 its launch is terminated. -/
def execTrapresForward (die ctx : Nat) (grp : Word) (s : State) : Out :=
  .next <|
    let s := s.storeTrapres die ctx 1 grp
    match s.supGroup die ctx grp with
    | none => s
    | some g =>
      if g.handlerFaulted then s
      else if s.isStranded g then s.unstrand g
      else if ((s.groupContext? g).map (·.hobj)).getD 0 = 0 then s.terminate g
      else s.fresh.updGroup g.id fun g =>
        { g with stop := .waitFrame, trap := g.trap.map fun (t : TrapRec) => { t with order := s.next } }

/-- TRAPRES_TERMINATE (R353). -/
def execTrapresTerminate (die ctx : Nat) (grp : Word) (s : State) : Out :=
  .next <|
    let s := s.storeTrapres die ctx 2 grp
    match s.supGroup die ctx grp with
    | none => s
    | some g => s.terminate g

/-! ### `PREEMPT` (R362) -/

/-- Bytes a gang needs of a save slot (R364). -/
def Gang.need (ga : Gang) : Nat := 4096 + 12288 * ga.ngroups + ga.size + 16384 + 262144

/-- The lowest free save slot of a context, where its slots hold `n` bytes. -/
def Context.freeSlot (c : Context) (n : Nat) : Option Nat :=
  if 65536 * c.slotsz < n then none else (List.range c.nslot).find? fun k => !c.slots.contains k

/-- One gang is named: it takes a slot and stops, or is refused (R362). Its arrival at the package barrier and the traps that wait are
withdrawn (R363). -/
def State.stopGang (s : State) (die ctx : Nat) (ga : Gang) : State :=
  let stop (s : State) : State :=
    let s := s.updLaunch ga.launch fun l => l.withdrawn ga.pdie
    { s.updGang ga.id (fun ga => { ga with preempting := true }) with
      groups := s.groups.map fun (g : Group) => if g.gang = ga.id then { g with preempting := true }.withdrawTrap else g }
  if (s.gangGroups ga.id).all (·.retired) ∧ ga.signed = 0 then s.updGang ga.id fun ga => { ga with preempting := true }
  else if ga.slot.isSome then stop s
  else
    match (s.ctx? ctx).bind fun c => c.freeSlot ga.need with
    | some n =>
      stop ((s.updCtx ctx fun c => { c with slots := insertNat c.slots n }).updGang ga.id fun ga => { ga with slot := some n })
    | none => s.updDie die fun d => { d with preempt := d.preempt ||| 2#128 }

/-- Gangs of a context on the clusters of a mask, in cluster order. -/
def State.namedGangs (s : State) (die ctx cmask : Nat) : List Gang :=
  ((List.range 32).filter (bit cmask)).flatMap fun cl =>
    (s.residentGangs die cl).filter fun ga => ((s.launch? ga.launch).map (·.ctx)) == some ctx && !ga.preempting

/-- PREEMPT: a write of the register; with GO = 1 every named gang stops for saving (R362). A write with GO = 0 stores CMASK and
CTX alone. -/
def execPreempt (die : Nat) (v : BitVec 128) (s : State) : Out :=
  .next <|
    match s.die? die with
    | none => s
    | some d =>
      let rw := bits v.toNat 127 80 * 2 ^ 80
      if !bit v.toNat 0 then s.updDie die fun d => { d with preempt := BitVec.ofNat 128 (rw + d.preempt.toNat % 4) }
      else if bit d.preempt.toNat 0 then s
      else
        let s := s.updDie die fun d => { d with preempt := BitVec.ofNat 128 (rw + 1) }
        let ctx := bits v.toNat 95 80
        ((s.namedGangs die ctx (bits v.toNat 127 96)).foldl (fun (s : State) ga => s.stopGang die ctx ga) s).preemptDone die

/-! ### Saving a stopped gang (R363, R364) -/

/-- The waiters of a gang's parked entries are withdrawn; lanes that have read stay read (R227, R363). -/
def State.withdrawWaiters (s : State) (ids : List Nat) : State :=
  let gone := s.accs.filter fun a => ids.contains a.grp && a.isWaiter
  let left (o : CountedOp) : CountedOp :=
    let m := Mask.ofPred fun l => gone.any fun a => a.op == o.id && a.lane == l
    { o with lanes := o.lanes &&& ~~~m }
  { s with
    accs := s.accs.filter fun a => !(ids.contains a.grp && a.isWaiter)
    ops := (s.ops.map fun o => if gone.any (·.op == o.id) then left o else o).filter fun o =>
      !(gone.any (·.op == o.id) && o.lanes == 0) }

/-- A memory-error delivery of the group is pending, or its handling has not ended (R363). -/
def Group.deliveryOpen (g : Group) : Bool :=
  g.frame.isSome || !g.deliver.isEmpty || g.trap.any TrapRec.delivery

/-- An `mma` of the gang holds its pipe at a full matrix queue. No operation of a stopping gang starts (R411), so the lanes that have
still to sign keep their places, and sign after the restore (R363; DESIGN CHOICE, log 96). -/
def State.signStuck (s : State) (ga : Gang) : Bool :=
  (s.gangGroups ga.id).any fun g => decide (4 ≤ g.matq.length) && g.entries.any fun e => e.midway && e.sc.isNone

/-- A sequence of the group is in issue and can still come to its end (R363). -/
def Group.finishing (g : Group) (stuck : Bool) : Bool := g.entries.any fun e => e.midway && !(stuck && e.sc.isNone)

/-- The gang has stopped: nothing of it is in progress but commands in its queues (R363). -/
def State.gangDrained (s : State) (ga : Gang) : Bool :=
  let gs := s.gangGroups ga.id
  let ids := gs.map (·.id)
  let queued := gs.flatMap (fun g => g.engq.map (·.op)) ++ (s.colls.filter fun c => c.cmd.gang == ga.id && c.pending).map (·.cmd.op)
  gs.all (fun g => !g.deliveryOpen && !g.finishing (s.signStuck ga)) && !s.accs.any (fun a => ids.contains a.grp) &&
    (s.ops.all fun o => !ids.contains o.grp || queued.contains o.id) &&
    !(match (s.cluster ga.die ga.cluster).running with | some r => ids.contains r.1 | none => false) &&
    !(s.active.any fun a => a.cmd.gang == ga.id) && !(s.colls.any fun c => c.cmd.gang == ga.id && !c.pending) &&
    !((s.launch? ga.launch).map fun l => l.releasing.contains ga.pdie).getD false

/-- Lanes of a group whose depth entry at the colour unit is not applied yet. -/
def State.depthLanes (s : State) (g : Group) : Mask :=
  match s.groupLaunch? g with
  | none => 0
  | some l => Mask.ofPred fun k => l.draw.any fun f => f.posts.any fun p =>
      match p.depth with | some d => d.grp == g.id && d.lane == k | none => false

/-- The depth entries of a group are withdrawn, for its parked `zcmp` to post again. -/
def State.withdrawDepth (s : State) (g : Group) : State :=
  match s.groupLaunch? g with
  | none => s
  | some l => s.updLaunch l.id fun l =>
      { l with draw := l.draw.map fun (f : Focus) =>
          { f with posts := f.posts.map fun (p : Post) =>
              match p.depth with | some d => if d.grp = g.id then { p with depth := none } else p | none => p } }

/-- What a parked entry waits for in its slot: it stays parked (R364). The waiters of a `barwait` are sent again after restore (R313),
and a `zcmp` whose entries at the colour unit were withdrawn issues again for their lanes. -/
def Park.stowed : Park → Option Park
  | .barwait objs _ => some (.barwait objs (Mask.ofPred fun l => (AMap.get? objs l).isSome))
  | .zcmp _ => none
  | p => some p

/-- A group as its slot holds it: its entries stay parked, a `rep` that stopped between repeats goes on there, and a trap waiting for
the frame or the supervisor is withdrawn (R363, R364). -/
def State.stowed (s : State) (g : Group) (openDepth : Mask) : Group :=
  let g := g.entries.foldl (fun (g : Group) e =>
    match e.park with
    | some (.zcmp c) =>
      if e.mask &&& openDepth = 0 then s.surgeFall g (g.closePark e.mask c)
      else g.updEntry e.mask fun e => { e with restart := some (e.mask &&& openDepth) }
    | _ => g) g
  let g := { g with
    items := g.items.map fun (x : Nat × Item) =>
      if openDepth.has x.1 then
        (x.1, { x.2 with ticket := x.2.ticket.map fun (t : Ticket) => { t with dres := false } })
      else x
    entries := g.entries.map fun (e : Entry) => { e with park := e.park.bind Park.stowed, mid := false } }
  { g with tileWait := none, surgeWait := none, stall := 0, preempting := false }.withdrawTrap

/-- Commands withdrawn from matching go back to the front of their group's engine queue (R318). -/
def State.withdrawColls (s : State) (ga : Gang) : State :=
  let out := s.colls.filter fun c => c.cmd.gang == ga.id && c.pending
  { s with
    colls := s.colls.filter fun c => !(c.cmd.gang == ga.id && c.pending)
    groups := s.groups.map fun (g : Group) =>
      { g with engq := ((out.filter fun c => c.cmd.grp == g.id).map (·.cmd)) ++ g.engq } }

/-- The header of a save slot (Table 13.11). -/
def slotHeader (gang hmask die cl set loc : Nat) : Nat :=
  gang % 2 ^ 64 * 2 ^ 64 + hmask % 2 ^ 16 * 2 ^ 15 + die % 64 * 2 ^ 9 + cl % 32 * 2 ^ 4 + set % 4 * 4 + loc % 4

/-- The tiles of a gang at its save and the header that says where they are: left in place in the lazy mode, written to the slot in
the save-point mode (R204, R205). -/
def State.saveTiles (s : State) (ga : Gang) (c : Context) (k : Nat) : State × Nat × Bool :=
  let own := ga.tset.bind fun n =>
    let r : TagRec := AMap.getD (s.cluster ga.die ga.cluster).tags n {}
    if r.owned && r.gang.toNat == ga.sr % 2 ^ 46 && r.ctx.toNat == c.num % 2 ^ 16 then some (n, r) else none
  match own with
  | none =>
    let old := (s.slotOf c ga.sr).map fun n => s.rd (c.slotAddr n) 8
    let w := old.getD 0
    (s, slotHeader ga.sr (bits w 30 15) (bits w 14 9) (bits w 8 4) (bits w 3 2) (bits w 1 0), ga.savePoint)
  | some (n, r) =>
    if !c.savem then (s, slotHeader ga.sr 0 ga.die ga.cluster n (if r.held = 0 then 0 else 1), false)
    else
      let held := r.held &&& ga.live
      let mem := ((List.range 16).filter held.getLsbD).foldl (fun m t =>
        Memory.copy m (tileLoc ga.die ga.cluster (16384 * (16 * n + t))) (c.slotTile k t) 16384) s.mem
      let s := ({ s with mem := mem }).updCluster ga.die ga.cluster fun (x : Cluster) =>
        { x with tags := AMap.set x.tags n { r with owned := false } }
      (s, slotHeader ga.sr held.toNat 0 0 0 (if held = 0 then 0 else 2), true)

/-- Write a stopped gang to its slot and clear its range (R363, R364, R231). -/
def State.saveGang (s : State) (ga : Gang) (c : Context) (k : Nat) : State :=
  let s := s.withdrawColls ga
  let (s, hdr, sp) := s.saveTiles ga c k
  let s := (s.forgetSaved { ga with saved := some k } c.num).wr (c.slotAddr k) 64 hdr
  let lo := storeLoc ga.die ga.cluster ga.start
  let gs := s.gangGroups ga.id
  let slice := match ga.tset with
    | some n => Memory.slice s.mem (scaleLoc ga.die ga.cluster (16384 * n)) (scaleLoc ga.die ga.cluster (16384 * (n + 1)))
    | none => ga.savedScale
  let s := s.updGang ga.id fun x =>
    { x with
      saved := some k, savePoint := sp, preempting := false, stranded := false, tset := none, savedScale := slice
      savedGroups := gs.map fun g => s.stowed g (s.depthLanes g)
      savedStore := Memory.slice s.mem lo (lo + ga.size)
      savedFull := (s.full.filter fun a => decide (lo / 16 ≤ a) && decide (a < (lo + ga.size) / 16)).map (· - lo / 16) }
  let s := gs.foldl State.withdrawDepth s
  let s := { s with groups := s.groups.filter fun g => g.gang ≠ ga.id }
  ((s.pruneReqs.clearSlice ga).startClear ga).preemptDone ga.die

/-- GANG_SAVED: a stopped gang's waiters are withdrawn; once it has drained it is written to its slot (R363). -/
def execGangSaved (gang : Nat) (s : State) : Out :=
  .next <|
    match s.gang? gang with
    | none => s
    | some ga =>
      if !ga.preempting || ga.saved.isSome then s
      else
        let ids := (s.gangGroups gang).map (·.id)
        if s.accs.any fun a => ids.contains a.grp && a.isWaiter then s.withdrawWaiters ids
        else
          match ga.slot, (s.launch? ga.launch).bind fun l => s.ctx? l.ctx with
          | some k, some c => if s.gangDrained ga then s.saveGang ga c k else s
          | _, _ => s

/-! ### Debug (R366, R367) -/

/-- Groups that a `DBGCTL` write acts on: the target, or with GANG = 1 every group of its gang; none unless DBGEN = 1. -/
def State.dbgTargets (s : State) (die : Nat) (v : BitVec 128) : List Nat :=
  let ctx := bits v.toNat 63 48
  if !((s.ctx? ctx).map (·.dbgen)).getD false then []
  else
    match s.groups.find? fun g => g.die == die && s.groupCtx g == ctx && s.srGroup g == bits v.toNat 127 64 with
    | none => []
    | some g => if bit v.toNat 3 then (s.gangGroups g.gang).map (·.id) else [g.id]

/-- A write of `DBGCTL` stores its RW fields (Table 13.12) and acts on its targets. -/
def State.dbgWrite (s : State) (die : Nat) (v : BitVec 128) (f : Group → Group) : State :=
  let ids := s.dbgTargets die v
  let rw := bits v.toNat 127 48 * 2 ^ 48 + bits v.toNat 5 5 * 32 + bits v.toNat 3 3 * 8 + bits v.toNat 1 0
  { s.updDie die (fun d => { d with dbgctl := BitVec.ofNat 128 rw }) with
    groups := s.groups.map fun (g : Group) => if ids.contains g.id then f g else g }

/-- DBG_HALT: the targets are to halt (R366). -/
def execDbgHalt (die : Nat) (v : BitVec 128) (s : State) : Out :=
  .next <| s.dbgWrite die v fun g => if g.halted then g else { g with haltReq := true }

/-- A halted group goes on (R366). -/
def Group.unhalt (g : Group) : Group :=
  if g.halted then { g with halted := false, doneCmds := [], haltRec := none } else g

/-- DBG_RESUME: the targets go on (R366). -/
def execDbgResume (die : Nat) (v : BitVec 128) (s : State) : Out :=
  .next <| s.dbgWrite die v fun g => { g.unhalt with haltReq := false, stepping := false }

/-- DBG_STEP: each halted target issues one sequence of its selected entry, then halts (R366). -/
def execDbgStep (die : Nat) (v : BitVec 128) (s : State) : Out :=
  .next <| s.dbgWrite die v fun g => if g.halted then { g.unhalt with stepping := true } else g

/-- HALT_TAKES_EFFECT: a requested halt takes effect at a sequence boundary, between repeats or in handler mode too; CLASS = 0 and the
rest of the record is zero (R366, R367). -/
def execHaltTakesEffect (g : Nat) (s : State) : Out :=
  .next <|
    s.updGroup g fun g =>
      if g.haltReq && !g.halted && !g.front.any Entry.midway then
        { g with halted := true, haltReq := false, doneCmds := [], haltRec := some { cls := 0, words := 0 } }
      else g

/-! ### The debug aperture (R367)

No row of the opcode table reads the aperture: these are what a read of it gives (log 87). -/

/-- Record words 0-7 of a halt: all zero for one by `DBGCTL`. -/
def State.haltWords (s : State) (g : Group) : List Nat :=
  match g.haltRec with
  | some t => if t.cls = 0 then List.replicate 8 0 else s.trapWords { g with frame := none } t
  | none => []

/-- Numbers that a class of Table 13.9 has, with all eight record words. -/
def apertureRange : Nat → Nat
  | 0 => 32 | 1 => 16 | 2 => 1 | 3 => 64 | 4 => 8 | 5 => 4 | _ => 0

/-- A word of a halted group's state through the aperture, by class of Table 13.9, number and lane; none where there is no such word
or the group is not halted. -/
def State.aperture (s : State) (g : Group) (cl n l : Nat) : Option Word :=
  if g.halted && decide (n < apertureRange cl) && decide (l < 32) then
    some (s.innerWord g { pc := 0, mask := 0 } (s.haltWords g) cl n l)
  else none

/-- Lanes of the parked `ldfe` entries of a group that have already read, by PC (R227). -/
def Group.ldfeMasks (g : Group) : List (Nat × Mask) :=
  (g.entries.filter fun e => e.park == some .ldfe).map fun e => (e.pc, e.readDone)

/-- The masks of parked `ldfe` entries through the aperture: none of a group that is not halted (R227, R367). -/
def State.apertureMasks (s : State) (g : Nat) : Option (List (Nat × Mask)) :=
  (s.group? g).bind fun g => if g.halted then some g.ldfeMasks else none

/-- Command states seen by the debugger (Table 13.13). -/
inductive CmdState where
  | queued
  | guarded
  | active
  | complete
  deriving DecidableEq, Repr

/-- Code of a command state. -/
def CmdState.code : CmdState → Nat
  | .queued => 0 | .guarded => 1 | .active => 2 | .complete => 3

/-- The commands and matrix operations of a halted group with their states (R367, Table 13.13). -/
def State.cmdStates (s : State) (g : Group) : List (Nat × CmdState) :=
  let run := match (s.cluster g.die g.cluster).running with | some r => if r.1 = g.id then some r.2.stamp else none | none => none
  (g.engq.mapIdx fun k c => (c.id, if k = 0 ∧ g.heldHead then CmdState.guarded else .queued)) ++
    (g.matq.map fun o => (o.stamp, if run = some o.stamp then CmdState.active else .queued)) ++
    ((s.active.filter fun a => a.cmd.grp == g.id).map fun a => (a.cmd.id, CmdState.active)) ++
    ((s.colls.filter fun c => c.cmd.grp == g.id).map fun c => (c.cmd.id, CmdState.active)) ++
    g.doneCmds.map fun id => (id, CmdState.complete)

/-- What a read of a die's `DBGCTL` gives: QDONE and HALTED are those of the target (Table 13.12). -/
def State.readDbgctl (s : State) (die : Nat) : Nat :=
  match s.die? die with
  | none => 0
  | some d =>
    let ids := s.dbgTargets die d.dbgctl
    let gs := s.groups.filter fun g => ids.contains g.id
    let halted := gs != [] && gs.all (·.halted)
    let busy := gs.any fun g => !g.matq.isEmpty || (!g.heldHead && !g.engq.isEmpty) || (s.active.any fun a => a.cmd.grp == g.id) ||
      s.colls.any fun c => c.cmd.grp == g.id
    d.dbgctl.toNat + 16 * b2n halted + 64 * b2n (bit d.dbgctl.toNat 5 && !busy && gs != [])

end Sys2Proof.Machine
end

