-- ==== Sys2Proof/Machine/Clock.lean ====
section
/-! DEFINITION. Clock: the passing of time, frequency steps, heartbeats and the region watchdogs (spec 11 R321-R325, spec 02 R53,
spec 15 R391, R400). A step whose condition does not hold leaves the state as it is. -/

namespace Sys2Proof.Machine

/-! ### Frequency steps (R322, R323) -/

/-- The frequencies of a die, in units of 100 MHz (Table 11.8). -/
def clockSteps : List Nat := [18, 16, 14, 12, 10, 8]

/-- A die's power manager may start a step: none is under way, and 50 µs have passed since the last (R322). -/
def Die.canStep (d : Die) (now : Nat) : Bool :=
  d.relock.isNone && !d.failed && (match d.lastRelock with | some t => decide (t + 50000 ≤ now) | none => true)

/-- Start a step to another frequency: the step record is written and the die relocks for 2 µs (R322, R323). -/
def State.startStep (s : State) (die f : Nat) : State :=
  s.updDie die fun d =>
    if clockSteps.contains f && f != d.freq && d.canStep s.gtime then
      { d with
        stepG := s.gtime, stepC := d.cyc + 1, ratio := BitVec.ofNat 64 (d.freq * 256 + f), relock := some (s.gtime + 2000)
        hot := d.hot && decide (f < d.freq) }
    else d

/-- FREQUENCY_STEP: the power manager of a die starts a frequency step (R322). -/
def execFrequencyStep (die f : Nat) (s : State) : Out := .next (s.startStep die f)

/-- The die runs on at its new frequency; its first cycle reads C (R322). -/
def Die.relocked (d : Die) (now t : Nat) : Die :=
  let f := d.ratio.toNat % 256
  let n := (now - t) * f
  { d with relock := none, lastRelock := some t, freq := f, cyc := d.stepC + n / 10, frac := n % 10 }

/-- RELOCK_END: the die runs on (R322); what has reached it of package barriers takes effect in its first cycle (R421). -/
def execRelockEnd (die : Nat) (s : State) : Out :=
  .next <|
    match (s.die? die).bind (·.relock) with
    | some t =>
      if t ≤ s.gtime then
        s.launches.foldl (fun (s : State) x => s.pbarReaches x die) (s.updDie die fun d => d.relocked s.gtime t)
      else s
    | none => s

/-! ### Heartbeats (R53, R391) -/

/-- The group keeps its core under watch: not halted, being pre-empted, stopped for the supervisor or waiting for the frame
(R391). -/
def Group.watched (g : Group) : Bool :=
  !g.halted && !g.preempting && !g.retired &&
    (match g.stop with | .waitSupervisor _ => false | .waitFrame => false | _ => true)

/-- Stall counts of a core after heartbeats: last progress count, heartbeats without progress, scanned out (R391). -/
def stallBeat (n progress : Nat) (watched : Bool) (x : Nat × Nat × Bool) : Nat × Nat × Bool :=
  if x.1 ≠ progress then (progress, 0, false) else if watched then (progress, x.2.1 + n, x.2.2) else (progress, 0, x.2.2)

/-- Heartbeats reach the cores of a cluster. -/
def State.clusterBeat (s : State) (n : Nat) (c : Cluster) : Cluster :=
  let gs := s.residents (c.key / 32) (c.key % 32)
  { c with stalls := (List.range 4).map fun k =>
      (k, stallBeat n (AMap.getD c.progress k 0) (gs.any fun g => g.core == k && g.watched) (AMap.getD c.stalls k (0, 0, false))) }

/-- A launch without stock on a die is not starved there (R53). -/
def State.launchBeat (s : State) (l : Launch) : Launch :=
  { l with starve := l.starve.map fun (x : Nat × Nat) =>
      if (List.range l.nstage).any fun k => decide (0 < s.stockOf l x.1 k) then x else (x.1, s.gtime) }

/-- A written threshold takes effect at a heartbeat after the write, and the stall counts of the die's cores begin again from zero
(R400); a core that was scanned out waits for its counter to move all the same (R391). -/
def State.wdtDue (s : State) (now die : Nat) : State :=
  match (s.die? die).bind (·.wdtNext) with
  | some (w, h) =>
    if h < now / 2048 then
      let s := s.updDie die fun d => { d with wdt := w, wdtNext := none }
      { s with clusters := s.clusters.map fun (c : Cluster) =>
          if c.key / 32 = die then
            { c with stalls := c.stalls.map fun (x : Nat × Nat × Nat × Bool) => (x.1, x.2.1, 0, x.2.2.2) }
          else c }
    else s
  | none => s

/-- `n` heartbeats pass; those during which a die relocks do not count for its watchdogs (R325). -/
def State.beat (s : State) (n : Nat) : State :=
  if n = 0 then s
  else
    let written (die : Nat) : Bool := ((s.die? die).bind (·.wdtNext)).isSome
    let s := s.dies.foldl (fun (s : State) d => s.wdtDue s.gtime d.num) s
    { s with
      clusters := s.clusters.map fun c =>
        if s.relocking (c.key / 32) then c else s.clusterBeat (if written (c.key / 32) then n - 1 else n) c
      launches := s.launches.map s.launchBeat }

/-- A die's cycle counter over some nanoseconds (R322). -/
def Die.pass (d : Die) (ns : Nat) : Die :=
  if d.relock.isSome then d
  else
    let n := d.frac + ns * d.freq
    { d with cyc := d.cyc + n / 10, frac := n % 10 }

/-- Cycles of its die that a ready group not chosen has waited count toward its level (R90). -/
def Group.wait (g : Group) (cycles : Nat) : Group := if g.waits then { g with waited := g.waited + cycles } else g

/-- Every yielded flag clears once no entry is both unparked and unyielded (R96). DESIGN CHOICE (log 77): R96 does not say
whether the refill pseudo-entry of R98 is such an entry; it is one, and a group that holds it clears no flag for it. -/
def Group.settle (g : Group) (refill : Bool) : Group :=
  if refill || g.front.any fun e => e.park.isNone && !e.yielded then g
  else g.setFront (g.front.map fun e => { e with yielded := false })

/-- What the passing of time does to a group of the state after it: `s` is the state before. -/
def State.groupPass (s t : State) (g : Group) : Group :=
  let cyc (s : State) : Nat := ((s.die? g.die).map (·.cyc)).getD 0
  (g.wait (cyc t - cyc s)).settle (g.frame.isNone && t.holdsRefill g)

/-- Time passes: 1 ns and as many more as a free value says (log 6). -/
def State.pass (s : State) : State :=
  let ns := 1 + Config.elapsed s.draw
  let now := s.gtime + ns
  let t := { s with gtime := now, draw := s.draw + 1, dies := s.dies.map fun (d : Die) => d.pass ns }
  { t with groups := t.groups.map (s.groupPass t) }.beat (now / 2048 - s.gtime / 2048)

/-- WATCHDOG_SCANOUT: a core stalled for WDT heartbeats is scanned out to the event log: the state of its groups, their counters and
command states, and the masks of parked `ldfe` entries (R227, R367, R391). -/
def execWatchdogScanout (die cl core : Nat) (s : State) : Out :=
  .next <|
    match s.die? die with
    | none => s
    | some d =>
      let x := AMap.getD (s.cluster die cl).stalls core (0, 0, false)
      if d.wdt ≠ 0 ∧ d.wdt.toNat ≤ x.2.1 ∧ x.2.2 = false then
        let s := s.updCluster die cl fun c => { c with stalls := AMap.set c.stalls core (x.1, x.2.1, true) }
        let gs := (s.residents die cl).filter (·.core == core)
        let log : Scanout :=
          { die := die, cluster := cl, core := core, groups := gs
            counters := gs.map fun g => (g.id, (List.range 4).map (s.counter g.id))
            commands := gs.map fun g => (g.id, (s.cmdStates g).map fun c => (c.1, c.2.code))
            readLanes := gs.map fun g => (g.id, g.ldfeMasks) }
        (s.updPkg fun p => { p with scanouts := p.scanouts ++ [log] }).event 4 die (cl * 4 + core)
      else s

/-- WDTCTL_WRITE: the new threshold takes effect at the next heartbeat (R400). -/
def execWdtctlWrite (die : Nat) (v : BitVec 64) (s : State) : Out :=
  .next <| s.updDie die fun d => { d with wdtNext := some (v.truncate 16, s.gtime / 2048) }

/-- WDT_RESTART: at a heartbeat after the write the threshold holds and the stall counts begin again (R400). The passing of time takes
this step itself at the heartbeat, so that a write is never due and waiting. -/
def execWdtRestart (die : Nat) (s : State) : Out := .next (s.wdtDue s.gtime die)

end Sys2Proof.Machine
end

