-- ==== Sys2Proof/Machine/Retirement.lean ====
section
/-! DEFINITION. Retirement: the retirement log, corrected errors and the replies of the base die (spec 09 R244-R245, spec 15
R392-R393). A step whose condition does not hold leaves the state as it is. -/

namespace Sys2Proof.Machine

/-! ### Entries (Table 15.4) -/

/-- The committed value of COMMIT. -/
def committedWord : BitVec 32 := 0x5A5AC3C3

/-- One bit of the reflected CRC-32 division. -/
def crcBit (c : Nat) : Nat := if c % 2 = 1 then (c / 2) ^^^ 0xEDB88320 else c / 2

/-- One byte of the CRC. -/
def crcByte (c b : Nat) : Nat := (List.range 8).foldl (fun c _ => crcBit c) (c ^^^ b)

/-- CRC-32 over the low `n` bytes of a number (R392; log 29). -/
def crc32 (n x : Nat) : Nat :=
  ((List.range n).foldl (fun c i => crcByte c (x / 256 ^ i % 256)) 0xFFFFFFFF) ^^^ 0xFFFFFFFF

namespace RetEntry

/-- Bytes 0-23 of an entry. -/
def body (e : RetEntry) : Nat :=
  e.seq % 2 ^ 32 * 2 ^ 160 + e.kind % 256 * 2 ^ 152 + e.site % 256 * 2 ^ 144 + e.offset % 2 ^ 36 * 2 ^ 64

/-- The 32 bytes of an entry. -/
def toNat (e : RetEntry) : Nat := e.commit.toNat * 2 ^ 224 + e.crc.toNat * 2 ^ 192 + e.body

/-- An entry from its 32 bytes. -/
def ofNat (n : Nat) : RetEntry :=
  { commit := BitVec.ofNat 32 (bits n 255 224), crc := BitVec.ofNat 32 (bits n 223 192), seq := bits n 191 160
    kind := bits n 159 152, site := bits n 151 144, offset := bits n 99 64 }

/-- COMMIT is programmed and the CRC matches (R393). -/
def good (e : RetEntry) : Bool := e.commit == committedWord && e.crc == BitVec.ofNat 32 (crc32 24 e.body)

/-- A whole entry. -/
def mk' (seq kind site offset : Nat) : RetEntry :=
  let e : RetEntry := { commit := committedWord, crc := 0, seq := seq, kind := kind, site := site, offset := offset }
  { e with crc := BitVec.ofNat 32 (crc32 24 e.body) }

/-- An entry of which only the first `k` bytes have been programmed; the others are erased (Table 15.5). -/
def upTo (e : RetEntry) (k : Nat) : RetEntry :=
  ofNat (e.toNat % 256 ^ k + (2 ^ 256 - 256 ^ Nat.min k 32))

end RetEntry

/-- The log as a boot reads it: up to the first entry that is not good (R393). -/
def bootLog (es : List RetEntry) : List RetEntry := es.takeWhile RetEntry.good

/-- The page of a site is retired, or about to be. -/
def Package.pageGone (p : Package) (site offset : Nat) : Bool :=
  (bootLog p.flash.log ++ p.appending).any fun e => e.kind == 1 && e.site == site && e.offset == offset

/-- Begin an append of an entry (R392, R393). -/
def Package.append (p : Package) (kind site offset : Nat) : Package :=
  let seq := (bootLog p.flash.log).length + p.appending.length
  { p with appending := p.appending ++ [RetEntry.mk' seq kind site offset] }

/-- The management controller appends an entry for a page, once (R392). -/
def Package.retirePage (p : Package) (site offset : Nat) : Package :=
  if p.pageGone site offset then p else p.append 1 site offset

/-- What the management controller does between steps: pages that met an uncorrectable error are put up for retirement, and the
oldest append is programmed, bytes 0-27 and then COMMIT (R392, R393). -/
def State.controller (s : State) : State :=
  let s := s.updPkg fun p =>
    { p.badPages.foldl (fun (p : Package) x => p.retirePage x.1 x.2) p with badPages := [] }
  match s.pkg.appending with
  | [] => s
  | e :: t =>
    (s.updPkg fun p =>
      let fl : Flash := { p.flash with log := bootLog p.flash.log ++ [e] }
      { p with appending := t, flash := fl }).event 5 e.seq e.kind

/-- The management controller has something to do. -/
def State.controllerBusy (s : State) : Bool := !s.pkg.badPages.isEmpty || !s.pkg.appending.isEmpty

/-! ### Replies and corrected errors -/

/-- HBM_REPLY: the render die receives data, poison or an acknowledgement for a packet (R244, R245). -/
def execHbmReply (die tag : Nat) (s : State) : Out :=
  .next <|
    match s.accs.find? fun a => a.phase == .hbmDone && a.home == die && a.tag == tag with
    | none => s
    | some a =>
      if s.relocking die then s
      else if !a.bad then s.returnAcc a a.result
      else if a.die = a.home then s.poisonEnd a
      else s.reply a id

/-- CORRECTED_ERROR_RETIRE: a corrected error in a 64 KiB page; the sixteenth within an hour retires the page (R392). -/
def execCorrectedErrorRetire (die page : Nat) (s : State) : Out :=
  .next <|
    match s.die? die with
    | none => s
    | some d =>
      s.updPkg fun p =>
        let recent := (p.pageErrors ++ [(die, page, s.gtime)]).filter fun x => decide (s.gtime < x.2.2 + 3600000000000)
        if 16 ≤ (recent.filter fun x => x.1 == die && x.2.1 == page).length then
          { p.retirePage (9 * d.py + d.px) (65536 * page) with
            pageErrors := recent.filter fun x => !(x.1 == die && x.2.1 == page) }
        else { p with pageErrors := recent }

end Sys2Proof.Machine
end

