-- ==== Sys2Proof/Machine/Failure.lean ====
section
/-! DEFINITION. Failure: failures of edges, ports and dies, and the partitions declared failed for them (spec 02 R45, spec 11 R315,
R320, spec 12 R338, spec 15 R380, R383, R389-R390). -/

namespace Sys2Proof.Machine

/-- A partition holds a stalled pair of dies (R45). -/
def State.holdsStalled (s : State) (_ : Context) (p : Partition) : Bool :=
  let ds := (List.range 64).filter fun d => p.dmask.getLsbD d && (s.die? d).isSome
  ds.any fun a => ds.any fun b => a != b && s.stalledPair a b

/-- EDGE_FAILURE: a physical edge or router fails; every partition that holds a stalled pair is declared failed (R45). -/
def execEdgeFailure (px py dir : Nat) (s : State) : Out :=
  .next <|
    if 9 ≤ px ∨ 8 ≤ py ∨ 4 < dir then s
    else
      let e := edgeOf px py dir
      let s := s.updPkg fun p => if p.edgesFailed.contains e then p else { p with edgesFailed := p.edgesFailed ++ [e] }
      s.failParts s.holdsStalled

/-! ### Host-link ports (R380) -/

/-- Some leaf under a table maps host memory. -/
def State.mapsHost (s : State) : Nat → Nat → Nat → Bool
  | 0, _, _ => false
  | fuel + 1, level, tbl =>
    (List.range (2 ^ (levelBits level).2)).any fun i =>
      let a := tbl + 8 * i
      let e := s.rd a 8
      !paHost a && paOk a && bit e 0 &&
        (if bit e 1 then paHost (pteAddr e) else level != 4 && s.mapsHost fuel (level + 1) (pteAddr e))

/-- HOST_LINK_PORT_FAIL: every partition with a host page in its address space is declared failed (R380). -/
def execHostLinkPortFail (port : Nat) (s : State) : Out :=
  .next <|
    if 4 ≤ port then s
    else
      let s := s.updPkg fun p => { p with portsFailed := insertNat p.portsFailed port }
      s.failParts fun c _ => s.mapsHost 5 0 c.root

/-- A write of a launch to a peer port has no acknowledgement yet. -/
def State.awaitsPeer (s : State) (l : Launch) (n : Nat) : Bool :=
  (s.accs.any fun a => a.phase == .toPeer n &&
    (match (s.group? a.grp).bind s.groupLaunch? with | some x => x.id == l.id | none => false)) ||
  (s.active.any fun a => a.cmd.launch == l.id && a.ports.contains n) ||
  s.colls.any fun c => c.cmd.launch == l.id && !c.pending && (s.collTargets c).any fun b => b.2 == n + 1

/-- PEER_PORT_FAIL: writes through the port stay unacknowledged, and the partitions of their launches are declared failed (R379,
R383). -/
def execPeerPortFail (n : Nat) (s : State) : Out :=
  .next <|
    if 8 ≤ n then s
    else
      let s := s.updPkg fun p => { p with peersFailed := insertNat p.peersFailed n }
      (s.launches.filter fun l => l.live && s.awaitsPeer l n).foldl (fun (s : State) l => s.failLaunchPartition l) s

/-! ### Dies (R389) -/

/-- The tick that waits only for failed dies closes (R338). -/
def State.closeTick (s : State) : State :=
  if s.tickGathered && s.ticks.any (·.1 == s.closed) then { s with closed := s.closed + 1, ticks := AMap.erase s.ticks s.closed }
  else s

/-- What a failed die was doing ends: its writes not yet performed never are, and neither are those that groups which have ended left on
their way to it (R338). -/
def State.stopDie (s : State) (die : Nat) : State :=
  { s with
    accs := s.accs.filter fun a => a.die ≠ die ∧ (a.home ≠ die ∨ (s.group? a.grp).isSome)
    reqs := s.reqs.filter fun (r : UnitReq) => r.die ≠ die
    active := s.active.filter fun a => a.die ≠ die
    streams := s.streams.filter fun st => st.src ≠ die ∧ st.dst ≠ die
    colls := s.colls.filter fun c => c.die ≠ die
    walks := s.walks.filter fun w => w.die ≠ die
    collapses := s.collapses.map fun (c : Collapse) => { c with todo := c.todo.filter (· ≠ die) } }

/-- A package barrier of the launch is open: some item of it is parked at `pbar` (R315). -/
def State.barrierOpen (s : State) (l : Launch) : Bool :=
  !l.arrived.isEmpty || !l.releasing.isEmpty || s.groups.any fun g => ((s.gang? g.gang).map (·.launch)) == some l.id && g.atPbar != 0

/-- DIE_FAILED: a die that neither network reaches, or that reports a fatal error, becomes failed: the controller excludes it, breaks
the open barriers and raises event 0x02. Declaring its partitions failed comes as the step's second turn, so that the survivors of a
broken barrier may run on with PBRK before their launch ends (R389, R315; log 73). -/
def execDieFailed (die : Nat) (s : State) : Out :=
  .next <|
    match s.die? die with
    | none => s
    | some d =>
      if d.failed then
        if s.pkg.declaring.contains die then
          (s.failParts fun _ p => p.dmask.getLsbD die).updPkg fun p => { p with declaring := p.declaring.filter (· ≠ die) }
        else s
      else
        let s := (s.updDie die fun d => { d with failed := true }).stopDie die
        let s := s.closeTick
        let s := (s.launches.filter fun l => l.live && l.dies.contains die && s.barrierOpen l).foldl
          (fun (s : State) l => s.breakBarrier l.id die) s
        ((s.failColls die).event 2 die 0).updPkg fun p => { p with declaring := insertNat p.declaring die }

end Sys2Proof.Machine
end

