-- ==== Sys2Proof/Machine/Boot.lean ====
section
/-! DEFINITION. Boot: sites, the logical mesh and its paths, the lens table, boot states, the firmware image and attestation (spec 02
R38-R46, spec 15 R384-R388). A step whose condition does not hold leaves the state as it is. -/

namespace Sys2Proof.Machine

/-! ### Sites (R39, R384) -/

/-- A class no higher than another. -/
def Site.cap : Site → Site → Site
  | .dark, _ => .dark
  | .routerOnly, .full => .routerOnly
  | .routerOnly, x => x
  | .full, x => x

/-- The ends of an edge, or the site of a router. -/
def edgeEnds (e : Nat × Nat × Nat) : List (Nat × Nat) :=
  match e with
  | (x, y, 0) => [(x, y), (x + 1, y)]
  | (x, y, 1) => [(x, y), (x, y + 1)]
  | (x, y, _) => [(x, y)]

/-- The class of a site at this boot: what self-test finds, no higher than committed demotions say (R39, R384). A failed router
makes its site dark; a failed edge counts only where compute does not pass, for router-only asks all four edges of a site (log
31). -/
def Package.classify (p : Package) (n : Nat) : Site :=
  let found := p.tested.getD n .dark
  let found :=
    if p.edgesFailed.contains (n % 9, n / 9, 4) then .dark
    else if found = .routerOnly ∧ (p.edgesFailed.any fun e => (edgeEnds e).contains (n % 9, n / 9)) = true then .dark
    else found
  (bootLog p.flash.log).foldl (fun c (e : RetEntry) =>
    if e.site ≠ n then c else if e.kind = 2 then c.cap .routerOnly else if e.kind = 3 then .dark else c) found

/-! ### The logical mesh (R40-R42) -/

/-- Columns of a row's full sites, ascending. -/
def fullCols (cs : List Site) (py : Nat) : List Nat := (List.range 9).filter fun px => cs.getD (9 * py + px) .dark == .full

/-- Logical rows of a grade. -/
def gradeRows (grade : Nat) : Nat := grade / 8

/-- The sites of the logical dies in order, or none where too few rows qualify (R40). -/
def formMesh (cs : List Site) (rows : Nat) : Option (List (Nat × Nat)) :=
  let used := ((List.range 8).filter fun py => decide (8 ≤ (fullCols cs py).length)).take rows
  if used.length < rows then none
  else some (used.flatMap fun py => ((fullCols cs py).take 8).map fun px => (px, py))

/-- Numbers from `a` to `b`, both included, in that direction. -/
def fromTo (a b : Nat) : List Nat :=
  if a ≤ b then (List.range (b - a + 1)).map (a + ·) else (List.range (a - b + 1)).map (a - ·)

/-- A path is usable: its intermediate sites are not dark. -/
def pathOpen (cs : List Site) (p : List (Nat × Nat)) : Bool :=
  ((p.drop 1).dropLast).all fun x => cs.getD (9 * x.2 + x.1) .dark != .dark

/-- Path of a link from its west or north end (R41). -/
def linkPath (cs : List Site) (a b : Nat × Nat) (east : Bool) : Option (List (Nat × Nat)) :=
  let row (y x0 x1 : Nat) : List (Nat × Nat) := (fromTo x0 x1).map fun x => (x, y)
  let col (x y0 y1 : Nat) : List (Nat × Nat) := (fromTo y0 y1).map fun y => (x, y)
  let cands : List (List (Nat × Nat)) :=
    if east then
      [row a.2 a.1 b.1] ++ (if a.2 = 0 then [] else [a :: row (a.2 - 1) a.1 b.1 ++ [b]]) ++
        (if a.2 < 7 then [a :: row (a.2 + 1) a.1 b.1 ++ [b]] else [])
    else
      [ (col a.1 a.2 b.2).dropLast ++ row b.2 a.1 b.1, (row a.2 a.1 b.1).dropLast ++ col b.1 a.2 b.2 ]
  (cands.find? (pathOpen cs)).bind fun p => if p.length ≤ 5 then some p else none

/-- The four links of a die: direction, the neighbour it reaches and its path, or none where it has no path; the paths of a link's
two directions are each other's reverse (R41). -/
def dieLinks (cs : List Site) (ms : List (Nat × Nat)) (n : Nat) : List (Nat × Option (List (Nat × Nat))) :=
  let at' (k : Nat) : Nat × Nat := ms.getD k (0, 0)
  (if n % 8 < 7 then [(0, linkPath cs (at' n) (at' (n + 1)) true)] else []) ++
    (if n + 8 < ms.length then [(1, linkPath cs (at' n) (at' (n + 8)) false)] else []) ++
    (if 0 < n % 8 then [(2, (linkPath cs (at' (n - 1)) (at' n) true).map List.reverse)] else []) ++
    (if 8 ≤ n then [(3, (linkPath cs (at' (n - 8)) (at' n) false).map List.reverse)] else [])

/-- All links of a mesh, with their measured latencies; none where one has no path of at most 4 hops (R42). -/
def formLinks (cs : List Site) (ms : List (Nat × Nat)) (draw : Nat) : Option (List LinkPath) :=
  let all := (List.range ms.length).flatMap fun n => (dieLinks cs ms n).map fun l => (n, l)
  if all.any fun l => l.2.2.isNone then none
  else some (all.map fun l =>
    { die := l.1, dir := l.2.1, path := l.2.2.getD [], lat := Config.linkLatency draw (4 * l.1 + l.2.1) % 2 ^ 16 })

/-! ### The lens table (R46) -/

/-- Site byte of a site. -/
def siteByte (cs : List Site) (ms : List (Nat × Nat)) (n : Nat) : Nat :=
  match cs.getD n .dark with
  | .dark => 0
  | .routerOnly => 1
  | .full => if ms.contains (n % 9, n / 9) then 2 else 3

/-- The words of the lens table: offset, bytes, value (Tables 2.3-2.5). -/
def lensWords (cs : List Site) (ms : List (Nat × Nat)) (ls : List LinkPath) (gen grade : Nat) : List (Nat × Nat × Nat) :=
  let full := (cs.filter (· == .full)).length
  let hdr :=
    if ms = [] then full * 2 ^ 96 + 2 ^ 16 + 0x4C4E
    else full * 2 ^ 96 + grade * 2 ^ 88 + gradeRows grade * 2 ^ 80 + 8 * 2 ^ 72 + gen % 2 ^ 32 * 2 ^ 32 + 2 ^ 16 + 0x4C4E
  (0, 64, hdr) :: (ms.mapIdx fun n p => (64 + 8 * n, 8, 256 + p.1 * 16 + p.2)) ++
    (ls.map fun l => (576 + 32 * l.die + 8 * l.dir, 8, l.lat * 2 ^ 16 + (l.path.length - 1))) ++
    ((List.range 72).map fun n => (2624 + n, 1, siteByte cs ms n))

/-- Publish the lens table. -/
def State.publish (s : State) (ws : List (Nat × Nat × Nat)) : State :=
  ws.foldl (fun (s : State) w => s.wr (lensLoc + w.1) w.2.1 w.2.2) { s with mem := Memory.clear s.mem lensLoc (lensLoc + 65536) }

/-! ### Boot (R384-R387) -/

/-- Why the ROM refuses the image in flash (Table 15.3). -/
def Flash.refused (f : Flash) : Option Nat :=
  if !f.imageCommitted then some 1 else if !f.imageSigOk then some 2 else if f.imageSecVer < f.minSecVer then some 3 else none

/-- Boot ends in a state, and event 0x07 is raised. -/
def State.bootEnds (s : State) (st cause : Nat) : State :=
  (s.updPkg fun p => { p with boot := st, bootCause := cause }).event 7 st cause

/-- The mesh stands: its generation, its mirror maps, its dies and its lens table (R43, R44, R46). Within a generation the lens
table is constant: an unchanged mesh keeps the latencies measured when its generation began. NFULL and the site bytes are published as this boot
classified the sites, though a spare or unused site has another class than when the generation began (log 69). -/
def State.meshStands (s : State) (cs : List Site) (ms : List (Nat × Nat)) (ls : List LinkPath) : State :=
  let f := s.pkg.flash
  let shape (xs : List LinkPath) : List (Nat × Nat × List (Nat × Nat)) := xs.map fun l => (l.die, l.dir, l.path)
  let same := f.mapping == ms && shape f.paths == shape ls
  let gen := if same then f.gen else f.gen + 1
  let ls := if same then f.paths else ls
  let s := s.updPkg fun p =>
    let fl : Flash := { p.flash with gen := gen, mapping := ms, paths := ls }
    { p with flash := fl, links := ls, mirrors := mirrorMaps ls }
  let s := { s with dies := ms.mapIdx fun n (p : Nat × Nat) => { num := n, px := p.1, py := p.2 } }
  s.publish (lensWords cs ms ls gen.toNat f.grade)

/-- The ROM's part of a boot: the ceilings are latched and the image is verified (R384, R386, R387, R394). -/
def State.bootRom (s : State) : State :=
  let s := s.updPkg fun p =>
    let fl : Flash := { p.flash with log := bootLog p.flash.log }
    { p with powered := true, latch := p.flash.latch, limit := p.flash.latch, ampCeiling := p.flash.ampCeiling, flash := fl }
  match s.pkg.flash.refused with
  | some c => s.bootEnds 5 c
  | none => s.updPkg fun p => { p with boot := 1 }

/-- A site whose self-test finds it below full and below every committed demotion of it is demoted: an entry of kind 2 or 3 is
appended to the retirement log (R392; log 90). -/
def Package.demote (p : Package) (n : Nat) : Package :=
  let c := p.classify n
  let kind := if c = .dark then 3 else 2
  if c = .full ∨ ((bootLog p.flash.log ++ p.appending).any fun e => e.site == n && (e.kind == kind || e.kind == 3)) = true then p
  else p.append kind n 0

/-- Self-test: every site is classified, and a site it finds worse than the retirement log says is demoted (R39, R384, R392). -/
def State.selfTest (s : State) : State :=
  s.updPkg fun p => { (List.range 72).foldl Package.demote p with sites := (List.range 72).map p.classify, boot := 2 }

/-- The mesh is formed and the grade checked (R40-R46, R384). -/
def State.bootMesh (s : State) : State :=
  let cs := s.pkg.sites
  match formMesh cs (gradeRows s.pkg.flash.grade) with
  | none => (s.publish (lensWords cs [] [] 0 0)).bootEnds 4 1
  | some ms =>
    match formLinks cs ms s.draw with
    | none => (s.publish (lensWords cs [] [] 0 0)).bootEnds 4 2
    | some ls => (s.meshStands cs ms ls).bootEnds 3 0

/-- POWER_UP: the package powers up, or its boot goes on: the ROM, self-test, forming the mesh, each for the host to see in
`BOOTST` (R384, R42; log 40). -/
def execPowerUp (s : State) : Out :=
  .next <|
    if !s.pkg.powered || s.pkg.boot == 0 then s.drawn.bootRom
    else
      match s.pkg.boot with
      | 1 => s.selfTest
      | 2 => s.drawn.bootMesh
      | _ => s

/-- What a read of `BOOTST` gives (Table 15.3). -/
def State.readBootst (s : State) : Nat :=
  let p := s.pkg
  let formed := p.boot == 3
  (if formed then p.flash.gen.toNat else 0) * 2 ^ 32 + (if formed then p.flash.grade else 0) * 2 ^ 24 + p.bootCause * 2 ^ 16 + p.boot

/-- IMAGE_UPDATE: the image area is rewritten, and committed if its signature verifies; in recovery only the image that runs there
rewrites flash (R387). -/
def execImageUpdate (sigOk : Bool) (secVer : Nat) (s : State) : Out :=
  .next <|
    if s.pkg.boot = 0 ∨ (s.pkg.boot = 5 ∧ s.pkg.recovery = false) then s
    else s.fresh.updPkg fun p =>
      let fl : Flash := { p.flash with imageCommitted := sigOk, imageSigOk := sigOk, imageSecVer := secVer, image := s.next }
      { p with flash := fl }

/-- RECOVERY_IMAGE_LOAD: in recovery the ROM verifies an image loaded by the host and runs it (R386, R387). -/
def execRecoveryImageLoad (sigOk : Bool) (secVer : Nat) (s : State) : Out :=
  .next <|
    if s.pkg.boot = 5 ∧ sigOk ∧ s.pkg.flash.minSecVer ≤ secVer then s.updPkg fun p => { p with recovery := true } else s

/-! ### SHA-512 -/

/-- Trial division. -/
def isPrime (n : Nat) : Bool := decide (2 ≤ n) && (List.range n).all fun d => decide (d < 2) || n % d != 0

/-- The first 80 primes. -/
def primes80 : List Nat := (List.range 410).filter isPrime

/-- Integer cube root, by bits from the highest. -/
def icbrt (n : Nat) : Nat → Nat → Nat
  | 0, r => r
  | k + 1, r => let r' := r + 2 ^ k; icbrt n k (if r' * r' * r' ≤ n then r' else r)

/-- Round constant of a prime: the first 64 bits of the fraction of its cube root. -/
def shaK (p : Nat) : Word := BitVec.ofNat 64 (icbrt (p * 2 ^ 192) 68 0)

/-- Initial value of a prime: the first 64 bits of the fraction of its square root. -/
def shaH (p : Nat) : Word := BitVec.ofNat 64 (Nat.sqrt (p * 2 ^ 128))

/-- Extend a message schedule, latest word first, to 80 words. -/
def shaExtend : Nat → List Word → List Word
  | 0, ws => ws
  | n + 1, ws =>
    let w (k : Nat) : Word := ws.getD (k - 1) 0
    let s0 := (w 15).rotateRight 1 ^^^ (w 15).rotateRight 8 ^^^ (w 15 >>> 7)
    let s1 := (w 2).rotateRight 19 ^^^ (w 2).rotateRight 61 ^^^ (w 2 >>> 6)
    shaExtend n ((w 16 + s0 + w 7 + s1) :: ws)

/-- One round on the eight working values. -/
def shaRound (st : List Word) (kw : Word) : List Word :=
  let g (i : Nat) : Word := st.getD i 0
  let a := g 0
  let e := g 4
  let t1 := g 7 + (e.rotateRight 14 ^^^ e.rotateRight 18 ^^^ e.rotateRight 41) + ((e &&& g 5) ^^^ (~~~e &&& g 6)) + kw
  let t2 := (a.rotateRight 28 ^^^ a.rotateRight 34 ^^^ a.rotateRight 39) + ((a &&& g 1) ^^^ (a &&& g 2) ^^^ (g 1 &&& g 2))
  [t1 + t2, a, g 1, g 2, g 3 + t1, e, g 5, g 6]

/-- One block of sixteen words. -/
def shaBlock (h ws : List Word) : List Word :=
  let sched := (shaExtend 64 ws.reverse).reverse
  let out := (sched.zip (primes80.map shaK)).foldl (fun st x => shaRound st (x.1 + x.2)) h
  (h.zip out).map fun x => x.1 + x.2

/-- Big-endian words of bytes. -/
def beWords : Nat → List Nat → List Word
  | 0, _ => []
  | n + 1, bs => BitVec.ofNat 64 ((bs.take 8).foldl (fun a b => 256 * a + b) 0) :: beWords n (bs.drop 8)

/-- Blocks in order. -/
def shaBlocks : Nat → List Word → List Word → List Word
  | 0, h, _ => h
  | n + 1, h, ws => shaBlocks n (shaBlock h (ws.take 16)) (ws.drop 16)

/-- SHA-512 of a byte string, as a number. -/
def sha512 (bs : List Nat) : Nat :=
  let n := bs.length
  let blocks := (n + 17 + 127) / 128
  let padded := bs ++ 0x80 :: List.replicate (128 * blocks - n - 9) 0 ++ (List.range 8).reverse.map fun i => 8 * n / 256 ^ i % 256
  (shaBlocks blocks ((primes80.take 8).map shaH) (beWords (16 * blocks) padded)).foldl (fun a w => a * 2 ^ 64 + w.toNat) 0

/-! ### Attestation (R388) -/

/-- A response leaves over the host link: the message's place in R388 and its values. -/
def State.spdm (s : State) (code : Nat) (vs : List Nat) : Out :=
  .next <| if s.pkg.boot = 0 then s else s.updPkg fun p => { p with spdmOut := p.spdmOut ++ [(code, vs)] }

/-- GET_VERSION: SPDM 1.3 (R388). -/
def execGetVersion (s : State) : Out := s.spdm 0 [0x13]

/-- GET_CAPABILITIES: no sessions are offered (R388). -/
def execGetCapabilities (s : State) : Out := s.spdm 1 [0]

/-- NEGOTIATE_ALGORITHMS: ECDSA P-521 and SHA-512 are the only ones (R388). -/
def execNegotiateAlgorithms (s : State) : Out := s.spdm 2 [521, 512]

/-- The certificate chain of the signed identity record (R386, R388; log 12). -/
def Flash.chain (f : Flash) : Nat := Config.spdm 4 f.identity

/-- GET_DIGESTS: the digest of the certificate chain (R388; log 12). -/
def execGetDigests (s : State) : Out := s.spdm 3 [Config.spdm 3 s.pkg.flash.chain]

/-- GET_CERTIFICATE: the chain of the signed identity record (R388; log 12). -/
def execGetCertificate (s : State) : Out := s.spdm 4 [s.pkg.flash.chain]

/-- CHALLENGE: the nonce signed with the identity key (R388; log 12). -/
def execChallenge (nonce : Nat) (s : State) : Out := s.drawn.spdm 5 [nonce, Config.spdm 5 s.draw]

/-- The site bytes of the lens table. -/
def State.siteBytes (s : State) : List Nat := (List.range 72).map fun n => s.rd (lensLoc + 2624 + n) 1

/-- The configuration record as a number (R386): grade, generation, the latched ceilings, the minimum security version. -/
def Flash.config (f : Flash) : Nat :=
  f.grade % 2 ^ 8 + 2 ^ 8 * (f.gen.toNat + 2 ^ 32 * (f.latch.toNat + 2 ^ 16 * (f.ampCeiling % 2 ^ 32 + 2 ^ 32 * f.minSecVer)))

/-- GET_MEASUREMENTS: ROM version, image digest, configuration record digest, mesh generation, digest of the site bytes, in this
order (R388; log 12). -/
def execGetMeasurements (s : State) : Out :=
  let f := s.pkg.flash
  s.spdm 6 [Config.spdm 6 0, Config.spdm 7 f.image, Config.spdm 8 f.config, f.gen.toNat, sha512 s.siteBytes]

end Sys2Proof.Machine
end

