-- ==== Sys2Proof/Machine/Limits.lean ====
section
/-! DEFINITION. Limits: power, current and heat, and the loss of power (spec 15 R393-R397). A step whose condition does not hold
leaves the state as it is. -/

namespace Sys2Proof.Machine

/-! ### Package power (R394) -/

/-- Dies whose clock can be stepped down. -/
def State.steppable (s : State) : List Nat :=
  (s.dies.filter fun d => decide (8 < d.freq) && d.canStep s.gtime).map (·.num)

/-- The most power-hungry of some dies (R394; log 30). -/
def hungriestOf (draw : Nat) (ds : List Nat) : Option Nat := ds[Config.hungriest draw % ds.length]?

/-- Throttle one step further: idle flits first, then clocks (R394). -/
def State.throttle (s : State) : State :=
  if !s.pkg.edgeIdle then (s.updPkg fun p => { p with edgeIdle := true, throt := true }).event 6 0xFF 1
  else
    match hungriestOf s.draw s.steppable with
    | none => s
    | some n =>
      (s.drawn.startStep n (((s.die? n).map (·.freq)).getD 18 - 2)).updPkg fun p => { p with heldClocks := n :: p.heldClocks }

/-- Undo the last throttle step (R394). -/
def State.unthrottle (s : State) : State :=
  match s.pkg.heldClocks with
  | n :: t =>
    match s.die? n with
    | none => s.updPkg fun p => { p with heldClocks := t }
    | some d =>
      if d.freq = 18 then s.updPkg fun p => { p with heldClocks := t }
      else if d.canStep s.gtime then (s.startStep n (d.freq + 2)).updPkg fun p => { p with heldClocks := t }
      else s
  | [] =>
    if s.pkg.edgeIdle then (s.updPkg fun p => { p with edgeIdle := false, throt := false }).event 6 0xFF 2 else s

/-- POWER_WINDOW: a 1 ms window ends with this power, in units of 100 W (R394). -/
def execPowerWindow (now : BitVec 16) (s : State) : Out :=
  .next <|
    let s := s.updPkg fun p => { p with now := now }
    if s.pkg.limit ≤ now then s.throttle
    else if 100 * now.toNat < 95 * s.pkg.limit.toNat then s.unthrottle
    else s

/-- PKGPWR_WRITE: a limit above LATCH is set to LATCH (R394). -/
def execPkgpwrWrite (limit : BitVec 16) (s : State) : Out :=
  .next <| s.updPkg fun p => { p with limit := if p.latch < limit then p.latch else limit }

/-- THERM: some die is stepped down for heat (Table 15.6). -/
def State.therm (s : State) : Bool := s.dies.any (·.hot)

/-- What a read of `PKGPWR` gives (Table 15.6). -/
def State.readPkgpwr (s : State) : Nat :=
  let p := s.pkg
  p.latch.toNat * 2 ^ 48 + p.limit.toNat * 2 ^ 32 + p.now.toNat * 2 ^ 16 + 4 * b2n p.curl + 2 * b2n s.therm + b2n p.throt

/-! ### Rail current (R395) -/

/-- CURRENT_LIMIT_TRIP: current above the ceiling halves the issue rate (R395). -/
def execCurrentLimitTrip (amps : Nat) (s : State) : Out :=
  .next <| s.updPkg fun p => if p.ampCeiling < amps then { p with curl := true } else p

/-- CURRENT_LIMIT_RELEASE: the limiter releases below 95 % of the ceiling (R395). -/
def execCurrentLimitRelease (amps : Nat) (s : State) : Out :=
  .next <| s.updPkg fun p => if 100 * amps < 95 * p.ampCeiling then { p with curl := false } else p

/-! ### Heat and loss of power (R393, R396) -/

/-- THERMAL_STEP: a die at 105 °C steps to 0.8 GHz as soon as R322 lets it, and event 0x06 is raised (R396). -/
def execThermalStep (die degC : Nat) (s : State) : Out :=
  .next <|
    match s.die? die with
    | none => s
    | some d =>
      if 105 ≤ degC ∧ d.freq ≠ 8 ∧ d.canStep s.gtime then
        ((s.startStep die 8).updDie die fun d => { d with hot := true }).event 6 die 0
      else s

/-- Every rail is removed: all device state is lost; flash, the silicon and host memory remain (R393, R396). -/
def State.powerOff (s : State) : State :=
  { mem := s.mem.filter fun c => paHost c.1 && decide (c.1 < 2 ^ 52)
    pkg := { powered := false, tested := s.pkg.tested, edgesFailed := s.pkg.edgesFailed, flash := s.pkg.flash
             hostReads := s.pkg.hostReads, hostLogs := s.pkg.hostLogs, spdmOut := s.pkg.spdmOut }
    agenda := s.agenda, draw := s.draw, next := s.next }

/-- THERMAL_TRIP: at 115 °C every rail is removed (R396). -/
def execThermalTrip (degC : Nat) (s : State) : Out := .next <| if 115 ≤ degC then s.powerOff else s

/-- POWER_LOSS: external power is lost; of the append in progress, if one is, the first bytes have been programmed (R393). -/
def execPowerLoss (logBytes : Nat) (s : State) : Out :=
  .next <|
    let s := match s.pkg.appending with
      | e :: _ =>
        s.updPkg fun p =>
          let fl : Flash := { p.flash with log := bootLog p.flash.log ++ [e.upTo logBytes] }
          { p with flash := fl }
      | [] => s
    s.powerOff

end Sys2Proof.Machine
end

