-- ==== Sys2Proof/Machine/Banks.lean ====
section
/-! DEFINITION. Banks: the steps that carry an access from its issue to its completion: store banks, HBM packets and their
time-division tables, writes and replies across dies, the host link and peer packages (spec 08 R221-R228, spec 09
R244-R247, spec 12 R334 and R341, spec 15 R380-R383). A step whose condition does not hold leaves the state as it is. -/

namespace Sys2Proof.Machine

/-! ### Store banks (R221) -/

/-- The requester through which an access comes to the banks of a cluster (R221): 0-3 the core ports, 4 the matrix engine, 5 the
copy engine, 6 the texture, ray and colour port, 7 the mesh port. -/
def State.requester (s : State) (a : Access) : Nat :=
  match s.group? a.grp with
  | some g =>
    if g.die = locDie a.loc ∧ g.cluster = locCluster a.loc then
      match a.kind with
      | .tex .. | .ray .. => 6
      | _ => g.core
    else 7
  | none => 7

/-- A request that waits for a bank or a base die: of an item's access, or of an engine or a unit. -/
inductive Request where
  | acc (a : Access)
  | unit (r : UnitReq)
  deriving DecidableEq, Repr

/-- Its number: requests stand in order of age by it. -/
def Request.id : Request → Nat
  | .acc a => a.id
  | .unit r => r.id

/-- Its location. -/
def Request.loc : Request → Nat
  | .acc a => a.loc
  | .unit r => r.loc

/-- Its place in its bank's queue, 0 where it is held by its requester. -/
def Request.queued : Request → Nat
  | .acc a => a.queued
  | .unit r => r.queued

/-- The least request of a list by a number. -/
def leastBy (f : Request → Nat) (rs : List Request) : Option Request :=
  rs.foldl (fun best x => match best with | none => some x | some b => if f x < f b then some x else some b) none

/-- Requests that stand at the banks of a cluster. -/
def State.bankReqs (s : State) (die cl : Nat) : List Request :=
  let here (l : Nat) : Bool := isStoreLoc l && locDie l == die && locCluster l == cl
  (s.accs.filter fun a => a.phase == .atBank && here a.loc).map .acc ++ (s.reqs.filter fun r => !r.done && here r.loc).map .unit

/-- The requester through which a request comes. -/
def State.portOf (s : State) : Request → Nat
  | .acc a => s.requester a
  | .unit r => r.port

/-- A request that its requester holds may be offered: an earlier access that it must follow, a cut route, or what another die's access
waits for keeps it back (R223, R45, R334). -/
def State.offered (s : State) : Request → Bool
  | .acc a => !s.mustFollow a && !s.crossHeld a
  | .unit r => !(r.die != locDie r.loc && s.stalledPair r.die (locDie r.loc))

/-- What a requester offers to a bank: a core port the oldest request it holds, whatever its bank, so that the later lanes of the
sequence wait; any other its oldest for the bank. -/
def State.bankOffer (s : State) (die cl bank r : Nat) : Option Request :=
  let mine := (s.bankReqs die cl).filter fun x => x.queued == 0 && s.portOf x == r
  if r < 4 then (leastBy Request.id mine).filter fun x => locBank x.loc == bank && s.offered x
  else leastBy Request.id (mine.filter fun x => locBank x.loc == bank && s.offered x)

/-- The request queue of a bank. -/
def State.bankQueue (s : State) (die cl bank : Nat) : List Request :=
  (s.bankReqs die cl).filter fun x => locBank x.loc == bank && decide (0 < x.queued)

/-- A request enters a queue. -/
def State.enqueue (s : State) : Request → State
  | .acc a => { s with next := s.next + 1 }.updAcc a.id fun a => { a with queued := s.next }
  | .unit r => { s with next := s.next + 1 }.updReq r.id fun r => { r with queued := s.next }

/-- Requests enter a bank's queue of eight in rotating order, starting after the requester that entered first in the previous cycle in
which one entered (R221). -/
def State.enterBank (s : State) (die cl bank : Nat) : State :=
  let last := AMap.getD (s.cluster die cl).entered bank 7
  let offers := (List.range 8).filterMap fun i =>
    let r := (last + 1 + i) % 8
    (s.bankOffer die cl bank r).map fun x => (r, x)
  match offers.take (8 - (s.bankQueue die cl bank).length) with
  | [] => s
  | x :: t =>
    let s := (x :: t).foldl (fun (s : State) (y : Nat × Request) => s.enqueue y.2) s
    s.updCluster die cl fun c => { c with entered := AMap.set c.entered bank x.1 }

/-- The request of an engine or a unit has been performed. -/
def State.unitDone (s : State) (r : UnitReq) : State := s.updReq r.id fun r => { r with done := true }

/-- A bank performs a request; one whose quarter is waking stays (R230). -/
def State.bankPerforms (s : State) : Request → State
  | .acc a => if s.quarterOn a.loc then (s.arrive a).actAny a else s
  | .unit r =>
    if (s.cluster (locDie r.loc) (locCluster r.loc)).quarters.getD (r.loc % 2 ^ 20 / 262144) .on = .waking then s else s.unitDone r

/-- BANK_ACCESS: a cycle of a bank. Requests enter its queue, and it performs the oldest; every request of a die that is relocking stays
(R221, R325). -/
def execBankAccess (die cl bank : Nat) (s : State) : Out :=
  .next <|
    if s.relocking die then s
    else
      let s := s.enterBank die cl bank
      match leastBy Request.queued (s.bankQueue die cl bank) with
      | none => s
      | some x => s.bankPerforms x

/-- LDFE_RESEND: a refused remote `ldfe` lane is sent again (R226). -/
def execLdfeResend (acc : Nat) (s : State) : Out :=
  .next <| { s with accs := s.accs.map fun (a : Access) =>
    if a.id = acc ∧ a.phase = .refused then { a with phase := .atBank, queued := 0 } else a }

/-- COUNTED_OP_COMPLETE: an operation that has returned in every lane leaves its counter (R228). -/
def execCountedOpComplete (op : Nat) (s : State) : Out :=
  .next <|
    match s.ops.find? fun (o : CountedOp) => o.id == op with
    | some o => if s.opReturned o && o.ctr != 9 then s.completeOp o else s
    | none => s

/-! ### Device memory -/

/-- OWN of a slot of a channel: slot 0 is always open (R246, R247). -/
def Die.slotOwner (d : Die) (ch slot : Nat) : Nat :=
  if slot = 0 then 4
  else match AMap.get? d.channels ch with
    | some w => bits w.toNat (3 * slot + 2) (3 * slot)
    | none => 4

/-- A packet that waits for the base die (R244): whose it is and its age, its kind (Table 9.2), and the context and partition it carries
(R246). -/
structure Packet where
  unit : Bool
  id : Nat
  kind : Nat
  ctx : Nat
  part : Nat
  deriving DecidableEq, Repr

/-- The access waits for the base die to start its packet, for which there is a tag (R244). -/
def State.waitsPacket (s : State) (a : Access) : Bool :=
  !a.started && ((a.phase == .toHbm && (decide (a.tag < noTag) || decide (s.freeTag a.home < noTag))) ||
    (a.phase == .remoteWrite && isDevice a.loc && decide (s.freeTag a.home < noTag)))

/-- Packets of a die's channel that the base die may start: of item accesses, of writes from other dies, and of the requests of engines,
units, dispatchers, walks and fetches (R244, R246). -/
def State.packets (s : State) (die ch : Nat) : List Packet :=
  ((s.accs.filter fun a => s.waitsPacket a && a.home == die && hbmChannel a.loc == ch).map fun a =>
    { unit := false, id := a.id, kind := a.packet, ctx := a.ctx, part := a.part }) ++
  (s.reqs.filter fun r => s.reqWaits r && r.home == die && hbmChannel r.loc == ch).map fun r =>
    { unit := true, id := r.id, kind := r.packet, ctx := r.ctx, part := r.part }

/-- The oldest packet of a list. -/
def oldestPacket (ps : List Packet) : Option Packet :=
  ps.foldl (fun best p => match best with | none => some p | some b => if p.id < b.id then some p else some b) none

/-- The base die starts a packet: one that has no tag yet takes the lowest that is free (R244). -/
def State.startPacket (s : State) (p : Packet) : State :=
  if p.unit then s.updReq p.id fun r => { r with started := true, tag := s.freeTag r.home }
  else s.updAcc p.id fun a =>
    { a with started := true, tag := if a.phase = .remoteWrite ∨ noTag ≤ a.tag then s.freeTag a.home else a.tag }

/-- CHANNEL_SLOT: the base die picks the packet it starts for a channel in a slot: that of the slot's index, by the share record in
force then, and otherwise the oldest (R246, R247). -/
def execChannelSlot (die ch slot : Nat) (s : State) : Out :=
  .next <|
    let d := (s.die? die).getD { num := die }
    let ready := s.packets die ch
    let own := d.slotOwner ch (slot % 64)
    let r := AMap.getD d.shares own {}
    let named := decide (own < 4) && r.valid
    let mine := if named then oldestPacket (ready.filter fun p => p.ctx == r.ctx && p.part == r.part) else none
    let pick := match mine with
      | some p => some p
      | none => if named && !r.don then none else oldestPacket ready
    match pick with
    | some p => s.startPacket p
    | none => s

/-- The base die performs the packet of an engine or a unit; a line that a fetch reads enters the die cache (R232). -/
def State.packetDone (s : State) (r : UnitReq) : State :=
  match r.owner with
  | .fetch .. => (s.unitDone r).cacheTouch r.die r.loc false 0
  | _ => s.unitDone r

/-- HBM_PACKET: the base die performs a packet, after every earlier packet to overlapping bytes (R244). -/
def execHbmPacket (die tag : Nat) (s : State) : Out :=
  .next <|
    match s.accs.find? fun a => a.phase == .toHbm && a.home == die && a.tag == tag && a.started with
    | some a => s.performAcc State.actAny a
    | none =>
      match s.reqs.find? fun r => isDevice r.loc && r.home == die && r.tag == tag && r.started && !r.done with
      | some r => s.packetDone r
      | none => s

/-- REMOTE_WRITE_APPLY: an arriving write is applied once every write that precedes it in its clock has been (R334). -/
def execRemoteWriteApply (acc : Nat) (s : State) : Out :=
  .next <|
    match s.accs.find? fun a => a.id == acc && a.phase == .remoteWrite with
    | some a =>
      if s.mustFollow a || s.crossHeld a || (isStoreLoc a.loc && !s.quarterOn a.loc) || s.relocking a.home ||
          (isDevice a.loc && !a.started) then s
      else
        match s.replGate a with
        | (s, false) => s
        | (s, true) => (s.arrive a).actAny { a with home := a.die }
    | none => s

/-- A reply that entered the route of the same pair of dies earlier has not arrived (R44). -/
def State.replyHeld (s : State) (a : Access) : Bool :=
  s.accs.any fun b => b.phase == .remoteReply && b.home == a.home && b.die == a.die && decide (b.tag < a.tag)

/-- REMOTE_READ_REPLY: the reader's die raises its clock and the value is written (R334); replies of one pair of dies arrive in the
order in which they left (R44). -/
def execRemoteReadReply (acc : Nat) (s : State) : Out :=
  .next <|
    match s.accs.find? fun a => a.id == acc && a.phase == .remoteReply with
    | some a =>
      if s.stalledPair a.home a.die || s.relocking a.die || s.replyHeld a then s else
      let s := s.raiseClock a.die a.clock
      if a.bad then s.poisonEnd a else (s.writeResult a a.result).dropAcc a.id
    | none => s

/-! ### Host and peers -/

/-- HOST_LINK_REPLY: a host-memory access is answered (R380). -/
def execHostLinkReply (acc : Nat) (s : State) : Out :=
  .next <|
    match s.accs.find? fun a => a.id == acc && a.phase == .toHost with
    | some a =>
      if s.mustFollow a || s.linkHeld a.die a.loc 0 || s.relocking a.die then s else s.actAny { a with home := a.die }
    | none => s

/-- What a read through a peer port gives for a destination register (log 16): a load extends the bytes it asked for (R237). -/
def Access.peerRead (a : Access) (draw d : Nat) : Word :=
  let x := Config.peerValue draw d
  match a.kind with
  | .load sg => extBytes sg a.size (x.toNat % 2 ^ (8 * a.size))
  | _ => x

/-- PEER_ACKNOWLEDGEMENT: a peer package acknowledges a write, or answers a read with a value of its own memory, which is
not this package's (R341, R383; log 16). A port carries traffic only while it is enabled (R383). -/
def execPeerAcknowledgement (acc : Nat) (s : State) : Out :=
  .next <|
    match s.accs.find? fun a => a.id == acc with
    | some a =>
      match a.phase with
      | .toPeer n =>
        if s.linkHeld a.die a.loc (n + 1) || s.relocking a.die then s
        else s.drawn.returnAcc { a with home := a.die } { vals := a.dregs.map fun d => (d, a.peerRead s.draw d) }
      | _ => s
    | none => s

/-- The retirement log as flash holds it: 32-byte entries, erased after the last (R392). -/
def State.readLog (s : State) (off n : Nat) : Nat :=
  let e := match s.pkg.flash.log[off / 32]? with | some e => e.toNat | none => 2 ^ 256 - 1
  e / 256 ^ (off % 32) % 256 ^ n

/-- The 128 bits of a host-link window (Table 15.1). -/
def HostWin.bits (w : HostWin) : Nat :=
  w.limit % 2 ^ 32 * 2 ^ 96 + w.base % 2 ^ 32 * 2 ^ 64 + w.ctx % 2 ^ 16 * 2 ^ 48 + w.tgt % 16 * 2 ^ 8 + b2n w.w * 2 + b2n w.valid

/-- What a read of `EVRING` gives (Table 15.8). -/
def State.readEvring (s : State) : Nat :=
  let p := s.pkg
  p.evBase * 2 ^ 144 + p.evLogn * 2 ^ 128 + p.evOver.toNat * 2 ^ 96 + p.evTail.toNat * 2 ^ 64 + p.evHead.toNat * 2 ^ 32 + b2n p.evEn

/-- Some bytes of a register of `len` bytes: none beyond it. -/
def regBytes (x len off n : Nat) : Option Nat := if off + n ≤ len then some (x / 256 ^ off % 256 ^ n) else none

/-- What the host reads over the host link: none where nothing answers. The lens table and the retirement log can be read once the
boot has ended, in the grade-failed state too (R46, R385); the registers of the bridge dies always (R384, R394, R399). -/
def State.hostRead (s : State) (a : HostAccess) : Option Nat :=
  match a.space with
  | .device => if paHost a.pa || !paOk a.pa || (s.die? (paDie a.pa)).isNone then none else some (s.rd a.pa a.size)
  | .lens => if 65536 ≤ a.pa ∨ s.pkg.boot < 3 ∨ s.pkg.boot = 5 then none else some (s.rd (lensLoc + a.pa) a.size)
  | .retireLog => if s.pkg.boot < 3 then none else some (s.readLog a.pa a.size)
  | .bootst => regBytes s.readBootst 8 a.pa a.size
  | .pkgpwr => regBytes s.readPkgpwr 8 a.pa a.size
  | .evring => regBytes s.readEvring 24 a.pa a.size
  | .window n => if n < 32 then regBytes (AMap.getD s.pkg.windows n {}).bits 16 a.pa a.size else none
  | .eventLog => none

/-- What the host reads of the event log, by an entry's place: in the grade-failed state too (R385, R391). -/
def State.hostReadLog (s : State) (a : HostAccess) : Option Scanout :=
  if a.space = .eventLog ∧ 3 ≤ s.pkg.boot then s.pkg.scanouts[a.pa]? else none

/-- A host write to device memory: none where nothing is there, while a page of it is being collapsed, or while a read of a copy of the
page is in flight. A replicated page collapses with it (R252). -/
def State.hostWrite (s : State) (a : HostAccess) : Option State :=
  if a.space ≠ .device ∨ paHost a.pa ∨ !paOk a.pa ∨ (s.die? (paDie a.pa)).isNone ∨ s.collapsing a.pa ∨ s.copyRead a.pa then none
  else some ((s.collapseHome a.pa).wr a.pa a.size a.data.toNat)

/-- HOST_MEMORY_ACCESS: the host reads or writes device memory, coherently, or reads the lens table, a log, a host-link window or a
register of the bridge dies (R341, R381, R384, R385, R394, R399). -/
def execHostMemoryAccess (a : HostAccess) (s : State) : Out :=
  .next <|
    if !(a.size == 1 || a.size == 2 || a.size == 4 || a.size == 8) || a.pa % a.size != 0 then s
    else if a.write then (s.hostWrite a).getD s
    else
      match s.hostReadLog a, s.hostRead a with
      | some e, _ => s.updPkg fun p => { p with hostLogs := p.hostLogs ++ [e] }
      | none, some x => s.updPkg fun p => { p with hostReads := p.hostReads ++ [BitVec.ofNat 64 x] }
      | none, none => s

end Sys2Proof.Machine
end

