-- ==== Sys2Proof/Machine/CrossLane.lean ====
section
/-! DEFINITION. CrossLane: the group-wide forms `shfl`, `vote`, `redg`, `scang` and `bcast` (spec 11 R303-R308). -/

namespace Sys2Proof.Machine

/-- A value read from a source lane: zero outside active(entry) (R303). -/
def Iss.fromLane (u : Iss) (l : Nat) (x : Word) : Word := if u.e.mask.has l then x else 0

/-- `shfl` (R305). -/
def execShfl (h : Head) (f : FShfl) (s : State) : Out :=
  issue (.shfl h f) s fun u =>
    u.writeV f.d.toNat fun l =>
      let i := (readSrc u.g l [] 0 f.b).toNat
      let src := bits i 4 0
      let j := bits i 8 5
      let w := 64 / 2 ^ f.wc.toNat
      if 64 / w ≤ j then 0
      else u.fromLane src (BitVec.ofNat 64 (bits (u.g.getV f.vs.toNat src).toNat (w * (j + 1) - 1) (w * j)))

/-- `vote` (R306). -/
def execVote (h : Head) (f : FVote) (s : State) : Out :=
  issue (.vote h f) s fun u =>
    let q (l : Nat) : Bool := u.g.predOp f.pa f.n l
    let ls := u.ex.toList
    match f.op.toNat with
    | 0 => u.writeP (f.d.toNat % 16) fun _ => ls.any q
    | 1 => u.writeP (f.d.toNat % 16) fun _ => ls.all q
    | 2 => u.writeV f.d.toNat fun _ => (Mask.ofPred fun l => u.ex.has l && q l).zeroExtend 64
    | _ => u.writeV f.d.toNat fun _ => BitVec.ofNat 64 (ls.filter q).length

/-- One step of a fold of `redg` or `scang` (R307): integer forms wrap, floating `add` rounds and raises flags. -/
def foldStep (op t rm ftz : Nat) (handler : Bool) (x y : Word) : LaneOut :=
  let o : LaneOp :=
    { t := t, se := none, a := x, b := y, c := 0, x := 0, isImm := false, old := 0, cond := 0, q := true, sat := false
      rm := rm, handler := handler, ftz := ftz }
  match op, typeFloat t with
  | 0, true => laneFadd o
  | 0, false => laneAdd o
  | 1, true => laneFmin o
  | 1, false => laneMin o
  | 2, true => laneFmax o
  | 2, false => laneMax o
  | 3, _ => { val := x &&& y }
  | 4, _ => { val := x ||| y }
  | _, _ => { val := x ^^^ y }

/-- The identity of a fold (R307). -/
def foldIdentity (op t : Nat) : Word :=
  let w := typeWidth t
  let fm := fltFmt t
  match op with
  | 1 =>
    splat t (if typeFloat t then fm.infBits else if typeSigned t then 2 ^ (w - 1) - 1 else 2 ^ w - 1)
  | 2 =>
    splat t (if typeFloat t then fm.sign true + fm.infBits else if typeSigned t then 2 ^ (w - 1) else 0)
  | 3 => BitVec.allOnes 64
  | _ => 0

/-- Inclusive prefix folds of a list of lane values, and the flags of each step. -/
def foldAll (st : Word → Word → LaneOut) : Option Word → List Word → List (Word × Nat)
  | _, [] => []
  | none, x :: t => (x, 0) :: foldAll st (some x) t
  | some a, x :: t => let r := st a x; (r.val, r.fl) :: foldAll st (some r.val) t

/-- Complete with a value for each executing lane and floating flags raised. -/
def Iss.writeFold (u : Iss) (d : Nat) (vals : List Word) (fls : List Nat) : State :=
  u.withRegs (if u.ex = 0 then [] else [d]) fun u =>
    let g := (u.ex.toList.zip vals).foldl (fun g x => g.setV d x.1 x.2) u.g
    u.finish (fls.foldl (fun g fl => g.raise fl) g)

/-- The prefix folds of a group-wide form over the executing lanes. -/
def Iss.folds (u : Iss) (op : Nat) (a : Src) : List (Word × Nat) :=
  let t := u.i.ty
  foldAll (foldStep op t (u.g.rmFor u.i.head.hints) (if u.g.inHandler then 0 else u.g.fpmode.toNat / 16 % 8) u.g.inHandler)
    none (u.ex.toList.map fun l => readSrc u.g l [] t a)

/-- `redg` (R307). -/
def execRedg (h : Head) (f : FRedg) (s : State) : Out :=
  issue (.redg h f) s fun u =>
    let ps := u.folds f.op.toNat f.a
    let r := ((ps.getLast?).map (·.1)).getD 0
    u.writeFold f.d.toNat (ps.map fun _ => r) (ps.map (·.2))

/-- `scang` (R307): the exclusive form's last fold is not made, so it raises no flag. -/
def execScang (h : Head) (f : FScang) (s : State) : Out :=
  issue (.scang h f) s fun u =>
    let ps := u.folds f.op.toNat f.a
    if f.incl then u.writeFold f.d.toNat (ps.map (·.1)) (ps.map (·.2))
    else
      let qs := ps.dropLast
      u.writeFold f.d.toNat (foldIdentity f.op.toNat u.i.ty :: qs.map (·.1)) (qs.map (·.2))

/-- `bcast` (R308). -/
def execBcast (h : Head) (f : FBcast) (s : State) : Out :=
  issue (.bcast h f) s fun u =>
    let src := if f.first then lowLane u.ex else f.lane.toNat
    let x := u.fromLane src (readSrc u.g src [] 0 f.a)
    u.writeV f.d.toNat fun _ => x

end Sys2Proof.Machine
end

