-- ==== Sys2Proof/Machine/Floating.lean ====
section
/-! DEFINITION. Floating: the floating-point, conversion and dot-product forms of opcodes 0x40-0x7F (spec 06), each run lane by lane by the shared
runner. -/

namespace Sys2Proof.Machine

/-- `fadd` (R164). -/
def execFadd (h : Head) (f : FR) (s : State) : Out := aluSeq (.fadd h f) s

/-- `fsub` (R164). -/
def execFsub (h : Head) (f : FR) (s : State) : Out := aluSeq (.fsub h f) s

/-- `fmul` (R164). -/
def execFmul (h : Head) (f : FR) (s : State) : Out := aluSeq (.fmul h f) s

/-- `ffma` (R164). -/
def execFfma (h : Head) (f : FR) (s : State) : Out := aluSeq (.ffma h f) s

/-- `fmin` (R165). -/
def execFmin (h : Head) (f : FR) (s : State) : Out := aluSeq (.fmin h f) s

/-- `fmax` (R165). -/
def execFmax (h : Head) (f : FR) (s : State) : Out := aluSeq (.fmax h f) s

/-- `fminm` (R165). -/
def execFminm (h : Head) (f : FR) (s : State) : Out := aluSeq (.fminm h f) s

/-- `fmaxm` (R165). -/
def execFmaxm (h : Head) (f : FR) (s : State) : Out := aluSeq (.fmaxm h f) s

/-- `fcmp` (R166). -/
def execFcmp (h : Head) (f : FP) (s : State) : Out := aluSeq (.fcmp h f) s

/-- `fclass` (R167). -/
def execFclass (h : Head) (f : FPc) (s : State) : Out := aluSeq (.fclass h f) s

/-- `frnd` (R168). -/
def execFrnd (h : Head) (f : FRu) (s : State) : Out := aluSeq (.frnd h f) s

/-- `fscale` (R169). -/
def execFscale (h : Head) (f : FR) (s : State) : Out := aluSeq (.fscale h f) s

/-- `frcp` (R170). -/
def execFrcp (h : Head) (f : FRu) (s : State) : Out := aluSeq (.frcp h f) s

/-- `frsq` (R170). -/
def execFrsq (h : Head) (f : FRu) (s : State) : Out := aluSeq (.frsq h f) s

/-- `fsqrt` (R170). -/
def execFsqrt (h : Head) (f : FRu) (s : State) : Out := aluSeq (.fsqrt h f) s

/-- `fdivf` (R171). -/
def execFdivf (h : Head) (f : FR) (s : State) : Out := aluSeq (.fdivf h f) s

/-- `fexp2` (R172). -/
def execFexp2 (h : Head) (f : FRu) (s : State) : Out := aluSeq (.fexp2 h f) s

/-- `flog2` (R172). -/
def execFlog2 (h : Head) (f : FRu) (s : State) : Out := aluSeq (.flog2 h f) s

/-- `fsin` (R172). -/
def execFsin (h : Head) (f : FRu) (s : State) : Out := aluSeq (.fsin h f) s

/-- `fcos` (R172). -/
def execFcos (h : Head) (f : FRu) (s : State) : Out := aluSeq (.fcos h f) s

/-- `ftanh` (R172). -/
def execFtanh (h : Head) (f : FRu) (s : State) : Out := aluSeq (.ftanh h f) s

/-- `cvt` (R173). -/
def execCvt (h : Head) (f : FCvt) (s : State) : Out := aluSeq (.cvt h f) s

/-- `cvtsr` (R176). -/
def execCvtsr (h : Head) (f : FR) (s : State) : Out := aluSeq (.cvtsr h f) s

/-- `pack` (R177). -/
def execPack (h : Head) (f : FR) (s : State) : Out := aluSeq (.pack h f) s

/-- `unpack` (R177). -/
def execUnpack (h : Head) (f : FR) (s : State) : Out := aluSeq (.unpack h f) s

/-- `dot2` (R178). -/
def execDot2 (h : Head) (f : FR) (s : State) : Out := aluSeq (.dot2 h f) s

/-- `dot4` (R178). -/
def execDot4 (h : Head) (f : FR) (s : State) : Out := aluSeq (.dot4 h f) s

/-- `dot8` (R178). -/
def execDot8 (h : Head) (f : FR) (s : State) : Out := aluSeq (.dot8 h f) s

/-- `dots` (R179). -/
def execDots (h : Head) (f : FR) (s : State) : Out := aluSeq (.dots h f) s

end Sys2Proof.Machine
end

