-- ==== Sys2Proof/Machine/Integer.lean ====
section
/-! DEFINITION. Integer: the integer, move and address forms of opcodes 0x00-0x35 (spec 05), each run lane by lane by the shared runner. -/

namespace Sys2Proof.Machine

/-- `nop` (R121). -/
def execNop (h : Head) (s : State) : Out := aluSeq (.nop h) s

/-- `add` (R131). -/
def execAdd (h : Head) (f : FR) (s : State) : Out := aluSeq (.add h f) s

/-- `add` (R131). -/
def execAddI (h : Head) (f : FI) (s : State) : Out := aluSeq (.addI h f) s

/-- `sub` (R131). -/
def execSub (h : Head) (f : FR) (s : State) : Out := aluSeq (.sub h f) s

/-- `mul` (R131). -/
def execMul (h : Head) (f : FR) (s : State) : Out := aluSeq (.mul h f) s

/-- `mulh` (R132). -/
def execMulh (h : Head) (f : FR) (s : State) : Out := aluSeq (.mulh h f) s

/-- `mad` (R131). -/
def execMad (h : Head) (f : FR) (s : State) : Out := aluSeq (.mad h f) s

/-- `min` (R131). -/
def execMin (h : Head) (f : FR) (s : State) : Out := aluSeq (.min h f) s

/-- `max` (R131). -/
def execMax (h : Head) (f : FR) (s : State) : Out := aluSeq (.max h f) s

/-- `abs` (R133). -/
def execAbs (h : Head) (f : FRu) (s : State) : Out := aluSeq (.abs h f) s

/-- `neg` (R133). -/
def execNeg (h : Head) (f : FRu) (s : State) : Out := aluSeq (.neg h f) s

/-- `adds` (R131). -/
def execAdds (h : Head) (f : FR) (s : State) : Out := aluSeq (.adds h f) s

/-- `subs` (R131). -/
def execSubs (h : Head) (f : FR) (s : State) : Out := aluSeq (.subs h f) s

/-- `sad` (R134). -/
def execSad (h : Head) (f : FR) (s : State) : Out := aluSeq (.sad h f) s

/-- `and` (R135). -/
def execAnd (h : Head) (f : FR) (s : State) : Out := aluSeq (.and_ h f) s

/-- `and` (R135). -/
def execAndI (h : Head) (f : FI) (s : State) : Out := aluSeq (.andI h f) s

/-- `or` (R135). -/
def execOr (h : Head) (f : FR) (s : State) : Out := aluSeq (.or_ h f) s

/-- `or` (R135). -/
def execOrI (h : Head) (f : FI) (s : State) : Out := aluSeq (.orI h f) s

/-- `xor` (R135). -/
def execXor (h : Head) (f : FR) (s : State) : Out := aluSeq (.xor_ h f) s

/-- `xor` (R135). -/
def execXorI (h : Head) (f : FI) (s : State) : Out := aluSeq (.xorI h f) s

/-- `andn` (R135). -/
def execAndn (h : Head) (f : FR) (s : State) : Out := aluSeq (.andn h f) s

/-- `not` (R135). -/
def execNot (h : Head) (f : FRu) (s : State) : Out := aluSeq (.not_ h f) s

/-- `shl` (R136). -/
def execShl (h : Head) (f : FR) (s : State) : Out := aluSeq (.shl h f) s

/-- `shl` (R136). -/
def execShlI (h : Head) (f : FI) (s : State) : Out := aluSeq (.shlI h f) s

/-- `shr` (R136). -/
def execShr (h : Head) (f : FR) (s : State) : Out := aluSeq (.shr h f) s

/-- `shr` (R136). -/
def execShrI (h : Head) (f : FI) (s : State) : Out := aluSeq (.shrI h f) s

/-- `sar` (R136). -/
def execSar (h : Head) (f : FR) (s : State) : Out := aluSeq (.sar h f) s

/-- `sar` (R136). -/
def execSarI (h : Head) (f : FI) (s : State) : Out := aluSeq (.sarI h f) s

/-- `rot` (R136). -/
def execRot (h : Head) (f : FR) (s : State) : Out := aluSeq (.rot h f) s

/-- `rot` (R136). -/
def execRotI (h : Head) (f : FI) (s : State) : Out := aluSeq (.rotI h f) s

/-- `clz` (R138). -/
def execClz (h : Head) (f : FRu) (s : State) : Out := aluSeq (.clz h f) s

/-- `popc` (R138). -/
def execPopc (h : Head) (f : FRu) (s : State) : Out := aluSeq (.popc h f) s

/-- `brev` (R138). -/
def execBrev (h : Head) (f : FRu) (s : State) : Out := aluSeq (.brev h f) s

/-- `bfe` (R139). -/
def execBfe (h : Head) (f : FR) (s : State) : Out := aluSeq (.bfe h f) s

/-- `bfi` (R139). -/
def execBfi (h : Head) (f : FR) (s : State) : Out := aluSeq (.bfi h f) s

/-- `prmt` (R140). -/
def execPrmt (h : Head) (f : FR) (s : State) : Out := aluSeq (.prmt h f) s

/-- `ext` (R141). -/
def execExt (h : Head) (f : FRu) (s : State) : Out := aluSeq (.ext h f) s

/-- `sel` (R142). -/
def execSel (h : Head) (f : FR) (s : State) : Out := aluSeq (.sel h f) s

/-- `cmp` (R143). -/
def execCmp (h : Head) (f : FP) (s : State) : Out := aluSeq (.cmp h f) s

/-- `cmp` (R143). -/
def execCmpI (h : Head) (f : FPi) (s : State) : Out := aluSeq (.cmpI h f) s

/-- `mov` (R146). -/
def execMov (h : Head) (f : FRu) (s : State) : Out := aluSeq (.mov h f) s

/-- `movi` (R147). -/
def execMovi (h : Head) (f : FIu) (s : State) : Out := aluSeq (.movi h f) s

/-- `lea` (R148). -/
def execLea (h : Head) (f : FR) (s : State) : Out := aluSeq (.lea h f) s

/-- `lea` (R148). -/
def execLeaI (h : Head) (f : FI) (s : State) : Out := aluSeq (.leaI h f) s

end Sys2Proof.Machine
end

