-- ==== Sys2Proof/Machine/Registers.lean ====
section
/-! DEFINITION. Registers: host-link windows, peer ports and the control registers and records without a step of their own (spec 01
R5, spec 02 R47, spec 07 R201, spec 09 R246-R255, spec 13 R343-R366, spec 15 R381-R399). RSV bits are not stored, and RO fields are
not written. -/

namespace Sys2Proof.Machine

/-- HOST_WINDOW_WRITE: the host writes a host-link window (R381). -/
def execHostWindowWrite (n : Nat) (v : BitVec 128) (s : State) : Out :=
  .next <|
    let x := v.toNat
    let w : HostWin :=
      { limit := bits x 127 96, base := bits x 95 64, ctx := bits x 63 48, tgt := bits x 11 8, w := bit x 1, valid := bit x 0 }
    if n < 32 then s.updPkg fun p => { p with windows := AMap.set p.windows n w } else s

/-- PEER_PORT_ENABLE: the host sets a peer port's enable bit (R383). -/
def execPeerPortEnable (n : Nat) (s : State) : Out :=
  .next <| if n < 8 then s.updPkg fun p => { p with peers := insertNat p.peers n } else s

/-! ### Records -/

/-- A partition record (Table 2.7); rewriting it ends a declared failure (R390). -/
def Partition.ofBits (x : Nat) : Partition :=
  { cmask := BitVec.ofNat 32 (bits x 127 96), home := bits x 95 90, valid := bit x 64, dmask := BitVec.ofNat 64 (bits x 63 0) }

/-- The RW fields of a trap control record (Table 13.3). -/
def Context.setControl (c : Context) (x : Nat) : Context :=
  { c with
    ltail := BitVec.ofNat 32 (bits x 389 358), logn := bits x 325 321, logp := bits x 320 269
    stail := BitVec.ofNat 32 (bits x 268 237), supn := bits x 204 200, supp := bits x 199 148, slotsz := bits x 147 132
    nslot := bits x 131 116, poolp := bits x 115 64, run := bit x 58, savem := bit x 57, dbgen := bit x 56, hobj := bits x 55 0 }

/-- Groups of a context that wait for room in the supervisor ring, in the order in which they trapped (R352). -/
def State.ringWaiters (s : State) (ctx : Nat) : List Group :=
  (s.groups.filter fun g => g.stop == .waitSupervisor false && s.groupCtx g == ctx).foldl (fun (acc : List Group) g =>
    let o (g : Group) : Nat := (g.trap.map (·.order)).getD 0
    acc.takeWhile (fun x => decide (o x ≤ o g)) ++ g :: acc.dropWhile fun x => decide (o x ≤ o g)) []

/-- A context area record (Table 15.7). -/
def AreaRec.ofBits (x : Nat) : AreaRec :=
  { ctx := bits x 255 240, spilln := bits x 235 220, spillp := bits x 219 168, contn := bits x 167 152, contp := bits x 151 100
    emitn := bits x 99 84, emitp := bits x 83 32, valid := bit x 0 }

/-- A share record (Table 9.3). -/
def ShareRec.ofBits (x : Nat) : ShareRec := { valid := bit x 31, don := bit x 30, part := bits x 19 16, ctx := bits x 15 0 }

/-- A tag record (Table 7.7). -/
def TagRec.ofBits (x : Nat) : TagRec :=
  { savep := BitVec.ofNat 52 (bits x 255 204), held := BitVec.ofNat 16 (bits x 191 176), gang := BitVec.ofNat 46 (bits x 145 100)
    ctx := BitVec.ofNat 16 (bits x 99 84), owned := bit x 0 }

/-- What a read of a tag record gives: BUSY is that of its tiles (Table 7.7). -/
def State.readTag (s : State) (die cl set : Nat) : Nat :=
  let r : TagRec := AMap.getD (s.cluster die cl).tags set {}
  let busy := ((List.range 16).map fun t => if s.tileBusy die cl (16 * set + t) then 2 ^ t else 0).sum
  r.savep.toNat * 2 ^ 204 + r.held.toNat * 2 ^ 176 + busy * 2 ^ 160 + r.gang.toNat * 2 ^ 100 + r.ctx.toNat * 2 ^ 84 + b2n r.owned

/-- The fields of a tensor identifier entry: its reserved bits read zero (Table 1.5, R5). -/
def tensorFields (x : BitVec 512) : BitVec 512 := x &&& ~~~(BitVec.ofNat 512 entReserved)

/-- A write stores the RW fields of a register or record (R5). -/
def State.writeReg (s : State) (r : CtrlReg) (x : Nat) : State :=
  match r with
  | .partition ctx n =>
    if n < 16 then (s.withCtx ctx).updCtx ctx fun c => { c with parts := AMap.set c.parts n (Partition.ofBits x) } else s
  | .trapControl ctx =>
    let s := (s.withCtx ctx).updCtx ctx fun c => c.setControl x
    (s.ringWaiters ctx).foldl (fun (s : State) g => match g.trap with | some t => s.supAppend g t | none => s) s
  | .rootTable ctx => (s.withCtx ctx).updCtx ctx fun c => { c with root := bits x 51 0 }
  | .tensorEntry ctx n =>
    if n < 256 then (s.withCtx ctx).updCtx ctx fun c => { c with tensors := AMap.set c.tensors n (tensorFields (BitVec.ofNat 512 x)) } else s
  | .share die i => if i < 4 then s.updDie die fun d => { d with shares := AMap.set d.shares i (ShareRec.ofBits x) } else s
  | .channel die h =>
    if h < 32 then s.updDie die fun d => { d with channels := AMap.set d.channels h (BitVec.ofNat 192 x) } else s
  | .contextArea die i => if i < 4 then s.updDie die fun d => { d with areas := AMap.set d.areas i (AreaRec.ofBits x) } else s
  | .tagRecord die cl set =>
    if cl < 32 ∧ set < 4 then s.updCluster die cl fun c => { c with tags := AMap.set c.tags set (TagRec.ofBits x) } else s
  | .slotHeader ctx slot =>
    match s.ctx? ctx with
    | some c =>
      let a := c.slotAddr slot
      if slot < c.nslot then s.wr a 4 (s.rd a 4 / 2 ^ 31 * 2 ^ 31 + x % 2 ^ 31) else s
    | none => s
  | .tlbinvFields die =>
    s.updDie die fun d =>
      { d with tlbinv := BitVec.ofNat 128 (bits x 127 56 * 2 ^ 56 + bits x 47 32 * 2 ^ 32 + bits x 3 1 * 2 + d.tlbinv.toNat % 2) }
  | .preemptFields die =>
    s.updDie die fun d => { d with preempt := BitVec.ofNat 128 (bits x 127 80 * 2 ^ 80 + d.preempt.toNat % 4) }
  | .dbgctlFields die =>
    s.updDie die fun d =>
      { d with dbgctl := BitVec.ofNat 128 (bits x 127 48 * 2 ^ 48 + bits x 5 5 * 32 + bits x 3 3 * 8 + d.dbgctl.toNat % 4) }
  | .trapresFields die => s.updDie die fun d => { d with trapres := BitVec.ofNat 128 (bits x 127 48 * 2 ^ 48 + 3) }
  | .evring =>
    s.updPkg fun p =>
      { p with evBase := bits x 191 144, evLogn := bits x 132 128, evTail := BitVec.ofNat 32 (bits x 95 64), evEn := bit x 0 }
  | .replica die page =>
    s.updDie die fun d =>
      { d with
        replicas := if !bit x 0 then d.replicas.filter (· ≠ page)
          else if 16384 ≤ d.replicas.length then d.replicas else insertNat d.replicas page }
  | .peerPort n => s.updPkg fun p => if bit x 0 then p else { p with peers := p.peers.filter (· ≠ n) }

/-- REGISTER_WRITE (R5). -/
def execRegisterWrite (r : CtrlReg) (v : BitVec 512) (s : State) : Out := .next (s.writeReg r v.toNat)

end Sys2Proof.Machine
end

