-- ==== Sys2Proof/Machine/Dispatch.lean ====
section
/-! DEFINITION. Dispatch: one arm for each constructor of `Instr`, each a call of that row's meaning. -/

namespace Sys2Proof.Machine

def exec (i : Instr) (s : State) : Host.Outcome State Fault Refusal :=
  match i with
  | .nop h => Sys2Proof.Machine.execNop h s
  | .add h f => Sys2Proof.Machine.execAdd h f s
  | .addI h f => Sys2Proof.Machine.execAddI h f s
  | .sub h f => Sys2Proof.Machine.execSub h f s
  | .mul h f => Sys2Proof.Machine.execMul h f s
  | .mulh h f => Sys2Proof.Machine.execMulh h f s
  | .mad h f => Sys2Proof.Machine.execMad h f s
  | .min h f => Sys2Proof.Machine.execMin h f s
  | .max h f => Sys2Proof.Machine.execMax h f s
  | .abs h f => Sys2Proof.Machine.execAbs h f s
  | .neg h f => Sys2Proof.Machine.execNeg h f s
  | .adds h f => Sys2Proof.Machine.execAdds h f s
  | .subs h f => Sys2Proof.Machine.execSubs h f s
  | .sad h f => Sys2Proof.Machine.execSad h f s
  | .and_ h f => Sys2Proof.Machine.execAnd h f s
  | .andI h f => Sys2Proof.Machine.execAndI h f s
  | .or_ h f => Sys2Proof.Machine.execOr h f s
  | .orI h f => Sys2Proof.Machine.execOrI h f s
  | .xor_ h f => Sys2Proof.Machine.execXor h f s
  | .xorI h f => Sys2Proof.Machine.execXorI h f s
  | .andn h f => Sys2Proof.Machine.execAndn h f s
  | .not_ h f => Sys2Proof.Machine.execNot h f s
  | .shl h f => Sys2Proof.Machine.execShl h f s
  | .shlI h f => Sys2Proof.Machine.execShlI h f s
  | .shr h f => Sys2Proof.Machine.execShr h f s
  | .shrI h f => Sys2Proof.Machine.execShrI h f s
  | .sar h f => Sys2Proof.Machine.execSar h f s
  | .sarI h f => Sys2Proof.Machine.execSarI h f s
  | .rot h f => Sys2Proof.Machine.execRot h f s
  | .rotI h f => Sys2Proof.Machine.execRotI h f s
  | .clz h f => Sys2Proof.Machine.execClz h f s
  | .popc h f => Sys2Proof.Machine.execPopc h f s
  | .brev h f => Sys2Proof.Machine.execBrev h f s
  | .bfe h f => Sys2Proof.Machine.execBfe h f s
  | .bfi h f => Sys2Proof.Machine.execBfi h f s
  | .prmt h f => Sys2Proof.Machine.execPrmt h f s
  | .ext h f => Sys2Proof.Machine.execExt h f s
  | .sel h f => Sys2Proof.Machine.execSel h f s
  | .cmp h f => Sys2Proof.Machine.execCmp h f s
  | .cmpI h f => Sys2Proof.Machine.execCmpI h f s
  | .pand h f => Sys2Proof.Machine.execPand h f s
  | .por h f => Sys2Proof.Machine.execPor h f s
  | .pxor h f => Sys2Proof.Machine.execPxor h f s
  | .pnot h f => Sys2Proof.Machine.execPnot h f s
  | .movpToVector h f => Sys2Proof.Machine.execMovpToVector h f s
  | .movpToPredicates h f => Sys2Proof.Machine.execMovpToPredicates h f s
  | .mov h f => Sys2Proof.Machine.execMov h f s
  | .movi h f => Sys2Proof.Machine.execMovi h f s
  | .movs h f => Sys2Proof.Machine.execMovs h f s
  | .movsw h f => Sys2Proof.Machine.execMovsw h f s
  | .lea h f => Sys2Proof.Machine.execLea h f s
  | .leaI h f => Sys2Proof.Machine.execLeaI h f s
  | .fadd h f => Sys2Proof.Machine.execFadd h f s
  | .fsub h f => Sys2Proof.Machine.execFsub h f s
  | .fmul h f => Sys2Proof.Machine.execFmul h f s
  | .ffma h f => Sys2Proof.Machine.execFfma h f s
  | .fmin h f => Sys2Proof.Machine.execFmin h f s
  | .fmax h f => Sys2Proof.Machine.execFmax h f s
  | .fminm h f => Sys2Proof.Machine.execFminm h f s
  | .fmaxm h f => Sys2Proof.Machine.execFmaxm h f s
  | .fcmp h f => Sys2Proof.Machine.execFcmp h f s
  | .fclass h f => Sys2Proof.Machine.execFclass h f s
  | .frnd h f => Sys2Proof.Machine.execFrnd h f s
  | .fscale h f => Sys2Proof.Machine.execFscale h f s
  | .frcp h f => Sys2Proof.Machine.execFrcp h f s
  | .frsq h f => Sys2Proof.Machine.execFrsq h f s
  | .fsqrt h f => Sys2Proof.Machine.execFsqrt h f s
  | .fdivf h f => Sys2Proof.Machine.execFdivf h f s
  | .fexp2 h f => Sys2Proof.Machine.execFexp2 h f s
  | .flog2 h f => Sys2Proof.Machine.execFlog2 h f s
  | .fsin h f => Sys2Proof.Machine.execFsin h f s
  | .fcos h f => Sys2Proof.Machine.execFcos h f s
  | .ftanh h f => Sys2Proof.Machine.execFtanh h f s
  | .cvt h f => Sys2Proof.Machine.execCvt h f s
  | .cvtsr h f => Sys2Proof.Machine.execCvtsr h f s
  | .pack h f => Sys2Proof.Machine.execPack h f s
  | .unpack h f => Sys2Proof.Machine.execUnpack h f s
  | .dot2 h f => Sys2Proof.Machine.execDot2 h f s
  | .dot4 h f => Sys2Proof.Machine.execDot4 h f s
  | .dot8 h f => Sys2Proof.Machine.execDot8 h f s
  | .dots h f => Sys2Proof.Machine.execDots h f s
  | .shfl h f => Sys2Proof.Machine.execShfl h f s
  | .vote h f => Sys2Proof.Machine.execVote h f s
  | .redg h f => Sys2Proof.Machine.execRedg h f s
  | .scang h f => Sys2Proof.Machine.execScang h f s
  | .bcast h f => Sys2Proof.Machine.execBcast h f s
  | .ldN8 h f => Sys2Proof.Machine.execLdN8 h f s
  | .ldN16 h f => Sys2Proof.Machine.execLdN16 h f s
  | .ldN32 h f => Sys2Proof.Machine.execLdN32 h f s
  | .ldB64 h f => Sys2Proof.Machine.execLdB64 h f s
  | .ldS8 h f => Sys2Proof.Machine.execLdS8 h f s
  | .ldS16 h f => Sys2Proof.Machine.execLdS16 h f s
  | .ldS32 h f => Sys2Proof.Machine.execLdS32 h f s
  | .stB8 h f => Sys2Proof.Machine.execStB8 h f s
  | .stB16 h f => Sys2Proof.Machine.execStB16 h f s
  | .stB32 h f => Sys2Proof.Machine.execStB32 h f s
  | .stB64 h f => Sys2Proof.Machine.execStB64 h f s
  | .ldfe h f => Sys2Proof.Machine.execLdfe h f s
  | .stfe h f => Sys2Proof.Machine.execStfe h f s
  | .fefill h f => Sys2Proof.Machine.execFefill h f s
  | .feq h f => Sys2Proof.Machine.execFeq h f s
  | .atom h f => Sys2Proof.Machine.execAtom h f s
  | .atomf h f => Sys2Proof.Machine.execAtomf h f s
  | .cas h f => Sys2Proof.Machine.execCas h f s
  | .pref h f => Sys2Proof.Machine.execPref h f s
  | .cinv h f => Sys2Proof.Machine.execCinv h f s
  | .cwb h f => Sys2Proof.Machine.execCwb h f s
  | .waitk h f => Sys2Proof.Machine.execWaitk h f s
  | .tdef h f => Sys2Proof.Machine.execTdef h f s
  | .tinv h f => Sys2Proof.Machine.execTinv h f s
  | .tget h f => Sys2Proof.Machine.execTget h f s
  | .mzero h f => Sys2Proof.Machine.execMzero h f s
  | .mload h f => Sys2Proof.Machine.execMload h f s
  | .mstore h f => Sys2Proof.Machine.execMstore h f s
  | .mmaW16 h f => Sys2Proof.Machine.execMmaW16 h f s
  | .mmaW8 h f => Sys2Proof.Machine.execMmaW8 h f s
  | .mmaW6 h f => Sys2Proof.Machine.execMmaW6 h f s
  | .mmaW4 h f => Sys2Proof.Machine.execMmaW4 h f s
  | .mwait h f => Sys2Proof.Machine.execMwait h f s
  | .copy h f => Sys2Proof.Machine.execCopy h f s
  | .gres h f => Sys2Proof.Machine.execGres h f s
  | .gresOpen h f => Sys2Proof.Machine.execGresOpen h f s
  | .cflag h f => Sys2Proof.Machine.execCflag h f s
  | .tlbp h f => Sys2Proof.Machine.execTlbp h f s
  | .tlbpFill h f => Sys2Proof.Machine.execTlbpFill h f s
  | .pattrReplicate h f => Sys2Proof.Machine.execPattrReplicate h f s
  | .pattrCollapse h f => Sys2Proof.Machine.execPattrCollapse h f s
  | .pattrFlush h f => Sys2Proof.Machine.execPattrFlush h f s
  | .coll h f => Sys2Proof.Machine.execColl h f s
  | .tex h f => Sys2Proof.Machine.execTex h f s
  | .trace h f => Sys2Proof.Machine.execTrace h f s
  | .traceh h f => Sys2Proof.Machine.execTraceh h f s
  | .prim h f => Sys2Proof.Machine.execPrim h f s
  | .pend h => Sys2Proof.Machine.execPend h s
  | .cwr h f => Sys2Proof.Machine.execCwr h f s
  | .cclr h f => Sys2Proof.Machine.execCclr h f s
  | .cdec h f => Sys2Proof.Machine.execCdec h f s
  | .zcmp h f => Sys2Proof.Machine.execZcmp h f s
  | .bra h f => Sys2Proof.Machine.execBra h f s
  | .brx h f => Sys2Proof.Machine.execBrx h f s
  | .brany h f => Sys2Proof.Machine.execBrany h f s
  | .brall h f => Sys2Proof.Machine.execBrall h f s
  | .call h f => Sys2Proof.Machine.execCall h f s
  | .ret h => Sys2Proof.Machine.execRet h s
  | .loop h f => Sys2Proof.Machine.execLoop h f s
  | .rfpt h => Sys2Proof.Machine.execRfpt h s
  | .yield h => Sys2Proof.Machine.execYield h s
  | .launch h f => Sys2Proof.Machine.execLaunch h f s
  | .emit h f => Sys2Proof.Machine.execEmit h f s
  | .exit h => Sys2Proof.Machine.execExit h s
  | .await h f => Sys2Proof.Machine.execAwait h f s
  | .barinit h f => Sys2Proof.Machine.execBarinit h f s
  | .barjoin h f => Sys2Proof.Machine.execBarjoin h f s
  | .barjoinNow h f => Sys2Proof.Machine.execBarjoinNow h f s
  | .bararr h f => Sys2Proof.Machine.execBararr h f s
  | .barwait h f => Sys2Proof.Machine.execBarwait h f s
  | .bardrop h f => Sys2Proof.Machine.execBardrop h f s
  | .pbar h => Sys2Proof.Machine.execPbar h s
  | .cvset h f => Sys2Proof.Machine.execCvset h f s
  | .fence h f => Sys2Proof.Machine.execFence h f s
  | .fenceSc h => Sys2Proof.Machine.execFenceSc h s
  | .trap h f => Sys2Proof.Machine.execTrap h f s
  | .rtt h => Sys2Proof.Machine.execRtt h s
  | .rttSkip h => Sys2Proof.Machine.execRttSkip h s
  | .brk h f => Sys2Proof.Machine.execBrk h f s
  | .repl h f => Sys2Proof.Machine.execRepl h f s
  | .hmov h f => Sys2Proof.Machine.execHmov h f s
  | .savept h f => Sys2Proof.Machine.execSavept h f s
  | .doorbellWrite ctx q tail => Sys2Proof.Machine.execDoorbellWrite ctx q tail s
  | .descriptorWrite ctx q d => Sys2Proof.Machine.execDescriptorWrite ctx q d s
  | .admission ctx q => Sys2Proof.Machine.execAdmission ctx q s
  | .release l => Sys2Proof.Machine.execRelease l s
  | .launchCompletion l => Sys2Proof.Machine.execLaunchCompletion l s
  | .dealRequest l die => Sys2Proof.Machine.execDealRequest l die s
  | .dealServe l => Sys2Proof.Machine.execDealServe l s
  | .dealReply l die => Sys2Proof.Machine.execDealReply l die s
  | .placementStep die => Sys2Proof.Machine.execPlacementStep die s
  | .starvationHold die l => Sys2Proof.Machine.execStarvationHold die l s
  | .tileSetBind die cl => Sys2Proof.Machine.execTileSetBind die cl s
  | .surgeGrant die cl core => Sys2Proof.Machine.execSurgeGrant die cl core s
  | .inrushGrant die => Sys2Proof.Machine.execInrushGrant die s
  | .clusterWakeEnd die cl => Sys2Proof.Machine.execClusterWakeEnd die cl s
  | .clusterGate die cl => Sys2Proof.Machine.execClusterGate die cl s
  | .gateDownEnd die cl => Sys2Proof.Machine.execGateDownEnd die cl s
  | .storeQuarterGate die cl quarter => Sys2Proof.Machine.execStoreQuarterGate die cl quarter s
  | .quarterWakeEnd die cl quarter => Sys2Proof.Machine.execQuarterWakeEnd die cl quarter s
  | .rangeClearEnd die cl start => Sys2Proof.Machine.execRangeClearEnd die cl start s
  | .dieCacheWayGate die ways => Sys2Proof.Machine.execDieCacheWayGate die ways s
  | .dieCacheWayWake die ways => Sys2Proof.Machine.execDieCacheWayWake die ways s
  | .levelRaise g => Sys2Proof.Machine.execLevelRaise g s
  | .schedStallExpiry g => Sys2Proof.Machine.execSchedStallExpiry g s
  | .refill g => Sys2Proof.Machine.execRefill g s
  | .entryUnpark g pc => Sys2Proof.Machine.execEntryUnpark g pc s
  | .countedOpComplete op => Sys2Proof.Machine.execCountedOpComplete op s
  | .bankAccess die cl bank => Sys2Proof.Machine.execBankAccess die cl bank s
  | .ldfeResend acc => Sys2Proof.Machine.execLdfeResend acc s
  | .memoryErrorDelivery op => Sys2Proof.Machine.execMemoryErrorDelivery op s
  | .matrixEngineStart die cl => Sys2Proof.Machine.execMatrixEngineStart die cl s
  | .matrixOpComplete die cl => Sys2Proof.Machine.execMatrixOpComplete die cl s
  | .tileWindowWrite die cl off v => Sys2Proof.Machine.execTileWindowWrite die cl off v s
  | .hbmPacket die tag => Sys2Proof.Machine.execHbmPacket die tag s
  | .hbmReply die tag => Sys2Proof.Machine.execHbmReply die tag s
  | .channelSlot die ch slot => Sys2Proof.Machine.execChannelSlot die ch slot s
  | .pageWalkStart die => Sys2Proof.Machine.execPageWalkStart die s
  | .pageWalkDone die walk => Sys2Proof.Machine.execPageWalkDone die walk s
  | .tlbinv die v => Sys2Proof.Machine.execTlbinv die v s
  | .tlbinvDone die => Sys2Proof.Machine.execTlbinvDone die s
  | .collapseMessage die page => Sys2Proof.Machine.execCollapseMessage die page s
  | .collapseAck die page => Sys2Proof.Machine.execCollapseAck die page s
  | .copyStart die ch => Sys2Proof.Machine.execCopyStart die ch s
  | .copyComplete cmd => Sys2Proof.Machine.execCopyComplete cmd s
  | .streamTagGrant src dst => Sys2Proof.Machine.execStreamTagGrant src dst s
  | .openFlit st => Sys2Proof.Machine.execOpenFlit st s
  | .dataFlit st => Sys2Proof.Machine.execDataFlit st s
  | .flagFlit st => Sys2Proof.Machine.execFlagFlit st s
  | .closeFlit st => Sys2Proof.Machine.execCloseFlit st s
  | .itemStreamClose src dst => Sys2Proof.Machine.execItemStreamClose src dst s
  | .remoteWriteApply acc => Sys2Proof.Machine.execRemoteWriteApply acc s
  | .primitivePacket l src dst => Sys2Proof.Machine.execPrimitivePacket l src dst s
  | .endMarker l src dst => Sys2Proof.Machine.execEndMarker l src dst s
  | .markerSend l die w => Sys2Proof.Machine.execMarkerSend l die w s
  | .rasterise l die => Sys2Proof.Machine.execRasterise l die s
  | .colourApply l die ticket => Sys2Proof.Machine.execColourApply l die ticket s
  | .depthApply l die ticket => Sys2Proof.Machine.execDepthApply l die ticket s
  | .rayTraversalEnd acc => Sys2Proof.Machine.execRayTraversalEnd acc s
  | .dieArrival l die => Sys2Proof.Machine.execDieArrival l die s
  | .treeArrival l node => Sys2Proof.Machine.execTreeArrival l node s
  | .pbarRelease l die => Sys2Proof.Machine.execPbarRelease l die s
  | .collectiveMatch cmd => Sys2Proof.Machine.execCollectiveMatch cmd s
  | .collectiveComplete cmd => Sys2Proof.Machine.execCollectiveComplete cmd s
  | .frequencyStep die f => Sys2Proof.Machine.execFrequencyStep die f s
  | .relockEnd die => Sys2Proof.Machine.execRelockEnd die s
  | .tickMarkerSend die => Sys2Proof.Machine.execTickMarkerSend die s
  | .tickMarker die => Sys2Proof.Machine.execTickMarker die s
  | .tickClosing die => Sys2Proof.Machine.execTickClosing die s
  | .handlerFrameGrant die cl core => Sys2Proof.Machine.execHandlerFrameGrant die cl core s
  | .trapresRetry die ctx grp => Sys2Proof.Machine.execTrapresRetry die ctx grp s
  | .trapresForward die ctx grp => Sys2Proof.Machine.execTrapresForward die ctx grp s
  | .trapresTerminate die ctx grp => Sys2Proof.Machine.execTrapresTerminate die ctx grp s
  | .preempt die v => Sys2Proof.Machine.execPreempt die v s
  | .gangSaved gang => Sys2Proof.Machine.execGangSaved gang s
  | .dbgHalt die v => Sys2Proof.Machine.execDbgHalt die v s
  | .dbgResume die v => Sys2Proof.Machine.execDbgResume die v s
  | .dbgStep die v => Sys2Proof.Machine.execDbgStep die v s
  | .haltTakesEffect g => Sys2Proof.Machine.execHaltTakesEffect g s
  | .continuationReady r => Sys2Proof.Machine.execContinuationReady r s
  | .groupRetire g => Sys2Proof.Machine.execGroupRetire g s
  | .gangRetire gang => Sys2Proof.Machine.execGangRetire gang s
  | .edgeFailure px py dir => Sys2Proof.Machine.execEdgeFailure px py dir s
  | .hostLinkPortFail port => Sys2Proof.Machine.execHostLinkPortFail port s
  | .dieFailed die => Sys2Proof.Machine.execDieFailed die s
  | .watchdogScanout die cl core => Sys2Proof.Machine.execWatchdogScanout die cl core s
  | .wdtctlWrite die v => Sys2Proof.Machine.execWdtctlWrite die v s
  | .wdtRestart die => Sys2Proof.Machine.execWdtRestart die s
  | .powerUp => Sys2Proof.Machine.execPowerUp s
  | .imageUpdate sigOk secVer => Sys2Proof.Machine.execImageUpdate sigOk secVer s
  | .recoveryImageLoad sigOk secVer => Sys2Proof.Machine.execRecoveryImageLoad sigOk secVer s
  | .getVersion => Sys2Proof.Machine.execGetVersion s
  | .getCapabilities => Sys2Proof.Machine.execGetCapabilities s
  | .negotiateAlgorithms => Sys2Proof.Machine.execNegotiateAlgorithms s
  | .getDigests => Sys2Proof.Machine.execGetDigests s
  | .getCertificate => Sys2Proof.Machine.execGetCertificate s
  | .challenge nonce => Sys2Proof.Machine.execChallenge nonce s
  | .getMeasurements => Sys2Proof.Machine.execGetMeasurements s
  | .hostWindowWrite n v => Sys2Proof.Machine.execHostWindowWrite n v s
  | .peerPortEnable n => Sys2Proof.Machine.execPeerPortEnable n s
  | .correctedErrorRetire die page => Sys2Proof.Machine.execCorrectedErrorRetire die page s
  | .powerWindow now => Sys2Proof.Machine.execPowerWindow now s
  | .pkgpwrWrite limit => Sys2Proof.Machine.execPkgpwrWrite limit s
  | .currentLimitTrip amps => Sys2Proof.Machine.execCurrentLimitTrip amps s
  | .currentLimitRelease amps => Sys2Proof.Machine.execCurrentLimitRelease amps s
  | .thermalStep die degC => Sys2Proof.Machine.execThermalStep die degC s
  | .thermalTrip degC => Sys2Proof.Machine.execThermalTrip degC s
  | .registerWrite r v => Sys2Proof.Machine.execRegisterWrite r v s
  | .powerLoss logBytes => Sys2Proof.Machine.execPowerLoss logBytes s
  | .peerAcknowledgement acc => Sys2Proof.Machine.execPeerAcknowledgement acc s
  | .peerPortFail n => Sys2Proof.Machine.execPeerPortFail n s
  | .hostLinkReply acc => Sys2Proof.Machine.execHostLinkReply acc s
  | .hostMemoryAccess a => Sys2Proof.Machine.execHostMemoryAccess a s
  | .remoteReadReply acc => Sys2Proof.Machine.execRemoteReadReply acc s

end Sys2Proof.Machine
end

