-- ==== Sys2Proof/WellFormed.lean ====
section
/-! DEFINITION. WellFormed: what Table 3.10 asks of an instruction, alone and in a chain, and of a step of another agent. -/

namespace Sys2Proof

/-- The row is an instruction word; the others are steps of the panel's other agents (spec 95). -/
def Instr.isWord (i : Instr) : Bool := i.opBits.isSome

/-- The sequence raises no code of Table 3.10 at its place (R77, R102). -/
def Instr.wfAt (i : Instr) (pos : ChainPos) : Bool := (i.codesAt pos).isEmpty

/-- A sequence outside a chain is well formed: it has no `chain` hint and raises no code (R77). -/
def Instr.wf (i : Instr) : Bool := i.isWord && i.head.hints.chain.isNone && i.wfAt none

/-- The sequences of a chain are well formed as one unit (R102): the first holds the `chain` hint with their number less one,
no later one holds a `chain` hint, and no member raises a code. -/
def chainWf (ms : List Instr) : Bool :=
  (chainCodes ms).isEmpty && ms.all Instr.isWord &&
    (match ms with
      | [] => false
      | i :: _ => i.head.hints.chain.map (·.toNat) == some (ms.length - 1))

end Sys2Proof
end

