-- ==== Sys2Proof/Machine/Schedule.lean ====
section
/-! DEFINITION. Schedule: who acts next. A core's choice of the group that issues (spec 04 R87-R90), the fetch and check of
its sequence, and the steps that the panel's other agents can take by themselves (spec 95). -/

namespace Sys2Proof

/-- A sequence takes a scalar pipe (Table 4.1). -/
def Instr.scalarPipe (i : Instr) : Bool :=
  i.head.hints.chain.isNone &&
    (i.info.guard == 1 || (match i with | .bra .. | .call .. | .ret _ | .brany .. | .brall .. | .nop _ => true | _ => false))

end Sys2Proof

namespace Sys2Proof.Machine

/-! ### Which group issues (R88, R89) -/

/-- Nothing that R88 names holds the group: it may issue if its selected sequence can start. A memory error that waits for delivery is
delivered at the boundary first (R351). -/
def State.mayIssue (s : State) (g : Group) : Bool :=
  !g.retired && !g.halted && g.stall == 0 && g.surgeWait != some 0 &&
    (match g.stop with
      | .running => g.frame.isNone && (!(g.preempting || g.haltReq || !g.deliver.isEmpty) || g.front.any Entry.midway)
      | .handling => g.frame.isSome && (!g.haltReq || g.front.any Entry.midway)
      | _ => false) &&
    !s.relocking g.die && (s.cluster g.die g.cluster).power == .awake &&
    !((s.gang? g.gang).map (·.restoredOps)).getD false && !s.refillSelected g

/-- The group whose turn it is, and the entry it issues: none where `cur` names no group that may issue. -/
def State.turn (s : State) : Option (Group × Entry) :=
  match s.group? s.cur with
  | some g => if s.mayIssue g then (Entry.select g.front).map fun e => (g, e) else none
  | none => none

/-! ### Fetching, checking and issuing a sequence -/

/-- The words with the OP bit 14 of a reserved page-attribute word cleared: the form whose hints and guard it is checked as. -/
def pattrAs (ws : List (BitVec 32)) : List (BitVec 32) :=
  ws.map fun w => if !isHint w ∧ (w.extractLsb' 18 8).toNat = 0xc4 then w &&& ~~~(0x4000 : BitVec 32) else w

/-- A sequence whose words alone raise a code of Table 3.10: the trap reports the lowest code of the whole unit (R77, R102). -/
def State.illegalAt (s : State) (g : Group) (e : Entry) (ws : List (BitVec 32)) (d : Decoded) : State :=
  match d.instr with
  | none =>
    let more := match (decodeWords (pattrAs ws)).bind (·.instr) with
      | some i => i.codesAt none
      | none => []
    let h := Hints.ofWords (ws.takeWhile isHint)
    s.takeTrap g e
      { cls := 1, detail := (lowestCode (d.codes ++ more)).getD 1, tmask := e.restart.getD e.mask, words := d.words
        isRep := h.rep.isSome, isChain := h.chain.isSome, reps := h.reps, dead := h.deadRegs
        yields := (h.sched.map (·.y)).getD false, stall := (h.sched.map (·.stall.toNat)).getD 0 }
  | some i =>
    let u := Iss.mk' s g e i
    match i.head.hints.chain with
    | none => u.trap { cls := 1, detail := (lowestCode (d.codes ++ i.codesAt none)).getD 1, tmask := u.act }
    | some len =>
      match s.members g len.toNat (e.pc + 4 * d.words) with
      | .stop f => s.fetchStop g e f
      | .ok ds =>
        { u with words := u.words + (ds.map Decoded.words).sum }.trap
          { cls := 1, detail := (lowestCode (d.codes ++ unitCodes i ds)).getD 1, tmask := u.act }

/-- Fetch the sequence of a group's selected entry, check its words and run it (R61, R77, R113). -/
def State.issueEntry (s : State) (g : Group) (e : Entry) : Out :=
  match s.fetchSeq g e.pc with
  | .ok ws =>
    match decodeWords ws with
    | none => .next s
    | some d =>
      match d.codes, d.instr with
      | [], some i => exec i s
      | _, _ => .next (s.illegalAt g e ws d)
  | f => .next (s.fetchStop g e f)

/-- The group's next sequence can start: taking it changes the state (R88). -/
def State.ready (s : State) (g : Group) : Bool :=
  let s := { s with cur := g.id }
  match s.turn with
  | none => false
  | some (g, e) => match s.issueEntry g e with
    | .next t => decide (t ≠ s)
    | _ => false

/-- R89: the higher level, then the older last start, then the lower `sr.group`. -/
def State.beats (s : State) (a b : Group) : Bool :=
  decide (b.level < a.level) ||
    (a.level == b.level && (decide (a.lastStart < b.lastStart) || (a.lastStart == b.lastStart && decide (s.srGroup a < s.srGroup b))))

/-- Two groups share a core. -/
def Group.sameCore (a b : Group) : Bool := a.die == b.die && a.cluster == b.cluster && a.core == b.core

/-- The next sequence of a group needs a scalar pipe (Table 4.1); one that cannot be read is fetched for a vector pipe. -/
def State.needsScalar (s : State) (g : Group) : Bool :=
  match Entry.select g.front with
  | some e =>
    match s.fetchSeq g e.pc with
    | .ok ws => (((decodeWords ws).bind (·.instr)).map Instr.scalarPipe).getD false
    | _ => false
  | none => false

/-- Two groups share a core and need pipes of one kind. -/
def State.rivals (s : State) (a b : Group) : Bool := a.sameCore b && s.needsScalar a == s.needsScalar b

/-- The ready groups that their cores choose, one for each kind of pipe (R89). -/
def State.winners (s : State) (rs : List Group) : List Group :=
  rs.filter fun a => !(rs.any fun b => s.rivals a b && s.beats b a)

/-- The group that issues next: a choice of its core (R89), and among those the one that has waited longest. 0 where no
group is ready. -/
def firstWinner (wins : List Group) : Nat :=
  match wins with
  | [] => 0
  | a :: t => (t.foldl (fun (b : Group) x => if x.lastStart < b.lastStart then x else b) a).id

/-! ### What the other agents can do -/

/-- Clusters that hold a gang or differ from their state after reset. -/
def State.knownClusters (s : State) : List (Nat × Nat) :=
  (s.gangs.map (fun (ga : Gang) => (ga.die, ga.cluster)) ++ s.clusters.map (fun (c : Cluster) => (c.key / 32, c.key % 32))).dedup

/-- The slot in which a base die may start a packet for a location (R247). -/
def slotFor (home loc draw : Nat) : Instr := .channelSlot home (hbmChannel loc) (draw % 64)

/-- Steps that carry an access onward, by where it stands. -/
def State.accessSteps (s : State) (a : Access) : List Instr :=
  match a.phase with
  | .atBank => [.bankAccess (locDie a.loc) (locCluster a.loc) (locBank a.loc)]
  | .waiter => []
  | .refused => [.ldfeResend a.id]
  | .toHbm => if a.started then [.hbmPacket a.home a.tag] else [slotFor a.home a.loc s.draw]
  | .hbmDone => [.hbmReply a.home a.tag]
  | .remoteWrite => if isDevice a.loc && !a.started then [slotFor a.home a.loc s.draw] else [.remoteWriteApply a.id]
  | .remoteReply => [.remoteReadReply a.id]
  | .toHost => [.hostLinkReply a.id]
  | .toPeer _ => [.peerAcknowledgement a.id]
  | .traversing => [.rayTraversalEnd a.id]

/-- The step that carries on a request of an engine or a unit, by where it stands. -/
def State.requestStep (s : State) (r : UnitReq) : Option Instr :=
  if r.done then none
  else if isStoreLoc r.loc then some (.bankAccess (locDie r.loc) (locCluster r.loc) (locBank r.loc))
  else if r.started then some (.hbmPacket r.home r.tag)
  else some (slotFor r.home r.loc s.draw)

/-- Steps of a group's frontier and of its end. -/
def groupSteps (g : Group) : List Instr :=
  [.haltTakesEffect g.id, .refill g.id, .groupRetire g.id] ++ (if g.stall = 0 then [] else [.schedStallExpiry g.id]) ++
    (g.front.filter (·.park.isSome)).map (fun (e : Entry) => .entryUnpark g.id e.pc) ++
    (if g.waited < 4096 then [] else [.levelRaise g.id]) ++
    (if g.surgeWait.isSome then [.surgeGrant g.die g.cluster g.core] else []) ++
    (if g.stop = .waitFrame then [.handlerFrameGrant g.die g.cluster g.core] else [])

/-- Steps of a launch: release, dealing, its barrier, its draw and its completion. -/
def State.launchSteps (s : State) (l : Launch) : List Instr :=
  let ds := s.dies.map (·.num)
  [.release l.id, .dealServe l.id, .launchCompletion l.id] ++
    l.dies.flatMap (fun d => [.dealRequest l.id d, .dealReply l.id d, .dieArrival l.id d, .starvationHold d l.id]) ++
    ds.flatMap (fun d => [.treeArrival l.id d, .pbarRelease l.id d]) ++
    (if l.isDraw then
      l.draw.flatMap (fun (f : Focus) =>
        .rasterise l.id f.die :: f.posts.flatMap (fun (p : Post) => [.colourApply l.id f.die p.ticket, .depthApply l.id f.die p.ticket])) ++
      l.dies.flatMap (fun d =>
        (l.focus d).windows.map (fun w => .markerSend l.id d w) ++
          l.owners.flatMap (fun o => [.primitivePacket l.id d o, .endMarker l.id d o]))
    else [])

/-- Steps of a die's own units. -/
def State.dieSteps (s : State) (d : Die) : List Instr :=
  [.placementStep d.num, .inrushGrant d.num, .pageWalkStart d.num, .tlbinvDone d.num, .tickMarkerSend d.num,
    .tickMarker d.num, .tickClosing d.num, .relockEnd d.num, .wdtRestart d.num] ++
    (List.range 4).map (fun c => .copyStart d.num c) ++
    (s.dies.map fun (x : Die) => .streamTagGrant d.num x.num)

/-- Steps of a cluster's own units. -/
def State.clusterSteps (s : State) (x : Nat × Nat) : List Instr :=
  [.tileSetBind x.1 x.2, .clusterWakeEnd x.1 x.2, .gateDownEnd x.1 x.2, .matrixEngineStart x.1 x.2, .matrixOpComplete x.1 x.2] ++
    (List.range 4).flatMap (fun q => [.quarterWakeEnd x.1 x.2 q, .watchdogScanout x.1 x.2 q]) ++
    (s.cluster x.1 x.2).clearing.map (fun (r : Nat × Nat) => .rangeClearEnd x.1 x.2 r.1)

/-- Every step that some agent of the panel might take by itself. -/
def State.candidates (s : State) : List Instr :=
  (if s.pkg.boot = 1 ∨ s.pkg.boot = 2 then [.powerUp] else []) ++
  s.pkg.declaring.map (fun (d : Nat) => .dieFailed d) ++
  s.accs.flatMap s.accessSteps ++
  s.reqs.filterMap s.requestStep ++
  s.ops.flatMap (fun (o : CountedOp) => [.countedOpComplete o.id, .memoryErrorDelivery o.id]) ++
  s.groups.flatMap groupSteps ++
  s.gangs.flatMap (fun (ga : Gang) => [.gangSaved ga.id, .gangRetire ga.id]) ++
  s.conts.map (fun (c : Cont) => .continuationReady c.id) ++
  (s.walks.filter (·.isRunning)).map (fun (w : Walk) => .pageWalkDone w.die w.id) ++
  s.collapses.flatMap (fun (c : Collapse) => c.todo.flatMap fun d => [.collapseMessage d c.page, .collapseAck d c.page]) ++
  s.active.map (fun (a : Active) => .copyComplete a.cmd.id) ++
  s.groups.filterMap (fun (g : Group) => g.engq.head?.map fun c => .collectiveMatch c.id) ++
  s.colls.map (fun (c : CollCmd) => .collectiveComplete c.cmd.id) ++
  s.streams.flatMap (fun (x : Stream) => [.openFlit x.id, .dataFlit x.id, .flagFlit x.id, .closeFlit x.id, .itemStreamClose x.src x.dst]) ++
  s.launches.flatMap s.launchSteps ++
  s.ctxs.flatMap (fun (c : Context) => c.queues.map fun (q : Nat × QDesc) => .admission c.num q.1) ++
  s.dies.flatMap s.dieSteps ++
  s.knownClusters.flatMap s.clusterSteps

/-- A list from a place on, then what comes before it. -/
def rotated {α : Type} (xs : List α) (n : Nat) : List α :=
  let k := n % Nat.max 1 xs.length
  xs.drop k ++ xs.take k

/-- The step an agent takes changes the state. -/
def State.acts (s : State) (i : Instr) : Bool :=
  match exec i s with
  | .next t => decide (t ≠ s)
  | _ => false

/-- The next step of another agent, if one can act: each comes up in turn. -/
def State.internal (s : State) : Option Instr := (rotated s.candidates s.draw).find? s.acts

/-! ### One step -/

/-- The outcome with its next state changed. -/
def onNext (f : State → State) : Out → Out
  | .next s => .next (f s)
  | r => r

/-- What follows a sequence: time passes and the other agents have the next turn. -/
def State.handOver (s : State) : State := { s.pass with cur := 0 }

/-- What follows the other agents' turn: time passes, the next group is chosen, and the ready groups that no core chose wait
(R89, R90). -/
def State.chosen (s : State) : State :=
  let s := s.pass
  let rs := s.groups.filter s.ready
  let wins := s.winners rs
  { s with
    cur := firstWinner wins
    groups := s.groups.map fun (g : Group) =>
      { g with waits := rs.any (·.id == g.id) && !(wins.any (·.id == g.id)) } }

/-- A step of the agenda: a step of another agent is taken. An instruction word names no such step and is passed over. -/
def State.scheduled (i : Instr) (s : State) : Out := if i.isWord then .next s else onNext State.pass (exec i s)

/-- A step of a package with no power: only POWER_UP acts (R393, R396). -/
def State.dark (s : State) : Out :=
  match s.agenda with
  | .powerUp :: t => exec .powerUp { s with agenda := t }
  | _ :: t => .next { s with agenda := t }
  | [] => .fault .unpowered

/-- A step of a powered package with an empty agenda: the management controller's own work, the group whose turn it is, or
another agent. -/
def State.proceed (s : State) : Out :=
  if s.controllerBusy then .next s.controller.pass
  else match s.turn with
    | some (g, e) => onNext State.handOver (s.issueEntry g e)
    | none => match s.internal with
      | some i => onNext State.chosen (exec i s)
      | none => .next s.chosen

/-! ### Placing an instruction where it is fetched next -/

/-- Virtual page of a placed program, and where its bytes lie: die 0. -/
def placeVa : Nat := 0x10000

/-- Physical address of a placed program's page. -/
def placePa : Nat := 0x1000000

/-- Where the lens table's page stands in a placed program's context (log 13). -/
def placeLens : Nat := 2 ^ 40

/-- A program of 16 words, the given one first and `nop` after it, in a group of its own on core 0 of cluster 0 of die 0,
resident with one item in each lane, its code page in the cluster's TLB and its line in the die cache, and the group's turn to issue
next. -/
def State.placed (s : State) (w : Nat) : State :=
  let c := (s.ctxs.map (·.num)).foldl Nat.max 0 + 1
  let n := s.next
  let st : Stage :=
    { kobj := placeVa, entry := 64, refill := 0, thresh := 32, rpri := 0, codesz := 64, steady := 32, peak := 32, store := 0
      groups := 1, span := 1 }
  let la : Launch :=
    { id := n, ctx := c, queue := 0, seq := 1, lpb := 0, phase := .released, order := 1, stages := [st], dies := [0], cmask := 0xFFFFFFFF }
  let ga : Gang := { id := n + 1, launch := n, serial := 0, pdie := 0, ngroups := 1, die := 0, cluster := 0 }
  let g : Group :=
    { id := n + 2, gang := n + 1, die := 0, cluster := 0, core := 0
      entries := [{ pc := placeVa + 64, mask := 0xFFFFFFFF }]
      items := lanes.map fun (l : Nat) => (l, ({ itemid := BitVec.ofNat 48 l } : Item))
      ages := lanes.map fun (l : Nat) => (l, 1) }
  let d : Die := { (s.die? 0).getD { num := 0 } with relock := none }
  let line := (placePa + 64) / 128
  let d : Die := { d with lines := { line := line, way := 0, dirty := false } :: d.lines.filter fun x => !(x.line % 8192 == line % 8192 && x.way == 0) }
  let k : Cluster := { s.cluster 0 0 with key := clKey 0 0, power := .awake }
  let s := { s with
    agenda := [], next := n + 3, cur := n + 2, mem := Memory.writeN s.mem (placePa + 64) 64 (w % 2 ^ 32)
    poison := s.poison.filter fun p => p / 64 ≠ (placePa + 64) / 64
    ctxs := { num := c, run := true, lens := placeLens } :: s.ctxs, launches := la :: s.launches, gangs := ga :: s.gangs, groups := g :: s.groups
    dies := d :: s.dies.filter fun (x : Die) => x.num ≠ 0 }
  let e : TlbE := { ctx := c, va := placeVa, level := 4, pte := BitVec.ofNat 64 (placePa + 0b1111) }
  let s := { s with clusters := { k with tlb := e :: k.tlb } :: s.clusters.filter fun (x : Cluster) => x.key ≠ clKey 0 0 }
  s.updPkg fun p => { p with powered := true, badPages := [], appending := [] }

end Sys2Proof.Machine
end

