-- ==== Sys2Proof/Machine/Step.lean ====
section
/-! DEFINITION. Step: one step of the panel. Every step is taken by one agent: the one the agenda names, else the management
controller, else the group whose turn it is, else another agent of the panel. -/

namespace Sys2Proof.Machine

/-- One step. -/
def step (s : State) : Out :=
  if s.pkg.powered then
    match s.agenda with
    | i :: t => State.scheduled i { s with agenda := t }
    | [] => s.proceed
  else s.dark

/-- `s` with an instruction word, and `nop` after it, where the next step fetches: a program comes to run by a launch, whose
placement this stands for. A row with no word leaves the state as it is. -/
def State.withFetchWord (s : State) (nbits w : Nat) : State := if nbits = 0 then s else s.placed w

end Sys2Proof.Machine
end

