-- ==== Sys2Proof/Safety.lean ====
section
/-! DEFINITION. Safety: what counts as a safe run, and the terms the claims use: an instruction at issue, where lanes stand,
and what a sequence leaves unchanged. -/

namespace Sys2Proof.Machine

/-! ### Runs -/

/-- `k` steps, stopping at the first fault or refusal. -/
def runSteps : Nat → State → Out
  | 0, s => .next s
  | k + 1, s => match step s with
    | .next t => runSteps k t
    | r => r

/-- A run never stops: every number of steps ends in a state (a package without power and with nothing to do stops). -/
def Safe (s : State) : Prop := ∀ k, ∃ t, runSteps k s = .next t

/-- The panel's memory is in its canonical form: addresses strictly rising, no listed byte equal to what an unlisted one reads
as. -/
def State.memOk (s : State) : Bool := Memory.wf s.mem

/-- The keys of a list stand in strictly ascending order from `lo` on. -/
def AMap.ascFrom {α : Type} : Nat → AMap α → Bool
  | _, [] => true
  | lo, (k, _) :: t => decide (lo ≤ k) && AMap.ascFrom (k + 1) t

/-- The registers of a group, and of its frame, are listed in ascending order of lane and number. -/
def Group.ordered (g : Group) : Bool :=
  AMap.ascFrom 0 g.v && (match g.frame with | some f => AMap.ascFrom 0 f.v | none => true)

/-! ### An instruction at issue -/

/-- The group whose turn it is issues `i`, outside a chain, for entry `e`, and nothing that every instruction shares stops it
before its own meaning: it raises no code of Table 3.10 (R77), a handler may run it (R350), no floating trap is due at it
(R161), and no register it names is pending (R101). -/
structure AtIssue (i : Instr) (s : State) (g : Group) (e : Entry) : Prop where
  group : s.group? s.cur = some g
  entry : Entry.select g.front = some e
  unchained : i.head.hints.chain = none
  legal : i.codesAt none = []
  allowed : g.inHandler = true → handlerBanned i = false ∧ i.namesHigh = false
  quiet : g.inHandler = false → fpBarrier i = true → (Iss.mk' s g e i).allWritten = true ∧ g.pnd = 0
  free : (Iss.mk' s g e i).pending = false

/-- The entry at issue is the only one of its group with its lanes (R91: the masks of a frontier are disjoint). -/
def Only (g : Group) (e : Entry) : Prop := ∀ x ∈ g.front, x.mask = e.mask → x = e

/-! ### What a sequence leaves unchanged -/

/-- An access without the mark of the values that nobody waits for any more. -/
def Access.unmarked (a : Access) : Access := { a with discard := [] }

/-- The accesses in flight are the same, but for the values on their way that a `dead` hint discards (R100). -/
def SameAccesses (s t : State) : Prop := t.accs.map Access.unmarked = s.accs.map Access.unmarked

/-- Between two states only group `id` differs, and of its cluster the count of sequences started (R391), which values on their way
to its registers are discarded (R100), and the model's own counter of identifiers: memory, every other group and every other record
is the same. -/
def OnlyGroup (s t : State) (id : Nat) : Prop :=
  t = { s with groups := t.groups, clusters := t.clusters, accs := t.accs, next := t.next } ∧ SameAccesses s t ∧
  (∀ k, k ≠ id → t.group? k = s.group? k) ∧
  ∀ d c, { t.cluster d c with progress := (s.cluster d c).progress } = s.cluster d c

/-- Of a group, only registers, predicates, entries, flags and what issuing changes differ (its level, last start, stall, wait for the
core, surge grant and halt request): its items, modes, queues, counters, trap record and place are the same. -/
def SamePlace (g g' : Group) : Prop :=
  g' = { g with
    v := g'.v, p := g'.p, s := g'.s, frame := g'.frame, entries := g'.entries, fpflags := g'.fpflags, waits := g'.waits, waited := g'.waited
    stall := g'.stall, surge := g'.surge, surgeWait := g'.surgeWait, level := g'.level, lastStart := g'.lastStart
    haltReq := g'.haltReq, stepping := g'.stepping }

/-- Executing `i` in state `s` answers a next state in which group `g` has become one that satisfies `P`; only that group
differs, and of it only what `SamePlace` allows. -/
def Completes (i : Instr) (s : State) (g : Group) (P : Group → Prop) : Prop :=
  ∃ t g', exec i s = .next t ∧ t.group? g.id = some g' ∧ OnlyGroup s t g.id ∧ SamePlace g g' ∧ P g'

/-- The vector registers of a group after a sequence: `w l` gives, for each lane, the value of the one register `d` that the
sequence writes there, if it writes one; registers that a `dead` hint names read zero in the lanes of the entry (R100). -/
def VectorsAfter (g g' : Group) (u : Iss) (d : Nat) (w : Nat → Option Word) : Prop :=
  ∀ r l, l < 32 → g'.getV r l =
    if u.e.mask.has l ∧ r ∈ u.deads then 0
    else if r = d then (w l).getD (g.getV r l) else g.getV r l

/-- The predicates of a group after a sequence: `w l` gives, for each lane, the new value of the one predicate `d` that the
sequence writes there. -/
def PredicatesAfter (g g' : Group) (d : Nat) (w : Nat → Option Bool) : Prop :=
  ∀ n l, n < 16 → l < 32 → g'.getPn n l = if n = d then (w l).getD (g.getPn n l) else g.getPn n l

/-- The scalar registers of a group after a sequence that writes at most register `d`. -/
def ScalarsAfter (g g' : Group) (d : Nat) (w : Option Word) : Prop :=
  ∀ n, g'.getS n = if n = d then w.getD (g.getS n) else g.getS n

/-- No register of a kind is written. -/
def SamePredicates (g g' : Group) : Prop := ∀ n l, l < 32 → g'.getPn n l = g.getPn n l
def SameScalars (g g' : Group) : Prop := ∀ n, g'.getS n = g.getS n

/-- A lane stands at a place of the frontier: its entry's PC, priority and control stack (R91). -/
def Stands (g : Group) (l pc prio : Nat) (stack : List CRec) : Prop :=
  ∃ x ∈ g.front, x.mask.has l = true ∧ x.pc = pc ∧ x.prio = prio ∧ x.stack = stack

/-- Every lane of an entry stands past a sequence of `w` words that made no transfer, its loops stepped (R110). -/
def Past (g' : Group) (e : Entry) (w : Nat) : Prop :=
  ∀ l, e.mask.has l = true → Stands g' l (e.advance w).pc e.prio (e.advance w).stack

/-- What completing a sequence of an entry with lanes `m` leaves of the group `g0` that its instruction gives: vector registers
(but those a `dead` hint names, which read zero in those lanes: R100), predicates, scalars, flags, modes, items, queues and place. -/
structure Closed (m : Mask) (dead : List Nat) (g0 g' : Group) : Prop where
  place : SamePlace g0 g'
  getV : ∀ r l, l < 32 → (dead = [] ∨ g0.ordered = true) → g'.getV r l = if m.has l ∧ r ∈ dead then 0 else g0.getV r l
  getP : ∀ l, g'.getP l = g0.getP l
  getS : ∀ n, g'.getS n = g0.getS n
  flags : g'.fpflags = g0.fpflags

/-- Registers a sequence's `dead` hint names. -/
def deadOf (i : Instr) : List Nat := (i.head.hints.dead.map DeadHint.regs).getD []

/-- Executing `i` for entry `e` of group `g` answers a next state: the state `s'` with the group become `g0`, its sequence
completed and its lanes moved past it. Beside the group, only what every sequence counts differs from `s'`. -/
def Ends (i : Instr) (s : State) (g : Group) (e : Entry) (s' : State) (g0 : Group) : Prop :=
  ∃ t g', exec i s = .next t ∧ t.group? g.id = some g' ∧ OnlyGroup s' t g.id ∧ Closed e.mask (deadOf i) g0 g' ∧
    Past g' e (i.head.hints.count + 1)

/-- The instruction writes vector register `d`: in every lane that executes it receives `f` of the lane, and nothing else of
the registers, predicates, scalars, memory or other groups changes. `fls` are the floating flags it raises, in order (R160). -/
def WritesVector (i : Instr) (s : State) (g : Group) (e : Entry) (d : Nat) (f : Nat → Word) (fls : List Nat := []) : Prop :=
  let u := Iss.mk' s g e i
  Completes i s g fun g' =>
    VectorsAfter g g' u d (fun l => if u.ex.has l then some (f l) else none) ∧ SamePredicates g g' ∧ SameScalars g g' ∧
      g'.fpflags = (fls.foldl Group.raise g).fpflags

/-- The register an instruction writes in vector register `d` can be mapped at once (R54). -/
def Mappable (i : Instr) (s : State) (g : Group) (e : Entry) (d : Nat) : Prop :=
  ∃ g1, s.regGate g (if (Iss.mk' s g e i).ex = 0 then [] else [d]) = .ok g1

/-- The registers of a group are listed in order, unless the instruction marks none dead. -/
def OrderedIfDead (i : Instr) (g : Group) : Prop := i.head.hints.dead = none ∨ g.ordered = true

/-! ### Register forms (R126) -/

/-- A register form at issue whose one destination can be written at once: no repeat, its register mapped. -/
structure RegisterForm (i : Instr) (o : Alu) (s : State) (g : Group) (e : Entry) : Prop where
  form : i.alu = some o
  issue : AtIssue i s g e
  only : Only g e
  listed : OrderedIfDead i g
  single : i.head.hints.rep = none ∧ e.repi = 0
  mapped : o.pd.isSome = true ∨ o.nw = true ∨ Mappable i s g e o.d

/-- What a register form's operation gives in a lane, on the group before it. -/
def laneResult (i : Instr) (o : Alu) (g : Group) (l : Nat) : LaneOut := i.lane (g.laneOp i o l [])

/-- A register form completes: every executing lane receives what `r` gives for it, in the destination register unless NW is set
or the form has none, and in the destination predicate of a form that has one; floating flags are raised in lane order; the
entry moves past the sequence; and one error log record is appended where a lane met a shift count out of range (R136, R354).
Nothing else changes. -/
def WritesLanes (i : Instr) (o : Alu) (s : State) (g : Group) (e : Entry) (r : Nat → LaneOut) : Prop :=
  let u := Iss.mk' s g e i
  ∃ t g', exec i s = .next (if u.ex.toList.any fun l => (r l).log then t.logGroup g 1 0 0 0 e.pc else t) ∧
    t.group? g.id = some g' ∧ OnlyGroup s t g.id ∧ SamePlace g g' ∧ Past g' e (i.head.hints.count + 1) ∧
    VectorsAfter g g' u o.d (fun l => if u.ex.has l && !(r l).noVal && !o.nw then some (r l).val else none) ∧
    (∀ n l, l < 32 → g'.getPn n l = if o.pd = some n ∧ u.ex.has l = true then (r l).pred else g.getPn n l) ∧
    SameScalars g g' ∧ g'.fpflags = (u.ex.toList.foldl (fun g l => g.raise (r l).fl) g).fpflags

/-- The repeats of a `rep` sequence, in order: repeat 0 for the lanes the sequence is issued for, later ones for the whole entry;
each repeat sees the writes of the earlier ones (R105). -/
def repeated (i : Instr) (o : Alu) (u : Iss) (g : Group) : Group :=
  (List.range (i.head.hints.reps + 1)).foldl (fun (g : Group) j =>
    (Group.runLanes i (o.step i.head.hints.rep j) (g.execMask i (if j = 0 then u.act else u.e.mask)).toList g).1) g

/-- A chain at issue, as one unit: the group whose turn it is issues `i`, whose `chain` hint asks for the sequences `ds` after it; no
code of Table 3.10 holds, a handler may run it, and no register or predicate that a member names is pending (R102, R77, R350, R101). -/
structure ChainAtIssue (i : Instr) (s : State) (g : Group) (e : Entry) (ds : List Decoded) : Prop where
  group : s.group? s.cur = some g
  entry : Entry.select g.front = some e
  only : Only g e
  chained : ∃ len : BitVec 4, i.head.hints.chain = some len ∧
    s.members g len.toNat (e.pc + 4 * (i.head.hints.count + 1)) = .ok ds
  legal : lowestCode (unitCodes i ds) = none
  allowed : g.inHandler = true → (i :: ds.map fun d => d.instr.getD (.ret {})).any Instr.namesHigh = false
  free : ((i :: ds.map fun d => d.instr.getD (.ret {})).any fun i =>
    (i.vreads ++ i.vwrites).any (s.pendV g) || i.preds.any (s.pendP g)) = false

/-- The members of a chain, the first one included, each with the address of its first word. -/
def chainMembers (i : Instr) (e : Entry) (ds : List Decoded) : List (Instr × Nat) :=
  (i, e.pc) :: (ds.map fun d => d.instr.getD (.ret {})).zip (addrsFrom (e.pc + 4 * (i.head.hints.count + 1)) ds)

/-- Words of a chain, all its members together. -/
def chainWords (i : Instr) (ds : List Decoded) : Nat := i.head.hints.count + 1 + (ds.map Decoded.words).sum

/-- A chain completes: the group becomes `g0`, its entry stands past all the words, and one error log record is appended for each member
that met a shift count out of range, with its address. Beside the group, only what every sequence counts differs from `s'`. -/
def ChainEnds (i : Instr) (s : State) (g : Group) (e : Entry) (ds : List Decoded) (logs : List Nat) (s' : State) (g0 : Group) : Prop :=
  ∃ t g', exec i s = .next (t.logShifts g logs) ∧ t.group? g.id = some g' ∧ OnlyGroup s' t g.id ∧ Closed e.mask [] g0 g' ∧
    Past g' e (chainWords i ds)

/-- The exact value that an integer form of Table 5.2 and of R132-R134 computes from its elements, w bits wide. -/
def exactForm (w : Nat) : Instr → Option (Int → Int → Int → Int)
  | .add .. | .addI .. | .adds .. => some fun a b _ => a + b
  | .sub .. | .subs .. => some fun a b _ => a - b
  | .mul .. => some fun a b _ => a * b
  | .mulh .. => some fun a b _ => (a * b).fdiv (2 ^ w)
  | .mad .. => some fun a b c => a * b + c
  | .min .. => some fun a b _ => min a b
  | .max .. => some fun a b _ => max a b
  | .abs .. => some fun a _ _ => |a|
  | .neg .. => some fun a _ _ => -a
  | .sad .. => some fun a b c => c + |a - b|
  | _ => none

/-- The form saturates: `adds` and `subs` always, and those that accept SAT where it is set (Table 5.2, R133, R134). -/
def saturates (sat : Bool) : Instr → Bool
  | .adds .. | .subs .. => true
  | .mul .. | .mad .. | .abs .. | .neg .. | .sad .. => sat
  | _ => false

/-! ### What the other instructions write -/

/-- From `g` to `g0` only vector register `d` is written: `w l` gives each lane's new value, where there is one. -/
def WroteVector (g g0 : Group) (d : Nat) (w : Nat → Option Word) : Prop :=
  SamePlace g g0 ∧ (∀ r l, l < 32 → g0.getV r l = if r = d then (w l).getD (g.getV r l) else g.getV r l) ∧
    (∀ l, g0.getP l = g.getP l) ∧ SameScalars g g0 ∧ g0.fpflags = g.fpflags

/-- From `g` to `g0` only predicates are written: `w n l` gives the new value of predicate n of a lane, where there is one. -/
def WrotePredicates (g g0 : Group) (w : Nat → Nat → Option Bool) : Prop :=
  SamePlace g g0 ∧ (∀ r l, l < 32 → g0.getV r l = g.getV r l) ∧
    (∀ n l, n < 16 → l < 32 → g0.getPn n l = (w n l).getD (g.getPn n l)) ∧ SameScalars g g0 ∧ g0.fpflags = g.fpflags

/-- `i` completes having written vector register `d` in the lanes that `w` gives a value for, and moves past itself. -/
def GivesVector (i : Instr) (s : State) (g : Group) (e : Entry) (d : Nat) (w : Nat → Option Word) : Prop :=
  ∃ g0, Ends i s g e s g0 ∧ WroteVector g g0 d w

/-- `i` completes having written predicates as `w` gives them, and moves past itself. -/
def GivesPredicates (i : Instr) (s : State) (g : Group) (e : Entry) (w : Nat → Nat → Option Bool) : Prop :=
  ∃ g0, Ends i s g e s g0 ∧ WrotePredicates g g0 w

/-- A control transfer completes: `dest l` gives the PC, priority and control stack where a taken lane then stands; a lane without
one stands past the sequence. No register, predicate, scalar, flag, item, other group or byte changes. -/
def Moves (i : Instr) (s : State) (g : Group) (e : Entry) (dest : Nat → Option (Nat × Nat × List CRec)) : Prop :=
  ∃ t g', exec i s = .next t ∧ t.group? g.id = some g' ∧ OnlyGroup s t g.id ∧ Closed e.mask (deadOf i) g g' ∧
    ∀ l, e.mask.has l = true →
      match dest l with
      | some (pc, prio, stack) => Stands g' l pc prio stack
      | none => Stands g' l (e.advance (i.head.hints.count + 1)).pc e.prio (e.advance (i.head.hints.count + 1)).stack

/-- Executing `i` is taking a trap of this class, detail, INFO and trap mask at its entry, with no effect of its own. -/
def Traps (i : Instr) (s : State) (g : Group) (e : Entry) (cls detail info : Nat) (m : Mask) : Prop :=
  ∃ a : TrapArgs, a.cls = cls ∧ a.detail = detail ∧ a.info = info ∧ a.tmask = m ∧ exec i s = .next (s.takeTrap g e a)

/-- Of a group, the registers, predicates, scalars and floating flags are the same. -/
def SameRegisters (g g' : Group) : Prop :=
  (∀ r l, l < 32 → g'.getV r l = g.getV r l) ∧ (∀ l, g'.getP l = g.getP l) ∧ SameScalars g g' ∧ g'.fpflags = g.fpflags

/-- Executing `i` parks its entry at the sequence (R95): the state `s'` with the group `g0`, whose entry keeps its PC, priority
and control stack and waits for `p`. Beside the group, only what every sequence counts differs from `s'`. -/
def Parks (i : Instr) (s : State) (g : Group) (e : Entry) (s' : State) (g0 : Group) (p : Park) : Prop :=
  ∃ t g', exec i s = .next t ∧ t.group? g.id = some g' ∧ OnlyGroup s' t g.id ∧ SamePlace g0 g' ∧ SameRegisters g0 g' ∧
    ∃ x ∈ g'.front, x.mask = e.mask ∧ x.pc = e.pc ∧ x.prio = e.prio ∧ x.stack = e.stack ∧ x.park = some p

/-- The access of a lane as its plan gives it: operation, group, lane, kind, address, location, bytes, register and data. -/
def accessOf (g : Group) (f : AccForm) (op : Nat) (l : Nat) : Plan → Option (Nat × Nat × Nat × AccKind × Nat × Nat × Nat × Nat × Word)
  | .go ea loc _ _ => some (op, g.id, l, f.kind, ea, loc, f.size, f.d, (g.accData f l).1)
  | _ => none

/-- From `s` to `s'` one counted operation `o` is issued with the accesses its lanes' plans give, in lane order, and beside it only
tables that carry accesses differ: of a die only its clock and its cache's lines. No byte of memory and no group changes. -/
def Issued (g : Group) (f : AccForm) (s s' : State) (o : CountedOp) (plans : List (Nat × Plan)) : Prop :=
  s' = { s with accs := s'.accs, ops := s'.ops, next := s'.next, walks := s'.walks, dies := s'.dies, streams := s'.streams
                lastOp := s'.lastOp } ∧
  (∀ n, (s'.die? n).map (fun d => { d with clock := [], lines := [] }) = (s.die? n).map fun d => { d with clock := [], lines := [] }) ∧
  s'.ops = s.ops ++ [o] ∧ o.grp = g.id ∧
  ∃ as : List Access, s'.accs = s.accs ++ as ∧
    as.map (fun a => (a.op, a.grp, a.lane, a.kind, a.va, a.loc, a.size, a.d, a.data)) =
      plans.filterMap fun x => accessOf g f o.id x.1 x.2

/-- Vector registers an access form names: D, and its address where that is one. -/
def AccForm.names (f : AccForm) : List Nat := f.d :: (match f.a with | .v n => [n.toNat] | _ => [])

/-- From `s` to `s'` the next `n` repeats of a repeated access, from `j` on, are issued in order, each as one counted operation for its
lanes `m j` with form `f j`; a repeat that no lane executes issues none (R105, R228). -/
def RepeatsIssued (g : Group) (f : Nat → AccForm) (m : Nat → Mask) (plan : Nat → Nat → Plan) : Nat → Nat → State → State → Prop
  | 0, _, s, s' => s' = s
  | n + 1, j, s, s' =>
    if m j = 0 then RepeatsIssued g f m plan n (j + 1) s s'
    else ∃ t o, Issued g (f j) s t o ((m j).toList.map fun l => (l, plan j l)) ∧ o.lanes = m j ∧ o.ctr = g.ctr (f j).cc ∧
      o.poisoned = 0 ∧ RepeatsIssued g f m plan n (j + 1) t s'

/-- `a` is the one element of the list for which `p` holds. -/
def Sole {α : Type} (p : α → Bool) (l : List α) (a : α) : Prop := a ∈ l ∧ p a = true ∧ ∀ b ∈ l, p b = true → b = a

/-- An access may act at its location now: nothing it must follow has still to act; where it comes from another die, the two are joined,
no write that precedes it there in its clock is missing, and a write finds the item stream open; and it does not write a replicated
page. -/
def State.mayAct (s : State) (a : Access) : Prop :=
  s.mustFollow a = false ∧ a.repl = none ∧
    (a.die = a.home ∨ s.stalledPair a.die a.home = false ∧ s.clockHolds a = false ∧
      (a.kind.writes = true → s.itemStreamOpen a.die a.home = true))

/-- Access `a` has acted and left: it is no longer in flight, its lane has received the vector register values `vs` and predicate
value `p`, and every byte reads as `m` says. No other register or predicate of its group and no other group changes. -/
def Acted (s t : State) (a : Access) (g : Group) (vs : Nat → Option Word) (p : Nat → Option Bool) (m : Nat → Byte) : Prop :=
  (∀ b, b ∈ t.accs ↔ b ∈ s.accs ∧ b.id ≠ a.id) ∧ (∀ x, Memory.read t.mem x = m x) ∧
  (∀ k, k ≠ a.grp → t.group? k = s.group? k) ∧ t.ops = s.ops ∧
  ∃ g', t.group? a.grp = some g' ∧ (∀ r l, l < 32 → g'.getV r l = if l = a.lane then (vs r).getD (g.getV r l) else g.getV r l) ∧
    (∀ n l, n < 16 → l < 32 → g'.getPn n l = if l = a.lane then (p n).getD (g.getPn n l) else g.getPn n l) ∧ SameScalars g g' ∧
    g'.items = g.items

/-- The bytes of a state with `n` bytes at `a` replaced by those of `v`, little-endian. -/
def stored (s : State) (a n v : Nat) (x : Nat) : Byte :=
  if a ≤ x ∧ x < a + n then BitVec.ofNat 8 (v / 256 ^ (x - a)) else Memory.read s.mem x

/-- The `n` bytes of an operand block at a virtual address can be read now: they stand at location `loc`, no port on their way is held,
no error stands there, and their granules and spans have been read (R219, R254, R244, R380). -/
def BlockAt (s : State) (g : Group) (va n loc : Nat) : Prop :=
  let ea := va % 2 ^ 56 / n * n
  s.poisoned loc n = false ∧ s.linkHeld g.die loc 0 = false ∧ s.answered (.block g.id) false (spansOf (bytesFrom loc n)) = true ∧
  (winOf ea = .translated ∧ s.xlate g.die g.cluster (s.groupCtx g) ea .read = .ok loc 0 ∨
    winOf ea ≠ .translated ∧ ((s.gang? g.gang).bind fun ga => s.windowLoc ga (s.groupCtx g) ea n) = some loc)

/-- Of the dies only the lines of their caches differ. -/
def SameDies (s s' : State) : Prop := ∀ n, (s'.die? n).map (fun d => { d with lines := [] }) = (s.die? n).map fun d => { d with lines := [] }

/-- What an operand block's read may change in `s`: walks and requests that it has used, and lines of the die cache (R253, R244,
R232). -/
def BlockRead (s s' : State) : Prop :=
  s' = { s with walks := s'.walks, reqs := s'.reqs, dies := s'.dies } ∧ SameDies s s' ∧ ∀ r ∈ s'.reqs, r ∈ s.reqs

/-- Beside what an operand block's read changes, only tensor entries differ, each as `ent` gives it. -/
def EntriesAre (s s' : State) (ent : Nat → Nat → Nat) : Prop :=
  BlockRead { s with ctxs := s'.ctxs } s' ∧
  (∀ c, (s'.ctx? c).map (fun x => { x with tensors := [] }) = (s.ctx? c).map fun x => { x with tensors := [] }) ∧
  ∀ c t, s'.ent c t = ent c t

/-- The group's gang `ga` is bound to tile set `n`, whose tag it holds (R52, R202). -/
def HoldsSet (s : State) (g : Group) (ga : Gang) (n : Nat) : Prop :=
  s.gang? g.gang = some ga ∧ ga.tset = some n ∧ s.claim ga (s.groupCtx g) n = .go

/-- Only gang `ga` differs, and the counter of identifiers. -/
def GangBecomes (s s' : State) (ga : Gang) : Prop :=
  s' = { s with gangs := s'.gangs, next := s'.next } ∧ ∀ k, s'.gang? k = if k = ga.id then some ga else s.gang? k

/-- Executing `i` queues one engine command at the tail of the group's engine queue, counted on counter `cc` for the lanes of the
entry (R256, R228), and completes: no byte, register or other group changes. -/
def Queues (i : Instr) (s : State) (g : Group) (e : Entry) (cc ch scope : Nat) (kind : CmdKind) : Prop :=
  ∃ s' g0 c o, Ends i s g e s' g0 ∧
    BlockRead { s with ops := s'.ops, lastOp := s'.lastOp, next := s'.next } s' ∧ s'.ops = s.ops ++ [o] ∧
    o.grp = g.id ∧ o.ctr = cc ∧ o.lanes = e.mask ∧ o.engine = true ∧ g0 = { g with engq := g0.engq } ∧
    g0.engq.map (fun x => { x with verdict := none }) = g.engq.map (fun x => { x with verdict := none }) ++ [c] ∧
    c.op = o.id ∧ c.grp = g.id ∧ c.ctx = s.groupCtx g ∧ c.ch = ch ∧ c.kind = kind ∧ c.scope = scope ∧
    c.guard = i.head.hints.guardq.map (·.toNat)

/-- An engine command may be queued: the queue and its counter have room, and every earlier access of the lanes has been
performed (R256, R228, R263). -/
def MayQueue (i : Instr) (s : State) (g : Group) (e : Entry) (cc : Nat) : Prop :=
  g.engq.length < 4 ∧ s.counter g.id cc < 63 ∧ (Iss.mk' s g e i).accessesOpen = false

/-- Vector registers an access form's result goes to. -/
def accResults (f : AccForm) : List Nat :=
  match f.kind with
  | .load _ | .ldfe | .atom .. | .atomf .. | .cas _ => [f.d]
  | _ => []

/-! ### Values of the floating forms (spec 06) -/

/-- The value of an exact power of two times a natural number. -/
def dyadic (m : Nat) (e : Int) : ℚ := m * (2 : ℚ) ^ e

/-- The number a finite floating value is; 0 for the others. -/
def FV.rat : FV → ℚ
  | .fin n m e => if n then -dyadic m e else dyadic m e
  | _ => 0

/-- The sign of a value that is no NaN. -/
def FV.minus : FV → Bool
  | .fin n _ _ => n
  | .inf n => n
  | .nan _ => false

/-- One number is less than another, the infinities at the ends; a NaN is in no order. -/
def FV.less : FV → FV → Prop
  | .nan _, _ | _, .nan _ => False
  | .inf a, .inf b => a = true ∧ b = false
  | .inf a, .fin .. => a = true
  | .fin .., .inf b => b = false
  | x, y => x.rat < y.rat

/-- Two numbers are equal, +0 and -0 too; a NaN equals nothing. -/
def FV.same : FV → FV → Prop
  | .inf a, .inf b => a = b
  | .fin a m e, .fin b n z => FV.rat (.fin a m e) = FV.rat (.fin b n z)
  | _, _ => False

/-- One number is below another, -0 below +0 (R165). -/
def FV.under (x y : FV) : Prop := x.less y ∨ (x.same y ∧ x.minus = true ∧ y.minus = false)

/-- Pattern `r` is pattern `p` clamped to [+0, +1], a NaN to +0 (R163). -/
def Clamped (t p r : Nat) : Prop :=
  let v := (fltFmt t).unpack p
  let zero : FV := .fin false 0 0
  let one : FV := .fin false 1 0
  ((v.isNan = true ∨ v.under zero) → r = 0) ∧ (one.less v → ((fltFmt t).unpack r).same one) ∧
    (v.isNan = false → ¬v.under zero → ¬one.less v → r = p)

/-- An operation of a lane computes `f j` in its element `j`: with SAT clamped (R163), with SE in that element alone, the others being
those of D (R126); the flags are those of all computed elements (R160). -/
def ComputesFloat (o : LaneOut) (x : LaneOp) (f : Nat → FR2) : Prop :=
  o.noVal = false ∧ o.log = false ∧
    (∀ j, j < typeCount x.t →
      let r := elem o.val x.t j
      (x.se = none ∨ x.se = some j → (x.sat = false → r = (f j).bits) ∧ (x.sat = true → Clamped x.t (f j).bits r)) ∧
      (∀ k, x.se = some k → k ≠ j → r = elem x.old x.t j)) ∧
    ∀ b, o.fl.testBit b = true ↔ ∃ j ∈ x.elems, (f j).fl.testBit b = true

/-- Element `j` of a lane's sources as the floating forms read it, flushed where R157 says so. -/
def LaneOp.va (x : LaneOp) (j : Nat) : FV := readFV x.ftz x.t (elem x.a x.t j)
def LaneOp.vb (x : LaneOp) (j : Nat) : FV := readFV x.ftz x.t (elem x.b x.t j)
def LaneOp.vc (x : LaneOp) (j : Nat) : FV := readFV x.ftz x.t (elem x.c x.t j)

/-- The settings in which a lane's form rounds: its mode, but to nearest even for BF16 (R159). -/
def LaneOp.settings (x : LaneOp) : Rnd := { t := x.t, rm := if x.t = 14 then 0 else x.rm, ftz := x.ftz }

/-- Two values lie in the fix-up range of `fdivf`: both normal, and the difference of their exponents two away from the ends of the
format's (R171). -/
def FixUp (f : Fmt) : FV → FV → Prop
  | .fin _ m e, .fin _ n z =>
    let ea := e + Nat.log2 m
    let eb := z + Nat.log2 n
    0 < m ∧ 0 < n ∧ f.emin ≤ ea ∧ f.emin ≤ eb ∧ f.emin + 2 ≤ ea - eb ∧ ea - eb ≤ f.emax - 2
  | _, _ => False

/-- `q` is the magnitude `x` rounded to an integer in a mode of IEEE 754: to nearest even, toward zero, down, up, to nearest with ties
away (R159). -/
def RoundsToInt (rm : Nat) (neg : Bool) (x : ℚ) (q : Nat) : Prop :=
  (rm = 0 → 2 * |(q : ℚ) - x| ≤ 1 ∧ (2 * |(q : ℚ) - x| = 1 → q % 2 = 0)) ∧
  ((rm = 1 ∨ (rm = 2 ∧ neg = false) ∨ (rm = 3 ∧ neg = true)) → (q : ℚ) ≤ x ∧ x < q + 1) ∧
  (((rm = 2 ∧ neg = true) ∨ (rm = 3 ∧ neg = false)) → x ≤ q ∧ (q : ℚ) < x + 1) ∧
  (rm = 4 → 2 * |(q : ℚ) - x| ≤ 1 ∧ (2 * |(q : ℚ) - x| = 1 → x < q))

/-- The smallest and the largest number of an integer type. -/
def typeLo (t : Nat) : Int := if typeSigned t then -(2 ^ (typeWidth t - 1)) else 0
def typeHi (t : Nat) : Int := if typeSigned t then 2 ^ (typeWidth t - 1) - 1 else 2 ^ typeWidth t - 1

end Sys2Proof.Machine
end

