-- ==== Sys2Proof/Certificates/Slice0/Obligations.lean ====
section
/-! DEFINITION. Obligations: the statements for the provers, from the numbered rules of the spec. -/

open Sys2Proof Sys2Proof.Machine

/-! ### Encoding and decoding (spec 03) -/

/-- For every instruction word of the opcode table, with every operand, hint and guard at every value its fields hold,
the words the encoder gives decode to exactly that instruction. (03_instruction_words.md) -/
def Obligations.DecodeOfEncode : Prop :=
  ∀ i : Instr, i.isWord = true → decode (encode i) = some i

/-- Where one word alone decodes to an instruction, encoding that instruction gives that word back: no bit of the word
is dropped or read twice. (03_instruction_words.md) -/
def Obligations.EncodeOfDecode : Prop :=
  ∀ (w : BitVec 32) (i : Instr), decode [w] = some i → encode i = [w]

/-- The word of an instruction without hints is its opcode times 0x0004_0000 with its format bits added, and a guard
adds 0x8000_0000, PG shifted left by 27 and PS shifted left by 26. Words formed from the spec's encodings decode to the
instructions they stand for: 0x0004_3072 is add v3, v1, s2; 0x0078_1042 is rot v1, v1, v2; the three words 0x0400_00F8,
0x0DA0_0000, 0x00C4_2000 are movi.f16x4 v2, 1.5. (R126, R61, 03_instruction_words.md, 05_integer_and_address.md) -/
def Obligations.SpecWordsDecode : Prop :=
  (∀ (i : Instr) (op : BitVec 8) (x : BitVec 18), i.opBits = some (op, x) → i.head.hints = {} →
    ∃ w : BitVec 32, encode i = [w] ∧
      w.toNat = op.toNat * 0x40000 + x.toNat +
        (match i.head.guard with | none => 0 | some q => 0x80000000 + q.p.toNat * 2 ^ 27 + (if q.ps then 2 ^ 26 else 0))) ∧
  decode [0x00043072#32] = some (.add {} { nw := false, d := 3, a := .v 1, b := .s 2 }) ∧
  decode [0x00781042#32] = some (.rot {} { nw := false, d := 1, a := .v 1, b := .v 2 }) ∧
  decode [0x040000F8#32, 0x0DA00000#32, 0x00C42000#32] =
    some (.movi { hints := { imm := some 0xF8, type := some { ty := 0x0D, se := false, sub := 0 } } } { nw := false, d := 2, imm6 := 0 })

/-! ### Reset, steps and traps (spec 03, 04, 13, 15) -/

/-- After reset BOOTST reads 0 and nothing has booted: no die, context, launch, gang or group exists, no access or
command is under way, no window or peer port is enabled, the event ring is off, and no byte is listed. What an unlisted
device or host byte reads as is the model's own choice (log 2). (R384, R381, R399, R31) -/
def Obligations.ResetState : Prop :=
  let s := State.reset
  s.pkg.boot = 0 ∧ s.dies = [] ∧ s.ctxs = [] ∧ s.launches = [] ∧ s.gangs = [] ∧ s.groups = [] ∧ s.accs = [] ∧ s.ops = [] ∧
    s.active = [] ∧ s.colls = [] ∧ s.streams = [] ∧ s.walks = [] ∧ s.reqs = [] ∧ s.conts = [] ∧ s.pkg.windows = [] ∧ s.pkg.peers = [] ∧
    s.pkg.evEn = false ∧ s.mem = [] ∧ s.full = [] ∧ s.poison = []

/-- In a powered package with an empty agenda and an idle management controller, where the group whose turn it is may
issue, the words at its selected entry decode to an instruction and raise no code, the step is exec of that
instruction at that state, after which time passes and the other agents have the next turn. Who acts next is the
model's choice (log 1). (04_issue_and_control.md, R61) -/
def Obligations.StepRunsDecoded : Prop :=
  ∀ (s : State) (g : Group) (e : Entry) (ws : List (BitVec 32)) (d : Decoded) (i : Instr),
    s.pkg.powered = true → s.agenda = [] → s.controllerBusy = false → s.turn = some (g, e) → s.fetchSeq g e.pc = .ok ws →
    decodeWords ws = some d → d.codes = [] → d.instr = some i → step s = onNext State.handOver (exec i s)

/-- In a powered package whose agenda begins with a step of another agent, the step is exec of that event at the state
without it, after which time passes. Where the agenda is empty and the group whose turn it is has its next sequence
outside its code, the step takes trap class 4 with the address in INFO and no lane moves; where the instruction fetch
faults in translation it takes class 8 with the fault's cause and address; where it meets an uncorrectable error, class
10 with the address, whose page is recorded. Where the fetch needs a page walk it is requested, and where the line has
to come from device memory it is asked for, and no lane moves. Who acts next (log 1), the packets of a fetch (log 85)
and that the length of an unread sequence is unknown to a later rtt.skip (log 94) are the model's choice. (R113, R254,
R351, 95_what_each_step_holds.md) -/
def Obligations.OtherSteps : Prop :=
  (∀ (s : State) (i : Instr) (t : List Instr), s.pkg.powered = true → s.agenda = i :: t → i.isWord = false →
    step s = onNext State.pass (exec i { s with agenda := t })) ∧
  (∀ (s : State) (g : Group) (e : Entry), s.pkg.powered = true → s.agenda = [] → s.controllerBusy = false → s.turn = some (g, e) →
    let m := e.restart.getD e.mask
    let h := Hints.ofWords (s.hintsFrom g ((s.codeSpan g).2 / 4) e.pc)
    let unread (a : TrapArgs) : TrapArgs := { a with isRep := h.rep.isSome, isChain := h.chain.isSome, words := 0 }
    (∀ a, s.fetchSeq g e.pc = .outside a →
      step s = .next (s.takeTrap g e (unread { cls := 4, info := a % 2 ^ 32, tmask := m })).handOver) ∧
    (∀ a c, s.fetchSeq g e.pc = .fault a c →
      step s = .next ((s.consumeWalks g.die g.cluster (s.groupCtx g)).takeTrap g e
        (unread { cls := 8, detail := c, addr := a, tmask := m })).handOver) ∧
    (∀ a, s.fetchSeq g e.pc = .poison a →
      step s = .next ((s.noteErrorVa g.die (s.groupCtx g) a).takeTrap g e
        (unread { cls := 10, addr := a, tmask := m, fetchError := true })).handOver) ∧
    (∀ a, s.fetchSeq g e.pc = .wait a →
      step s = .next (s.requestWalk g.die g.cluster (s.groupCtx g) a (s.groupPart g)).handOver) ∧
    (∀ pa, s.fetchSeq g e.pc = .packet pa → step s = .next (s.askFetch g e.pc pa).handOver))

/-- Outside a chain, for every instruction word: one for which a condition of Table 3.10 holds takes trap class 1 with
the lowest code that holds as its detail and has no other effect; in handler mode one that R350 bars, or that names a
register above v15, ends handler mode with a class 14 record for the supervisor; a barrier or fence with a floating
exception pending takes class 7 with the pending set in INFO and clears PND; one that names a pending register or
predicate leaves the state as it is. (R77, R350, R101, R161) -/
def Obligations.IssueChecks : Prop :=
  (∀ (i : Instr) (s : State) (g : Group) (e : Entry) (c : Nat), i.isWord = true → i.head.hints.chain = none →
    s.group? s.cur = some g → Entry.select g.front = some e → lowestCode (i.codesAt none) = some c →
    ∃ a : TrapArgs, a.cls = 1 ∧ a.detail = c ∧ a.info = 0 ∧ a.addr = 0 ∧ a.tmask = e.restart.getD e.mask ∧
      exec i s = .next (s.takeTrap g e a)) ∧
  (∀ (i : Instr) (s : State) (g : Group) (e : Entry), i.isWord = true → i.head.hints.chain = none →
    s.group? s.cur = some g → Entry.select g.front = some e → i.codesAt none = [] → g.inHandler = true →
    (handlerBanned i = true ∨ i.namesHigh = true) →
    ∃ t g', exec i s = .next t ∧ t.group? g.id = some g' ∧ g'.frame = none ∧
      (∃ r, g'.trap = some r ∧ r.cls = 14 ∧ r.pc = e.pc ∧ r.emask = e.mask) ∧
      (g'.stop = .waitSupervisor false ∨ g'.stop = .waitSupervisor true)) ∧
  (∀ (i : Instr) (s : State) (g : Group) (e : Entry), i.isWord = true → i.head.hints.chain = none →
    s.group? s.cur = some g → Entry.select g.front = some e → i.codesAt none = [] → g.inHandler = false →
    fpBarrier i = true → (Iss.mk' s g e i).allWritten = true → g.pnd ≠ 0 →
    ∃ t g', exec i s = .next t ∧ t.group? g.id = some g' ∧ g'.fpflags = g.fpflags &&& 0x1F ∧
      ∃ r, g'.trap = some r ∧ r.cls = 7 ∧ r.info = BitVec.ofNat 32 g.pnd) ∧
  (∀ (i : Instr) (s : State) (g : Group) (e : Entry), i.isWord = true → i.head.hints.chain = none →
    s.group? s.cur = some g → Entry.select g.front = some e → i.codesAt none = [] → g.inHandler = false →
    fpBarrier i = false → (Iss.mk' s g e i).pending = true → exec i s = .next s)

/-- A trap of a class that goes to the handler, taken outside handler mode in a context with a handler, stops the group
until the handler frame is free: its entry keeps its PC and holds the restart mask, its trap record holds the class,
detail, INFO, address, entry mask, trap mask, PC, priority, stack depth and repeat count, and no register, predicate,
item, flag, counter, other group or byte of memory changes; a debugger's step of the group is spent. (R342, R344, R345,
R366) -/
def Obligations.TrapTaken : Prop :=
  ∀ (s : State) (g : Group) (e : Entry) (a : TrapArgs) (c : Context), s.group? g.id = some g → g.frame = none → e ∈ g.entries →
    Only g e → s.groupContext? g = some c → c.hobj ≠ 0 → a.cls ≠ 8 → a.cls ≠ 13 → a.cls ≠ 14 → a.noRestart = false →
    ∃ g' r, (s.takeTrap g e a).group? g.id = some g' ∧ g'.trap = some r ∧
      g' = { g with entries := g'.entries, trap := some r, stop := .waitFrame, waited := 0, waits := false
                    haltReq := g.haltReq || g.stepping, stepping := false } ∧
      r.cls = a.cls ∧ r.detail = a.detail ∧ r.info = BitVec.ofNat 32 a.info ∧ r.addr = a.addr ∧ r.emask = e.mask ∧
      r.tmask = a.tmask ∧ r.lmask = a.tmask ∧ r.pc = e.pc ∧ r.prio = e.prio ∧ r.depth = e.stack.length ∧ r.repi = e.repi ∧
      g'.entries = g.entries.map (fun x => if x = e then { e with restart := some a.tmask, mid := false } else x) ∧
      (∀ k, k ≠ g.id → (s.takeTrap g e a).group? k = s.group? k) ∧
      s.takeTrap g e a = { s with groups := (s.takeTrap g e a).groups, next := s.next + 1 }

/-- A trap of class 8, 13 or 14, or of any class in a context without a handler, taken outside handler mode where the
supervisor ring has room, appends the 64-byte record of Table 13.4 at the ring's head, moves the head on by one, and
leaves the group waiting for the supervisor with its record stored; bytes of memory outside that record and the event
ring's next record read as before. (R352, R344) -/
def Obligations.SupervisorTrapTaken : Prop :=
  ∀ (s : State) (g : Group) (e : Entry) (a : TrapArgs) (c : Context), s.group? g.id = some g → g.frame = none →
    s.groupContext? g = some c → (supervisorClass a.cls = true ∨ c.hobj = 0) → (c.shead - c.stail).toNat ≠ 2 ^ c.supn →
    s.memOk = true → s.pkg.evEn = false →
    let t := s.takeTrap g e a
    ∃ g' r c', t.group? g.id = some g' ∧ g'.trap = some r ∧ r.cls = a.cls ∧ r.pc = e.pc ∧ g'.stop = .waitSupervisor true ∧
      t.ctx? (s.groupCtx g) = some c' ∧ c' = { c with shead := c.shead + 1 } ∧
      (∀ k, k < 64 → (Memory.read t.mem (c.supp + 64 * (c.shead.toNat % 2 ^ c.supn) + k)).toNat =
        joinWords (s.trapWords g r) / 256 ^ k % 256) ∧
      (∀ b, (b < c.supp + 64 * (c.shead.toNat % 2 ^ c.supn) ∨ c.supp + 64 * (c.shead.toNat % 2 ^ c.supn) + 64 ≤ b) →
        Memory.read t.mem b = Memory.read s.mem b)

/-- After reset the memory is in its canonical form (addresses strictly rising, no listed byte equal to what an
unlisted one reads as): the model's own form of memory. (08_cluster_store_and_local_access.md,
09_memory_engines_and_translation.md) -/
def Obligations.MemOkReset : Prop :=
  State.reset.memOk = true

/-- From every state whose memory is in canonical form, whichever agent takes the step, the next state's memory is in
canonical form, so that equal memories are equal data. (08_cluster_store_and_local_access.md,
09_memory_engines_and_translation.md) -/
def Obligations.MemOkStep : Prop :=
  ∀ s t : State, s.memOk = true → step s = .next t → t.memOk = true

/-! ### Register forms (spec 05, 06) -/

/-- Every form of opcodes 0x00-0x3F and 0x40-0x7F with the operands of formats R, Ru, Rt, I, Iu, P or Pi, and nop and
cvt, at issue outside a chain and without repeats, with its register mapped: exec answers a next state in which each
lane of exec(entry) holds the lane's result in D (or the destination predicate), the lanes that fail the guard keep
all their state, flags are raised in lane order, the entry stands past the sequence, and no other register, predicate,
scalar, group or byte changes but one error log record where a checked shift count was out of range, whose PC, that of
the sequence's first word, is the model's reading (log 10). The constructors with such an operation (i.alu) are nop,
cvt, add, addI, sub, mul, mulh, mad, min, max, abs, neg, adds, subs, sad, and_, andI, or_, orI, xor_, xorI, andn,
not_, shl, shlI, shr, shrI, sar, sarI, rot, rotI, clz, popc, brev, bfe, bfi, prmt, ext, sel, cmp, cmpI, mov, movi,
lea, leaI, fadd, fsub, fmul, ffma, fmin, fmax, fminm, fmaxm, fcmp, fclass, frnd, fscale, frcp, frsq, fsqrt, fdivf,
fexp2, flog2, fsin, fcos, ftanh, cvtsr, pack, unpack, dot2, dot4, dot8, dots. (R126, R60, R99, R160,
05_integer_and_address.md, 06_floating_point.md) -/
def Obligations.RegisterFormCompletes : Prop :=
  ∀ (i : Instr) (o : Alu) (s : State) (g : Group) (e : Entry), RegisterForm i o s g e → WritesLanes i o s g e (laneResult i o g)

/-- A register form with a rep hint whose registers are all mapped issues repeats 0 to CNT in order, each with D, S1
and S2 stepped where their step flags are set and each seeing the writes of the earlier ones; then sr.repi is 0 unless
another entry has a sequence pending, the dead registers read zero, and the entry stands past the sequence. The PC of
the record that a checked shift count leaves is the model's reading (log 10). (R105, R106, R136) -/
def Obligations.RepeatedFormCompletes : Prop :=
  ∀ (i : Instr) (o : Alu) (s : State) (g : Group) (e : Entry), i.alu = some o → AtIssue i s g e → Only g e → e.repi = 0 →
    (g.inHandler = true ∨ ∀ r ∈ i.vwrites, r ∈ s.mappedRegs g) →
    let u := Iss.mk' s g e i
    ∃ t0 t g', exec i s = .next t ∧ (t = t0 ∨ t = t0.logGroup g 1 0 0 0 e.pc) ∧ t0.group? g.id = some g' ∧ OnlyGroup s t0 g.id ∧
      Closed e.mask (deadOf i) (repeated i o u g) g' ∧ ((∀ x ∈ g.entries, x ≠ e → x.repi = 0) → g'.repi = 0) ∧
      Past g' e (i.head.hints.count + 1)

/-- A chain whose members are fetched, legal as one unit, runnable in the group's mode, free of pending registers and
able to map their registers runs every member in each lane of the entry in ascending lane order before the next lane,
the registers a member's dead hint names reading zero in the lane once it has run there; then the entry stands past
all its words, and each member that met a checked shift count out of range is logged once. A chain that ends in a
store then issues it as one counted operation for the lanes that pass its guard, with the address and data of the
registers and latches as the members left them. The record's PC, that of the member (log 10), and that a dead register
is freed lane by lane (log 24) are the model's reading. (R102, R103, R104, R73, R136) -/
def Obligations.ChainCompletes : Prop :=
  ∀ (i : Instr) (o : Alu) (s : State) (g g1 : Group) (e : Entry) (ds : List Decoded), i.alu = some o → ChainAtIssue i s g e ds →
    let act := e.restart.getD e.mask
    let run (ms : List (Instr × Nat)) := ChainRun.lanes ms s.draw act.toList { g := g }
    let after (g : Group) : Group := { g with surge := g1.surge, surgeWait := g1.surgeWait }
    let s0 : State := { s with draw := s.draw + 512 }
    ((∀ x, (chainMembers i e ds).getLast? = some x → x.1.isStore = false) →
      let r := run (chainMembers i e ds)
      s.regGate g r.written = .ok g1 → ChainEnds i s g e ds r.logs s0 (after r.g)) ∧
    (∀ (ms : List (Instr × Nat)) (st : Instr) (pc : Nat) (f : AccForm), chainMembers i e ds = ms ++ [(st, pc)] → st.isStore = true →
      st.accForm = some f →
      let r := run ms
      let m := Mask.ofPred fun l => act.has l && r.g.passes st.head.guard l
      let plan (l : Nat) := s.planAddr g f (f.needsWindow st.head.hints) (r.g.effAddr f l (AMap.getD r.lats l []))
      s.regGate g r.written = .ok g1 → (m = 0 ∨ s.counter g.id (g.ctr f.cc) < 63) → s.orderHolds g m st.head.hints.rel = false →
      (∀ l, m.has l = true → ∃ ea loc tgt p, plan l = .go ea loc tgt p) →
      ∃ s', ChainEnds i s g e ds r.logs s' (after (r.g.applyDead act st.head.hints.deadRegs)) ∧
        (m = 0 → s' = { s0 with walks := s'.walks }) ∧
        (m ≠ 0 → ∃ o, Issued r.g f s0 s' o (m.toList.map fun l => (l, plan l)) ∧ o.lanes = m ∧
          o.ctr = g.ctr f.cc))

/-- A register of a group is mapped where some lane of it is live or a value that no dead hint discards is on its way to
it. For a register form without repeats whose D is not mapped, let n be the count of mapped registers with D: n above
the peak takes trap class 5 and writes no lane; n within the steady reservation, or a group that holds the surge pool,
completes; otherwise, where no other group of the core holds the pool or has asked for it earlier (or at the same time
with a lower group number), the pool is granted and the form completes, the pool staying with the group where no dead
hint frees a register; and where one has, the group waits from its first request on and nothing else changes. (R54,
R49, R99) -/
def Obligations.SurgePool : Prop :=
  (∀ (s : State) (g : Group) (r : Nat), r ∈ s.mappedRegs g ↔
    (r < 32 ∧ ∃ c ∈ g.v, c.1 / 32 = r) ∨ ∃ a ∈ s.accs, a.grp = g.id ∧ a.dst = .lane ∧ r ∈ a.dregs ∧ r ∉ a.discard) ∧
  (∀ (s : State) (g : Group), (s.mappedRegs g).Nodup) ∧
  (∀ (i : Instr) (o : Alu) (s : State) (g : Group) (e : Entry) (st : Stage), i.alu = some o → AtIssue i s g e → Only g e →
    OrderedIfDead i g → i.head.hints.rep = none → e.repi = 0 → o.pd = none → o.nw = false → (Iss.mk' s g e i).ex ≠ 0 →
    g.inHandler = false → s.groupStage? g = some st → o.d < 32 → o.d ∉ s.mappedRegs g →
    let n := (s.mappedRegs g).length + 1
    let steady := 8 * ceilDiv st.steady 8
    let t := g.surgeWait.getD s.next
    let rival (h : Group) : Prop := h ∈ s.groups ∧ h.id ≠ g.id ∧ h.die = g.die ∧ h.cluster = g.cluster ∧ h.core = g.core
    let busy : Prop := ∃ h, rival h ∧
      (h.surge = true ∨ ∃ x, h.surgeWait = some x ∧ (x < t ∨ x = t ∧ s.srGroup h < s.srGroup g))
    (st.peak < n → ∃ t g', exec i s = .next t ∧ t.group? g.id = some g' ∧
      (∃ r, g'.trap = some r ∧ r.cls = 5 ∧ r.pc = e.pc ∧ r.tmask = (Iss.mk' s g e i).ex) ∧
      (∀ r l, g'.getV r l = g.getV r l) ∧ (∀ n l, g'.getPn n l = g.getPn n l)) ∧
    (n ≤ st.peak → (n ≤ steady ∨ g.surge = true) → WritesLanes i o s g e (laneResult i o g)) ∧
    (n ≤ st.peak → steady < n → g.surge = false → ¬busy → WritesLanes i o s g e (laneResult i o g) ∧
      (i.head.hints.dead = none → ∀ t g', exec i s = .next t → t.group? g.id = some g' → g'.surge = true ∧ g'.surgeWait = none)) ∧
    (n ≤ st.peak → steady < n → g.surge = false → busy →
      exec i s = .next (s.updGroup g.id fun _ => { g with surgeWait := some t })))

/-- In each lane a register form's first source is v n of the lane, s n of the group, a latch of its chain or the
replicated inline constant in the type it is read in, and so its second and, where src3 names one, its third (0 where it
names none); an immediate is the X of R68 placed in the type; a source flagged A then N has, element by element, its
absolute value then its negation in wrap arithmetic for an integer type and its sign bit cleared then inverted for a
floating type, and one not flagged is as read; D before is the lane's. Inline constants 0x24-0x27 read as 0, 1, 2 and -1
in every element of an integer or b64 type, and all eight as 0.0, 1.0, 2.0, -1.0, 0.5, 1.0, 2.0, -1.0 in a floating one.
(R126, R129, R68, R72, R156) -/
def Obligations.OperandsSeen : Prop :=
  (∀ (g : Group) (i : Instr) (o : Alu) (l : Nat) (lat : List Word),
    let p := g.laneOp i o l lat
    let x3 := i.head.hints.src3
    let flag (f : Src3 → Bool) : Bool := (x3.map f).getD false
    let read (k : Nat) (x : Src) : Word := match x with
      | .v n => g.getV n.toNat l
      | .s n => g.getS n.toNat
      | .latch k => lat.getD k.toNat 0
      | .const c => constWord c.toNat (i.srcs.getD k (.const 0, i.ty)).2
      | .resv _ => 0
    (∀ x, o.a = some x → p.a = modWord i.ty (flag (·.n1)) (flag (·.a1)) (read 0 x)) ∧
    (∀ x, o.imm = none → o.b = some x → p.b = modWord i.ty (flag (·.n2)) (flag (·.a2)) (read 1 x)) ∧
    (∀ x, x3 = some x → x.v3 = true → p.c = modWord i.ty x.n3 x.a3 (read 2 x.s3)) ∧
    ((∀ x, x3 = some x → x.v3 = false) → flag (·.n3) = false → flag (·.a3) = false → p.c = 0) ∧
    (∀ m, o.imm = some m → p.b = immWord (immX i.head.hints.imm m) i.ty) ∧
    (i.head.hints.imm = none → ∀ m, o.imm = some m → p.x = m.signExtend 32) ∧
    (∀ h m, i.head.hints.imm = some h → o.imm = some m → p.x = h ++ m) ∧
    p.old = g.getV o.d l ∧ p.t = i.ty ∧
    (∀ t x, modWord t false false x = x) ∧
    (∀ t n a x j, t ≤ 10 → j < typeCount t →
      let v := toSigned (typeWidth t) (elem x t j)
      elem (modWord t n a x) t j = wrapTo (typeWidth t) ((if n then -1 else 1) * (if a then |v| else v))) ∧
    (∀ t n a x j, 11 ≤ t → t ≤ 14 → j < typeCount t →
      elem (modWord t n a x) t j % 2 ^ (typeWidth t - 1) = elem x t j % 2 ^ (typeWidth t - 1) ∧
      (elem (modWord t n a x) t j).testBit (typeWidth t - 1) = ((!a && (elem x t j).testBit (typeWidth t - 1)) != n))) ∧
  (∀ t, t < 11 → ∀ j, j < typeCount t →
    elem (constWord 0 t) t j = 0 ∧ elem (constWord 1 t) t j = 1 ∧ elem (constWord 2 t) t j = 2 % 2 ^ typeWidth t ∧
      elem (constWord 3 t) t j = 2 ^ typeWidth t - 1) ∧
  (∀ t, 11 ≤ t → t ≤ 19 → ∀ j, j < typeCount t →
    let v (c : Nat) := (fltFmt t).unpack (elem (constWord c t) t j)
    (v 0).isZero = true ∧ (v 1).eqNum (.fin false 1 0) = true ∧ (v 2).eqNum (.fin false 1 1) = true ∧
      (v 3).eqNum (.fin true 1 0) = true ∧ (v 4).eqNum (.fin false 1 (-1)) = true ∧ (v 5).eqNum (.fin false 1 0) = true ∧
      (v 6).eqNum (.fin false 1 1) = true ∧ (v 7).eqNum (.fin true 1 0) = true)

/-- add, sub, mul, mulh, mad, min, max, abs, neg, adds, subs and sad compute, in each computed element of each lane,
the exact value of Table 5.2 and R132-R134 in the type's reading, narrowed by wrap, or clamped to the type's range
where the form saturates; with SE the other elements keep D's. (R127, R131, R132, R133, R134) -/
def Obligations.IntegerLanes : Prop :=
  ∀ (i : Instr) (x : LaneOp) (j : Nat) (F : Int → Int → Int → Int), exactForm (typeWidth x.t) i = some F → x.t ≤ 10 → j < typeCount x.t →
    let w := typeWidth x.t
    let v := F (readElem x.t (elem x.a x.t j)) (readElem x.t (elem x.b x.t j)) (readElem x.t (elem x.c x.t j))
    let r := elem (i.lane x).val x.t j
    (∀ k, x.se = some k → k ≠ j → r = elem x.old x.t j) ∧
    ((x.se = none ∨ x.se = some j) → r < 2 ^ w ∧
      (saturates x.sat i = false → ((r : Int) - v) % 2 ^ w = 0) ∧
      (saturates x.sat i = true → typeSigned x.t = true → readElem x.t r = max (-2 ^ (w - 1)) (min (2 ^ (w - 1) - 1) v)) ∧
      (saturates x.sat i = true → typeSigned x.t = false → readElem x.t r = max 0 (min (2 ^ w - 1) v)))

/-- For the count c of an element (b's element unsigned, or X whole as an unsigned 32-bit number): shl gives a times
2^c mod 2^w, shr gives a over 2^c, sar gives the floor of signed a over 2^c, each also for c at or above w, and rot
moves bit k to bit (k + c) mod w. The eight forms have the opcodes, base words and types of Table 5.4, and the I forms
alone take X. (R136) -/
def Obligations.ShiftLanes : Prop :=
  ∀ (h : Head) (f : FR) (x : LaneOp) (j : Nat), x.t ≤ 10 → j < typeCount x.t → (x.se = none ∨ x.se = some j) →
    let w := typeWidth x.t
    let c := if x.isImm then x.x.toNat else elem x.b x.t j
    let a := elem x.a x.t j
    elem ((Instr.shl h f).lane x).val x.t j = a * 2 ^ c % 2 ^ w ∧
    elem ((Instr.shr h f).lane x).val x.t j = a / 2 ^ c ∧
    elem ((Instr.sar h f).lane x).val x.t j = wrapTo w (toSigned w a / 2 ^ c) ∧
    (∀ k, k < w → (elem ((Instr.rot h f).lane x).val x.t j).testBit ((k + c) % w) = a.testBit k) ∧
    (∀ fi, (Instr.shlI h fi).lane = (Instr.shl h f).lane ∧ (Instr.shrI h fi).lane = (Instr.shr h f).lane ∧
      (Instr.sarI h fi).lane = (Instr.sar h f).lane ∧ (Instr.rotI h fi).lane = (Instr.rot h f).lane) ∧
    ∀ fi, ∀ r ∈ [(Instr.shl h f, Instr.shlI h fi, 0x18#8, 0x00600000#32, [2, 4, 6, 8]),
        (Instr.shr h f, Instr.shrI h fi, 0x1a#8, 0x00680000#32, [2, 4, 6, 8]),
        (Instr.sar h f, Instr.sarI h fi, 0x1c#8, 0x00700000#32, [1, 3, 5, 7]),
        (Instr.rot h f, Instr.rotI h fi, 0x1e#8, 0x00780000#32, [2, 4, 6, 8])],
      r.1.opBits = some (r.2.2.1, f.bits) ∧ r.2.1.opBits = some (r.2.2.1 + 1, fi.bits) ∧
      wordOf none r.2.2.1 0 = r.2.2.2.1 ∧ wordOf none (r.2.2.1 + 1) 0 = r.2.2.2.1 + 0x00040000 ∧
      r.1.info.types = r.2.2.2.2 ∧ r.2.1.info.types = r.2.2.2.2 ∧ r.1.info.imm = false ∧ r.2.1.info.imm = true

/-- A checked shift stores what the unchecked one stores and reports exactly when the count of some computed element is
at least w. clz gives w for 0 and else the place of the highest one bit from the top; popc counts one bits; brev moves
bit i to bit w-1-i; bfe gives the k bits from pos, zero- or sign-extended; bfi replaces k bits of b at pos by the low
bits of a; prmt builds each byte from the selected byte of a or b, or its sign; ext widens the low half of the source.
(R136, R137, R138, R139, R140, R141) -/
def Obligations.BitLanes : Prop :=
  ∀ (h : Head) (fu : FRu) (f : FR) (x : LaneOp) (j : Nat), x.t ≤ 10 → j < typeCount x.t → (x.se = none ∨ x.se = some j) →
    let w := typeWidth x.t
    let a := elem x.a x.t j
    let r (i : Instr) := elem (i.lane x).val x.t j
    (∀ i ∈ [Instr.shl h f, Instr.shr h f, Instr.sar h f],
      (i.lane x).val = (i.lane { x with sat := false }).val ∧
      ((i.lane x).log = true ↔ x.sat = true ∧ ∃ k ∈ x.elems, w ≤ (if x.isImm then x.x.toNat else elem x.b x.t k))) ∧
    (a = 0 → r (.clz h fu) = w) ∧ (a ≠ 0 → 2 ^ (w - 1 - r (.clz h fu)) ≤ a ∧ a < 2 ^ (w - r (.clz h fu))) ∧
    r (.popc h fu) = (List.range w).countP a.testBit ∧
    (∀ k, k < w → (r (.brev h fu)).testBit k = a.testBit (w - 1 - k)) ∧
    (let pos := elem x.b x.t j % 256
     let k := if pos < w then min (elem x.b x.t j / 256 % 256) (w - pos) else 0
     ∀ n, n < w → (r (.bfe h f)).testBit n =
       (if n < k then a.testBit (pos + n) else typeSigned x.t && decide (0 < k) && a.testBit (pos + k - 1))) ∧
    (let pos := elem x.c x.t j % 256
     let k := if pos < w then min (elem x.c x.t j / 256 % 256) (w - pos) else 0
     ∀ n, n < w → (r (.bfi h f)).testBit n = (if pos ≤ n ∧ n < pos + k then a.testBit (n - pos) else (elem x.b x.t j).testBit n)) ∧
    (∀ n, n < 8 → ∀ m, m < 8 → ((Instr.prmt h f).lane x).val.getLsbD (8 * n + m) =
      (let sel := x.c.toNat / 2 ^ (4 * n) % 16
       let y (k : Nat) := if sel < 8 then x.a.getLsbD (8 * sel + k) else x.b.getLsbD (8 * (sel - 8) + k)
       if x.c.getLsbD (32 + n) then y 7 else y m)) ∧
    (x.se = none → ∀ n, n < w → (r (.ext h fu)).testBit n =
      (if n < w / 2 then x.a.getLsbD (w / 2 * j + n) else typeSigned x.t && x.a.getLsbD (w / 2 * j + w / 2 - 1)))

/-- and, or, xor, andn and not act on all 64 bits; sel gives a where the guard predicate xor PS is 1 and b elsewhere;
mov gives a; lea gives (a + b) mod 2^56, with X sign-extended in the I form. cmp writes 1 for eq where every element of
a equals that of b, for ne where some element differs, for lt where every element of a is less, for ge where every
element is greater or equal, in the type's reading; with SE it is the relation on element SUB alone. (R135, R142, R143,
R146, R148) -/
def Obligations.WholeWordLanes : Prop :=
  (∀ (h : Head) (f : FR) (fi : FI) (fu : FRu) (x : LaneOp),
    ((Instr.and_ h f).lane x).val = x.a &&& x.b ∧ ((Instr.andI h fi).lane x).val = x.a &&& x.b ∧
    ((Instr.or_ h f).lane x).val = x.a ||| x.b ∧ ((Instr.orI h fi).lane x).val = x.a ||| x.b ∧
    ((Instr.xor_ h f).lane x).val = x.a ^^^ x.b ∧ ((Instr.xorI h fi).lane x).val = x.a ^^^ x.b ∧
    ((Instr.andn h f).lane x).val = x.a &&& ~~~x.b ∧ ((Instr.not_ h fu).lane x).val = ~~~x.a ∧
    ((Instr.sel h f).lane x).val = (if x.q then x.a else x.b) ∧ ((Instr.mov h fu).lane x).val = x.a ∧
    (x.isImm = false → ((Instr.lea h f).lane x).val.toNat = (x.a.toNat + x.b.toNat) % 2 ^ 56) ∧
    (x.isImm = true → (((Instr.leaI h fi).lane x).val.toNat : Int) = ((x.a.toNat : Int) + x.x.toInt) % 2 ^ 56)) ∧
  (∀ (h : Head) (f : FP) (fi : FPi) (x : LaneOp),
    let a (j : Nat) := readElem x.t (elem x.a x.t j)
    let b (j : Nat) := readElem x.t (elem x.b x.t j)
    let js := match x.se with | some k => [k] | none => List.range (typeCount x.t)
    let r := (Instr.cmp h f).lane x
    (Instr.cmpI h fi).lane x = r ∧ r.noVal = true ∧ r.fl = 0 ∧ r.log = false ∧
    (x.cond = 0 → (r.pred = true ↔ ∀ j ∈ js, a j = b j)) ∧ (x.cond = 1 → (r.pred = true ↔ ∃ j ∈ js, a j ≠ b j)) ∧
    (x.cond = 2 → (r.pred = true ↔ ∀ j ∈ js, a j < b j)) ∧ (x.cond = 3 → (r.pred = true ↔ ∀ j ∈ js, b j ≤ a j)))

/-! ### Floating point (spec 06) -/

/-- Rounding a non-zero exact value to any format gives, unless OF is raised, a finite value of the format with the
value's sign that lies within one unit in the last place of it, on the side each mode asks for: not above it in
magnitude toward zero, at most half a unit away to nearest, with a tie going to the even significand, or away from zero
in rna; NX is raised exactly when the delivered value differs, and UF only with NX. OF is raised, with NX, only above
the largest finite value, and from one unit above it on, and delivers what the conversion's row asks for; a flushed
subnormal result is the zero of its sign with UF and NX. cvt, pack and unpack convert each element by Table 6.6: equal
types copy, elements beyond the source's are 0, a floating result is that rounding, in nearest even but for the IEEE
formats, an integer result is the source rounded in the mode, with the nearest limit and NV beyond the type's range, an
E8M0 result is the power of two at or below the magnitude; cvtsr adds the lane's random word below the last place and
truncates. (R159, R160, R157, R173, R174, R175, R176, R177) -/
def Obligations.RoundedOnce : Prop :=
  (∀ (f : Fmt) (rm : Nat) (ov : OvKind) (neg : Bool) (m : Nat) (e : Int),
    f ∈ [fp64, fp32, fp16, bf16, e4m3, e5m2, e3m2, e2m3, e2m1] → rm ≤ 4 → 0 < m →
    let r := f.round rm ov false neg m e false
    let r' := f.round rm ov true neg m e false
    let x := dyadic m e
    let ulp := (2 : ℚ) ^ (max (e + Nat.log2 m) f.emin - f.fr)
    let largest := (f.unpack f.maxBits).rat
    (r.fl.testBit 2 = false →
      ∃ k q, f.unpack r.bits = .fin neg k q ∧
        (let y := dyadic k q
         |y - x| < ulp ∧ (r.fl.testBit 0 = true ↔ y ≠ x) ∧ (r.fl.testBit 1 = true → r.fl.testBit 0 = true) ∧
         (rm = 0 → 2 * |y - x| ≤ ulp ∧ (2 * |y - x| = ulp → k % 2 = 0)) ∧ (rm = 1 → y ≤ x) ∧
         (rm = 2 → if neg then x ≤ y else y ≤ x) ∧ (rm = 3 → if neg then y ≤ x else x ≤ y) ∧
         (rm = 4 → 2 * |y - x| ≤ ulp ∧ (2 * |y - x| = ulp → x < y)))) ∧
    (r.fl.testBit 2 = true → largest < x ∧ r.fl = flOF + flNX ∧
      (ov = .sat → r.bits = f.sign neg + f.maxBits) ∧ (ov = .nan → r.bits = f.nanBits) ∧
      (ov = .ieee → r.bits = f.sign neg +
        (if rm = 0 ∨ rm = 4 ∨ (rm = 2 ∧ neg = true) ∨ (rm = 3 ∧ neg = false) then f.infBits else f.maxBits))) ∧
    (largest + (2 : ℚ) ^ (f.emax - f.fr) ≤ x → r.fl.testBit 2 = true) ∧
    (f.subnormal r.bits = true → r' = { bits := f.sign neg, fl := flUF + flNX }) ∧ (f.subnormal r.bits = false → r' = r)) ∧
  (∀ (h : Head) (f : FCvt) (x : LaneOp), 1 ≤ x.t → x.t ≤ 20 →
    let st := f.stype.toNat
    let r := (Instr.cvt h f).lane x
    let rm := if x.handler then 0 else if f.rtz then 1 else x.rm
    let conv (j : Nat) : FR2 := convTo x.t rm x.ftz x.sat (cvRead x.ftz st (elem x.a st j))
    (st = x.t → r.fl = 0 ∧ ∀ j, j < typeCount st →
      elem r.val st j = if st = 17 ∨ st = 18 then elem x.a st j % 64 else elem x.a st j) ∧
    (st ≠ x.t → (∀ j, j < typeCount x.t → elem r.val x.t j = if j < typeCount st then (conv j).bits else 0) ∧
      ∀ b, r.fl.testBit b = true ↔ ∃ j, j < typeCount x.t ∧ j < typeCount st ∧ (conv j).fl.testBit b = true)) ∧
  (∀ (h : Head) (f : FR) (x : LaneOp), x.t ∈ [5, 6, 7, 8, 13, 14, 15, 16, 17, 18, 19] →
    let n := typeCount x.t / 2
    let w := wideType x.t
    let k := if f.b = .const 1 then n else 0
    let p := (Instr.pack h f).lane x
    let u := (Instr.unpack h f).lane x
    let conv (j : Nat) : FR2 :=
      convTo x.t x.rm x.ftz x.sat (cvRead x.ftz w (if j < n then elem x.a w j else elem x.b w (j - n)))
    (∀ j, j < 2 * n → elem p.val x.t j = (conv j).bits) ∧
    (∀ b, p.fl.testBit b = true ↔ ∃ j, j < 2 * n ∧ (conv j).fl.testBit b = true) ∧ u.fl = 0 ∧
    (∀ j, j < n →
      let z := elem x.a x.t (k + j)
      let v := (fltFmt x.t).unpack (if x.t = 17 ∨ x.t = 18 then z % 64 else z)
      let y := (fltFmt w).unpack (elem u.val w j)
      (x.t ≤ 8 → readElem w (elem u.val w j) = readElem x.t z) ∧
      (13 ≤ x.t → v.isNan = true → elem u.val w j = (fltFmt w).nanBits) ∧
      (13 ≤ x.t → v.isNan = false → y.same v ∧ y.minus = v.minus))) ∧
  (∀ (dt rm ftz : Nat) (sat : Bool) (n : Bool) (m : Nat) (e : Int) (sg : Bool) (i : Int), 1 ≤ dt → dt ≤ 20 → rm ≤ 4 →
    let f := fltFmt dt
    let c (v : CvSrc) := convTo dt rm ftz sat v
    let x := dyadic m e
    let limit (b : Bool) : Nat := wrapTo (typeWidth dt) (if b then typeLo dt else typeHi dt)
    let ov : OvKind := if dt = 15 then (if sat then .sat else .nan) else if dt = 16 then (if sat then .sat else .ieee)
      else if 17 ≤ dt then .sat else .ieee
    (11 ≤ dt → dt ≤ 19 →
      c (.flt (.fin n m e)) = f.round (if dt ≤ 13 then rm else 0) ov (ftzOn ftz dt) n m e false ∧
      c (.int i) = f.round (if dt ≤ 13 then rm else 0) ov (ftzOn ftz dt) (decide (i < 0)) i.natAbs 0 false ∧
      (dt ≤ 16 → c (.flt (.nan sg)) = { bits := f.nanBits, fl := if sg then flNV else 0 }) ∧
      (17 ≤ dt → c (.flt (.nan sg)) = { bits := 0, fl := flNV }) ∧
      c (.flt (.inf n)) =
        { bits := if ov = .sat then f.sign n + f.maxBits else if ov = .nan then f.nanBits else f.sign n + f.infBits }) ∧
    (dt ≤ 10 →
      c (.int i) = { bits := if sat then wrapTo (typeWidth dt) (max (typeLo dt) (min (typeHi dt) i)) else wrapTo (typeWidth dt) i } ∧
      c (.flt (.nan sg)) = { bits := 0, fl := flNV } ∧ c (.flt (.inf n)) = { bits := limit n, fl := flNV } ∧
      ((m = 0 → e < 128) → ∃ q, RoundsToInt rm n x q ∧
        (let z : Int := if n then -(q : Int) else q
         (z < typeLo dt → c (.flt (.fin n m e)) = { bits := limit true, fl := flNV }) ∧
         (typeHi dt < z → c (.flt (.fin n m e)) = { bits := limit false, fl := flNV }) ∧
         (typeLo dt ≤ z → z ≤ typeHi dt →
           (c (.flt (.fin n m e))).bits = wrapTo (typeWidth dt) z ∧
           (c (.flt (.fin n m e))).fl = if (q : ℚ) = x then 0 else flNX)))) ∧
    (dt = 20 →
      c (.flt (.nan sg)) = { bits := 0xFF, fl := if sg then flNV else 0 } ∧ c (.flt (.inf n)) = { bits := 0xFE } ∧
      c (.flt (.fin n 0 e)) = { bits := 0 } ∧ c (.int i) = c (.flt (.fin false i.natAbs 0)) ∧
      ∀ k : Int, (2 : ℚ) ^ k ≤ x → x < (2 : ℚ) ^ (k + 1) →
        (k < -127 → c (.flt (.fin n m e)) = { bits := 0, fl := flUF + flNX }) ∧
        (127 < k → c (.flt (.fin n m e)) = { bits := 0xFE, fl := flOF + flNX }) ∧
        (-127 ≤ k → k ≤ 127 → (((c (.flt (.fin n m e))).bits : Nat) : Int) = k + 127 ∧
          (c (.flt (.fin n m e))).fl = if x = (2 : ℚ) ^ k then 0 else flNX))) ∧
  (∀ (h : Head) (f : FR) (x : LaneOp), 13 ≤ x.t → x.t ≤ 19 →
    let r := (Instr.cvtsr h f).lane x
    let g := fltFmt x.t
    let largest := (g.unpack g.maxBits).rat
    ∃ y z : Nat → FR2, r.fl = (z 0).fl ||| (z 1).fl ∧ (∀ j, j < 2 → elem r.val x.t j = (z j).bits) ∧
      (∀ j, 2 ≤ j → j < typeCount x.t → elem r.val x.t j = 0) ∧
      ∀ j, j < 2 →
        let v := readFV x.ftz 12 (elem x.a 12 j)
        (ftzOn x.ftz x.t = true → g.subnormal (y j).bits = true →
          (z j).bits = g.sign ((y j).bits.testBit g.signPos) ∧
          ∀ b, (z j).fl.testBit b = true ↔ (y j).fl.testBit b = true ∨ b = 0 ∨ b = 1) ∧
        ((ftzOn x.ftz x.t = false ∨ g.subnormal (y j).bits = false) → z j = y j) ∧
        (∀ s, v = .nan s → x.t ≤ 16 → y j = { bits := g.nanBits, fl := if s then flNV else 0 }) ∧
        (∀ s, v = .nan s → 17 ≤ x.t → y j = { bits := 0, fl := flNV }) ∧
        (∀ n, v = .inf n → y j = { bits := g.sign n + (if x.t ∈ [13, 14, 16] then g.infBits else g.maxBits) }) ∧
        (∀ n e, v = .fin n 0 e → y j = { bits := g.sign n }) ∧
        (∀ n m e, v = .fin n m e → 0 < m →
          let u := (2 : ℚ) ^ (max (e + Nat.log2 m) g.emin - g.fr)
          let w := (⌊dyadic m e / u + (elem x.b 12 j : ℚ) / 2 ^ 32⌋ : ℚ) * u
          (largest < w → y j = { bits := g.sign n + g.maxBits, fl := flOF + flNX }) ∧
          (w ≤ largest → ∃ k q, g.unpack (y j).bits = .fin n k q ∧ dyadic k q = w ∧
            (y j).fl = (if w = dyadic m e then 0 else flNX) +
              (if w ≠ dyadic m e ∧ 0 < w ∧ w < (2 : ℚ) ^ g.emin then flUF else 0))))

/-- For finite operands the sum, product and fused product deliver the one rounding of the exact value, an exact zero
sum of operands that are not equal zeros being +0, or -0 in roundTowardNegative; fadd, fsub, fmul and ffma give them
in each computed element, clamped to [+0, +1] with SAT, and raise the flags of all computed elements. dot2, dot4, dot8
give in each half of the lane c plus the integer products, wrapped or saturated, or the floating products summed in
the fixed tree whose every node is rounded to nearest even in FP32; dots one rounding of the exact sum times both
scales. (R163, R164, R178, R179, R159, R160, R126) -/
def Obligations.ExactArithmetic : Prop :=
  (∀ (r : Rnd) (a b c : Bool) (k m n : Nat) (p q z : Int),
    let v (s : Bool) (k : Nat) (p : Int) : ℚ := if s then -dyadic k p else dyadic k p
    (v a k p + v b m q ≠ 0 → ∃ s j e, 0 < j ∧ v s j e = v a k p + v b m q ∧ r.add (.fin a k p) (.fin b m q) = r.go s j e) ∧
    (v a k p + v b m q = 0 → ¬(k = 0 ∧ m = 0 ∧ a = b) → r.add (.fin a k p) (.fin b m q) = r.zero (decide (r.rm = 2))) ∧
    (k * m ≠ 0 → r.mul (.fin a k p) (.fin b m q) = r.go (a != b) (k * m) (p + q) ∧ v (a != b) (k * m) (p + q) = v a k p * v b m q) ∧
    (v a k p * v b m q + v c n z ≠ 0 → ∃ s j e, 0 < j ∧ v s j e = v a k p * v b m q + v c n z ∧
      r.fma (.fin a k p) (.fin b m q) (.fin c n z) = r.go s j e)) ∧
  (∀ (h : Head) (f : FR) (x : LaneOp), 11 ≤ x.t → x.t ≤ 14 → (∀ k, x.se = some k → k < typeCount x.t) →
    let r := x.settings
    ComputesFloat ((Instr.fadd h f).lane x) x (fun j => r.add (x.va j) (x.vb j)) ∧
    ComputesFloat ((Instr.fsub h f).lane x) x (fun j => r.add (x.va j) (x.vb j).neg) ∧
    ComputesFloat ((Instr.fmul h f).lane x) x (fun j => r.mul (x.va j) (x.vb j)) ∧
    ComputesFloat ((Instr.ffma h f).lane x) x (fun j => r.fma (x.va j) (x.vb j) (x.vc j))) ∧
  (∀ (h : Head) (f : FR) (x : LaneOp) (i : Instr), i ∈ [Instr.dot2 h f, Instr.dot4 h f, Instr.dot8 h f] →
    let n := typeCount x.t / 2
    let o := i.lane x
    let fv (w : Word) (j : Nat) : FV := (fltFmt x.t).unpack (elem w x.t j)
    let node (a b : FV) : FR2 := rne32.add a b
    let val (r : FR2) : FV := fp32.unpack r.bits
    (x.t ∈ [7, 8, 9, 10] → o.fl = 0 ∧ ∀ k, k < 2 →
      let rt := if typeSigned x.t then 3 else 4
      let v : Int := readElem rt (elem x.c rt k) +
        ((List.range n).map fun j => readElem x.t (elem x.a x.t (n * k + j)) * readElem x.t (elem x.b x.t (n * k + j))).sum
      (x.sat = false → ((elem o.val rt k : Int) - v) % 2 ^ 32 = 0) ∧
      (x.sat = true → readElem rt (elem o.val rt k) = max (typeLo rt) (min (typeHi rt) v))) ∧
    (∀ (sa sb : Nat → Bool) (ma mb : Nat → Nat) (ea eb : Nat → Int), x.t ∈ [13, 14, 15, 16, 19] →
      (∀ j, j < 2 * n → fv x.a j = .fin (sa j) (ma j) (ea j) ∧ fv x.b j = .fin (sb j) (mb j) (eb j)) →
      let p (k j : Nat) : FV := .fin (sa (n * k + j) != sb (n * k + j)) (ma (n * k + j) * mb (n * k + j)) (ea (n * k + j) + eb (n * k + j))
      let c (k : Nat) : FV := fp32.unpack (elem x.c 12 k)
      ∃ s : Nat → FV, ∃ fl : Nat → Nat,
        (∀ k, k < 2 → elem o.val 12 k = (node (c k) (s k)).bits) ∧
        o.fl = fl 0 ||| (node (c 0) (s 0)).fl ||| (fl 1 ||| (node (c 1) (s 1)).fl) ∧
        ∀ k, k < 2 →
          (n = 2 → s k = val (node (p k 0) (p k 1)) ∧ fl k = (node (p k 0) (p k 1)).fl) ∧
          (n = 4 →
            let lo := node (p k 0) (p k 1)
            let hi := node (p k 2) (p k 3)
            s k = val (node (val lo) (val hi)) ∧ fl k = lo.fl ||| hi.fl ||| (node (val lo) (val hi)).fl) ∧
          (n = 8 → fl k = 0 ∧ (∃ a b d, s k = .fin a b d) ∧ (s k).rat = ((List.range 8).map fun j => (p k j).rat).sum)) ∧
    (∀ k j, x.t ∈ [13, 14, 15, 16] → k < 2 → j < n →
      let a := fv x.a (n * k + j)
      let b := fv x.b (n * k + j)
      (a.isNan = true ∨ b.isNan = true → elem o.val 12 k = fp32.nanBits) ∧
      (∀ s t e, a = .inf s ∧ b = .fin t 0 e ∨ a = .fin t 0 e ∧ b = .inf s →
        elem o.val 12 k = fp32.nanBits ∧ o.fl.testBit 4 = true))) ∧
  (∀ (h : Head) (f : FR) (x : LaneOp), 15 ≤ x.t → x.t ≤ 19 →
    let n := typeCount x.t / 2
    let o := (Instr.dots h f).lane x
    let read (e : Nat) : FV := (fltFmt x.t).unpack (if x.t = 17 ∨ x.t = 18 then e % 64 else e)
    let a (k j : Nat) : FV := read (elem x.a x.t (n * k + j))
    let b (k j : Nat) : FV := read (elem x.b x.t (n * k + j))
    let finite (v : FV) : Prop := ∃ s m e, v = .fin s m e
    ∃ r : Nat → FR2, o.fl = (r 0).fl ||| (r 1).fl ∧ ∀ k, k < 2 → elem o.val 12 k = (r k).bits ∧
      (let sa := x.c.toNat / 2 ^ (16 * k) % 256
       let sb := x.c.toNat / 2 ^ (16 * k + 8) % 256
       let sum : ℚ := ((List.range n).map fun j => (a k j).rat * (b k j).rat).sum
       let scaled : Prop := sa ≠ 255 ∧ sb ≠ 255
       (¬scaled ∨ (∃ j, j < n ∧ ((a k j).isNan = true ∨ (b k j).isNan = true)) → r k = { bits := fp32.nanBits }) ∧
       (scaled → (∀ j, j < n → finite (a k j) ∧ finite (b k j)) → sum = 0 → r k = { bits := 0 }) ∧
       (scaled → (∀ j, j < n → finite (a k j) ∧ finite (b k j)) → sum ≠ 0 → ∃ s m e, 0 < m ∧
         FV.rat (.fin s m e) = sum * (2 : ℚ) ^ ((sa : Int) + sb - 254) ∧ r k = rne32.go s m e)))

/-- The formats' limits, infinities and canonical NaNs have the patterns of Table 6.1. Infinity minus infinity and 0 x
infinity give the canonical NaN and raise NV; frcp and frsq of a zero give the infinity of its sign and raise DZ; fsqrt
of a negative number gives NaN and NV; x over 0 gives an infinity and DZ, 0 over 0 and infinity over infinity NaN and
NV; flog2 of a zero gives minus infinity and DZ; fsin and fcos of an infinity give NaN and NV; ftanh of an infinity
gives a one of its sign. A NaN operand gives the positive canonical NaN, with NV exactly for a signalling one. frnd,
fscale, frcp, frsq, fsqrt, fexp2, flog2, fsin, fcos and ftanh give these functions of each computed element in the
form's own rounding, and raise the flags of all of them; fdivf gives, in the fix-up range, its third source as read (the
canonical NaN for a NaN) without a flag, and elsewhere the quotient. (R155, R156, R164, R168, R169, R170, R171, R172,
R157, R159) -/
def Obligations.SpecialResults : Prop :=
  ((fp64.maxBits = 0x7FEFFFFFFFFFFFFF ∧ fp64.infBits = 0x7FF0000000000000 ∧ fp64.nanBits = 0x7FF8000000000000) ∧
  (fp32.maxBits = 0x7F7FFFFF ∧ fp32.infBits = 0x7F800000 ∧ fp32.nanBits = 0x7FC00000) ∧
  (fp16.maxBits = 0x7BFF ∧ fp16.infBits = 0x7C00 ∧ fp16.nanBits = 0x7E00) ∧
  (bf16.maxBits = 0x7F7F ∧ bf16.infBits = 0x7F80 ∧ bf16.nanBits = 0x7FC0) ∧
  (e4m3.maxBits = 0x7E ∧ e4m3.nanBits = 0x7F) ∧ (e5m2.maxBits = 0x7B ∧ e5m2.infBits = 0x7C ∧ e5m2.nanBits = 0x7E) ∧
  fp64.unpack 0x0010000000000000 = .fin false (2 ^ 52) (-1074) ∧ fp64.unpack 1 = .fin false 1 (-1074) ∧
  fp32.unpack 0x00800000 = .fin false (2 ^ 23) (-149) ∧ fp32.unpack 1 = .fin false 1 (-149) ∧
  fp16.unpack 1 = .fin false 1 (-24) ∧ bf16.unpack 1 = .fin false 1 (-133) ∧ e4m3.unpack 1 = .fin false 1 (-9) ∧
  fp16.unpack 0x7BFF = .fin false 2047 5 ∧ e4m3.unpack 0x7E = .fin false 14 5 ∧
  e3m2.unpack e3m2.maxBits = .fin false 7 2 ∧ e2m3.unpack e2m3.maxBits = .fin false 15 (-1) ∧ e2m1.unpack e2m1.maxBits = .fin false 3 1) ∧
  (∀ (r : Rnd) (a b : Bool) (m : Nat) (e z : Int), 0 < m →
    r.add (.inf a) (.inf (!a)) = r.fmt.nanR true ∧ r.mul (.inf a) (.fin b 0 z) = r.fmt.nanR true ∧
    r.mul (.fin b 0 z) (.inf a) = r.fmt.nanR true ∧ r.fma (.inf a) (.fin b 0 z) (.nan false) = r.fmt.nanR true ∧
    r.rcp (.fin a 0 z) = { bits := (r.inf a).bits, fl := flDZ } ∧ r.rsq (.fin a 0 z) = { bits := (r.inf a).bits, fl := flDZ } ∧
    r.rcp (.inf a) = r.zero a ∧ r.rsq (.inf false) = r.zero false ∧ r.rsq (.inf true) = r.fmt.nanR true ∧
    r.sqrt (.fin true m e) = r.fmt.nanR true ∧ r.rsq (.fin true m e) = r.fmt.nanR true ∧ r.sqrt (.inf true) = r.fmt.nanR true ∧
    r.sqrt (.fin a 0 z) = r.zero a ∧ r.sqrt (.inf false) = r.inf false ∧
    r.div (.fin a m e) (.fin b 0 z) = { bits := (r.inf (a != b)).bits, fl := flDZ } ∧
    r.div (.fin a 0 e) (.fin b 0 z) = r.fmt.nanR true ∧ r.div (.inf a) (.inf b) = r.fmt.nanR true ∧
    r.log2 (.fin a 0 z) = { bits := (r.inf true).bits, fl := flDZ } ∧ r.log2 (.fin true m e) = r.fmt.nanR true ∧
    r.log2 (.inf false) = r.inf false ∧ r.sinpi (.inf a) = r.fmt.nanR true ∧ r.cospi (.inf a) = r.fmt.nanR true ∧
    r.exp2 (.inf true) = r.zero false ∧ r.exp2 (.inf false) = r.inf false ∧ r.tanh (.inf a) = r.go a 1 0) ∧
  (∀ (r : Rnd) (s : Bool) (x : FV), x.isNan = false →
    r.add (.nan s) x = r.fmt.nanR s ∧ r.add x (.nan s) = r.fmt.nanR s ∧ r.mul (.nan s) x = r.fmt.nanR s ∧
    r.mul x (.nan s) = r.fmt.nanR s ∧ r.div (.nan s) x = r.fmt.nanR s ∧ r.div x (.nan s) = r.fmt.nanR s ∧
    r.rcp (.nan s) = r.fmt.nanR s ∧ r.rsq (.nan s) = r.fmt.nanR s ∧ r.sqrt (.nan s) = r.fmt.nanR s ∧ r.exp2 (.nan s) = r.fmt.nanR s ∧
    r.log2 (.nan s) = r.fmt.nanR s ∧ r.sinpi (.nan s) = r.fmt.nanR s ∧ r.cospi (.nan s) = r.fmt.nanR s ∧
    r.tanh (.nan s) = r.fmt.nanR s ∧ (r.rint (.nan s)) = r.fmt.nanR s ∧ ∀ n, r.scale (.nan s) n = r.fmt.nanR s) ∧
  (∀ (h : Head) (fu : FRu) (f : FR) (x : LaneOp), 11 ≤ x.t → x.t ≤ 14 → x.sat = false → (∀ k, x.se = some k → k < typeCount x.t) →
    let r := x.settings
    let nearest : Rnd := { r with rm := 0 }
    let computes (i : Instr) (F : FV → FR2) : Prop := ComputesFloat (i.lane x) x fun j => F (x.va j)
    computes (.frnd h fu) ({ r with rm := x.rm } : Rnd).rint ∧ computes (.frcp h fu) r.rcp ∧ computes (.frsq h fu) r.rsq ∧
    computes (.fsqrt h fu) r.sqrt ∧ computes (.fexp2 h fu) nearest.exp2 ∧ computes (.flog2 h fu) nearest.log2 ∧
    computes (.fsin h fu) nearest.sinpi ∧ computes (.fcos h fu) nearest.cospi ∧ computes (.ftanh h fu) nearest.tanh ∧
    ComputesFloat ((Instr.fscale h f).lane x) x (fun j => r.scale (x.va j) (toSigned (typeWidth x.t) (elem x.b x.t j))) ∧
    (x.t ≤ 12 → ∃ q : Nat → FR2, ComputesFloat ((Instr.fdivf h f).lane x) x q ∧ ∀ j, j < typeCount x.t →
      let c := elem x.c x.t j
      (FixUp (fltFmt x.t) (x.va j) (x.vb j) →
        q j = { bits := if (x.vc j).isNan then (fltFmt x.t).nanBits else flushed x.ftz x.t c }) ∧
      (¬FixUp (fltFmt x.t) (x.va j) (x.vb j) → q j = r.div (x.va j) (x.vb j)))) ∧
  (∀ (r : Rnd) (x : FV) (n : Int), (∀ s, x = .nan s → r.scale x n = r.fmt.nanR s) ∧ (∀ s, x = .inf s → r.scale x n = r.inf s) ∧
    (∀ s e, x = .fin s 0 e → r.scale x n = r.zero s) ∧ (∀ s, x = .inf s → r.rint x = r.inf s) ∧
    (∀ s m e, x = .fin s m e → r.rm ≤ 4 → ∃ q, RoundsToInt r.rm s (dyadic m e) q ∧
      (q = 0 → r.rint x = r.zero s) ∧ (q ≠ 0 → r.rint x = { bits := (r.go s q 0).bits })) ∧
    (∀ s m e, x = .fin s m e → 0 < m → m < 2 ^ 64 → |e| ≤ 2000 → r.rm ≤ 4 → r.scale x n = r.go s m (e + n)))

/-- fcmp gives eq where every computed pair of elements is equal (+0 = -0, infinities among them), ne where some pair is
not, lt and ge where every pair is in the numeric relation, so that a NaN makes eq, lt and ge false and ne true; it
raises NV exactly for a signalling NaN, or under lt and ge for any NaN. fmin, fmax, fminm and fmaxm deliver an operand's
pattern unrounded, the lesser or greater with -0 below +0, the number beside a NaN or, in the m forms, the canonical
NaN, and raise NV exactly for a signalling operand. fclass gives 1 where an element's class bit is set in the mask, and
raises nothing. (R165, R166, R167, R157, R156) -/
def Obligations.FloatCompares : Prop :=
  (∀ (h : Head) (f : FP) (fc : FPc) (x : LaneOp), x.cond ≤ 3 →
    let c := (Instr.fcmp h f).lane x
    let k := (Instr.fclass h fc).lane x
    let signals (j : Nat) : Prop := (x.va j).isSig = true ∨ (x.vb j).isSig = true
    let hasNan (j : Nat) : Prop := (x.va j).isNan = true ∨ (x.vb j).isNan = true
    c.noVal = true ∧ c.log = false ∧
    (x.cond = 0 → (c.pred = true ↔ ∀ j ∈ x.elems, (x.va j).same (x.vb j))) ∧
    (x.cond = 1 → (c.pred = true ↔ ∃ j ∈ x.elems, ¬(x.va j).same (x.vb j))) ∧
    (x.cond = 2 → (c.pred = true ↔ ∀ j ∈ x.elems, (x.va j).less (x.vb j))) ∧
    (x.cond = 3 → (c.pred = true ↔ ∀ j ∈ x.elems, (x.vb j).less (x.va j) ∨ (x.vb j).same (x.va j))) ∧
    (((∃ j ∈ x.elems, signals j) ∨ (2 ≤ x.cond ∧ ∃ j ∈ x.elems, hasNan j)) → c.fl = flNV) ∧
    (¬((∃ j ∈ x.elems, signals j) ∨ (2 ≤ x.cond ∧ ∃ j ∈ x.elems, hasNan j)) → c.fl = 0) ∧
    k.noVal = true ∧ k.fl = 0 ∧
    (k.pred = true ↔ ∃ j ∈ x.elems, x.b.toNat.testBit (classOf (fltFmt x.t) (elem x.a x.t j)) = true)) ∧
  (∀ (h : Head) (f : FR) (x : LaneOp) (i : Instr) (great number : Bool), 11 ≤ x.t → x.t ≤ 14 → x.sat = false →
    (∀ k, x.se = some k → k < typeCount x.t) →
    (i, great, number) ∈ [(Instr.fmin h f, false, true), (Instr.fmax h f, true, true), (Instr.fminm h f, false, false),
      (Instr.fmaxm h f, true, false)] →
    let o := i.lane x
    (o.fl = flNV ∨ o.fl = 0) ∧ (o.fl = flNV ↔ ∃ j ∈ x.elems, (x.va j).isSig = true ∨ (x.vb j).isSig = true) ∧
    ∀ j, j < typeCount x.t →
      let r := elem o.val x.t j
      let p := flushed x.ftz x.t (elem x.a x.t j)
      let q := flushed x.ftz x.t (elem x.b x.t j)
      let a := x.va j
      let b := x.vb j
      (∀ k, x.se = some k → k ≠ j → r = elem x.old x.t j) ∧
      (x.se = none ∨ x.se = some j →
        (a.isNan = true → b.isNan = true → r = (fltFmt x.t).nanBits) ∧
        (a.isNan = true → b.isNan = false → r = if number then q else (fltFmt x.t).nanBits) ∧
        (a.isNan = false → b.isNan = true → r = if number then p else (fltFmt x.t).nanBits) ∧
        (a.isNan = false → b.isNan = false →
          (a.under b → r = if great then q else p) ∧ (b.under a → r = if great then p else q) ∧
          (¬a.under b → ¬b.under a → p = q ∧ r = p))))

/-- Outside handler mode, raising a set of flags sets their bits of sr.fpflags and, for those whose enable in sr.fpmode
is set, their PND bits, leaving every other bit; in handler mode nothing changes. (R160, R349) -/
def Obligations.FlagsRaised : Prop :=
  ∀ (g : Group) (fl : Nat), fl < 32 →
    (g.inHandler = true → g.raise fl = g) ∧
    (g.inHandler = false → g.raise fl = { g with fpflags := (g.raise fl).fpflags } ∧
      (∀ k, k < 5 → (g.raise fl).fpflags.getLsbD k = (g.fpflags.getLsbD k || fl.testBit k)) ∧
      (∀ k, k < 5 → (g.raise fl).fpflags.getLsbD (16 + k) = (g.fpflags.getLsbD (16 + k) || (fl.testBit k && g.fpmode.getLsbD (8 + k)))) ∧
      (∀ k, k < 64 → (5 ≤ k ∧ k < 16 ∨ 21 ≤ k) → (g.raise fl).fpflags.getLsbD k = g.fpflags.getLsbD k))

/-! ### Predicates, moves, special registers and cross-lane forms (spec 05, 11) -/

/-- pand, por, pxor, pnot and both movp to predicates complete: in each lane of exec(entry) the destination predicate
receives the logic of p.PA xor N1 and p.PB xor N2, or each p n receives bit n of a, or one p n whether a is not 0; movp
to a vector register gives one predicate or the sixteen of the lane. Lanes that fail the guard and everything else keep
their state. (R144, R145, R60) -/
def Obligations.PredicateForms : Prop :=
  ∀ (h : Head) (f : FQ) (fu : FQu) (fp : FMovpP) (fv : FMovpV) (s : State) (g : Group) (e : Entry), Only g e →
    let two (i : Instr) (op : Bool → Bool → Bool) := AtIssue i s g e → GivesPredicates i s g e fun n l =>
      if n = f.pd.toNat ∧ (Iss.mk' s g e i).ex.has l = true then
        some (op (g.getPn f.pa.toNat l != f.n1) (g.getPn f.pb.toNat l != f.n2)) else none
    two (.pand h f) (· && ·) ∧ two (.por h f) (· || ·) ∧ two (.pxor h f) (fun x y => x != y) ∧
    (let i := Instr.pnot h fu
     AtIssue i s g e → GivesPredicates i s g e fun n l =>
      if n = fu.pd.toNat ∧ (Iss.mk' s g e i).ex.has l = true then some (!(g.getPn fu.pa.toNat l != fu.n1)) else none) ∧
    (let i := Instr.movpToPredicates h fp
     AtIssue i s g e → GivesPredicates i s g e fun n l =>
      if (Iss.mk' s g e i).ex.has l = true ∧ (fp.one = false ∨ n = fp.pn.toNat) then
        some (if fp.one then readSrc g l [] 0 fp.a != 0 else (readSrc g l [] 0 fp.a).getLsbD n) else none) ∧
    (let i := Instr.movpToVector h fv
     AtIssue i s g e → Mappable i s g e fv.d.toNat → GivesVector i s g e fv.d.toNat fun l =>
      if (Iss.mk' s g e i).ex.has l = true then
        some (if fv.one then (if g.getPn fv.pn.toNat l then 1 else 0) else (g.getP l).zeroExtend 64) else none)

/-- movs to a vector register gives each lane of exec(entry) the special register as that lane sees it; to a scalar
register it gives the register, or a, in the lowest lane of exec(entry), and keeps it where exec(entry) is empty; it
starts for sr.fpflags and sr.syncst once every earlier sequence has written its results. A lane sees its item's words,
identifier, stage and age, its own number, its die, cluster and core, the global timer and its heartbeat of 2048 ticks,
the cycle count and record of its die, the count of its entry's innermost loop, and the group's repeat count, floating
mode and flags and synchronisation status. sr.gang holds the placing die and the gang's serial there, sr.group those and
the group's index, sr.launch the queue and sequence number, sr.ctx the context, sr.lens the lens table's address in it,
and sr.supply the die's stock of the item's stage, with EXH for a stage 0 that is empty and gets no more. The address of
the lens table is the model's choice (log 13). (R149, R151, R152, R153, R321, R30, R46) -/
def Obligations.SpecialMoves : Prop :=
  (∀ (h : Head) (f : FMovs) (s : State) (g : Group) (e : Entry),
    let i := Instr.movs h f
    let u := Iss.mk' s g e i
    let val (l : Nat) := if f.srn = 0x3F then readSrc g l [] 0 f.a else s.srRead g e l f.srn.toNat
    AtIssue i s g e → Only g e → ((f.srn = 0x1B ∨ f.srn = 0x1C) → u.allWritten = true) →
    (f.sd = false → Mappable i s g e f.d.toNat →
      GivesVector i s g e f.d.toNat fun l => if u.ex.has l = true then some (val l) else none) ∧
    (f.sd = true → ∃ g0, Ends i s g e s g0 ∧ SamePlace g g0 ∧ (∀ r l, l < 32 → g0.getV r l = g.getV r l) ∧
      (∀ l, g0.getP l = g.getP l) ∧ g0.fpflags = g.fpflags ∧ ScalarsAfter g g0 f.d.toNat (u.ex.toList.head?.map val))) ∧
  (∀ (s : State) (g : Group) (e : Entry) (l : Nat) (it : Item) (d : Die), AMap.get? g.items l = some it → s.die? g.die = some d →
    let v := s.srRead g e l
    v 0x00 = it.item0.zeroExtend 64 ∧ v 0x01 = it.item1.zeroExtend 64 ∧ v 0x02 = it.item2.zeroExtend 64 ∧
    v 0x03 = it.itemid.zeroExtend 64 ∧ v 0x04 = BitVec.ofNat 64 it.stage ∧ v 0x05 = BitVec.ofNat 64 (AMap.getD g.ages l 0) ∧
    v 0x06 = BitVec.ofNat 64 l ∧ v 0x0B = BitVec.ofNat 64 g.die ∧ v 0x0C = BitVec.ofNat 64 g.cluster ∧ v 0x0D = BitVec.ofNat 64 g.core ∧
    v 0x10 = BitVec.ofNat 64 s.gtime ∧ v 0x11 = BitVec.ofNat 64 d.cyc ∧ v 0x12 = BitVec.ofNat 64 d.stepG ∧
    v 0x13 = BitVec.ofNat 64 d.stepC ∧ v 0x14 = d.ratio ∧ v 0x15 = BitVec.ofNat 64 (s.gtime / 2048) ∧
    v 0x19 = BitVec.ofNat 64 g.repi ∧ v 0x1A = g.fpmode ∧ v 0x1B = g.fpflags ∧ v 0x1C = g.syncst ∧
    (∀ a b n t, e.stack = .loop a b n :: t → v 0x18 = n.zeroExtend 64) ∧ (∀ a p t, e.stack = .call a p :: t → v 0x18 = 0) ∧
    (e.stack = [] → v 0x18 = 0) ∧
    ∀ (ga : Gang) (la : Launch) (c : Context), s.gang? g.gang = some ga → s.launch? ga.launch = some la → s.ctx? la.ctx = some c →
      v 0x08 = BitVec.ofNat 64 (ga.pdie * 2 ^ 40 + ga.serial % 2 ^ 40) ∧
      v 0x07 = BitVec.ofNat 64 ((ga.pdie * 2 ^ 40 + ga.serial % 2 ^ 40) * 16 + g.index) ∧
      v 0x09 = BitVec.ofNat 64 (la.queue * 2 ^ 48 + la.seq % 2 ^ 48) ∧ v 0x0A = BitVec.ofNat 64 (la.ctx % 2 ^ 16) ∧
      v 0x1E = BitVec.ofNat 64 c.lens ∧
      (let k := la.stock g.die it.stage
       (∀ n, n < 48 → (v 0x1D).getLsbD n = k.count.testBit n) ∧ (∀ n, 48 ≤ n → n < 63 → (v 0x1D).getLsbD n = false) ∧
       ((v 0x1D).getLsbD 63 = true ↔ it.stage = 0 ∧ k.count = 0 ∧ (la.deal = false ∨ la.cores = true ∨ k.final = true))))

/-- movsw writes a of the lowest lane of active(entry): sr.fpmode where every reserved bit is 0 and RM at most 4, and
otherwise it traps with code 0x0A and writes nothing; sr.fpflags likewise where every reserved bit is 0; sr.syncst,
clearing CBRK and PBRK where written as 1; sr.lcnt into the innermost loop record of its entry. Nothing else of the
group changes. (R150, R154, R158, R160, R316, R112) -/
def Obligations.SpecialWrites : Prop :=
  ∀ (h : Head) (f : FMovsw) (s : State) (g : Group) (e : Entry),
    let i := Instr.movsw h f
    let u := Iss.mk' s g e i
    let a := readSrc g (u.act.toList.headD 0) [] 0 f.a
    AtIssue i s g e → Only g e →
    (f.srn = 0x1A → (a &&& ~~~0x1F77#64 = 0 ∧ a.toNat % 8 ≤ 4) → Ends i s g e s { g with fpmode := a }) ∧
    (f.srn = 0x1A → ¬(a &&& ~~~0x1F77#64 = 0 ∧ a.toNat % 8 ≤ 4) → Traps i s g e 1 10 0 u.act) ∧
    (f.srn = 0x1B → u.allWritten = true → a &&& ~~~0x1F001F#64 = 0 → Ends i s g e s { g with fpflags := a }) ∧
    (f.srn = 0x1B → u.allWritten = true → a &&& ~~~0x1F001F#64 ≠ 0 → Traps i s g e 1 10 0 u.act) ∧
    (f.srn = 0x1C → u.allWritten = true → Ends i s g e s { g with syncst := g.syncst &&& ~~~(a &&& 3#64) }) ∧
    (f.srn = 0x18 → ∀ st fin n t, e.stack = .loop st fin n :: t →
      Moves i s g e fun _ =>
        let x := Entry.advance { e with stack := .loop st fin (a.truncate 32) :: t } (h.hints.count + 1)
        some (x.pc, e.prio, x.stack))

/-- shfl gives each writing lane the indexed element of the indexed lane of active(entry), zero-extended, and 0 for an
element or lane out of range; vote gives every writing lane whether some, or every, writing lane's predicate operand is
1, or the mask or the count of those lanes; bcast gives every writing lane the source of the chosen lane, 0 where that
lane lies outside active(entry). (R305, R306, R308) -/
def Obligations.CrossLaneForms : Prop :=
  ∀ (h : Head) (fs : FShfl) (fv : FVote) (fb : FBcast) (s : State) (g : Group) (e : Entry), Only g e →
    (let i := Instr.shfl h fs
     AtIssue i s g e → Mappable i s g e fs.d.toNat → GivesVector i s g e fs.d.toNat fun l =>
      if (Iss.mk' s g e i).ex.has l = true then
        (let x := (readSrc g l [] 0 fs.b).toNat
         let src := x % 32
         let j := x / 32 % 16
         let w := 64 / 2 ^ fs.wc.toNat
         some (if 64 / w ≤ j ∨ e.mask.has src = false then 0
           else BitVec.ofNat 64 ((g.getV fs.vs.toNat src).toNat / 2 ^ (w * j) % 2 ^ w)))
      else none) ∧
    (let i := Instr.vote h fv
     let ex := (Iss.mk' s g e i).ex
     let q (l : Nat) := g.getPn fv.pa.toNat l != fv.n
     AtIssue i s g e →
     (fv.op = 0 → GivesPredicates i s g e fun n l =>
       if n = fv.d.toNat % 16 ∧ ex.has l = true then some (ex.toList.any q) else none) ∧
     (fv.op = 1 → GivesPredicates i s g e fun n l =>
       if n = fv.d.toNat % 16 ∧ ex.has l = true then some (ex.toList.all q) else none) ∧
     (Mappable i s g e fv.d.toNat →
       (fv.op = 2 → ∃ x : Word, (∀ k, k < 64 → x.getLsbD k = (ex.has k && q k)) ∧ GivesVector i s g e fv.d.toNat fun l =>
         if ex.has l = true then some x else none) ∧
       (fv.op = 3 → GivesVector i s g e fv.d.toNat fun l =>
         if ex.has l = true then some (BitVec.ofNat 64 (ex.toList.countP q)) else none))) ∧
    (let i := Instr.bcast h fb
     let ex := (Iss.mk' s g e i).ex
     let src := if fb.first then ex.toList.headD 0 else fb.lane.toNat
     AtIssue i s g e → Mappable i s g e fb.d.toNat → GivesVector i s g e fb.d.toNat fun l =>
      if ex.has l = true then some (if e.mask.has src then readSrc g src [] 0 fb.a else 0) else none)

/-- redg gives every writing lane the left fold of the source over the writing lanes in ascending order; scang gives
each writing lane the fold over the writing lanes up to it, or without INCL over those below it, the lowest receiving
the identity. Every step made raises its flags, and nothing else changes. An integer add sums element by element
modulo 2^w, integer min and max give the lesser and greater element in the type's reading, and, or and xor act on all
bits; floating add, min and max are those of fadd, fmin and fmax without modifiers. The identity is 0 for add, or and
xor, all ones for and, the greatest value or +infinity for min, the least value or -infinity for max. (R307, R303) -/
def Obligations.FoldForms : Prop :=
  (∀ (h : Head) (fr : FRedg) (fc : FScang) (s : State) (g : Group) (e : Entry), Only g e →
    let ftz : Nat := if g.inHandler then 0 else g.fpmode.toNat / 16 % 8
    let step (i : Instr) (op : Nat) (x y : Word) : LaneOut := foldStep op i.ty (g.rmFor i.head.hints) ftz g.inHandler x y
    let vals (i : Instr) (a : Src) : List Word := (Iss.mk' s g e i).ex.toList.map fun l => readSrc g l [] i.ty a
    let fold (i : Instr) (op : Nat) (xs : List Word) : Word × List Nat :=
      xs.tail.foldl (fun p x => ((step i op p.1 x).val, p.2 ++ [(step i op p.1 x).fl])) (xs.headD 0, [])
    (let i := Instr.redg h fr
     let ex := (Iss.mk' s g e i).ex
     let r := fold i fr.op.toNat (vals i fr.a)
     AtIssue i s g e → Mappable i s g e fr.d.toNat → ∃ g0, Ends i s g e s g0 ∧ SamePlace g g0 ∧
       (∀ n l, l < 32 → g0.getV n l = if n = fr.d.toNat ∧ ex.has l = true then r.1 else g.getV n l) ∧
       (∀ l, g0.getP l = g.getP l) ∧ SameScalars g g0 ∧ g0.fpflags = (r.2.foldl Group.raise g).fpflags) ∧
    (let i := Instr.scang h fc
     let op := fc.op.toNat
     let ex := (Iss.mk' s g e i).ex
     let xs := vals i fc.a
     let below (l : Nat) : Nat := (ex.toList.filter fun k => decide (k < l)).length
     let at' (l : Nat) : Word :=
       if fc.incl then (fold i op (xs.take (below l + 1))).1
       else if below l = 0 then foldIdentity op i.ty else (fold i op (xs.take (below l))).1
     let made := (fold i op (if fc.incl then xs else xs.dropLast)).2
     AtIssue i s g e → Mappable i s g e fc.d.toNat → ∃ g0, Ends i s g e s g0 ∧ SamePlace g g0 ∧
       (∀ n l, l < 32 → g0.getV n l = if n = fc.d.toNat ∧ ex.has l = true then at' l else g.getV n l) ∧
       (∀ l, g0.getP l = g.getP l) ∧ SameScalars g g0 ∧ g0.fpflags = (made.foldl Group.raise g).fpflags)) ∧
  (∀ (t rm ftz : Nat) (x y : Word) (hd : Bool),
    (1 ≤ t → t ≤ 8 →
      (∀ j, j < typeCount t → elem (foldStep 0 t rm ftz hd x y).val t j = (elem x t j + elem y t j) % 2 ^ typeWidth t) ∧
      (∀ j, j < typeCount t → readElem t (elem (foldStep 1 t rm ftz hd x y).val t j) = min (readElem t (elem x t j)) (readElem t (elem y t j))) ∧
      (∀ j, j < typeCount t → readElem t (elem (foldStep 2 t rm ftz hd x y).val t j) = max (readElem t (elem x t j)) (readElem t (elem y t j))) ∧
      (∀ j v, j < typeCount t → v < 2 ^ typeWidth t → readElem t v ≤ readElem t (elem (foldIdentity 1 t) t j) ∧
        readElem t (elem (foldIdentity 2 t) t j) ≤ readElem t v)) ∧
    (11 ≤ t → t ≤ 14 →
      (∀ (h : Head) (f : FR),
        let o : LaneOp := { t := t, se := none, a := x, b := y, c := 0, x := 0, isImm := false, old := 0, cond := 0, q := true
                            sat := false, rm := rm, handler := hd, ftz := ftz }
        foldStep 0 t rm ftz hd x y = (Instr.fadd h f).lane o ∧ foldStep 1 t rm ftz hd x y = (Instr.fmin h f).lane o ∧
          foldStep 2 t rm ftz hd x y = (Instr.fmax h f).lane o) ∧
      ∀ j, j < typeCount t → (fltFmt t).unpack (elem (foldIdentity 1 t) t j) = .inf false ∧
        (fltFmt t).unpack (elem (foldIdentity 2 t) t j) = .inf true) ∧
    (foldStep 3 t rm ftz hd x y).val = x &&& y ∧ (foldStep 4 t rm ftz hd x y).val = x ||| y ∧ (foldStep 5 t rm ftz hd x y).val = x ^^^ y ∧
    foldIdentity 0 t = 0 ∧ foldIdentity 3 t = BitVec.allOnes 64 ∧ foldIdentity 4 t = 0 ∧ foldIdentity 5 t = 0)

/-! ### Control (spec 04) -/

/-- The lanes of the entry that pass the guard of bra go to the branch word's address plus four times the signed offset
with priority TPRI, loop records that do not hold the target popped from their stack; the others stand past the branch.
brany and brall move the whole entry where some lane, or every lane, passes, and otherwise leave it past the branch. A
branch no lane takes completes whatever its target. (R114, R115, R111, R113, R110) -/
def Obligations.BranchForms : Prop :=
  ∀ (h : Head) (f : FB) (s : State) (g : Group) (e : Entry), Only g e →
    let goes (i : Instr) (taken : Mask) :=
      let u := Iss.mk' s g e i
      let t := (((e.pc + 4 * h.hints.count : Nat) : Int) + 4 * wordOffset h.hints.imm f.off14) % 2 ^ 56
      AtIssue i s g e → (taken = 0 ∨ u.targetOk t.toNat = true) →
      Moves i s g e fun l => if taken.has l = true then some (t.toNat, f.tpri.toNat, popLoops t.toNat e.stack) else none
    let q (l : Nat) := g.passes h.guard l
    goes (.bra h f) (Mask.ofPred fun l => e.mask.has l && q l) ∧
    goes (.brany h f) (if e.mask.toList.any q then e.mask else 0) ∧
    goes (.brall h f) (if e.mask.toList.all q then e.mask else 0)

/-- The lanes that pass the guard of call go to the target with priority TPRI and one more record, the return PC after
the call word and the entry's priority; ret pops the loop records above the innermost call record and that record, and
goes to its return PC with its priority; brx sends each passing lane, but those that rtt.skip moved past it, to the
kernel object's base plus the low 32 bits of its S1 with priority TPRI, loop records that do not hold its target popped.
The other lanes stand past the word. (R116, R117, R118, R108, R113, R361) -/
def Obligations.CallForms : Prop :=
  (∀ (h : Head) (f : FB) (s : State) (g : Group) (e : Entry), Only g e →
    let taken := Mask.ofPred fun l => e.mask.has l && g.passes h.guard l
    (let i := Instr.call h f
     let ia := e.pc + 4 * h.hints.count
     let t := ((ia : Int) + 4 * wordOffset h.hints.imm f.off14) % 2 ^ 56
     AtIssue i s g e → taken ≠ 0 → e.stack.length < 4 → (Iss.mk' s g e i).targetOk t.toNat = true →
     Moves i s g e fun l => if taken.has l = true then some (t.toNat, f.tpri.toNat, .call (ia + 4) e.prio :: e.stack) else none) ∧
    (let i := Instr.ret h
     ∀ ls rp pr rest, e.stack = ls ++ .call rp pr :: rest → (∀ x ∈ ls, ∃ a b n, x = .loop a b n) →
     AtIssue i s g e → (Iss.mk' s g e i).targetOk rp = true →
     Moves i s g e fun l => if taken.has l = true then some (rp, pr, rest) else none)) ∧
  (∀ (h : Head) (f : FBrx) (s : State) (g : Group) (e : Entry),
    let i := Instr.brx h f
    let u := Iss.mk' s g e i
    let t (l : Nat) := (s.codeSpan g).1 + (readSrc g l [] 0 f.a).toNat % 2 ^ 32
    let goes (l : Nat) : Bool := g.passes h.guard l && !e.readDone.has l
    AtIssue i s g e → Only g e → (∀ l, e.mask.has l = true → goes l = true → u.targetOk (t l) = true) →
    Moves i s g e fun l => if goes l then some (t l, f.tpri.toNat, popLoops (t l) e.stack) else none)

/-- loop with a count of 0 in its scalar register skips the body; otherwise it pushes the record of the body and its
count and the entry stands at the body's first word. Past a sequence that takes no transfer and holds the body's last
word, a count of at most 1 pops the record and goes on after the body; a larger count is decremented and the entry
stands at the body's first word. rfpt moves the entry past itself and changes nothing else; yield also leaves it
yielded, which for an entry that is its group's only one is the model's reading (log 77). (R109, R110, R119, R120,
R96) -/
def Obligations.LoopForms : Prop :=
  (∀ (h : Head) (f : FL) (s : State) (g : Group) (e : Entry),
    (let i := Instr.loop h f
     let ia := e.pc + 4 * h.hints.count
     let last := (((ia : Int) + 4 * wordOffset h.hints.imm f.off14) % 2 ^ 56).toNat
     let n : BitVec 32 := (g.getS f.sc.toNat).truncate 32
     AtIssue i s g e → Only g e →
     (n = 0 → (Iss.mk' s g e i).targetOk (last + 4) = true → Moves i s g e fun _ => some (last + 4, e.prio, e.stack)) ∧
     (n ≠ 0 → e.stack.length < 4 → Moves i s g e fun _ => some (ia + 4, e.prio, .loop (ia + 4) last n :: e.stack))) ∧
    (∀ (st fin w : Nat) (n : BitVec 32) (t : List CRec), e.stack = .loop st fin n :: t → e.pc ≤ fin → fin < e.pc + 4 * w →
      (2 ≤ n.toNat → (e.advance w).pc = st ∧ (e.advance w).stack = .loop st fin (n - 1) :: t) ∧
      (n.toNat ≤ 1 → (∀ a b k r, t = .loop a b k :: r → b ≠ fin) → (e.advance w).pc = fin + 4 ∧ (e.advance w).stack = t)) ∧
    (∀ (st fin w : Nat) (n : BitVec 32) (t : List CRec), e.stack = .loop st fin n :: t → ¬(e.pc ≤ fin ∧ fin < e.pc + 4 * w) →
      (e.advance w).pc = e.pc + 4 * w ∧ (e.advance w).stack = e.stack)) ∧
  (∀ (h : Head) (s : State) (g : Group) (e : Entry), Only g e →
    (AtIssue (.rfpt h) s g e → Ends (.rfpt h) s g e s g) ∧
    (e.mask ≠ 0 → AtIssue (.yield h) s g e → ∃ t g', exec (.yield h) s = .next t ∧ t.group? g.id = some g' ∧ OnlyGroup s t g.id ∧
      Closed e.mask (deadOf (.yield h)) g g' ∧ Past g' e (h.hints.count + 1) ∧
      ((∀ x ∈ g.front, x ≠ e → x.pc ≠ (e.advance (h.hints.count + 1)).pc) →
        ∃ x ∈ g'.front, x.mask = e.mask ∧ x.yielded = true)))

/-- A taken branch, call or ret, a brany or brall that is taken, and a loop that skips its body, whose target is no
place of the code, takes trap class 4 with the target in INFO, for the lanes that take it; brx takes it for its lanes
with such a target, with the first one's in INFO. A call by some lane, or a loop with a count, on a full stack takes
class 3 with detail 1; a ret with no call record takes class 3 with detail 2. No lane moves: that a branch traps
before its other lanes move is the model's reading (log 23). (R113, R108, R114, R115, R116, R117, R118, R109) -/
def Obligations.ControlTraps : Prop :=
  (∀ (h : Head) (f : FB) (fl : FL) (s : State) (g : Group) (e : Entry),
    let q (l : Nat) := g.passes h.guard l
    let taken := Mask.ofPred fun l => e.mask.has l && q l
    let t := ((((e.pc + 4 * h.hints.count : Nat) : Int) + 4 * wordOffset h.hints.imm f.off14) % 2 ^ 56).toNat
    let outside (i : Instr) (m : Mask) : Prop := AtIssue i s g e → m ≠ 0 → (Iss.mk' s g e i).targetOk t = false →
      Traps i s g e 4 0 (t % 2 ^ 32) m
    outside (.bra h f) taken ∧ outside (.brany h f) (if e.mask.toList.any q then e.mask else 0) ∧
    outside (.brall h f) (if e.mask.toList.all q then e.mask else 0) ∧
    (e.stack.length < 4 → outside (.call h f) taken) ∧
    (AtIssue (.call h f) s g e → taken ≠ 0 → 4 ≤ e.stack.length → Traps (.call h f) s g e 3 1 0 taken) ∧
    (∀ ls rp pr rest, e.stack = ls ++ .call rp pr :: rest → (∀ x ∈ ls, ∃ a b n, x = .loop a b n) → AtIssue (.ret h) s g e →
      taken ≠ 0 → (Iss.mk' s g e (.ret h)).targetOk rp = false → Traps (.ret h) s g e 4 0 (rp % 2 ^ 32) taken) ∧
    (AtIssue (.ret h) s g e → taken ≠ 0 → (∀ x ∈ e.stack, ∀ a p, x ≠ .call a p) → Traps (.ret h) s g e 3 2 0 taken) ∧
    (let i := Instr.loop h fl
     let last := ((((e.pc + 4 * h.hints.count : Nat) : Int) + 4 * wordOffset h.hints.imm fl.off14) % 2 ^ 56).toNat
     let n : BitVec 32 := (g.getS fl.sc.toNat).truncate 32
     (AtIssue i s g e → n = 0 → (Iss.mk' s g e i).targetOk (last + 4) = false →
       Traps i s g e 4 0 ((last + 4) % 2 ^ 32) e.mask) ∧
     (AtIssue i s g e → n ≠ 0 → 4 ≤ e.stack.length → Traps i s g e 3 1 0 e.mask))) ∧
  (∀ (h : Head) (f : FBrx) (s : State) (g : Group) (e : Entry) (l0 : Nat),
    let i := Instr.brx h f
    let goes (l : Nat) : Bool := e.mask.has l && g.passes h.guard l && !e.readDone.has l
    let t (l : Nat) := (s.codeSpan g).1 + (readSrc g l [] 0 f.a).toNat % 2 ^ 32
    let bad (l : Nat) : Bool := goes l && !(Iss.mk' s g e i).targetOk (t l)
    AtIssue i s g e → bad l0 = true → (∀ l, l < l0 → bad l = false) →
    Traps i s g e 4 0 (t l0 % 2 ^ 32) (Mask.ofPred bad)) ∧
  (∀ (s : State) (g : Group) (e : Entry) (i : Instr) (t : Nat),
    (Iss.mk' s g e i).targetOk t = true ↔ t % 4 = 0 ∧ (s.codeSpan g).1 + 64 ≤ t ∧ t < (s.codeSpan g).1 + 64 + (s.codeSpan g).2)

/-! ### Accesses (spec 08, 09, 12) -/

/-- Each of ldN8, ldN16, ldN32, ldB64, ldS8, ldS16, ldS32, stB8, stB16, stB32, stB64, stfe, fefill, feq, atom, atomf,
cas, pref, cinv and cwb (i.accForm) at issue without repeats, whose lanes' addresses translate and whose counter is
below 63, completes: it records one counted operation for exec(entry) on counter CC and one access for each lane that
performs one, with the lane's address, location, size, register and data, and the entry stands past the sequence; no
byte, register or other group changes. Where exec(entry) is empty it issues nothing. A load or store with a rep hint
and no order, whose addresses translate without a walk and whose repeats name no register that an earlier one loads,
issues repeats 0 to CNT in order, each as one such operation with D and the address stepped where their flags are set,
the first for the lanes it is issued for and the later ones for the whole entry, and completes. (R228, R216, R237,
R238, R239, R240, R241, R105, 08_cluster_store_and_local_access.md) -/
def Obligations.AccessIssue : Prop :=
  (∀ (i : Instr) (f : AccForm) (s : State) (g g1 : Group) (e : Entry), i.accForm = some f → f.kind ≠ .ldfe →
    AtIssue i s g e → Only g e → i.head.hints.rep = none → e.repi = 0 →
    let u := Iss.mk' s g e i
    let plan (l : Nat) := s.planAddr g f (f.needsWindow i.head.hints) (g.effAddr f l)
    (u.ex = 0 → Ends i s g e s g) ∧
    (u.ex ≠ 0 → s.counter g.id (g.ctr f.cc) < 63 → s.orderHolds g u.ex i.head.hints.rel = false →
      (∀ l, u.ex.has l = true → (∃ ea, plan l = .skip ea) ∨ ∃ ea loc tgt r, plan l = .go ea loc tgt r) →
      s.regGate g (accResults f) = .ok g1 →
      ∃ s' o, Ends i s g e s' g1 ∧ Issued g f s s' o (u.ex.toList.map fun l => (l, plan l)) ∧ o.lanes = u.ex ∧
        o.ctr = g.ctr f.cc ∧ o.poisoned = 0)) ∧
  (∀ (i : Instr) (f0 : AccForm) (r : RepHint) (s : State) (g : Group) (e : Entry), i.accForm = some f0 →
    ((∃ sg, f0.kind = .load sg) ∨ f0.kind = .store) → i.head.hints.rep = some r → AtIssue i s g e → Only g e → e.repi = 0 →
    let cnt := r.cnt.toNat
    let f (j : Nat) : AccForm := { f0 with d := if r.sd then f0.d + j else f0.d, a := Src.step r.sa j f0.a }
    let m (j : Nat) : Mask := g.execMask i (if j = 0 then e.restart.getD e.mask else e.mask)
    let plan (j l : Nat) := { s with walks := [] }.planAddr g (f j) (f0.needsWindow i.head.hints) (g.effAddr (f j) l)
    i.head.hints.acq = false → i.head.hints.rel = false → (∀ a ∈ s.accs, a.grp = g.id → a.acq = false) →
    s.counter g.id (g.ctr f0.cc) + cnt < 63 → (g.inHandler = true ∨ ∀ d ∈ i.vwrites, d ∈ s.mappedRegs g) →
    (∀ j k, k < j → j ≤ cnt → ∀ d ∈ accResults (f k), d ∉ AccForm.names (f j)) →
    (∀ j l, j ≤ cnt → (m j).has l = true → ∃ ea loc tgt p, plan j l = .go ea loc tgt p) →
    ∃ s', Ends i s g e s' g ∧ RepeatsIssued g f m plan (cnt + 1) 0 s s')

/-- A lane's address outside the windows' ranges has cause 0, a misaligned one cause 1, a full/empty form or set action
on a translated address cause 2, all of class 9; a translation fault is class 8 with its cause. Where some lanes fail,
the form takes one trap for the lowest failing lane with its class, cause and address and the mask of all failing
lanes, the other lanes issue under no counter, and the entry keeps its PC. (R219, R254, R425, R344, R345) -/
def Obligations.AccessFaults : Prop :=
  (∀ (s : State) (g : Group) (f : AccForm) (nw : Bool) (ea : Nat), f.line = 0 →
    let p := s.planAddr g f nw ea
    let w := (s.gang? g.gang).bind fun ga => s.windowLoc ga (s.groupCtx g) ea f.size
    (winOf ea = .translated → ea % f.size ≠ 0 → p = .bad 9 1 ea) ∧
    (winOf ea = .translated → ea % f.size = 0 → nw = true → p = .bad 9 2 ea) ∧
    (∀ c, winOf ea = .translated → ea % f.size = 0 → nw = false → s.xlate g.die g.cluster (s.groupCtx g) ea f.use = .fault c →
      p = .bad 8 c ea) ∧
    (winOf ea ≠ .translated → w = none → p = .bad 9 0 ea) ∧
    (∀ loc, winOf ea ≠ .translated → w = some loc → ea % f.size ≠ 0 → p = .bad 9 1 ea) ∧
    (∀ loc, winOf ea ≠ .translated → w = some loc → ea % f.size = 0 → p = .go ea loc 0 none)) ∧
  (∀ (i : Instr) (f : AccForm) (s : State) (g g1 : Group) (e : Entry) (l0 cls det ea : Nat), i.accForm = some f → f.kind ≠ .ldfe →
    AtIssue i s g e → i.head.hints.rep = none → e.repi = 0 → g.inHandler = false →
    let u := Iss.mk' s g e i
    let plan (l : Nat) := s.planAddr g f (f.needsWindow i.head.hints) (g.effAddr f l)
    let bad (l : Nat) : Bool := match plan l with | .bad .. => true | _ => false
    s.counter g.id (g.ctr f.cc) < 63 → s.orderHolds g u.ex i.head.hints.rel = false → (∀ l a, u.ex.has l = true → plan l ≠ .wait a) →
    s.regGate g (accResults f) = .ok g1 → u.ex.has l0 = true → plan l0 = .bad cls det ea → (∀ l, l < l0 → u.ex.has l = true → bad l = false) →
    ∃ t g' r as, exec i s = .next t ∧ t.group? g.id = some g' ∧ g'.trap = some r ∧ r.cls = cls ∧ r.detail = det ∧ r.addr = ea ∧
      r.pc = e.pc ∧ r.emask = e.mask ∧ r.tmask = Mask.ofPred (fun l => u.ex.has l && bad l) ∧ SameRegisters g g' ∧
      (∃ x ∈ g'.front, x.mask = e.mask ∧ x.pc = e.pc ∧ x.restart = some r.tmask) ∧
      t.accs = s.accs ++ as ∧ as.map (·.lane) = u.ex.toList.filter (fun l => match plan l with | .go .. => true | _ => false) ∧
      ∀ o ∈ t.ops, o ∈ s.ops ∨ o.ctr = 8)

/-- ldfe sends the lanes of active(entry) that pass its guard and have neither read nor are on their way as one
counted operation and parks its entry; it parks without sending where all of them are on their way, and completes once
every lane has read. waitk completes where every counter its mask names is 0, and otherwise parks its entry. (R226,
R227, R238, R242, R95) -/
def Obligations.LdfeWaitk : Prop :=
  (∀ (h : Head) (f : FM) (fm : AccForm) (s : State) (g g1 : Group) (e : Entry),
    let i := Instr.ldfe h f
    let u := Iss.mk' s g e i
    let todo := g.execMask i e.mask &&& ~~~e.readDone
    let send := todo &&& ~~~u.inFlight
    let plan (l : Nat) := s.planAddr g fm true (g.effAddr fm l)
    AtIssue i s g e → Only g e → i.accForm = some fm →
    (todo = 0 → Ends i s g e s g) ∧
    (todo ≠ 0 → send = 0 → Parks i s g e s g .ldfe) ∧
    (send ≠ 0 → s.counter g.id (g.ctr fm.cc) < 63 → s.orderHolds g send h.hints.rel = false → s.regGate g (accResults fm) = .ok g1 →
      (∀ l, send.has l = true → ∃ ea loc tgt r, plan l = .go ea loc tgt r) →
      ∃ s' o, Parks i s g e s' g1 .ldfe ∧ Issued g fm s s' o (send.toList.map fun l => (l, plan l)) ∧ o.lanes = send ∧
        o.ctr = g.ctr fm.cc)) ∧
  (∀ (h : Head) (f : FK4) (s : State) (g : Group) (e : Entry), AtIssue (.waitk h f) s g e → Only g e →
    ((∀ k, k < 4 → f.mask.getLsbD k = true → s.counter g.id (g.ctr k) = 0) → Ends (.waitk h f) s g e s g) ∧
    ((∃ k, k < 4 ∧ f.mask.getLsbD k = true ∧ s.counter g.id (g.ctr k) ≠ 0) → Parks (.waitk h f) s g e s g (.waitk f.mask)))

/-- In a cycle of a bank of a die that does not relock, requests enter its queue, which holds at most eight, and keep
their place there, those of items' accesses and those of engines and units alike; then the oldest request of the queue
is performed if its quarter is on, and stays if not. A load gives its lane the bytes zero- or sign-extended; st, stfe
and fefill store their bytes, and an atomic or cas stores its new value and gives its lane the old one; feq gives its
lane's predicate the full bit; ldfe on a full granule reads, on an empty one it waits there. The full/empty action
then leaves, sets or clears the granule's bit. Every other byte reads as before. (R221, R222, R225, R226, R237, R238,
R239, R240, 08_cluster_store_and_local_access.md) -/
def Obligations.AccessesAct : Prop :=
  (∀ (s : State) (die cl bank : Nat),
    let s1 := s.enterBank die cl bank
    let queue (s : State) := s.bankQueue die cl bank
    let quarter (l : Nat) : QState := (s1.cluster (locDie l) (locCluster l)).quarters.getD (l % 2 ^ 20 / 2 ^ 18) .on
    s1 = { s with accs := s1.accs, reqs := s1.reqs, clusters := s1.clusters, next := s1.next } ∧
    ((s.accs.map (·.id)).Nodup → (s.reqs.map (·.id)).Nodup → (queue s).length ≤ 8 →
      (∀ a ∈ s.accs, 0 < a.queued → a ∈ s1.accs) ∧ (∀ r ∈ s.reqs, 0 < r.queued → r ∈ s1.reqs) ∧ (queue s1).length ≤ 8) ∧
    (s.relocking die = true → exec (.bankAccess die cl bank) s = .next s) ∧
    (s.relocking die = false →
      (queue s1 = [] → exec (.bankAccess die cl bank) s = .next s1) ∧
      ∀ x ∈ queue s1, (∀ y ∈ queue s1, y = x ∨ x.queued < y.queued) →
        (∀ a, x = .acc a → (quarter a.loc = .on → exec (.bankAccess die cl bank) s = .next ((s1.arrive a).actAny a)) ∧
          (quarter a.loc ≠ .on → exec (.bankAccess die cl bank) s = .next s1)) ∧
        (∀ r, x = .unit r →
          (quarter r.loc ≠ .waking → exec (.bankAccess die cl bank) s =
            .next { s1 with reqs := s1.reqs.map fun q => if q.id = r.id then { q with done := true } else q }) ∧
          (quarter r.loc = .waking → exec (.bankAccess die cl bank) s = .next s1)))) ∧
  (∀ (s : State) (a : Access) (g : Group), s.memOk = true → a ∈ s.accs → a.home = a.die → a.phase = .atBank → a.dst = .lane → a.discard = [] →
    isStoreLoc a.loc = true → a.lane < 32 → s.group? a.grp = some g → a.hnd = g.inHandler →
    let t := s.actAny a
    let same : Nat → Byte := Memory.read s.mem
    let bytes (n : Nat) : Nat := Memory.readN s.mem a.loc n
    let fe : Prop := (a.fe = 1 → t.full = s.full) ∧ (a.fe = 3 → t.isFull a.loc = false) ∧ (a.fe = 2 → t.isFull a.loc = true)
    let clean (n : Nat) : Prop := s.poisoned a.loc n = false
    let quiet : Prop := a.fe ∈ [1, 2, 3] ∧ (a.fe = 2 → s.waitersOf a.loc = [])
    let reg (x : Word) (r : Nat) : Option Word := if r = a.d then some x else none
    let none' {α : Type} (_ : Nat) : Option α := none
    (∀ sg, a.kind = .load sg → a.size ≤ 8 → clean a.size →
      Acted s t a g (reg (if sg ∧ 2 ^ (8 * a.size) ≤ 2 * bytes a.size then BitVec.ofNat 64 (2 ^ 64 + bytes a.size - 2 ^ (8 * a.size))
        else BitVec.ofNat 64 (bytes a.size))) none' same ∧ t.full = s.full) ∧
    (a.kind = .store → quiet → Acted s t a g none' none' (stored s a.loc a.size a.data.toNat) ∧ fe) ∧
    (a.kind = .stfe → quiet → Acted s t a g none' none' (stored s a.loc 8 a.data.toNat) ∧ fe) ∧
    (a.kind = .fefill → quiet → Acted s t a g none' none' (stored s a.loc 16 (a.data.toNat + 2 ^ 64 * a.data.toNat)) ∧ fe) ∧
    (∀ p, a.kind = .feq p → p < 16 → quiet →
      Acted s t a g none' (fun n => if n = p then some (s.isFull a.loc) else none) same ∧ fe) ∧
    (a.kind = .ldfe → s.isFull a.loc = true → clean 8 → a.fe ∈ [1, 3] →
      Acted s t a g (reg (BitVec.ofNat 64 (bytes 8))) none' same ∧ fe) ∧
    (a.kind = .ldfe → s.isFull a.loc = false → g.die = locDie a.loc → g.cluster = locCluster a.loc → a.die = locDie a.loc →
      t = { s with next := s.next + 1, accs := s.accs.map fun b => if b.id = a.id then { b with phase := .waiter, tag := s.next } else b }) ∧
    (((∃ op ty, a.kind = .atom op ty ∨ a.kind = .atomf op ty) ∨ ∃ ty, a.kind = .cas ty) → quiet → clean 8 →
      Acted s t a g (reg (BitVec.ofNat 64 (bytes 8))) none'
        (stored s a.loc 8 (atomNew a.kind (BitVec.ofNat 64 (bytes 8)) a.data a.data2).toNat) ∧ fe)) ∧
  (∀ (t : Nat) (old x y : Word) (j : Nat), 1 ≤ t → t ≤ 10 → j < typeCount t →
    let o := elem old t j
    let b := elem x t j
    let new (op : Nat) := elem (atomNew (.atom op t) old x y) t j
    new 0 = (o + b) % 2 ^ typeWidth t ∧ readElem t (new 1) = min (readElem t o) (readElem t b) ∧
    readElem t (new 2) = max (readElem t o) (readElem t b) ∧ new 3 = o &&& b ∧ new 4 = o ||| b ∧ new 5 = o ^^^ b ∧ new 6 = b ∧
    elem (atomNew (.cas t) old x y) t j = if o = b then elem y t j else o)

/-- A refused ldfe lane is sent again; a counted operation all of whose accesses have returned leaves its counter; an
open slot starts the oldest packet of the channel, of an item's access, an engine, a unit, a walk or a fetch alike, a
named one the oldest of its context and partition, or where it has none and donates the oldest of all, each with a tag
of 4096 at its base die; a started packet, an arriving write, and a host-memory access act at their location; a reply
delivers its result to the lane, after those that left for its die earlier; a peer's acknowledgement ends its access; a
host write stores its bytes in device memory, and a host read records those of device memory, the lens table, a
host-link window or an entry of the event log. The model's choices: a peer's bytes (log 16), the collapse of pages
before a host write (log 82), the packets of units (log 85), and that windows and the event log are read by the host
alone (log 104). (R46, R226, R228, R244, R246, R247, R334, R341, R380, R381, R383, R385) -/
def Obligations.AccessSteps : Prop :=
  ∀ (s : State) (a : Access) (d : Die),
    (exec (.ldfeResend a.id) s = .next { s with
      accs := s.accs.map fun b => if b.id = a.id ∧ b.phase = .refused then { b with phase := .atBank, queued := 0 } else b }) ∧
    (∀ o : CountedOp, Sole (fun p => p.id == o.id) s.ops o → o.ready = true → o.engine = false → o.ctr ≠ 9 → o.poisoned = 0 →
      (∀ b ∈ s.accs, b.op ≠ o.id) → exec (.countedOpComplete o.id) s = .next { s with ops := s.ops.filter fun p => p.id ≠ o.id }) ∧
    (∀ ch slot, s.die? d.num = some d →
      let own := d.slotOwner ch (slot % 64)
      let sr := AMap.getD d.shares own {}
      let named : Prop := own < 4 ∧ sr.valid = true
      let ps := s.packets d.num ch
      let mine (p : Packet) : Prop := p.ctx = sr.ctx ∧ p.part = sr.part
      (∀ p ∈ ps, (¬named ∨ sr.don = true ∧ ∀ q ∈ ps, ¬mine q) → (∀ q ∈ ps, q = p ∨ p.id < q.id) →
        exec (.channelSlot d.num ch slot) s = .next (s.startPacket p)) ∧
      (∀ p ∈ ps, named → mine p → (∀ q ∈ ps, mine q → q = p ∨ p.id < q.id) →
        exec (.channelSlot d.num ch slot) s = .next (s.startPacket p)) ∧
      (named → sr.don = false → (∀ q ∈ ps, ¬mine q) → exec (.channelSlot d.num ch slot) s = .next s)) ∧
    (a ∈ s.accs → a.started = false →
      (a.phase = .toHbm ∧ a.tag < noTag ∨ a.phase = .remoteWrite ∧ isDevice a.loc = true ∧ s.freeTag a.home < noTag) →
      { unit := false, id := a.id, kind := a.packet, ctx := a.ctx, part := a.part } ∈ s.packets a.home (hbmChannel a.loc)) ∧
    (∀ r ∈ s.reqs, isDevice r.loc = true → r.started = false → r.done = false → s.freeTag r.home < noTag →
      (r.die = r.home ∨ s.stalledPair r.die r.home = false) →
      { unit := true, id := r.id, kind := if r.write then 2 else 0, ctx := r.ctx, part := r.part } ∈ s.packets r.home (hbmChannel r.loc)) ∧
    (a.phase = .toHbm → (∀ b ∈ s.accs, b.id = a.id → b = a) → a.tag < noTag → ∀ p : Packet, p.unit = false → p.id = a.id →
      s.startPacket p = { s with accs := s.accs.map fun b => if b.id = a.id then { b with started := true } else b }) ∧
    (∀ r : UnitReq, Sole (fun q => q.id == r.id) s.reqs r → ∀ p : Packet, p.unit = true → p.id = r.id →
      s.startPacket p = { s with reqs := s.reqs.map fun q => if q.id = r.id then { q with started := true, tag := s.freeTag r.home } else q }) ∧
    (∀ die, s.freeTag die ≤ 4096 ∧ (s.freeTag die < 4096 → s.freeTag die ∉ s.tags die)) ∧
    (Sole (fun b => b.phase == .toHbm && b.home == a.home && b.tag == a.tag && b.started) s.accs a → s.mayAct a →
      exec (.hbmPacket a.home a.tag) s = .next ((s.arrive a).actAny a)) ∧
    (∀ r : UnitReq, (∀ b ∈ s.accs, (b.phase == .toHbm && b.home == r.home && b.tag == r.tag && b.started) = false) →
      Sole (fun q => isDevice q.loc && q.home == r.home && q.tag == r.tag && q.started && !q.done) s.reqs r →
      (∀ g pc, r.owner ≠ .fetch g pc) → exec (.hbmPacket r.home r.tag) s =
        .next { s with reqs := s.reqs.map fun q => if q.id = r.id then { q with done := true } else q }) ∧
    (Sole (fun b => b.phase == .hbmDone && b.home == a.home && b.tag == a.tag) s.accs a → a.bad = false → a.die = a.home →
      s.relocking a.home = false → exec (.hbmReply a.home a.tag) s = .next ((s.writeResult a a.result).dropAcc a.id)) ∧
    (Sole (fun b => b.id == a.id && b.phase == .remoteWrite) s.accs a → a.die ≠ a.home → s.mayAct a →
      (isStoreLoc a.loc = true → s.quarterOn a.loc = true) → (isDevice a.loc = true → a.started = true) → s.relocking a.home = false →
      exec (.remoteWriteApply a.id) s = .next ((s.arrive a).actAny { a with home := a.die })) ∧
    (a.die ≠ a.home → a.kind.writes = true → 0 < a.seqNo →
      s.arrive a = (s.itemFlit a.die a.home (AMap.getD a.clock a.die 0) a.data.toNat).raiseClock a.home (AMap.set a.clock a.die a.seqNo)) ∧
    (Sole (fun b => b.id == a.id && b.phase == .remoteReply) s.accs a → a.bad = false → s.stalledPair a.home a.die = false →
      s.relocking a.die = false → s.replyHeld a = false →
      exec (.remoteReadReply a.id) s = .next (((s.raiseClock a.die a.clock).writeResult a a.result).dropAcc a.id)) ∧
    (Sole (fun b => b.id == a.id && b.phase == .toHost) s.accs a → s.mustFollow a = false → s.linkHeld a.die a.loc 0 = false →
      s.relocking a.die = false → exec (.hostLinkReply a.id) s = .next (s.actAny { a with home := a.die })) ∧
    (∀ n, Sole (fun b => b.id == a.id) s.accs a → a.phase = .toPeer n → s.linkHeld a.die a.loc (n + 1) = false → s.relocking a.die = false →
      ∃ t, exec (.peerAcknowledgement a.id) s = .next t ∧ t.mem = s.mem ∧ (∀ b, b ∈ t.accs ↔ b ∈ s.accs ∧ b.id ≠ a.id)) ∧
    (∀ pa n (w : BitVec 64), paHost pa = false → paOk pa = true → n ∈ [1, 2, 4, 8] → pa % n = 0 → (s.die? (paDie pa)).isSome = true →
      s.memOk = true →
      exec (.hostMemoryAccess { write := false, pa := pa, size := n, data := w }) s =
        .next { s with pkg := { s.pkg with hostReads := s.pkg.hostReads ++ [BitVec.ofNat 64 (Memory.readN s.mem pa n)] } } ∧
      (s.collapsing pa = false → s.copyRead pa = false →
        ∃ m, exec (.hostMemoryAccess { write := true, pa := pa, size := n, data := w }) s = .next { s.collapseHome pa with mem := m } ∧
          ∀ x, Memory.read m x = stored s pa n w.toNat x)) ∧
    (∀ off n, n ∈ [1, 2, 4, 8] → off % n = 0 →
      let reads (space : HostSpace) (x : Nat) : Prop := exec (.hostMemoryAccess { write := false, pa := off, size := n, data := 0, space := space }) s =
        .next { s with pkg := { s.pkg with hostReads := s.pkg.hostReads ++ [BitVec.ofNat 64 x] } }
      (off < 65536 → s.pkg.boot = 3 ∨ s.pkg.boot = 4 → reads .lens (Memory.readN s.mem (lensLoc + off) n)) ∧
      (∀ w k, AMap.get? s.pkg.windows k = some w → k < 32 → off + n ≤ 16 → reads (.window k)
        ((w.limit % 2 ^ 32 * 2 ^ 96 + w.base % 2 ^ 32 * 2 ^ 64 + w.ctx % 2 ^ 16 * 2 ^ 48 + w.tgt % 16 * 2 ^ 8 + (if w.w then 2 else 0) +
          (if w.valid then 1 else 0)) / 256 ^ off % 256 ^ n)) ∧
      (∀ x, 3 ≤ s.pkg.boot → s.pkg.scanouts[off]? = some x →
        exec (.hostMemoryAccess { write := false, pa := off, size := n, data := 0, space := .eventLog }) s =
          .next { s with pkg := { s.pkg with hostLogs := s.pkg.hostLogs ++ [x] } }))

/-! ### Tensors and the matrix engine (spec 01, 07) -/

/-- tdef writes the 64-byte image at its address into the entry TID where the image's status is 0, and gives the status
in its scalar register; tinv clears VALID of the entry and leaves its other bits; tget gives each executing lane the
64-bit slice W of the entry its source names, valid or not. tlbp asks for a walk where none holds what its address
translates to, and otherwise gives its scalar register the probe's word of the address and changes nothing else; with
fill a translation found is installed in the cluster's and die's TLBs. What it gives for the lens table's page is the
model's choice (log 13). (R207, R208, R209, R271, R253, R27) -/
def Obligations.TensorForms : Prop :=
  (∀ (h : Head) (f : FTdef) (s : State) (g : Group) (e : Entry) (loc : Nat),
    let i := Instr.tdef h f
    let img := Memory.readN s.mem loc 64
    AtIssue i s g e → Only g e → (s.groupContext? g).isSome = true → BlockAt s g (g.getS f.sa.toNat).toNat 64 loc →
    ∃ s', Ends i s g e s' (g.setS f.sd.toNat (BitVec.ofNat 64 (tdefStatus img))) ∧
      EntriesAre s s' fun c t => if tdefStatus img = 0 ∧ c = s.groupCtx g ∧ t = f.tid.toNat then img else s.ent c t) ∧
  (∀ (h : Head) (f : FTinv) (s : State) (g : Group) (e : Entry),
    let i := Instr.tinv h f
    AtIssue i s g e → Only g e → ∃ s', Ends i s g e s' g ∧ EntriesAre s s' s'.ent ∧
      (∀ k, (s'.ent (s.groupCtx g) f.tid.toNat).testBit k = (decide (k ≠ 63) && (s.ent (s.groupCtx g) f.tid.toNat).testBit k)) ∧
      ∀ c t, c ≠ s.groupCtx g ∨ t ≠ f.tid.toNat → s'.ent c t = s.ent c t) ∧
  (∀ (h : Head) (f : FTget) (s : State) (g : Group) (e : Entry),
    let i := Instr.tget h f
    AtIssue i s g e → Only g e → Mappable i s g e f.d.toNat → GivesVector i s g e f.d.toNat fun l =>
      if (Iss.mk' s g e i).ex.has l = true then
        some (BitVec.ofNat 64 (s.ent (s.groupCtx g) ((readSrc g l [] 0 f.a).toNat % 256) / 2 ^ (64 * f.w.toNat) % 2 ^ 64))
      else none) ∧
  (∀ (h : Head) (f : FTlbp) (ff : FTlbpF) (s : State) (g : Group) (e : Entry) (i : Instr) (va : Nat) (sd : BitVec 4),
    (i, va, sd) ∈ [(Instr.tlbp h f, (g.getS f.sa.toNat).toNat % 2 ^ 56, f.sd),
      (Instr.tlbpFill h ff, (g.getS ff.sa.toNat).toNat % 2 ^ 56, ff.sd)] → AtIssue i s g e → Only g e →
    (s.probeWord g va = none → exec i s = .next (s.requestWalk g.die g.cluster (s.groupCtx g) va (s.groupPart g) false)) ∧
    (∀ w, s.probeWord g va = some w →
      let s1 := s.consumeWalks g.die g.cluster (s.groupCtx g)
      let g1 := g.setS sd.toNat (BitVec.ofNat 64 w)
      (i = Instr.tlbp h f ∨ w < 2 ^ 63 → Ends i s g e s1 g1) ∧
      (∀ level pte pa, i = Instr.tlbpFill h ff → s.probe g va = some (.ok (level, pte, pa)) → winOf va = .translated → 2 ^ 63 ≤ w →
        w < 2 ^ 64 → ∃ s', Ends i s g e s' g1 ∧
          s' = { s.installTlb g.die g.cluster (leafEntry (s.groupCtx g) va level pte) with walks := s1.walks }))) ∧
  (∀ (s : State) (g : Group) (va : Nat),
    (winOf va ≠ .translated → s.probeWord g va = some (7 * 2 ^ 60)) ∧
    (winOf va = .translated → (∀ c, s.groupContext? g = some c → c.lens = 0 ∨ va / 65536 ≠ c.lens / 65536) →
      (s.held g.die g.cluster (s.groupCtx g) va = none → s.probeWord g va = none) ∧
      (∀ c, s.probe g va = some (.error c) → s.probeWord g va = some (c * 2 ^ 60)) ∧
      ∀ level pte pa, s.probe g va = some (.ok (level, pte, pa)) → level ≤ 4 →
        s.probeWord g va = some (2 ^ 63 + (4 - level) * 2 ^ 58 + pte / 16 % 4 * 2 ^ 56 + pte / 4 % 2 * 2 ^ 55 +
          (if pte / 16 % 4 = 2 ∧ s.replicated pte = true then 2 ^ 54 else 0) + pa % 2 ^ 52)))

/-- In a gang whose bound set's tag it holds and whose group's matrix queue has room, mzero, mload and mstore queue
one operation with the next stamp, the moves once the items' earlier accesses are performed; mma with valid
descriptors lets its lowest lane left sign the convergence register once that lane's earlier accesses are performed,
and queues the tile operation where the count is complete; the sequence ends with its last lane, and holds its pipe
until then. An invalid descriptor takes class 6 with the identifier before any lane signs. Without a set for it the
entry parks; a claimed tag takes class 13. mwait completes or parks; cvset sets CM1 and clears the register; savept
replaces the live mask in save-point mode only. (R193, R196, R202, R205, R210, R211, R212, R213, R214, R215, R52) -/
def Obligations.MatrixForms : Prop :=
  (∀ (h : Head) (f : FK16) (s : State) (g : Group) (e : Entry) (ga : Gang) (n : Nat),
    let i := Instr.mzero h f
    AtIssue i s g e → Only g e → g.matq.length < 4 → HoldsSet s g ga n →
    Ends i s g e s { g with matq := g.matq ++ [{ stamp := s.next, mask := f.mask, kind := .zero }] }) ∧
  (∀ (h : Head) (f : FMl) (s : State) (g : Group) (e : Entry) (ga : Gang) (n : Nat),
    let d := g.getS f.sa.toNat
    let t := s.ent (s.groupCtx g) (d.toNat / 2 ^ 56 % 256)
    let good : Prop := d.toNat / 2 ^ 52 % 16 = 0 ∧ t.testBit 63 = true ∧ Ent.matLoc t g = true ∧ Ent.fmt t = 2
    let queues (i : Instr) (k : MatKind) : Prop := AtIssue i s g e → Only g e → g.matq.length < 4 → HoldsSet s g ga n →
      s.orderHolds g (Iss.mk' s g e i).act true = false →
      (good → Ends i s g e s { g with matq := g.matq ++
        [{ stamp := s.next, mask := BitVec.ofNat 16 (2 ^ f.mt.toNat), kind := k, ta := BitVec.ofNat 512 t }] }) ∧
      (¬good → Traps i s g e 6 0 (d.toNat / 2 ^ 56 % 256) (Iss.mk' s g e i).act)
    queues (.mload h f) (.load d) ∧ queues (.mstore h f) (.store d)) ∧
  (∀ (h : Head) (f : FMma) (s : State) (g : Group) (e : Entry) (ga : Gang) (n : Nat) (i : Instr) (w : Nat),
    (i, w) ∈ [(Instr.mmaW16 h f, 16), (.mmaW8 h f, 8), (.mmaW6 h f, 6), (.mmaW4 h f, 4)] → AtIssue i s g e → Only g e →
    HoldsSet s g ga n →
    let ex := (Iss.mk' s g e i).ex
    let r := ga.cvAt f.cv.toNat
    let fault (l : Nat) := s.descFault g (s.groupCtx g) w (g.getV f.va.toNat l) (g.getV f.vb.toNat l)
    let signed (x : CvReg) : Gang := { ga with cv := AMap.set ga.cv f.cv.toNat x }
    let goesOn (s' : State) (g0 : Group) (left : Mask) : Prop := ∃ t g' x, exec i s = .next t ∧ t.group? g.id = some g' ∧
      OnlyGroup s' t g.id ∧ SamePlace g0 g' ∧ SameRegisters g0 g' ∧ x ∈ g'.front ∧
      x = { e with yielded := x.yielded, restart := some left, mid := true }
    ((∀ l, ex.has l = true → fault l = none) →
      (ex.toList = [] → Ends i s g e s g) ∧
      (∀ l ls, ex.toList = l :: ls → r.hold = none ∨ r.hold = some g.id → s.orderHolds g (Mask.one l) true = false →
        let done (s' : State) (g0 : Group) : Prop :=
          (ls = [] → Ends i s g e s' g0) ∧ (ls ≠ [] → goesOn s' g0 (ex &&& ~~~Mask.one l))
        (r.sig < r.cm1 → ∃ s', GangBecomes s s' (signed { r with sig := r.sig + 1, last := g.index }) ∧ done s' g) ∧
        (r.cm1 ≤ r.sig → g.matq.length < 4 → ∃ s', GangBecomes s s' (signed { r with sig := 0, last := g.index, hold := none }) ∧
          done s' { g with matq := g.matq ++
            [s.tileOp (s.groupCtx g) w f.mt.toNat (g.getV f.va.toNat l) (g.getV f.vb.toNat l)] }) ∧
        (r.cm1 ≤ r.sig → 4 ≤ g.matq.length → ∃ s', GangBecomes s s' (signed { r with hold := some g.id }) ∧ goesOn s' g ex))) ∧
    (∀ l t, e.mid = false → ex.has l = true → fault l = some t → (∀ m, m < l → ex.has m = true → fault m = none) →
      Traps i s g e 6 0 t (Mask.ofPred fun m => ex.has m && (fault m).isSome))) ∧
  (∀ (i : Instr) (s : State) (g : Group) (e : Entry) (ga : Gang), AtIssue i s g e → g.matq.length < 4 →
    (∃ h f, i = .mzero h f) ∨ (∃ h f, i = .mload h f ∨ i = .mstore h f) ∧ s.orderHolds g (Iss.mk' s g e i).act true = false →
    s.gang? g.gang = some ga →
    (∀ n c, ga.tset = some n → s.claim ga (s.groupCtx g) n = .trap c → Traps i s g e 13 c 0 (Iss.mk' s g e i).act) ∧
    (ga.tset = none → s.setFor ga (g.tileWait.getD s.next) = none → Parks i s g e s { g with tileWait := some (g.tileWait.getD s.next) } .tileSet)) ∧
  (∀ (h : Head) (f : FK16) (fc : FCvset) (s : State) (g : Group) (e : Entry) (ga : Gang), Only g e → s.gang? g.gang = some ga →
    (AtIssue (.mwait h f) s g e →
      ((∀ x ∈ s.groups, x.gang = g.gang → ∀ o ∈ x.matq, o.mask &&& f.mask = 0) → Ends (.mwait h f) s g e s g) ∧
      ((∃ x ∈ s.groups, x.gang = g.gang ∧ ∃ o ∈ x.matq, o.mask &&& f.mask ≠ 0) → Parks (.mwait h f) s g e s g (.mwait f.mask))) ∧
    (AtIssue (.cvset h fc) s g e → (ga.cvAt fc.cv.toNat).hold = none →
      ∃ s', GangBecomes s s' { ga with cv := AMap.set ga.cv fc.cv.toNat { cm1 := fc.cm1.toNat } } ∧ Ends (.cvset h fc) s g e s' g) ∧
    (AtIssue (.savept h f) s g e → ∀ c, s.groupContext? g = some c →
      (c.savem = false → Ends (.savept h f) s g e s g) ∧
      (c.savem = true → ∃ s', GangBecomes s s' { ga with live := f.mask } ∧ Ends (.savept h f) s g e s' g)))

/-- The free engine of an awake cluster starts the eligible head of its only waiting queue. When an operation
completes it leaves its queue and the engine is free; mzero leaves every element of its named tiles +0.0, a load
leaves the elements read, and a tile operation the accumulated products of the elements read, with HELD set, and for
the last two every byte outside the tile as before; a store leaves each element of its tile in the four bytes that its
coordinates name, where no other element of it goes there, and no other byte changes. An engine whose die relocks, or
whose requests the banks and base dies have not all performed, does not complete one. A write of an idle tile's data
window stores its four bytes, one of a busy tile is dropped. A free set goes to the gang of the group that has waited
longest, none of whose groups waits any more. What an engine asks for is the model's reading (logs 85 and 86). (R52,
R187, R189, R197, R198, R200, R201, R210, R211) -/
def Obligations.MatrixSteps : Prop :=
  (∀ (s : State) (die cl : Nat) (g : Group) (ga : Gang) (n : Nat) (o : MatOp) (rest : List MatOp),
    let c := s.cluster die cl
    c.running = none → c.power = .awake → s.relocking die = false → g ∈ s.residents die cl → g.matq = o :: rest →
    (∀ x ∈ s.residents die cl, x.matq ≠ [] → x = g) → g.core < 4 → g.slot < 32 → s.gang? g.gang = some ga → ga.tset = some n →
    s.eligible die cl o n = true → ga.preempting = false → ga.restoredOps = false →
    exec (.matrixEngineStart die cl) s =
      .next (s.updCluster die cl fun c => { c with running := some (g.id, o), lastSlot := 32 * g.core + g.slot })) ∧
  (∀ (s : State) (die cl : Nat) (g : Group) (ga : Gang) (n : Nat) (o : MatOp),
    let ctx := s.groupCtx g
    let q : Asker := { owner := .matrix o.stamp, die := die, cluster := cl, port := 4, ctx := ctx, part := s.groupPart g }
    (s.relocking die = true → exec (.matrixOpComplete die cl) s = .next s) ∧
    (s.relocking die = false → (s.cluster die cl).running = some (g.id, o) → s.group? g.id = some g →
    s.gang? g.gang = some ga → ga.tset = some n → ∀ s1,
    (s.gate q (s.matNeed ga ctx o) = (s1, false) → exec (.matrixOpComplete die cl) s = .next s1) ∧
    (s.memOk = true → n < 4 → ga.die = die → ga.cluster = cl → die < 64 → cl < 32 → s.gate q (s.matNeed ga ctx o) = (s1, true) →
    s1 = { s with walks := s1.walks, reqs := s1.reqs, dies := s1.dies } ∧ ∃ t g', exec (.matrixOpComplete die cl) s = .next t ∧ t.group? g.id = some g' ∧ (t.cluster die cl).running = none ∧
      g'.matq = g.matq.filter (fun x => x.stamp ≠ o.stamp) ∧
      (let tile (k : Nat) : Prop := ∀ a, (∀ b, b < 16384 → a ≠ tileLoc die cl (16384 * (16 * n + k)) + b) →
         Memory.read t.mem a = Memory.read s.mem a
       let elems (k : Nat) (v : Nat → Nat → Nat) : Prop :=
         (AMap.getD (t.cluster die cl).tags n {}).held.getLsbD k = true ∧
         ∀ r c, r < 64 → c < 64 → t.tileRead die cl n k r c = v r c % 2 ^ 32
       (o.kind = .zero → ∀ k, k < 16 → o.mask.getLsbD k = true → elems k fun _ _ => 0) ∧
       (∀ k d, k < 16 → o.mask = BitVec.ofNat 16 (2 ^ k) → o.kind = .load d →
         let rs := s1.operand ga ctx o.ta.toNat d 64
         firstFail rs.flatten = none → elems k (fun r c => ((rs.getD r []).getD c (.val 0)).get) ∧ tile k) ∧
       (∀ k d, k < 16 → o.mask = BitVec.ofNat 16 (2 ^ k) → o.kind = .store d →
         let e : Ent := o.ta.toNat
         let goes (r c loc : Nat) : Prop :=
           let p := (descC0 d + c, descC1 d + r, 0, 0)
           r < 64 ∧ c < 64 ∧ e.inside p = true ∧ s1.tensorByte ga ctx e p.2.1 (e.bitAddr p / 8) .write = .at loc 0
         (∀ r c, r < 64 → c < 64 → let p := (descC0 d + c, descC1 d + r, 0, 0)
           e.inside p = true → ∃ loc tgt, s1.tensorByte ga ctx e p.2.1 (e.bitAddr p / 8) .write = .at loc tgt) →
         (∀ x, (∀ r c loc, goes r c loc → x < loc ∨ loc + 4 ≤ x) → Memory.read t.mem x = Memory.read s.mem x) ∧
         ∀ r c loc, goes r c loc → (∀ r' c' l, goes r' c' l → (r' = r ∧ c' = c) ∨ l + 4 ≤ loc ∨ loc + 4 ≤ l) →
           t.rd loc 4 = s.tileRead die cl n k r c) ∧
       ∀ k w a b, k < 16 → o.mask = BitVec.ofNat 16 (2 ^ k) → o.kind = .tile w a b →
         let ea : Nat := o.ta.toNat
         let eb : Nat := o.tb.toNat
         let ra := s1.operand ga ctx ea a (formK w)
         let rb := s1.operand ga ctx eb b (formK w)
         let val (fmt : Nat) (rs : List (List ERead)) (r j : Nat) := ((rs.map (·.map fun x => operandVal fmt x.get)).getD r []).getD j (.nan false)
         firstFail (ra.flatten ++ rb.flatten) = none →
         elems k (fun r c => tileElem w (Ent.fmt ea == 0x0B) (Ent.sv ea) (s.tileRead die cl n k r c) (val (Ent.fmt ea) ra r)
           (val (Ent.fmt eb) rb c) (fun q => s.scaleAt ga n ea o.sa.toNat a r q) (fun q => s.scaleAt ga n eb o.sb.toNat b c q)) ∧
         tile k)))) ∧
  (∀ (s : State) (die cl off : Nat) (v : BitVec 32), s.memOk = true → off % 4 = 0 → off < 2 ^ 20 → (s.die? die).isSome = true →
    (s.tileBusy die cl (off / 16384) = true → exec (.tileWindowWrite die cl off v) s = .next s) ∧
    (s.tileBusy die cl (off / 16384) = false → ∃ m, exec (.tileWindowWrite die cl off v) s = .next { s with mem := m } ∧
      ∀ x, Memory.read m x = stored s (tileLoc die cl off) 4 v.toNat x)) ∧
  (∀ (s : State) (die cl n t : Nat) (g : Group) (ga : Gang), g ∈ s.residents die cl → g.tileWait = some t →
    (∀ x ∈ s.residents die cl, ∀ y, x.tileWait = some y → x = g ∨ t < y) → s.gang? g.gang = some ga →
    s.freeSets die cl ≠ [] → s.pickSet ga = some n → ga.savedScale = [] → ga.savePoint = false → ga.restoredOps = false →
    ∃ u, exec (.tileSetBind die cl) s = .next u ∧ u = { s with gangs := u.gangs, groups := u.groups } ∧
      u.gang? ga.id = some { ga with tset := some n } ∧ (∀ k, k ≠ ga.id → u.gang? k = s.gang? k) ∧
      ∀ k, u.group? k = (s.group? k).map fun x => if x.gang = ga.id then { x with tileWait := none } else x)

/-! ### Engines, streams and collectives (spec 09, 11) -/

/-- With room in the engine queue and on the counter, and the lanes' earlier accesses performed, copy and coll with a
valid block, cflag with a flag in a store window and pattr of an address that translates each queue one command with
what they read at issue, and complete; an invalid block takes class 6 with the identifier. gres closes its guard slot
as true where its source is not 0 and as false where it is; gres.open opens it; a held head that names the slot is
judged at once. The order of INFO in a faulty block and channel 0 for coll and pattr are the model's readings (logs 19
and 53). (R256, R257, R258, R264, R265, R269, R270, R272, R317, R27) -/
def Obligations.EngineForms : Prop :=
  (∀ (h : Head) (f : FCopy) (s : State) (g : Group) (e : Entry) (loc : Nat),
    let i := Instr.copy h f
    let ctx := s.groupCtx g
    let b := Memory.readN s.mem loc 64
    let d := s.ent ctx (cbDtid b)
    AtIssue i s g e → Only g e → MayQueue i s g e f.cc.toNat → BlockAt s g (g.getS f.sa.toNat).toNat 64 loc →
    (s.copyFault ctx b = none → (cbKind b = 2 → ∃ ga n, s.gang? g.gang = some ga ∧ ga.tset = some n) →
      Queues i s g e f.cc.toNat f.ch.toNat (engScope h.hints)
        (.copy (BitVec.ofNat 512 b) (BitVec.ofNat 512 (if cbKind b = 3 then 0 else s.ent ctx (cbStid b))) (BitVec.ofNat 512 d)
          (BitVec.ofNat 512 (s.ent ctx (Ent.scalet d))))) ∧
    (∀ t, s.copyFault ctx b = some t → ∃ (a : TrapArgs) (s' : State), a.cls = 6 ∧ a.info = t ∧ a.tmask = (Iss.mk' s g e i).act ∧
      BlockRead s s' ∧ exec i s = .next (s'.takeTrap g e a))) ∧
  (∀ (h : Head) (f : FPattr0) (s : State) (g : Group) (e : Entry) (loc : Nat),
    let i := Instr.coll h f
    let ctx := s.groupCtx g
    let b := Memory.readN s.mem loc 64
    AtIssue i s g e → Only g e → MayQueue i s g e f.cc.toNat → BlockAt s g (g.getS f.sa.toNat).toNat 64 loc →
    s.collFault g ctx b = none → Queues i s g e f.cc.toNat 0 5
      (.coll (BitVec.ofNat 512 b) (BitVec.ofNat 512 (s.ent ctx (colStid b))) (BitVec.ofNat 512 (s.ent ctx (colDtid b))))) ∧
  (∀ (h : Head) (f : FCflag) (s : State) (g : Group) (e : Entry),
    let i := Instr.cflag h f
    let ea := (g.getS f.sa.toNat).toNat % 2 ^ 56
    AtIssue i s g e → Only g e → MayQueue i s g e f.cc.toNat → (∃ loc t r, s.flagPlan g ea = .go ea loc t r) →
    Queues i s g e f.cc.toNat f.ch.toNat (engScope h.hints) (.cflag ea (g.getS f.sv.toNat))) ∧
  (∀ (h : Head) (f : FPattr0) (f1 : FPattr1) (f2 : FPattr2) (s : State) (g : Group) (e : Entry),
    let queues (i : Instr) (cc : BitVec 2) (sa : BitVec 4) (op : Nat) : Prop :=
      let ea := (g.getS sa.toNat).toNat % 2 ^ 56
      AtIssue i s g e → Only g e → MayQueue i s g e cc.toNat → winOf ea = .translated →
      (∃ pa t, s.xlate g.die g.cluster (s.groupCtx g) ea .read = .ok pa t) → Queues i s g e cc.toNat 0 6 (.pattr op ea)
    queues (.pattrReplicate h f) f.cc f.sa 0 ∧ queues (.pattrCollapse h f1) f1.cc f1.sa 1 ∧ queues (.pattrFlush h f2) f2.cc f2.sa 2) ∧
  (∀ (h : Head) (f : FGres) (fo : FGresO) (s : State) (g : Group) (e : Entry),
    let sets (i : Instr) (n : Nat) (v : Slot) : Prop := AtIssue i s g e → Only g e → ∃ g0, Ends i s g e s g0 ∧
      g0 = { g with gslots := g0.gslots, engq := g0.engq } ∧
      (∀ k, AMap.get? g0.gslots k = if k = n then some v else AMap.get? g.gslots k) ∧
      (∀ c t, g.engq = c :: t → c.verdict = none → c.guard = some n →
        g0.engq = { c with verdict := match v with | .opened => none | .isTrue => some true | .isFalse => some false } :: t)
    let x := readSrc g (((Iss.mk' s g e (.gres h f)).act.toList.head?).getD 0) [] 0 f.a
    (x ≠ 0 → sets (.gres h f) f.slot.toNat .isTrue) ∧ (x = 0 → sets (.gres h f) f.slot.toNat .isFalse) ∧
    sets (.gresOpen h fo) fo.slot.toNat .opened)

/-- A channel that no full link stalls starts the next judged head where it has room, and drops one judged false. A
link grants its lowest free tag to the oldest request; a stream with a tag on every link opens and then sends the
quarters of its die's clock that are due; a data flit applies the next 64-byte payload at the destination, a flag flit
the first flag once it may be applied, and each carries the die's clock; a stream closes when nothing is left, an idle
item stream after a whole heartbeat. A command whose streams have closed moves its own elements, leaves, and its
counter falls. A collective is taken and waits until it is matched; one that has started writes its results and
leaves. A die drops its translations and lines of a page being collapsed, then acknowledges. An element's move copies
its bytes and no other. Each step takes effect where nothing holds its accesses back: a relocking die, a failed port
or route, a waking quarter, a page to collapse. The model's choices: what carries a flag and what it waits for (logs
18 and 80), packets of a command (log 85), and the queues of the banks (log 86). (R252, R257, R258, R260, R261, R262,
R267, R270, R318, R320, R334) -/
def Obligations.EngineSteps : Prop :=
  (∀ (s : State) (die ch slot : Nat) (g : Group) (c : Cmd), s.relocking die = false →
    s.channelStalled die ch = false → s.nextHead die ch = some (g, c, slot) → s.group? g.id = some g →
    (∀ s1, c.verdict = some false → s.cmdGate c die = (s1, true) →
      exec (.copyStart die ch) s = .next ((s1.updGroup g.id Group.popHead).discardCmd c die)) ∧
    (∀ s1, c.verdict = some true → (s.active.filter fun a => a.die == die && a.cmd.ch == ch).length < 8 →
      s.gate (c.asker die (.copy c.id)) { vas := s.cmdVas c } = (s1, true) →
      ∃ t a, exec (.copyStart die ch) s = .next t ∧ t.active = s.active ++ [a] ∧ a.cmd = c ∧ a.die = die ∧ t.mem = s.mem ∧
        t.group? g.id = some g.popHead)) ∧
  (∀ (s : State) (src dst : Nat) (st : Stream) (rest : List (Nat × Nat)),
    let l := linkTo src dst
    st ∈ s.streams → st.links = l :: rest → (∀ x ∈ s.streams, x.links.head? = some l → x = st ∨ st.since < x.since) →
    (s.tagsOn l).length < 256 →
    ∃ t, t < 256 ∧ t ∉ s.tagsOn l ∧ (∀ k, k < t → k ∈ s.tagsOn l) ∧
      exec (.streamTagGrant src dst) s = .next { s with
        next := s.next + 1
        streams := s.streams.map fun x =>
          if x.id = st.id then { x with links := x.links.drop 1, tags := x.tags ++ [(l.1, l.2, t)], since := s.next } else x }) ∧
  (∀ (s : State) (x : Stream), Sole (fun y => y.id == x.id) s.streams x →
    (x.links = [] → x.closing = false → s.stalledPair x.src x.dst = false →
      (x.opened = false → exec (.openFlit x.id) s = .next (s.updStream x.id fun y =>
        { y with opened := true, due := List.range 4
                 sent := some { headers := y.tags.map fun t => flitHeader 0 0xFFFF 0 t.2.2, body := .addresses (s.opening y) } })) ∧
      (∀ a b se de sc, s.streamCmd x = some a → a.cmd.kind = .copy b se de sc → s.opening x = some { src := se, dst := de, blk := b }) ∧
      ∀ q, x.opened = true → s.dueQuarter x = some q →
        exec (.openFlit x.id) s = .next (s.updStream x.id fun y => s.sendQuarter y q)) ∧
    (∀ a s1 s2, s.streamCmd x = some a → x.elems ≠ [] →
      let es := x.payload
      let s' := s1.updStream x.id fun y =>
        { y with
          elems := y.elems.drop es.length, beat := (y.beat + 1) % 65536
          sent := some {
            headers := x.tags.map fun t => flitHeader (clkField x.src (s1.nextSeq x.src a.cmd.scope)) x.beat 1 t.2.2
            body := .data (es.map s1.elemValue) } }
      s.flitReady x a.cmd.scope = true → s.elemsGate (a.payer x) es = (s1, true) →
      (s'.moveAll a.cmd.ctx es = (s2, none) → exec (.dataFlit x.id) s = .next (s2.carryClock x.src x.dst a.cmd.scope)) ∧
      ∀ f, s'.moveAll a.cmd.ctx es = (s2, some f) →
        exec (.dataFlit x.id) s = .next ((s2.carryClock x.src x.dst a.cmd.scope).failCmd x.cmd f)) ∧
    (∀ e rest, x.elems = e :: rest → 0 < e.bits → e.bits ≤ 512 → x.payload = x.elems.take (512 / e.bits)) ∧
    (∀ a ea v rest s1, x.flags = a.cmd.id :: rest → Sole (fun b => b.cmd.id == a.cmd.id) s.active a → a.cmd.kind = .cflag ea v →
      x.elems = [] → s.flagHeld a = false → s.flitReady x a.cmd.scope = true →
      s.gate (a.payer x) { writes := (s.flagLoc a.cmd ea).toList } = (s1, true) →
      exec (.flagFlit x.id) s =
        .next (((s1.flitSent x a.cmd.scope 2 (.flag ea v) fun y => { y with flags := y.flags.drop 1 }).putFlag a ea v).carryClock
          x.src x.dst a.cmd.scope)) ∧
    (s.stalledPair x.src x.dst = false →
      (x.cmd ≠ 0 → x.opened = true → x.elems = [] → x.flags = [] → x.closing = false →
        exec (.closeFlit x.id) s = .next (s.updStream x.id fun y =>
          { y with closing := true, sent := some { headers := y.tags.map fun t => flitHeader 0 y.beat 3 t.2.2, body := .close } })) ∧
      (x.closing = true → 1 < x.tags.length →
        exec (.closeFlit x.id) s = .next (s.updStream x.id fun y => { y with tags := y.tags.drop 1 })) ∧
      (x.closing = true → x.tags.length ≤ 1 →
        exec (.closeFlit x.id) s = .next { s with streams := s.streams.filter fun y => y.id ≠ x.id }))) ∧
  (∀ (s : State) (x : Stream), Sole (fun y => y.forItems x.src x.dst) s.streams x → x.opened = true →
    (x.idle / 2048 + 2) * 2048 ≤ s.gtime → s.itemWritesOpen x.src x.dst = false → s.stalledPair x.src x.dst = false →
      exec (.itemStreamClose x.src x.dst) s = .next (s.updStream x.id Stream.close)) ∧
  (∀ (s : State) (a : Active), Sole (fun b => b.cmd.id == a.cmd.id) s.active a → s.relocking a.die = false → s.portsStall a = false →
    let q := a.cmd.asker a.die (.copy a.cmd.id)
    (∀ b x d k s1 s2 s3, a.cmd.kind = .copy b x d k → a.fail = none →
      s.elemsGate q a.elems = (s1, true) → s1.moveAll a.cmd.ctx a.elems = (s2, none) →
      (∀ x ∈ s2.streams, x.cmd ≠ a.cmd.id) →
      (s2.updActive a.cmd.id fun _ => { a with elems := [] }).cmdGate a.cmd a.die = (s3, true) →
      exec (.copyComplete a.cmd.id) s = .next (s3.closeCmd { a with elems := [] } none)) ∧
    (∀ ea v, a.cmd.kind = .cflag ea v → (∀ x ∈ s.streams, x.cmd ≠ a.cmd.id ∧ a.cmd.id ∉ x.flags) →
      (a.flagged = true → exec (.copyComplete a.cmd.id) s = .next (s.closeCmd a none)) ∧
      ∀ s1, a.flagged = false → s.flagHeld a = false → s.gate q { writes := (s.flagLoc a.cmd ea).toList } = (s1, true) →
        exec (.copyComplete a.cmd.id) s = .next ((s1.putFlag a ea v).closeCmd a none)) ∧
    (∀ va level pte s1, a.cmd.kind = .pattr 2 va → s.gate q { vas := [va] } = (s1, true) → s1.walk a.cmd.ctx va = .leaf level pte →
      pteAttr pte = 0 → ∃ t, exec (.copyComplete a.cmd.id) s = .next t ∧ t.mem = s.mem ∧ (∀ b ∈ t.active, b.cmd.id ≠ a.cmd.id) ∧
        ∀ n d, t.die? n = some d → ∀ x ∈ d.lines, pteAddr pte ≤ 128 * x.line → 128 * x.line < pteAddr pte + pageSize level →
          x.dirty = false) ∧
    (∀ ea v loc, s.flagLoc a.cmd ea = some loc → s.putFlag a ea v =
      (({ s with active := s.active.map fun b => if b.cmd.id = a.cmd.id then { b with flagged := true } else b } : State).wr loc 8
        v.toNat).feAct loc 2) ∧
    (a.cmd.stat = 0 → ∃ t, s.closeCmd a none = t ∧ t.mem = s.mem ∧ (∀ b, b ∈ t.active ↔ b ∈ s.active ∧ b.cmd.id ≠ a.cmd.id) ∧
      ∀ o, o ∈ t.ops ↔ o ∈ s.ops ∧ o.id ≠ a.cmd.op)) ∧
  (∀ (s : State) (g : Group) (c : Cmd) (t : List Cmd) (b x d : BitVec 512) (ga : Gang),
    Sole (fun y => y.engq.head?.map (·.id) == some c.id) s.groups g → g.engq = c :: t → c.kind = .coll b x d → c.verdict = some true →
    s.gang? g.gang = some ga → ga.preempting = false → s.relocking g.die = false → s.colls = [] →
    (memberDies (colMembers b.toNat)).all (fun k => ((s.die? k).map (·.failed)).getD true == false) = true →
    let k : CollCmd := { cmd := c, die := g.die, ctx := c.ctx }
    let u0 : State := { s.updGroup g.id Group.popHead with colls := [k] }
    s.collReadable k = true →
    ∃ u, exec (.collectiveMatch c.id) s = .next u ∧ u.mem = s.mem ∧ u.group? g.id = (s.group? g.id).map Group.popHead ∧
      (memberDies (colMembers b.toNat) ≠ [g.die] → memberDies (colMembers b.toNat) ≠ [] → u = u0) ∧
      ∃ k', u.colls = [k'] ∧ k'.cmd = c ∧ k'.die = g.die) ∧
  (∀ (s s2 s' : State) (c : CollCmd), Sole (fun k => k.cmd.id == c.cmd.id && !k.pending) s.colls c → s.relocking c.die = false →
    c.status = none → c.fail = none → s.collWritable c c.results = (s2, true) →
    ({ s2 with colls := s2.colls.filter fun x => x.cmd.id ≠ c.cmd.id } : State).collWrite c c.results = (s', none) →
    exec (.collectiveComplete c.cmd.id) s = .next ((s'.putStatus c.cmd c.die 0 0 0).endCmd c.cmd)) ∧
  (∀ (s : State) (c : Collapse) (die : Nat),
    let (lo, n) := s.collapseSpan c die
    let rehome := Elem.rehome lo n (c.home * 2 ^ 42 + c.page)
    (Sole (fun k => k.page == c.page && k.todo.contains die && !k.dropped.contains die) s.collapses c →
      ∃ t, exec (.collapseMessage die c.page) s = .next t ∧
        t = { s with
          collapses := s.collapses.map fun x => if x.page = c.page ∧ x.home = c.home then { x with dropped := insertNat x.dropped die } else x
          active := s.active.map fun a => { a with elems := a.elems.map rehome }
          streams := s.streams.map fun x => { x with elems := x.elems.map rehome }
          clusters := t.clusters, dies := t.dies } ∧
        ∀ d, t.die? die = some d →
          (∀ k ∈ d.tlb, ¬(pteAttr k.pte.toNat = 2 ∧ replKey k.pte.toNat = c.page ∧ pteAddr k.pte.toNat / 2 ^ 42 % 64 = c.home)) ∧
          ∀ x ∈ d.lines, ¬(lo ≤ 128 * x.line ∧ 128 * x.line < lo + n)) ∧
    (Sole (fun k => k.page == c.page && k.dropped.contains die && k.todo.contains die) s.collapses c →
      s.readOpen lo n = false →
      exec (.collapseAck die c.page) s = .next { s with
        collapses := (s.collapses.map fun x => if x.page = c.page ∧ x.home = c.home then { x with todo := x.todo.filter (· ≠ die) } else x).filter
          fun x => x.todo ≠ [] })) ∧
  (∀ (s : State) (ctx a b n : Nat) (e : Elem), s.memOk = true → e.src = (List.range n).map (a + ·) → e.dst = (List.range n).map (b + ·) →
    0 < n → e.sbit = 0 → e.dbit = 0 → e.bits = 8 * n → e.sbits = 8 * n → a + n ≤ 2 ^ 60 → b + n ≤ 2 ^ 60 →
    (∀ l ∈ e.src, s.poisoned l 1 = false) →
    ∃ t, s.moveElem ctx e = .ok t ∧ t = { s with mem := t.mem } ∧
      ∀ x, Memory.read t.mem x = if b ≤ x ∧ x < b + n then Memory.read s.mem (a + (x - b)) else Memory.read s.mem x)

/-! ### Texture, rays and rendering (spec 10) -/

/-- With room on its counter, tex whose lanes' texels all translate, trace, and traceh whose records translate each
record one counted operation for exec(entry) with one access for each lane (two halves of the record for traceh) and
complete; traceh of no record gives zeros at once. tex of an entry that is no texture takes class 6. The ray unit asks
for what a traversal has still to read, and ends it by giving its lane the two result words. (R296, R300, R301, R228,
R27) -/
def Obligations.TextureRay : Prop :=
  (∀ (h : Head) (f : FTex) (s : State) (g g1 : Group) (e : Entry),
    let i := Instr.tex h f
    let u := Iss.mk' s g e i
    let t := (g.getS f.st.toNat).toNat % 256
    let en := s.ent (s.groupCtx g) t
    AtIssue i s g e → Only g e →
    (u.ex = 0 → Ends i s g e s g) ∧
    (u.ex ≠ 0 → Ent.isTexture en = false → Traps i s g e 6 0 t u.ex) ∧
    (u.ex ≠ 0 → Ent.isTexture en = true → s.counter g.id (g.ctr f.cc.toNat) < 63 → s.orderHolds g u.ex false = false →
      s.regGate g [f.d.toNat] = .ok g1 → (∀ l, u.ex.has l = true → ∃ ea loc tgt r, (u.texLane f en l).plan = .go ea loc tgt r) →
      ∃ s' o as, Ends i s g e s' g1 ∧
        s' = { s with accs := s'.accs, ops := s'.ops, lastOp := s'.lastOp, next := s'.next, walks := s'.walks, dies := s'.dies
                      draw := s'.draw } ∧
        s'.ops = s.ops ++ [o] ∧ o.lanes = u.ex ∧ o.ctr = g.ctr f.cc.toNat ∧ s'.accs = s.accs ++ as ∧
        as.map (fun (a : Access) => (a.op, a.lane, a.kind, a.d)) = u.ex.toList.map fun l =>
          (o.id, l, AccKind.tex (BitVec.ofNat 512 en) ((g.getV f.vc.toNat l).truncate 32) ((g.getV f.vc.toNat l >>> 32).truncate 32)
            f.filt f.wrap, f.d.toNat))) ∧
  (∀ (h : Head) (f : FTrace) (s : State) (g g1 : Group) (e : Entry),
    let i := Instr.trace h f
    let u := Iss.mk' s g e i
    AtIssue i s g e → Only g e →
    (u.ex = 0 → Ends i s g e s g) ∧
    (u.ex ≠ 0 → s.counter g.id (g.ctr f.cc.toNat) < 63 → s.orderHolds g u.ex false = false →
      s.regGate g [f.vh.toNat, f.vh.toNat + 1] = .ok g1 →
      ∃ s' o as, Ends i s g e s' g1 ∧
        s' = { s with accs := s'.accs, ops := s'.ops, lastOp := s'.lastOp, next := s'.next, walks := s'.walks } ∧
        s'.ops = s.ops ++ [o] ∧ o.lanes = u.ex ∧ o.ctr = g.ctr f.cc.toNat ∧ s'.accs = s.accs ++ as ∧
        as.map (fun (a : Access) => (a.op, a.lane, a.kind, a.d, a.phase)) = u.ex.toList.map fun l =>
          (o.id, l, AccKind.ray f.mode.toNat (g.getS f.sb.toNat).toNat
            ((List.range 4).flatMap fun k => [(g.getV (f.vr.toNat + k) l).truncate 32, (g.getV (f.vr.toNat + k) l >>> 32).truncate 32]),
            f.vh.toNat, AccPhase.traversing))) ∧
  (∀ (h : Head) (f : FTraceh) (s : State) (g g1 : Group) (e : Entry),
    let i := Instr.traceh h f
    let u := Iss.mk' s g e i
    let hd (l : Nat) : Nat := (g.getV f.vh.toNat l).toNat / 2 ^ 32
    let a (l : Nat) : Nat := ((g.getS f.sb.toNat).toNat + 16 * hd l + 16 * f.w.toNat) % 2 ^ 56
    let half (l k : Nat) : Plan := s.planAddr g halfForm false ((a l + 8 * k) % 2 ^ 56)
    AtIssue i s g e → Only g e →
    (u.ex = 0 → Ends i s g e s g) ∧
    (u.ex ≠ 0 → s.counter g.id (g.ctr f.cc.toNat) < 63 → s.orderHolds g u.ex false = false →
      s.regGate g [f.d.toNat, f.d.toNat + 1] = .ok g1 →
      (∀ l k, u.ex.has l = true → k < 2 → hd l < 0xFFFFFFFE → ∃ ea loc tgt r, half l k = .go ea loc tgt r) →
      ∃ s' g0 o as, Ends i s g e s' g0 ∧
        s' = { s with accs := s'.accs, ops := s'.ops, lastOp := s'.lastOp, next := s'.next, walks := s'.walks, dies := s'.dies } ∧
        SamePlace g g0 ∧ (∀ r l, l < 32 → g0.getV r l =
          if u.ex.has l = true ∧ 0xFFFFFFFE ≤ hd l ∧ (r = f.d.toNat ∨ r = f.d.toNat + 1) then 0 else g.getV r l) ∧
        (∀ l, g0.getP l = g.getP l) ∧ SameScalars g g0 ∧
        s'.ops = s.ops ++ [o] ∧ o.lanes = u.ex ∧ o.ctr = g.ctr f.cc.toNat ∧ s'.accs = s.accs ++ as ∧
        as.map (fun (x : Access) => (x.op, x.lane, x.va, x.size, x.d)) = (u.ex.toList.filter fun l => decide (hd l < 0xFFFFFFFE)).flatMap fun l =>
          [(o.id, l, a l, 8, f.d.toNat), (o.id, l, (a l + 8) % 2 ^ 56, 8, f.d.toNat + 1)])) ∧
  (∀ (s : State) (a : Access) (g : Group) (mode base : Nat) (r : List (BitVec 32)),
    Sole (fun b => b.id == a.id && b.phase == .traversing) s.accs a → a.kind = .ray mode base r → s.group? a.grp = some g →
    s.rayHeld a = false → s.relocking a.die = false →
    (∀ n, s.traverse a.id g mode base r = .error n → exec (.rayTraversalEnd a.id) s = .next (s.gate (s.rayAsker g a.id) n).1) ∧
    (∀ o, s.traverse a.id g mode base r = .ok o → a.dst = .lane → a.discard = [] → a.hnd = false → g.frame = none → a.lane < 32 →
    ∃ t g', exec (.rayTraversalEnd a.id) s = .next t ∧ t.group? a.grp = some g' ∧ (∀ b, b ∈ t.accs ↔ b ∈ s.accs ∧ b.id ≠ a.id) ∧
      (o.log = none → t.mem = s.mem) ∧ g'.getV a.d a.lane = o.lo ∧ g'.getV (a.d + 1) a.lane = o.hi ∧
      ∀ n l, l < 32 → l ≠ a.lane ∨ n ≠ a.d ∧ n ≠ a.d + 1 → g'.getV n l = g.getV n l))

/-- For stage-0 items of a draw prim sends each executing lane's primitive to its owners and counts it, and pend ends
the task group of every item of the entry; elsewhere they take class 2 with detail 3. cwr posts each lane's colour and
zcmp its depth at the item's ticket, zcmp parking until its results come; an item without an open ticket takes class 2
with detail 4, while the other lanes post (log 23). cclr and cdec act on the blocks of their box and count one
operation. cwr, zcmp, cclr and cdec wait until the accesses of the entry's items are performed. An entry that is no
surface or depth tensor takes class 6. (R275, R276, R292, R293, R294, R27) -/
def Obligations.RenderForms : Prop :=
  (∀ (h : Head) (f : FPrim) (s : State) (g : Group) (e : Entry),
    let i := Instr.prim h f
    let u := Iss.mk' s g e i
    let bad := Mask.ofPred fun l => u.ex.has l && (!s.drawItem g l 0 ||
      (match AMap.get? g.items l with | some it => it.tgEnded || decide (254 ≤ it.prims) | none => true))
    AtIssue i s g e → Only g e →
    (bad ≠ 0 → Traps i s g e 2 3 0 bad) ∧
    (bad = 0 → let r := u.ex.toList.foldl (sendPrim f.vp.toNat f.a) (s, g)
      Ends i s g e r.1 r.2)) ∧
  (∀ (s : State) (g : Group) (l vp d : Nat) (a : Src) (la : Launch) (it : Item), s.groupLaunch? g = some la → s.launch? la.id = some la →
    AMap.get? g.items l = some it →
    let vs := (List.range 6).flatMap fun k => [(g.getV (vp + k) l).truncate 32, (g.getV (vp + k) l >>> 32).truncate 32]
    let r := sendPrim vp a (s, g) l
    r.2 = { g with items := AMap.set g.items l { it with prims := it.prims + 1 } } ∧
    (la.bin vs = [] → r.1 = s) ∧
    (la.bin vs = [d] → ∃ la', r.1.launch? la.id = some la' ∧ la'.pkts = AMap.set la.pkts (s.next * 4096 + 64 * g.die + d)
      (.prim { verts := vs, handle := readSrc g l [] 0 a
               token := BitVec.ofNat 64 (la.seq % 2 ^ 8 * 2 ^ 56 + it.tgseq % 2 ^ 48 * 2 ^ 8 + it.prims % 2 ^ 8) }))) ∧
  (∀ (h : Head) (s : State) (g : Group) (e : Entry),
    let i := Instr.pend h
    let act := (Iss.mk' s g e i).act
    let bad := Mask.ofPred fun l => act.has l && !s.drawItem g l 0
    AtIssue i s g e → Only g e →
    (bad ≠ 0 → Traps i s g e 2 3 0 bad) ∧
    (bad = 0 → ∃ s' g0, Ends i s g e s' g0 ∧ s' = { s with launches := s'.launches } ∧ g0 = { g with items := g0.items } ∧
      ∀ l it, AMap.get? g.items l = some it →
        AMap.get? g0.items l = some (if act.has l = true then { it with tgEnded := true } else it))) ∧
  (∀ (h : Head) (f : FCwr) (s : State) (g : Group) (e : Entry),
    let i := Instr.cwr h f
    let u := Iss.mk' s g e i
    let t := (g.getS f.st.toNat).toNat % 256
    let en := s.ent (s.groupCtx g) t
    let bad := Mask.ofPred fun l => u.ex.has l && (match s.ticketOf g l with | some t => t.cres | none => true)
    AtIssue i s g e → Only g e → u.accessesOpen = false →
    (u.ex = 0 → Ends i s g e s g) ∧
    (u.ex ≠ 0 → Ent.isSurface en = false → bad.has (lowLane u.ex) = true → Traps i s g e 2 4 0 u.ex) ∧
    (u.ex ≠ 0 → Ent.isSurface en = false → bad.has (lowLane u.ex) = false → Traps i s g e 6 0 t u.ex) ∧
    (bad ≠ 0 → Ent.isSurface en = true → bad = u.ex → Traps i s g e 2 4 0 bad) ∧
    (bad ≠ 0 → Ent.isSurface en = true → bad ≠ u.ex →
      let r := (u.ex &&& ~~~bad).toList.foldl (cwrLane f en s.next) (s.fresh, g)
      ∃ t g' z, exec i s = .next t ∧ t.group? g.id = some g' ∧ g'.trap = some z ∧ z.cls = 2 ∧ z.detail = 4 ∧ z.tmask = bad ∧
        z.pc = e.pc ∧ g'.items = r.2.items ∧ t.launches = r.1.launches ∧ ∀ o ∈ t.ops, o ∈ s.ops ∨ o.ctr = 8) ∧
    (bad = 0 → u.ex ≠ 0 → Ent.isSurface en = true → s.counter g.id f.cc.toNat < 63 →
      let r := u.ex.toList.foldl (cwrLane f en s.next) (s.fresh, g)
      ∃ o, Ends i s g e (r.1.addOp o) r.2 ∧ o.id = s.next ∧ o.grp = g.id ∧ o.lanes = u.ex ∧ o.ctr = f.cc.toNat)) ∧
  (∀ (s : State) (g : Group) (l op en : Nat) (f : FCwr) (la : Launch) (it : Item) (t : Ticket), s.groupLaunch? g = some la →
    AMap.get? g.items l = some it → it.ticket = some t →
    cwrLane f en op (s, g) l =
      (s.updPost la.id t.die t.num fun p =>
        if p.helper then { p with colourDone := true }
        else { p with colour := some { bm := f.bm.toNat, colour := (readSrc g l [] 0 f.a).truncate 32, surface := BitVec.ofNat 512 en
                                       op := op, grp := g.id } },
       { g with items := AMap.set g.items l { it with ticket := some { t with cres := true } } })) ∧
  (∀ (h : Head) (f : FZcmp) (s : State) (g : Group) (e : Entry),
    let i := Instr.zcmp h f
    let u := Iss.mk' s g e i
    let t := (g.getS f.st.toNat).toNat % 256
    let en := s.ent (s.groupCtx g) t
    let bad := Mask.ofPred fun l => u.ex.has l && (match s.ticketOf g l with | some t => t.dres || t.cres | none => true)
    AtIssue i s g e → Only g e → u.accessesOpen = false →
    (u.ex = 0 → Ends i s g e s g) ∧
    (u.ex ≠ 0 → Ent.isDepth en = false → bad.has (lowLane u.ex) = true → Traps i s g e 2 4 0 u.ex) ∧
    (u.ex ≠ 0 → Ent.isDepth en = false → bad.has (lowLane u.ex) = false → Traps i s g e 6 0 t u.ex) ∧
    (bad ≠ 0 → Ent.isDepth en = true → bad = u.ex → Traps i s g e 2 4 0 bad) ∧
    (bad ≠ 0 → Ent.isDepth en = true → bad ≠ u.ex →
      let r := (u.ex &&& ~~~bad).toList.foldl (zcmpLane f en) (s, g)
      ∃ t g' z, exec i s = .next t ∧ t.group? g.id = some g' ∧ g'.trap = some z ∧ z.cls = 2 ∧ z.detail = 4 ∧ z.tmask = bad ∧
        z.pc = e.pc ∧ g'.items = r.2.items ∧ t.launches = r.1.launches) ∧
    (bad = 0 → u.ex ≠ 0 → Ent.isDepth en = true →
      let r := u.ex.toList.foldl (zcmpLane f en) (s, g)
      Parks i s g e r.1 r.2 (.zcmp { words := h.hints.count + 1, dead := u.deads, y := u.y, stall := u.stall }))) ∧
  (∀ (h : Head) (f : FCclr) (s s1 s2 : State) (g : Group) (e : Entry),
    let t := (g.getS f.st.toNat).toNat % 256
    let en := s.ent (s.groupCtx g) t
    let bs := boxBlocks en (g.getS f.sb.toNat).toNat
    let acts (i : Instr) (dec : Bool) (done : Prop) : Prop := AtIssue i s g e → Only g e →
      (Ent.isSurface en = false → Traps i s g e 6 0 t (Iss.mk' s g e i).act) ∧
      (Ent.isSurface en = true → s.counter g.id f.cc.toNat < 63 → (Iss.mk' s g e i).accessesOpen = false →
        s.gate { owner := .box g.id, die := g.die, cluster := g.cluster, port := 6, ctx := s.groupCtx g, part := s.groupPart g }
          (s.boxNeed g.die (s.groupCtx g) en dec bs) = (s1, true) → done →
        ∃ o, Ends i s g e (s2.addOp o) g ∧ o.grp = g.id ∧ o.lanes = e.mask ∧ o.ctr = f.cc.toNat)
    acts (.cclr h f) false (s1.clearBlocks g.die (s.groupCtx g) en bs = (s2, none)) ∧
    acts (.cdec h f) true (s1.decodeBlocks g.die (s.groupCtx g) en bs = (s2, none, [])))

/-- A die sends the end marker of a window whose task groups have ended to every owner; an owner holds a primitive that
arrives and releases what an end marker completes; the rasteriser turns the next released primitive into its quads'
items and posts; the colour unit blends and the depth unit compares a posted entry once every earlier ticket of its
pixel is done, and the depth result goes to the lane's predicate. The GROUP of the colour unit's record is the model's
choice (log 53). (R278, R279, R280, R281, R282, R283, R292, R293) -/
def Obligations.RenderSteps : Prop :=
  ∀ (s : State) (la : Launch) (die src : Nat), s.launch? la.id = some la → s.relocking die = false →
    (∀ k p, la.firstPkt src die = some (k, .prim p) → s.stalledPair src die = false → s.primsHeld die false none < 4096 →
      exec (.primitivePacket la.id src die) s = .next ((s.updLaunch la.id fun l => { l with pkts := AMap.erase l.pkts k }).updLaunch la.id
        fun l => l.updFocus die fun f => { f with held := f.held ++ [{ p with spilled := false }] })) ∧
    (∀ k m, la.firstPkt src die = some (k, .marker m) → s.stalledPair src die = false →
      exec (.endMarker la.id src die) s = .next (s.updLaunch la.id fun l => ({ l with pkts := AMap.erase l.pkts k }).updFocus die fun f =>
        let counts := (m.counts.zip (List.range 64)).foldl (fun c (x : BitVec 8 × Nat) => if x.1 = 0xFF then c else AMap.set c (64 * bits m.header.toNat 55 14 + x.2) x.1.toNat) f.counts
        Focus.release counts.length { f with counts := counts })) ∧
    (∀ w, la.live = true → la.isDraw = true → (la.focus die).window la.items w ≠ [] → w ∉ (la.focus die).markers →
      (∀ t ∈ (la.focus die).window la.items w, t ∈ (la.focus die).ended) →
      ∃ t, exec (.markerSend la.id die w) s = .next t ∧ t = { s with launches := t.launches, next := t.next } ∧
        ∃ l', t.launch? la.id = some l' ∧ w ∈ (l'.focus die).markers ∧ (la.owners = [] → l'.pkts = la.pkts) ∧
          ∀ d, la.owners = [d] → l'.pkts = AMap.set la.pkts (s.next * 4096 + 64 * die + d) (.marker
            { header := BitVec.ofNat 64 (la.seq % 2 ^ 8 * 2 ^ 56 + w % 2 ^ 42 * 2 ^ 14)
              counts := (List.range 64).map fun i => if 64 * w + i ∈ (la.focus die).window la.items w
                then BitVec.ofNat 8 (AMap.getD (la.focus die).sent (64 * (64 * w + i) + d) 0) else 0xFF })) ∧
    (∀ p rest, (la.focus die).released = p :: rest → (∀ k, k < 3 → (vertOf p.verts k).2.2.1.isFin = true) →
      let q := la.quads die (la.focus die).nextTicket p none
      exec (.rasterise la.id die) s = .next (s.updLaunch la.id fun l =>
        (l.updFocus die fun f => { f with released := rest, nextTicket := q.next, posts := f.posts ++ q.posts }).updStock die 1
          fun k => { k with items := k.items ++ q.items })) ∧
    (∀ p c, (la.focus die).posts.find? (·.ticket == p.ticket) = some p → p.colour = some c →
      (la.focus die).clearBefore p (·.colourDone) = true →
      let en : Ent := c.surface.toNat
      ∀ s1, s.gate (la.asker die (.colour la.id die p.ticket)) (s.blendNeed la die p c) = (s1, true) →
      let done (s' : State) : Prop :=
        let t := s'.updPost la.id die p.ticket fun p => { p with colour := none, colourDone := true }
        exec (.colourApply la.id die p.ticket) s = .next (if t.colourOpen la.id c.op = true then t
          else { t with ops := t.ops.map fun o => if o.id = c.op then { o with ready := true } else o })
      (s1.planColour la die p c = .ok none → done s1) ∧
      (∀ a, s1.planColour la die p c = .error a → done (s1.logUnit la c.grp die 0x0D a)) ∧
      (∀ w b s2, s1.planColour la die p c = .ok (some (w, b)) → s1.drawn.writeBlock die la.ctx en w = (s2, none) →
        done (if b = true then s2.logUnit la c.grp die 0x0A (en.modeVa w.bx w.y) else s2))) ∧
    (∀ p d, (la.focus die).posts.find? (·.ticket == p.ticket) = some p → p.depth = some d →
      (la.focus die).clearBefore p (·.depthDone) = true →
      let done (s' : State) (b : Bool) : Prop :=
        exec (.depthApply la.id die p.ticket) s = .next ((s'.updPost la.id die p.ticket fun p => { p with depth := none, depthDone := true }).updGroup
          d.grp fun g => g.setPat false d.pd d.lane b)
      (p.depthVa d = none → done s false) ∧
      (∀ va old s1, p.depthVa d = some va →
        s.gate (la.asker die (.depth la.id die p.ticket))
          (s.needVas die la.ctx [(va, 4)] (if s.depthWrites la die va d = true then [(va, 4)] else [])) = (s1, true) →
        s1.readVa die la.ctx va 4 = some old →
        (depthCond d.cond d.z.toNat old = false → done s1 false) ∧
        (depthCond d.cond d.z.toNat old = true → d.wr = false → done s1 true) ∧
        (∀ s2, depthCond d.cond d.z.toNat old = true → d.wr = true → s1.writeVa die la.ctx va 4 d.z.toNat = (s2, true) →
          done s2 true))) ∧
    (∀ (z d : Nat), (fp32.unpack z).isNan = false → (fp32.unpack d).isNan = false →
      depthCond 0 z d = false ∧ depthCond 1 z d = (fp32.unpack z).ltNum (fp32.unpack d) ∧
      depthCond 2 z d = (fp32.unpack z).eqNum (fp32.unpack d) ∧ depthCond 4 z d = (fp32.unpack d).ltNum (fp32.unpack z) ∧
      depthCond 7 z d = true) ∧
    (∀ sv a d, blend 0 sv a d = sv ∧ blend 1 sv a d = (sv * a + d * (255 - a) + 127) / 255 ∧ blend 2 sv a d = min 255 (sv + d) ∧
      blend 3 sv a d = max sv d ∧ blend 4 sv a d = min sv d)

/-! ### Work, barriers and fences (spec 02, 04, 11, 12, 14) -/

/-- launch appends its LPB image to a queue that takes it and gives the new TAIL, and gives 0 to one that cannot. emit
gives each executing lane's child to the next stage's stock where the emit area has room and says so in its predicate;
exit and await take the executing lanes' items, registers and predicates away, await leaving one continuation record
for each with the PC of the word after it, the stack it found (log 99) and the live registers; the other lanes stand
past the word. A wrong stage takes class 2 with detail 2, exit of a member detail 1, await without refill detail 7 and
too long a record detail 8. (R122, R124, R368, R369, R370, R371) -/
def Obligations.WorkForms : Prop :=
  (∀ (h : Head) (f : FLaunch) (s : State) (g : Group) (e : Entry) (loc : Nat) (c : Context),
    let i := Instr.launch h f
    let ctx := s.groupCtx g
    let v := Memory.readN s.mem loc 128
    let img := if f.ao then v - v / 2 ^ 640 % 2 ^ 64 * 2 ^ 640 + (g.getS f.sb.toNat).toNat * 2 ^ 640 else v
    let d : QDesc := AMap.getD c.queues f.q.toNat {}
    let q : Asker :=
      { owner := .block g.id, die := g.die, cluster := g.cluster, port := g.core, ctx := ctx, part := s.groupPart g }
    let s1 := (s.ask q (bytesFrom loc 128) []).1.consumeWalks g.die g.cluster ctx
    AtIssue i s g e → Only g e → (Iss.mk' s g e i).accessesOpen = false → BlockAt s g (g.getS f.sa.toNat).toNat 128 loc →
    s.ctx? ctx = some c → BlockRead s s1 ∧
    (d.en = false ∨ d.state ≠ qRunning ∨ d.tail - d.head = 2 ^ d.logn → Ends i s g e s1 (g.setS f.sd.toNat 0)) ∧
    (∀ s0 s2, d.en = true → d.state = qRunning → d.tail - d.head ≠ 2 ^ d.logn →
      let slot := d.rbase + 128 * (d.tail % 2 ^ d.logn)
      s1.gate { owner := .append g.id, die := d.sdie, ctx := ctx, part := s1.groupPart g } (s1.needVa d.sdie ctx true slot 128) = (s0, true) →
      s0.ctx? ctx = some c → s0.writeVa d.sdie ctx slot 128 img = (s2, true) →
      Ends i s g e (s2.updCtx ctx fun c => { c with queues := AMap.set c.queues f.q.toNat { d with tail := d.tail + 1 } })
        (g.setS f.sd.toNat (BitVec.ofNat 64 (d.tail + 1))))) ∧
  (∀ (h : Head) (f : FEmit) (s : State) (g : Group) (e : Entry),
    let i := Instr.emit h f
    let ex := (Iss.mk' s g e i).ex
    let bad := Mask.ofPred fun l => ex.has l &&
      (match s.groupLaunch? g, AMap.get? g.items l with
        | some la, some it => decide (la.nstage ≤ it.stage + 1) || (la.isDraw && it.stage == 0)
        | _, _ => true)
    AtIssue i s g e → Only g e →
    (bad ≠ 0 → Traps i s g e 2 2 0 bad) ∧
    (bad = 0 → (∀ a ∈ s.accs, a.grp = g.id → ex.has a.lane = true → a.unperformed = false) →
      let r := ex.toList.foldl (emitLane f) (s, g)
      Ends i s g e r.1 r.2)) ∧
  (∀ (f : FEmit) (s : State) (g : Group) (l : Nat) (la : Launch) (it : Item), s.groupLaunch? g = some la → AMap.get? g.items l = some it →
    let a := readSrc g l [] 0 f.a
    let b := readSrc g l [] 0 f.b
    let room : Prop := s.emitted g.die la.ctx < 64 * ((s.areaOf g.die la.ctx).map (·.emitn)).getD 0
    (room → emitLane f (s, g) l = (s.updLaunch la.id fun x => x.updStock g.die (it.stage + 1) fun k => { k with
        items := k.items ++ [{ item0 := a.truncate 32, item1 := (a >>> 32).truncate 32, item2 := (b >>> 48).truncate 32
                               itemid := b.truncate 48, stage := it.stage + 1 }] }, g.setPn f.pd.toNat l true)) ∧
    (¬room → emitLane f (s, g) l = (s, g.setPn f.pd.toNat l false))) ∧
  (∀ (h : Head) (s : State) (g : Group) (e : Entry),
    let i := Instr.exit h
    let ex := (Iss.mk' s g e i).ex
    let bad := Mask.ofPred fun l => ex.has l && ((AMap.get? g.items l).map fun it => !it.members.isEmpty).getD false
    AtIssue i s g e → Only g e →
    (bad ≠ 0 → Traps i s g e 2 1 0 bad) ∧
    (bad = 0 → g.engq = [] → h.hints.dead = none → AMap.ascFrom 0 g.items = true → AMap.ascFrom 0 g.p = true →
      ∃ t g', exec i s = .next t ∧ t.group? g.id = some g' ∧ t.mem = s.mem ∧ (∀ k, k ≠ g.id → t.group? k = s.group? k) ∧
        (∀ l, ex.has l = true → AMap.get? g'.items l = none ∧ g'.getP l = 0 ∧ ∀ r, g'.getV r l = 0) ∧
        (∀ l, l < 32 → ex.has l = false → AMap.get? g'.items l = AMap.get? g.items l ∧ g'.getP l = g.getP l ∧
          ∀ r, g'.getV r l = g.getV r l) ∧
        ∀ l, e.mask.has l = true → ex.has l = false →
          Stands g' l (e.advance (h.hints.count + 1)).pc e.prio (e.advance (h.hints.count + 1)).stack)) ∧
  (∀ (h : Head) (f : FAwait) (s : State) (g : Group) (e : Entry) (la : Launch),
    let i := Instr.await h f
    let ex := (Iss.mk' s g e i).ex
    let refill := ((s.groupStage? g).map (·.refill)).getD 0
    let long := Mask.ofPred fun l => ex.has l && decide (20 < s.contWords g e l f.live)
    let past := e.advance (h.hints.count + 1)
    AtIssue i s g e → Only g e →
    (ex ≠ 0 → refill = 0 → Traps i s g e 2 7 0 ex) ∧
    ((ex = 0 ∨ refill ≠ 0) → long ≠ 0 → Traps i s g e 2 8 0 long) ∧
    (refill ≠ 0 → long = 0 → (∀ l, ex.has l = true → s.awaitHeld g f.cc.toNat l = false) → s.groupLaunch? g = some la →
      s.launch? la.id = some la → (∀ l, ex.has l = true → (AMap.get? g.items l).isSome = true) → (∀ o ∈ s.ops, o.poisoned = 0) →
      ex.toList.length ≤ 64 * ((s.areaOf g.die (s.groupCtx g)).map (·.contn)).getD 0 - (s.contSlots g.die (s.groupCtx g)).length →
      AMap.ascFrom 0 g.items = true →
      ∃ t g' cs, exec i s = .next t ∧ t.group? g.id = some g' ∧ t.conts = s.conts ++ cs ∧
        cs.map (fun (c : Cont) => (c.grp, c.die, c.pc, c.words, c.prio, c.stack, c.cc, c.live, c.regs)) = (ex.toList.map fun l =>
          (g.id, g.die, e.pc + 4 * (h.hints.count + 1), h.hints.count + 1, e.prio, e.stack, f.cc.toNat, f.live,
            ((List.range 16).filter f.live.getLsbD).map fun r => (r, g.getV r l))) ∧
        (∀ l, ex.has l = true → AMap.get? g'.items l = none) ∧
        ∀ l, e.mask.has l = true → ex.has l = false → Stands g' l past.pc e.prio past.stack))

/-- barinit of the lowest lane's granule sets INIT, phase 0, PEND and EXP; barjoin, bararr and bardrop step the object
and the item's membership once for each executing lane in ascending order as R312 says, and barwait completes where
every lane's phase has come and otherwise parks. The last owed arrival turns the phase and reloads PEND with EXP, and
unparks the entries all of whose lanes' phases have come. A lane that misuses its object takes class 2 with detail 5.
pbar parks until its episode is released, and completes at once after a break. That a barrier form acts when it
issues, once its banks' queues are empty, is the model's reading (log 17). (R309, R310, R311, R312, R313, R314, R315)
-/
def Obligations.BarrierForms : Prop :=
  (∀ (h : Head) (f : FBi) (s : State) (g : Group) (e : Entry) (ea loc tgt : Nat) (r : Option (Nat × BitVec 64)),
    let i := Instr.barinit h f
    let u := Iss.mk' s g e i
    let l := (u.act.toList.head?).getD 0
    let n := (readSrc g l [] 0 f.b).toNat % 2 ^ 16
    AtIssue i s g e → Only g e → s.memOk = true → s.planAddr g barForm true (g.barAddr f.a l) = .go ea loc tgt r →
    s.barBank loc = true → u.barHeld false = false →
    ∃ m, Ends i s g e { s with mem := m } g ∧ ∀ x, Memory.read m x = stored s loc 16 (2 ^ 34 + n * 2 ^ 16 + n) x) ∧
  (∀ (h : Head) (f : FBa) (fn : FBaN) (s : State) (g : Group) (e : Entry),
    let steps (i : Instr) (op : BarOp) (a : Src) : Prop :=
      let u := Iss.mk' s g e i
      let m := if op = .wait then g.execMask i e.mask &&& ~~~e.readDone else u.ex
      let r := m.toList.foldl (BarRun.lane op a) { s := s, g := g }
      AtIssue i s g e → Only g e → u.barReady a m.toList = true → u.barHeld (op == .arrive || op == .drop) = false →
      (r.bad = [] → r.waits = [] → Ends i s g e r.s r.g) ∧
      (r.bad = [] → r.waits ≠ [] → Parks i s g e r.s r.g (.barwait r.waits r.refused)) ∧
      (∀ l ea loc tgt q, m.toList = [l] → s.planAddr g barForm true (g.barAddr a l) = .go ea loc tgt q → s.poisoned loc 16 = false →
        op.misused (s.rd loc 16) ((AMap.get? g.items l).getD {}) loc = true →
        ∃ t g' z, exec i s = .next t ∧ t.group? g.id = some g' ∧ g'.trap = some z ∧ z.cls = 2 ∧ z.detail = 5 ∧ z.pc = e.pc ∧
          z.tmask = Mask.one l ∧ g'.items = g.items)
    steps (.barjoin h f) (.join false) f.a ∧ steps (.barjoinNow h fn) (.join true) fn.a ∧ steps (.bararr h f) .arrive f.a ∧
      steps (.barwait h f) .wait f.a ∧ steps (.bardrop h f) .drop f.a) ∧
  (∀ (op : BarOp) (a : Src) (r : BarRun) (l ea loc tgt : Nat) (q : Option (Nat × BitVec 64)),
    r.s.planAddr r.g barForm true (r.g.barAddr a l) = .go ea loc tgt q → r.s.poisoned loc 16 = false →
    let o := r.s.rd loc 16
    let it := (AMap.get? r.g.items l).getD {}
    op.misused o it loc = false →
    let x := op.act o it loc (r.g.barAddr a l)
    let s1 := r.s.wr loc 16 x.1
    let g1 : Group := { r.g with items := AMap.set r.g.items l x.2 }
    (op ≠ .wait → barPhase x.1 = barPhase o → BarRun.lane op a r l = { r with s := s1, g := g1 }) ∧
    (op ≠ .wait → barPhase x.1 ≠ barPhase o → BarRun.lane op a r l = { r with
      s := { s1 with groups := s1.groups.map fun g => g.wakeBarwaits loc s1.barPassed }, g := g1.wakeBarwaits loc s1.barPassed }) ∧
    (op = .wait → ∀ m, it.member? loc = some m →
      (barPhase o = m.ph → BarRun.lane op a r l = { r with passed := r.passed ||| Mask.one l }) ∧
      (barPhase o ≠ m.ph → r.s.fromOutside r.g.id loc = false →
        BarRun.lane op a r l = { r with waits := AMap.set r.waits l (loc, m.ph) }))) ∧
  (∀ (s : State) (g : Group) (loc : Nat),
    g.wakeBarwaits loc s.barPassed = { g with entries := (g.wakeBarwaits loc s.barPassed).entries } ∧
    ∀ (k : Nat) (e : Entry), g.entries[k]? = some e →
      let holds (ws : AMap (Nat × Bool)) : Prop :=
        e.park = some (.barwait ws 0) ∧ (∃ w ∈ ws, w.2.1 = loc) ∧ ∀ w ∈ ws, barPhase (s.rd w.2.1 16) = w.2.2
      (∀ ws, holds ws → (g.wakeBarwaits loc s.barPassed).entries[k]? = some { e with park := none }) ∧
      ((∀ ws, ¬holds ws) → (g.wakeBarwaits loc s.barPassed).entries[k]? = some e)) ∧
  (∀ (o obj addr : Nat) (it : Item),
    let has (r : Nat) (ph : Bool) (pend exp : Nat) : Prop :=
      barPhase r = ph ∧ barPend r = pend ∧ barExp r = exp ∧ r / 2 ^ 33 = o / 2 ^ 33
    let one (ph : Bool) : List Member := it.members ++ [{ obj := obj, addr := addr, ph := ph, arr := false }]
    let step (op : BarOp) := op.act o it obj addr
    let phase := barPhase o
    let pend := barPend o
    let exp := barExp o
    (step (.join true)).1 = o ∧ (step (.join true)).2 = { it with members := one phase } ∧
    (pend = 0 → exp = 0 → has (step (.join false)).1 phase 1 1 ∧ (step (.join false)).2 = { it with members := one phase }) ∧
    (pend ≠ 0 ∨ exp ≠ 0 → exp < 0xFFFF →
      has (step (.join false)).1 phase pend (exp + 1) ∧ (step (.join false)).2 = { it with members := one !phase }) ∧
    (1 < pend → has (step .arrive).1 phase (pend - 1) exp) ∧ (pend = 1 → has (step .arrive).1 (!phase) exp exp) ∧
    (step .arrive).2 = { it with members := it.members.map fun m => if m.obj = obj then { m with ph := !phase, arr := true } else m } ∧
    (∀ m, it.member? obj = some m → 0 < exp →
      (m.ph ≠ phase → has (step .drop).1 phase pend (exp - 1)) ∧
      (m.ph = phase → 1 < pend → has (step .drop).1 phase (pend - 1) (exp - 1)) ∧
      (m.ph = phase → pend = 1 → has (step .drop).1 (!phase) (exp - 1) (exp - 1))) ∧
    (step .drop).2 = { it with members := it.members.filter fun m => m.obj ≠ obj }) ∧
  (∀ (h : Head) (s : State) (g : Group) (e : Entry),
    let i := Instr.pbar h
    let u := Iss.mk' s g e i
    AtIssue i s g e → Only g e →
    ((s.groupLaunch? g).bind (·.brokenBy) = none →
      Parks i s g e s g (.pbar { words := h.hints.count + 1, dead := u.deads, y := u.y, stall := u.stall })) ∧
    (∀ d, (s.groupLaunch? g).bind (·.brokenBy) = some d → Ends i s g e s { g with syncst := syncstBreak g.syncst 1 d }))

/-- fence completes where no earlier access of its lanes is unperformed and waits otherwise. fence.sc takes an
identifier, then once its core has drained the heartbeat and the next fence count of its die, and completes when the
closing of that tick has reached the die. A die sends, the tree gathers, the root closes and dies receive tick
markers; a ready die's arrival and its tree's gathering lead to the release of every die, which completes the entries
parked at pbar; none of this passes a link that stands cut, and a relocking die takes no release. (R335, R336, R338,
R314, R316, R420, R421) -/
def Obligations.FenceForms : Prop :=
  (∀ (h : Head) (f : FFence) (s : State) (g : Group) (e : Entry), AtIssue (.fence h f) s g e → Only g e →
    ((Iss.mk' s g e (.fence h f)).fenceHeld = false → Ends (.fence h f) s g e s g) ∧
    ((Iss.mk' s g e (.fence h f)).fenceHeld = true → exec (.fence h f) s = .next s)) ∧
  (∀ (h : Head) (s : State) (g : Group) (e : Entry) (d : Die),
    let i := Instr.fenceSc h
    let u := Iss.mk' s g e i
    let mark (s : State) (x : Nat × Option (Nat × Nat)) : State :=
      s.updGroup g.id fun g => g.updEntry e.mask fun e => { e with sc := some x, mid := true }
    AtIssue i s g e → Only g e → s.die? g.die = some d →
    (e.sc = none → exec i s = .next (mark s.fresh (s.next, none))) ∧
    (∀ n, e.sc = some (n, none) → s.coreUndrained g n = false → u.fenceHeld = false →
      exec i s = .next (mark (s.updDie g.die fun x => { x with fenceCount := d.fenceCount + 1 })
        (n, some (s.gtime / 2048, (d.fenceCount + 1).toNat)))) ∧
    (∀ n hb k, e.sc = some (n, some (hb, k)) →
      (hb < d.closedTick → Ends i s g e s g) ∧ (d.closedTick ≤ hb → exec i s = .next s))) ∧
  (∀ (s : State) (d : Die), s.die? d.num = some d →
    (2048 * (d.sentTick + 1) ≤ s.gtime → s.writesOpen d.num (2048 * (d.sentTick + 1)) = false → d.failed = false → d.relock = none →
      exec (.tickMarkerSend d.num) s = .next (s.updDie d.num fun d => { d with sentTick := d.sentTick + 1 })) ∧
    (s.closed < d.sentTick → (AMap.getD s.ticks s.closed []).contains d.num = false → s.treeCut 16 d.num = false →
      let s1 : State := { s with ticks := AMap.set s.ticks s.closed (insertNat (AMap.getD s.ticks s.closed []) d.num) }
      exec (.tickMarker d.num) s = .next (if s1.tickGathered = true then
        { s1 with closed := s1.closed + 1, ticks := AMap.erase s1.ticks s1.closed } else s1)) ∧
    (d.closedTick < s.closed → s.treeCut 16 d.num = false →
      exec (.tickClosing d.num) s = .next (s.updDie d.num fun d => { d with closedTick := d.closedTick + 1 })) ∧
    (s.treeCut 16 d.num = true → exec (.tickMarker d.num) s = .next s ∧ exec (.tickClosing d.num) s = .next s)) ∧
  (∀ (s : State) (x : Launch) (die : Nat), s.launch? x.id = some x →
    (x.live = true → s.relocking die = false → die ∈ s.launchDies x → die ∉ x.arrived → die ∉ x.releasing → x.brokenBy = none →
      s.dieReady x die = true →
      exec (.dieArrival x.id die) s = .next (s.updLaunch x.id fun x => { x with arrived := insertNat x.arrived die })) ∧
    (x.live = true → x.brokenBy = none → s.hopCut die = false → s.launchDies x ≠ [] → (die ∈ s.launchDies x → die ∈ x.arrived) →
      (∀ c ∈ treeChildren die, (s.die? c).isSome = true → c ∈ x.treeAt) → die ∉ x.treeAt → (s.die? die).isSome = true →
      exec (.treeArrival x.id die) s = .next (s.updLaunch x.id fun y =>
        if die = 0 then { y with arrived := [], treeAt := [], releasing := s.launchDies x }
        else { y with treeAt := insertNat y.treeAt die })) ∧
    (die ∈ x.releasing → s.relocking die = false → x.brokenBy = none → s.treeCut 16 die = false →
      let s1 := s.updLaunch x.id fun x => { x with releasing := x.releasing.filter (· ≠ die) }
      ∃ t, exec (.pbarRelease x.id die) s = .next t ∧ t = { s1 with groups := t.groups } ∧
      ∀ k, t.group? k = (s.group? k).map fun g =>
        if g.id ∈ (s.launchGroups x.id die).map (·.id) then s1.surgeFall g (g.releasePbar syncstEpisode) else g) ∧
    (s.relocking die = true ∨ die ∉ x.releasing ∨ x.brokenBy = none ∧ s.treeCut 16 die = true →
      exec (.pbarRelease x.id die) s = .next s))

/-! ### Traps, the handler and the supervisor (spec 13) -/

/-- trap with any CODE from 0 to 65,535 raises class 0x0B for the lanes of exec(entry) with INFO = CODE, and takes no
other effect. (R357) -/
def Obligations.TrapRaises : Prop :=
  (∀ (h : Head) (f : FK16) (s : State) (g : Group) (e : Entry), AtIssue (.trap h f) s g e → (Iss.mk' s g e (.trap h f)).ex ≠ 0 →
    Traps (.trap h f) s g e 0x0B 0 f.mask.toNat (Iss.mk' s g e (.trap h f)).ex) ∧
  (∀ c : BitVec 16, decode (encode (.trap {} { mask := c })) = some (.trap {} { mask := c }))

/-- brk halts its group past the sequence where DBGEN is 1 and takes class 0x0C where it is 0. rtt leaves handler mode
and lets the group run again with its registers as they stand, its trapped entry where it was; rtt.skip lets the
trapped entry's lanes stand past the sequence. repl supplies a lane's missing value of a class 0x0A trap. hmov copies
a register, predicates, special register, record word or counter of the interrupted group to a handler register, or a
handler register back, and waits for a register or predicates of the interrupted group that await a value. Outside
handler mode rtt, repl and hmov take class 2 with detail 6. The model's readings: which lanes rtt reissues (log 23),
the lane whose value hmov writes to a special register (log 25), and the length of a sequence that could not be read
whole (log 94). (R346, R349, R356, R358, R359, R360, R361, R351) -/
def Obligations.HandlerForms : Prop :=
  (∀ (h : Head) (f : FK16) (s : State) (g : Group) (e : Entry) (c : Context), AtIssue (.brk h f) s g e → Only g e →
    s.groupContext? g = some c →
    (c.dbgen = false → Traps (.brk h f) s g e 0x0C 0 f.mask.toNat (Iss.mk' s g e (.brk h f)).act) ∧
    (c.dbgen = true → ∃ t g' r, exec (.brk h f) s = .next t ∧ t.group? g.id = some g' ∧ g'.halted = true ∧ g'.haltRec = some r ∧
      r.cls = 0x0C ∧ r.pc = e.pc ∧ r.info.toNat = f.mask.toNat ∧ Past g' e (h.hints.count + 1) ∧ t.mem = s.mem ∧
      (deadOf (.brk h f) = [] → SameRegisters g g'))) ∧
  (∀ (h : Head) (s : State) (g : Group) (e : Entry) (t : TrapRec),
    let idle : Prop := (∀ a ∈ s.accs, a.grp = g.id → a.hnd = false) ∧ ∀ o ∈ s.ops, o.grp = g.id → ¬(4 ≤ o.ctr ∧ o.ctr < 8)
    let back (i : Instr) (P : Group → Prop) : Prop := ∃ u g', exec i s = .next u ∧ u.group? g.id = some g' ∧ u.mem = s.mem ∧
      g'.frame = none ∧ g'.stop = .running ∧ g'.trap = none ∧ g'.p = g.p ∧ g'.s = g.s ∧ g'.items = g.items ∧ P g'
    let i := Instr.rtt h
    let j := Instr.rttSkip h
    (AtIssue i s g e → g.inHandler = true → idle → g.trap = some t → t.cls ≠ 10 →
      (∀ x ∈ g.entries, x.mask = t.emask → x.restart ≠ some 0) → back i fun g' => g'.v = g.v ∧ g'.entries = Entry.normalise
        (if t.joins = true then g.entries.map fun x => if x.mask = t.emask then { x with restart := none } else x else g.entries)) ∧
    (AtIssue j s g e → g.inHandler = true → idle → g.trap = some t → t.cls ≠ 10 → t.isRep = false → t.joins = false →
      ∀ x ∈ g.entries, x.mask = t.emask → (∀ y ∈ g.entries, y.mask = t.emask → y = x) →
      let n := (s.reread g t).words
      (t.words ≠ 0 → n = t.words) ∧
      back j fun g' => ∀ l, x.mask.has l = true → Stands g' l (x.advance n).pc x.prio (x.advance n).stack) ∧
    (AtIssue i s g e → g.inHandler = false → Traps i s g e 2 6 0 (Iss.mk' s g e i).act) ∧
    (AtIssue j s g e → g.inHandler = false → Traps j s g e 2 6 0 (Iss.mk' s g e j).act)) ∧
  (∀ (h : Head) (f : FRepl) (s : State) (g : Group) (e : Entry) (t : TrapRec) (d : Nat),
    let i := Instr.repl h f
    let ex := (Iss.mk' s g e i).ex
    AtIssue i s g e → Only g e → g.inHandler = true → g.trap = some t → t.cls = 10 → t.fetchError = false →
    (f.half = true → 2 ≤ t.dests.length) → t.dests[if f.half then 1 else 0]? = some d →
    ∃ g0 t', Ends i s g e s g0 ∧ g0 = { g with v := g0.v, trap := some t' } ∧ (t.dests = [d] → (∀ l, (d, l) ∉ t.supplied) → t'.lmask = t.lmask &&& ~~~ex) ∧
      ∀ r l, l < 32 → AMap.getD g0.v (32 * r + l) 0 =
        if r = d ∧ ex.has l = true ∧ t.lmask.has l = true then readSrc g l [] 0 f.a else AMap.getD g.v (32 * r + l) 0) ∧
  (∀ (h : Head) (f : FHmov) (s : State) (g : Group) (e : Entry) (t : TrapRec),
    let i := Instr.hmov h f
    let ex := (Iss.mk' s g e i).ex
    let n := f.n.toNat
    let hr := f.h.toNat
    let inner : Group := { g with frame := none }
    let scalar (x : Word) : Prop := ∃ g0, Ends i s g e s g0 ∧ SamePlace g g0 ∧ (∀ r l, l < 32 → g0.getV r l = g.getV r l) ∧
      ScalarsAfter g g0 hr (if ex = 0 then none else some x)
    AtIssue i s g e → Only g e → g.inHandler = true → g.trap = some t →
    (f.dir = false → f.cl = 0 → s.awaited g t n ex = false →
      GivesVector i s g e hr fun l => if ex.has l = true then some (AMap.getD g.v (32 * n + l) 0) else none) ∧
    (f.dir = false → f.cl = 1 → scalar (AMap.getD g.s n 0)) ∧
    (f.dir = false → f.cl = 2 → s.awaitedP g = false →
      GivesVector i s g e hr fun l => if ex.has l = true then some ((AMap.getD g.p l 0).zeroExtend 64) else none) ∧
    (f.dir = false → f.cl = 3 → (∀ l, ex.has l = true → ∃ x ∈ g.entries, x.mask.has l = true) →
      GivesVector i s g e hr fun l => if ex.has l = true
        then (g.entries.find? fun x => x.mask.has l).map fun x => s.srRead inner x l n else none) ∧
    (f.dir = false → f.cl = 4 → scalar (BitVec.ofNat 64 ((s.trapWords inner t).getD n 0))) ∧
    (f.dir = false → f.cl = 5 → scalar (BitVec.ofNat 64 (s.counter g.id n))) ∧
    (f.cl = 0 → s.awaited g t n ex = true → exec i s = .next s) ∧ (f.cl = 2 → s.awaitedP g = true → exec i s = .next s) ∧
    (f.dir = true → f.cl = 0 → s.awaited g t n ex = false → s.regGate inner (if ex = 0 then [] else [n]) = .ok inner →
      ∃ g0, Ends i s g e s g0 ∧ g0 = { g with v := g0.v } ∧ ∀ r l, l < 32 → AMap.getD g0.v (32 * r + l) 0 =
        if r = n ∧ ex.has l = true then g.getV hr l else AMap.getD g.v (32 * r + l) 0) ∧
    (f.dir = true → f.cl = 1 → ex ≠ 0 → Ends i s g e s { g with s := AMap.set g.s n (g.getS hr) }) ∧
    (f.dir = true → f.cl = 2 → s.awaitedP g = false → ∃ g0, Ends i s g e s g0 ∧ g0 = { g with p := g0.p } ∧
      ∀ l, l < 32 → AMap.getD g0.p l 0 = if ex.has l = true then (g.getV hr l).truncate 16 else AMap.getD g.p l 0) ∧
    (f.dir = true → f.cl = 3 → ex ≠ 0 → srnWritable n = true →
      ∀ g0, g.srWrite t n (g.getV hr ((ex.toList.head?).getD 0)) = some g0 → Ends i s g e s g0)) ∧
  (∀ (h : Head) (f : FRepl) (fh : FHmov) (s : State) (g : Group) (e : Entry), g.inHandler = false →
    (AtIssue (.repl h f) s g e → (Iss.mk' s g e (.repl h f)).ex ≠ 0 → Traps (.repl h f) s g e 2 6 0 (Iss.mk' s g e (.repl h f)).ex) ∧
    (AtIssue (.hmov h fh) s g e → (Iss.mk' s g e (.hmov h fh)).ex ≠ 0 → Traps (.hmov h fh) s g e 2 6 0 (Iss.mk' s g e (.hmov h fh)).ex))

/-- The free handler frame goes to the group of its core that trapped first, with one entry at the handler's ENTRY for
the trap's lanes, once the handler's header has been read. A memory error is delivered at a boundary as a class 0x0A
trap. TRAPRES lets a stopped group resume, join the frame order, or end its launch with status 0x82; a handler fault
accepts the last alone. PREEMPT stops a named gang that has a slot, and a drained gang is saved and its groups leave.
DBGCTL asks its targets to halt, to go on or to step, and a requested halt takes effect at a boundary. The model's
readings: where a handler is entered (log 78), the record of a memory error (log 26), TRAPRES of a waiting record (log
37), PREEMPT with GO = 0 or busy (log 35) and the saved state (log 33). (R347, R351, R352, R353, R362, R363, R366,
R367) -/
def Obligations.SupervisorSteps : Prop :=
  (∀ (s : State) (g : Group), g ∈ s.groups → s.group? g.id = some g → g.stop = .waitFrame → g.untended = false →
    s.frameBusy g.die g.cluster g.core = false →
    (∀ x ∈ s.groups, x.die = g.die → x.cluster = g.cluster → x.core = g.core → x.stop = .waitFrame → x.untended = false →
      x = g ∨ ((g.trap.map (·.order)).getD 0) < ((x.trap.map (·.order)).getD 0)) →
    let c := s.groupCtx g
    let q : Asker := { owner := .block g.id, die := g.die, cluster := g.cluster, port := g.core, ctx := c, part := s.groupPart g }
    let asks := s.gate q (s.needVa g.die c false (((s.ctx? c).map (·.hobj)).getD 0) 64)
    ∀ s1, (asks = (s1, false) → exec (.handlerFrameGrant g.die g.cluster g.core) s = .next s1) ∧
    (asks = (s1, true) → ∃ t, exec (.handlerFrameGrant g.die g.cluster g.core) s = .next t ∧
      t = { s1 with groups := t.groups, clusters := t.clusters } ∧
      t.group? g.id = some { g with
        frame := some { entries := [{ pc := s1.handlerEntry g, prio := 15, mask := (g.trap.map (·.tmask)).getD 0 }] }, stop := .handling } ∧
      AMap.get? (t.cluster g.die g.cluster).handler g.core = some g.id)) ∧
  (∀ (s : State) (o : CountedOp) (g : Group) (c : Context), Sole (fun p => p.id == o.id) s.ops o → s.group? o.grp = some g →
    g.stop = .running → g.inHandler = false → g.halted = false → (∀ x ∈ g.entries, x.midway = false) → o.id ∈ g.deliver →
    s.groupContext? g = some c → c.hobj ≠ 0 →
    ∃ t g' r, exec (.memoryErrorDelivery o.id) s = .next t ∧ t.group? g.id = some g' ∧ g'.stop = .waitFrame ∧ g'.trap = some r ∧
      r.cls = 0x0A ∧ r.pc = o.pc ∧ r.tmask = o.poisoned ∧ r.emask = o.emask ∧ r.addr = o.poisonAddr ∧ r.depth = o.depth ∧ r.prio = o.prio ∧
      r.isRep = o.isRep ∧ r.dests = o.dests ∧
      g' = { g with stop := g'.stop, trap := g'.trap, deliver := g.deliver.filter (· ≠ o.id) } ∧ t.mem = s.mem) ∧
  (∀ (s : State) (die ctx : Nat) (grp : Word) (g : Group), s.supGroup die ctx grp = some g → s.group? g.id = some g →
    s.isStranded g = false →
    let wrote (act : Nat) : State :=
      s.updDie die fun d => { d with trapres := BitVec.ofNat 128 (grp.toNat * 2 ^ 64 + ctx % 2 ^ 16 * 2 ^ 48 + act) }
    (g.handlerFaulted = true → exec (.trapresRetry die ctx grp) s = .next (wrote 0) ∧
      exec (.trapresForward die ctx grp) s = .next (wrote 1)) ∧
    (∀ t ga, g.trap = some t → t.cls ≠ 14 → t.cls ≠ 10 → s.gang? g.gang = some ga → ga.restoredOps = false →
      exec (.trapresRetry die ctx grp) s = .next ((wrote 0).updGroup g.id fun x => (wrote 0).surgeFall x x.resume)) ∧
    (∀ c, g.handlerFaulted = false → s.groupContext? g = some c → c.hobj ≠ 0 →
      ∃ u, exec (.trapresForward die ctx grp) s = .next u ∧ u = { wrote 1 with groups := u.groups, next := s.next + 1 } ∧
        u.group? g.id = some { g with stop := .waitFrame, trap := g.trap.map fun t => { t with order := s.next } }) ∧
    (∀ l, s.groupLaunch? g = some l → exec (.trapresTerminate die ctx grp) s = .next ((wrote 2).endLaunch l.id 0x82))) ∧
  (∀ (s : State) (d : Die) (v : BitVec 128), s.die? d.num = some d →
    let rw := v.toNat / 2 ^ 80 * 2 ^ 80
    (v.getLsbD 0 = false → exec (.preempt d.num v) s =
      .next (s.updDie d.num fun x => { x with preempt := BitVec.ofNat 128 (rw + d.preempt.toNat % 4) })) ∧
    (v.getLsbD 0 = true → d.preempt.getLsbD 0 = true → exec (.preempt d.num v) s = .next s) ∧
    (∀ ga c n, v.getLsbD 0 = true → d.preempt.getLsbD 0 = false →
      s.namedGangs d.num (v.toNat / 2 ^ 80 % 2 ^ 16) (v.toNat / 2 ^ 96) = [ga] → s.gang? ga.id = some ga → ga.slot = none →
      (∃ g ∈ s.gangGroups ga.id, g.retired = false) → s.ctx? (v.toNat / 2 ^ 80 % 2 ^ 16) = some c → c.freeSlot ga.need = some n →
      ∃ t, exec (.preempt d.num v) s = .next t ∧ t.gang? ga.id = some { ga with preempting := true, slot := some n } ∧
        (∀ k, t.group? k = (s.group? k).map fun g => if g.gang = ga.id then ({ g with preempting := true } : Group).withdrawTrap else g) ∧
        t.launch? ga.launch = (s.launch? ga.launch).map (·.withdrawn ga.pdie) ∧
        t.ctx? c.num = some { c with slots := insertNat c.slots n })) ∧
  (∀ (s : State) (ga : Gang) (l : Launch) (c : Context) (k : Nat), s.gang? ga.id = some ga → ga.preempting = true → ga.saved = none →
    (∀ a ∈ s.accs, ∀ g ∈ s.gangGroups ga.id, a.grp ≠ g.id) → ga.slot = some k → s.launch? ga.launch = some l → s.ctx? l.ctx = some c →
    s.gangDrained ga = true →
    ∃ t, exec (.gangSaved ga.id) s = .next t ∧ t = s.saveGang ga c k ∧ ∀ g ∈ t.groups, g.gang ≠ ga.id) ∧
  (∀ (s : State) (die : Nat) (v : BitVec 128),
    let ids := s.dbgTargets die v
    let acts (i : Instr) (f : Group → Group) : Prop := ∃ t, exec i s = .next t ∧ t = { s with groups := t.groups, dies := t.dies } ∧
      ∀ k, t.group? k = (s.group? k).map fun g => if g.id ∈ ids then f g else g
    acts (.dbgHalt die v) (fun g => if g.halted then g else { g with haltReq := true }) ∧
    acts (.dbgResume die v) (fun g => { g.unhalt with haltReq := false, stepping := false }) ∧
    acts (.dbgStep die v) (fun g => if g.halted then { g.unhalt with stepping := true } else g)) ∧
  (∀ (s : State) (g : Group), s.group? g.id = some g → g.haltReq = true → g.halted = false → (∀ e ∈ g.front, e.midway = false) →
    ∃ t, exec (.haltTakesEffect g.id) s = .next t ∧ t = { s with groups := t.groups } ∧
      t.group? g.id = some { g with halted := true, haltReq := false, doneCmds := [], haltRec := some { cls := 0, words := 0 } })

/-! ### Queues, dealing and readiness (spec 02, 04, 14) -/

/-- A doorbell sets TAIL and turns a running queue to overrun where TAIL went back or beyond the slots; a descriptor
write sets every writable field and STATE by the rules of R31. Admission takes the next LPB of a running queue: its
launch has sequence number HEAD + 1 and HEAD advances; an unreadable LPB ends with status 0x01 and one that depends on
itself with 0x83. A waiting launch whose dependences hold is released, a draw once its tile map can be read; a drained
one completes with status 0 and an ended one with its status, leaving the package. The model's choices: LOGN and RBASE
as they stand (log 67), a rejection before 0x83 (log 68), and commands of an ended launch that can never complete (log
89). (R12, R29, R30, R31, R32, R33, R34, R379) -/
def Obligations.QueueSteps : Prop :=
  (∀ (s : State) (c : Context) (q : Nat) (tail : BitVec 48), s.ctx? c.num = some c → q < 32 →
    let d : QDesc := AMap.getD c.queues q {}
    exec (.doorbellWrite c.num q tail) s = .next (s.updCtx c.num fun c =>
      let d : QDesc := AMap.getD c.queues q {}
      { c with queues := AMap.set c.queues q { d with
          tail := tail.toNat
          state := if d.state = 1 ∧ (tail.toNat < d.tail ∨ 2 ^ d.logn < tail.toNat - d.head) then 2 else d.state } }) ∧
    ∀ v : BitVec 256, ∃ t c' d', exec (.descriptorWrite c.num q v) s = .next t ∧ t = { s with ctxs := t.ctxs } ∧
      t.ctx? c.num = some c' ∧ c' = { c with queues := c'.queues } ∧ AMap.get? c'.queues q = some d' ∧
      d'.head = d.head ∧ d'.cseq = d.cseq ∧ d'.tail = v.toNat / 2 ^ 160 % 2 ^ 48 ∧ d'.en = v.getLsbD 85 ∧
      d'.sdie = v.toNat / 2 ^ 79 % 64 ∧ d'.logn = v.toNat / 2 ^ 75 % 16 ∧ d'.rbase = v.toNat % 2 ^ 56 ∧
      d'.state = (if d'.en = false then 0
        else if d'.tail < d'.head ∨ 2 ^ d'.logn < d'.tail - d'.head ∨ (s.die? d'.sdie).isNone = true then 2 else 1)) ∧
  (∀ (s : State) (n q : Nat) (v : BitVec 256), s.ctx? n = none → q < 32 →
    ∃ t c' d', exec (.descriptorWrite n q v) s = .next t ∧ t = { s with ctxs := t.ctxs } ∧ t.ctx? n = some c' ∧
      AMap.get? c'.queues q = some d' ∧ d'.head = 0 ∧ d'.cseq = 0 ∧ d'.tail = v.toNat / 2 ^ 160 % 2 ^ 48 ∧ d'.en = v.getLsbD 85 ∧
      d'.rbase = v.toNat % 2 ^ 56) ∧
  (∀ (s : State) (c : Context) (q : Nat), s.ctx? c.num = some c →
    let d : QDesc := AMap.getD c.queues q {}
    let va := d.rbase + 128 * (d.head % 2 ^ d.logn)
    let l0 : Launch := { id := s.next, ctx := c.num, queue := q, seq := d.head + 1, lpbAddr := va
                         lpb := BitVec.ofNat 1024 ((s.readVa d.sdie c.num va 128).getD 0) }
    let lpb := s.readVa d.sdie c.num va 128
    let asks := s.gate { owner := .admission c.num q, die := d.sdie, ctx := c.num, part := l0.part }
      (s.needVas d.sdie c.num ((va, 128) :: (if lpb.isSome then s.stageReads d.sdie c.num l0 else [])) [])
    (s.pkg.boot ≠ 3 ∨ d.state ≠ 1 ∨ d.tail ≤ d.head ∨ s.admissionHeld c.num q = true ∨ s.relocking d.sdie = true →
      exec (.admission c.num q) s = .next s) ∧
    (∀ s1, s.pkg.boot = 3 → d.state = 1 → d.head < d.tail → s.admissionHeld c.num q = false → s.relocking d.sdie = false →
      (asks = (s1, false) → exec (.admission c.num q) s = .next s1) ∧
      (asks = (s1, true) → ∃ t l, exec (.admission c.num q) s = .next t ∧ t.launches = s.launches ++ [l] ∧ l.ctx = c.num ∧ l.queue = q ∧
        l.seq = d.head + 1 ∧ l.lpbAddr = va ∧ t.mem = s.mem ∧
        t.ctx? c.num = some { c with queues := AMap.set c.queues q { d with head := d.head + 1 } } ∧
        (s.readVa d.sdie c.num va 128 = none → l.phase = .ending 1) ∧
        (∀ v, s.readVa d.sdie c.num va 128 = some v → l.lpb = BitVec.ofNat 1024 v ∧ l.phase ≠ .released ∧
          (l.selfDep = true → l.phase ≠ .waiting) ∧
          (lowestCode ((s1.readStages d.sdie c.num l0).1 ++ lpbCauses l0 (s.partDies c l0.part).isSome) = none →
            l.phase = if l0.selfDep then .ending 0x83 else .waiting))))) ∧
  (∀ (s : State) (l : Launch), s.launch? l.id = some l →
    (l.phase = .waiting → s.depsHold l = true → s.releaseHeld l (s.partOf l) = true → exec (.release l.id) s = .next s) ∧
    (l.phase = .waiting → s.depsHold l = true → s.releaseHeld l (s.partOf l) = false →
      ((s.partOf l).failed = true → exec (.release l.id) s = .next (s.releaseLaunch l)) ∧
      ∀ s1, (s.partOf l).failed = false →
        s.gate { owner := .release l.id, die := (s.partOf l).home, ctx := l.ctx, part := l.part } (s.releaseNeed l (s.partOf l).home) =
          (s1, true) → exec (.release l.id) s = .next (s1.releaseLaunch l)) ∧
    (s.relocking (s.serviceDie l) = true → exec (.launchCompletion l.id) s = .next s) ∧
    (l.phase = .waiting → s.depsHold l = false → exec (.release l.id) s = .next s) ∧
    (∀ st, (l.phase = .released ∧ s.drained l = true ∧ st = 0 ∨ l.phase = .ending st ∧ s.commandsRun l.id false = false) → l.compl = 0 →
      s.relocking (s.serviceDie l) = false →
      ∃ t, exec (.launchCompletion l.id) s = .next t ∧
        t = { s with
          ctxs := t.ctxs, launches := t.launches, active := t.active, colls := t.colls, streams := t.streams, reqs := t.reqs } ∧
        t.launches = s.launches.filter (fun x => x.id ≠ l.id) ∧ (∀ a ∈ s.active, a.cmd.launch ≠ l.id → a ∈ t.active) ∧
        ∀ c, s.ctx? l.ctx = some c → t.ctx? l.ctx = some { c with
          queues := AMap.set c.queues l.queue ((AMap.getD c.queues l.queue {}).completed (l.seq % 2 ^ 48) st) }) ∧
    (∀ s1 s2, l.phase = .released → s.drained l = true → l.compl ≠ 0 → s.relocking (s.serviceDie l) = false →
      s.gate { owner := .complete l.id, die := s.serviceDie l, ctx := l.ctx, part := l.part }
        (s.needVa (s.serviceDie l) l.ctx true l.compl 8) = (s1, true) →
      s1.writeVa (s1.serviceDie l) l.ctx l.compl 8 (l.queue * 2 ^ 48 + l.seq % 2 ^ 48) = (s2, true) →
      ∃ t, exec (.launchCompletion l.id) s = .next t ∧ t.mem = s2.mem ∧ t.launches = s2.launches.filter (fun x => x.id ≠ l.id)))

/-- A die of a running launch that deals asks where its stage-0 stock is 128 items or fewer; the home serves the
oldest request with the next 256 positions, or what is left, and the die receives them. A placement step restores a
saved gang that fits, or else places the shares of the co-resident launch the die holds for, or else one new gang; a
launch with stock that has not placed for 64 heartbeats holds the die. The model's choices: the launch a die holds for
(logs 28 and 71) and the order of restores (log 70). (R36, R53, R55, R56) -/
def Obligations.DealingSteps : Prop :=
  (∀ (s : State) (x : Launch) (die : Nat), s.launch? x.id = some x → x.live = true →
    (x.deal = true → x.cores = false → x.dies.contains die = true → (x.stock die 0).count ≤ 128 → (x.stock die 0).asked = false →
      (x.stock die 0).final = false → s.stalledPair die x.home = false → s.relocking die = false →
      exec (.dealRequest x.id die) s = .next (s.updLaunch x.id fun x =>
        { (x.updStock die 0 fun k => { k with asked := true }) with dealQ := x.dealQ ++ [die] })) ∧
    (∀ rest, x.dealQ = die :: rest → s.stalledPair die x.home = false → s.relocking x.home = false →
      let n := min 256 (x.total - x.supply)
      ∃ t, exec (.dealServe x.id) s = .next t ∧ t = { s with launches := t.launches } ∧
        t.launch? x.id = some { x with
          dealQ := rest, supply := x.supply + n
          dealR := AMap.set x.dealR die (if n = 0 then [] else [(x.supply, n)], decide (x.total ≤ x.supply + n)) }) ∧
    (∀ rs fin, AMap.get? x.dealR die = some (rs, fin) → s.stalledPair x.home die = false → s.relocking die = false →
      exec (.dealReply x.id die) s = .next (s.updLaunch x.id fun x =>
        let y := (x.updStock die 0 fun k => { k with ranges := k.ranges ++ rs, final := fin, asked := false }).dealtTo die rs
        { y with dealR := AMap.erase y.dealR die })) ∧
    (x.dies.contains die = true → (∃ k, k < x.nstage ∧ 0 < s.stockOf x die k) → x.holds.contains die = false →
      AMap.getD x.starve die 0 + 64 * 2048 ≤ s.gtime →
      exec (.starvationHold die x.id) s = .next (s.updLaunch x.id fun x => { x with holds := insertNat x.holds die }))) ∧
  (∀ (s : State) (die : Nat), s.relocking die = false →
    (∀ t, s.restoreStep die = some t → exec (.placementStep die) s = .next t) ∧
    (∀ l t, s.restoreStep die = none → s.heldFor die = some l → s.placeShares l = some t → exec (.placementStep die) s = .next t) ∧
    (∀ t, s.restoreStep die = none → s.heldFor die = none → s.placeNew die = some t → exec (.placementStep die) s = .next t))

/-- The level of a group that was ready and not chosen for 4,096 cycles rises by one up to 7; a stall expires; the
free surge pool goes to the group of the core that asked first; a parked entry whose condition holds is unparked, a
zcmp having completed; a selected refill entry fills the empty lanes; a continuation whose operations have completed
becomes ready; a group without items, records or commands retires with no entries and no registers, and a gang whose
groups have retired with no signature left is removed, or stands trapped where signatures remain. The model's choices:
a refill whose registers do not map (log 74), its place before a yielded entry (log 77), a refill during a stall (log
98) and a record's end test as it resumes (log 99). (R54, R90, R95, R98, R107, R370, R374, R376, R377, R378) -/
def Obligations.ReadinessSteps : Prop :=
  (∀ (s : State) (g : Group), s.group? g.id = some g →
    (4096 ≤ g.waited → g.level < 7 → ∃ t, exec (.levelRaise g.id) s = .next t ∧ t = { s with groups := t.groups } ∧
      t.group? g.id = some { g with level := g.level + 1, waited := g.waited - 4096 } ∧ ∀ k, k ≠ g.id → t.group? k = s.group? k) ∧
    (g.waited < 4096 ∨ 7 ≤ g.level → exec (.levelRaise g.id) s = .next s) ∧
    (∃ t, exec (.schedStallExpiry g.id) s = .next t ∧ t = { s with groups := t.groups } ∧ t.group? g.id = some { g with stall := 0 }) ∧
    (∀ w, g.surgeWait = some w → g ∈ s.groups →
      (∀ x ∈ s.groups, x.die = g.die → x.cluster = g.cluster → x.core = g.core → x.surge = false ∧
        ∀ y, x.surgeWait = some y → x = g ∨ w < y ∨ w = y ∧ s.srGroup g < s.srGroup x) →
      ∃ t, exec (.surgeGrant g.die g.cluster g.core) s = .next t ∧ t = { s with groups := t.groups } ∧
        t.group? g.id = some { g with surge := true, surgeWait := none }) ∧
    (∀ e, Sole (fun x => x.pc == e.pc && s.parkHolds g x) g.front e → (∀ c, e.park ≠ some (.zcmp c)) →
      exec (.entryUnpark g.id e.pc) s = .next (s.updGroup g.id fun x => x.updEntry e.mask fun y => { y with park := none })) ∧
    (∀ e c, Sole (fun x => x.pc == e.pc && s.parkHolds g x) g.front e → e.park = some (.zcmp c) →
      exec (.entryUnpark g.id e.pc) s = .next (s.updGroup g.id fun x => s.surgeFall x (x.closePark e.mask c))) ∧
    (∀ la st ga, s.groupLaunch? g = some la → s.groupStage? g = some st → s.gang? g.gang = some ga → g.free = true → ga.restoredOps = false →
      s.relocking g.die = false → s.refillSelected g = true → (s.cluster g.die g.cluster).power = .awake →
      let s1 := s.updLaunch la.id fun l => l.withdrawn g.die
      let fresh (m : Mask) : Entry := { pc := st.kobj + st.refill + 4, prio := st.rpri, mask := m }
      ((∀ x, s1.launch? la.id = some x → s1.nextCont x g.die ga.stage = none) →
        let r := fillFresh la.id ga.stage (freshLanes (la.isDraw && ga.stage == 1) (s1.emptyLanes g)) s1 g []
        exec (.refill g.id) s = .next (r.1.updGroup g.id fun _ =>
          { r.2.1 with entries := Entry.normalise (r.2.1.entries ++ [fresh (Mask.ofPred r.2.2.contains)]) })) ∧
      (∀ x c f y l, s1.launch? la.id = some x → s1.nextCont x g.die ga.stage = some (c, f) → s1.emptyLanes g = [l] →
        s1.regGate g (c.regs.map (·.1)) = .ok y →
        let y1 := c.regs.foldl (fun (g : Group) r => g.setV r.1 l r.2) ((y.fillLane l c.item).setP l c.pred)
        let past := endTest c.stack (c.pc - 4 * c.words) c.pc
        let e : Entry := { pc := past.1, prio := c.prio, mask := Mask.one l, stack := popLoops past.1 past.2 }
        ∃ t, exec (.refill g.id) s = .next t ∧ t.group? g.id = some { y1 with entries := Entry.normalise (y1.entries ++ [fresh 0, e]) } ∧
          (∀ z, z ∈ t.conts ↔ z ∈ s.conts ∧ z.id ≠ c.id) ∧ t.mem = s.mem ∧ ∀ k, k ≠ g.id → t.group? k = s.group? k)) ∧
    (g.retired = false → g.items = [] → (∀ c ∈ s.conts, c.grp ≠ g.id) → s.holdsRefill g = false → g.frame = none →
      g.engq = [] → g.matq = [] → (∀ o ∈ s.ops, o.grp ≠ g.id) → (∀ a ∈ s.accs, a.grp ≠ g.id) →
      exec (.groupRetire g.id) s = .next ((if g.pnd = 0 then s else s.logGroup g 2 0 g.pnd 0 0).updGroup g.id fun x =>
        { x with retired := true, entries := [], v := [], surge := false, surgeWait := none }))) ∧
  (∀ (s : State) (c : Cont), Sole (fun x => x.id == c.id && x.ready.isNone) s.conts c → s.contDone c = true →
    ∃ t, exec (.continuationReady c.id) s = .next t ∧ t = { s with mem := t.mem, conts := t.conts, next := s.next + 1 } ∧
      t.conts = s.conts.map fun x => if x.id = c.id then { x with ready := some s.next } else x) ∧
  (∀ (s : State) (ga : Gang), s.gang? ga.id = some ga → ga.saved = none → ga.stranded = false →
    (∀ g ∈ s.groups, g.gang = ga.id → g.retired = true) →
    ((∀ x ∈ ga.cv, x.2.sig = 0) → exec (.gangRetire ga.id) s = .next (s.removeGang ga)) ∧
    (ga.signed ≠ 0 → ga.preempting = false → exec (.gangRetire ga.id) s = .next (s.strand ga)) ∧
    (∀ r g, ga.cv.find? (fun c => c.2.sig != 0) = some r → Sole (fun x => some x.index == some r.2.last) (s.gangGroups ga.id) g →
      s.group? g.id = some g → ∃ g', (s.strand ga).group? g.id = some g' ∧ ∃ z, g'.trap = some z ∧ z.cls = 2 ∧ z.detail = 9 ∧
        z.info = BitVec.ofNat 32 ga.signed))

/-! ### Power, clocks, walks, failures and the package (spec 02, 08, 09, 11, 15) -/

/-- A free inrush token goes to the oldest request and comes back when the cluster is awake; an idle awake cluster is
committed to gating, and at its end store and scale memory are blank and all four quarters off. An idle quarter is
gated and reads zero once it wakes; a cleared range reads zero, its granules empty, and is free. Four ways of a die
cache are gated and wake invalid. A die may step to another of its six frequencies 50 us after its last step: it
writes the step record, relocks for 2 us and counts on from C at the new frequency, and what reached it of package
barriers meanwhile takes effect. (R57, R58, R229, R230, R231, R234, R322, R323) -/
def Obligations.PowerSteps : Prop :=
  (∀ (s : State) (die : Nat) (d : Die), s.die? die = some d →
    (∀ k w cl, d.tokens = k + 1 → (w, cl) ∈ d.wakes → (∀ x ∈ d.wakes, w < x.1 ∨ w = x.1 ∧ cl ≤ x.2) →
      exec (.inrushGrant die) s = .next ((s.updDie die fun d => { d with tokens := k, wakes := d.wakes.erase (w, cl) }).updCluster die cl
        fun c => { c with power := .waking })) ∧
    (d.tokens = 0 ∨ d.wakes = [] → exec (.inrushGrant die) s = .next s) ∧
    (∀ f, f ∈ [18, 16, 14, 12, 10, 8] → f ≠ d.freq → d.relock = none → d.failed = false → (∀ t, d.lastRelock = some t → t + 50000 ≤ s.gtime) →
      ∃ t d', exec (.frequencyStep die f) s = .next t ∧ t = { s with dies := t.dies } ∧ t.die? die = some d' ∧ t.relocking die = true ∧
        d' = { d with stepG := s.gtime, stepC := d.cyc + 1, ratio := BitVec.ofNat 64 (d.freq * 256 + f), relock := some (s.gtime + 2000), hot := d'.hot }) ∧
    (∀ t, d.relock = some t → t ≤ s.gtime →
      ∃ u d', exec (.relockEnd die) s = .next u ∧ u = { s with dies := u.dies, launches := u.launches, groups := u.groups } ∧
        u.die? die = some d' ∧ u.relocking die = false ∧
        ((∀ x ∈ s.launches, x.brokenBy = none ∧ die ∉ x.releasing) → u.launches = s.launches ∧ u.groups = s.groups) ∧
        (∀ x, s.launches = [x] → x.brokenBy = none → die ∈ x.releasing → s.treeCut 16 die = false →
          u.launches = [{ x with releasing := x.releasing.filter (· ≠ die) }] ∧
          ∀ g ∈ s.groups, s.group? g.id = some g → ∃ b w, u.group? g.id = some (
            if g.id ∈ (s.launchGroups x.id die).map (·.id) then { g.releasePbar syncstEpisode with surge := b, surgeWait := w } else g)) ∧
        let f := d.ratio.toNat % 256
        d' = { d with relock := none, lastRelock := some t, freq := f, cyc := d.stepC + (s.gtime - t) * f / 10, frac := (s.gtime - t) * f % 10 }) ∧
    (∀ t, d.relock = some t → s.gtime < t → ∃ u, exec (.relockEnd die) s = .next u ∧ u.die? die = some d) ∧
    (∀ w, w < 4 →
      (∃ t d', exec (.dieCacheWayGate die w) s = .next t ∧ t = { s with dies := t.dies } ∧ t.die? die = some d' ∧
        d' = { d with waysOff := d'.waysOff, lines := d'.lines } ∧ (∀ k, k < 4 → d'.waysOff.getLsbD k = (k == w || d.waysOff.getLsbD k)) ∧
        ∀ x, x ∈ d'.lines ↔ x ∈ d.lines ∧ x.way / 4 ≠ w) ∧
      (∃ t d', exec (.dieCacheWayWake die w) s = .next t ∧ t = { s with dies := t.dies } ∧ t.die? die = some d' ∧
        d' = { d with waysOff := d'.waysOff } ∧ ∀ k, k < 4 → d'.waysOff.getLsbD k = (k != w && d.waysOff.getLsbD k)))) ∧
  (∀ (s : State) (die cl : Nat),
    let c := s.cluster die cl
    (c.power = .waking → exec (.clusterWakeEnd die cl) s = .next ((s.updCluster die cl fun c => { c with power := .awake }).updDie die
      fun d => { d with tokens := d.tokens + 1 })) ∧
    (c.power = .awake → (∀ g ∈ s.groups, ¬(g.die = die ∧ g.cluster = cl)) → (∀ g ∈ s.gangs, ¬(g.die = die ∧ g.cluster = cl ∧ g.saved = none)) →
      c.clearing = [] → s.atBanks die cl = [] → s.unitsAt die cl = [] → c.running = none → (s.die? die).isSome = true →
      exec (.clusterGate die cl) s = .next (s.updCluster die cl fun c => { c with power := .gatingDown })) ∧
    ((∃ g ∈ s.groups, g.die = die ∧ g.cluster = cl) → exec (.clusterGate die cl) s = .next s) ∧
    (c.power = .gatingDown → exec (.gateDownEnd die cl) s = .next ((s.blankCluster die cl).updCluster die cl fun c =>
      { c with power := .gated, quarters := [.off, .off, .off, .off] })) ∧
    (∀ q, q < 4 → s.quarterIdle die cl q = true → c.quarters.getD q .off = .on → exec (.storeQuarterGate die cl q) s =
      .next ((s.blankRange die cl (262144 * q) 262144).updCluster die cl fun c => { c with quarters := c.quarters.set q .off })) ∧
    (∀ q, c.quarters.getD q .off = .waking → exec (.quarterWakeEnd die cl q) s =
      .next (s.updCluster die cl fun c => { c with quarters := c.quarters.set q .on })) ∧
    (∀ start n, c.clearing.find? (fun r => r.1 == start) = some (start, n) → s.rangeWanted die cl start n = true →
      exec (.rangeClearEnd die cl start) s = .next s) ∧
    (∀ start n, c.clearing.find? (fun r => r.1 == start) = some (start, n) → s.rangeWanted die cl start n = false →
      exec (.rangeClearEnd die cl start) s = .next ((s.blankRange die cl start n).updCluster die cl fun c => { c with clearing := c.clearing.filter fun r => r.1 ≠ start })) ∧
    (s.memOk = true → ∀ start n, let t := s.blankRange die cl start n
      let lo := storeLoc die cl start
      t.memOk = true ∧ (∀ a, Memory.read t.mem a = if lo ≤ a ∧ a < lo + n then 0 else Memory.read s.mem a) ∧
      ∀ a, t.isFull a = (s.isFull a && !(decide (lo / 16 ≤ a / 16) && decide (a / 16 < (lo + n) / 16)))) ∧
    (s.memOk = true → let t := s.blankCluster die cl
      t.memOk = true ∧ ∀ a, Memory.read t.mem a =
        if storeLoc die cl 0 ≤ a ∧ a < storeLoc die cl 0 + 2 ^ 20 ∨ scaleLoc die cl 0 ≤ a ∧ a < scaleLoc die cl 0 + 2 ^ 16 then 0
        else Memory.read s.mem a))

/-- A die runs at most 64 walks at once and starts the oldest waiting one whose page no running walk wants; a walk
whose reads are done gives its result to every walk of its die that waited for the page, and its leaf enters the TLBs
of those that asked, unless it read an invalidated entry. TLBINV with GO = 1 marks the running walks of its range and
stands behind the die's earlier invalidations; the oldest is done once those walks have ended and no command in
progress has still to use a translation of the range, and then no TLB holds an entry of the range, every other entry
stays, and GO reads 0 if no later one is left. That a walk asks for all its packets together is the model's choice
(log 85). (R253, R254, R255) -/
def Obligations.WalkSteps : Prop :=
  (∀ (s : State) (die : Nat),
    let starts (w : Walk) : Bool := w.die == die && w.isWaiting && !s.walks.any fun x => x.isRunning && s.sameWalk x w
    let busy := (s.walks.filter fun w => w.die == die && w.isRunning).length
    (64 ≤ busy → exec (.pageWalkStart die) s = .next s) ∧
    (busy < 64 → s.walks.find? starts = none → exec (.pageWalkStart die) s = .next s) ∧
    (∀ w, busy < 64 → s.walks.find? starts = some w → exec (.pageWalkStart die) s =
      .next { s with walks := s.walks.map fun x => if x.id = w.id then { x with phase := .running } else x })) ∧
  (∀ (s : State) (w : Walk), Sole (fun x => x.id == w.id && x.die == w.die && x.isRunning) s.walks w →
    let asks := s.askFor { owner := .walk w.id, die := w.die, cluster := w.cluster, ctx := w.ctx, part := w.part } (s.walkBytes w) []
    let va := 65536 * w.vpn
    let takes (x : Walk) : Bool := x.id == w.id || (x.isWaiting && s.sameWalk w x)
    ∀ s1, (asks = (s1, false) → exec (.pageWalkDone w.die w.id) s = .next s1) ∧ (asks = (s1, true) →
    ∃ t, exec (.pageWalkDone w.die w.id) s = .next t ∧
      t = { s1 with walks := t.walks, clusters := t.clusters, dies := t.dies, pkg := (s.noteWalk w.ctx va).pkg } ∧
      (∀ level pte, s.walk w.ctx va = .leaf level pte →
        t.walks = (s.walks.map fun x => if takes x then { x with phase := .done (some (va, level, BitVec.ofNat 64 pte)) 0 } else x) ∧
        (w.stale = true → t.clusters = s.clusters ∧ t.dies = s.dies) ∧
        (w.stale = false → ∀ x ∈ s.walks, takes x = true → x.install = true →
          (x.cluster < 32 → leafEntry w.ctx va level pte ∈ (t.cluster w.die x.cluster).tlb) ∧
          ∀ d, s.die? w.die = some d → ∃ d', t.die? w.die = some d' ∧ leafEntry w.ctx va level pte ∈ d'.tlb)) ∧
      (∀ c, s.walk w.ctx va = .cause c → t.clusters = s.clusters ∧ t.dies = s.dies ∧
        t.walks = s.walks.map fun x => if takes x then { x with phase := .done none c } else x))) ∧
  (∀ (s : State) (die : Nat) (d : Die) (v : BitVec 128), s.die? die = some d →
    let kept (busy : Bool) : BitVec 128 :=
      (v &&& ~~~(BitVec.ofNat 128 (0xFF * 2 ^ 48 + 0xFFFFFFF1))) ||| (if busy then 1 else 0)
    (v.getLsbD 0 = false → exec (.tlbinv die v) s = .next (s.updDie die fun d => { d with tlbinv := kept (!d.invs.isEmpty) })) ∧
    (v.getLsbD 0 = true → exec (.tlbinv die v) s = .next ({ s with
      walks := s.walks.map fun (w : Walk) =>
        if w.isRunning && invHits v.toNat w.ctx (w.vpn * 65536) 65536 then { w with stale := true } else w }.updDie die
          fun d => { d with tlbinv := kept true, invs := d.invs ++ [v] }))) ∧
  (∀ (s : State) (die : Nat) (d : Die), s.die? die = some d →
    (d.invs = [] → exec (.tlbinvDone die) s = .next s) ∧
    ∀ i rest, d.invs = i :: rest →
      let v := i.toNat
      let hit (e : TlbE) : Bool := invHits v e.ctx e.va (pageSize e.level)
      let runs : Bool := s.walks.any fun w => w.isRunning && w.stale && invHits v w.ctx (w.vpn * 65536) 65536
      (runs = true ∨ s.oldPlans v = true → exec (.tlbinvDone die) s = .next s) ∧
      (runs = false → s.oldPlans v = false →
        ∃ t d', exec (.tlbinvDone die) s = .next t ∧ t = { s with walks := t.walks, clusters := t.clusters, dies := t.dies } ∧
          t.die? die = some d' ∧
          d' = { d with tlb := d'.tlb, invs := rest, tlbinv := if rest = [] then d.tlbinv &&& ~~~1#128 else d.tlbinv } ∧
          (∀ n x, s.die? n = some x → ∃ x', t.die? n = some x' ∧ x'.tlb = x.tlb.filter fun e => !hit e) ∧
          ∀ c k, (t.cluster c k).tlb = (s.cluster c k).tlb.filter fun e => !hit e))

/-- A failed edge or router is recorded and every valid partition that holds a stalled pair is declared failed; a
failed host-link port fails the partitions that map host memory; a failed peer port those of the running launches that
await it; a failed die has no access in flight, breaks the package barriers it takes part in, and then fails the
partitions that hold it (two turns of one step: log 73). A core stalled for WDT heartbeats is scanned out once, its
groups with their counters and command states, with event 0x04 and nothing else changed; a write of WDTCTL takes
effect at a later heartbeat with all stall counts at zero. The sixteenth corrected error of a page within an hour
retires the page, whose errors are then counted afresh (log 41). (R45, R380, R383, R389, R390, R391, R392, R400) -/
def Obligations.FailureSteps : Prop :=
  (∀ (s : State) (px py dir : Nat), px < 9 → py < 8 → dir ≤ 4 →
    let e := edgeOf px py dir
    let s' := s.updPkg fun p => if p.edgesFailed.contains e then p else { p with edgesFailed := p.edgesFailed ++ [e] }
    e ∈ s'.pkg.edgesFailed ∧ exec (.edgeFailure px py dir) s = .next (s'.failParts s'.holdsStalled)) ∧
  (∀ (s : State) (port : Nat), port < 4 →
    let s' := s.updPkg fun p => { p with portsFailed := insertNat p.portsFailed port }
    exec (.hostLinkPortFail port) s = .next (s'.failParts fun c _ => s'.mapsHost 5 0 c.root)) ∧
  (∀ (s : State) (n : Nat), n < 8 →
    let s' := s.updPkg fun p => { p with peersFailed := insertNat p.peersFailed n }
    exec (.peerPortFail n) s = .next ((s'.launches.filter fun l => l.live && s'.awaitsPeer l n).foldl State.failLaunchPartition s')) ∧
  (∀ (s : State) (l : Launch), (s.partOf l).failed = true →
    s.failLaunchPartition l = s.endLaunch l.id 0x80) ∧
  (∀ (s : State) (p : Context → Partition → Bool) (c : Context) (n : Nat) (x : Partition), s.ctx? c.num = some c →
    AMap.get? c.parts n = some x → x.valid = true → x.failed = false → p c x = true →
    ∃ c', (s.failParts p).ctx? c.num = some c' ∧ (AMap.getD c'.parts n {}).failed = true) ∧
  (∀ (s : State) (die : Nat) (d : Die), s.die? die = some d →
    (d.failed = false → ∃ t d', exec (.dieFailed die) s = .next t ∧ t.die? die = some d' ∧ d'.failed = true ∧
      (∀ a ∈ t.accs, a.die ≠ die) ∧ die ∈ t.pkg.declaring ∧
      ∀ l, s.launch? l.id = some l → l.live = true → die ∈ l.dies → l.arrived ≠ [] →
        ∃ l', t.launch? l.id = some l' ∧ l'.brokenBy = some (l.brokenBy.getD die)) ∧
    (d.failed = true → die ∈ s.pkg.declaring → ∃ t, exec (.dieFailed die) s = .next t ∧ die ∉ t.pkg.declaring ∧
      ∀ c n x, s.ctx? c.num = some c → AMap.get? c.parts n = some x → x.valid = true → x.failed = false → x.dmask.getLsbD die = true →
        ∃ c', t.ctx? c.num = some c' ∧ (AMap.getD c'.parts n {}).failed = true) ∧
    (d.failed = true → die ∉ s.pkg.declaring → exec (.dieFailed die) s = .next s)) ∧
  (∀ (s : State) (die cl core : Nat) (d : Die), s.die? die = some d →
    let x := AMap.getD (s.cluster die cl).stalls core (0, 0, false)
    let gs := (s.residents die cl).filter fun g => g.core == core
    let log : Scanout :=
      { die := die, cluster := cl, core := core, groups := gs
        counters := gs.map fun g => (g.id, (List.range 4).map fun k => s.counter g.id k)
        commands := gs.map fun g => (g.id, (s.cmdStates g).map fun c => (c.1, c.2.code))
        readLanes := gs.map fun g => (g.id, (g.entries.filter fun e => e.park == some .ldfe).map fun e => (e.pc, e.readDone)) }
    (d.wdt = 0 ∨ x.2.1 < d.wdt.toNat ∨ x.2.2 = true → exec (.watchdogScanout die cl core) s = .next s) ∧
    (d.wdt ≠ 0 → d.wdt.toNat ≤ x.2.1 → x.2.2 = false → exec (.watchdogScanout die cl core) s =
      .next (((s.updCluster die cl fun c => { c with stalls := AMap.set c.stalls core (x.1, x.2.1, true) }).updPkg fun p =>
        { p with scanouts := p.scanouts ++ [log] }).event 4 die (cl * 4 + core)))) ∧
  (∀ (s : State) (die : Nat) (d : Die) (v : BitVec 64), s.die? die = some d →
    exec (.wdtctlWrite die v) s = .next (s.updDie die fun d => { d with wdtNext := some (v.truncate 16, s.gtime / 2048) }) ∧
    ∀ w h, d.wdtNext = some (w, h) →
      (s.gtime / 2048 ≤ h → exec (.wdtRestart die) s = .next s) ∧
      (h < s.gtime / 2048 → ∃ t d', exec (.wdtRestart die) s = .next t ∧ t = { s with dies := t.dies, clusters := t.clusters } ∧
        t.die? die = some d' ∧ d' = { d with wdt := w, wdtNext := none } ∧
        t.clusters = s.clusters.map fun c => if c.key / 32 = die then
          { c with stalls := c.stalls.map fun x => (x.1, x.2.1, 0, x.2.2.2) } else c)) ∧
  (∀ (s : State) (die page : Nat) (d : Die), s.die? die = some d →
    let recent := (s.pkg.pageErrors ++ [(die, page, s.gtime)]).filter fun x => decide (s.gtime < x.2.2 + 3600000000000)
    let n := (recent.filter fun x => x.1 == die && x.2.1 == page).length
    (n < 16 → exec (.correctedErrorRetire die page) s = .next (s.updPkg fun p => { p with pageErrors := recent })) ∧
    (16 ≤ n → ∃ t, exec (.correctedErrorRetire die page) s = .next t ∧ t = { s with pkg := t.pkg } ∧
      t.pkg.pageGone (9 * d.py + d.px) (65536 * page) = true ∧ ∀ x ∈ t.pkg.pageErrors, ¬(x.1 = die ∧ x.2.1 = page)))

/-- Power-up of a package that does not run refuses a bad image into recovery or goes to self-test, which classifies
every site and has those it finds below full appended to the retirement log; forming the mesh then reports 4 with
cause 1 where no mesh of its grade forms and cause 2 where a link has no path, and otherwise the package is ready, its
generation raised by one where mapping or paths changed. The host reads BOOTST and PKGPWR; an update or recovery image
is taken as R387 says, the seven SPDM requests are answered, host windows are written, LIMIT stays at most LATCH, the
current limiter trips and releases, a die at 105 C steps to 0.8 GHz and at 115 C all rails go, flash remaining. A
write of registerWrite by system software sets a partition record's fields, its failure ended, or a tensor entry,
reserved bits left out (log 22). The model's choices: a die at boot (logs 3, 4), the parts of POWER_UP (log 40), the
die a power window steps (log 30), the class of a site with a failed edge (log 31), the sites demoted (log 90), the
CRC of a retirement entry (log 29), kept latencies (log 69), the values in SPDM responses (log 12), and what a package
without power keeps (log 43). (R5, R20, R42, R43, R47, R384, R386, R387, R388, 15_package_host_and_management.md) -/
def Obligations.BootSteps : Prop :=
  (∀ (s : State),
    let f := s.pkg.flash
    let cs := s.pkg.sites
    let goes (st cause : Nat) (P : State → Prop) : Prop := ∃ t, exec .powerUp s = .next t ∧ t.pkg.powered = true ∧ t.pkg.boot = st ∧
      t.pkg.bootCause = cause ∧ P t
    (s.pkg.powered = false ∨ s.pkg.boot = 0 →
      let latched (t : State) : Prop := t.pkg.latch = f.latch ∧ t.pkg.limit = f.latch ∧ t.pkg.flash.gen = f.gen
      (∀ c, f.refused = some c → goes 5 c latched) ∧ (f.refused = none → goes 1 s.pkg.bootCause latched)) ∧
    (s.pkg.powered = true → s.pkg.boot = 1 →
      ∃ as : List RetEntry,
        exec .powerUp s = .next (s.updPkg fun p => { p with
          sites := (List.range 72).map s.pkg.classify, boot := 2, appending := p.appending ++ as }) ∧
        ((∀ n, n < 72 → s.pkg.classify n = .full) → as = []) ∧
        ∀ n, n < 72 → s.pkg.classify n ≠ .full → s.pkg.appending = [] → (∀ e ∈ bootLog s.pkg.flash.log, e.site ≠ n) →
          ∃ e ∈ as, e.site = n ∧ e.kind = (if s.pkg.classify n = .dark then 3 else 2) ∧ e.good = true) ∧
    (s.pkg.powered = true → s.pkg.boot = 2 →
      (formMesh cs (f.grade / 8) = none → goes 4 1 fun t => t.pkg.flash.gen = f.gen ∧ t.pkg.flash.mapping = f.mapping) ∧
      (∀ ms, formMesh cs (f.grade / 8) = some ms → formLinks cs ms (s.draw + 1) = none →
        goes 4 2 fun t => t.pkg.flash.gen = f.gen ∧ t.pkg.flash.mapping = f.mapping) ∧
      (∀ ms ls, formMesh cs (f.grade / 8) = some ms → formLinks cs ms (s.draw + 1) = some ls →
        let shape (l : LinkPath) : Nat × Nat × List (Nat × Nat) := (l.die, l.dir, l.path)
        let same : Prop := f.mapping = ms ∧ f.paths.map shape = ls.map shape
        goes 3 0 fun t => t.pkg.flash.mapping = ms ∧ t.dies = (ms.mapIdx fun n p => { num := n, px := p.1, py := p.2 }) ∧
          t.pkg.mirrors = mirrorMaps t.pkg.links ∧
          (same → t.pkg.flash.gen = f.gen ∧ t.pkg.links = f.paths) ∧ (¬same → t.pkg.flash.gen = f.gen + 1 ∧ t.pkg.links = ls))) ∧
    (s.pkg.powered = true → s.pkg.boot ≠ 0 → s.pkg.boot ≠ 1 → s.pkg.boot ≠ 2 → exec .powerUp s = .next s)) ∧
  (∀ (s : State),
    let read (sp : HostSpace) (x : Nat) : Prop := exec (.hostMemoryAccess { write := false, pa := 0, size := 8, data := 0, space := sp }) s =
      .next (s.updPkg fun p => { p with hostReads := p.hostReads ++ [BitVec.ofNat 64 x] })
    let p := s.pkg
    read .bootst ((if p.boot = 3 then p.flash.gen.toNat * 2 ^ 32 + p.flash.grade * 2 ^ 24 else 0) + p.bootCause * 2 ^ 16 + p.boot) ∧
    read .pkgpwr (p.latch.toNat * 2 ^ 48 + p.limit.toNat * 2 ^ 32 + p.now.toNat * 2 ^ 16 + (if p.curl = true then 4 else 0) +
      (if s.therm = true then 2 else 0) + (if p.throt = true then 1 else 0))) ∧
  (∀ (s : State) (ok : Bool) (ver : Nat),
    (s.pkg.boot ≠ 0 → (s.pkg.boot = 5 → s.pkg.recovery = true) → ∃ t, exec (.imageUpdate ok ver) s = .next t ∧
      t = s.fresh.updPkg (fun p => { p with flash := t.pkg.flash }) ∧ t.pkg.flash.refused =
        if ok = false then some 1 else if ver < s.pkg.flash.minSecVer then some 3 else none) ∧
    (s.pkg.boot = 5 → s.pkg.recovery = false → exec (.imageUpdate ok ver) s = .next s) ∧
    (s.pkg.boot = 5 → exec (.recoveryImageLoad ok ver) s =
      .next (if ok = true ∧ s.pkg.flash.minSecVer ≤ ver then s.updPkg fun p => { p with recovery := true } else s))) ∧
  (∀ (s : State), s.pkg.boot ≠ 0 →
    let answer (s : State) (code : Nat) (vs : List Nat) : State := s.updPkg fun p => { p with spdmOut := p.spdmOut ++ [(code, vs)] }
    exec .getVersion s = .next (answer s 0 [0x13]) ∧ exec .getCapabilities s = .next (answer s 1 [0]) ∧
    exec .negotiateAlgorithms s = .next (answer s 2 [521, 512]) ∧ exec .getDigests s = .next (answer s 3 [Config.spdm 3 s.pkg.flash.chain]) ∧
    exec .getCertificate s = .next (answer s 4 [s.pkg.flash.chain]) ∧ (∀ n, ∃ v, exec (.challenge n) s = .next (answer s.drawn 5 [n, v])) ∧
    exec .getMeasurements s = .next (answer s 6 [Config.spdm 6 0, Config.spdm 7 s.pkg.flash.image, Config.spdm 8 s.pkg.flash.config,
      s.pkg.flash.gen.toNat, sha512 ((List.range 72).map fun n => s.rd (lensLoc + 2624 + n) 1)])) ∧
  (∀ (s : State) (n : Nat) (v : BitVec 128),
    let p := s.pkg
    (n < 32 → ∃ t, exec (.hostWindowWrite n v) s = .next t ∧ t = s.updPkg (fun p => { p with windows := t.pkg.windows }) ∧
      (∀ k, k ≠ n → AMap.get? t.pkg.windows k = AMap.get? p.windows k) ∧ ∃ w, AMap.get? t.pkg.windows n = some w ∧
        w.valid = v.getLsbD 0 ∧ w.w = v.getLsbD 1 ∧ w.tgt = v.toNat / 2 ^ 8 % 16 ∧ w.ctx = v.toNat / 2 ^ 48 % 2 ^ 16 ∧
        w.base = v.toNat / 2 ^ 64 % 2 ^ 32 ∧ w.limit = v.toNat / 2 ^ 96) ∧
    (n < 8 → exec (.peerPortEnable n) s = .next (s.updPkg fun p => { p with peers := insertNat p.peers n })) ∧
    (∀ l : BitVec 16, exec (.pkgpwrWrite l) s = .next (s.updPkg fun p => { p with limit := if p.latch < l then p.latch else l })) ∧
    (∀ a, (p.ampCeiling < a → exec (.currentLimitTrip a) s = .next (s.updPkg fun p => { p with curl := true })) ∧
      (a ≤ p.ampCeiling → exec (.currentLimitTrip a) s = .next s) ∧
      (100 * a < 95 * p.ampCeiling → exec (.currentLimitRelease a) s = .next (s.updPkg fun p => { p with curl := false }))) ∧
    (∀ w : BitVec 16, let s' := s.updPkg fun p => { p with now := w }
      exec (.powerWindow w) s = .next (if p.limit ≤ w then s'.throttle else if 100 * w.toNat < 95 * p.limit.toNat then s'.unthrottle else s'))) ∧
  (∀ (s : State) (die : Nat) (d : Die) (c : Nat), s.die? die = some d →
    (105 ≤ c → d.freq ≠ 8 → d.relock = none → d.failed = false → (∀ t, d.lastRelock = some t → t + 50000 ≤ s.gtime) →
      ∃ t d', exec (.thermalStep die c) s = .next t ∧ t.die? die = some d' ∧ d'.hot = true ∧ d'.relock = some (s.gtime + 2000) ∧
        d'.ratio.toNat % 256 = 8 ∧ t.therm = true) ∧
    (c < 105 → exec (.thermalStep die c) s = .next s)) ∧
  (∀ (s : State) (c n : Nat),
    let off (r : Out) (log : List RetEntry) : Prop := ∃ t, r = .next t ∧ t.groups = [] ∧ t.dies = [] ∧ t.accs = [] ∧ t.pkg.powered = false ∧
      t.pkg.boot = 0 ∧ t.pkg.flash = { s.pkg.flash with log := log } ∧
      (s.memOk = true → ∀ a, Memory.read t.mem a = if paHost a = true ∧ a < 2 ^ 52 then Memory.read s.mem a else 0)
    (115 ≤ c → off (exec (.thermalTrip c) s) s.pkg.flash.log) ∧ (c < 115 → exec (.thermalTrip c) s = .next s) ∧
    (s.pkg.appending = [] → off (exec (.powerLoss n) s) s.pkg.flash.log) ∧
    (∀ e t, s.pkg.appending = e :: t → off (exec (.powerLoss n) s) (bootLog s.pkg.flash.log ++ [e.upTo n]))) ∧
  (∀ (s : State) (r : CtrlReg) (v : BitVec 512), ∃ t, exec (.registerWrite r v) s = .next t ∧
    (∀ c k, r = .partition c.num k → k < 16 → s.ctx? c.num = some c → ∃ c' p, t = { s with ctxs := t.ctxs } ∧ t.ctx? c.num = some c' ∧
      c' = { c with parts := c'.parts } ∧ AMap.get? c'.parts k = some p ∧ p.failed = false ∧ p.valid = v.getLsbD 64 ∧
      p.dmask = v.extractLsb' 0 64 ∧ p.cmask = v.extractLsb' 96 32 ∧ p.home = v.toNat / 2 ^ 90 % 64) ∧
    (∀ c k, r = .tensorEntry c.num k → k < 256 → s.ctx? c.num = some c → ∃ c', t = { s with ctxs := t.ctxs } ∧ t.ctx? c.num = some c' ∧
      c' = { c with tensors := AMap.set c.tensors k (v &&& ~~~(BitVec.ofNat 512 entReserved)) }))
end

