-- ==== Sys2Proof/Laws/Fields.lean ====
section
/-! SUPPORT. Fields: reading a format's bits back gives its fields, and its reserved bits are zero (R66). -/

set_option Elab.async false

namespace Sys2Proof

/-- A field above the low part of a word. -/
theorem slice_high {a b : Nat} (x : BitVec a) (y : BitVec b) (k n j : Nat) (h : k = b + j) :
    (x ++ y).extractLsb' k n = x.extractLsb' j n := by
  subst h
  ext i hi
  simp only [BitVec.getElem_extractLsb', BitVec.getLsbD_append]
  rw [if_neg (by omega)]
  congr 1
  omega

/-- The low part of a word. -/
theorem slice_low {a b : Nat} (x : BitVec a) (y : BitVec b) : (x ++ y).extractLsb' 0 b = y := by
  ext i hi
  simp [BitVec.getLsbD_append, hi]

/-- A whole word. -/
theorem slice_all {a : Nat} (x : BitVec a) : x.extractLsb' 0 a = x := by
  ext i hi
  simp

/-- A bit above the low part of a word. -/
theorem bit_high {a b : Nat} (x : BitVec a) (y : BitVec b) (k j : Nat) (h : k = b + j) :
    (x ++ y).getLsbD k = x.getLsbD j := by
  subst h
  rw [BitVec.getLsbD_append, if_neg (by omega)]
  congr 1
  omega

/-- A bit of the low part of a word. -/
theorem bit_low {a b : Nat} (x : BitVec a) (y : BitVec b) (k : Nat) (h : k < b) : (x ++ y).getLsbD k = y.getLsbD k := by
  rw [BitVec.getLsbD_append, if_pos h]

/-- A flag as a bit. -/
theorem bit_flag (b : Bool) : (BitVec.ofBool b).getLsbD 0 = b := by cases b <;> rfl

/-- Parts that hold no bit of a mask make a word that holds none. -/
theorem and_parts {a b : Nat} (x m : BitVec a) (y n : BitVec b) (hx : x &&& m = 0) (hy : y &&& n = 0) :
    (x ++ y) &&& (m ++ n) = 0 := by
  rw [BitVec.and_append, hx, hy]
  simp

/-- A source is the one its code names (Table 3.5). -/
theorem Src.ofCode_code (s : Src) : Src.ofCode s.code = s := by
  cases s <;> rename_i n <;> revert n <;> decide

/-- The fields of `FR` read back. -/
theorem FR.ofBits_bits (f : FR) : FR.ofBits f.bits = f := by
  have h0 : f.bits.getLsbD 17 = f.nw := (bit_high _ _ 17 11 rfl).trans <| (bit_high _ _ 11 5 rfl).trans <| (bit_high _ _ 5 0 rfl).trans <| bit_flag _
  have h1 : f.bits.extractLsb' 12 5 = f.d := (slice_high _ _ 12 5 6 rfl).trans <| (slice_high _ _ 6 5 0 rfl).trans <| slice_low _ _
  have h2 : f.bits.extractLsb' 6 6 = f.a.code := (slice_high _ _ 6 6 0 rfl).trans <| slice_low _ _
  have h3 : f.bits.extractLsb' 0 6 = f.b.code := slice_low _ _
  simp only [FR.ofBits, h0, h1, h2, h3, Src.ofCode_code]

/-- The fields of `FRu` read back. -/
theorem FRu.ofBits_bits (f : FRu) : FRu.ofBits f.bits = f := by
  have h0 : f.bits.getLsbD 17 = f.nw := (bit_high _ _ 17 11 rfl).trans <| (bit_high _ _ 11 5 rfl).trans <| (bit_high _ _ 5 0 rfl).trans <| bit_flag _
  have h1 : f.bits.extractLsb' 12 5 = f.d := (slice_high _ _ 12 5 6 rfl).trans <| (slice_high _ _ 6 5 0 rfl).trans <| slice_low _ _
  have h2 : f.bits.extractLsb' 6 6 = f.a.code := (slice_high _ _ 6 6 0 rfl).trans <| slice_low _ _
  simp only [FRu.ofBits, h0, h1, h2, Src.ofCode_code]

/-- The fields of `FI` read back. -/
theorem FI.ofBits_bits (f : FI) : FI.ofBits f.bits = f := by
  have h0 : f.bits.getLsbD 17 = f.nw := (bit_high _ _ 17 11 rfl).trans <| (bit_high _ _ 11 5 rfl).trans <| (bit_high _ _ 5 0 rfl).trans <| bit_flag _
  have h1 : f.bits.extractLsb' 12 5 = f.d := (slice_high _ _ 12 5 6 rfl).trans <| (slice_high _ _ 6 5 0 rfl).trans <| slice_low _ _
  have h2 : f.bits.extractLsb' 6 6 = f.a.code := (slice_high _ _ 6 6 0 rfl).trans <| slice_low _ _
  have h3 : f.bits.extractLsb' 0 6 = f.imm6 := slice_low _ _
  simp only [FI.ofBits, h0, h1, h2, h3, Src.ofCode_code]

/-- The fields of `FIu` read back. -/
theorem FIu.ofBits_bits (f : FIu) : FIu.ofBits f.bits = f := by
  have h0 : f.bits.getLsbD 17 = f.nw := (bit_high _ _ 17 11 rfl).trans <| (bit_high _ _ 11 5 rfl).trans <| (bit_high _ _ 5 0 rfl).trans <| bit_flag _
  have h1 : f.bits.extractLsb' 12 5 = f.d := (slice_high _ _ 12 5 6 rfl).trans <| (slice_high _ _ 6 5 0 rfl).trans <| slice_low _ _
  have h2 : f.bits.extractLsb' 0 6 = f.imm6 := slice_low _ _
  simp only [FIu.ofBits, h0, h1, h2]

/-- The fields of `FP` read back. -/
theorem FP.ofBits_bits (f : FP) : FP.ofBits f.bits = f := by
  have h0 : f.bits.extractLsb' 16 2 = f.cond := (slice_high _ _ 16 2 10 rfl).trans <| (slice_high _ _ 10 2 4 rfl).trans <| (slice_high _ _ 4 2 0 rfl).trans <| slice_all _
  have h1 : f.bits.extractLsb' 12 4 = f.pd := (slice_high _ _ 12 4 6 rfl).trans <| (slice_high _ _ 6 4 0 rfl).trans <| slice_low _ _
  have h2 : f.bits.extractLsb' 6 6 = f.a.code := (slice_high _ _ 6 6 0 rfl).trans <| slice_low _ _
  have h3 : f.bits.extractLsb' 0 6 = f.b.code := slice_low _ _
  simp only [FP.ofBits, h0, h1, h2, h3, Src.ofCode_code]

/-- The fields of `FPi` read back. -/
theorem FPi.ofBits_bits (f : FPi) : FPi.ofBits f.bits = f := by
  have h0 : f.bits.extractLsb' 16 2 = f.cond := (slice_high _ _ 16 2 10 rfl).trans <| (slice_high _ _ 10 2 4 rfl).trans <| (slice_high _ _ 4 2 0 rfl).trans <| slice_all _
  have h1 : f.bits.extractLsb' 12 4 = f.pd := (slice_high _ _ 12 4 6 rfl).trans <| (slice_high _ _ 6 4 0 rfl).trans <| slice_low _ _
  have h2 : f.bits.extractLsb' 6 6 = f.a.code := (slice_high _ _ 6 6 0 rfl).trans <| slice_low _ _
  have h3 : f.bits.extractLsb' 0 6 = f.imm6 := slice_low _ _
  simp only [FPi.ofBits, h0, h1, h2, h3, Src.ofCode_code]

/-- The fields of `FPc` read back. -/
theorem FPc.ofBits_bits (f : FPc) : FPc.ofBits f.bits = f := by
  have h0 : f.bits.extractLsb' 12 4 = f.pd := (slice_high _ _ 12 4 6 rfl).trans <| (slice_high _ _ 6 4 0 rfl).trans <| slice_low _ _
  have h1 : f.bits.extractLsb' 6 6 = f.a.code := (slice_high _ _ 6 6 0 rfl).trans <| slice_low _ _
  have h2 : f.bits.extractLsb' 0 6 = f.b.code := slice_low _ _
  simp only [FPc.ofBits, h0, h1, h2, Src.ofCode_code]

/-- The fields of `FQ` read back. -/
theorem FQ.ofBits_bits (f : FQ) : FQ.ofBits f.bits = f := by
  have h0 : f.bits.extractLsb' 12 4 = f.pd := (slice_high _ _ 12 4 8 rfl).trans <| (slice_high _ _ 8 4 7 rfl).trans <| (slice_high _ _ 7 4 6 rfl).trans <| (slice_high _ _ 6 4 2 rfl).trans <| (slice_high _ _ 2 4 1 rfl).trans <| (slice_high _ _ 1 4 0 rfl).trans <| slice_low _ _
  have h1 : f.bits.getLsbD 11 = f.n1 := (bit_high _ _ 11 7 rfl).trans <| (bit_high _ _ 7 6 rfl).trans <| (bit_high _ _ 6 5 rfl).trans <| (bit_high _ _ 5 1 rfl).trans <| (bit_high _ _ 1 0 rfl).trans <| (bit_low _ _ 0 (by decide)).trans (bit_flag _)
  have h2 : f.bits.extractLsb' 6 4 = f.pa := (slice_high _ _ 6 4 2 rfl).trans <| (slice_high _ _ 2 4 1 rfl).trans <| (slice_high _ _ 1 4 0 rfl).trans <| slice_low _ _
  have h3 : f.bits.getLsbD 5 = f.n2 := (bit_high _ _ 5 1 rfl).trans <| (bit_high _ _ 1 0 rfl).trans <| (bit_low _ _ 0 (by decide)).trans (bit_flag _)
  have h4 : f.bits.extractLsb' 0 4 = f.pb := slice_low _ _
  simp only [FQ.ofBits, h0, h1, h2, h3, h4]

/-- The fields of `FQu` read back. -/
theorem FQu.ofBits_bits (f : FQu) : FQu.ofBits f.bits = f := by
  have h0 : f.bits.extractLsb' 12 4 = f.pd := (slice_high _ _ 12 4 6 rfl).trans <| (slice_high _ _ 6 4 2 rfl).trans <| (slice_high _ _ 2 4 1 rfl).trans <| (slice_high _ _ 1 4 0 rfl).trans <| slice_low _ _
  have h1 : f.bits.getLsbD 11 = f.n1 := (bit_high _ _ 11 5 rfl).trans <| (bit_high _ _ 5 1 rfl).trans <| (bit_high _ _ 1 0 rfl).trans <| (bit_low _ _ 0 (by decide)).trans (bit_flag _)
  have h2 : f.bits.extractLsb' 6 4 = f.pa := (slice_high _ _ 6 4 0 rfl).trans <| slice_low _ _
  simp only [FQu.ofBits, h0, h1, h2]

/-- A variant bit. -/
theorem FMovpV.bit17 (f : FMovpV) : f.bits.getLsbD 17 = false :=
  (bit_high _ _ 17 13 rfl).trans <| (bit_high _ _ 13 12 rfl).trans <| (bit_high _ _ 12 11 rfl).trans <| (bit_high _ _ 11 5 rfl).trans <| (bit_high _ _ 5 0 rfl).trans <| rfl

/-- A variant bit. -/
theorem FMovpV.bit4 (f : FMovpV) : f.bits.getLsbD 4 = false :=
  (bit_high _ _ 4 0 rfl).trans <| (bit_low _ _ 0 (by decide)).trans rfl

/-- The fields of `FMovpV` read back. -/
theorem FMovpV.ofBits_bits (f : FMovpV) : FMovpV.ofBits f.bits = f := by
  have h0 : f.bits.extractLsb' 12 5 = f.d := (slice_high _ _ 12 5 8 rfl).trans <| (slice_high _ _ 8 5 7 rfl).trans <| (slice_high _ _ 7 5 6 rfl).trans <| (slice_high _ _ 6 5 0 rfl).trans <| slice_low _ _
  have h1 : f.bits.getLsbD 5 = f.one := (bit_high _ _ 5 1 rfl).trans <| (bit_high _ _ 1 0 rfl).trans <| (bit_low _ _ 0 (by decide)).trans (bit_flag _)
  have h2 : f.bits.extractLsb' 0 4 = f.pn := slice_low _ _
  simp only [FMovpV.ofBits, h0, h1, h2]

/-- A variant bit. -/
theorem FMovpP.bit17 (f : FMovpP) : f.bits.getLsbD 17 = true :=
  (bit_high _ _ 17 13 rfl).trans <| (bit_high _ _ 13 12 rfl).trans <| (bit_high _ _ 12 11 rfl).trans <| (bit_high _ _ 11 5 rfl).trans <| (bit_high _ _ 5 0 rfl).trans <| rfl

/-- A variant bit. -/
theorem FMovpP.bit4 (f : FMovpP) : f.bits.getLsbD 4 = false :=
  (bit_high _ _ 4 0 rfl).trans <| (bit_low _ _ 0 (by decide)).trans rfl

/-- The fields of `FMovpP` read back. -/
theorem FMovpP.ofBits_bits (f : FMovpP) : FMovpP.ofBits f.bits = f := by
  have h0 : f.bits.extractLsb' 6 6 = f.a.code := (slice_high _ _ 6 6 2 rfl).trans <| (slice_high _ _ 2 6 1 rfl).trans <| (slice_high _ _ 1 6 0 rfl).trans <| slice_low _ _
  have h1 : f.bits.getLsbD 5 = f.one := (bit_high _ _ 5 1 rfl).trans <| (bit_high _ _ 1 0 rfl).trans <| (bit_low _ _ 0 (by decide)).trans (bit_flag _)
  have h2 : f.bits.extractLsb' 0 4 = f.pn := slice_low _ _
  simp only [FMovpP.ofBits, h0, h1, h2, Src.ofCode_code]

/-- The fields of `FMovs` read back. -/
theorem FMovs.ofBits_bits (f : FMovs) : FMovs.ofBits f.bits = f := by
  have h0 : f.bits.getLsbD 17 = f.sd := (bit_high _ _ 17 11 rfl).trans <| (bit_high _ _ 11 5 rfl).trans <| (bit_high _ _ 5 0 rfl).trans <| bit_flag _
  have h1 : f.bits.extractLsb' 12 5 = f.d := (slice_high _ _ 12 5 6 rfl).trans <| (slice_high _ _ 6 5 0 rfl).trans <| slice_low _ _
  have h2 : f.bits.extractLsb' 6 6 = f.a.code := (slice_high _ _ 6 6 0 rfl).trans <| slice_low _ _
  have h3 : f.bits.extractLsb' 0 6 = f.srn := slice_low _ _
  simp only [FMovs.ofBits, h0, h1, h2, h3, Src.ofCode_code]

/-- The fields of `FMovsw` read back. -/
theorem FMovsw.ofBits_bits (f : FMovsw) : FMovsw.ofBits f.bits = f := by
  have h0 : f.bits.extractLsb' 6 6 = f.a.code := (slice_high _ _ 6 6 0 rfl).trans <| slice_low _ _
  have h1 : f.bits.extractLsb' 0 6 = f.srn := slice_low _ _
  simp only [FMovsw.ofBits, h0, h1, Src.ofCode_code]

/-- The fields of `FCvt` read back. -/
theorem FCvt.ofBits_bits (f : FCvt) : FCvt.ofBits f.bits = f := by
  have h0 : f.bits.getLsbD 17 = f.sat := (bit_high _ _ 17 16 rfl).trans <| (bit_high _ _ 16 11 rfl).trans <| (bit_high _ _ 11 5 rfl).trans <| (bit_high _ _ 5 0 rfl).trans <| bit_flag _
  have h1 : f.bits.extractLsb' 12 5 = f.d := (slice_high _ _ 12 5 11 rfl).trans <| (slice_high _ _ 11 5 6 rfl).trans <| (slice_high _ _ 6 5 0 rfl).trans <| slice_low _ _
  have h2 : f.bits.extractLsb' 6 6 = f.a.code := (slice_high _ _ 6 6 5 rfl).trans <| (slice_high _ _ 5 6 0 rfl).trans <| slice_low _ _
  have h3 : f.bits.extractLsb' 1 5 = f.stype := (slice_high _ _ 1 5 0 rfl).trans <| slice_low _ _
  have h4 : f.bits.getLsbD 0 = f.rtz := (bit_low _ _ 0 (by decide)).trans (bit_flag _)
  simp only [FCvt.ofBits, h0, h1, h2, h3, h4, Src.ofCode_code]

/-- The fields of `FShfl` read back. -/
theorem FShfl.ofBits_bits (f : FShfl) : FShfl.ofBits f.bits = f := by
  have h0 : f.bits.extractLsb' 16 2 = f.wc := (slice_high _ _ 16 2 10 rfl).trans <| (slice_high _ _ 10 2 5 rfl).trans <| (slice_high _ _ 5 2 0 rfl).trans <| slice_all _
  have h1 : f.bits.extractLsb' 11 5 = f.d := (slice_high _ _ 11 5 5 rfl).trans <| (slice_high _ _ 5 5 0 rfl).trans <| slice_low _ _
  have h2 : f.bits.extractLsb' 6 5 = f.vs := (slice_high _ _ 6 5 0 rfl).trans <| slice_low _ _
  have h3 : f.bits.extractLsb' 0 6 = f.b.code := slice_low _ _
  simp only [FShfl.ofBits, h0, h1, h2, h3, Src.ofCode_code]

/-- The fields of `FVote` read back. -/
theorem FVote.ofBits_bits (f : FVote) : FVote.ofBits f.bits = f := by
  have h0 : f.bits.extractLsb' 16 2 = f.op := (slice_high _ _ 16 2 10 rfl).trans <| (slice_high _ _ 10 2 9 rfl).trans <| (slice_high _ _ 9 2 5 rfl).trans <| (slice_high _ _ 5 2 0 rfl).trans <| slice_all _
  have h1 : f.bits.extractLsb' 11 5 = f.d := (slice_high _ _ 11 5 5 rfl).trans <| (slice_high _ _ 5 5 4 rfl).trans <| (slice_high _ _ 4 5 0 rfl).trans <| slice_low _ _
  have h2 : f.bits.extractLsb' 7 4 = f.pa := (slice_high _ _ 7 4 1 rfl).trans <| (slice_high _ _ 1 4 0 rfl).trans <| slice_low _ _
  have h3 : f.bits.getLsbD 6 = f.n := (bit_high _ _ 6 0 rfl).trans <| (bit_low _ _ 0 (by decide)).trans (bit_flag _)
  simp only [FVote.ofBits, h0, h1, h2, h3]

/-- The fields of `FRedg` read back. -/
theorem FRedg.ofBits_bits (f : FRedg) : FRedg.ofBits f.bits = f := by
  have h0 : f.bits.extractLsb' 15 3 = f.op := (slice_high _ _ 15 3 13 rfl).trans <| (slice_high _ _ 13 3 7 rfl).trans <| (slice_high _ _ 7 3 2 rfl).trans <| (slice_high _ _ 2 3 0 rfl).trans <| slice_all _
  have h1 : f.bits.extractLsb' 8 5 = f.d := (slice_high _ _ 8 5 6 rfl).trans <| (slice_high _ _ 6 5 0 rfl).trans <| slice_low _ _
  have h2 : f.bits.extractLsb' 2 6 = f.a.code := (slice_high _ _ 2 6 0 rfl).trans <| slice_low _ _
  simp only [FRedg.ofBits, h0, h1, h2, Src.ofCode_code]

/-- The fields of `FScang` read back. -/
theorem FScang.ofBits_bits (f : FScang) : FScang.ofBits f.bits = f := by
  have h0 : f.bits.extractLsb' 15 3 = f.op := (slice_high _ _ 15 3 13 rfl).trans <| (slice_high _ _ 13 3 7 rfl).trans <| (slice_high _ _ 7 3 2 rfl).trans <| (slice_high _ _ 2 3 1 rfl).trans <| (slice_high _ _ 1 3 0 rfl).trans <| slice_all _
  have h1 : f.bits.getLsbD 14 = f.incl := (bit_high _ _ 14 12 rfl).trans <| (bit_high _ _ 12 6 rfl).trans <| (bit_high _ _ 6 1 rfl).trans <| (bit_high _ _ 1 0 rfl).trans <| (bit_low _ _ 0 (by decide)).trans (bit_flag _)
  have h2 : f.bits.extractLsb' 8 5 = f.d := (slice_high _ _ 8 5 6 rfl).trans <| (slice_high _ _ 6 5 0 rfl).trans <| slice_low _ _
  have h3 : f.bits.extractLsb' 2 6 = f.a.code := (slice_high _ _ 2 6 0 rfl).trans <| slice_low _ _
  simp only [FScang.ofBits, h0, h1, h2, h3, Src.ofCode_code]

/-- The fields of `FBcast` read back. -/
theorem FBcast.ofBits_bits (f : FBcast) : FBcast.ofBits f.bits = f := by
  have h0 : f.bits.extractLsb' 12 5 = f.d := (slice_high _ _ 12 5 7 rfl).trans <| (slice_high _ _ 7 5 6 rfl).trans <| (slice_high _ _ 6 5 0 rfl).trans <| slice_low _ _
  have h1 : f.bits.extractLsb' 6 6 = f.a.code := (slice_high _ _ 6 6 1 rfl).trans <| (slice_high _ _ 1 6 0 rfl).trans <| slice_low _ _
  have h2 : f.bits.getLsbD 5 = f.first := (bit_high _ _ 5 0 rfl).trans <| (bit_low _ _ 0 (by decide)).trans (bit_flag _)
  have h3 : f.bits.extractLsb' 0 5 = f.lane := slice_low _ _
  simp only [FBcast.ofBits, h0, h1, h2, h3, Src.ofCode_code]

/-- The fields of `FM` read back. -/
theorem FM.ofBits_bits (f : FM) : FM.ofBits f.bits = f := by
  have h0 : f.bits.extractLsb' 16 2 = f.cc := (slice_high _ _ 16 2 11 rfl).trans <| (slice_high _ _ 11 2 5 rfl).trans <| (slice_high _ _ 5 2 0 rfl).trans <| slice_all _
  have h1 : f.bits.extractLsb' 11 5 = f.d := (slice_high _ _ 11 5 6 rfl).trans <| (slice_high _ _ 6 5 0 rfl).trans <| slice_low _ _
  have h2 : f.bits.extractLsb' 5 6 = f.a.code := (slice_high _ _ 5 6 0 rfl).trans <| slice_low _ _
  have h3 : f.bits.extractLsb' 0 5 = f.off5 := slice_low _ _
  simp only [FM.ofBits, h0, h1, h2, h3, Src.ofCode_code]

/-- The fields of `FFeq` read back. -/
theorem FFeq.ofBits_bits (f : FFeq) : FFeq.ofBits f.bits = f := by
  have h0 : f.bits.extractLsb' 16 2 = f.cc := (slice_high _ _ 16 2 11 rfl).trans <| (slice_high _ _ 11 2 5 rfl).trans <| (slice_high _ _ 5 2 1 rfl).trans <| (slice_high _ _ 1 2 0 rfl).trans <| slice_all _
  have h1 : f.bits.extractLsb' 11 4 = f.pd := (slice_high _ _ 11 4 6 rfl).trans <| (slice_high _ _ 6 4 0 rfl).trans <| slice_low _ _
  have h2 : f.bits.extractLsb' 5 6 = f.a.code := (slice_high _ _ 5 6 0 rfl).trans <| slice_low _ _
  have h3 : f.bits.extractLsb' 0 5 = f.off5 := slice_low _ _
  simp only [FFeq.ofBits, h0, h1, h2, h3, Src.ofCode_code]

/-- The fields of `FMn` read back. -/
theorem FMn.ofBits_bits (f : FMn) : FMn.ofBits f.bits = f := by
  have h0 : f.bits.extractLsb' 16 2 = f.cc := (slice_high _ _ 16 2 11 rfl).trans <| (slice_high _ _ 11 2 5 rfl).trans <| (slice_high _ _ 5 2 0 rfl).trans <| slice_all _
  have h1 : f.bits.extractLsb' 5 6 = f.a.code := (slice_high _ _ 5 6 0 rfl).trans <| slice_low _ _
  have h2 : f.bits.extractLsb' 0 5 = f.off5 := slice_low _ _
  simp only [FMn.ofBits, h0, h1, h2, Src.ofCode_code]

/-- The fields of `FK4` read back. -/
theorem FK4.ofBits_bits (f : FK4) : FK4.ofBits f.bits = f := by
  have h0 : f.bits.extractLsb' 0 4 = f.mask := slice_low _ _
  simp only [FK4.ofBits, h0]

/-- The fields of `FK16` read back. -/
theorem FK16.ofBits_bits (f : FK16) : FK16.ofBits f.bits = f := by
  have h0 : f.bits.extractLsb' 0 16 = f.mask := slice_low _ _
  simp only [FK16.ofBits, h0]

/-- The fields of `FTdef` read back. -/
theorem FTdef.ofBits_bits (f : FTdef) : FTdef.ofBits f.bits = f := by
  have h0 : f.bits.extractLsb' 10 8 = f.tid := (slice_high _ _ 10 8 8 rfl).trans <| (slice_high _ _ 8 8 4 rfl).trans <| (slice_high _ _ 4 8 0 rfl).trans <| slice_all _
  have h1 : f.bits.extractLsb' 6 4 = f.sd := (slice_high _ _ 6 4 4 rfl).trans <| (slice_high _ _ 4 4 0 rfl).trans <| slice_low _ _
  have h2 : f.bits.extractLsb' 2 4 = f.sa := (slice_high _ _ 2 4 0 rfl).trans <| slice_low _ _
  simp only [FTdef.ofBits, h0, h1, h2]

/-- The fields of `FTinv` read back. -/
theorem FTinv.ofBits_bits (f : FTinv) : FTinv.ofBits f.bits = f := by
  have h0 : f.bits.extractLsb' 10 8 = f.tid := (slice_high _ _ 10 8 0 rfl).trans <| slice_all _
  simp only [FTinv.ofBits, h0]

/-- The fields of `FTget` read back. -/
theorem FTget.ofBits_bits (f : FTget) : FTget.ofBits f.bits = f := by
  have h0 : f.bits.extractLsb' 12 5 = f.d := (slice_high _ _ 12 5 9 rfl).trans <| (slice_high _ _ 9 5 6 rfl).trans <| (slice_high _ _ 6 5 0 rfl).trans <| slice_low _ _
  have h1 : f.bits.extractLsb' 6 6 = f.a.code := (slice_high _ _ 6 6 3 rfl).trans <| (slice_high _ _ 3 6 0 rfl).trans <| slice_low _ _
  have h2 : f.bits.extractLsb' 3 3 = f.w := (slice_high _ _ 3 3 0 rfl).trans <| slice_low _ _
  simp only [FTget.ofBits, h0, h1, h2, Src.ofCode_code]

/-- The fields of `FMl` read back. -/
theorem FMl.ofBits_bits (f : FMl) : FMl.ofBits f.bits = f := by
  have h0 : f.bits.extractLsb' 14 4 = f.mt := (slice_high _ _ 14 4 4 rfl).trans <| (slice_high _ _ 4 4 0 rfl).trans <| slice_all _
  have h1 : f.bits.extractLsb' 10 4 = f.sa := (slice_high _ _ 10 4 0 rfl).trans <| slice_low _ _
  simp only [FMl.ofBits, h0, h1]

/-- The fields of `FMma` read back. -/
theorem FMma.ofBits_bits (f : FMma) : FMma.ofBits f.bits = f := by
  have h0 : f.bits.extractLsb' 14 4 = f.mt := (slice_high _ _ 14 4 13 rfl).trans <| (slice_high _ _ 13 4 8 rfl).trans <| (slice_high _ _ 8 4 3 rfl).trans <| (slice_high _ _ 3 4 0 rfl).trans <| slice_all _
  have h1 : f.bits.extractLsb' 11 3 = f.cv := (slice_high _ _ 11 3 10 rfl).trans <| (slice_high _ _ 10 3 5 rfl).trans <| (slice_high _ _ 5 3 0 rfl).trans <| slice_low _ _
  have h2 : f.bits.extractLsb' 6 5 = f.va := (slice_high _ _ 6 5 5 rfl).trans <| (slice_high _ _ 5 5 0 rfl).trans <| slice_low _ _
  have h3 : f.bits.extractLsb' 1 5 = f.vb := (slice_high _ _ 1 5 0 rfl).trans <| slice_low _ _
  simp only [FMma.ofBits, h0, h1, h2, h3]

/-- The fields of `FCvset` read back. -/
theorem FCvset.ofBits_bits (f : FCvset) : FCvset.ofBits f.bits = f := by
  have h0 : f.bits.extractLsb' 15 3 = f.cv := (slice_high _ _ 15 3 6 rfl).trans <| (slice_high _ _ 6 3 0 rfl).trans <| slice_all _
  have h1 : f.bits.extractLsb' 0 9 = f.cm1 := slice_low _ _
  simp only [FCvset.ofBits, h0, h1]

/-- The fields of `FCopy` read back. -/
theorem FCopy.ofBits_bits (f : FCopy) : FCopy.ofBits f.bits = f := by
  have h0 : f.bits.extractLsb' 16 2 = f.cc := (slice_high _ _ 16 2 6 rfl).trans <| (slice_high _ _ 6 2 2 rfl).trans <| (slice_high _ _ 2 2 0 rfl).trans <| slice_all _
  have h1 : f.bits.extractLsb' 14 2 = f.ch := (slice_high _ _ 14 2 4 rfl).trans <| (slice_high _ _ 4 2 0 rfl).trans <| slice_low _ _
  have h2 : f.bits.extractLsb' 10 4 = f.sa := (slice_high _ _ 10 4 0 rfl).trans <| slice_low _ _
  simp only [FCopy.ofBits, h0, h1, h2]

/-- A variant bit. -/
theorem FGres.bit14 (f : FGres) : f.bits.getLsbD 14 = false :=
  (bit_high _ _ 14 8 rfl).trans <| (bit_high _ _ 8 2 rfl).trans <| (bit_high _ _ 2 0 rfl).trans <| (bit_low _ _ 0 (by decide)).trans rfl

/-- The fields of `FGres` read back. -/
theorem FGres.ofBits_bits (f : FGres) : FGres.ofBits f.bits = f := by
  have h0 : f.bits.extractLsb' 15 3 = f.slot := (slice_high _ _ 15 3 9 rfl).trans <| (slice_high _ _ 9 3 3 rfl).trans <| (slice_high _ _ 3 3 1 rfl).trans <| (slice_high _ _ 1 3 0 rfl).trans <| slice_all _
  have h1 : f.bits.extractLsb' 6 6 = f.a.code := (slice_high _ _ 6 6 0 rfl).trans <| slice_low _ _
  simp only [FGres.ofBits, h0, h1, Src.ofCode_code]

/-- A variant bit. -/
theorem FGresO.bit14 (f : FGresO) : f.bits.getLsbD 14 = true :=
  (bit_high _ _ 14 0 rfl).trans <| (bit_low _ _ 0 (by decide)).trans rfl

/-- The fields of `FGresO` read back. -/
theorem FGresO.ofBits_bits (f : FGresO) : FGresO.ofBits f.bits = f := by
  have h0 : f.bits.extractLsb' 15 3 = f.slot := (slice_high _ _ 15 3 1 rfl).trans <| (slice_high _ _ 1 3 0 rfl).trans <| slice_all _
  simp only [FGresO.ofBits, h0]

/-- The fields of `FCflag` read back. -/
theorem FCflag.ofBits_bits (f : FCflag) : FCflag.ofBits f.bits = f := by
  have h0 : f.bits.extractLsb' 16 2 = f.cc := (slice_high _ _ 16 2 10 rfl).trans <| (slice_high _ _ 10 2 6 rfl).trans <| (slice_high _ _ 6 2 2 rfl).trans <| (slice_high _ _ 2 2 0 rfl).trans <| slice_all _
  have h1 : f.bits.extractLsb' 14 2 = f.ch := (slice_high _ _ 14 2 8 rfl).trans <| (slice_high _ _ 8 2 4 rfl).trans <| (slice_high _ _ 4 2 0 rfl).trans <| slice_low _ _
  have h2 : f.bits.extractLsb' 10 4 = f.sa := (slice_high _ _ 10 4 4 rfl).trans <| (slice_high _ _ 4 4 0 rfl).trans <| slice_low _ _
  have h3 : f.bits.extractLsb' 6 4 = f.sv := (slice_high _ _ 6 4 0 rfl).trans <| slice_low _ _
  simp only [FCflag.ofBits, h0, h1, h2, h3]

/-- A variant bit. -/
theorem FTlbp.bit9 (f : FTlbp) : f.bits.getLsbD 9 = false :=
  (bit_high _ _ 9 0 rfl).trans <| (bit_low _ _ 0 (by decide)).trans rfl

/-- The fields of `FTlbp` read back. -/
theorem FTlbp.ofBits_bits (f : FTlbp) : FTlbp.ofBits f.bits = f := by
  have h0 : f.bits.extractLsb' 14 4 = f.sd := (slice_high _ _ 14 4 5 rfl).trans <| (slice_high _ _ 5 4 4 rfl).trans <| (slice_high _ _ 4 4 0 rfl).trans <| slice_all _
  have h1 : f.bits.extractLsb' 10 4 = f.sa := (slice_high _ _ 10 4 1 rfl).trans <| (slice_high _ _ 1 4 0 rfl).trans <| slice_low _ _
  simp only [FTlbp.ofBits, h0, h1]

/-- A variant bit. -/
theorem FTlbpF.bit9 (f : FTlbpF) : f.bits.getLsbD 9 = true :=
  (bit_high _ _ 9 0 rfl).trans <| (bit_low _ _ 0 (by decide)).trans rfl

/-- The fields of `FTlbpF` read back. -/
theorem FTlbpF.ofBits_bits (f : FTlbpF) : FTlbpF.ofBits f.bits = f := by
  have h0 : f.bits.extractLsb' 14 4 = f.sd := (slice_high _ _ 14 4 5 rfl).trans <| (slice_high _ _ 5 4 4 rfl).trans <| (slice_high _ _ 4 4 0 rfl).trans <| slice_all _
  have h1 : f.bits.extractLsb' 10 4 = f.sa := (slice_high _ _ 10 4 1 rfl).trans <| (slice_high _ _ 1 4 0 rfl).trans <| slice_low _ _
  simp only [FTlbpF.ofBits, h0, h1]

/-- A variant bit. -/
theorem FPattr0.bit15 (f : FPattr0) : f.bits.getLsbD 15 = false :=
  (bit_high _ _ 15 5 rfl).trans <| (bit_high _ _ 5 1 rfl).trans <| (bit_low _ _ 1 (by decide)).trans (by decide)

/-- A variant bit. -/
theorem FPattr0.bit14 (f : FPattr0) : f.bits.getLsbD 14 = false :=
  (bit_high _ _ 14 4 rfl).trans <| (bit_high _ _ 4 0 rfl).trans <| (bit_low _ _ 0 (by decide)).trans (by decide)

/-- The fields of `FPattr0` read back. -/
theorem FPattr0.ofBits_bits (f : FPattr0) : FPattr0.ofBits f.bits = f := by
  have h0 : f.bits.extractLsb' 16 2 = f.cc := (slice_high _ _ 16 2 6 rfl).trans <| (slice_high _ _ 6 2 2 rfl).trans <| (slice_high _ _ 2 2 0 rfl).trans <| slice_all _
  have h1 : f.bits.extractLsb' 10 4 = f.sa := (slice_high _ _ 10 4 0 rfl).trans <| slice_low _ _
  simp only [FPattr0.ofBits, h0, h1]

/-- A variant bit. -/
theorem FPattr1.bit15 (f : FPattr1) : f.bits.getLsbD 15 = false :=
  (bit_high _ _ 15 5 rfl).trans <| (bit_high _ _ 5 1 rfl).trans <| (bit_high _ _ 1 0 rfl).trans <| (bit_low _ _ 0 (by decide)).trans rfl

/-- A variant bit. -/
theorem FPattr1.bit14 (f : FPattr1) : f.bits.getLsbD 14 = true :=
  (bit_high _ _ 14 4 rfl).trans <| (bit_high _ _ 4 0 rfl).trans <| (bit_low _ _ 0 (by decide)).trans rfl

/-- The fields of `FPattr1` read back. -/
theorem FPattr1.ofBits_bits (f : FPattr1) : FPattr1.ofBits f.bits = f := by
  have h0 : f.bits.extractLsb' 16 2 = f.cc := (slice_high _ _ 16 2 6 rfl).trans <| (slice_high _ _ 6 2 2 rfl).trans <| (slice_high _ _ 2 2 1 rfl).trans <| (slice_high _ _ 1 2 0 rfl).trans <| slice_all _
  have h1 : f.bits.extractLsb' 10 4 = f.sa := (slice_high _ _ 10 4 0 rfl).trans <| slice_low _ _
  simp only [FPattr1.ofBits, h0, h1]

/-- A variant bit. -/
theorem FPattr2.bit15 (f : FPattr2) : f.bits.getLsbD 15 = true :=
  (bit_high _ _ 15 5 rfl).trans <| (bit_high _ _ 5 1 rfl).trans <| (bit_high _ _ 1 0 rfl).trans <| (bit_low _ _ 0 (by decide)).trans rfl

/-- A variant bit. -/
theorem FPattr2.bit14 (f : FPattr2) : f.bits.getLsbD 14 = false :=
  (bit_high _ _ 14 4 rfl).trans <| (bit_high _ _ 4 0 rfl).trans <| (bit_low _ _ 0 (by decide)).trans rfl

/-- The fields of `FPattr2` read back. -/
theorem FPattr2.ofBits_bits (f : FPattr2) : FPattr2.ofBits f.bits = f := by
  have h0 : f.bits.extractLsb' 16 2 = f.cc := (slice_high _ _ 16 2 6 rfl).trans <| (slice_high _ _ 6 2 2 rfl).trans <| (slice_high _ _ 2 2 1 rfl).trans <| (slice_high _ _ 1 2 0 rfl).trans <| slice_all _
  have h1 : f.bits.extractLsb' 10 4 = f.sa := (slice_high _ _ 10 4 0 rfl).trans <| slice_low _ _
  simp only [FPattr2.ofBits, h0, h1]

/-- The fields of `FTex` read back. -/
theorem FTex.ofBits_bits (f : FTex) : FTex.ofBits f.bits = f := by
  have h0 : f.bits.extractLsb' 16 2 = f.cc := (slice_high _ _ 16 2 15 rfl).trans <| (slice_high _ _ 15 2 14 rfl).trans <| (slice_high _ _ 14 2 10 rfl).trans <| (slice_high _ _ 10 2 5 rfl).trans <| (slice_high _ _ 5 2 0 rfl).trans <| slice_all _
  have h1 : f.bits.extractLsb' 11 5 = f.d := (slice_high _ _ 11 5 10 rfl).trans <| (slice_high _ _ 10 5 9 rfl).trans <| (slice_high _ _ 9 5 5 rfl).trans <| (slice_high _ _ 5 5 0 rfl).trans <| slice_low _ _
  have h2 : f.bits.extractLsb' 6 5 = f.vc := (slice_high _ _ 6 5 5 rfl).trans <| (slice_high _ _ 5 5 4 rfl).trans <| (slice_high _ _ 4 5 0 rfl).trans <| slice_low _ _
  have h3 : f.bits.extractLsb' 2 4 = f.st := (slice_high _ _ 2 4 1 rfl).trans <| (slice_high _ _ 1 4 0 rfl).trans <| slice_low _ _
  have h4 : f.bits.getLsbD 1 = f.filt := (bit_high _ _ 1 0 rfl).trans <| (bit_low _ _ 0 (by decide)).trans (bit_flag _)
  have h5 : f.bits.getLsbD 0 = f.wrap := (bit_low _ _ 0 (by decide)).trans (bit_flag _)
  simp only [FTex.ofBits, h0, h1, h2, h3, h4, h5]

/-- The fields of `FTrace` read back. -/
theorem FTrace.ofBits_bits (f : FTrace) : FTrace.ofBits f.bits = f := by
  have h0 : f.bits.extractLsb' 16 2 = f.cc := (slice_high _ _ 16 2 14 rfl).trans <| (slice_high _ _ 14 2 10 rfl).trans <| (slice_high _ _ 10 2 5 rfl).trans <| (slice_high _ _ 5 2 0 rfl).trans <| slice_all _
  have h1 : f.bits.extractLsb' 11 5 = f.vh := (slice_high _ _ 11 5 9 rfl).trans <| (slice_high _ _ 9 5 5 rfl).trans <| (slice_high _ _ 5 5 0 rfl).trans <| slice_low _ _
  have h2 : f.bits.extractLsb' 6 5 = f.vr := (slice_high _ _ 6 5 4 rfl).trans <| (slice_high _ _ 4 5 0 rfl).trans <| slice_low _ _
  have h3 : f.bits.extractLsb' 2 4 = f.sb := (slice_high _ _ 2 4 0 rfl).trans <| slice_low _ _
  have h4 : f.bits.extractLsb' 0 2 = f.mode := slice_low _ _
  simp only [FTrace.ofBits, h0, h1, h2, h3, h4]

/-- The fields of `FTraceh` read back. -/
theorem FTraceh.ofBits_bits (f : FTraceh) : FTraceh.ofBits f.bits = f := by
  have h0 : f.bits.extractLsb' 16 2 = f.cc := (slice_high _ _ 16 2 14 rfl).trans <| (slice_high _ _ 14 2 10 rfl).trans <| (slice_high _ _ 10 2 5 rfl).trans <| (slice_high _ _ 5 2 0 rfl).trans <| slice_all _
  have h1 : f.bits.extractLsb' 11 5 = f.d := (slice_high _ _ 11 5 9 rfl).trans <| (slice_high _ _ 9 5 5 rfl).trans <| (slice_high _ _ 5 5 0 rfl).trans <| slice_low _ _
  have h2 : f.bits.extractLsb' 6 5 = f.vh := (slice_high _ _ 6 5 4 rfl).trans <| (slice_high _ _ 4 5 0 rfl).trans <| slice_low _ _
  have h3 : f.bits.extractLsb' 2 4 = f.sb := (slice_high _ _ 2 4 0 rfl).trans <| slice_low _ _
  have h4 : f.bits.extractLsb' 0 2 = f.w := slice_low _ _
  simp only [FTraceh.ofBits, h0, h1, h2, h3, h4]

/-- The fields of `FPrim` read back. -/
theorem FPrim.ofBits_bits (f : FPrim) : FPrim.ofBits f.bits = f := by
  have h0 : f.bits.extractLsb' 12 5 = f.vp := (slice_high _ _ 12 5 6 rfl).trans <| (slice_high _ _ 6 5 0 rfl).trans <| slice_low _ _
  have h1 : f.bits.extractLsb' 6 6 = f.a.code := (slice_high _ _ 6 6 0 rfl).trans <| slice_low _ _
  simp only [FPrim.ofBits, h0, h1, Src.ofCode_code]

/-- The fields of `FCwr` read back. -/
theorem FCwr.ofBits_bits (f : FCwr) : FCwr.ofBits f.bits = f := by
  have h0 : f.bits.extractLsb' 16 2 = f.cc := (slice_high _ _ 16 2 14 rfl).trans <| (slice_high _ _ 14 2 10 rfl).trans <| (slice_high _ _ 10 2 4 rfl).trans <| (slice_high _ _ 4 2 0 rfl).trans <| slice_all _
  have h1 : f.bits.extractLsb' 12 4 = f.bm := (slice_high _ _ 12 4 10 rfl).trans <| (slice_high _ _ 10 4 6 rfl).trans <| (slice_high _ _ 6 4 0 rfl).trans <| slice_low _ _
  have h2 : f.bits.extractLsb' 6 6 = f.a.code := (slice_high _ _ 6 6 4 rfl).trans <| (slice_high _ _ 4 6 0 rfl).trans <| slice_low _ _
  have h3 : f.bits.extractLsb' 2 4 = f.st := (slice_high _ _ 2 4 0 rfl).trans <| slice_low _ _
  simp only [FCwr.ofBits, h0, h1, h2, h3, Src.ofCode_code]

/-- The fields of `FCclr` read back. -/
theorem FCclr.ofBits_bits (f : FCclr) : FCclr.ofBits f.bits = f := by
  have h0 : f.bits.extractLsb' 16 2 = f.cc := (slice_high _ _ 16 2 8 rfl).trans <| (slice_high _ _ 8 2 4 rfl).trans <| (slice_high _ _ 4 2 0 rfl).trans <| slice_all _
  have h1 : f.bits.extractLsb' 12 4 = f.st := (slice_high _ _ 12 4 4 rfl).trans <| (slice_high _ _ 4 4 0 rfl).trans <| slice_low _ _
  have h2 : f.bits.extractLsb' 8 4 = f.sb := (slice_high _ _ 8 4 0 rfl).trans <| slice_low _ _
  simp only [FCclr.ofBits, h0, h1, h2]

/-- The fields of `FZcmp` read back. -/
theorem FZcmp.ofBits_bits (f : FZcmp) : FZcmp.ofBits f.bits = f := by
  have h0 : f.bits.getLsbD 17 = f.wr := (bit_high _ _ 17 13 rfl).trans <| (bit_high _ _ 13 7 rfl).trans <| (bit_high _ _ 7 3 rfl).trans <| (bit_high _ _ 3 0 rfl).trans <| bit_flag _
  have h1 : f.bits.extractLsb' 14 3 = f.cond := (slice_high _ _ 14 3 10 rfl).trans <| (slice_high _ _ 10 3 4 rfl).trans <| (slice_high _ _ 4 3 0 rfl).trans <| slice_low _ _
  have h2 : f.bits.extractLsb' 10 4 = f.pd := (slice_high _ _ 10 4 6 rfl).trans <| (slice_high _ _ 6 4 0 rfl).trans <| slice_low _ _
  have h3 : f.bits.extractLsb' 4 6 = f.a.code := (slice_high _ _ 4 6 0 rfl).trans <| slice_low _ _
  have h4 : f.bits.extractLsb' 0 4 = f.st := slice_low _ _
  simp only [FZcmp.ofBits, h0, h1, h2, h3, h4, Src.ofCode_code]

/-- The fields of `FB` read back. -/
theorem FB.ofBits_bits (f : FB) : FB.ofBits f.bits = f := by
  have h0 : f.bits.extractLsb' 14 4 = f.tpri := (slice_high _ _ 14 4 0 rfl).trans <| slice_all _
  have h1 : f.bits.extractLsb' 0 14 = f.off14 := slice_low _ _
  simp only [FB.ofBits, h0, h1]

/-- The fields of `FBrx` read back. -/
theorem FBrx.ofBits_bits (f : FBrx) : FBrx.ofBits f.bits = f := by
  have h0 : f.bits.extractLsb' 14 4 = f.tpri := (slice_high _ _ 14 4 8 rfl).trans <| (slice_high _ _ 8 4 2 rfl).trans <| (slice_high _ _ 2 4 0 rfl).trans <| slice_all _
  have h1 : f.bits.extractLsb' 6 6 = f.a.code := (slice_high _ _ 6 6 0 rfl).trans <| slice_low _ _
  simp only [FBrx.ofBits, h0, h1, Src.ofCode_code]

/-- The fields of `FL` read back. -/
theorem FL.ofBits_bits (f : FL) : FL.ofBits f.bits = f := by
  have h0 : f.bits.extractLsb' 14 4 = f.sc := (slice_high _ _ 14 4 0 rfl).trans <| slice_all _
  have h1 : f.bits.extractLsb' 0 14 = f.off14 := slice_low _ _
  simp only [FL.ofBits, h0, h1]

/-- The fields of `FLaunch` read back. -/
theorem FLaunch.ofBits_bits (f : FLaunch) : FLaunch.ofBits f.bits = f := by
  have h0 : f.bits.extractLsb' 14 4 = f.sd := (slice_high _ _ 14 4 13 rfl).trans <| (slice_high _ _ 13 4 9 rfl).trans <| (slice_high _ _ 9 4 5 rfl).trans <| (slice_high _ _ 5 4 0 rfl).trans <| slice_all _
  have h1 : f.bits.extractLsb' 9 5 = f.q := (slice_high _ _ 9 5 8 rfl).trans <| (slice_high _ _ 8 5 4 rfl).trans <| (slice_high _ _ 4 5 0 rfl).trans <| slice_low _ _
  have h2 : f.bits.extractLsb' 5 4 = f.sa := (slice_high _ _ 5 4 4 rfl).trans <| (slice_high _ _ 4 4 0 rfl).trans <| slice_low _ _
  have h3 : f.bits.extractLsb' 1 4 = f.sb := (slice_high _ _ 1 4 0 rfl).trans <| slice_low _ _
  have h4 : f.bits.getLsbD 0 = f.ao := (bit_low _ _ 0 (by decide)).trans (bit_flag _)
  simp only [FLaunch.ofBits, h0, h1, h2, h3, h4]

/-- The fields of `FEmit` read back. -/
theorem FEmit.ofBits_bits (f : FEmit) : FEmit.ofBits f.bits = f := by
  have h0 : f.bits.extractLsb' 12 4 = f.pd := (slice_high _ _ 12 4 6 rfl).trans <| (slice_high _ _ 6 4 0 rfl).trans <| slice_low _ _
  have h1 : f.bits.extractLsb' 6 6 = f.a.code := (slice_high _ _ 6 6 0 rfl).trans <| slice_low _ _
  have h2 : f.bits.extractLsb' 0 6 = f.b.code := slice_low _ _
  simp only [FEmit.ofBits, h0, h1, h2, Src.ofCode_code]

/-- The fields of `FAwait` read back. -/
theorem FAwait.ofBits_bits (f : FAwait) : FAwait.ofBits f.bits = f := by
  have h0 : f.bits.extractLsb' 16 2 = f.cc := (slice_high _ _ 16 2 0 rfl).trans <| slice_all _
  have h1 : f.bits.extractLsb' 0 16 = f.live := slice_low _ _
  simp only [FAwait.ofBits, h0, h1]

/-- The fields of `FBi` read back. -/
theorem FBi.ofBits_bits (f : FBi) : FBi.ofBits f.bits = f := by
  have h0 : f.bits.extractLsb' 6 6 = f.a.code := (slice_high _ _ 6 6 0 rfl).trans <| slice_low _ _
  have h1 : f.bits.extractLsb' 0 6 = f.b.code := slice_low _ _
  simp only [FBi.ofBits, h0, h1, Src.ofCode_code]

/-- A variant bit. -/
theorem FBa.bit17 (f : FBa) : f.bits.getLsbD 17 = false :=
  (bit_high _ _ 17 11 rfl).trans <| (bit_high _ _ 11 5 rfl).trans <| (bit_high _ _ 5 0 rfl).trans <| rfl

/-- The fields of `FBa` read back. -/
theorem FBa.ofBits_bits (f : FBa) : FBa.ofBits f.bits = f := by
  have h0 : f.bits.extractLsb' 6 6 = f.a.code := (slice_high _ _ 6 6 0 rfl).trans <| slice_low _ _
  simp only [FBa.ofBits, h0, Src.ofCode_code]

/-- A variant bit. -/
theorem FBaN.bit17 (f : FBaN) : f.bits.getLsbD 17 = true :=
  (bit_high _ _ 17 11 rfl).trans <| (bit_high _ _ 11 5 rfl).trans <| (bit_high _ _ 5 0 rfl).trans <| rfl

/-- The fields of `FBaN` read back. -/
theorem FBaN.ofBits_bits (f : FBaN) : FBaN.ofBits f.bits = f := by
  have h0 : f.bits.extractLsb' 6 6 = f.a.code := (slice_high _ _ 6 6 0 rfl).trans <| slice_low _ _
  simp only [FBaN.ofBits, h0, Src.ofCode_code]

/-- The fields of `FFence` read back. -/
theorem FFence.ofBits_bits (f : FFence) : FFence.ofBits f.bits = f := by
  have h0 : f.bits.extractLsb' 15 3 = f.scope := (slice_high _ _ 15 3 0 rfl).trans <| slice_all _
  simp only [FFence.ofBits, h0]

/-- The fields of `FRepl` read back. -/
theorem FRepl.ofBits_bits (f : FRepl) : FRepl.ofBits f.bits = f := by
  have h0 : f.bits.extractLsb' 6 6 = f.a.code := (slice_high _ _ 6 6 1 rfl).trans <| (slice_high _ _ 1 6 0 rfl).trans <| slice_low _ _
  have h1 : f.bits.getLsbD 5 = f.half := (bit_high _ _ 5 0 rfl).trans <| (bit_low _ _ 0 (by decide)).trans (bit_flag _)
  simp only [FRepl.ofBits, h0, h1, Src.ofCode_code]

/-- The fields of `FHmov` read back. -/
theorem FHmov.ofBits_bits (f : FHmov) : FHmov.ofBits f.bits = f := by
  have h0 : f.bits.getLsbD 17 = f.dir := (bit_high _ _ 17 14 rfl).trans <| (bit_high _ _ 14 9 rfl).trans <| (bit_high _ _ 9 3 rfl).trans <| (bit_high _ _ 3 0 rfl).trans <| bit_flag _
  have h1 : f.bits.extractLsb' 14 3 = f.cl := (slice_high _ _ 14 3 11 rfl).trans <| (slice_high _ _ 11 3 6 rfl).trans <| (slice_high _ _ 6 3 0 rfl).trans <| slice_low _ _
  have h2 : f.bits.extractLsb' 8 6 = f.n := (slice_high _ _ 8 6 5 rfl).trans <| (slice_high _ _ 5 6 0 rfl).trans <| slice_low _ _
  have h3 : f.bits.extractLsb' 3 5 = f.h := (slice_high _ _ 3 5 0 rfl).trans <| slice_low _ _
  simp only [FHmov.ofBits, h0, h1, h2, h3]

/-- The reserved bits of `FRu`. -/
theorem FRu.reserved (f : FRu) : f.bits &&& 0x0003f#18 = 0 := by
  show _ &&& (0#1 ++ 0#5 ++ 0#6 ++ 63#6) = (0 : BitVec 18)
  exact (and_parts _ _ _ _ (and_parts _ _ _ _ (and_parts _ _ _ _ (BitVec.and_zero) (BitVec.and_zero)) (BitVec.and_zero)) (by decide))

/-- The reserved bits of `FQ`. -/
theorem FQ.reserved (f : FQ) : f.bits &&& 0x30410#18 = 0 := by
  show _ &&& (3#2 ++ 0#4 ++ 0#1 ++ 1#1 ++ 0#4 ++ 0#1 ++ 1#1 ++ 0#4) = (0 : BitVec 18)
  exact (and_parts _ _ _ _ (and_parts _ _ _ _ (and_parts _ _ _ _ (and_parts _ _ _ _ (and_parts _ _ _ _ (and_parts _ _ _ _ (and_parts _ _ _ _ (by decide) (BitVec.and_zero)) (BitVec.and_zero)) (by decide)) (BitVec.and_zero)) (BitVec.and_zero)) (by decide)) (BitVec.and_zero))

/-- The reserved bits of `FQu`. -/
theorem FQu.reserved (f : FQu) : f.bits &&& 0x3043f#18 = 0 := by
  show _ &&& (3#2 ++ 0#4 ++ 0#1 ++ 1#1 ++ 0#4 ++ 63#6) = (0 : BitVec 18)
  exact (and_parts _ _ _ _ (and_parts _ _ _ _ (and_parts _ _ _ _ (and_parts _ _ _ _ (and_parts _ _ _ _ (by decide) (BitVec.and_zero)) (BitVec.and_zero)) (by decide)) (BitVec.and_zero)) (by decide))

/-- The reserved bits of `FMovpV`. -/
theorem FMovpV.reserved (f : FMovpV) : f.bits &&& 0x20fd0#18 = 0 := by
  show _ &&& (1#1 ++ 0#5 ++ 63#6 ++ 0#1 ++ 1#1 ++ 0#4) = (0 : BitVec 18)
  exact (and_parts _ _ _ _ (and_parts _ _ _ _ (and_parts _ _ _ _ (and_parts _ _ _ _ (and_parts _ _ _ _ (by decide) (BitVec.and_zero)) (by decide)) (BitVec.and_zero)) (by decide)) (BitVec.and_zero))

/-- The reserved bits of `FMovpP`. -/
theorem FMovpP.reserved (f : FMovpP) : f.bits &&& 0x1f010#18 = 0 := by
  show _ &&& (0#1 ++ 31#5 ++ 0#6 ++ 0#1 ++ 1#1 ++ 0#4) = (0 : BitVec 18)
  exact (and_parts _ _ _ _ (and_parts _ _ _ _ (and_parts _ _ _ _ (and_parts _ _ _ _ (and_parts _ _ _ _ (BitVec.and_zero) (by decide)) (BitVec.and_zero)) (BitVec.and_zero)) (by decide)) (BitVec.and_zero))

/-- The reserved bits of `FIu`. -/
theorem FIu.reserved (f : FIu) : f.bits &&& 0x00fc0#18 = 0 := by
  show _ &&& (0#1 ++ 0#5 ++ 63#6 ++ 0#6) = (0 : BitVec 18)
  exact (and_parts _ _ _ _ (and_parts _ _ _ _ (and_parts _ _ _ _ (BitVec.and_zero) (BitVec.and_zero)) (by decide)) (BitVec.and_zero))

/-- The reserved bits of `FMovsw`. -/
theorem FMovsw.reserved (f : FMovsw) : f.bits &&& 0x3f000#18 = 0 := by
  show _ &&& (63#6 ++ 0#6 ++ 0#6) = (0 : BitVec 18)
  exact (and_parts _ _ _ _ (and_parts _ _ _ _ (by decide) (BitVec.and_zero)) (BitVec.and_zero))

/-- The reserved bits of `FPc`. -/
theorem FPc.reserved (f : FPc) : f.bits &&& 0x30000#18 = 0 := by
  show _ &&& (3#2 ++ 0#4 ++ 0#6 ++ 0#6) = (0 : BitVec 18)
  exact (and_parts _ _ _ _ (and_parts _ _ _ _ (and_parts _ _ _ _ (by decide) (BitVec.and_zero)) (BitVec.and_zero)) (BitVec.and_zero))

/-- The reserved bits of `FVote`. -/
theorem FVote.reserved (f : FVote) : f.bits &&& 0x0003f#18 = 0 := by
  show _ &&& (0#2 ++ 0#5 ++ 0#4 ++ 0#1 ++ 63#6) = (0 : BitVec 18)
  exact (and_parts _ _ _ _ (and_parts _ _ _ _ (and_parts _ _ _ _ (and_parts _ _ _ _ (BitVec.and_zero) (BitVec.and_zero)) (BitVec.and_zero)) (BitVec.and_zero)) (by decide))

/-- The reserved bits of `FRedg`. -/
theorem FRedg.reserved (f : FRedg) : f.bits &&& 0x06003#18 = 0 := by
  show _ &&& (0#3 ++ 3#2 ++ 0#5 ++ 0#6 ++ 3#2) = (0 : BitVec 18)
  exact (and_parts _ _ _ _ (and_parts _ _ _ _ (and_parts _ _ _ _ (and_parts _ _ _ _ (BitVec.and_zero) (by decide)) (BitVec.and_zero)) (BitVec.and_zero)) (by decide))

/-- The reserved bits of `FScang`. -/
theorem FScang.reserved (f : FScang) : f.bits &&& 0x02003#18 = 0 := by
  show _ &&& (0#3 ++ 0#1 ++ 1#1 ++ 0#5 ++ 0#6 ++ 3#2) = (0 : BitVec 18)
  exact (and_parts _ _ _ _ (and_parts _ _ _ _ (and_parts _ _ _ _ (and_parts _ _ _ _ (and_parts _ _ _ _ (BitVec.and_zero) (BitVec.and_zero)) (by decide)) (BitVec.and_zero)) (BitVec.and_zero)) (by decide))

/-- The reserved bits of `FBcast`. -/
theorem FBcast.reserved (f : FBcast) : f.bits &&& 0x20000#18 = 0 := by
  show _ &&& (1#1 ++ 0#5 ++ 0#6 ++ 0#1 ++ 0#5) = (0 : BitVec 18)
  exact (and_parts _ _ _ _ (and_parts _ _ _ _ (and_parts _ _ _ _ (and_parts _ _ _ _ (by decide) (BitVec.and_zero)) (BitVec.and_zero)) (BitVec.and_zero)) (BitVec.and_zero))

/-- The reserved bits of `FFeq`. -/
theorem FFeq.reserved (f : FFeq) : f.bits &&& 0x08000#18 = 0 := by
  show _ &&& (0#2 ++ 1#1 ++ 0#4 ++ 0#6 ++ 0#5) = (0 : BitVec 18)
  exact (and_parts _ _ _ _ (and_parts _ _ _ _ (and_parts _ _ _ _ (and_parts _ _ _ _ (BitVec.and_zero) (by decide)) (BitVec.and_zero)) (BitVec.and_zero)) (BitVec.and_zero))

/-- The reserved bits of `FMn`. -/
theorem FMn.reserved (f : FMn) : f.bits &&& 0x0f800#18 = 0 := by
  show _ &&& (0#2 ++ 31#5 ++ 0#6 ++ 0#5) = (0 : BitVec 18)
  exact (and_parts _ _ _ _ (and_parts _ _ _ _ (and_parts _ _ _ _ (BitVec.and_zero) (by decide)) (BitVec.and_zero)) (BitVec.and_zero))

/-- The reserved bits of `FK4`. -/
theorem FK4.reserved (f : FK4) : f.bits &&& 0x3fff0#18 = 0 := by
  show _ &&& (16383#14 ++ 0#4) = (0 : BitVec 18)
  exact (and_parts _ _ _ _ (by decide) (BitVec.and_zero))

/-- The reserved bits of `FTdef`. -/
theorem FTdef.reserved (f : FTdef) : f.bits &&& 0x00003#18 = 0 := by
  show _ &&& (0#8 ++ 0#4 ++ 0#4 ++ 3#2) = (0 : BitVec 18)
  exact (and_parts _ _ _ _ (and_parts _ _ _ _ (and_parts _ _ _ _ (BitVec.and_zero) (BitVec.and_zero)) (BitVec.and_zero)) (by decide))

/-- The reserved bits of `FTinv`. -/
theorem FTinv.reserved (f : FTinv) : f.bits &&& 0x003ff#18 = 0 := by
  show _ &&& (0#8 ++ 1023#10) = (0 : BitVec 18)
  exact (and_parts _ _ _ _ (BitVec.and_zero) (by decide))

/-- The reserved bits of `FTget`. -/
theorem FTget.reserved (f : FTget) : f.bits &&& 0x20007#18 = 0 := by
  show _ &&& (1#1 ++ 0#5 ++ 0#6 ++ 0#3 ++ 7#3) = (0 : BitVec 18)
  exact (and_parts _ _ _ _ (and_parts _ _ _ _ (and_parts _ _ _ _ (and_parts _ _ _ _ (by decide) (BitVec.and_zero)) (BitVec.and_zero)) (BitVec.and_zero)) (by decide))

/-- The reserved bits of `FK16`. -/
theorem FK16.reserved (f : FK16) : f.bits &&& 0x30000#18 = 0 := by
  show _ &&& (3#2 ++ 0#16) = (0 : BitVec 18)
  exact (and_parts _ _ _ _ (by decide) (BitVec.and_zero))

/-- The reserved bits of `FMl`. -/
theorem FMl.reserved (f : FMl) : f.bits &&& 0x003ff#18 = 0 := by
  show _ &&& (0#4 ++ 0#4 ++ 1023#10) = (0 : BitVec 18)
  exact (and_parts _ _ _ _ (and_parts _ _ _ _ (BitVec.and_zero) (BitVec.and_zero)) (by decide))

/-- The reserved bits of `FMma`. -/
theorem FMma.reserved (f : FMma) : f.bits &&& 0x00001#18 = 0 := by
  show _ &&& (0#4 ++ 0#3 ++ 0#5 ++ 0#5 ++ 1#1) = (0 : BitVec 18)
  exact (and_parts _ _ _ _ (and_parts _ _ _ _ (and_parts _ _ _ _ (and_parts _ _ _ _ (BitVec.and_zero) (BitVec.and_zero)) (BitVec.and_zero)) (BitVec.and_zero)) (by decide))

/-- The reserved bits of `FCopy`. -/
theorem FCopy.reserved (f : FCopy) : f.bits &&& 0x003ff#18 = 0 := by
  show _ &&& (0#2 ++ 0#2 ++ 0#4 ++ 1023#10) = (0 : BitVec 18)
  exact (and_parts _ _ _ _ (and_parts _ _ _ _ (and_parts _ _ _ _ (BitVec.and_zero) (BitVec.and_zero)) (BitVec.and_zero)) (by decide))

/-- The reserved bits of `FGres`. -/
theorem FGres.reserved (f : FGres) : f.bits &&& 0x0703f#18 = 0 := by
  show _ &&& (0#3 ++ 1#1 ++ 3#2 ++ 0#6 ++ 63#6) = (0 : BitVec 18)
  exact (and_parts _ _ _ _ (and_parts _ _ _ _ (and_parts _ _ _ _ (and_parts _ _ _ _ (BitVec.and_zero) (by decide)) (by decide)) (BitVec.and_zero)) (by decide))

/-- The reserved bits of `FGresO`. -/
theorem FGresO.reserved (f : FGresO) : f.bits &&& 0x03fff#18 = 0 := by
  show _ &&& (0#3 ++ 0#1 ++ 16383#14) = (0 : BitVec 18)
  exact (and_parts _ _ _ _ (and_parts _ _ _ _ (BitVec.and_zero) (BitVec.and_zero)) (by decide))

/-- The reserved bits of `FCflag`. -/
theorem FCflag.reserved (f : FCflag) : f.bits &&& 0x0003f#18 = 0 := by
  show _ &&& (0#2 ++ 0#2 ++ 0#4 ++ 0#4 ++ 63#6) = (0 : BitVec 18)
  exact (and_parts _ _ _ _ (and_parts _ _ _ _ (and_parts _ _ _ _ (and_parts _ _ _ _ (BitVec.and_zero) (BitVec.and_zero)) (BitVec.and_zero)) (BitVec.and_zero)) (by decide))

/-- The reserved bits of `FTlbp`. -/
theorem FTlbp.reserved (f : FTlbp) : f.bits &&& 0x001ff#18 = 0 := by
  show _ &&& (0#4 ++ 0#4 ++ 0#1 ++ 511#9) = (0 : BitVec 18)
  exact (and_parts _ _ _ _ (and_parts _ _ _ _ (and_parts _ _ _ _ (BitVec.and_zero) (BitVec.and_zero)) (BitVec.and_zero)) (by decide))

/-- The reserved bits of `FTlbpF`. -/
theorem FTlbpF.reserved (f : FTlbpF) : f.bits &&& 0x001ff#18 = 0 := by
  show _ &&& (0#4 ++ 0#4 ++ 0#1 ++ 511#9) = (0 : BitVec 18)
  exact (and_parts _ _ _ _ (and_parts _ _ _ _ (and_parts _ _ _ _ (BitVec.and_zero) (BitVec.and_zero)) (BitVec.and_zero)) (by decide))

/-- The reserved bits of `FPattr0`. -/
theorem FPattr0.reserved_3ff (f : FPattr0) : f.bits &&& 0x003ff#18 = 0 := by
  show _ &&& (0#2 ++ 0#2 ++ 0#4 ++ 1023#10) = (0 : BitVec 18)
  exact (and_parts _ _ _ _ (and_parts _ _ _ _ (and_parts _ _ _ _ (BitVec.and_zero) (BitVec.and_zero)) (BitVec.and_zero)) (by decide))

/-- The reserved bits of `FPattr0`. -/
theorem FPattr0.reserved_c3ff (f : FPattr0) : f.bits &&& 0x0c3ff#18 = 0 := by
  show _ &&& (0#2 ++ 3#2 ++ 0#4 ++ 1023#10) = (0 : BitVec 18)
  exact (and_parts _ _ _ _ (and_parts _ _ _ _ (and_parts _ _ _ _ (BitVec.and_zero) (by decide)) (BitVec.and_zero)) (by decide))

/-- The reserved bits of `FPattr1`. -/
theorem FPattr1.reserved (f : FPattr1) : f.bits &&& 0x003ff#18 = 0 := by
  show _ &&& (0#2 ++ 0#1 ++ 0#1 ++ 0#4 ++ 1023#10) = (0 : BitVec 18)
  exact (and_parts _ _ _ _ (and_parts _ _ _ _ (and_parts _ _ _ _ (and_parts _ _ _ _ (BitVec.and_zero) (BitVec.and_zero)) (BitVec.and_zero)) (BitVec.and_zero)) (by decide))

/-- The reserved bits of `FPattr2`. -/
theorem FPattr2.reserved (f : FPattr2) : f.bits &&& 0x003ff#18 = 0 := by
  show _ &&& (0#2 ++ 0#1 ++ 0#1 ++ 0#4 ++ 1023#10) = (0 : BitVec 18)
  exact (and_parts _ _ _ _ (and_parts _ _ _ _ (and_parts _ _ _ _ (and_parts _ _ _ _ (BitVec.and_zero) (BitVec.and_zero)) (BitVec.and_zero)) (BitVec.and_zero)) (by decide))

/-- The reserved bits of `FPrim`. -/
theorem FPrim.reserved (f : FPrim) : f.bits &&& 0x2003f#18 = 0 := by
  show _ &&& (1#1 ++ 0#5 ++ 0#6 ++ 63#6) = (0 : BitVec 18)
  exact (and_parts _ _ _ _ (and_parts _ _ _ _ (and_parts _ _ _ _ (by decide) (BitVec.and_zero)) (BitVec.and_zero)) (by decide))

/-- The reserved bits of `FCwr`. -/
theorem FCwr.reserved (f : FCwr) : f.bits &&& 0x00003#18 = 0 := by
  show _ &&& (0#2 ++ 0#4 ++ 0#6 ++ 0#4 ++ 3#2) = (0 : BitVec 18)
  exact (and_parts _ _ _ _ (and_parts _ _ _ _ (and_parts _ _ _ _ (and_parts _ _ _ _ (BitVec.and_zero) (BitVec.and_zero)) (BitVec.and_zero)) (BitVec.and_zero)) (by decide))

/-- The reserved bits of `FCclr`. -/
theorem FCclr.reserved (f : FCclr) : f.bits &&& 0x000ff#18 = 0 := by
  show _ &&& (0#2 ++ 0#4 ++ 0#4 ++ 255#8) = (0 : BitVec 18)
  exact (and_parts _ _ _ _ (and_parts _ _ _ _ (and_parts _ _ _ _ (BitVec.and_zero) (BitVec.and_zero)) (BitVec.and_zero)) (by decide))

/-- The reserved bits of `FBrx`. -/
theorem FBrx.reserved (f : FBrx) : f.bits &&& 0x0303f#18 = 0 := by
  show _ &&& (0#4 ++ 3#2 ++ 0#6 ++ 63#6) = (0 : BitVec 18)
  exact (and_parts _ _ _ _ (and_parts _ _ _ _ (and_parts _ _ _ _ (BitVec.and_zero) (by decide)) (BitVec.and_zero)) (by decide))

/-- The reserved bits of `FEmit`. -/
theorem FEmit.reserved (f : FEmit) : f.bits &&& 0x30000#18 = 0 := by
  show _ &&& (3#2 ++ 0#4 ++ 0#6 ++ 0#6) = (0 : BitVec 18)
  exact (and_parts _ _ _ _ (and_parts _ _ _ _ (and_parts _ _ _ _ (by decide) (BitVec.and_zero)) (BitVec.and_zero)) (BitVec.and_zero))

/-- The reserved bits of `FBi`. -/
theorem FBi.reserved (f : FBi) : f.bits &&& 0x3f000#18 = 0 := by
  show _ &&& (63#6 ++ 0#6 ++ 0#6) = (0 : BitVec 18)
  exact (and_parts _ _ _ _ (and_parts _ _ _ _ (by decide) (BitVec.and_zero)) (BitVec.and_zero))

/-- The reserved bits of `FBa`. -/
theorem FBa.reserved_1f03f (f : FBa) : f.bits &&& 0x1f03f#18 = 0 := by
  show _ &&& (0#1 ++ 31#5 ++ 0#6 ++ 63#6) = (0 : BitVec 18)
  exact (and_parts _ _ _ _ (and_parts _ _ _ _ (and_parts _ _ _ _ (BitVec.and_zero) (by decide)) (BitVec.and_zero)) (by decide))

/-- The reserved bits of `FBa`. -/
theorem FBa.reserved_3f03f (f : FBa) : f.bits &&& 0x3f03f#18 = 0 := by
  show _ &&& (1#1 ++ 31#5 ++ 0#6 ++ 63#6) = (0 : BitVec 18)
  exact (and_parts _ _ _ _ (and_parts _ _ _ _ (and_parts _ _ _ _ (by decide) (by decide)) (BitVec.and_zero)) (by decide))

/-- The reserved bits of `FBaN`. -/
theorem FBaN.reserved (f : FBaN) : f.bits &&& 0x1f03f#18 = 0 := by
  show _ &&& (0#1 ++ 31#5 ++ 0#6 ++ 63#6) = (0 : BitVec 18)
  exact (and_parts _ _ _ _ (and_parts _ _ _ _ (and_parts _ _ _ _ (BitVec.and_zero) (by decide)) (BitVec.and_zero)) (by decide))

/-- The reserved bits of `FCvset`. -/
theorem FCvset.reserved (f : FCvset) : f.bits &&& 0x07e00#18 = 0 := by
  show _ &&& (0#3 ++ 63#6 ++ 0#9) = (0 : BitVec 18)
  exact (and_parts _ _ _ _ (and_parts _ _ _ _ (BitVec.and_zero) (by decide)) (BitVec.and_zero))

/-- The reserved bits of `FFence`. -/
theorem FFence.reserved (f : FFence) : f.bits &&& 0x07fff#18 = 0 := by
  show _ &&& (0#3 ++ 32767#15) = (0 : BitVec 18)
  exact (and_parts _ _ _ _ (BitVec.and_zero) (by decide))

/-- The reserved bits of `FRepl`. -/
theorem FRepl.reserved (f : FRepl) : f.bits &&& 0x3f01f#18 = 0 := by
  show _ &&& (63#6 ++ 0#6 ++ 0#1 ++ 31#5) = (0 : BitVec 18)
  exact (and_parts _ _ _ _ (and_parts _ _ _ _ (and_parts _ _ _ _ (by decide) (BitVec.and_zero)) (BitVec.and_zero)) (by decide))

/-- The reserved bits of `FHmov`. -/
theorem FHmov.reserved (f : FHmov) : f.bits &&& 0x00007#18 = 0 := by
  show _ &&& (0#1 ++ 0#3 ++ 0#6 ++ 0#5 ++ 7#3) = (0 : BitVec 18)
  exact (and_parts _ _ _ _ (and_parts _ _ _ _ (and_parts _ _ _ _ (and_parts _ _ _ _ (BitVec.and_zero) (BitVec.and_zero)) (BitVec.and_zero)) (BitVec.and_zero)) (by decide))

end Sys2Proof
end

