-- ==== Sys2Proof/Laws/Maps.lean ====
section
/-! SUPPORT. Maps: the laws of keyed lists and of memory: reading after a write, and the forms every operation keeps. -/

set_option Elab.async false

namespace Sys2Proof.Machine

/-! ### Keyed lists -/

theorem AMap.get?_set {α : Type} (m : AMap α) (a b : Nat) (x : α) :
    AMap.get? (AMap.set m a x) b = if b = a then some x else AMap.get? m b := by
  induction m with
  | nil => simp only [AMap.set, AMap.get?]; grind
  | cons c t ih =>
    obtain ⟨k, v⟩ := c
    simp only [AMap.set]
    split
    · subst_vars; simp only [AMap.get?]; grind
    · split
      · simp only [AMap.get?]; grind
      · simp only [AMap.get?, ih]; grind

@[simp] theorem AMap.getD_set {α : Type} (m : AMap α) (a b : Nat) (x d : α) :
    AMap.getD (AMap.set m a x) b d = if b = a then x else AMap.getD m b d := by
  simp only [AMap.getD, AMap.get?_set]
  split <;> rfl

theorem AMap.ascFrom_mono {α : Type} (m : AMap α) (a b : Nat) (h : a ≤ b) (hm : AMap.ascFrom b m = true) :
    AMap.ascFrom a m = true := by
  cases m with
  | nil => rfl
  | cons c t => simp only [AMap.ascFrom, Bool.and_eq_true, decide_eq_true_eq] at hm ⊢; exact ⟨by omega, hm.2⟩

theorem AMap.get?_below {α : Type} (m : AMap α) (lo b : Nat) (h : b < lo) (hm : AMap.ascFrom lo m = true) :
    AMap.get? m b = none := by
  cases m with
  | nil => rfl
  | cons c t =>
    simp only [AMap.ascFrom, Bool.and_eq_true, decide_eq_true_eq] at hm
    simp only [AMap.get?]
    grind

theorem AMap.get?_erase {α : Type} (m : AMap α) (lo a b : Nat) (hm : AMap.ascFrom lo m = true) :
    AMap.get? (AMap.erase m a) b = if b = a then none else AMap.get? m b := by
  induction m generalizing lo with
  | nil => simp [AMap.erase, AMap.get?]
  | cons c t ih =>
    obtain ⟨k, v⟩ := c
    simp only [AMap.ascFrom, Bool.and_eq_true, decide_eq_true_eq] at hm
    have hb := AMap.get?_below t (k + 1) b
    simp only [AMap.erase]
    split
    · next hk =>
      subst hk
      simp only [AMap.get?]
      rcases Nat.lt_trichotomy b a with h | h | h
      · rw [if_neg (by omega), if_neg (by omega), if_pos h]; exact hb (by omega) hm.2
      · subst h; rw [if_pos rfl]; exact hb (by omega) hm.2
      · rw [if_neg (by omega), if_neg (by omega), if_neg (by omega)]
    · simp only [AMap.get?, ih (k + 1) hm.2]
      grind

theorem AMap.ascFrom_erase {α : Type} (m : AMap α) (lo a : Nat) (hm : AMap.ascFrom lo m = true) :
    AMap.ascFrom lo (AMap.erase m a) = true := by
  induction m generalizing lo with
  | nil => rfl
  | cons c t ih =>
    obtain ⟨k, v⟩ := c
    simp only [AMap.ascFrom, Bool.and_eq_true, decide_eq_true_eq] at hm
    simp only [AMap.erase]
    split
    · exact AMap.ascFrom_mono t lo (k + 1) (by omega) hm.2
    · simp only [AMap.ascFrom, Bool.and_eq_true, decide_eq_true_eq]; exact ⟨hm.1, ih _ hm.2⟩

theorem AMap.ascFrom_set {α : Type} (m : AMap α) (lo a : Nat) (x : α) (ha : lo ≤ a) (hm : AMap.ascFrom lo m = true) :
    AMap.ascFrom lo (AMap.set m a x) = true := by
  induction m generalizing lo with
  | nil => simp [AMap.set, AMap.ascFrom, ha]
  | cons c t ih =>
    obtain ⟨k, v⟩ := c
    simp only [AMap.ascFrom, Bool.and_eq_true, decide_eq_true_eq] at hm
    simp only [AMap.set]
    split
    · subst_vars; simp [AMap.ascFrom, hm.2, ha]
    · split
      · simp only [AMap.ascFrom, Bool.and_eq_true, decide_eq_true_eq]; exact ⟨ha, by omega, hm.2⟩
      · simp only [AMap.ascFrom, Bool.and_eq_true, decide_eq_true_eq]; exact ⟨hm.1, ih _ (by omega) hm.2⟩

/-! ### Memory -/

theorem Memory.read_write (m : List Host.Cell) (a b : Nat) (x : Byte) :
    Memory.wf m = true → Memory.read (Memory.write m a x) b = if b = a then x else Memory.read m b := by
  suffices h : ∀ lo, Memory.wfFrom lo m = true →
      Memory.read (Memory.write m a x) b = if b = a then x else Memory.read m b from h 0
  intro lo hm
  induction m generalizing lo with
  | nil => simp only [Memory.write]; split <;> simp only [Memory.read] <;> grind
  | cons c t ih =>
    obtain ⟨k, v⟩ := c
    simp only [Memory.wfFrom, Bool.and_eq_true, decide_eq_true_eq] at hm
    have below : ∀ b, b < k + 1 → Memory.read t b = Memory.blank := by
      intro b hb
      have ht := hm.2
      cases t with
      | nil => rfl
      | cons d u =>
        simp only [Memory.wfFrom, Bool.and_eq_true, decide_eq_true_eq] at ht
        simp only [Memory.read]
        grind
    simp only [Memory.write]
    split
    · subst_vars
      have hb := below b
      split <;> simp only [Memory.read] <;> grind
    · split
      · split <;> simp only [Memory.read] <;> grind
      · simp only [Memory.read, ih (k + 1) hm.2]; grind

theorem Memory.wfFrom_mono (m : List Host.Cell) (a b : Nat) (h : a ≤ b) (hm : Memory.wfFrom b m = true) :
    Memory.wfFrom a m = true := by
  cases m with
  | nil => rfl
  | cons c t => simp only [Memory.wfFrom, Bool.and_eq_true, decide_eq_true_eq] at hm ⊢; exact ⟨⟨by omega, hm.1.2⟩, hm.2⟩

theorem Memory.wfFrom_write (m : List Host.Cell) (lo a : Nat) (x : Byte) (ha : lo ≤ a) (hm : Memory.wfFrom lo m = true) :
    Memory.wfFrom lo (Memory.write m a x) = true := by
  induction m generalizing lo with
  | nil => simp only [Memory.write]; split <;> simp_all [Memory.wfFrom]
  | cons c t ih =>
    obtain ⟨k, v⟩ := c
    simp only [Memory.wfFrom, Bool.and_eq_true, decide_eq_true_eq] at hm
    simp only [Memory.write]
    split
    · next hk =>
      subst hk
      split
      · exact Memory.wfFrom_mono t lo (a + 1) (by omega) hm.2
      · simp_all [Memory.wfFrom]
    · split
      · split
        · simp_all [Memory.wfFrom]
        · simp only [Memory.wfFrom, Bool.and_eq_true, decide_eq_true_eq]
          exact ⟨⟨ha, by assumption⟩, ⟨by omega, hm.1.2⟩, hm.2⟩
      · simp only [Memory.wfFrom, Bool.and_eq_true, decide_eq_true_eq]
        exact ⟨hm.1, ih (k + 1) (by omega) hm.2⟩

theorem Memory.wf_write (m : List Host.Cell) (a : Nat) (x : Byte) (hm : Memory.wf m = true) :
    Memory.wf (Memory.write m a x) = true := Memory.wfFrom_write m 0 a x (Nat.zero_le _) hm

theorem Memory.wf_writeN (n : Nat) : ∀ (m : List Host.Cell) (a v : Nat), Memory.wf m = true →
    Memory.wf (Memory.writeN m a n v) = true := by
  induction n with
  | zero => intro m a v hm; exact hm
  | succ n ih => intro m a v hm; exact ih _ _ _ (Memory.wf_write m a _ hm)

theorem Memory.wfFrom_filter (p : Host.Cell → Bool) (m : List Host.Cell) (lo : Nat) (hm : Memory.wfFrom lo m = true) :
    Memory.wfFrom lo (m.filter p) = true := by
  induction m generalizing lo with
  | nil => rfl
  | cons c t ih =>
    obtain ⟨k, v⟩ := c
    simp only [Memory.wfFrom, Bool.and_eq_true, decide_eq_true_eq] at hm
    have ht := ih (k + 1) hm.2
    rw [List.filter_cons]
    split
    · simp only [Memory.wfFrom, Bool.and_eq_true, decide_eq_true_eq]; exact ⟨hm.1, ht⟩
    · exact Memory.wfFrom_mono _ lo (k + 1) (by omega) ht

theorem Memory.wf_filter (p : Host.Cell → Bool) (m : List Host.Cell) (hm : Memory.wf m = true) :
    Memory.wf (m.filter p) = true := Memory.wfFrom_filter p m 0 hm

theorem Memory.wf_clear (m : List Host.Cell) (lo hi : Nat) (hm : Memory.wf m = true) :
    Memory.wf (Memory.clear m lo hi) = true := Memory.wf_filter _ m hm

theorem Memory.wf_restore (cs : List Host.Cell) : ∀ (m : List Host.Cell) (lo : Nat), Memory.wf m = true →
    Memory.wf (Memory.restore m lo cs) = true := by
  induction cs with
  | nil => intro m lo hm; exact hm
  | cons c t ih => intro m lo hm; exact ih _ lo (Memory.wf_write m _ _ hm)

theorem Memory.wf_copy (m : List Host.Cell) (a b n : Nat) (hm : Memory.wf m = true) :
    Memory.wf (Memory.copy m a b n) = true := Memory.wf_restore _ _ _ (Memory.wf_clear m b (b + n) hm)

/-- A write of `n` bytes leaves every byte outside it alone. -/
theorem Memory.read_writeN_other (n : Nat) : ∀ (m : List Host.Cell) (a v b : Nat), Memory.wf m = true →
    (b < a ∨ a + n ≤ b) → Memory.read (Memory.writeN m a n v) b = Memory.read m b := by
  induction n with
  | zero => intro m a v b _ _; rfl
  | succ n ih =>
    intro m a v b hm hb
    simp only [Memory.writeN]
    rw [ih _ _ _ _ (Memory.wf_write m a _ hm) (by omega), Memory.read_write m a b _ hm, if_neg (by omega)]

/-- The bytes written read back. -/
theorem Memory.readN_writeN (n : Nat) : ∀ (m : List Host.Cell) (a v : Nat), Memory.wf m = true →
    Memory.readN (Memory.writeN m a n v) a n = v % 256 ^ n := by
  induction n with
  | zero => intro m a v _; simp [Memory.readN, Nat.mod_one]
  | succ n ih =>
    intro m a v hm
    have hw := Memory.wf_write m a (BitVec.ofNat 8 v) hm
    simp only [Memory.writeN, Memory.readN]
    rw [ih _ _ _ hw, Memory.read_writeN_other n _ _ _ _ hw (by omega), Memory.read_write m a a _ hm, if_pos rfl]
    have h := Nat.mod_mul (x := v) (a := 256) (b := 256 ^ n)
    have h8 : (2 : Nat) ^ 8 = 256 := by decide
    rw [BitVec.toNat_ofNat, h8, ← h, Nat.pow_succ, Nat.mul_comm]

end Sys2Proof.Machine
end

