-- ==== Sys2Proof/Laws/State.lean ====
section
/-! SUPPORT. State: what each named update of the state leaves alone, one lemma for each field, and what it does to the
record it names. -/

set_option Elab.async false

namespace Sys2Proof.Machine.State

@[simp] theorem updGroup_mem (s : State) (id : Nat) (f : Group → Group) : (s.updGroup id f).mem = s.mem := rfl
@[simp] theorem updGroup_full (s : State) (id : Nat) (f : Group → Group) : (s.updGroup id f).full = s.full := rfl
@[simp] theorem updGroup_poison (s : State) (id : Nat) (f : Group → Group) : (s.updGroup id f).poison = s.poison := rfl
@[simp] theorem updGroup_gangs (s : State) (id : Nat) (f : Group → Group) : (s.updGroup id f).gangs = s.gangs := rfl
@[simp] theorem updGroup_launches (s : State) (id : Nat) (f : Group → Group) : (s.updGroup id f).launches = s.launches := rfl
@[simp] theorem updGroup_ctxs (s : State) (id : Nat) (f : Group → Group) : (s.updGroup id f).ctxs = s.ctxs := rfl
@[simp] theorem updGroup_dies (s : State) (id : Nat) (f : Group → Group) : (s.updGroup id f).dies = s.dies := rfl
@[simp] theorem updGroup_clusters (s : State) (id : Nat) (f : Group → Group) : (s.updGroup id f).clusters = s.clusters := rfl
@[simp] theorem updGroup_accs (s : State) (id : Nat) (f : Group → Group) : (s.updGroup id f).accs = s.accs := rfl
@[simp] theorem updGroup_ops (s : State) (id : Nat) (f : Group → Group) : (s.updGroup id f).ops = s.ops := rfl
@[simp] theorem updGroup_lastOp (s : State) (id : Nat) (f : Group → Group) : (s.updGroup id f).lastOp = s.lastOp := rfl
@[simp] theorem updGroup_conts (s : State) (id : Nat) (f : Group → Group) : (s.updGroup id f).conts = s.conts := rfl
@[simp] theorem updGroup_walks (s : State) (id : Nat) (f : Group → Group) : (s.updGroup id f).walks = s.walks := rfl
@[simp] theorem updGroup_collapses (s : State) (id : Nat) (f : Group → Group) : (s.updGroup id f).collapses = s.collapses := rfl
@[simp] theorem updGroup_active (s : State) (id : Nat) (f : Group → Group) : (s.updGroup id f).active = s.active := rfl
@[simp] theorem updGroup_colls (s : State) (id : Nat) (f : Group → Group) : (s.updGroup id f).colls = s.colls := rfl
@[simp] theorem updGroup_streams (s : State) (id : Nat) (f : Group → Group) : (s.updGroup id f).streams = s.streams := rfl
@[simp] theorem updGroup_reqs (s : State) (id : Nat) (f : Group → Group) : (s.updGroup id f).reqs = s.reqs := rfl
@[simp] theorem updGroup_ticks (s : State) (id : Nat) (f : Group → Group) : (s.updGroup id f).ticks = s.ticks := rfl
@[simp] theorem updGroup_closed (s : State) (id : Nat) (f : Group → Group) : (s.updGroup id f).closed = s.closed := rfl
@[simp] theorem updGroup_gtime (s : State) (id : Nat) (f : Group → Group) : (s.updGroup id f).gtime = s.gtime := rfl
@[simp] theorem updGroup_pkg (s : State) (id : Nat) (f : Group → Group) : (s.updGroup id f).pkg = s.pkg := rfl
@[simp] theorem updGroup_agenda (s : State) (id : Nat) (f : Group → Group) : (s.updGroup id f).agenda = s.agenda := rfl
@[simp] theorem updGroup_cur (s : State) (id : Nat) (f : Group → Group) : (s.updGroup id f).cur = s.cur := rfl
@[simp] theorem updGroup_draw (s : State) (id : Nat) (f : Group → Group) : (s.updGroup id f).draw = s.draw := rfl
@[simp] theorem updGroup_next (s : State) (id : Nat) (f : Group → Group) : (s.updGroup id f).next = s.next := rfl

@[simp] theorem updGang_mem (s : State) (id : Nat) (f : Gang → Gang) : (s.updGang id f).mem = s.mem := rfl
@[simp] theorem updGang_full (s : State) (id : Nat) (f : Gang → Gang) : (s.updGang id f).full = s.full := rfl
@[simp] theorem updGang_poison (s : State) (id : Nat) (f : Gang → Gang) : (s.updGang id f).poison = s.poison := rfl
@[simp] theorem updGang_groups (s : State) (id : Nat) (f : Gang → Gang) : (s.updGang id f).groups = s.groups := rfl
@[simp] theorem updGang_launches (s : State) (id : Nat) (f : Gang → Gang) : (s.updGang id f).launches = s.launches := rfl
@[simp] theorem updGang_ctxs (s : State) (id : Nat) (f : Gang → Gang) : (s.updGang id f).ctxs = s.ctxs := rfl
@[simp] theorem updGang_dies (s : State) (id : Nat) (f : Gang → Gang) : (s.updGang id f).dies = s.dies := rfl
@[simp] theorem updGang_clusters (s : State) (id : Nat) (f : Gang → Gang) : (s.updGang id f).clusters = s.clusters := rfl
@[simp] theorem updGang_accs (s : State) (id : Nat) (f : Gang → Gang) : (s.updGang id f).accs = s.accs := rfl
@[simp] theorem updGang_ops (s : State) (id : Nat) (f : Gang → Gang) : (s.updGang id f).ops = s.ops := rfl
@[simp] theorem updGang_lastOp (s : State) (id : Nat) (f : Gang → Gang) : (s.updGang id f).lastOp = s.lastOp := rfl
@[simp] theorem updGang_conts (s : State) (id : Nat) (f : Gang → Gang) : (s.updGang id f).conts = s.conts := rfl
@[simp] theorem updGang_walks (s : State) (id : Nat) (f : Gang → Gang) : (s.updGang id f).walks = s.walks := rfl
@[simp] theorem updGang_collapses (s : State) (id : Nat) (f : Gang → Gang) : (s.updGang id f).collapses = s.collapses := rfl
@[simp] theorem updGang_active (s : State) (id : Nat) (f : Gang → Gang) : (s.updGang id f).active = s.active := rfl
@[simp] theorem updGang_colls (s : State) (id : Nat) (f : Gang → Gang) : (s.updGang id f).colls = s.colls := rfl
@[simp] theorem updGang_streams (s : State) (id : Nat) (f : Gang → Gang) : (s.updGang id f).streams = s.streams := rfl
@[simp] theorem updGang_reqs (s : State) (id : Nat) (f : Gang → Gang) : (s.updGang id f).reqs = s.reqs := rfl
@[simp] theorem updGang_ticks (s : State) (id : Nat) (f : Gang → Gang) : (s.updGang id f).ticks = s.ticks := rfl
@[simp] theorem updGang_closed (s : State) (id : Nat) (f : Gang → Gang) : (s.updGang id f).closed = s.closed := rfl
@[simp] theorem updGang_gtime (s : State) (id : Nat) (f : Gang → Gang) : (s.updGang id f).gtime = s.gtime := rfl
@[simp] theorem updGang_pkg (s : State) (id : Nat) (f : Gang → Gang) : (s.updGang id f).pkg = s.pkg := rfl
@[simp] theorem updGang_agenda (s : State) (id : Nat) (f : Gang → Gang) : (s.updGang id f).agenda = s.agenda := rfl
@[simp] theorem updGang_cur (s : State) (id : Nat) (f : Gang → Gang) : (s.updGang id f).cur = s.cur := rfl
@[simp] theorem updGang_draw (s : State) (id : Nat) (f : Gang → Gang) : (s.updGang id f).draw = s.draw := rfl
@[simp] theorem updGang_next (s : State) (id : Nat) (f : Gang → Gang) : (s.updGang id f).next = s.next := rfl

@[simp] theorem updLaunch_mem (s : State) (id : Nat) (f : Launch → Launch) : (s.updLaunch id f).mem = s.mem := rfl
@[simp] theorem updLaunch_full (s : State) (id : Nat) (f : Launch → Launch) : (s.updLaunch id f).full = s.full := rfl
@[simp] theorem updLaunch_poison (s : State) (id : Nat) (f : Launch → Launch) : (s.updLaunch id f).poison = s.poison := rfl
@[simp] theorem updLaunch_groups (s : State) (id : Nat) (f : Launch → Launch) : (s.updLaunch id f).groups = s.groups := rfl
@[simp] theorem updLaunch_gangs (s : State) (id : Nat) (f : Launch → Launch) : (s.updLaunch id f).gangs = s.gangs := rfl
@[simp] theorem updLaunch_ctxs (s : State) (id : Nat) (f : Launch → Launch) : (s.updLaunch id f).ctxs = s.ctxs := rfl
@[simp] theorem updLaunch_dies (s : State) (id : Nat) (f : Launch → Launch) : (s.updLaunch id f).dies = s.dies := rfl
@[simp] theorem updLaunch_clusters (s : State) (id : Nat) (f : Launch → Launch) : (s.updLaunch id f).clusters = s.clusters := rfl
@[simp] theorem updLaunch_accs (s : State) (id : Nat) (f : Launch → Launch) : (s.updLaunch id f).accs = s.accs := rfl
@[simp] theorem updLaunch_ops (s : State) (id : Nat) (f : Launch → Launch) : (s.updLaunch id f).ops = s.ops := rfl
@[simp] theorem updLaunch_lastOp (s : State) (id : Nat) (f : Launch → Launch) : (s.updLaunch id f).lastOp = s.lastOp := rfl
@[simp] theorem updLaunch_conts (s : State) (id : Nat) (f : Launch → Launch) : (s.updLaunch id f).conts = s.conts := rfl
@[simp] theorem updLaunch_walks (s : State) (id : Nat) (f : Launch → Launch) : (s.updLaunch id f).walks = s.walks := rfl
@[simp] theorem updLaunch_collapses (s : State) (id : Nat) (f : Launch → Launch) : (s.updLaunch id f).collapses = s.collapses := rfl
@[simp] theorem updLaunch_active (s : State) (id : Nat) (f : Launch → Launch) : (s.updLaunch id f).active = s.active := rfl
@[simp] theorem updLaunch_colls (s : State) (id : Nat) (f : Launch → Launch) : (s.updLaunch id f).colls = s.colls := rfl
@[simp] theorem updLaunch_streams (s : State) (id : Nat) (f : Launch → Launch) : (s.updLaunch id f).streams = s.streams := rfl
@[simp] theorem updLaunch_reqs (s : State) (id : Nat) (f : Launch → Launch) : (s.updLaunch id f).reqs = s.reqs := rfl
@[simp] theorem updLaunch_ticks (s : State) (id : Nat) (f : Launch → Launch) : (s.updLaunch id f).ticks = s.ticks := rfl
@[simp] theorem updLaunch_closed (s : State) (id : Nat) (f : Launch → Launch) : (s.updLaunch id f).closed = s.closed := rfl
@[simp] theorem updLaunch_gtime (s : State) (id : Nat) (f : Launch → Launch) : (s.updLaunch id f).gtime = s.gtime := rfl
@[simp] theorem updLaunch_pkg (s : State) (id : Nat) (f : Launch → Launch) : (s.updLaunch id f).pkg = s.pkg := rfl
@[simp] theorem updLaunch_agenda (s : State) (id : Nat) (f : Launch → Launch) : (s.updLaunch id f).agenda = s.agenda := rfl
@[simp] theorem updLaunch_cur (s : State) (id : Nat) (f : Launch → Launch) : (s.updLaunch id f).cur = s.cur := rfl
@[simp] theorem updLaunch_draw (s : State) (id : Nat) (f : Launch → Launch) : (s.updLaunch id f).draw = s.draw := rfl
@[simp] theorem updLaunch_next (s : State) (id : Nat) (f : Launch → Launch) : (s.updLaunch id f).next = s.next := rfl

@[simp] theorem updCtx_mem (s : State) (n : Nat) (f : Context → Context) : (s.updCtx n f).mem = s.mem := rfl
@[simp] theorem updCtx_full (s : State) (n : Nat) (f : Context → Context) : (s.updCtx n f).full = s.full := rfl
@[simp] theorem updCtx_poison (s : State) (n : Nat) (f : Context → Context) : (s.updCtx n f).poison = s.poison := rfl
@[simp] theorem updCtx_groups (s : State) (n : Nat) (f : Context → Context) : (s.updCtx n f).groups = s.groups := rfl
@[simp] theorem updCtx_gangs (s : State) (n : Nat) (f : Context → Context) : (s.updCtx n f).gangs = s.gangs := rfl
@[simp] theorem updCtx_launches (s : State) (n : Nat) (f : Context → Context) : (s.updCtx n f).launches = s.launches := rfl
@[simp] theorem updCtx_dies (s : State) (n : Nat) (f : Context → Context) : (s.updCtx n f).dies = s.dies := rfl
@[simp] theorem updCtx_clusters (s : State) (n : Nat) (f : Context → Context) : (s.updCtx n f).clusters = s.clusters := rfl
@[simp] theorem updCtx_accs (s : State) (n : Nat) (f : Context → Context) : (s.updCtx n f).accs = s.accs := rfl
@[simp] theorem updCtx_ops (s : State) (n : Nat) (f : Context → Context) : (s.updCtx n f).ops = s.ops := rfl
@[simp] theorem updCtx_lastOp (s : State) (n : Nat) (f : Context → Context) : (s.updCtx n f).lastOp = s.lastOp := rfl
@[simp] theorem updCtx_conts (s : State) (n : Nat) (f : Context → Context) : (s.updCtx n f).conts = s.conts := rfl
@[simp] theorem updCtx_walks (s : State) (n : Nat) (f : Context → Context) : (s.updCtx n f).walks = s.walks := rfl
@[simp] theorem updCtx_collapses (s : State) (n : Nat) (f : Context → Context) : (s.updCtx n f).collapses = s.collapses := rfl
@[simp] theorem updCtx_active (s : State) (n : Nat) (f : Context → Context) : (s.updCtx n f).active = s.active := rfl
@[simp] theorem updCtx_colls (s : State) (n : Nat) (f : Context → Context) : (s.updCtx n f).colls = s.colls := rfl
@[simp] theorem updCtx_streams (s : State) (n : Nat) (f : Context → Context) : (s.updCtx n f).streams = s.streams := rfl
@[simp] theorem updCtx_reqs (s : State) (n : Nat) (f : Context → Context) : (s.updCtx n f).reqs = s.reqs := rfl
@[simp] theorem updCtx_ticks (s : State) (n : Nat) (f : Context → Context) : (s.updCtx n f).ticks = s.ticks := rfl
@[simp] theorem updCtx_closed (s : State) (n : Nat) (f : Context → Context) : (s.updCtx n f).closed = s.closed := rfl
@[simp] theorem updCtx_gtime (s : State) (n : Nat) (f : Context → Context) : (s.updCtx n f).gtime = s.gtime := rfl
@[simp] theorem updCtx_pkg (s : State) (n : Nat) (f : Context → Context) : (s.updCtx n f).pkg = s.pkg := rfl
@[simp] theorem updCtx_agenda (s : State) (n : Nat) (f : Context → Context) : (s.updCtx n f).agenda = s.agenda := rfl
@[simp] theorem updCtx_cur (s : State) (n : Nat) (f : Context → Context) : (s.updCtx n f).cur = s.cur := rfl
@[simp] theorem updCtx_draw (s : State) (n : Nat) (f : Context → Context) : (s.updCtx n f).draw = s.draw := rfl
@[simp] theorem updCtx_next (s : State) (n : Nat) (f : Context → Context) : (s.updCtx n f).next = s.next := rfl

@[simp] theorem updDie_mem (s : State) (n : Nat) (f : Die → Die) : (s.updDie n f).mem = s.mem := rfl
@[simp] theorem updDie_full (s : State) (n : Nat) (f : Die → Die) : (s.updDie n f).full = s.full := rfl
@[simp] theorem updDie_poison (s : State) (n : Nat) (f : Die → Die) : (s.updDie n f).poison = s.poison := rfl
@[simp] theorem updDie_groups (s : State) (n : Nat) (f : Die → Die) : (s.updDie n f).groups = s.groups := rfl
@[simp] theorem updDie_gangs (s : State) (n : Nat) (f : Die → Die) : (s.updDie n f).gangs = s.gangs := rfl
@[simp] theorem updDie_launches (s : State) (n : Nat) (f : Die → Die) : (s.updDie n f).launches = s.launches := rfl
@[simp] theorem updDie_ctxs (s : State) (n : Nat) (f : Die → Die) : (s.updDie n f).ctxs = s.ctxs := rfl
@[simp] theorem updDie_clusters (s : State) (n : Nat) (f : Die → Die) : (s.updDie n f).clusters = s.clusters := rfl
@[simp] theorem updDie_accs (s : State) (n : Nat) (f : Die → Die) : (s.updDie n f).accs = s.accs := rfl
@[simp] theorem updDie_ops (s : State) (n : Nat) (f : Die → Die) : (s.updDie n f).ops = s.ops := rfl
@[simp] theorem updDie_lastOp (s : State) (n : Nat) (f : Die → Die) : (s.updDie n f).lastOp = s.lastOp := rfl
@[simp] theorem updDie_conts (s : State) (n : Nat) (f : Die → Die) : (s.updDie n f).conts = s.conts := rfl
@[simp] theorem updDie_walks (s : State) (n : Nat) (f : Die → Die) : (s.updDie n f).walks = s.walks := rfl
@[simp] theorem updDie_collapses (s : State) (n : Nat) (f : Die → Die) : (s.updDie n f).collapses = s.collapses := rfl
@[simp] theorem updDie_active (s : State) (n : Nat) (f : Die → Die) : (s.updDie n f).active = s.active := rfl
@[simp] theorem updDie_colls (s : State) (n : Nat) (f : Die → Die) : (s.updDie n f).colls = s.colls := rfl
@[simp] theorem updDie_streams (s : State) (n : Nat) (f : Die → Die) : (s.updDie n f).streams = s.streams := rfl
@[simp] theorem updDie_reqs (s : State) (n : Nat) (f : Die → Die) : (s.updDie n f).reqs = s.reqs := rfl
@[simp] theorem updDie_ticks (s : State) (n : Nat) (f : Die → Die) : (s.updDie n f).ticks = s.ticks := rfl
@[simp] theorem updDie_closed (s : State) (n : Nat) (f : Die → Die) : (s.updDie n f).closed = s.closed := rfl
@[simp] theorem updDie_gtime (s : State) (n : Nat) (f : Die → Die) : (s.updDie n f).gtime = s.gtime := rfl
@[simp] theorem updDie_pkg (s : State) (n : Nat) (f : Die → Die) : (s.updDie n f).pkg = s.pkg := rfl
@[simp] theorem updDie_agenda (s : State) (n : Nat) (f : Die → Die) : (s.updDie n f).agenda = s.agenda := rfl
@[simp] theorem updDie_cur (s : State) (n : Nat) (f : Die → Die) : (s.updDie n f).cur = s.cur := rfl
@[simp] theorem updDie_draw (s : State) (n : Nat) (f : Die → Die) : (s.updDie n f).draw = s.draw := rfl
@[simp] theorem updDie_next (s : State) (n : Nat) (f : Die → Die) : (s.updDie n f).next = s.next := rfl

@[simp] theorem updCluster_mem (s : State) (d c : Nat) (f : Cluster → Cluster) : (s.updCluster d c f).mem = s.mem := by unfold updCluster; split <;> rfl
@[simp] theorem updCluster_full (s : State) (d c : Nat) (f : Cluster → Cluster) : (s.updCluster d c f).full = s.full := by unfold updCluster; split <;> rfl
@[simp] theorem updCluster_poison (s : State) (d c : Nat) (f : Cluster → Cluster) : (s.updCluster d c f).poison = s.poison := by unfold updCluster; split <;> rfl
@[simp] theorem updCluster_groups (s : State) (d c : Nat) (f : Cluster → Cluster) : (s.updCluster d c f).groups = s.groups := by unfold updCluster; split <;> rfl
@[simp] theorem updCluster_gangs (s : State) (d c : Nat) (f : Cluster → Cluster) : (s.updCluster d c f).gangs = s.gangs := by unfold updCluster; split <;> rfl
@[simp] theorem updCluster_launches (s : State) (d c : Nat) (f : Cluster → Cluster) : (s.updCluster d c f).launches = s.launches := by unfold updCluster; split <;> rfl
@[simp] theorem updCluster_ctxs (s : State) (d c : Nat) (f : Cluster → Cluster) : (s.updCluster d c f).ctxs = s.ctxs := by unfold updCluster; split <;> rfl
@[simp] theorem updCluster_dies (s : State) (d c : Nat) (f : Cluster → Cluster) : (s.updCluster d c f).dies = s.dies := by unfold updCluster; split <;> rfl
@[simp] theorem updCluster_accs (s : State) (d c : Nat) (f : Cluster → Cluster) : (s.updCluster d c f).accs = s.accs := by unfold updCluster; split <;> rfl
@[simp] theorem updCluster_ops (s : State) (d c : Nat) (f : Cluster → Cluster) : (s.updCluster d c f).ops = s.ops := by unfold updCluster; split <;> rfl
@[simp] theorem updCluster_lastOp (s : State) (d c : Nat) (f : Cluster → Cluster) : (s.updCluster d c f).lastOp = s.lastOp := by unfold updCluster; split <;> rfl
@[simp] theorem updCluster_conts (s : State) (d c : Nat) (f : Cluster → Cluster) : (s.updCluster d c f).conts = s.conts := by unfold updCluster; split <;> rfl
@[simp] theorem updCluster_walks (s : State) (d c : Nat) (f : Cluster → Cluster) : (s.updCluster d c f).walks = s.walks := by unfold updCluster; split <;> rfl
@[simp] theorem updCluster_collapses (s : State) (d c : Nat) (f : Cluster → Cluster) : (s.updCluster d c f).collapses = s.collapses := by unfold updCluster; split <;> rfl
@[simp] theorem updCluster_active (s : State) (d c : Nat) (f : Cluster → Cluster) : (s.updCluster d c f).active = s.active := by unfold updCluster; split <;> rfl
@[simp] theorem updCluster_colls (s : State) (d c : Nat) (f : Cluster → Cluster) : (s.updCluster d c f).colls = s.colls := by unfold updCluster; split <;> rfl
@[simp] theorem updCluster_streams (s : State) (d c : Nat) (f : Cluster → Cluster) : (s.updCluster d c f).streams = s.streams := by unfold updCluster; split <;> rfl
@[simp] theorem updCluster_reqs (s : State) (d c : Nat) (f : Cluster → Cluster) : (s.updCluster d c f).reqs = s.reqs := by unfold updCluster; split <;> rfl
@[simp] theorem updCluster_ticks (s : State) (d c : Nat) (f : Cluster → Cluster) : (s.updCluster d c f).ticks = s.ticks := by unfold updCluster; split <;> rfl
@[simp] theorem updCluster_closed (s : State) (d c : Nat) (f : Cluster → Cluster) : (s.updCluster d c f).closed = s.closed := by unfold updCluster; split <;> rfl
@[simp] theorem updCluster_gtime (s : State) (d c : Nat) (f : Cluster → Cluster) : (s.updCluster d c f).gtime = s.gtime := by unfold updCluster; split <;> rfl
@[simp] theorem updCluster_pkg (s : State) (d c : Nat) (f : Cluster → Cluster) : (s.updCluster d c f).pkg = s.pkg := by unfold updCluster; split <;> rfl
@[simp] theorem updCluster_agenda (s : State) (d c : Nat) (f : Cluster → Cluster) : (s.updCluster d c f).agenda = s.agenda := by unfold updCluster; split <;> rfl
@[simp] theorem updCluster_cur (s : State) (d c : Nat) (f : Cluster → Cluster) : (s.updCluster d c f).cur = s.cur := by unfold updCluster; split <;> rfl
@[simp] theorem updCluster_draw (s : State) (d c : Nat) (f : Cluster → Cluster) : (s.updCluster d c f).draw = s.draw := by unfold updCluster; split <;> rfl
@[simp] theorem updCluster_next (s : State) (d c : Nat) (f : Cluster → Cluster) : (s.updCluster d c f).next = s.next := by unfold updCluster; split <;> rfl

@[simp] theorem updPkg_mem (s : State) (f : Package → Package) : (s.updPkg f).mem = s.mem := rfl
@[simp] theorem updPkg_full (s : State) (f : Package → Package) : (s.updPkg f).full = s.full := rfl
@[simp] theorem updPkg_poison (s : State) (f : Package → Package) : (s.updPkg f).poison = s.poison := rfl
@[simp] theorem updPkg_groups (s : State) (f : Package → Package) : (s.updPkg f).groups = s.groups := rfl
@[simp] theorem updPkg_gangs (s : State) (f : Package → Package) : (s.updPkg f).gangs = s.gangs := rfl
@[simp] theorem updPkg_launches (s : State) (f : Package → Package) : (s.updPkg f).launches = s.launches := rfl
@[simp] theorem updPkg_ctxs (s : State) (f : Package → Package) : (s.updPkg f).ctxs = s.ctxs := rfl
@[simp] theorem updPkg_dies (s : State) (f : Package → Package) : (s.updPkg f).dies = s.dies := rfl
@[simp] theorem updPkg_clusters (s : State) (f : Package → Package) : (s.updPkg f).clusters = s.clusters := rfl
@[simp] theorem updPkg_accs (s : State) (f : Package → Package) : (s.updPkg f).accs = s.accs := rfl
@[simp] theorem updPkg_ops (s : State) (f : Package → Package) : (s.updPkg f).ops = s.ops := rfl
@[simp] theorem updPkg_lastOp (s : State) (f : Package → Package) : (s.updPkg f).lastOp = s.lastOp := rfl
@[simp] theorem updPkg_conts (s : State) (f : Package → Package) : (s.updPkg f).conts = s.conts := rfl
@[simp] theorem updPkg_walks (s : State) (f : Package → Package) : (s.updPkg f).walks = s.walks := rfl
@[simp] theorem updPkg_collapses (s : State) (f : Package → Package) : (s.updPkg f).collapses = s.collapses := rfl
@[simp] theorem updPkg_active (s : State) (f : Package → Package) : (s.updPkg f).active = s.active := rfl
@[simp] theorem updPkg_colls (s : State) (f : Package → Package) : (s.updPkg f).colls = s.colls := rfl
@[simp] theorem updPkg_streams (s : State) (f : Package → Package) : (s.updPkg f).streams = s.streams := rfl
@[simp] theorem updPkg_reqs (s : State) (f : Package → Package) : (s.updPkg f).reqs = s.reqs := rfl
@[simp] theorem updPkg_ticks (s : State) (f : Package → Package) : (s.updPkg f).ticks = s.ticks := rfl
@[simp] theorem updPkg_closed (s : State) (f : Package → Package) : (s.updPkg f).closed = s.closed := rfl
@[simp] theorem updPkg_gtime (s : State) (f : Package → Package) : (s.updPkg f).gtime = s.gtime := rfl
@[simp] theorem updPkg_agenda (s : State) (f : Package → Package) : (s.updPkg f).agenda = s.agenda := rfl
@[simp] theorem updPkg_cur (s : State) (f : Package → Package) : (s.updPkg f).cur = s.cur := rfl
@[simp] theorem updPkg_draw (s : State) (f : Package → Package) : (s.updPkg f).draw = s.draw := rfl
@[simp] theorem updPkg_next (s : State) (f : Package → Package) : (s.updPkg f).next = s.next := rfl

@[simp] theorem wr_full (s : State) (a n v : Nat) : (s.wr a n v).full = s.full := rfl
@[simp] theorem wr_poison (s : State) (a n v : Nat) : (s.wr a n v).poison = s.poison := rfl
@[simp] theorem wr_groups (s : State) (a n v : Nat) : (s.wr a n v).groups = s.groups := rfl
@[simp] theorem wr_gangs (s : State) (a n v : Nat) : (s.wr a n v).gangs = s.gangs := rfl
@[simp] theorem wr_launches (s : State) (a n v : Nat) : (s.wr a n v).launches = s.launches := rfl
@[simp] theorem wr_ctxs (s : State) (a n v : Nat) : (s.wr a n v).ctxs = s.ctxs := rfl
@[simp] theorem wr_dies (s : State) (a n v : Nat) : (s.wr a n v).dies = s.dies := rfl
@[simp] theorem wr_clusters (s : State) (a n v : Nat) : (s.wr a n v).clusters = s.clusters := rfl
@[simp] theorem wr_accs (s : State) (a n v : Nat) : (s.wr a n v).accs = s.accs := rfl
@[simp] theorem wr_ops (s : State) (a n v : Nat) : (s.wr a n v).ops = s.ops := rfl
@[simp] theorem wr_lastOp (s : State) (a n v : Nat) : (s.wr a n v).lastOp = s.lastOp := rfl
@[simp] theorem wr_conts (s : State) (a n v : Nat) : (s.wr a n v).conts = s.conts := rfl
@[simp] theorem wr_walks (s : State) (a n v : Nat) : (s.wr a n v).walks = s.walks := rfl
@[simp] theorem wr_collapses (s : State) (a n v : Nat) : (s.wr a n v).collapses = s.collapses := rfl
@[simp] theorem wr_active (s : State) (a n v : Nat) : (s.wr a n v).active = s.active := rfl
@[simp] theorem wr_colls (s : State) (a n v : Nat) : (s.wr a n v).colls = s.colls := rfl
@[simp] theorem wr_streams (s : State) (a n v : Nat) : (s.wr a n v).streams = s.streams := rfl
@[simp] theorem wr_reqs (s : State) (a n v : Nat) : (s.wr a n v).reqs = s.reqs := rfl
@[simp] theorem wr_ticks (s : State) (a n v : Nat) : (s.wr a n v).ticks = s.ticks := rfl
@[simp] theorem wr_closed (s : State) (a n v : Nat) : (s.wr a n v).closed = s.closed := rfl
@[simp] theorem wr_gtime (s : State) (a n v : Nat) : (s.wr a n v).gtime = s.gtime := rfl
@[simp] theorem wr_pkg (s : State) (a n v : Nat) : (s.wr a n v).pkg = s.pkg := rfl
@[simp] theorem wr_agenda (s : State) (a n v : Nat) : (s.wr a n v).agenda = s.agenda := rfl
@[simp] theorem wr_cur (s : State) (a n v : Nat) : (s.wr a n v).cur = s.cur := rfl
@[simp] theorem wr_draw (s : State) (a n v : Nat) : (s.wr a n v).draw = s.draw := rfl
@[simp] theorem wr_next (s : State) (a n v : Nat) : (s.wr a n v).next = s.next := rfl

@[simp] theorem setFull_mem (s : State) (a : Nat) (b : Bool) : (s.setFull a b).mem = s.mem := by unfold setFull; split <;> rfl
@[simp] theorem setFull_poison (s : State) (a : Nat) (b : Bool) : (s.setFull a b).poison = s.poison := by unfold setFull; split <;> rfl
@[simp] theorem setFull_groups (s : State) (a : Nat) (b : Bool) : (s.setFull a b).groups = s.groups := by unfold setFull; split <;> rfl
@[simp] theorem setFull_gangs (s : State) (a : Nat) (b : Bool) : (s.setFull a b).gangs = s.gangs := by unfold setFull; split <;> rfl
@[simp] theorem setFull_launches (s : State) (a : Nat) (b : Bool) : (s.setFull a b).launches = s.launches := by unfold setFull; split <;> rfl
@[simp] theorem setFull_ctxs (s : State) (a : Nat) (b : Bool) : (s.setFull a b).ctxs = s.ctxs := by unfold setFull; split <;> rfl
@[simp] theorem setFull_dies (s : State) (a : Nat) (b : Bool) : (s.setFull a b).dies = s.dies := by unfold setFull; split <;> rfl
@[simp] theorem setFull_clusters (s : State) (a : Nat) (b : Bool) : (s.setFull a b).clusters = s.clusters := by unfold setFull; split <;> rfl
@[simp] theorem setFull_accs (s : State) (a : Nat) (b : Bool) : (s.setFull a b).accs = s.accs := by unfold setFull; split <;> rfl
@[simp] theorem setFull_ops (s : State) (a : Nat) (b : Bool) : (s.setFull a b).ops = s.ops := by unfold setFull; split <;> rfl
@[simp] theorem setFull_lastOp (s : State) (a : Nat) (b : Bool) : (s.setFull a b).lastOp = s.lastOp := by unfold setFull; split <;> rfl
@[simp] theorem setFull_conts (s : State) (a : Nat) (b : Bool) : (s.setFull a b).conts = s.conts := by unfold setFull; split <;> rfl
@[simp] theorem setFull_walks (s : State) (a : Nat) (b : Bool) : (s.setFull a b).walks = s.walks := by unfold setFull; split <;> rfl
@[simp] theorem setFull_collapses (s : State) (a : Nat) (b : Bool) : (s.setFull a b).collapses = s.collapses := by unfold setFull; split <;> rfl
@[simp] theorem setFull_active (s : State) (a : Nat) (b : Bool) : (s.setFull a b).active = s.active := by unfold setFull; split <;> rfl
@[simp] theorem setFull_colls (s : State) (a : Nat) (b : Bool) : (s.setFull a b).colls = s.colls := by unfold setFull; split <;> rfl
@[simp] theorem setFull_streams (s : State) (a : Nat) (b : Bool) : (s.setFull a b).streams = s.streams := by unfold setFull; split <;> rfl
@[simp] theorem setFull_reqs (s : State) (a : Nat) (b : Bool) : (s.setFull a b).reqs = s.reqs := by unfold setFull; split <;> rfl
@[simp] theorem setFull_ticks (s : State) (a : Nat) (b : Bool) : (s.setFull a b).ticks = s.ticks := by unfold setFull; split <;> rfl
@[simp] theorem setFull_closed (s : State) (a : Nat) (b : Bool) : (s.setFull a b).closed = s.closed := by unfold setFull; split <;> rfl
@[simp] theorem setFull_gtime (s : State) (a : Nat) (b : Bool) : (s.setFull a b).gtime = s.gtime := by unfold setFull; split <;> rfl
@[simp] theorem setFull_pkg (s : State) (a : Nat) (b : Bool) : (s.setFull a b).pkg = s.pkg := by unfold setFull; split <;> rfl
@[simp] theorem setFull_agenda (s : State) (a : Nat) (b : Bool) : (s.setFull a b).agenda = s.agenda := by unfold setFull; split <;> rfl
@[simp] theorem setFull_cur (s : State) (a : Nat) (b : Bool) : (s.setFull a b).cur = s.cur := by unfold setFull; split <;> rfl
@[simp] theorem setFull_draw (s : State) (a : Nat) (b : Bool) : (s.setFull a b).draw = s.draw := by unfold setFull; split <;> rfl
@[simp] theorem setFull_next (s : State) (a : Nat) (b : Bool) : (s.setFull a b).next = s.next := by unfold setFull; split <;> rfl

@[simp] theorem fresh_mem (s : State) : s.fresh.mem = s.mem := rfl
@[simp] theorem fresh_full (s : State) : s.fresh.full = s.full := rfl
@[simp] theorem fresh_poison (s : State) : s.fresh.poison = s.poison := rfl
@[simp] theorem fresh_groups (s : State) : s.fresh.groups = s.groups := rfl
@[simp] theorem fresh_gangs (s : State) : s.fresh.gangs = s.gangs := rfl
@[simp] theorem fresh_launches (s : State) : s.fresh.launches = s.launches := rfl
@[simp] theorem fresh_ctxs (s : State) : s.fresh.ctxs = s.ctxs := rfl
@[simp] theorem fresh_dies (s : State) : s.fresh.dies = s.dies := rfl
@[simp] theorem fresh_clusters (s : State) : s.fresh.clusters = s.clusters := rfl
@[simp] theorem fresh_accs (s : State) : s.fresh.accs = s.accs := rfl
@[simp] theorem fresh_ops (s : State) : s.fresh.ops = s.ops := rfl
@[simp] theorem fresh_lastOp (s : State) : s.fresh.lastOp = s.lastOp := rfl
@[simp] theorem fresh_conts (s : State) : s.fresh.conts = s.conts := rfl
@[simp] theorem fresh_walks (s : State) : s.fresh.walks = s.walks := rfl
@[simp] theorem fresh_collapses (s : State) : s.fresh.collapses = s.collapses := rfl
@[simp] theorem fresh_active (s : State) : s.fresh.active = s.active := rfl
@[simp] theorem fresh_colls (s : State) : s.fresh.colls = s.colls := rfl
@[simp] theorem fresh_streams (s : State) : s.fresh.streams = s.streams := rfl
@[simp] theorem fresh_reqs (s : State) : s.fresh.reqs = s.reqs := rfl
@[simp] theorem fresh_ticks (s : State) : s.fresh.ticks = s.ticks := rfl
@[simp] theorem fresh_closed (s : State) : s.fresh.closed = s.closed := rfl
@[simp] theorem fresh_gtime (s : State) : s.fresh.gtime = s.gtime := rfl
@[simp] theorem fresh_pkg (s : State) : s.fresh.pkg = s.pkg := rfl
@[simp] theorem fresh_agenda (s : State) : s.fresh.agenda = s.agenda := rfl
@[simp] theorem fresh_cur (s : State) : s.fresh.cur = s.cur := rfl
@[simp] theorem fresh_draw (s : State) : s.fresh.draw = s.draw := rfl

@[simp] theorem drawn_mem (s : State) : s.drawn.mem = s.mem := rfl
@[simp] theorem drawn_full (s : State) : s.drawn.full = s.full := rfl
@[simp] theorem drawn_poison (s : State) : s.drawn.poison = s.poison := rfl
@[simp] theorem drawn_groups (s : State) : s.drawn.groups = s.groups := rfl
@[simp] theorem drawn_gangs (s : State) : s.drawn.gangs = s.gangs := rfl
@[simp] theorem drawn_launches (s : State) : s.drawn.launches = s.launches := rfl
@[simp] theorem drawn_ctxs (s : State) : s.drawn.ctxs = s.ctxs := rfl
@[simp] theorem drawn_dies (s : State) : s.drawn.dies = s.dies := rfl
@[simp] theorem drawn_clusters (s : State) : s.drawn.clusters = s.clusters := rfl
@[simp] theorem drawn_accs (s : State) : s.drawn.accs = s.accs := rfl
@[simp] theorem drawn_ops (s : State) : s.drawn.ops = s.ops := rfl
@[simp] theorem drawn_lastOp (s : State) : s.drawn.lastOp = s.lastOp := rfl
@[simp] theorem drawn_conts (s : State) : s.drawn.conts = s.conts := rfl
@[simp] theorem drawn_walks (s : State) : s.drawn.walks = s.walks := rfl
@[simp] theorem drawn_collapses (s : State) : s.drawn.collapses = s.collapses := rfl
@[simp] theorem drawn_active (s : State) : s.drawn.active = s.active := rfl
@[simp] theorem drawn_colls (s : State) : s.drawn.colls = s.colls := rfl
@[simp] theorem drawn_streams (s : State) : s.drawn.streams = s.streams := rfl
@[simp] theorem drawn_reqs (s : State) : s.drawn.reqs = s.reqs := rfl
@[simp] theorem drawn_ticks (s : State) : s.drawn.ticks = s.ticks := rfl
@[simp] theorem drawn_closed (s : State) : s.drawn.closed = s.closed := rfl
@[simp] theorem drawn_gtime (s : State) : s.drawn.gtime = s.gtime := rfl
@[simp] theorem drawn_pkg (s : State) : s.drawn.pkg = s.pkg := rfl
@[simp] theorem drawn_agenda (s : State) : s.drawn.agenda = s.agenda := rfl
@[simp] theorem drawn_cur (s : State) : s.drawn.cur = s.cur := rfl
@[simp] theorem drawn_next (s : State) : s.drawn.next = s.next := rfl

/-- Looking a record up after an update of the records with one identifier. -/
theorem find?_map_id {α : Type} (key : α → Nat) (l : List α) (id k : Nat) (f : α → α) (hf : ∀ a, key a = id → key (f a) = id) :
    (l.map fun a => if key a = id then f a else a).find? (fun a => key a == k) =
      if k = id then (l.find? fun a => key a == k).map f else l.find? fun a => key a == k := by
  induction l with
  | nil => simp
  | cons a t ih =>
    simp only [List.map_cons, List.find?_cons, ih]
    by_cases ha : key a = id
    · have := hf a ha
      by_cases hk : k = id
      · subst hk; simp [ha, this]
      · simp only [ha, if_true, this, hk, if_false]
        have : (id == k) = false := by simpa using fun h => hk h.symm
        simp [this]
    · by_cases hk : k = id
      · subst hk
        have : (key a == k) = false := by simpa using ha
        simp [ha, this]
      · simp [ha, hk]

theorem group?_updGroup (s : State) (id k : Nat) (f : Group → Group) (hf : ∀ a : Group, a.id = id → (f a).id = id) :
    (s.updGroup id f).group? k = if k = id then (s.group? k).map f else s.group? k :=
  find?_map_id Group.id s.groups id k f hf

theorem gang?_updGang (s : State) (id k : Nat) (f : Gang → Gang) (hf : ∀ a : Gang, a.id = id → (f a).id = id) :
    (s.updGang id f).gang? k = if k = id then (s.gang? k).map f else s.gang? k :=
  find?_map_id Gang.id s.gangs id k f hf

theorem die?_updDie (s : State) (n k : Nat) (f : Die → Die) (hf : ∀ a : Die, a.num = n → (f a).num = n) :
    (s.updDie n f).die? k = if k = n then (s.die? k).map f else s.die? k :=
  find?_map_id Die.num s.dies n k f hf

theorem ctx?_updCtx (s : State) (n k : Nat) (f : Context → Context) (hf : ∀ a : Context, a.num = n → (f a).num = n) :
    (s.updCtx n f).ctx? k = if k = n then (s.ctx? k).map f else s.ctx? k :=
  find?_map_id Context.num s.ctxs n k f hf

/-- A group that is looked up has the identifier asked for. -/
theorem group?_id {s : State} {k : Nat} {g : Group} (h : s.group? k = some g) : g.id = k := by
  have := List.find?_some h
  simpa using this

/-- A cluster after an update of a cluster. -/
theorem cluster_updCluster (s : State) (d c d' c' : Nat) (f : Cluster → Cluster) (hf : ∀ a : Cluster, (f a).key = a.key) :
    (s.updCluster d c f).cluster d' c' = if clKey d' c' = clKey d c then f (s.cluster d' c') else s.cluster d' c' := by
  unfold updCluster cluster
  by_cases h : s.clusters.any (·.key == clKey d c)
  · rw [if_pos h]
    have := find?_map_id Cluster.key s.clusters (clKey d c) (clKey d' c') f (fun a ha => by rw [hf, ha])
    simp only [this]
    by_cases hk : clKey d' c' = clKey d c
    · rw [if_pos hk, if_pos hk]
      have : (s.clusters.find? (·.key == clKey d' c')).isSome = true := by
        rw [hk]; simpa [List.find?_isSome, List.any_eq_true] using h
      obtain ⟨x, hx⟩ := Option.isSome_iff_exists.mp this
      simp [hx]
    · rw [if_neg hk, if_neg hk]
  · rw [if_neg h]
    simp only [List.find?_append]
    by_cases hk : clKey d' c' = clKey d c
    · have hn : s.clusters.find? (·.key == clKey d c) = none := by
        simpa [List.find?_eq_none, List.any_eq_true] using h
      rw [if_pos hk, hk, hn]
      simp [hf]
    · rw [if_neg hk]
      have : (clKey d c == clKey d' c') = false := by simpa using fun h => hk h.symm
      cases hh : s.clusters.find? (·.key == clKey d' c') <;> simp [hf, this]

end Sys2Proof.Machine.State
end

