-- ==== Sys2Proof/Laws/Registers.lean ====
section
/-! SUPPORT. Registers: what reading a register, predicate or scalar gives after each operation of a group. -/

set_option Elab.async false

namespace Sys2Proof.Machine

/-! ### Lanes of a mask -/

theorem Mask.has_lt {m : Mask} {l : Nat} (h : m.has l = true) : l < 32 := by
  simp only [Mask.has] at h
  exact BitVec.lt_of_getLsbD h

theorem Mask.mem_toList {m : Mask} {l : Nat} : l ∈ m.toList ↔ m.has l = true := by
  simp only [Mask.toList, lanes, List.mem_filter, List.mem_range]
  exact ⟨fun h => h.2, fun h => ⟨Mask.has_lt h, h⟩⟩

theorem Mask.nodup_toList (m : Mask) : m.toList.Nodup := List.Nodup.filter _ List.nodup_range

theorem Mask.has_one {l k : Nat} (h : l < 32) : (Mask.one l).has k = decide (k = l) := by
  simp only [Mask.has, Mask.one, BitVec.getLsbD_ofNat, Nat.testBit_two_pow]
  by_cases hk : k = l
  · subst hk; simp [h]
  · have : ¬ l = k := fun h => hk h.symm
    simp [hk, this]

theorem Mask.has_or {a b : Mask} {k : Nat} : (a ||| b).has k = (a.has k || b.has k) := by simp [Mask.has]

theorem Mask.has_and {a b : Mask} {k : Nat} : (a &&& b).has k = (a.has k && b.has k) := by simp [Mask.has]

theorem Mask.has_diff {a b : Mask} {k : Nat} : (a &&& ~~~b).has k = (a.has k && !b.has k) := by
  simp only [Mask.has, BitVec.getLsbD_and, BitVec.getLsbD_not]
  by_cases h : k < 32
  · simp [h]
  · have : a.getLsbD k = false := BitVec.getLsbD_of_ge a k (by omega)
    simp [this]

theorem Mask.has_ofPred {p : Nat → Bool} {k : Nat} : (Mask.ofPred p).has k = (decide (k < 32) && p k) := by
  suffices h : ∀ (ls : List Nat) (m : Mask), (∀ l ∈ ls, l < 32) →
      (ls.foldl (fun m l => if p l then m ||| Mask.one l else m) m).has k = (m.has k || (decide (k ∈ ls) && p k)) by
    have := h lanes 0 (by intro l hl; simpa [lanes] using hl)
    rw [Mask.ofPred, this]
    simp [Mask.has, lanes]
  intro ls
  induction ls with
  | nil => intro m _; simp
  | cons a t ih =>
    intro m h
    rw [List.foldl_cons, ih _ (fun l hl => h l (List.mem_cons_of_mem a hl))]
    have ha : a < 32 := h a (List.mem_cons_self ..)
    by_cases hk : k = a
    · subst hk
      by_cases hp : p k <;> simp [hp, Mask.has_or, Mask.has_one ha]
    · by_cases hp : p a <;> simp [hp, Mask.has_or, Mask.has_one ha, hk]

namespace Group

/-! ### Vector registers -/

theorem getV_setV (g : Group) (r l r' l' : Nat) (x : Word) (h : l < 32) (h' : l' < 32) :
    (g.setV r l x).getV r' l' = if r' = r ∧ l' = l then x else g.getV r' l' := by
  have : (32 * r' + l' = 32 * r + l) ↔ (r' = r ∧ l' = l) := by omega
  unfold getV setV
  cases g.frame <;> simp [this]

theorem getV_killV (g : Group) (r l r' l' : Nat) (h : l < 32) (h' : l' < 32) (ho : g.ordered = true) :
    (g.killV r l).getV r' l' = if r' = r ∧ l' = l then 0 else g.getV r' l' := by
  have hk : (32 * r' + l' = 32 * r + l) ↔ (r' = r ∧ l' = l) := by omega
  simp only [ordered, Bool.and_eq_true] at ho
  unfold getV killV
  cases hf : g.frame with
  | none =>
    simp only [AMap.getD, AMap.get?_erase _ 0 _ _ ho.1, hk]
    split <;> rfl
  | some f =>
    rw [hf] at ho
    simp only [AMap.getD, AMap.get?_erase _ 0 _ _ ho.2, hk]
    split <;> rfl

theorem ordered_setV (g : Group) (r l : Nat) (x : Word) (h : g.ordered = true) : (g.setV r l x).ordered = true := by
  simp only [ordered, Bool.and_eq_true] at h
  unfold setV
  cases hf : g.frame with
  | none => simp [ordered, AMap.ascFrom_set _ 0 _ _ (Nat.zero_le _) h.1]
  | some f =>
    rw [hf] at h
    simp [ordered, h.1, AMap.ascFrom_set _ 0 _ _ (Nat.zero_le _) h.2]

theorem ordered_killV (g : Group) (r l : Nat) (h : g.ordered = true) : (g.killV r l).ordered = true := by
  simp only [ordered, Bool.and_eq_true] at h
  unfold killV
  cases hf : g.frame with
  | none => simp [ordered, AMap.ascFrom_erase _ 0 _ h.1]
  | some f =>
    rw [hf] at h
    simp [ordered, h.1, AMap.ascFrom_erase _ 0 _ h.2]

/-- Writing one register in some lanes, each once. -/
theorem getV_foldl_setV (d : Nat) (f : Nat → Word) : ∀ (ls : List Nat) (g : Group) (r l : Nat), (∀ k ∈ ls, k < 32) → l < 32 →
    (ls.foldl (fun g l => g.setV d l (f l)) g).getV r l = if r = d ∧ l ∈ ls then f l else g.getV r l := by
  intro ls
  induction ls with
  | nil => intro g r l _ _; simp
  | cons a t ih =>
    intro g r l h hl
    have ha : a < 32 := h a (List.mem_cons_self ..)
    rw [List.foldl_cons, ih _ _ _ (fun k hk => h k (List.mem_cons_of_mem a hk)) hl, getV_setV _ _ _ _ _ _ ha hl]
    by_cases hr : r = d <;> by_cases hla : l = a <;> by_cases hlt : l ∈ t <;> simp [hr, hla, hlt]

/-! ### Predicates and scalars -/

theorem getP_setP (g : Group) (l l' : Nat) (x : BitVec 16) : (g.setP l x).getP l' = if l' = l then x else g.getP l' := by
  unfold getP setP
  cases g.frame <;> simp

theorem getPn_setPn (g : Group) (n l n' l' : Nat) (b : Bool) (h : n < 16) :
    (g.setPn n l b).getPn n' l' = if n' = n ∧ l' = l then b else g.getPn n' l' := by
  simp only [getPn, setPn, getP_setP]
  by_cases hl : l' = l
  · subst hl
    have key : (BitVec.ofNat 16 (2 ^ n)).getLsbD n' = decide (n' = n) := by
      simp only [BitVec.getLsbD_ofNat, Nat.testBit_two_pow]
      by_cases hn : n' = n
      · subst hn; simp [h]
      · have : ¬ n = n' := fun h => hn h.symm
        simp [hn, this]
    have hlt : ((g.getP l').getLsbD n' = true) → n' < 16 := fun h => BitVec.lt_of_getLsbD h
    generalize BitVec.ofNat 16 (2 ^ n) = m at key
    generalize g.getP l' = q at hlt
    cases b
    · simp only [Bool.false_eq_true, if_false, and_true, if_true, BitVec.getLsbD_and, BitVec.getLsbD_not, key]
      by_cases hn : n' = n
      · simp [hn]
      · cases hq : q.getLsbD n'
        · simp [hn]
        · simp [hn, hlt hq]
    · simp only [if_true, and_true, BitVec.getLsbD_or, key]
      by_cases hn : n' = n <;> simp [hn]
  · simp [hl]

theorem getS_setS (g : Group) (n n' : Nat) (x : Word) : (g.setS n x).getS n' = if n' = n then x else g.getS n' := by
  unfold getS setS
  cases g.frame <;> simp

/-! ### What each write leaves alone -/

@[simp] theorem getP_setV (g : Group) (r l k : Nat) (x : Word) : (g.setV r l x).getP k = g.getP k := by
  unfold getP setV; cases g.frame <;> simp
@[simp] theorem getPn_setV (g : Group) (r l n k : Nat) (x : Word) : (g.setV r l x).getPn n k = g.getPn n k := by
  simp [getPn]
@[simp] theorem getS_setV (g : Group) (r l n : Nat) (x : Word) : (g.setV r l x).getS n = g.getS n := by
  unfold getS setV; cases g.frame <;> simp
@[simp] theorem getV_setP (g : Group) (k r l : Nat) (x : BitVec 16) : (g.setP k x).getV r l = g.getV r l := by
  unfold getV setP; cases g.frame <;> simp
@[simp] theorem getS_setP (g : Group) (k n : Nat) (x : BitVec 16) : (g.setP k x).getS n = g.getS n := by
  unfold getS setP; cases g.frame <;> simp
@[simp] theorem getV_setPn (g : Group) (n k r l : Nat) (b : Bool) : (g.setPn n k b).getV r l = g.getV r l := by
  simp [setPn]
@[simp] theorem getS_setPn (g : Group) (n k m : Nat) (b : Bool) : (g.setPn n k b).getS m = g.getS m := by
  simp [setPn]
@[simp] theorem getV_setS (g : Group) (n r l : Nat) (x : Word) : (g.setS n x).getV r l = g.getV r l := by
  unfold getV setS; cases g.frame <;> simp
@[simp] theorem getP_setS (g : Group) (n l : Nat) (x : Word) : (g.setS n x).getP l = g.getP l := by
  unfold getP setS; cases g.frame <;> simp
@[simp] theorem getPn_setS (g : Group) (n m l : Nat) (x : Word) : (g.setS n x).getPn m l = g.getPn m l := by
  simp [getPn]
@[simp] theorem getP_killV (g : Group) (r l k : Nat) : (g.killV r l).getP k = g.getP k := by
  unfold getP killV; cases g.frame <;> simp
@[simp] theorem getS_killV (g : Group) (r l n : Nat) : (g.killV r l).getS n = g.getS n := by
  unfold getS killV; cases g.frame <;> simp

/-- Two groups agree on what only the place of a group fixes, frame included. -/
theorem SamePlace.refl (g : Group) : SamePlace g g := rfl

theorem SamePlace.trans {a b c : Group} (h : SamePlace a b) (k : SamePlace b c) : SamePlace a c := by
  unfold SamePlace at *
  rw [h] at k
  rw [k]

theorem samePlace_setV (g : Group) (r l : Nat) (x : Word) : SamePlace g (g.setV r l x) := by
  unfold SamePlace setV; cases g.frame <;> rfl
theorem samePlace_setP (g : Group) (l : Nat) (x : BitVec 16) : SamePlace g (g.setP l x) := by
  unfold SamePlace setP; cases g.frame <;> rfl
theorem samePlace_setPn (g : Group) (n l : Nat) (b : Bool) : SamePlace g (g.setPn n l b) := samePlace_setP _ _ _
theorem samePlace_setS (g : Group) (n : Nat) (x : Word) : SamePlace g (g.setS n x) := by
  unfold SamePlace setS; cases g.frame <;> rfl
theorem samePlace_killV (g : Group) (r l : Nat) : SamePlace g (g.killV r l) := by
  unfold SamePlace killV; cases g.frame <;> rfl
theorem samePlace_raise (g : Group) (fl : Nat) : SamePlace g (g.raise fl) := by
  unfold SamePlace raise; split <;> rfl
theorem samePlace_setFront (g : Group) (es : List Entry) : SamePlace g (g.setFront es) := by
  unfold SamePlace setFront; cases g.frame <;> rfl
theorem samePlace_foldl {α : Type} (f : Group → α → Group) (hf : ∀ g a, SamePlace g (f g a)) :
    ∀ (ls : List α) (g : Group), SamePlace g (ls.foldl f g) := by
  intro ls
  induction ls with
  | nil => intro g; rfl
  | cons a t ih => intro g; exact SamePlace.trans (hf g a) (ih _)
theorem samePlace_applyDead (g : Group) (m : Mask) (rs : List Nat) : SamePlace g (g.applyDead m rs) :=
  samePlace_foldl _ (fun g _ => samePlace_foldl _ (fun g _ => samePlace_killV g _ _) _ g) _ g

theorem SamePlace.issued {g g' : Group} (h : SamePlace g g') (n : Nat) : SamePlace g { g' with stall := n } := by
  unfold SamePlace at *
  rw [h]

theorem SamePlace.surged {g g' : Group} (h : SamePlace g g') (a : Bool) (b : Option Nat) :
    SamePlace g { g' with surge := a, surgeWait := b } := by
  unfold SamePlace at *
  rw [h]

theorem SamePlace.id {g g' : Group} (h : SamePlace g g') : g'.id = g.id := by rw [h]
theorem SamePlace.fpmode {g g' : Group} (h : SamePlace g g') : g'.fpmode = g.fpmode := by rw [h]

/-! ### `dead` (R100) -/

theorem ordered_foldl {α : Type} (f : Group → α → Group) (hf : ∀ g a, g.ordered = true → (f g a).ordered = true) :
    ∀ (ls : List α) (g : Group), g.ordered = true → (ls.foldl f g).ordered = true := by
  intro ls
  induction ls with
  | nil => intro g h; exact h
  | cons a t ih => intro g h; exact ih _ (hf g a h)

theorem getV_killLanes (r : Nat) : ∀ (ls : List Nat) (g : Group) (r' l : Nat), (∀ k ∈ ls, k < 32) → l < 32 → g.ordered = true →
    (ls.foldl (fun g l => g.killV r l) g).getV r' l = if r' = r ∧ l ∈ ls then 0 else g.getV r' l := by
  intro ls
  induction ls with
  | nil => intro g r' l _ _ _; simp
  | cons a t ih =>
    intro g r' l h hl ho
    have ha : a < 32 := h a (List.mem_cons_self ..)
    rw [List.foldl_cons, ih _ _ _ (fun k hk => h k (List.mem_cons_of_mem a hk)) hl (ordered_killV g r a ho),
      getV_killV _ _ _ _ _ ha hl ho]
    by_cases hr : r' = r <;> by_cases hla : l = a <;> by_cases hlt : l ∈ t <;> simp [hr, hla, hlt]

/-- R100: a `dead` hint clears the named registers in the lanes of the entry, and nothing else. -/
theorem getV_applyDead (m : Mask) : ∀ (rs : List Nat) (g : Group) (r l : Nat), l < 32 → (rs = [] ∨ g.ordered = true) →
    (g.applyDead m rs).getV r l = if m.has l ∧ r ∈ rs then 0 else g.getV r l := by
  intro rs
  induction rs with
  | nil => intro g r l _ _; simp [applyDead]
  | cons a t ih =>
    intro g r l hl ho
    have ho : g.ordered = true := ho.resolve_left (by simp)
    have hk := getV_killLanes a m.toList g r l (fun k hk => Mask.has_lt (Mask.mem_toList.mp hk)) hl ho
    have ho' := ordered_foldl (fun (g : Group) l => g.killV a l) (fun g l h => ordered_killV g a l h) m.toList g ho
    have := ih (m.toList.foldl (fun g l => g.killV a l) g) r l hl (.inr ho')
    simp only [applyDead, List.foldl_cons] at this ⊢
    rw [this, hk]
    simp only [Mask.mem_toList, List.mem_cons]
    by_cases hm : m.has l = true <;> by_cases hr : r = a <;> by_cases ht : r ∈ t <;> simp [hm, hr, ht]

theorem getP_applyDead (g : Group) (m : Mask) (rs : List Nat) (l : Nat) : (g.applyDead m rs).getP l = g.getP l := by
  unfold applyDead
  suffices h : ∀ (rs : List Nat) (g : Group), (rs.foldl (fun g r => m.toList.foldl (fun g l => g.killV r l) g) g).getP l = g.getP l
    from h rs g
  intro rs
  induction rs with
  | nil => intro g; rfl
  | cons a t ih =>
    intro g
    rw [List.foldl_cons, ih]
    generalize m.toList = ls
    induction ls generalizing g with
    | nil => rfl
    | cons b u ihb => rw [List.foldl_cons, ihb, getP_killV]

theorem getS_applyDead (g : Group) (m : Mask) (rs : List Nat) (n : Nat) : (g.applyDead m rs).getS n = g.getS n := by
  unfold applyDead
  suffices h : ∀ (rs : List Nat) (g : Group), (rs.foldl (fun g r => m.toList.foldl (fun g l => g.killV r l) g) g).getS n = g.getS n
    from h rs g
  intro rs
  induction rs with
  | nil => intro g; rfl
  | cons a t ih =>
    intro g
    rw [List.foldl_cons, ih]
    generalize m.toList = ls
    induction ls generalizing g with
    | nil => rfl
    | cons b u ihb => rw [List.foldl_cons, ihb, getS_killV]

end Group

end Sys2Proof.Machine
end

