-- ==== Sys2Proof/Laws/Issue.lean ====
section
/-! SUPPORT. Issue: what the shared operations of issuing do: reaching an instruction's own meaning, mapping registers, and
completing a sequence. -/

set_option Elab.async false

namespace Sys2Proof.Machine

/-- At issue, an instruction's own meaning runs. -/
theorem issue_next {i : Instr} {s : State} {g : Group} {e : Entry} (h : AtIssue i s g e) (k : Iss → State) :
    issue i s k = .next (k (Iss.mk' s g e i)) := by
  have hl : i.codesAt none = [] := h.legal
  have c1 : (g.inHandler && (handlerBanned i || i.namesHigh)) = false := by
    cases hg : g.inHandler with
    | false => rfl
    | true => obtain ⟨a, b⟩ := h.allowed hg; simp [a, b]
  have c2 : (!g.inHandler && fpBarrier i && !(Iss.mk' s g e i).allWritten) = false := by
    cases hg : g.inHandler with
    | true => rfl
    | false =>
      cases hb : fpBarrier i with
      | false => rfl
      | true => simp [(h.quiet hg hb).1]
  have c3 : (!g.inHandler && fpBarrier i && decide (g.pnd ≠ 0)) = false := by
    cases hg : g.inHandler with
    | true => rfl
    | false =>
      cases hb : fpBarrier i with
      | false => rfl
      | true => simp [(h.quiet hg hb).2]
  unfold issue
  rw [h.group]
  dsimp only
  rw [h.entry]
  dsimp only
  unfold issueAt
  rw [h.unchained]
  dsimp only
  rw [hl]
  have hlow : lowestCode [] = none := rfl
  rw [hlow]
  dsimp only
  rw [c1, c2, c3, h.free]
  rfl

/-- The meaning of every instruction word runs by the shared operation of issuing. -/
theorem exec_issue (i : Instr) (s : State) (h : i.isWord = true) : ∃ k, exec i s = issue i s k := by
  cases i <;> first
    | exact absurd h Bool.false_ne_true
    | exact ⟨_, rfl⟩

namespace Iss

@[simp] theorem mk'_s (s : State) (g : Group) (e : Entry) (i : Instr) : (Iss.mk' s g e i).s = s := rfl
@[simp] theorem mk'_g (s : State) (g : Group) (e : Entry) (i : Instr) : (Iss.mk' s g e i).g = g := rfl
@[simp] theorem mk'_e (s : State) (g : Group) (e : Entry) (i : Instr) : (Iss.mk' s g e i).e = e := rfl
@[simp] theorem mk'_i (s : State) (g : Group) (e : Entry) (i : Instr) : (Iss.mk' s g e i).i = i := rfl
@[simp] theorem mk'_ms (s : State) (g : Group) (e : Entry) (i : Instr) : (Iss.mk' s g e i).ms = [] := rfl

theorem deads_mk' (s : State) (g : Group) (e : Entry) (i : Instr) :
    (Iss.mk' s g e i).deads = (i.head.hints.dead.map DeadHint.regs).getD [] := by
  simp [deads, allHints, Hints.deadRegs]

/-! ### `put` -/

/-- The state after a sequence holds the group put into it. -/
theorem put_group (u : Iss) (g : Group) (h : (u.s.group? u.g.id).isSome = true) (hg : g.id = u.g.id) :
    (u.put g).group? u.g.id = some g := by
  have h2 : (u.s.group? u.g.id).map (fun _ => g) = some g := by
    obtain ⟨x, hx⟩ := Option.isSome_iff_exists.mp h
    rw [hx]; rfl
  have := State.group?_updGroup { u.s with next := u.s.next + 1 } u.g.id u.g.id (fun _ => g) (fun _ _ => hg)
  unfold put
  unfold State.group? at *
  simp only [State.updCluster_groups]
  rw [this, if_pos rfl]
  exact h2

/-- Putting a group changes only that group, and of its cluster only the count of sequences. -/
theorem put_only (u : Iss) (g : Group) (hg : g.id = u.g.id) : OnlyGroup u.s (u.put g) u.g.id := by
  refine ⟨?_, ?_, ?_, ?_⟩
  · unfold put State.updCluster
    simp only
    split <;> rfl
  · unfold put State.updCluster SameAccesses
    simp only
    split <;> rfl
  · intro k hk
    have := State.group?_updGroup { u.s with next := u.s.next + 1 } u.g.id k (fun _ => g) (fun _ _ => hg)
    unfold put
    unfold State.group? at *
    simp only [State.updCluster_groups]
    rw [this, if_neg hk]
  · intro d c
    unfold put
    have h := State.cluster_updCluster ({ u.s with next := u.s.next + 1 }.updGroup u.g.id fun _ => g) u.g.die u.g.cluster d c
      (fun c => { c with progress := AMap.set c.progress u.g.core ((AMap.getD c.progress u.g.core 0 + 1) % 2 ^ 32) }) (fun _ => rfl)
    have h2 : ({ u.s with next := u.s.next + 1 }.updGroup u.g.id fun _ => g).cluster d c = u.s.cluster d c := rfl
    simp only [h2] at h
    simp only [h]
    split <;> rfl

/-! ### `discard` -/

/-- Discarding values on their way marks accesses and changes nothing else (R100). -/
theorem discard_only (s : State) (g : Group) (m : Mask) (dead : List Nat) (id : Nat) : OnlyGroup s (s.discard g m dead) id := by
  unfold State.discard
  split
  · exact ⟨rfl, rfl, fun _ _ => rfl, fun _ _ => rfl⟩
  · refine ⟨rfl, ?_, fun _ _ => rfl, fun _ _ => rfl⟩
    unfold SameAccesses
    simp only [List.map_map]
    apply List.map_congr_left
    intro a _
    simp only [Function.comp]
    split <;> rfl

@[simp] theorem discard_groups (s : State) (g : Group) (m : Mask) (dead : List Nat) : (s.discard g m dead).groups = s.groups := by
  unfold State.discard; split <;> rfl

theorem onlyGroup_trans {s t r : State} {id : Nat} (h : OnlyGroup s t id) (k : OnlyGroup t r id) : OnlyGroup s r id := by
  obtain ⟨h1, h2, h3, h4⟩ := h
  obtain ⟨k1, k2, k3, k4⟩ := k
  refine ⟨?_, ?_, ?_, ?_⟩
  · rw [k1, h1]
  · exact Eq.trans k2 h2
  · intro n hn; rw [k3 n hn, h3 n hn]
  · intro d c
    have a := h4 d c
    have b := k4 d c
    rw [← a]
    calc { r.cluster d c with progress := (s.cluster d c).progress }
        = { { r.cluster d c with progress := (t.cluster d c).progress } with progress := (s.cluster d c).progress } := rfl
      _ = _ := by rw [b]

/-! ### `close` and `finish` -/

theorem started_samePlace (u : Iss) (g : Group) : SamePlace g (u.started g) := by
  unfold started
  have := Group.samePlace_setFront g (g.front.map fun e => { e with yielded := false })
  unfold SamePlace at this ⊢
  rw [this]

theorem started_getV (u : Iss) (g : Group) (r l : Nat) : (u.started g).getV r l = g.getV r l := by
  unfold started Group.getV Group.setFront
  cases g.frame <;> rfl
theorem started_getP (u : Iss) (g : Group) (l : Nat) : (u.started g).getP l = g.getP l := by
  unfold started Group.getP Group.setFront
  cases g.frame <;> rfl
theorem started_getS (u : Iss) (g : Group) (n : Nat) : (u.started g).getS n = g.getS n := by
  unfold started Group.getS Group.setFront
  cases g.frame <;> rfl
theorem started_fpflags (u : Iss) (g : Group) : (u.started g).fpflags = g.fpflags := by
  unfold started Group.setFront
  cases g.frame <;> rfl
theorem started_ordered (u : Iss) (g : Group) : (u.started g).ordered = g.ordered := by
  unfold started Group.ordered Group.setFront
  cases g.frame <;> rfl

theorem surgeReturn_frame (s : State) (g : Group) : (s.surgeReturn g).frame = g.frame := by
  unfold State.surgeReturn; split <;> rfl
theorem surgeReturn_v (s : State) (g : Group) : (s.surgeReturn g).v = g.v := by
  unfold State.surgeReturn; split <;> rfl
theorem surgeReturn_p (s : State) (g : Group) : (s.surgeReturn g).p = g.p := by
  unfold State.surgeReturn; split <;> rfl
theorem surgeReturn_s (s : State) (g : Group) : (s.surgeReturn g).s = g.s := by
  unfold State.surgeReturn; split <;> rfl
theorem surgeReturn_fpflags (s : State) (g : Group) : (s.surgeReturn g).fpflags = g.fpflags := by
  unfold State.surgeReturn; split <;> rfl
theorem surgeReturn_samePlace (s : State) (g : Group) : SamePlace g (s.surgeReturn g) := by
  unfold SamePlace State.surgeReturn; split <;> rfl

/-- Reading registers depends only on the registers and the frame. -/
theorem getV_congr {g g' : Group} (hf : g'.frame = g.frame) (hv : g'.v = g.v) (r l : Nat) : g'.getV r l = g.getV r l := by
  unfold Group.getV; rw [hf, hv]
theorem getP_congr {g g' : Group} (hf : g'.frame = g.frame) (hp : g'.p = g.p) (l : Nat) : g'.getP l = g.getP l := by
  unfold Group.getP; rw [hf, hp]
theorem getS_congr {g g' : Group} (hf : g'.frame = g.frame) (hs : g'.s = g.s) (n : Nat) : g'.getS n = g.getS n := by
  unfold Group.getS; rw [hf, hs]

theorem setFront_getV (g : Group) (es : List Entry) (r l : Nat) : (g.setFront es).getV r l = g.getV r l := by
  unfold Group.getV Group.setFront; cases g.frame <;> rfl
theorem setFront_getP (g : Group) (es : List Entry) (l : Nat) : (g.setFront es).getP l = g.getP l := by
  unfold Group.getP Group.setFront; cases g.frame <;> rfl
theorem setFront_getS (g : Group) (es : List Entry) (n : Nat) : (g.setFront es).getS n = g.getS n := by
  unfold Group.getS Group.setFront; cases g.frame <;> rfl
theorem setFront_fpflags (g : Group) (es : List Entry) : (g.setFront es).fpflags = g.fpflags := by
  unfold Group.setFront; cases g.frame <;> rfl

theorem applyDead_fpflags (g : Group) (m : Mask) (rs : List Nat) : (g.applyDead m rs).fpflags = g.fpflags := by
  have key : ∀ (g : Group) (r l : Nat), (g.killV r l).fpflags = g.fpflags := by
    intro g r l; unfold Group.killV; cases g.frame <;> rfl
  have inner : ∀ (ls : List Nat) (r : Nat) (g : Group), (ls.foldl (fun g l => g.killV r l) g).fpflags = g.fpflags := by
    intro ls r
    induction ls with
    | nil => intro g; rfl
    | cons a t ih => intro g; rw [List.foldl_cons, ih, key]
  unfold Group.applyDead
  induction rs generalizing g with
  | nil => rfl
  | cons a t ih => rw [List.foldl_cons, ih, inner]

theorem close_closed (u : Iss) (g : Group) (dead : List Nat) (y : Bool) (stall : Nat) :
    Closed u.e.mask dead g (u.close g dead y stall) := by
  let g1 := u.started g
  let g2 := g1.applyDead u.e.mask dead
  let g3 := u.s.surgeReturn g2
  let g4 : Group := { g3 with stall := stall }
  have hc : u.close g dead y stall = if y then g4.updEntry u.e.mask (fun e => { e with yielded := true }) else g4 := rfl
  have p4 : SamePlace g g4 := by
    have h1 := started_samePlace u g
    have h2 := Group.samePlace_applyDead g1 u.e.mask dead
    have h3 := surgeReturn_samePlace u.s g2
    exact Group.SamePlace.issued (Group.SamePlace.trans (Group.SamePlace.trans h1 h2) h3) stall
  have v4 : ∀ r l, g4.getV r l = g2.getV r l := fun r l => getV_congr (surgeReturn_frame _ _) (surgeReturn_v _ _) r l
  have q4 : ∀ l, g4.getP l = g2.getP l := fun l => getP_congr (surgeReturn_frame _ _) (surgeReturn_p _ _) l
  have s4 : ∀ n, g4.getS n = g2.getS n := fun n => getS_congr (surgeReturn_frame _ _) (surgeReturn_s _ _) n
  have f4 : g4.fpflags = g2.fpflags := surgeReturn_fpflags _ _
  have body : Closed u.e.mask dead g g4 := by
    refine ⟨p4, ?_, ?_, ?_, ?_⟩
    · intro r l hl ho
      rw [v4, Group.getV_applyDead _ _ _ _ _ hl (by rwa [started_ordered]), started_getV]
    · intro l; rw [q4, Group.getP_applyDead, started_getP]
    · intro n; rw [s4, Group.getS_applyDead, started_getS]
    · rw [f4, applyDead_fpflags, started_fpflags]
  rw [hc]
  split
  · refine ⟨?_, ?_, ?_, ?_, ?_⟩
    · exact Group.SamePlace.trans body.place (Group.samePlace_setFront _ _)
    · intro r l hl ho; rw [Group.updEntry, setFront_getV]; exact body.getV r l hl ho
    · intro l; rw [Group.updEntry, setFront_getP]; exact body.getP l
    · intro n; rw [Group.updEntry, setFront_getS]; exact body.getS n
    · rw [Group.updEntry, setFront_fpflags]; exact body.flags
  · exact body

theorem closed_setFront {m : Mask} {g c : Group} {dead : List Nat} (hc : Closed m dead g c) (es : List Entry) :
    Closed m dead g (c.setFront es) := by
  refine ⟨Group.SamePlace.trans hc.place (Group.samePlace_setFront c es), ?_, ?_, ?_, ?_⟩
  · intro r l hl ho; rw [setFront_getV]; exact hc.getV r l hl ho
  · intro l; rw [setFront_getP]; exact hc.getP l
  · intro n; rw [setFront_getS]; exact hc.getS n
  · rw [setFront_fpflags]; exact hc.flags

/-- Completing a sequence: the state differs only in the group, and the group is closed. -/
theorem finishAs_spec (u : Iss) (g : Group) (dead : List Nat) (y : Bool) (stall : Nat) (parts : Entry → List Entry)
    (h : (u.s.group? u.g.id).isSome = true) (hg : g.id = u.g.id) :
    ∃ g', (u.finishAs g dead y stall parts).group? u.g.id = some g' ∧ OnlyGroup u.s (u.finishAs g dead y stall parts) u.g.id ∧
      Closed u.e.mask dead g g' := by
  obtain ⟨w, hw⟩ : ∃ w : Iss, w = { u with s := u.s.discard u.g u.e.mask dead } := ⟨_, rfl⟩
  have hwg : w.g = u.g := by rw [hw]
  have hwe : w.e = u.e := by rw [hw]
  have hd : OnlyGroup u.s w.s u.g.id := by rw [hw]; exact discard_only u.s u.g u.e.mask dead u.g.id
  have h' : (w.s.group? w.g.id).isSome = true := by
    rw [hw]; unfold State.group?; simpa [State.group?] using h
  have hc := close_closed w g dead y stall
  unfold finishAs
  rw [← hw]
  dsimp only
  generalize w.close g dead y stall = c at hc
  have key : ∀ es, ∃ g', (w.put (c.setFront es)).group? u.g.id = some g' ∧ OnlyGroup u.s (w.put (c.setFront es)) u.g.id ∧
      Closed u.e.mask dead g g' := by
    intro es
    have hf := closed_setFront hc es
    have hid : (c.setFront es).id = w.g.id := (Group.SamePlace.id hf.place).trans (hwg ▸ hg)
    have p := put_group w _ h' hid
    have o := put_only w _ hid
    rw [hwg] at p o
    exact ⟨_, p, onlyGroup_trans hd o, hwe ▸ hf⟩
  exact key _

/-- A sequence completes from a group that differs from the issuing one only as an instruction may change it. -/
theorem finish_spec (u : Iss) (g : Group) (h : (u.s.group? u.g.id).isSome = true) (hg : g.id = u.g.id) :
    ∃ g', (u.finish g).group? u.g.id = some g' ∧ OnlyGroup u.s (u.finish g) u.g.id ∧ Closed u.e.mask u.deads g g' := by
  unfold finish finishWith
  exact finishAs_spec u g _ _ _ _ h hg

end Iss

/-! ### Mapping registers -/

/-- The gate changes only the group's surge grant. -/
theorem regGate_ok {s : State} {g g1 : Group} {ws : List Nat} (h : s.regGate g ws = .ok g1) :
    g1 = { g with surge := g1.surge, surgeWait := g1.surgeWait } := by
  unfold State.regGate at h
  split at h
  · cases h; rfl
  · dsimp only at h
    split at h
    · cases h; rfl
    · split at h
      · cases h
      · split at h
        · cases h; rfl
        · split at h <;> cases h
          rfl

end Sys2Proof.Machine
end

