-- ==== Sys2Proof/Laws/Frontier.lean ====
section
/-! SUPPORT. Frontier: where lanes stand after merging and sorting entries, and after a sequence completes. -/

set_option Elab.async false

namespace Sys2Proof.Machine

/-- A list of entries holds a lane at a place. -/
def Holds (es : List Entry) (l pc prio : Nat) (stack : List CRec) : Prop :=
  ∃ x ∈ es, x.mask.has l = true ∧ x.pc = pc ∧ x.prio = prio ∧ x.stack = stack

theorem holds_mergeInto (e : Entry) (l pc prio : Nat) (stack : List CRec) : ∀ es : List Entry,
    Holds (e :: es) l pc prio stack → Holds (Entry.mergeInto e es) l pc prio stack := by
  intro es
  induction es with
  | nil => intro h; exact h
  | cons a t ih =>
    intro h
    obtain ⟨x, hx, hm, h1, h2, h3⟩ := h
    simp only [Entry.mergeInto]
    split
    · next hk =>
      simp only [Entry.mergeable, Bool.and_eq_true, decide_eq_true_eq] at hk
      obtain ⟨⟨⟨⟨k1, k2⟩, k3⟩, _⟩, _⟩ := hk
      simp only [List.mem_cons] at hx
      rcases hx with rfl | rfl | hx
      · exact ⟨a.merge x, List.mem_cons_self .., by simp [Entry.merge, Mask.has_or, hm], by simp [Entry.merge, k1, h1],
          by simp [Entry.merge, k2, h2], by simp [Entry.merge, k3, h3]⟩
      · exact ⟨x.merge e, List.mem_cons_self .., by simp [Entry.merge, Mask.has_or, hm], by simp [Entry.merge, h1],
          by simp [Entry.merge, h2], by simp [Entry.merge, h3]⟩
      · exact ⟨x, List.mem_cons_of_mem _ hx, hm, h1, h2, h3⟩
    · simp only [List.mem_cons] at hx
      rcases hx with rfl | rfl | hx
      · obtain ⟨y, hy, r⟩ := ih ⟨x, List.mem_cons_self .., hm, h1, h2, h3⟩
        exact ⟨y, List.mem_cons_of_mem _ hy, r⟩
      · exact ⟨x, List.mem_cons_self .., hm, h1, h2, h3⟩
      · obtain ⟨y, hy, r⟩ := ih ⟨x, List.mem_cons_of_mem _ hx, hm, h1, h2, h3⟩
        exact ⟨y, List.mem_cons_of_mem _ hy, r⟩

theorem mem_insert (e : Entry) : ∀ (es : List Entry) (x : Entry), x ∈ Entry.insert e es ↔ x = e ∨ x ∈ es := by
  intro es
  induction es with
  | nil => intro x; simp [Entry.insert]
  | cons a t ih =>
    intro x
    simp only [Entry.insert]
    split
    · simp only [List.mem_cons, ih]; grind
    · simp only [List.mem_cons]

theorem mem_sort (es : List Entry) (x : Entry) : x ∈ Entry.sort es ↔ x ∈ es := by
  suffices h : ∀ (es acc : List Entry), x ∈ es.foldl (fun acc e => Entry.insert e acc) acc ↔ x ∈ acc ∨ x ∈ es by
    unfold Entry.sort; simpa using h es []
  intro es
  induction es with
  | nil => simp
  | cons a t ih => intro acc; rw [List.foldl_cons, ih, mem_insert, List.mem_cons]; grind

/-- Merging and sorting keep every lane where it stands (R92, R94). -/
theorem holds_normalise {es : List Entry} {l pc prio : Nat} {stack : List CRec} (h : Holds es l pc prio stack) :
    Holds (Entry.normalise es) l pc prio stack := by
  have key : ∀ (es acc : List Entry), Holds (acc ++ es) l pc prio stack →
      Holds (es.foldl (fun acc e => Entry.mergeInto e acc) acc) l pc prio stack := by
    intro es
    induction es with
    | nil => intro acc h; simpa using h
    | cons a t ih =>
      intro acc h
      rw [List.foldl_cons]
      apply ih
      obtain ⟨x, hx, r⟩ := h
      have hx : x ∈ a :: acc ∨ x ∈ t := by simp only [List.mem_append, List.mem_cons] at hx ⊢; grind
      rcases hx with hx | hx
      · obtain ⟨y, hy, r⟩ := holds_mergeInto a l pc prio stack acc ⟨x, hx, r⟩
        exact ⟨y, List.mem_append_left _ hy, r⟩
      · exact ⟨x, List.mem_append_right _ hx, r⟩
  obtain ⟨x, hx, hm, r⟩ := h
  have hne : x.mask ≠ 0 := by
    intro h0; rw [h0] at hm; simp [Mask.has] at hm
  obtain ⟨y, hy, r⟩ := key (es.filter fun e => e.mask ≠ 0) [] ⟨x, by rw [List.nil_append, List.mem_filter]; exact ⟨hx, by simpa using hne⟩, hm, r⟩
  exact ⟨y, (mem_sort _ _).mpr hy, r⟩

@[simp] theorem front_setFront (g : Group) (es : List Entry) : (g.setFront es).front = es := by
  unfold Group.setFront Group.front; cases g.frame <;> rfl

@[simp] theorem front_killV (g : Group) (r l : Nat) : (g.killV r l).front = g.front := by
  unfold Group.killV Group.front; cases g.frame <;> rfl
@[simp] theorem front_setV (g : Group) (r l : Nat) (x : Word) : (g.setV r l x).front = g.front := by
  unfold Group.setV Group.front; cases g.frame <;> rfl
@[simp] theorem front_setP (g : Group) (l : Nat) (x : BitVec 16) : (g.setP l x).front = g.front := by
  unfold Group.setP Group.front; cases g.frame <;> rfl
@[simp] theorem front_setPn (g : Group) (n l : Nat) (b : Bool) : (g.setPn n l b).front = g.front := front_setP _ _ _
@[simp] theorem front_setS (g : Group) (n : Nat) (x : Word) : (g.setS n x).front = g.front := by
  unfold Group.setS Group.front; cases g.frame <;> rfl
@[simp] theorem front_raise (g : Group) (fl : Nat) : (g.raise fl).front = g.front := by
  unfold Group.raise; split <;> rfl
theorem front_foldl {α : Type} (f : Group → α → Group) (hf : ∀ g a, (f g a).front = g.front) :
    ∀ (ls : List α) (g : Group), (ls.foldl f g).front = g.front := by
  intro ls
  induction ls with
  | nil => intro g; rfl
  | cons a t ih => intro g; rw [List.foldl_cons, ih, hf]
@[simp] theorem front_applyDead (g : Group) (m : Mask) (rs : List Nat) : (g.applyDead m rs).front = g.front :=
  front_foldl _ (fun _ _ => front_foldl _ (fun _ _ => front_killV _ _ _) _ _) _ _

namespace Iss

theorem front_started (u : Iss) (g : Group) : (u.started g).front = g.front.map fun e => { e with yielded := false } := by
  unfold started Group.front Group.setFront
  cases g.frame <;> rfl

theorem front_surgeReturn (s : State) (g : Group) : (s.surgeReturn g).front = g.front := by
  unfold State.surgeReturn; split <;> rfl

/-- The entries of a group closed after a sequence: only their yielded flags differ. -/
theorem front_close (u : Iss) (g : Group) (dead : List Nat) (y : Bool) (stall : Nat) :
    (u.close g dead y stall).front = g.front.map fun e => { e with yielded := y && decide (e.mask = u.e.mask) } := by
  unfold close
  have h : ({ u.s.surgeReturn ((u.started g).applyDead u.e.mask dead) with stall := stall } : Group).front =
      g.front.map fun e => { e with yielded := false } := by
    have h1 : ({ u.s.surgeReturn ((u.started g).applyDead u.e.mask dead) with stall := stall } : Group).front =
        (u.s.surgeReturn ((u.started g).applyDead u.e.mask dead)).front := rfl
    rw [h1, front_surgeReturn, front_applyDead, front_started]
  cases y
  · simpa using h
  · simp only [if_true, Group.updEntry, front_setFront, Bool.true_and]
    rw [h, List.map_map]
    apply List.map_congr_left
    intro e _
    simp only [Function.comp]
    split <;> simp_all

/-- After a sequence completes in parts, every lane of a part stands where the part does. -/
theorem finishAs_stands (u : Iss) (g : Group) (dead : List Nat) (y : Bool) (stall : Nat) (parts : Entry → List Entry)
    (h : (u.s.group? u.g.id).isSome = true) (hg : g.id = u.g.id) (he : u.e ∈ g.front) (ho : Only g u.e) :
    ∃ g' b, (u.finishAs g dead y stall parts).group? u.g.id = some g' ∧
      OnlyGroup u.s (u.finishAs g dead y stall parts) u.g.id ∧ Closed u.e.mask dead g g' ∧
      ∀ p ∈ parts { u.e with yielded := b }, ∀ l, p.mask.has l = true → Stands g' l p.pc p.prio p.stack := by
  obtain ⟨w, hw⟩ : ∃ w : Iss, w = { u with s := u.s.discard u.g u.e.mask dead } := ⟨_, rfl⟩
  have hwg : w.g = u.g := by rw [hw]
  have hwe : w.e = u.e := by rw [hw]
  have hd : OnlyGroup u.s w.s u.g.id := by rw [hw]; exact discard_only u.s u.g u.e.mask dead u.g.id
  have h' : (w.s.group? w.g.id).isSome = true := by
    rw [hw]; unfold State.group?; simpa [State.group?] using h
  have hc := close_closed w g dead y stall
  have hf := front_close w g dead y stall
  rw [hwe] at hc hf
  unfold finishAs
  rw [← hw]
  dsimp only
  generalize w.close g dead y stall = c at hc hf
  have hfind : (c.front.find? fun x => x.mask = u.e.mask).getD u.e = { u.e with yielded := y } := by
    rw [hf, List.find?_map]
    have : g.front.find? ((fun x : Entry => decide (x.mask = u.e.mask)) ∘ fun e => { e with yielded := y && decide (e.mask = u.e.mask) }) =
        some u.e := by
      have h1 : (g.front.find? ((fun x : Entry => decide (x.mask = u.e.mask)) ∘ fun e => { e with yielded := y && decide (e.mask = u.e.mask) })).isSome = true := by
        rw [List.find?_isSome]; exact ⟨u.e, he, by simp⟩
      obtain ⟨x, hx⟩ := Option.isSome_iff_exists.mp h1
      have hm : x.mask = u.e.mask := by simpa using List.find?_some hx
      rw [hx, ho x (List.mem_of_find?_eq_some hx) hm]
    rw [this]
    simp
  have key : ∀ es, ∃ g', (w.put (c.setFront es)).group? u.g.id = some g' ∧ OnlyGroup u.s (w.put (c.setFront es)) u.g.id ∧
      Closed u.e.mask dead g g' ∧ g'.front = es := by
    intro es
    have hf := closed_setFront hc es
    have hid : (c.setFront es).id = w.g.id := (Group.SamePlace.id hf.place).trans (hwg ▸ hg)
    have p := put_group w _ h' hid
    have o := put_only w _ hid
    rw [hwg] at p o
    exact ⟨_, p, onlyGroup_trans hd o, hf, front_setFront _ _⟩
  obtain ⟨g', a1, a2, a3, a4⟩ := key (Entry.normalise (parts { u.e with yielded := y } ++ c.front.filter fun e => e.mask ≠ u.e.mask))
  have goal : w.put (c.replaceEntry w.e.mask (parts ((c.front.find? fun x => x.mask = w.e.mask).getD w.e))) =
      w.put (c.setFront (Entry.normalise (parts { u.e with yielded := y } ++ c.front.filter fun e => e.mask ≠ u.e.mask))) := by
    rw [hwe, hfind]; rfl
  refine ⟨g', y, ?_, ?_, a3, ?_⟩
  · rw [goal]; exact a1
  · rw [goal]; exact a2
  · intro p hp l hl
    have := holds_normalise (es := parts { u.e with yielded := y } ++ c.front.filter fun e => e.mask ≠ u.e.mask)
      (l := l) (pc := p.pc) (prio := p.prio) (stack := p.stack) ⟨p, List.mem_append_left _ hp, hl, rfl, rfl, rfl⟩
    unfold Stands
    rw [a4]
    exact this

/-- A sequence completes and its whole entry moves past it. -/
theorem finish_past (u : Iss) (g : Group) (h : (u.s.group? u.g.id).isSome = true) (hg : g.id = u.g.id) (he : u.e ∈ g.front)
    (ho : Only g u.e) :
    ∃ g', (u.finish g).group? u.g.id = some g' ∧ OnlyGroup u.s (u.finish g) u.g.id ∧ Closed u.e.mask u.deads g g' ∧
      Past g' u.e u.words := by
  obtain ⟨g', b, a1, a2, a3, a4⟩ := finishAs_stands u g u.deads u.y u.stall (fun e => [e.advance u.words]) h hg he ho
  refine ⟨g', a1, a2, a3, ?_⟩
  intro l hl
  have := a4 _ (List.mem_singleton.mpr rfl) l (by simpa [Entry.advance] using hl)
  simpa [Entry.advance] using this

end Iss

/-- The entry a group issues is one of its entries. -/
theorem select_mem {es : List Entry} {e : Entry} (h : Entry.select es = some e) : e ∈ es := by
  unfold Entry.select at h
  split at h
  · cases h; exact List.mem_of_find?_eq_some ‹_›
  · split at h
    · cases h; exact List.mem_of_find?_eq_some ‹_›
    · exact List.mem_of_find?_eq_some h

/-- The group found under an identifier has it. -/
theorem AtIssue.here {i : Instr} {s : State} {g : Group} {e : Entry} (h : AtIssue i s g e) : s.group? g.id = some g := by
  have hg := h.group
  have : g.id = s.cur := by
    have := List.find?_some hg
    simpa using this
  rw [this]; exact hg

/-- An instruction whose meaning completes its sequence from a state `s'` and a group `g0` ends there. -/
theorem ends_of {i : Instr} {s : State} {g : Group} {e : Entry} {s' : State} {g0 : Group}
    (hx : exec i s = .next (({ Iss.mk' s g e i with s := s' } : Iss).finish g0))
    (h : AtIssue i s g e) (ho : Only g e) (hs : s'.groups = s.groups) (hid : g0.id = g.id) (hf : g0.front = g.front) :
    Ends i s g e s' g0 := by
  have hg := h.here
  have h' : (s'.group? g.id).isSome = true := by
    have : s'.group? g.id = s.group? g.id := by unfold State.group?; rw [hs]
    rw [this, hg]; rfl
  have he : e ∈ g0.front := by rw [hf]; exact select_mem h.entry
  have hd : ({ Iss.mk' s g e i with s := s' } : Iss).deads = deadOf i := by
    simp [deadOf, Iss.deads, Iss.allHints, Hints.deadRegs]
  obtain ⟨g', a1, a2, a3, a4⟩ := Iss.finish_past { Iss.mk' s g e i with s := s' } g0 h' hid he
    (by intro x hx hm; rw [hf] at hx; exact ho x hx hm)
  rw [hd] at a3
  exact ⟨_, g', hx, a1, a2, a3, a4⟩

end Sys2Proof.Machine
end

