-- ==== Sys2Proof/Laws/Lanes.lean ====
section
/-! SUPPORT. Lanes: what running a register form in a list of lanes does: each lane sees only its own registers, so the order
of the lanes is of no account. -/

set_option Elab.async false

namespace Sys2Proof.Machine

/-- What a lane writes to its own vector register: nothing where the form has no destination there. -/
def Alu.written (o : Alu) (r : LaneOut) : Option Word := if r.noVal || o.nw then none else some r.val

namespace Group

theorem fpmode_setV (g : Group) (r l : Nat) (x : Word) : (g.setV r l x).fpmode = g.fpmode := by
  unfold setV; cases g.frame <;> rfl
theorem fpmode_setP (g : Group) (l : Nat) (x : BitVec 16) : (g.setP l x).fpmode = g.fpmode := by
  unfold setP; cases g.frame <;> rfl
theorem inHandler_setV (g : Group) (r l : Nat) (x : Word) : (g.setV r l x).inHandler = g.inHandler := by
  unfold setV inHandler; cases g.frame <;> rfl
theorem inHandler_setP (g : Group) (l : Nat) (x : BitVec 16) : (g.setP l x).inHandler = g.inHandler := by
  unfold setP inHandler; cases g.frame <;> rfl
theorem fpflags_setV (g : Group) (r l : Nat) (x : Word) : (g.setV r l x).fpflags = g.fpflags := by
  unfold setV; cases g.frame <;> rfl
theorem fpflags_setP (g : Group) (l : Nat) (x : BitVec 16) : (g.setP l x).fpflags = g.fpflags := by
  unfold setP; cases g.frame <;> rfl

theorem getV_raise (g : Group) (fl r l : Nat) : (g.raise fl).getV r l = g.getV r l := by
  unfold raise; split <;> rfl
theorem getP_raise (g : Group) (fl l : Nat) : (g.raise fl).getP l = g.getP l := by
  unfold raise; split <;> rfl
theorem getS_raise (g : Group) (fl n : Nat) : (g.raise fl).getS n = g.getS n := by
  unfold raise; split <;> rfl
theorem fpmode_raise (g : Group) (fl : Nat) : (g.raise fl).fpmode = g.fpmode := by
  unfold raise; split <;> rfl
theorem inHandler_raise (g : Group) (fl : Nat) : (g.raise fl).inHandler = g.inHandler := by
  unfold raise; split <;> rfl

/-- Raising flags reads only the mode, the frame and the flags. -/
theorem raise_fpflags_congr {g g' : Group} (fl : Nat) (h1 : g'.fpmode = g.fpmode) (h2 : g'.inHandler = g.inHandler)
    (h3 : g'.fpflags = g.fpflags) : (g'.raise fl).fpflags = (g.raise fl).fpflags := by
  unfold raise
  rw [h2]
  split
  · exact h3
  · simp only [h1, h3]

/-! ### One lane -/

theorem getV_laneWrite (g : Group) (o : Alu) (k : Nat) (r : LaneOut) (d l : Nat) (hk : k < 32) (hl : l < 32) :
    (g.laneWrite o k r).getV d l = if d = o.d ∧ l = k then (o.written r).getD (g.getV d l) else g.getV d l := by
  have h : (g.laneWrite o k r).getV d l = (if r.noVal || o.nw then g else g.setV o.d k r.val).getV d l := by
    unfold laneWrite
    dsimp only
    rw [getV_raise]
    split <;> simp
  rw [h]
  unfold Alu.written
  by_cases hc : (r.noVal || o.nw) = true
  · simp [hc]
  · rw [if_neg hc, if_neg hc, getV_setV _ _ _ _ _ _ hk hl]; rfl

theorem getP_laneWrite_other (g : Group) (o : Alu) (k : Nat) (r : LaneOut) (l : Nat) (h : l ≠ k) :
    (g.laneWrite o k r).getP l = g.getP l := by
  unfold laneWrite
  dsimp only
  rw [getP_raise]
  split
  · unfold setPn; simp only [getP_setP, if_neg h]; split <;> simp
  · split <;> simp

theorem getPn_laneWrite (g : Group) (o : Alu) (k : Nat) (r : LaneOut) (n l : Nat) (hp : ∀ p, o.pd = some p → p < 16) :
    (g.laneWrite o k r).getPn n l = if o.pd = some n ∧ l = k then r.pred else g.getPn n l := by
  have h : (g.laneWrite o k r).getPn n l =
      (match o.pd with | some p => g.setPn p k r.pred | none => g).getPn n l := by
    unfold laneWrite
    dsimp only
    unfold getPn
    rw [getP_raise]
    cases o.pd with
    | none => dsimp only; split <;> simp
    | some p =>
      dsimp only
      unfold setPn
      have hq : ∀ j, (if r.noVal || o.nw then g else g.setV o.d k r.val).getP j = g.getP j := by
        intro j; split <;> simp
      simp only [getP_setP, hq]
  rw [h]
  cases ho : o.pd with
  | none => simp
  | some p =>
    dsimp only
    rw [getPn_setPn _ _ _ _ _ _ (hp p ho)]
    simp only [Option.some.injEq, eq_comm]

theorem getS_laneWrite (g : Group) (o : Alu) (k : Nat) (r : LaneOut) (n : Nat) : (g.laneWrite o k r).getS n = g.getS n := by
  unfold laneWrite
  dsimp only
  rw [getS_raise]
  split <;> split <;> simp

theorem fpmode_laneWrite (g : Group) (o : Alu) (k : Nat) (r : LaneOut) : (g.laneWrite o k r).fpmode = g.fpmode := by
  unfold laneWrite
  dsimp only
  rw [fpmode_raise]
  split <;> split <;> simp [setPn, fpmode_setV, fpmode_setP]

theorem inHandler_laneWrite (g : Group) (o : Alu) (k : Nat) (r : LaneOut) : (g.laneWrite o k r).inHandler = g.inHandler := by
  unfold laneWrite
  dsimp only
  rw [inHandler_raise]
  split <;> split <;> simp [setPn, inHandler_setV, inHandler_setP]

theorem fpflags_laneWrite (g : Group) (o : Alu) (k : Nat) (r : LaneOut) :
    (g.laneWrite o k r).fpflags = (g.raise r.fl).fpflags := by
  unfold laneWrite
  dsimp only
  apply raise_fpflags_congr
  · split <;> split <;> simp [setPn, fpmode_setV, fpmode_setP]
  · split <;> split <;> simp [setPn, inHandler_setV, inHandler_setP]
  · split <;> split <;> simp [setPn, fpflags_setV, fpflags_setP]

theorem front_laneWrite (g : Group) (o : Alu) (k : Nat) (r : LaneOut) : (g.laneWrite o k r).front = g.front := by
  unfold laneWrite
  dsimp only
  rw [front_raise]
  split <;> split <;> simp

theorem ordered_laneWrite (g : Group) (o : Alu) (k : Nat) (r : LaneOut) (h : g.ordered = true) :
    (g.laneWrite o k r).ordered = true := by
  have hs : ∀ (g : Group) (l : Nat) (x : BitVec 16), g.ordered = true → (g.setP l x).ordered = true := by
    intro g l x h; unfold setP ordered at *; cases hf : g.frame <;> simp_all
  have hr : ∀ (g : Group) (fl : Nat), g.ordered = true → (g.raise fl).ordered = true := by
    intro g fl h; unfold raise; split <;> exact h
  unfold laneWrite
  dsimp only
  apply hr
  split
  · apply hs; split
    · exact h
    · exact ordered_setV _ _ _ _ h
  · split
    · exact h
    · exact ordered_setV _ _ _ _ h

theorem samePlace_laneWrite (g : Group) (o : Alu) (k : Nat) (r : LaneOut) : SamePlace g (g.laneWrite o k r) := by
  unfold laneWrite
  dsimp only
  refine SamePlace.trans ?_ (samePlace_raise _ _)
  have h1 : SamePlace g (if r.noVal || o.nw then g else g.setV o.d k r.val) := by
    split
    · exact SamePlace.refl _
    · exact samePlace_setV _ _ _ _
  split
  · exact SamePlace.trans h1 (samePlace_setPn _ _ _ _)
  · exact h1

/-! ### What a lane's operation sees depends only on that lane's registers -/

theorem readSrc_congr {g g' : Group} {l : Nat} (hv : ∀ r, g'.getV r l = g.getV r l) (hs : ∀ n, g'.getS n = g.getS n)
    (lat : List Word) (t : Nat) (x : Src) : readSrc g' l lat t x = readSrc g l lat t x := by
  cases x <;> simp [readSrc, hv, hs]

theorem laneOp_congr {g g' : Group} {l : Nat} (hv : ∀ r, g'.getV r l = g.getV r l) (hp : g'.getP l = g.getP l)
    (hs : ∀ n, g'.getS n = g.getS n) (hm : g'.fpmode = g.fpmode) (hh : g'.inHandler = g.inHandler) (i : Instr) (o : Alu)
    (lat : List Word) : g'.laneOp i o l lat = g.laneOp i o l lat := by
  have hr : ∀ t, readSrc g' l lat t = readSrc g l lat t := fun t => funext fun x => readSrc_congr hv hs lat t x
  have hq : ∀ q, g'.passes q l = g.passes q l := by
    intro q; cases q <;> simp [passes, getPn, hp]
  have hrm : g'.rmFor i.head.hints = g.rmFor i.head.hints := by unfold rmFor; rw [hh, hm]
  simp only [laneOp, hr, hv, hq, hrm, hh, hm]

/-! ### All lanes -/

/-- A register form run in distinct lanes: what each lane's operation gives, on the group before, is written there; flags are
raised lane by lane in order. -/
theorem runLanes_spec (i : Instr) (o : Alu) (hp : ∀ p, o.pd = some p → p < 16) : ∀ (ls : List Nat) (g : Group), ls.Nodup →
    (∀ k ∈ ls, k < 32) → ∃ g', Group.runLanes i o ls g = (g', ls.any fun l => (i.lane (g.laneOp i o l [])).log) ∧
      SamePlace g g' ∧ g'.front = g.front ∧ (g.ordered = true → g'.ordered = true) ∧
      (∀ d l, l < 32 → g'.getV d l =
        if d = o.d ∧ l ∈ ls then (o.written (i.lane (g.laneOp i o l []))).getD (g.getV d l) else g.getV d l) ∧
      (∀ n l, g'.getPn n l = if o.pd = some n ∧ l ∈ ls then (i.lane (g.laneOp i o l [])).pred else g.getPn n l) ∧
      (∀ n, g'.getS n = g.getS n) ∧
      g'.fpflags = (ls.foldl (fun g' l => g'.raise (i.lane (g.laneOp i o l [])).fl) g).fpflags := by
  intro ls
  induction ls with
  | nil =>
    intro g _ _
    exact ⟨g, rfl, SamePlace.refl _, rfl, fun h => h, by simp, by simp, fun _ => rfl, rfl⟩
  | cons a t ih =>
    intro g hn hlt
    have ha : a < 32 := hlt a (List.mem_cons_self ..)
    have hnt : a ∉ t := (List.nodup_cons.mp hn).1
    let r := i.lane (g.laneOp i o a [])
    let g1 := g.laneWrite o a r
    obtain ⟨g', e1, e2, e3, e4, e5, e6, e7, e8⟩ := ih g1 (List.nodup_cons.mp hn).2 (fun k hk => hlt k (List.mem_cons_of_mem a hk))
    have hop : ∀ l, l < 32 → l ≠ a → g1.laneOp i o l [] = g.laneOp i o l [] := by
      intro l hl hla
      apply laneOp_congr
      · intro d; rw [getV_laneWrite _ _ _ _ _ _ ha hl]; simp [hla]
      · exact getP_laneWrite_other _ _ _ _ _ hla
      · exact getS_laneWrite _ _ _ _
      · exact fpmode_laneWrite _ _ _ _
      · exact inHandler_laneWrite _ _ _ _
    have hopt : ∀ l ∈ t, g1.laneOp i o l [] = g.laneOp i o l [] := fun l hl =>
      hop l (hlt l (List.mem_cons_of_mem a hl)) (fun h => hnt (h ▸ hl))
    refine ⟨g', ?_, SamePlace.trans (samePlace_laneWrite _ _ _ _) e2, e3.trans (front_laneWrite _ _ _ _),
      fun h => e4 (ordered_laneWrite _ _ _ _ h), ?_, ?_, ?_, ?_⟩
    · have hany : (t.any fun l => (i.lane (g1.laneOp i o l [])).log) = t.any fun l => (i.lane (g.laneOp i o l [])).log := by
        have : ∀ x : List Nat, (∀ l ∈ x, g1.laneOp i o l [] = g.laneOp i o l []) →
            (x.any fun l => (i.lane (g1.laneOp i o l [])).log) = x.any fun l => (i.lane (g.laneOp i o l [])).log := by
          intro x
          induction x with
          | nil => intro _; rfl
          | cons b u ihx =>
            intro hx
            rw [List.any_cons, List.any_cons, hx b (List.mem_cons_self ..), ihx (fun l hl => hx l (List.mem_cons_of_mem b hl))]
        exact this t hopt
      have e1' : Group.runLanes i o t (g.laneWrite o a (i.lane (g.laneOp i o a []))) =
          (g', t.any fun l => (i.lane (g.laneOp i o l [])).log) := by rw [← hany]; exact e1
      simp only [Group.runLanes, e1', List.any_cons, Bool.or_comm]
    · intro d l hl
      rw [e5 d l hl, getV_laneWrite _ _ _ _ _ _ ha hl]
      by_cases hla : l = a
      · subst hla; simp only [hnt, and_false, if_false, List.mem_cons, true_or, and_true]; rfl
      · by_cases hlt' : l ∈ t
        · simp only [hlt', hla, hop l hl hla, List.mem_cons, or_true, and_true, and_false, if_false]
        · simp [hlt', hla]
    · intro n l
      rw [e6 n l, getPn_laneWrite _ _ _ _ _ _ hp]
      by_cases hla : l = a
      · subst hla; simp only [hnt, and_false, if_false, List.mem_cons, true_or, and_true]; rfl
      · by_cases hlt' : l ∈ t
        · simp only [hlt', hla, hopt l hlt', List.mem_cons, or_true, and_true, and_false, if_false]
        · simp [hlt', hla]
    · intro n; rw [e7 n, getS_laneWrite]
    · rw [e8, List.foldl_cons]
      have key : ∀ (x : List Nat) (p q : Group), (∀ l ∈ x, g1.laneOp i o l [] = g.laneOp i o l []) → p.fpmode = q.fpmode →
          p.inHandler = q.inHandler → p.fpflags = q.fpflags →
          (x.foldl (fun g' l => g'.raise (i.lane (g1.laneOp i o l [])).fl) p).fpflags =
          (x.foldl (fun g' l => g'.raise (i.lane (g.laneOp i o l [])).fl) q).fpflags := by
        intro x
        induction x with
        | nil => intro p q _ _ _ h; exact h
        | cons b u ihx =>
          intro p q hx h1 h2 h3
          rw [List.foldl_cons, List.foldl_cons, hx b (List.mem_cons_self ..)]
          apply ihx _ _ (fun l hl => hx l (List.mem_cons_of_mem b hl))
          · rw [fpmode_raise, fpmode_raise, h1]
          · rw [inHandler_raise, inHandler_raise, h2]
          · exact raise_fpflags_congr _ h1 h2 h3
      apply key t _ _ hopt
      · rw [fpmode_laneWrite, fpmode_raise]
      · rw [inHandler_laneWrite, inHandler_raise]
      · exact fpflags_laneWrite _ _ _ _

end Group

/-! ### The runner -/

/-- Registers that the gate let a group map, it lets it map again. -/
theorem regGate_again {s : State} {g g1 : Group} {ws : List Nat} (h : s.regGate g ws = .ok g1) : s.regGate g1 ws = .ok g1 := by
  have hg := regGate_ok h
  have hm : s.mappedRegs g1 = s.mappedRegs g := by rw [hg]; rfl
  have hl : s.regLimits g1 = s.regLimits g := by rw [hg]; rfl
  have hh : g1.inHandler = g.inHandler := by rw [hg]; rfl
  unfold State.regGate at h ⊢
  rw [hh]
  split at h
  · next h0 => simp [h0]
  · next h0 =>
    simp only [h0]
    dsimp only at h ⊢
    rw [hm, hl]
    split at h
    · next h1 => rw [if_pos h1]; rfl
    · next h1 =>
      simp only [h1, if_false]
      split at h
      · cases h
      · next h2 =>
        simp only [h2, if_false]
        split at h
        · next h3 => cases h; rw [if_pos h3]; rfl
        · next h3 =>
          split at h
          · cases h; simp
          · cases h
/-- A register form without repeats that writes a vector register writes its D alone. -/
theorem vwrites_alu {i : Instr} {o : Alu} (h : i.alu = some o) (hr : i.head.hints.rep = none) (hp : o.pd.isSome = false) (hw : o.nw = false) :
    i.vwrites = [o.d] := by
  cases i <;> simp only [Instr.alu, Option.some.injEq, reduceCtorEq] at h <;> subst h <;>
    simp_all [Instr.vwrites, Instr.alu, spread, FP.alu, FPi.alu, FPc.alu, Instr.head]
/-- A destination predicate is one of p0-p15. -/
theorem alu_pd {i : Instr} {o : Alu} (h : i.alu = some o) : ∀ p, o.pd = some p → p < 16 := by
  cases i <;> simp only [Instr.alu, Option.some.injEq, reduceCtorEq] at h <;> subst h <;> intro p hp <;>
    simp only [FR.alu, FRu.alu, FI.alu, FIu.alu, FP.alu, FPi.alu, FPc.alu, Option.some.injEq, reduceCtorEq] at hp
  all_goals omega
/-- Every register form runs by the shared runner. -/
theorem exec_alu {i : Instr} {o : Alu} (h : i.alu = some o) (s : State) : exec i s = aluSeq i s := by
  cases i <;> simp only [Instr.alu, reduceCtorEq] at h <;> rfl

end Sys2Proof.Machine
end

