-- ==== Sys2Proof/Laws/PerInstr.lean ====
section
/-! SUPPORT. PerInstr: statements made for one constructor of `Instr` at a time. Encoding: the opcode and format bits of an
instruction decode to it, and its reserved bits are zero. -/

set_option Elab.async false

namespace Sys2Proof.Laws.Encoding

/-- The opcode and bits [17:0] that the encoder gives an instruction word decode to it under its head, and hold no reserved
bit (R66). A step of another agent has no bits. -/
def Statement (i : Instr) : Prop :=
  ∀ op x, i.opBits = some (op, x) → decodeOp op.toNat i.head x = some i ∧ x &&& reservedMask op.toNat x = 0

theorem nop (h : Head) : Statement (.nop h) := by
  intro op x e
  cases e
  exact ⟨rfl, by decide⟩

theorem add (h : Head) (f : FR) : Statement (.add h f) := by
  intro op x e
  cases e
  exact ⟨congrArg (fun f => some (Instr.add h f)) f.ofBits_bits, BitVec.and_zero⟩

theorem addI (h : Head) (f : FI) : Statement (.addI h f) := by
  intro op x e
  cases e
  exact ⟨congrArg (fun f => some (Instr.addI h f)) f.ofBits_bits, BitVec.and_zero⟩

theorem sub (h : Head) (f : FR) : Statement (.sub h f) := by
  intro op x e
  cases e
  exact ⟨congrArg (fun f => some (Instr.sub h f)) f.ofBits_bits, BitVec.and_zero⟩

theorem mul (h : Head) (f : FR) : Statement (.mul h f) := by
  intro op x e
  cases e
  exact ⟨congrArg (fun f => some (Instr.mul h f)) f.ofBits_bits, BitVec.and_zero⟩

theorem mulh (h : Head) (f : FR) : Statement (.mulh h f) := by
  intro op x e
  cases e
  exact ⟨congrArg (fun f => some (Instr.mulh h f)) f.ofBits_bits, BitVec.and_zero⟩

theorem mad (h : Head) (f : FR) : Statement (.mad h f) := by
  intro op x e
  cases e
  exact ⟨congrArg (fun f => some (Instr.mad h f)) f.ofBits_bits, BitVec.and_zero⟩

theorem min (h : Head) (f : FR) : Statement (.min h f) := by
  intro op x e
  cases e
  exact ⟨congrArg (fun f => some (Instr.min h f)) f.ofBits_bits, BitVec.and_zero⟩

theorem max (h : Head) (f : FR) : Statement (.max h f) := by
  intro op x e
  cases e
  exact ⟨congrArg (fun f => some (Instr.max h f)) f.ofBits_bits, BitVec.and_zero⟩

theorem abs (h : Head) (f : FRu) : Statement (.abs h f) := by
  intro op x e
  cases e
  exact ⟨congrArg (fun f => some (Instr.abs h f)) f.ofBits_bits, f.reserved⟩

theorem neg (h : Head) (f : FRu) : Statement (.neg h f) := by
  intro op x e
  cases e
  exact ⟨congrArg (fun f => some (Instr.neg h f)) f.ofBits_bits, f.reserved⟩

theorem adds (h : Head) (f : FR) : Statement (.adds h f) := by
  intro op x e
  cases e
  exact ⟨congrArg (fun f => some (Instr.adds h f)) f.ofBits_bits, BitVec.and_zero⟩

theorem subs (h : Head) (f : FR) : Statement (.subs h f) := by
  intro op x e
  cases e
  exact ⟨congrArg (fun f => some (Instr.subs h f)) f.ofBits_bits, BitVec.and_zero⟩

theorem sad (h : Head) (f : FR) : Statement (.sad h f) := by
  intro op x e
  cases e
  exact ⟨congrArg (fun f => some (Instr.sad h f)) f.ofBits_bits, BitVec.and_zero⟩

theorem and_ (h : Head) (f : FR) : Statement (.and_ h f) := by
  intro op x e
  cases e
  exact ⟨congrArg (fun f => some (Instr.and_ h f)) f.ofBits_bits, BitVec.and_zero⟩

theorem andI (h : Head) (f : FI) : Statement (.andI h f) := by
  intro op x e
  cases e
  exact ⟨congrArg (fun f => some (Instr.andI h f)) f.ofBits_bits, BitVec.and_zero⟩

theorem or_ (h : Head) (f : FR) : Statement (.or_ h f) := by
  intro op x e
  cases e
  exact ⟨congrArg (fun f => some (Instr.or_ h f)) f.ofBits_bits, BitVec.and_zero⟩

theorem orI (h : Head) (f : FI) : Statement (.orI h f) := by
  intro op x e
  cases e
  exact ⟨congrArg (fun f => some (Instr.orI h f)) f.ofBits_bits, BitVec.and_zero⟩

theorem xor_ (h : Head) (f : FR) : Statement (.xor_ h f) := by
  intro op x e
  cases e
  exact ⟨congrArg (fun f => some (Instr.xor_ h f)) f.ofBits_bits, BitVec.and_zero⟩

theorem xorI (h : Head) (f : FI) : Statement (.xorI h f) := by
  intro op x e
  cases e
  exact ⟨congrArg (fun f => some (Instr.xorI h f)) f.ofBits_bits, BitVec.and_zero⟩

theorem andn (h : Head) (f : FR) : Statement (.andn h f) := by
  intro op x e
  cases e
  exact ⟨congrArg (fun f => some (Instr.andn h f)) f.ofBits_bits, BitVec.and_zero⟩

theorem not_ (h : Head) (f : FRu) : Statement (.not_ h f) := by
  intro op x e
  cases e
  exact ⟨congrArg (fun f => some (Instr.not_ h f)) f.ofBits_bits, f.reserved⟩

theorem shl (h : Head) (f : FR) : Statement (.shl h f) := by
  intro op x e
  cases e
  exact ⟨congrArg (fun f => some (Instr.shl h f)) f.ofBits_bits, BitVec.and_zero⟩

theorem shlI (h : Head) (f : FI) : Statement (.shlI h f) := by
  intro op x e
  cases e
  exact ⟨congrArg (fun f => some (Instr.shlI h f)) f.ofBits_bits, BitVec.and_zero⟩

theorem shr (h : Head) (f : FR) : Statement (.shr h f) := by
  intro op x e
  cases e
  exact ⟨congrArg (fun f => some (Instr.shr h f)) f.ofBits_bits, BitVec.and_zero⟩

theorem shrI (h : Head) (f : FI) : Statement (.shrI h f) := by
  intro op x e
  cases e
  exact ⟨congrArg (fun f => some (Instr.shrI h f)) f.ofBits_bits, BitVec.and_zero⟩

theorem sar (h : Head) (f : FR) : Statement (.sar h f) := by
  intro op x e
  cases e
  exact ⟨congrArg (fun f => some (Instr.sar h f)) f.ofBits_bits, BitVec.and_zero⟩

theorem sarI (h : Head) (f : FI) : Statement (.sarI h f) := by
  intro op x e
  cases e
  exact ⟨congrArg (fun f => some (Instr.sarI h f)) f.ofBits_bits, BitVec.and_zero⟩

theorem rot (h : Head) (f : FR) : Statement (.rot h f) := by
  intro op x e
  cases e
  exact ⟨congrArg (fun f => some (Instr.rot h f)) f.ofBits_bits, BitVec.and_zero⟩

theorem rotI (h : Head) (f : FI) : Statement (.rotI h f) := by
  intro op x e
  cases e
  exact ⟨congrArg (fun f => some (Instr.rotI h f)) f.ofBits_bits, BitVec.and_zero⟩

theorem clz (h : Head) (f : FRu) : Statement (.clz h f) := by
  intro op x e
  cases e
  exact ⟨congrArg (fun f => some (Instr.clz h f)) f.ofBits_bits, f.reserved⟩

theorem popc (h : Head) (f : FRu) : Statement (.popc h f) := by
  intro op x e
  cases e
  exact ⟨congrArg (fun f => some (Instr.popc h f)) f.ofBits_bits, f.reserved⟩

theorem brev (h : Head) (f : FRu) : Statement (.brev h f) := by
  intro op x e
  cases e
  exact ⟨congrArg (fun f => some (Instr.brev h f)) f.ofBits_bits, f.reserved⟩

theorem bfe (h : Head) (f : FR) : Statement (.bfe h f) := by
  intro op x e
  cases e
  exact ⟨congrArg (fun f => some (Instr.bfe h f)) f.ofBits_bits, BitVec.and_zero⟩

theorem bfi (h : Head) (f : FR) : Statement (.bfi h f) := by
  intro op x e
  cases e
  exact ⟨congrArg (fun f => some (Instr.bfi h f)) f.ofBits_bits, BitVec.and_zero⟩

theorem prmt (h : Head) (f : FR) : Statement (.prmt h f) := by
  intro op x e
  cases e
  exact ⟨congrArg (fun f => some (Instr.prmt h f)) f.ofBits_bits, BitVec.and_zero⟩

theorem ext (h : Head) (f : FRu) : Statement (.ext h f) := by
  intro op x e
  cases e
  exact ⟨congrArg (fun f => some (Instr.ext h f)) f.ofBits_bits, f.reserved⟩

theorem sel (h : Head) (f : FR) : Statement (.sel h f) := by
  intro op x e
  cases e
  exact ⟨congrArg (fun f => some (Instr.sel h f)) f.ofBits_bits, BitVec.and_zero⟩

theorem cmp (h : Head) (f : FP) : Statement (.cmp h f) := by
  intro op x e
  cases e
  exact ⟨congrArg (fun f => some (Instr.cmp h f)) f.ofBits_bits, BitVec.and_zero⟩

theorem cmpI (h : Head) (f : FPi) : Statement (.cmpI h f) := by
  intro op x e
  cases e
  exact ⟨congrArg (fun f => some (Instr.cmpI h f)) f.ofBits_bits, BitVec.and_zero⟩

theorem pand (h : Head) (f : FQ) : Statement (.pand h f) := by
  intro op x e
  cases e
  exact ⟨congrArg (fun f => some (Instr.pand h f)) f.ofBits_bits, f.reserved⟩

theorem por (h : Head) (f : FQ) : Statement (.por h f) := by
  intro op x e
  cases e
  exact ⟨congrArg (fun f => some (Instr.por h f)) f.ofBits_bits, f.reserved⟩

theorem pxor (h : Head) (f : FQ) : Statement (.pxor h f) := by
  intro op x e
  cases e
  exact ⟨congrArg (fun f => some (Instr.pxor h f)) f.ofBits_bits, f.reserved⟩

theorem pnot (h : Head) (f : FQu) : Statement (.pnot h f) := by
  intro op x e
  cases e
  exact ⟨congrArg (fun f => some (Instr.pnot h f)) f.ofBits_bits, f.reserved⟩

theorem movpToVector (h : Head) (f : FMovpV) : Statement (.movpToVector h f) := by
  intro op x e
  cases e
  have b17 := f.bit17
  simp at b17
  refine ⟨?_, ?_⟩
  · simp [decodeOp, Instr.head, b17, f.ofBits_bits]
  · simpa [reservedMask, b17] using f.reserved

theorem movpToPredicates (h : Head) (f : FMovpP) : Statement (.movpToPredicates h f) := by
  intro op x e
  cases e
  have b17 := f.bit17
  simp at b17
  refine ⟨?_, ?_⟩
  · simp [decodeOp, Instr.head, b17, f.ofBits_bits]
  · simpa [reservedMask, b17] using f.reserved

theorem mov (h : Head) (f : FRu) : Statement (.mov h f) := by
  intro op x e
  cases e
  exact ⟨congrArg (fun f => some (Instr.mov h f)) f.ofBits_bits, f.reserved⟩

theorem movi (h : Head) (f : FIu) : Statement (.movi h f) := by
  intro op x e
  cases e
  exact ⟨congrArg (fun f => some (Instr.movi h f)) f.ofBits_bits, f.reserved⟩

theorem movs (h : Head) (f : FMovs) : Statement (.movs h f) := by
  intro op x e
  cases e
  exact ⟨congrArg (fun f => some (Instr.movs h f)) f.ofBits_bits, BitVec.and_zero⟩

theorem movsw (h : Head) (f : FMovsw) : Statement (.movsw h f) := by
  intro op x e
  cases e
  exact ⟨congrArg (fun f => some (Instr.movsw h f)) f.ofBits_bits, f.reserved⟩

theorem lea (h : Head) (f : FR) : Statement (.lea h f) := by
  intro op x e
  cases e
  exact ⟨congrArg (fun f => some (Instr.lea h f)) f.ofBits_bits, BitVec.and_zero⟩

theorem leaI (h : Head) (f : FI) : Statement (.leaI h f) := by
  intro op x e
  cases e
  exact ⟨congrArg (fun f => some (Instr.leaI h f)) f.ofBits_bits, BitVec.and_zero⟩

theorem fadd (h : Head) (f : FR) : Statement (.fadd h f) := by
  intro op x e
  cases e
  exact ⟨congrArg (fun f => some (Instr.fadd h f)) f.ofBits_bits, BitVec.and_zero⟩

theorem fsub (h : Head) (f : FR) : Statement (.fsub h f) := by
  intro op x e
  cases e
  exact ⟨congrArg (fun f => some (Instr.fsub h f)) f.ofBits_bits, BitVec.and_zero⟩

theorem fmul (h : Head) (f : FR) : Statement (.fmul h f) := by
  intro op x e
  cases e
  exact ⟨congrArg (fun f => some (Instr.fmul h f)) f.ofBits_bits, BitVec.and_zero⟩

theorem ffma (h : Head) (f : FR) : Statement (.ffma h f) := by
  intro op x e
  cases e
  exact ⟨congrArg (fun f => some (Instr.ffma h f)) f.ofBits_bits, BitVec.and_zero⟩

theorem fmin (h : Head) (f : FR) : Statement (.fmin h f) := by
  intro op x e
  cases e
  exact ⟨congrArg (fun f => some (Instr.fmin h f)) f.ofBits_bits, BitVec.and_zero⟩

theorem fmax (h : Head) (f : FR) : Statement (.fmax h f) := by
  intro op x e
  cases e
  exact ⟨congrArg (fun f => some (Instr.fmax h f)) f.ofBits_bits, BitVec.and_zero⟩

theorem fminm (h : Head) (f : FR) : Statement (.fminm h f) := by
  intro op x e
  cases e
  exact ⟨congrArg (fun f => some (Instr.fminm h f)) f.ofBits_bits, BitVec.and_zero⟩

theorem fmaxm (h : Head) (f : FR) : Statement (.fmaxm h f) := by
  intro op x e
  cases e
  exact ⟨congrArg (fun f => some (Instr.fmaxm h f)) f.ofBits_bits, BitVec.and_zero⟩

theorem fcmp (h : Head) (f : FP) : Statement (.fcmp h f) := by
  intro op x e
  cases e
  exact ⟨congrArg (fun f => some (Instr.fcmp h f)) f.ofBits_bits, BitVec.and_zero⟩

theorem fclass (h : Head) (f : FPc) : Statement (.fclass h f) := by
  intro op x e
  cases e
  exact ⟨congrArg (fun f => some (Instr.fclass h f)) f.ofBits_bits, f.reserved⟩

theorem frnd (h : Head) (f : FRu) : Statement (.frnd h f) := by
  intro op x e
  cases e
  exact ⟨congrArg (fun f => some (Instr.frnd h f)) f.ofBits_bits, f.reserved⟩

theorem fscale (h : Head) (f : FR) : Statement (.fscale h f) := by
  intro op x e
  cases e
  exact ⟨congrArg (fun f => some (Instr.fscale h f)) f.ofBits_bits, BitVec.and_zero⟩

theorem frcp (h : Head) (f : FRu) : Statement (.frcp h f) := by
  intro op x e
  cases e
  exact ⟨congrArg (fun f => some (Instr.frcp h f)) f.ofBits_bits, f.reserved⟩

theorem frsq (h : Head) (f : FRu) : Statement (.frsq h f) := by
  intro op x e
  cases e
  exact ⟨congrArg (fun f => some (Instr.frsq h f)) f.ofBits_bits, f.reserved⟩

theorem fsqrt (h : Head) (f : FRu) : Statement (.fsqrt h f) := by
  intro op x e
  cases e
  exact ⟨congrArg (fun f => some (Instr.fsqrt h f)) f.ofBits_bits, f.reserved⟩

theorem fdivf (h : Head) (f : FR) : Statement (.fdivf h f) := by
  intro op x e
  cases e
  exact ⟨congrArg (fun f => some (Instr.fdivf h f)) f.ofBits_bits, BitVec.and_zero⟩

theorem fexp2 (h : Head) (f : FRu) : Statement (.fexp2 h f) := by
  intro op x e
  cases e
  exact ⟨congrArg (fun f => some (Instr.fexp2 h f)) f.ofBits_bits, f.reserved⟩

theorem flog2 (h : Head) (f : FRu) : Statement (.flog2 h f) := by
  intro op x e
  cases e
  exact ⟨congrArg (fun f => some (Instr.flog2 h f)) f.ofBits_bits, f.reserved⟩

theorem fsin (h : Head) (f : FRu) : Statement (.fsin h f) := by
  intro op x e
  cases e
  exact ⟨congrArg (fun f => some (Instr.fsin h f)) f.ofBits_bits, f.reserved⟩

theorem fcos (h : Head) (f : FRu) : Statement (.fcos h f) := by
  intro op x e
  cases e
  exact ⟨congrArg (fun f => some (Instr.fcos h f)) f.ofBits_bits, f.reserved⟩

theorem ftanh (h : Head) (f : FRu) : Statement (.ftanh h f) := by
  intro op x e
  cases e
  exact ⟨congrArg (fun f => some (Instr.ftanh h f)) f.ofBits_bits, f.reserved⟩

theorem cvt (h : Head) (f : FCvt) : Statement (.cvt h f) := by
  intro op x e
  cases e
  exact ⟨congrArg (fun f => some (Instr.cvt h f)) f.ofBits_bits, BitVec.and_zero⟩

theorem cvtsr (h : Head) (f : FR) : Statement (.cvtsr h f) := by
  intro op x e
  cases e
  exact ⟨congrArg (fun f => some (Instr.cvtsr h f)) f.ofBits_bits, BitVec.and_zero⟩

theorem pack (h : Head) (f : FR) : Statement (.pack h f) := by
  intro op x e
  cases e
  exact ⟨congrArg (fun f => some (Instr.pack h f)) f.ofBits_bits, BitVec.and_zero⟩

theorem unpack (h : Head) (f : FR) : Statement (.unpack h f) := by
  intro op x e
  cases e
  exact ⟨congrArg (fun f => some (Instr.unpack h f)) f.ofBits_bits, BitVec.and_zero⟩

theorem dot2 (h : Head) (f : FR) : Statement (.dot2 h f) := by
  intro op x e
  cases e
  exact ⟨congrArg (fun f => some (Instr.dot2 h f)) f.ofBits_bits, BitVec.and_zero⟩

theorem dot4 (h : Head) (f : FR) : Statement (.dot4 h f) := by
  intro op x e
  cases e
  exact ⟨congrArg (fun f => some (Instr.dot4 h f)) f.ofBits_bits, BitVec.and_zero⟩

theorem dot8 (h : Head) (f : FR) : Statement (.dot8 h f) := by
  intro op x e
  cases e
  exact ⟨congrArg (fun f => some (Instr.dot8 h f)) f.ofBits_bits, BitVec.and_zero⟩

theorem dots (h : Head) (f : FR) : Statement (.dots h f) := by
  intro op x e
  cases e
  exact ⟨congrArg (fun f => some (Instr.dots h f)) f.ofBits_bits, BitVec.and_zero⟩

theorem shfl (h : Head) (f : FShfl) : Statement (.shfl h f) := by
  intro op x e
  cases e
  exact ⟨congrArg (fun f => some (Instr.shfl h f)) f.ofBits_bits, BitVec.and_zero⟩

theorem vote (h : Head) (f : FVote) : Statement (.vote h f) := by
  intro op x e
  cases e
  exact ⟨congrArg (fun f => some (Instr.vote h f)) f.ofBits_bits, f.reserved⟩

theorem redg (h : Head) (f : FRedg) : Statement (.redg h f) := by
  intro op x e
  cases e
  exact ⟨congrArg (fun f => some (Instr.redg h f)) f.ofBits_bits, f.reserved⟩

theorem scang (h : Head) (f : FScang) : Statement (.scang h f) := by
  intro op x e
  cases e
  exact ⟨congrArg (fun f => some (Instr.scang h f)) f.ofBits_bits, f.reserved⟩

theorem bcast (h : Head) (f : FBcast) : Statement (.bcast h f) := by
  intro op x e
  cases e
  exact ⟨congrArg (fun f => some (Instr.bcast h f)) f.ofBits_bits, f.reserved⟩

theorem ldN8 (h : Head) (f : FM) : Statement (.ldN8 h f) := by
  intro op x e
  cases e
  exact ⟨congrArg (fun f => some (Instr.ldN8 h f)) f.ofBits_bits, BitVec.and_zero⟩

theorem ldN16 (h : Head) (f : FM) : Statement (.ldN16 h f) := by
  intro op x e
  cases e
  exact ⟨congrArg (fun f => some (Instr.ldN16 h f)) f.ofBits_bits, BitVec.and_zero⟩

theorem ldN32 (h : Head) (f : FM) : Statement (.ldN32 h f) := by
  intro op x e
  cases e
  exact ⟨congrArg (fun f => some (Instr.ldN32 h f)) f.ofBits_bits, BitVec.and_zero⟩

theorem ldB64 (h : Head) (f : FM) : Statement (.ldB64 h f) := by
  intro op x e
  cases e
  exact ⟨congrArg (fun f => some (Instr.ldB64 h f)) f.ofBits_bits, BitVec.and_zero⟩

theorem ldS8 (h : Head) (f : FM) : Statement (.ldS8 h f) := by
  intro op x e
  cases e
  exact ⟨congrArg (fun f => some (Instr.ldS8 h f)) f.ofBits_bits, BitVec.and_zero⟩

theorem ldS16 (h : Head) (f : FM) : Statement (.ldS16 h f) := by
  intro op x e
  cases e
  exact ⟨congrArg (fun f => some (Instr.ldS16 h f)) f.ofBits_bits, BitVec.and_zero⟩

theorem ldS32 (h : Head) (f : FM) : Statement (.ldS32 h f) := by
  intro op x e
  cases e
  exact ⟨congrArg (fun f => some (Instr.ldS32 h f)) f.ofBits_bits, BitVec.and_zero⟩

theorem stB8 (h : Head) (f : FM) : Statement (.stB8 h f) := by
  intro op x e
  cases e
  exact ⟨congrArg (fun f => some (Instr.stB8 h f)) f.ofBits_bits, BitVec.and_zero⟩

theorem stB16 (h : Head) (f : FM) : Statement (.stB16 h f) := by
  intro op x e
  cases e
  exact ⟨congrArg (fun f => some (Instr.stB16 h f)) f.ofBits_bits, BitVec.and_zero⟩

theorem stB32 (h : Head) (f : FM) : Statement (.stB32 h f) := by
  intro op x e
  cases e
  exact ⟨congrArg (fun f => some (Instr.stB32 h f)) f.ofBits_bits, BitVec.and_zero⟩

theorem stB64 (h : Head) (f : FM) : Statement (.stB64 h f) := by
  intro op x e
  cases e
  exact ⟨congrArg (fun f => some (Instr.stB64 h f)) f.ofBits_bits, BitVec.and_zero⟩

theorem ldfe (h : Head) (f : FM) : Statement (.ldfe h f) := by
  intro op x e
  cases e
  exact ⟨congrArg (fun f => some (Instr.ldfe h f)) f.ofBits_bits, BitVec.and_zero⟩

theorem stfe (h : Head) (f : FM) : Statement (.stfe h f) := by
  intro op x e
  cases e
  exact ⟨congrArg (fun f => some (Instr.stfe h f)) f.ofBits_bits, BitVec.and_zero⟩

theorem fefill (h : Head) (f : FM) : Statement (.fefill h f) := by
  intro op x e
  cases e
  exact ⟨congrArg (fun f => some (Instr.fefill h f)) f.ofBits_bits, BitVec.and_zero⟩

theorem feq (h : Head) (f : FFeq) : Statement (.feq h f) := by
  intro op x e
  cases e
  exact ⟨congrArg (fun f => some (Instr.feq h f)) f.ofBits_bits, f.reserved⟩

theorem atom (h : Head) (f : FM) : Statement (.atom h f) := by
  intro op x e
  cases e
  exact ⟨congrArg (fun f => some (Instr.atom h f)) f.ofBits_bits, BitVec.and_zero⟩

theorem atomf (h : Head) (f : FM) : Statement (.atomf h f) := by
  intro op x e
  cases e
  exact ⟨congrArg (fun f => some (Instr.atomf h f)) f.ofBits_bits, BitVec.and_zero⟩

theorem cas (h : Head) (f : FM) : Statement (.cas h f) := by
  intro op x e
  cases e
  exact ⟨congrArg (fun f => some (Instr.cas h f)) f.ofBits_bits, BitVec.and_zero⟩

theorem pref (h : Head) (f : FMn) : Statement (.pref h f) := by
  intro op x e
  cases e
  exact ⟨congrArg (fun f => some (Instr.pref h f)) f.ofBits_bits, f.reserved⟩

theorem cinv (h : Head) (f : FMn) : Statement (.cinv h f) := by
  intro op x e
  cases e
  exact ⟨congrArg (fun f => some (Instr.cinv h f)) f.ofBits_bits, f.reserved⟩

theorem cwb (h : Head) (f : FMn) : Statement (.cwb h f) := by
  intro op x e
  cases e
  exact ⟨congrArg (fun f => some (Instr.cwb h f)) f.ofBits_bits, f.reserved⟩

theorem waitk (h : Head) (f : FK4) : Statement (.waitk h f) := by
  intro op x e
  cases e
  exact ⟨congrArg (fun f => some (Instr.waitk h f)) f.ofBits_bits, f.reserved⟩

theorem tdef (h : Head) (f : FTdef) : Statement (.tdef h f) := by
  intro op x e
  cases e
  exact ⟨congrArg (fun f => some (Instr.tdef h f)) f.ofBits_bits, f.reserved⟩

theorem tinv (h : Head) (f : FTinv) : Statement (.tinv h f) := by
  intro op x e
  cases e
  exact ⟨congrArg (fun f => some (Instr.tinv h f)) f.ofBits_bits, f.reserved⟩

theorem tget (h : Head) (f : FTget) : Statement (.tget h f) := by
  intro op x e
  cases e
  exact ⟨congrArg (fun f => some (Instr.tget h f)) f.ofBits_bits, f.reserved⟩

theorem mzero (h : Head) (f : FK16) : Statement (.mzero h f) := by
  intro op x e
  cases e
  exact ⟨congrArg (fun f => some (Instr.mzero h f)) f.ofBits_bits, f.reserved⟩

theorem mload (h : Head) (f : FMl) : Statement (.mload h f) := by
  intro op x e
  cases e
  exact ⟨congrArg (fun f => some (Instr.mload h f)) f.ofBits_bits, f.reserved⟩

theorem mstore (h : Head) (f : FMl) : Statement (.mstore h f) := by
  intro op x e
  cases e
  exact ⟨congrArg (fun f => some (Instr.mstore h f)) f.ofBits_bits, f.reserved⟩

theorem mmaW16 (h : Head) (f : FMma) : Statement (.mmaW16 h f) := by
  intro op x e
  cases e
  exact ⟨congrArg (fun f => some (Instr.mmaW16 h f)) f.ofBits_bits, f.reserved⟩

theorem mmaW8 (h : Head) (f : FMma) : Statement (.mmaW8 h f) := by
  intro op x e
  cases e
  exact ⟨congrArg (fun f => some (Instr.mmaW8 h f)) f.ofBits_bits, f.reserved⟩

theorem mmaW6 (h : Head) (f : FMma) : Statement (.mmaW6 h f) := by
  intro op x e
  cases e
  exact ⟨congrArg (fun f => some (Instr.mmaW6 h f)) f.ofBits_bits, f.reserved⟩

theorem mmaW4 (h : Head) (f : FMma) : Statement (.mmaW4 h f) := by
  intro op x e
  cases e
  exact ⟨congrArg (fun f => some (Instr.mmaW4 h f)) f.ofBits_bits, f.reserved⟩

theorem mwait (h : Head) (f : FK16) : Statement (.mwait h f) := by
  intro op x e
  cases e
  exact ⟨congrArg (fun f => some (Instr.mwait h f)) f.ofBits_bits, f.reserved⟩

theorem copy (h : Head) (f : FCopy) : Statement (.copy h f) := by
  intro op x e
  cases e
  exact ⟨congrArg (fun f => some (Instr.copy h f)) f.ofBits_bits, f.reserved⟩

theorem gres (h : Head) (f : FGres) : Statement (.gres h f) := by
  intro op x e
  cases e
  have b14 := f.bit14
  simp at b14
  refine ⟨?_, ?_⟩
  · simp [decodeOp, Instr.head, b14, f.ofBits_bits]
  · simpa [reservedMask, b14] using f.reserved

theorem gresOpen (h : Head) (f : FGresO) : Statement (.gresOpen h f) := by
  intro op x e
  cases e
  have b14 := f.bit14
  simp at b14
  refine ⟨?_, ?_⟩
  · simp [decodeOp, Instr.head, b14, f.ofBits_bits]
  · simpa [reservedMask, b14] using f.reserved

theorem cflag (h : Head) (f : FCflag) : Statement (.cflag h f) := by
  intro op x e
  cases e
  exact ⟨congrArg (fun f => some (Instr.cflag h f)) f.ofBits_bits, f.reserved⟩

theorem tlbp (h : Head) (f : FTlbp) : Statement (.tlbp h f) := by
  intro op x e
  cases e
  have b9 := f.bit9
  simp at b9
  refine ⟨?_, ?_⟩
  · simp [decodeOp, Instr.head, b9, f.ofBits_bits]
  · exact f.reserved

theorem tlbpFill (h : Head) (f : FTlbpF) : Statement (.tlbpFill h f) := by
  intro op x e
  cases e
  have b9 := f.bit9
  simp at b9
  refine ⟨?_, ?_⟩
  · simp [decodeOp, Instr.head, b9, f.ofBits_bits]
  · exact f.reserved

theorem pattrReplicate (h : Head) (f : FPattr0) : Statement (.pattrReplicate h f) := by
  intro op x e
  cases e
  have b15 := f.bit15
  simp at b15
  have b14 := f.bit14
  simp at b14
  refine ⟨?_, ?_⟩
  · simp [decodeOp, Instr.head, b15, b14, f.ofBits_bits]
  · exact f.reserved_3ff

theorem pattrCollapse (h : Head) (f : FPattr1) : Statement (.pattrCollapse h f) := by
  intro op x e
  cases e
  have b15 := f.bit15
  simp at b15
  have b14 := f.bit14
  simp at b14
  refine ⟨?_, ?_⟩
  · simp [decodeOp, Instr.head, b15, b14, f.ofBits_bits]
  · exact f.reserved

theorem pattrFlush (h : Head) (f : FPattr2) : Statement (.pattrFlush h f) := by
  intro op x e
  cases e
  have b15 := f.bit15
  simp at b15
  have b14 := f.bit14
  simp at b14
  refine ⟨?_, ?_⟩
  · simp [decodeOp, Instr.head, b15, b14, f.ofBits_bits]
  · exact f.reserved

theorem coll (h : Head) (f : FPattr0) : Statement (.coll h f) := by
  intro op x e
  cases e
  exact ⟨congrArg (fun f => some (Instr.coll h f)) f.ofBits_bits, f.reserved_c3ff⟩

theorem tex (h : Head) (f : FTex) : Statement (.tex h f) := by
  intro op x e
  cases e
  exact ⟨congrArg (fun f => some (Instr.tex h f)) f.ofBits_bits, BitVec.and_zero⟩

theorem trace (h : Head) (f : FTrace) : Statement (.trace h f) := by
  intro op x e
  cases e
  exact ⟨congrArg (fun f => some (Instr.trace h f)) f.ofBits_bits, BitVec.and_zero⟩

theorem traceh (h : Head) (f : FTraceh) : Statement (.traceh h f) := by
  intro op x e
  cases e
  exact ⟨congrArg (fun f => some (Instr.traceh h f)) f.ofBits_bits, BitVec.and_zero⟩

theorem prim (h : Head) (f : FPrim) : Statement (.prim h f) := by
  intro op x e
  cases e
  exact ⟨congrArg (fun f => some (Instr.prim h f)) f.ofBits_bits, f.reserved⟩

theorem pend (h : Head) : Statement (.pend h) := by
  intro op x e
  cases e
  exact ⟨rfl, by decide⟩

theorem cwr (h : Head) (f : FCwr) : Statement (.cwr h f) := by
  intro op x e
  cases e
  exact ⟨congrArg (fun f => some (Instr.cwr h f)) f.ofBits_bits, f.reserved⟩

theorem cclr (h : Head) (f : FCclr) : Statement (.cclr h f) := by
  intro op x e
  cases e
  exact ⟨congrArg (fun f => some (Instr.cclr h f)) f.ofBits_bits, f.reserved⟩

theorem cdec (h : Head) (f : FCclr) : Statement (.cdec h f) := by
  intro op x e
  cases e
  exact ⟨congrArg (fun f => some (Instr.cdec h f)) f.ofBits_bits, f.reserved⟩

theorem zcmp (h : Head) (f : FZcmp) : Statement (.zcmp h f) := by
  intro op x e
  cases e
  exact ⟨congrArg (fun f => some (Instr.zcmp h f)) f.ofBits_bits, BitVec.and_zero⟩

theorem bra (h : Head) (f : FB) : Statement (.bra h f) := by
  intro op x e
  cases e
  exact ⟨congrArg (fun f => some (Instr.bra h f)) f.ofBits_bits, BitVec.and_zero⟩

theorem brx (h : Head) (f : FBrx) : Statement (.brx h f) := by
  intro op x e
  cases e
  exact ⟨congrArg (fun f => some (Instr.brx h f)) f.ofBits_bits, f.reserved⟩

theorem brany (h : Head) (f : FB) : Statement (.brany h f) := by
  intro op x e
  cases e
  exact ⟨congrArg (fun f => some (Instr.brany h f)) f.ofBits_bits, BitVec.and_zero⟩

theorem brall (h : Head) (f : FB) : Statement (.brall h f) := by
  intro op x e
  cases e
  exact ⟨congrArg (fun f => some (Instr.brall h f)) f.ofBits_bits, BitVec.and_zero⟩

theorem call (h : Head) (f : FB) : Statement (.call h f) := by
  intro op x e
  cases e
  exact ⟨congrArg (fun f => some (Instr.call h f)) f.ofBits_bits, BitVec.and_zero⟩

theorem ret (h : Head) : Statement (.ret h) := by
  intro op x e
  cases e
  exact ⟨rfl, by decide⟩

theorem loop (h : Head) (f : FL) : Statement (.loop h f) := by
  intro op x e
  cases e
  exact ⟨congrArg (fun f => some (Instr.loop h f)) f.ofBits_bits, BitVec.and_zero⟩

theorem rfpt (h : Head) : Statement (.rfpt h) := by
  intro op x e
  cases e
  exact ⟨rfl, by decide⟩

theorem yield (h : Head) : Statement (.yield h) := by
  intro op x e
  cases e
  exact ⟨rfl, by decide⟩

theorem launch (h : Head) (f : FLaunch) : Statement (.launch h f) := by
  intro op x e
  cases e
  exact ⟨congrArg (fun f => some (Instr.launch h f)) f.ofBits_bits, BitVec.and_zero⟩

theorem emit (h : Head) (f : FEmit) : Statement (.emit h f) := by
  intro op x e
  cases e
  exact ⟨congrArg (fun f => some (Instr.emit h f)) f.ofBits_bits, f.reserved⟩

theorem exit (h : Head) : Statement (.exit h) := by
  intro op x e
  cases e
  exact ⟨rfl, by decide⟩

theorem await (h : Head) (f : FAwait) : Statement (.await h f) := by
  intro op x e
  cases e
  exact ⟨congrArg (fun f => some (Instr.await h f)) f.ofBits_bits, BitVec.and_zero⟩

theorem barinit (h : Head) (f : FBi) : Statement (.barinit h f) := by
  intro op x e
  cases e
  exact ⟨congrArg (fun f => some (Instr.barinit h f)) f.ofBits_bits, f.reserved⟩

theorem barjoin (h : Head) (f : FBa) : Statement (.barjoin h f) := by
  intro op x e
  cases e
  have b17 := f.bit17
  simp at b17
  refine ⟨?_, ?_⟩
  · simp [decodeOp, Instr.head, b17, f.ofBits_bits]
  · exact f.reserved_1f03f

theorem barjoinNow (h : Head) (f : FBaN) : Statement (.barjoinNow h f) := by
  intro op x e
  cases e
  have b17 := f.bit17
  simp at b17
  refine ⟨?_, ?_⟩
  · simp [decodeOp, Instr.head, b17, f.ofBits_bits]
  · exact f.reserved

theorem bararr (h : Head) (f : FBa) : Statement (.bararr h f) := by
  intro op x e
  cases e
  exact ⟨congrArg (fun f => some (Instr.bararr h f)) f.ofBits_bits, f.reserved_3f03f⟩

theorem barwait (h : Head) (f : FBa) : Statement (.barwait h f) := by
  intro op x e
  cases e
  exact ⟨congrArg (fun f => some (Instr.barwait h f)) f.ofBits_bits, f.reserved_3f03f⟩

theorem bardrop (h : Head) (f : FBa) : Statement (.bardrop h f) := by
  intro op x e
  cases e
  exact ⟨congrArg (fun f => some (Instr.bardrop h f)) f.ofBits_bits, f.reserved_3f03f⟩

theorem pbar (h : Head) : Statement (.pbar h) := by
  intro op x e
  cases e
  exact ⟨rfl, by decide⟩

theorem cvset (h : Head) (f : FCvset) : Statement (.cvset h f) := by
  intro op x e
  cases e
  exact ⟨congrArg (fun f => some (Instr.cvset h f)) f.ofBits_bits, f.reserved⟩

theorem fence (h : Head) (f : FFence) : Statement (.fence h f) := by
  intro op x e
  cases e
  exact ⟨congrArg (fun f => some (Instr.fence h f)) f.ofBits_bits, f.reserved⟩

theorem fenceSc (h : Head) : Statement (.fenceSc h) := by
  intro op x e
  cases e
  exact ⟨rfl, by decide⟩

theorem trap (h : Head) (f : FK16) : Statement (.trap h f) := by
  intro op x e
  cases e
  exact ⟨congrArg (fun f => some (Instr.trap h f)) f.ofBits_bits, f.reserved⟩

theorem rtt (h : Head) : Statement (.rtt h) := by
  intro op x e
  cases e
  exact ⟨rfl, by decide⟩

theorem rttSkip (h : Head) : Statement (.rttSkip h) := by
  intro op x e
  cases e
  exact ⟨rfl, by decide⟩

theorem brk (h : Head) (f : FK16) : Statement (.brk h f) := by
  intro op x e
  cases e
  exact ⟨congrArg (fun f => some (Instr.brk h f)) f.ofBits_bits, f.reserved⟩

theorem repl (h : Head) (f : FRepl) : Statement (.repl h f) := by
  intro op x e
  cases e
  exact ⟨congrArg (fun f => some (Instr.repl h f)) f.ofBits_bits, f.reserved⟩

theorem hmov (h : Head) (f : FHmov) : Statement (.hmov h f) := by
  intro op x e
  cases e
  exact ⟨congrArg (fun f => some (Instr.hmov h f)) f.ofBits_bits, f.reserved⟩

theorem savept (h : Head) (f : FK16) : Statement (.savept h f) := by
  intro op x e
  cases e
  exact ⟨congrArg (fun f => some (Instr.savept h f)) f.ofBits_bits, f.reserved⟩

theorem admission (ctx : Nat) (q : Nat) : Statement (.admission ctx q) := by
  intro op x e
  cases e

theorem release (l : Nat) : Statement (.release l) := by
  intro op x e
  cases e

theorem launchCompletion (l : Nat) : Statement (.launchCompletion l) := by
  intro op x e
  cases e

theorem dealRequest (l : Nat) (die : Nat) : Statement (.dealRequest l die) := by
  intro op x e
  cases e

theorem dealServe (l : Nat) : Statement (.dealServe l) := by
  intro op x e
  cases e

theorem dealReply (l : Nat) (die : Nat) : Statement (.dealReply l die) := by
  intro op x e
  cases e

theorem placementStep (die : Nat) : Statement (.placementStep die) := by
  intro op x e
  cases e

theorem starvationHold (die : Nat) (l : Nat) : Statement (.starvationHold die l) := by
  intro op x e
  cases e

theorem tileSetBind (die : Nat) (cl : Nat) : Statement (.tileSetBind die cl) := by
  intro op x e
  cases e

theorem surgeGrant (die : Nat) (cl : Nat) (core : Nat) : Statement (.surgeGrant die cl core) := by
  intro op x e
  cases e

theorem inrushGrant (die : Nat) : Statement (.inrushGrant die) := by
  intro op x e
  cases e

theorem clusterWakeEnd (die : Nat) (cl : Nat) : Statement (.clusterWakeEnd die cl) := by
  intro op x e
  cases e

theorem gateDownEnd (die : Nat) (cl : Nat) : Statement (.gateDownEnd die cl) := by
  intro op x e
  cases e

theorem quarterWakeEnd (die : Nat) (cl : Nat) (quarter : Nat) : Statement (.quarterWakeEnd die cl quarter) := by
  intro op x e
  cases e

theorem rangeClearEnd (die : Nat) (cl : Nat) (start : Nat) : Statement (.rangeClearEnd die cl start) := by
  intro op x e
  cases e

theorem schedStallExpiry (g : Nat) : Statement (.schedStallExpiry g) := by
  intro op x e
  cases e

theorem refill (g : Nat) : Statement (.refill g) := by
  intro op x e
  cases e

theorem entryUnpark (g : Nat) (pc : Nat) : Statement (.entryUnpark g pc) := by
  intro op x e
  cases e

theorem countedOpComplete (op : Nat) : Statement (.countedOpComplete op) := by
  intro op x e
  cases e

theorem bankAccess (die : Nat) (cl : Nat) (bank : Nat) : Statement (.bankAccess die cl bank) := by
  intro op x e
  cases e

theorem ldfeResend (acc : Nat) : Statement (.ldfeResend acc) := by
  intro op x e
  cases e

theorem memoryErrorDelivery (op : Nat) : Statement (.memoryErrorDelivery op) := by
  intro op x e
  cases e

theorem matrixEngineStart (die : Nat) (cl : Nat) : Statement (.matrixEngineStart die cl) := by
  intro op x e
  cases e

theorem matrixOpComplete (die : Nat) (cl : Nat) : Statement (.matrixOpComplete die cl) := by
  intro op x e
  cases e

theorem hbmPacket (die : Nat) (tag : Nat) : Statement (.hbmPacket die tag) := by
  intro op x e
  cases e

theorem hbmReply (die : Nat) (tag : Nat) : Statement (.hbmReply die tag) := by
  intro op x e
  cases e

theorem channelSlot (die : Nat) (ch : Nat) (slot : Nat) : Statement (.channelSlot die ch slot) := by
  intro op x e
  cases e

theorem pageWalkStart (die : Nat) : Statement (.pageWalkStart die) := by
  intro op x e
  cases e

theorem pageWalkDone (die : Nat) (walk : Nat) : Statement (.pageWalkDone die walk) := by
  intro op x e
  cases e

theorem tlbinvDone (die : Nat) : Statement (.tlbinvDone die) := by
  intro op x e
  cases e

theorem collapseMessage (die : Nat) (page : Nat) : Statement (.collapseMessage die page) := by
  intro op x e
  cases e

theorem collapseAck (die : Nat) (page : Nat) : Statement (.collapseAck die page) := by
  intro op x e
  cases e

theorem copyStart (die : Nat) (ch : Nat) : Statement (.copyStart die ch) := by
  intro op x e
  cases e

theorem copyComplete (cmd : Nat) : Statement (.copyComplete cmd) := by
  intro op x e
  cases e

theorem streamTagGrant (src : Nat) (dst : Nat) : Statement (.streamTagGrant src dst) := by
  intro op x e
  cases e

theorem openFlit (st : Nat) : Statement (.openFlit st) := by
  intro op x e
  cases e

theorem dataFlit (st : Nat) : Statement (.dataFlit st) := by
  intro op x e
  cases e

theorem flagFlit (st : Nat) : Statement (.flagFlit st) := by
  intro op x e
  cases e

theorem closeFlit (st : Nat) : Statement (.closeFlit st) := by
  intro op x e
  cases e

theorem itemStreamClose (src : Nat) (dst : Nat) : Statement (.itemStreamClose src dst) := by
  intro op x e
  cases e

theorem remoteWriteApply (acc : Nat) : Statement (.remoteWriteApply acc) := by
  intro op x e
  cases e

theorem primitivePacket (l : Nat) (src : Nat) (dst : Nat) : Statement (.primitivePacket l src dst) := by
  intro op x e
  cases e

theorem endMarker (l : Nat) (src : Nat) (dst : Nat) : Statement (.endMarker l src dst) := by
  intro op x e
  cases e

theorem markerSend (l : Nat) (die : Nat) (w : Nat) : Statement (.markerSend l die w) := by
  intro op x e
  cases e

theorem rasterise (l : Nat) (die : Nat) : Statement (.rasterise l die) := by
  intro op x e
  cases e

theorem colourApply (l : Nat) (die : Nat) (ticket : Nat) : Statement (.colourApply l die ticket) := by
  intro op x e
  cases e

theorem depthApply (l : Nat) (die : Nat) (ticket : Nat) : Statement (.depthApply l die ticket) := by
  intro op x e
  cases e

theorem rayTraversalEnd (acc : Nat) : Statement (.rayTraversalEnd acc) := by
  intro op x e
  cases e

theorem dieArrival (l : Nat) (die : Nat) : Statement (.dieArrival l die) := by
  intro op x e
  cases e

theorem treeArrival (l : Nat) (node : Nat) : Statement (.treeArrival l node) := by
  intro op x e
  cases e

theorem pbarRelease (l : Nat) (die : Nat) : Statement (.pbarRelease l die) := by
  intro op x e
  cases e

theorem collectiveMatch (cmd : Nat) : Statement (.collectiveMatch cmd) := by
  intro op x e
  cases e

theorem collectiveComplete (cmd : Nat) : Statement (.collectiveComplete cmd) := by
  intro op x e
  cases e

theorem relockEnd (die : Nat) : Statement (.relockEnd die) := by
  intro op x e
  cases e

theorem tickMarkerSend (die : Nat) : Statement (.tickMarkerSend die) := by
  intro op x e
  cases e

theorem tickMarker (die : Nat) : Statement (.tickMarker die) := by
  intro op x e
  cases e

theorem tickClosing (die : Nat) : Statement (.tickClosing die) := by
  intro op x e
  cases e

theorem handlerFrameGrant (die : Nat) (cl : Nat) (core : Nat) : Statement (.handlerFrameGrant die cl core) := by
  intro op x e
  cases e

theorem gangSaved (gang : Nat) : Statement (.gangSaved gang) := by
  intro op x e
  cases e

theorem haltTakesEffect (g : Nat) : Statement (.haltTakesEffect g) := by
  intro op x e
  cases e

theorem continuationReady (r : Nat) : Statement (.continuationReady r) := by
  intro op x e
  cases e

theorem groupRetire (g : Nat) : Statement (.groupRetire g) := by
  intro op x e
  cases e

theorem gangRetire (gang : Nat) : Statement (.gangRetire gang) := by
  intro op x e
  cases e

theorem watchdogScanout (die : Nat) (cl : Nat) (core : Nat) : Statement (.watchdogScanout die cl core) := by
  intro op x e
  cases e

theorem wdtRestart (die : Nat) : Statement (.wdtRestart die) := by
  intro op x e
  cases e

theorem peerAcknowledgement (acc : Nat) : Statement (.peerAcknowledgement acc) := by
  intro op x e
  cases e

theorem hostLinkReply (acc : Nat) : Statement (.hostLinkReply acc) := by
  intro op x e
  cases e

theorem remoteReadReply (acc : Nat) : Statement (.remoteReadReply acc) := by
  intro op x e
  cases e

theorem doorbellWrite (ctx : Nat) (q : Nat) (tail : BitVec 48) : Statement (.doorbellWrite ctx q tail) := by
  intro op x e
  cases e

theorem descriptorWrite (ctx : Nat) (q : Nat) (d : BitVec 256) : Statement (.descriptorWrite ctx q d) := by
  intro op x e
  cases e

theorem clusterGate (die : Nat) (cl : Nat) : Statement (.clusterGate die cl) := by
  intro op x e
  cases e

theorem storeQuarterGate (die : Nat) (cl : Nat) (quarter : Nat) : Statement (.storeQuarterGate die cl quarter) := by
  intro op x e
  cases e

theorem dieCacheWayGate (die : Nat) (ways : Nat) : Statement (.dieCacheWayGate die ways) := by
  intro op x e
  cases e

theorem dieCacheWayWake (die : Nat) (ways : Nat) : Statement (.dieCacheWayWake die ways) := by
  intro op x e
  cases e

theorem levelRaise (g : Nat) : Statement (.levelRaise g) := by
  intro op x e
  cases e

theorem tileWindowWrite (die : Nat) (cl : Nat) (off : Nat) (v : BitVec 32) : Statement (.tileWindowWrite die cl off v) := by
  intro op x e
  cases e

theorem tlbinv (die : Nat) (v : BitVec 128) : Statement (.tlbinv die v) := by
  intro op x e
  cases e

theorem frequencyStep (die : Nat) (f : Nat) : Statement (.frequencyStep die f) := by
  intro op x e
  cases e

theorem trapresRetry (die : Nat) (ctx : Nat) (grp : Word) : Statement (.trapresRetry die ctx grp) := by
  intro op x e
  cases e

theorem trapresForward (die : Nat) (ctx : Nat) (grp : Word) : Statement (.trapresForward die ctx grp) := by
  intro op x e
  cases e

theorem trapresTerminate (die : Nat) (ctx : Nat) (grp : Word) : Statement (.trapresTerminate die ctx grp) := by
  intro op x e
  cases e

theorem preempt (die : Nat) (v : BitVec 128) : Statement (.preempt die v) := by
  intro op x e
  cases e

theorem dbgHalt (die : Nat) (v : BitVec 128) : Statement (.dbgHalt die v) := by
  intro op x e
  cases e

theorem dbgResume (die : Nat) (v : BitVec 128) : Statement (.dbgResume die v) := by
  intro op x e
  cases e

theorem dbgStep (die : Nat) (v : BitVec 128) : Statement (.dbgStep die v) := by
  intro op x e
  cases e

theorem edgeFailure (px : Nat) (py : Nat) (dir : Nat) : Statement (.edgeFailure px py dir) := by
  intro op x e
  cases e

theorem hostLinkPortFail (port : Nat) : Statement (.hostLinkPortFail port) := by
  intro op x e
  cases e

theorem dieFailed (die : Nat) : Statement (.dieFailed die) := by
  intro op x e
  cases e

theorem wdtctlWrite (die : Nat) (v : BitVec 64) : Statement (.wdtctlWrite die v) := by
  intro op x e
  cases e

theorem powerUp : Statement (.powerUp) := by
  intro op x e
  cases e

theorem imageUpdate (sigOk : Bool) (secVer : Nat) : Statement (.imageUpdate sigOk secVer) := by
  intro op x e
  cases e

theorem recoveryImageLoad (sigOk : Bool) (secVer : Nat) : Statement (.recoveryImageLoad sigOk secVer) := by
  intro op x e
  cases e

theorem getVersion : Statement (.getVersion) := by
  intro op x e
  cases e

theorem getCapabilities : Statement (.getCapabilities) := by
  intro op x e
  cases e

theorem negotiateAlgorithms : Statement (.negotiateAlgorithms) := by
  intro op x e
  cases e

theorem getDigests : Statement (.getDigests) := by
  intro op x e
  cases e

theorem getCertificate : Statement (.getCertificate) := by
  intro op x e
  cases e

theorem challenge (nonce : Nat) : Statement (.challenge nonce) := by
  intro op x e
  cases e

theorem getMeasurements : Statement (.getMeasurements) := by
  intro op x e
  cases e

theorem hostWindowWrite (n : Nat) (v : BitVec 128) : Statement (.hostWindowWrite n v) := by
  intro op x e
  cases e

theorem peerPortEnable (n : Nat) : Statement (.peerPortEnable n) := by
  intro op x e
  cases e

theorem correctedErrorRetire (die : Nat) (page : Nat) : Statement (.correctedErrorRetire die page) := by
  intro op x e
  cases e

theorem powerWindow (now : BitVec 16) : Statement (.powerWindow now) := by
  intro op x e
  cases e

theorem pkgpwrWrite (limit : BitVec 16) : Statement (.pkgpwrWrite limit) := by
  intro op x e
  cases e

theorem currentLimitTrip (amps : Nat) : Statement (.currentLimitTrip amps) := by
  intro op x e
  cases e

theorem currentLimitRelease (amps : Nat) : Statement (.currentLimitRelease amps) := by
  intro op x e
  cases e

theorem thermalStep (die : Nat) (degC : Nat) : Statement (.thermalStep die degC) := by
  intro op x e
  cases e

theorem thermalTrip (degC : Nat) : Statement (.thermalTrip degC) := by
  intro op x e
  cases e

theorem registerWrite (r : CtrlReg) (v : BitVec 512) : Statement (.registerWrite r v) := by
  intro op x e
  cases e

theorem powerLoss (logBytes : Nat) : Statement (.powerLoss logBytes) := by
  intro op x e
  cases e

theorem peerPortFail (n : Nat) : Statement (.peerPortFail n) := by
  intro op x e
  cases e

theorem hostMemoryAccess (a : HostAccess) : Statement (.hostMemoryAccess a) := by
  intro op x e
  cases e

end Sys2Proof.Laws.Encoding
end

