-- ==== Sys2Proof/Laws/Traffic.lean ====
section
/-! SUPPORT. Traffic: what the updates of accesses, streams and commands in progress leave alone, one lemma for each field, and
which fields the shared operations over them can change. -/

set_option Elab.async false

namespace Sys2Proof.Machine.State

@[simp] theorem updAcc_mem (s : State) (id : Nat) (f : Access → Access) : (s.updAcc id f).mem = s.mem := rfl
@[simp] theorem updAcc_full (s : State) (id : Nat) (f : Access → Access) : (s.updAcc id f).full = s.full := rfl
@[simp] theorem updAcc_poison (s : State) (id : Nat) (f : Access → Access) : (s.updAcc id f).poison = s.poison := rfl
@[simp] theorem updAcc_groups (s : State) (id : Nat) (f : Access → Access) : (s.updAcc id f).groups = s.groups := rfl
@[simp] theorem updAcc_gangs (s : State) (id : Nat) (f : Access → Access) : (s.updAcc id f).gangs = s.gangs := rfl
@[simp] theorem updAcc_launches (s : State) (id : Nat) (f : Access → Access) : (s.updAcc id f).launches = s.launches := rfl
@[simp] theorem updAcc_ctxs (s : State) (id : Nat) (f : Access → Access) : (s.updAcc id f).ctxs = s.ctxs := rfl
@[simp] theorem updAcc_dies (s : State) (id : Nat) (f : Access → Access) : (s.updAcc id f).dies = s.dies := rfl
@[simp] theorem updAcc_clusters (s : State) (id : Nat) (f : Access → Access) : (s.updAcc id f).clusters = s.clusters := rfl
@[simp] theorem updAcc_ops (s : State) (id : Nat) (f : Access → Access) : (s.updAcc id f).ops = s.ops := rfl
@[simp] theorem updAcc_lastOp (s : State) (id : Nat) (f : Access → Access) : (s.updAcc id f).lastOp = s.lastOp := rfl
@[simp] theorem updAcc_conts (s : State) (id : Nat) (f : Access → Access) : (s.updAcc id f).conts = s.conts := rfl
@[simp] theorem updAcc_walks (s : State) (id : Nat) (f : Access → Access) : (s.updAcc id f).walks = s.walks := rfl
@[simp] theorem updAcc_collapses (s : State) (id : Nat) (f : Access → Access) : (s.updAcc id f).collapses = s.collapses := rfl
@[simp] theorem updAcc_active (s : State) (id : Nat) (f : Access → Access) : (s.updAcc id f).active = s.active := rfl
@[simp] theorem updAcc_colls (s : State) (id : Nat) (f : Access → Access) : (s.updAcc id f).colls = s.colls := rfl
@[simp] theorem updAcc_streams (s : State) (id : Nat) (f : Access → Access) : (s.updAcc id f).streams = s.streams := rfl
@[simp] theorem updAcc_reqs (s : State) (id : Nat) (f : Access → Access) : (s.updAcc id f).reqs = s.reqs := rfl
@[simp] theorem updAcc_ticks (s : State) (id : Nat) (f : Access → Access) : (s.updAcc id f).ticks = s.ticks := rfl
@[simp] theorem updAcc_closed (s : State) (id : Nat) (f : Access → Access) : (s.updAcc id f).closed = s.closed := rfl
@[simp] theorem updAcc_gtime (s : State) (id : Nat) (f : Access → Access) : (s.updAcc id f).gtime = s.gtime := rfl
@[simp] theorem updAcc_pkg (s : State) (id : Nat) (f : Access → Access) : (s.updAcc id f).pkg = s.pkg := rfl
@[simp] theorem updAcc_agenda (s : State) (id : Nat) (f : Access → Access) : (s.updAcc id f).agenda = s.agenda := rfl
@[simp] theorem updAcc_cur (s : State) (id : Nat) (f : Access → Access) : (s.updAcc id f).cur = s.cur := rfl
@[simp] theorem updAcc_draw (s : State) (id : Nat) (f : Access → Access) : (s.updAcc id f).draw = s.draw := rfl
@[simp] theorem updAcc_next (s : State) (id : Nat) (f : Access → Access) : (s.updAcc id f).next = s.next := rfl

@[simp] theorem dropAcc_mem (s : State) (id : Nat) : (s.dropAcc id).mem = s.mem := rfl
@[simp] theorem dropAcc_full (s : State) (id : Nat) : (s.dropAcc id).full = s.full := rfl
@[simp] theorem dropAcc_poison (s : State) (id : Nat) : (s.dropAcc id).poison = s.poison := rfl
@[simp] theorem dropAcc_groups (s : State) (id : Nat) : (s.dropAcc id).groups = s.groups := rfl
@[simp] theorem dropAcc_gangs (s : State) (id : Nat) : (s.dropAcc id).gangs = s.gangs := rfl
@[simp] theorem dropAcc_launches (s : State) (id : Nat) : (s.dropAcc id).launches = s.launches := rfl
@[simp] theorem dropAcc_ctxs (s : State) (id : Nat) : (s.dropAcc id).ctxs = s.ctxs := rfl
@[simp] theorem dropAcc_dies (s : State) (id : Nat) : (s.dropAcc id).dies = s.dies := rfl
@[simp] theorem dropAcc_clusters (s : State) (id : Nat) : (s.dropAcc id).clusters = s.clusters := rfl
@[simp] theorem dropAcc_ops (s : State) (id : Nat) : (s.dropAcc id).ops = s.ops := rfl
@[simp] theorem dropAcc_lastOp (s : State) (id : Nat) : (s.dropAcc id).lastOp = s.lastOp := rfl
@[simp] theorem dropAcc_conts (s : State) (id : Nat) : (s.dropAcc id).conts = s.conts := rfl
@[simp] theorem dropAcc_walks (s : State) (id : Nat) : (s.dropAcc id).walks = s.walks := rfl
@[simp] theorem dropAcc_collapses (s : State) (id : Nat) : (s.dropAcc id).collapses = s.collapses := rfl
@[simp] theorem dropAcc_active (s : State) (id : Nat) : (s.dropAcc id).active = s.active := rfl
@[simp] theorem dropAcc_colls (s : State) (id : Nat) : (s.dropAcc id).colls = s.colls := rfl
@[simp] theorem dropAcc_streams (s : State) (id : Nat) : (s.dropAcc id).streams = s.streams := rfl
@[simp] theorem dropAcc_reqs (s : State) (id : Nat) : (s.dropAcc id).reqs = s.reqs := rfl
@[simp] theorem dropAcc_ticks (s : State) (id : Nat) : (s.dropAcc id).ticks = s.ticks := rfl
@[simp] theorem dropAcc_closed (s : State) (id : Nat) : (s.dropAcc id).closed = s.closed := rfl
@[simp] theorem dropAcc_gtime (s : State) (id : Nat) : (s.dropAcc id).gtime = s.gtime := rfl
@[simp] theorem dropAcc_pkg (s : State) (id : Nat) : (s.dropAcc id).pkg = s.pkg := rfl
@[simp] theorem dropAcc_agenda (s : State) (id : Nat) : (s.dropAcc id).agenda = s.agenda := rfl
@[simp] theorem dropAcc_cur (s : State) (id : Nat) : (s.dropAcc id).cur = s.cur := rfl
@[simp] theorem dropAcc_draw (s : State) (id : Nat) : (s.dropAcc id).draw = s.draw := rfl
@[simp] theorem dropAcc_next (s : State) (id : Nat) : (s.dropAcc id).next = s.next := rfl

@[simp] theorem updStream_mem (s : State) (id : Nat) (f : Stream → Stream) : (s.updStream id f).mem = s.mem := rfl
@[simp] theorem updStream_full (s : State) (id : Nat) (f : Stream → Stream) : (s.updStream id f).full = s.full := rfl
@[simp] theorem updStream_poison (s : State) (id : Nat) (f : Stream → Stream) : (s.updStream id f).poison = s.poison := rfl
@[simp] theorem updStream_groups (s : State) (id : Nat) (f : Stream → Stream) : (s.updStream id f).groups = s.groups := rfl
@[simp] theorem updStream_gangs (s : State) (id : Nat) (f : Stream → Stream) : (s.updStream id f).gangs = s.gangs := rfl
@[simp] theorem updStream_launches (s : State) (id : Nat) (f : Stream → Stream) : (s.updStream id f).launches = s.launches := rfl
@[simp] theorem updStream_ctxs (s : State) (id : Nat) (f : Stream → Stream) : (s.updStream id f).ctxs = s.ctxs := rfl
@[simp] theorem updStream_dies (s : State) (id : Nat) (f : Stream → Stream) : (s.updStream id f).dies = s.dies := rfl
@[simp] theorem updStream_clusters (s : State) (id : Nat) (f : Stream → Stream) : (s.updStream id f).clusters = s.clusters := rfl
@[simp] theorem updStream_accs (s : State) (id : Nat) (f : Stream → Stream) : (s.updStream id f).accs = s.accs := rfl
@[simp] theorem updStream_ops (s : State) (id : Nat) (f : Stream → Stream) : (s.updStream id f).ops = s.ops := rfl
@[simp] theorem updStream_lastOp (s : State) (id : Nat) (f : Stream → Stream) : (s.updStream id f).lastOp = s.lastOp := rfl
@[simp] theorem updStream_conts (s : State) (id : Nat) (f : Stream → Stream) : (s.updStream id f).conts = s.conts := rfl
@[simp] theorem updStream_walks (s : State) (id : Nat) (f : Stream → Stream) : (s.updStream id f).walks = s.walks := rfl
@[simp] theorem updStream_collapses (s : State) (id : Nat) (f : Stream → Stream) : (s.updStream id f).collapses = s.collapses := rfl
@[simp] theorem updStream_active (s : State) (id : Nat) (f : Stream → Stream) : (s.updStream id f).active = s.active := rfl
@[simp] theorem updStream_colls (s : State) (id : Nat) (f : Stream → Stream) : (s.updStream id f).colls = s.colls := rfl
@[simp] theorem updStream_reqs (s : State) (id : Nat) (f : Stream → Stream) : (s.updStream id f).reqs = s.reqs := rfl
@[simp] theorem updStream_ticks (s : State) (id : Nat) (f : Stream → Stream) : (s.updStream id f).ticks = s.ticks := rfl
@[simp] theorem updStream_closed (s : State) (id : Nat) (f : Stream → Stream) : (s.updStream id f).closed = s.closed := rfl
@[simp] theorem updStream_gtime (s : State) (id : Nat) (f : Stream → Stream) : (s.updStream id f).gtime = s.gtime := rfl
@[simp] theorem updStream_pkg (s : State) (id : Nat) (f : Stream → Stream) : (s.updStream id f).pkg = s.pkg := rfl
@[simp] theorem updStream_agenda (s : State) (id : Nat) (f : Stream → Stream) : (s.updStream id f).agenda = s.agenda := rfl
@[simp] theorem updStream_cur (s : State) (id : Nat) (f : Stream → Stream) : (s.updStream id f).cur = s.cur := rfl
@[simp] theorem updStream_draw (s : State) (id : Nat) (f : Stream → Stream) : (s.updStream id f).draw = s.draw := rfl
@[simp] theorem updStream_next (s : State) (id : Nat) (f : Stream → Stream) : (s.updStream id f).next = s.next := rfl

@[simp] theorem updActive_mem (s : State) (cmd : Nat) (f : Active → Active) : (s.updActive cmd f).mem = s.mem := rfl
@[simp] theorem updActive_full (s : State) (cmd : Nat) (f : Active → Active) : (s.updActive cmd f).full = s.full := rfl
@[simp] theorem updActive_poison (s : State) (cmd : Nat) (f : Active → Active) : (s.updActive cmd f).poison = s.poison := rfl
@[simp] theorem updActive_groups (s : State) (cmd : Nat) (f : Active → Active) : (s.updActive cmd f).groups = s.groups := rfl
@[simp] theorem updActive_gangs (s : State) (cmd : Nat) (f : Active → Active) : (s.updActive cmd f).gangs = s.gangs := rfl
@[simp] theorem updActive_launches (s : State) (cmd : Nat) (f : Active → Active) : (s.updActive cmd f).launches = s.launches := rfl
@[simp] theorem updActive_ctxs (s : State) (cmd : Nat) (f : Active → Active) : (s.updActive cmd f).ctxs = s.ctxs := rfl
@[simp] theorem updActive_dies (s : State) (cmd : Nat) (f : Active → Active) : (s.updActive cmd f).dies = s.dies := rfl
@[simp] theorem updActive_clusters (s : State) (cmd : Nat) (f : Active → Active) : (s.updActive cmd f).clusters = s.clusters := rfl
@[simp] theorem updActive_accs (s : State) (cmd : Nat) (f : Active → Active) : (s.updActive cmd f).accs = s.accs := rfl
@[simp] theorem updActive_ops (s : State) (cmd : Nat) (f : Active → Active) : (s.updActive cmd f).ops = s.ops := rfl
@[simp] theorem updActive_lastOp (s : State) (cmd : Nat) (f : Active → Active) : (s.updActive cmd f).lastOp = s.lastOp := rfl
@[simp] theorem updActive_conts (s : State) (cmd : Nat) (f : Active → Active) : (s.updActive cmd f).conts = s.conts := rfl
@[simp] theorem updActive_walks (s : State) (cmd : Nat) (f : Active → Active) : (s.updActive cmd f).walks = s.walks := rfl
@[simp] theorem updActive_collapses (s : State) (cmd : Nat) (f : Active → Active) : (s.updActive cmd f).collapses = s.collapses := rfl
@[simp] theorem updActive_colls (s : State) (cmd : Nat) (f : Active → Active) : (s.updActive cmd f).colls = s.colls := rfl
@[simp] theorem updActive_streams (s : State) (cmd : Nat) (f : Active → Active) : (s.updActive cmd f).streams = s.streams := rfl
@[simp] theorem updActive_reqs (s : State) (cmd : Nat) (f : Active → Active) : (s.updActive cmd f).reqs = s.reqs := rfl
@[simp] theorem updActive_ticks (s : State) (cmd : Nat) (f : Active → Active) : (s.updActive cmd f).ticks = s.ticks := rfl
@[simp] theorem updActive_closed (s : State) (cmd : Nat) (f : Active → Active) : (s.updActive cmd f).closed = s.closed := rfl
@[simp] theorem updActive_gtime (s : State) (cmd : Nat) (f : Active → Active) : (s.updActive cmd f).gtime = s.gtime := rfl
@[simp] theorem updActive_pkg (s : State) (cmd : Nat) (f : Active → Active) : (s.updActive cmd f).pkg = s.pkg := rfl
@[simp] theorem updActive_agenda (s : State) (cmd : Nat) (f : Active → Active) : (s.updActive cmd f).agenda = s.agenda := rfl
@[simp] theorem updActive_cur (s : State) (cmd : Nat) (f : Active → Active) : (s.updActive cmd f).cur = s.cur := rfl
@[simp] theorem updActive_draw (s : State) (cmd : Nat) (f : Active → Active) : (s.updActive cmd f).draw = s.draw := rfl
@[simp] theorem updActive_next (s : State) (cmd : Nat) (f : Active → Active) : (s.updActive cmd f).next = s.next := rfl

@[simp] theorem updReq_mem (s : State) (id : Nat) (f : UnitReq → UnitReq) : (s.updReq id f).mem = s.mem := rfl
@[simp] theorem updReq_full (s : State) (id : Nat) (f : UnitReq → UnitReq) : (s.updReq id f).full = s.full := rfl
@[simp] theorem updReq_poison (s : State) (id : Nat) (f : UnitReq → UnitReq) : (s.updReq id f).poison = s.poison := rfl
@[simp] theorem updReq_groups (s : State) (id : Nat) (f : UnitReq → UnitReq) : (s.updReq id f).groups = s.groups := rfl
@[simp] theorem updReq_gangs (s : State) (id : Nat) (f : UnitReq → UnitReq) : (s.updReq id f).gangs = s.gangs := rfl
@[simp] theorem updReq_launches (s : State) (id : Nat) (f : UnitReq → UnitReq) : (s.updReq id f).launches = s.launches := rfl
@[simp] theorem updReq_ctxs (s : State) (id : Nat) (f : UnitReq → UnitReq) : (s.updReq id f).ctxs = s.ctxs := rfl
@[simp] theorem updReq_dies (s : State) (id : Nat) (f : UnitReq → UnitReq) : (s.updReq id f).dies = s.dies := rfl
@[simp] theorem updReq_clusters (s : State) (id : Nat) (f : UnitReq → UnitReq) : (s.updReq id f).clusters = s.clusters := rfl
@[simp] theorem updReq_accs (s : State) (id : Nat) (f : UnitReq → UnitReq) : (s.updReq id f).accs = s.accs := rfl
@[simp] theorem updReq_ops (s : State) (id : Nat) (f : UnitReq → UnitReq) : (s.updReq id f).ops = s.ops := rfl
@[simp] theorem updReq_lastOp (s : State) (id : Nat) (f : UnitReq → UnitReq) : (s.updReq id f).lastOp = s.lastOp := rfl
@[simp] theorem updReq_conts (s : State) (id : Nat) (f : UnitReq → UnitReq) : (s.updReq id f).conts = s.conts := rfl
@[simp] theorem updReq_walks (s : State) (id : Nat) (f : UnitReq → UnitReq) : (s.updReq id f).walks = s.walks := rfl
@[simp] theorem updReq_collapses (s : State) (id : Nat) (f : UnitReq → UnitReq) : (s.updReq id f).collapses = s.collapses := rfl
@[simp] theorem updReq_active (s : State) (id : Nat) (f : UnitReq → UnitReq) : (s.updReq id f).active = s.active := rfl
@[simp] theorem updReq_colls (s : State) (id : Nat) (f : UnitReq → UnitReq) : (s.updReq id f).colls = s.colls := rfl
@[simp] theorem updReq_streams (s : State) (id : Nat) (f : UnitReq → UnitReq) : (s.updReq id f).streams = s.streams := rfl
@[simp] theorem updReq_ticks (s : State) (id : Nat) (f : UnitReq → UnitReq) : (s.updReq id f).ticks = s.ticks := rfl
@[simp] theorem updReq_closed (s : State) (id : Nat) (f : UnitReq → UnitReq) : (s.updReq id f).closed = s.closed := rfl
@[simp] theorem updReq_gtime (s : State) (id : Nat) (f : UnitReq → UnitReq) : (s.updReq id f).gtime = s.gtime := rfl
@[simp] theorem updReq_pkg (s : State) (id : Nat) (f : UnitReq → UnitReq) : (s.updReq id f).pkg = s.pkg := rfl
@[simp] theorem updReq_agenda (s : State) (id : Nat) (f : UnitReq → UnitReq) : (s.updReq id f).agenda = s.agenda := rfl
@[simp] theorem updReq_cur (s : State) (id : Nat) (f : UnitReq → UnitReq) : (s.updReq id f).cur = s.cur := rfl
@[simp] theorem updReq_draw (s : State) (id : Nat) (f : UnitReq → UnitReq) : (s.updReq id f).draw = s.draw := rfl
@[simp] theorem updReq_next (s : State) (id : Nat) (f : UnitReq → UnitReq) : (s.updReq id f).next = s.next := rfl

@[simp] theorem endReqs_mem (s : State) (o : Owner) : (s.endReqs o).mem = s.mem := rfl
@[simp] theorem endReqs_full (s : State) (o : Owner) : (s.endReqs o).full = s.full := rfl
@[simp] theorem endReqs_poison (s : State) (o : Owner) : (s.endReqs o).poison = s.poison := rfl
@[simp] theorem endReqs_groups (s : State) (o : Owner) : (s.endReqs o).groups = s.groups := rfl
@[simp] theorem endReqs_gangs (s : State) (o : Owner) : (s.endReqs o).gangs = s.gangs := rfl
@[simp] theorem endReqs_launches (s : State) (o : Owner) : (s.endReqs o).launches = s.launches := rfl
@[simp] theorem endReqs_ctxs (s : State) (o : Owner) : (s.endReqs o).ctxs = s.ctxs := rfl
@[simp] theorem endReqs_dies (s : State) (o : Owner) : (s.endReqs o).dies = s.dies := rfl
@[simp] theorem endReqs_clusters (s : State) (o : Owner) : (s.endReqs o).clusters = s.clusters := rfl
@[simp] theorem endReqs_accs (s : State) (o : Owner) : (s.endReqs o).accs = s.accs := rfl
@[simp] theorem endReqs_ops (s : State) (o : Owner) : (s.endReqs o).ops = s.ops := rfl
@[simp] theorem endReqs_lastOp (s : State) (o : Owner) : (s.endReqs o).lastOp = s.lastOp := rfl
@[simp] theorem endReqs_conts (s : State) (o : Owner) : (s.endReqs o).conts = s.conts := rfl
@[simp] theorem endReqs_walks (s : State) (o : Owner) : (s.endReqs o).walks = s.walks := rfl
@[simp] theorem endReqs_collapses (s : State) (o : Owner) : (s.endReqs o).collapses = s.collapses := rfl
@[simp] theorem endReqs_active (s : State) (o : Owner) : (s.endReqs o).active = s.active := rfl
@[simp] theorem endReqs_colls (s : State) (o : Owner) : (s.endReqs o).colls = s.colls := rfl
@[simp] theorem endReqs_streams (s : State) (o : Owner) : (s.endReqs o).streams = s.streams := rfl
@[simp] theorem endReqs_ticks (s : State) (o : Owner) : (s.endReqs o).ticks = s.ticks := rfl
@[simp] theorem endReqs_closed (s : State) (o : Owner) : (s.endReqs o).closed = s.closed := rfl
@[simp] theorem endReqs_gtime (s : State) (o : Owner) : (s.endReqs o).gtime = s.gtime := rfl
@[simp] theorem endReqs_pkg (s : State) (o : Owner) : (s.endReqs o).pkg = s.pkg := rfl
@[simp] theorem endReqs_agenda (s : State) (o : Owner) : (s.endReqs o).agenda = s.agenda := rfl
@[simp] theorem endReqs_cur (s : State) (o : Owner) : (s.endReqs o).cur = s.cur := rfl
@[simp] theorem endReqs_draw (s : State) (o : Owner) : (s.endReqs o).draw = s.draw := rfl
@[simp] theorem endReqs_next (s : State) (o : Owner) : (s.endReqs o).next = s.next := rfl

@[simp] theorem pruneReqs_mem (s : State)  : (s.pruneReqs).mem = s.mem := rfl
@[simp] theorem pruneReqs_full (s : State)  : (s.pruneReqs).full = s.full := rfl
@[simp] theorem pruneReqs_poison (s : State)  : (s.pruneReqs).poison = s.poison := rfl
@[simp] theorem pruneReqs_groups (s : State)  : (s.pruneReqs).groups = s.groups := rfl
@[simp] theorem pruneReqs_gangs (s : State)  : (s.pruneReqs).gangs = s.gangs := rfl
@[simp] theorem pruneReqs_launches (s : State)  : (s.pruneReqs).launches = s.launches := rfl
@[simp] theorem pruneReqs_ctxs (s : State)  : (s.pruneReqs).ctxs = s.ctxs := rfl
@[simp] theorem pruneReqs_dies (s : State)  : (s.pruneReqs).dies = s.dies := rfl
@[simp] theorem pruneReqs_clusters (s : State)  : (s.pruneReqs).clusters = s.clusters := rfl
@[simp] theorem pruneReqs_accs (s : State)  : (s.pruneReqs).accs = s.accs := rfl
@[simp] theorem pruneReqs_ops (s : State)  : (s.pruneReqs).ops = s.ops := rfl
@[simp] theorem pruneReqs_lastOp (s : State)  : (s.pruneReqs).lastOp = s.lastOp := rfl
@[simp] theorem pruneReqs_conts (s : State)  : (s.pruneReqs).conts = s.conts := rfl
@[simp] theorem pruneReqs_walks (s : State)  : (s.pruneReqs).walks = s.walks := rfl
@[simp] theorem pruneReqs_collapses (s : State)  : (s.pruneReqs).collapses = s.collapses := rfl
@[simp] theorem pruneReqs_active (s : State)  : (s.pruneReqs).active = s.active := rfl
@[simp] theorem pruneReqs_colls (s : State)  : (s.pruneReqs).colls = s.colls := rfl
@[simp] theorem pruneReqs_streams (s : State)  : (s.pruneReqs).streams = s.streams := rfl
@[simp] theorem pruneReqs_ticks (s : State)  : (s.pruneReqs).ticks = s.ticks := rfl
@[simp] theorem pruneReqs_closed (s : State)  : (s.pruneReqs).closed = s.closed := rfl
@[simp] theorem pruneReqs_gtime (s : State)  : (s.pruneReqs).gtime = s.gtime := rfl
@[simp] theorem pruneReqs_pkg (s : State)  : (s.pruneReqs).pkg = s.pkg := rfl
@[simp] theorem pruneReqs_agenda (s : State)  : (s.pruneReqs).agenda = s.agenda := rfl
@[simp] theorem pruneReqs_cur (s : State)  : (s.pruneReqs).cur = s.cur := rfl
@[simp] theorem pruneReqs_draw (s : State)  : (s.pruneReqs).draw = s.draw := rfl
@[simp] theorem pruneReqs_next (s : State)  : (s.pruneReqs).next = s.next := rfl

@[simp] theorem addReq_mem (s : State) (q : Asker) (w : Bool) (l : Nat) : (s.addReq q w l).mem = s.mem := rfl
@[simp] theorem addReq_full (s : State) (q : Asker) (w : Bool) (l : Nat) : (s.addReq q w l).full = s.full := rfl
@[simp] theorem addReq_poison (s : State) (q : Asker) (w : Bool) (l : Nat) : (s.addReq q w l).poison = s.poison := rfl
@[simp] theorem addReq_groups (s : State) (q : Asker) (w : Bool) (l : Nat) : (s.addReq q w l).groups = s.groups := rfl
@[simp] theorem addReq_gangs (s : State) (q : Asker) (w : Bool) (l : Nat) : (s.addReq q w l).gangs = s.gangs := rfl
@[simp] theorem addReq_launches (s : State) (q : Asker) (w : Bool) (l : Nat) : (s.addReq q w l).launches = s.launches := rfl
@[simp] theorem addReq_ctxs (s : State) (q : Asker) (w : Bool) (l : Nat) : (s.addReq q w l).ctxs = s.ctxs := rfl
@[simp] theorem addReq_dies (s : State) (q : Asker) (w : Bool) (l : Nat) : (s.addReq q w l).dies = s.dies := rfl
@[simp] theorem addReq_clusters (s : State) (q : Asker) (w : Bool) (l : Nat) : (s.addReq q w l).clusters = s.clusters := rfl
@[simp] theorem addReq_accs (s : State) (q : Asker) (w : Bool) (l : Nat) : (s.addReq q w l).accs = s.accs := rfl
@[simp] theorem addReq_ops (s : State) (q : Asker) (w : Bool) (l : Nat) : (s.addReq q w l).ops = s.ops := rfl
@[simp] theorem addReq_lastOp (s : State) (q : Asker) (w : Bool) (l : Nat) : (s.addReq q w l).lastOp = s.lastOp := rfl
@[simp] theorem addReq_conts (s : State) (q : Asker) (w : Bool) (l : Nat) : (s.addReq q w l).conts = s.conts := rfl
@[simp] theorem addReq_walks (s : State) (q : Asker) (w : Bool) (l : Nat) : (s.addReq q w l).walks = s.walks := rfl
@[simp] theorem addReq_collapses (s : State) (q : Asker) (w : Bool) (l : Nat) : (s.addReq q w l).collapses = s.collapses := rfl
@[simp] theorem addReq_active (s : State) (q : Asker) (w : Bool) (l : Nat) : (s.addReq q w l).active = s.active := rfl
@[simp] theorem addReq_colls (s : State) (q : Asker) (w : Bool) (l : Nat) : (s.addReq q w l).colls = s.colls := rfl
@[simp] theorem addReq_streams (s : State) (q : Asker) (w : Bool) (l : Nat) : (s.addReq q w l).streams = s.streams := rfl
@[simp] theorem addReq_ticks (s : State) (q : Asker) (w : Bool) (l : Nat) : (s.addReq q w l).ticks = s.ticks := rfl
@[simp] theorem addReq_closed (s : State) (q : Asker) (w : Bool) (l : Nat) : (s.addReq q w l).closed = s.closed := rfl
@[simp] theorem addReq_gtime (s : State) (q : Asker) (w : Bool) (l : Nat) : (s.addReq q w l).gtime = s.gtime := rfl
@[simp] theorem addReq_pkg (s : State) (q : Asker) (w : Bool) (l : Nat) : (s.addReq q w l).pkg = s.pkg := rfl
@[simp] theorem addReq_agenda (s : State) (q : Asker) (w : Bool) (l : Nat) : (s.addReq q w l).agenda = s.agenda := rfl
@[simp] theorem addReq_cur (s : State) (q : Asker) (w : Bool) (l : Nat) : (s.addReq q w l).cur = s.cur := rfl
@[simp] theorem addReq_draw (s : State) (q : Asker) (w : Bool) (l : Nat) : (s.addReq q w l).draw = s.draw := rfl

@[simp] theorem useWalks_mem (s : State) (die ctx : Nat) (vas : List Nat) : (s.useWalks die ctx vas).mem = s.mem := rfl
@[simp] theorem useWalks_full (s : State) (die ctx : Nat) (vas : List Nat) : (s.useWalks die ctx vas).full = s.full := rfl
@[simp] theorem useWalks_poison (s : State) (die ctx : Nat) (vas : List Nat) : (s.useWalks die ctx vas).poison = s.poison := rfl
@[simp] theorem useWalks_groups (s : State) (die ctx : Nat) (vas : List Nat) : (s.useWalks die ctx vas).groups = s.groups := rfl
@[simp] theorem useWalks_gangs (s : State) (die ctx : Nat) (vas : List Nat) : (s.useWalks die ctx vas).gangs = s.gangs := rfl
@[simp] theorem useWalks_launches (s : State) (die ctx : Nat) (vas : List Nat) : (s.useWalks die ctx vas).launches = s.launches := rfl
@[simp] theorem useWalks_ctxs (s : State) (die ctx : Nat) (vas : List Nat) : (s.useWalks die ctx vas).ctxs = s.ctxs := rfl
@[simp] theorem useWalks_dies (s : State) (die ctx : Nat) (vas : List Nat) : (s.useWalks die ctx vas).dies = s.dies := rfl
@[simp] theorem useWalks_clusters (s : State) (die ctx : Nat) (vas : List Nat) : (s.useWalks die ctx vas).clusters = s.clusters := rfl
@[simp] theorem useWalks_accs (s : State) (die ctx : Nat) (vas : List Nat) : (s.useWalks die ctx vas).accs = s.accs := rfl
@[simp] theorem useWalks_ops (s : State) (die ctx : Nat) (vas : List Nat) : (s.useWalks die ctx vas).ops = s.ops := rfl
@[simp] theorem useWalks_lastOp (s : State) (die ctx : Nat) (vas : List Nat) : (s.useWalks die ctx vas).lastOp = s.lastOp := rfl
@[simp] theorem useWalks_conts (s : State) (die ctx : Nat) (vas : List Nat) : (s.useWalks die ctx vas).conts = s.conts := rfl
@[simp] theorem useWalks_collapses (s : State) (die ctx : Nat) (vas : List Nat) : (s.useWalks die ctx vas).collapses = s.collapses := rfl
@[simp] theorem useWalks_active (s : State) (die ctx : Nat) (vas : List Nat) : (s.useWalks die ctx vas).active = s.active := rfl
@[simp] theorem useWalks_colls (s : State) (die ctx : Nat) (vas : List Nat) : (s.useWalks die ctx vas).colls = s.colls := rfl
@[simp] theorem useWalks_streams (s : State) (die ctx : Nat) (vas : List Nat) : (s.useWalks die ctx vas).streams = s.streams := rfl
@[simp] theorem useWalks_reqs (s : State) (die ctx : Nat) (vas : List Nat) : (s.useWalks die ctx vas).reqs = s.reqs := rfl
@[simp] theorem useWalks_ticks (s : State) (die ctx : Nat) (vas : List Nat) : (s.useWalks die ctx vas).ticks = s.ticks := rfl
@[simp] theorem useWalks_closed (s : State) (die ctx : Nat) (vas : List Nat) : (s.useWalks die ctx vas).closed = s.closed := rfl
@[simp] theorem useWalks_gtime (s : State) (die ctx : Nat) (vas : List Nat) : (s.useWalks die ctx vas).gtime = s.gtime := rfl
@[simp] theorem useWalks_pkg (s : State) (die ctx : Nat) (vas : List Nat) : (s.useWalks die ctx vas).pkg = s.pkg := rfl
@[simp] theorem useWalks_agenda (s : State) (die ctx : Nat) (vas : List Nat) : (s.useWalks die ctx vas).agenda = s.agenda := rfl
@[simp] theorem useWalks_cur (s : State) (die ctx : Nat) (vas : List Nat) : (s.useWalks die ctx vas).cur = s.cur := rfl
@[simp] theorem useWalks_draw (s : State) (die ctx : Nat) (vas : List Nat) : (s.useWalks die ctx vas).draw = s.draw := rfl
@[simp] theorem useWalks_next (s : State) (die ctx : Nat) (vas : List Nat) : (s.useWalks die ctx vas).next = s.next := rfl

/-- Raising a clock changes dies alone. -/
theorem raiseClock_eq (s : State) (die : Nat) (c : AMap Nat) : s.raiseClock die c = { s with dies := (s.raiseClock die c).dies } := rfl

/-- The flit of an item's write changes streams alone. -/
theorem itemFlit_eq (s : State) (src dst seq v : Nat) :
    s.itemFlit src dst seq v = { s with streams := (s.itemFlit src dst seq v).streams } := rfl

/-- The arrival of an access changes dies and streams alone. -/
theorem arrive_eq (s : State) (a : Access) : s.arrive a = { s with dies := (s.arrive a).dies, streams := (s.arrive a).streams } := by
  unfold arrive; dsimp only; split_ifs <;> rfl

/-- The base die's start of a packet marks one access or one request, and nothing else. -/
theorem startPacket_eq (s : State) (p : Packet) : s.startPacket p =
    { s with accs := (s.startPacket p).accs, reqs := (s.startPacket p).reqs } := by
  unfold startPacket; split_ifs <;> rfl

/-- A touch of a die's cache changes dies alone. -/
theorem cacheTouch_eq (s : State) (die loc : Nat) (dirty : Bool) (cp : Nat) :
    s.cacheTouch die loc dirty cp = { s with dies := (s.cacheTouch die loc dirty cp).dies } := by
  unfold cacheTouch; split_ifs <;> rfl

/-- So do those of a unit's bytes. -/
theorem unitTouch_eq (s : State) (die cp : Nat) (dirty : Bool) (ls : List Nat) :
    s.unitTouch die cp dirty ls = { s with dies := (s.unitTouch die cp dirty ls).dies } := by
  unfold unitTouch
  generalize (ls.map (· / 128 * 128)).dedup = l
  induction l generalizing s with
  | nil => rfl
  | cons a t ih => rw [List.foldl_cons, ih, cacheTouch_eq]

/-- Asking for spans adds requests, and nothing else. -/
theorem askSpans_eq (s : State) (q : Asker) (rs ws : List Nat) : s.askSpans q rs ws =
    { s with reqs := (s.askSpans q rs ws).reqs, next := (s.askSpans q rs ws).next } := by
  have h (w : Bool) (l : List Nat) (s : State) : l.foldl (fun (s : State) x => s.addReq q w x) s =
      { s with reqs := (l.foldl (fun (s : State) x => s.addReq q w x) s).reqs
               next := (l.foldl (fun (s : State) x => s.addReq q w x) s).next } := by
    induction l generalizing s with
    | nil => rfl
    | cons a t ih => rw [List.foldl_cons, ih]; rfl
  unfold askSpans
  dsimp only
  rw [h true, h false]

/-- Asking for bytes changes requests alone, answered or not. -/
theorem askFor_eq (s : State) (q : Asker) (rs ws : List Nat) : (s.askFor q rs ws).1 =
    { s with reqs := (s.askFor q rs ws).1.reqs, next := (s.askFor q rs ws).1.next } := by
  unfold askFor; dsimp only
  split_ifs
  · rfl
  · exact askSpans_eq ..

/-- Bytes are given only when every request for them has been performed; then no request of the owner is left. -/
theorem askFor_true {s t : State} {q : Asker} {rs ws : List Nat} (h : s.askFor q rs ws = (t, true)) :
    s.answered q.owner false (spansOf rs) ∧ s.answered q.owner true (spansOf ws) ∧ t = s.endReqs q.owner := by
  unfold askFor at h; dsimp only at h
  split_ifs at h with hc
  · simp only [Bool.and_eq_true] at hc
    exact ⟨hc.1, hc.2, (congrArg Prod.fst h).symm⟩
  · simp at h

/-- So does asking through the die cache, which touches lines too. -/
theorem ask_eq (s : State) (q : Asker) (rs ws : List Nat) : (s.ask q rs ws).1 =
    { s with reqs := (s.ask q rs ws).1.reqs, next := (s.ask q rs ws).1.next, dies := (s.ask q rs ws).1.dies } := by
  have h := s.askFor_eq q rs ws
  unfold ask
  split
  · rename_i t ht
    have h : t = { s with reqs := t.reqs, next := t.next } := by rw [ht] at h; exact h
    dsimp only
    rw [unitTouch_eq, unitTouch_eq, h]
  · rw [h]

/-- The gate of a write to a `repl` page changes a die's set of replicated pages and the collapses alone. -/
theorem collapseGate_eq (s : State) (ctx : Nat) (pte : BitVec 64) (va : Nat) : (s.collapseGate ctx pte va).1 =
    { s with dies := (s.collapseGate ctx pte va).1.dies, collapses := (s.collapseGate ctx pte va).1.collapses } := by
  unfold collapseGate; dsimp only; split_ifs <;> rfl

/-- So does that of several writes. -/
theorem collapseAll_eq (s : State) (l : List (Nat × BitVec 64 × Nat)) : (s.collapseAll l).1 =
    { s with dies := (s.collapseAll l).1.dies, collapses := (s.collapseAll l).1.collapses } := by
  induction l generalizing s with
  | nil => rfl
  | cons x t ih =>
    obtain ⟨ctx, pte, va⟩ := x
    have h := s.collapseGate_eq ctx pte va
    unfold collapseAll
    split
    · rename_i s1 h1; rw [h1] at h; exact h
    · rename_i s1 h1
      have h : s1 = { s with dies := s1.dies, collapses := s1.collapses } := by rw [h1] at h; exact h
      rw [ih s1, h]

/-- Asking for a walk changes walks alone. -/
theorem requestWalk_eq (s : State) (die cl ctx va part : Nat) (i : Bool) : s.requestWalk die cl ctx va part i =
    { s with walks := (s.requestWalk die cl ctx va part i).walks, next := (s.requestWalk die cl ctx va part i).next } := by
  unfold requestWalk; dsimp only; split_ifs <;> rfl

/-- The gate before a step's accesses, open or not, changes nothing but walks, collapses, requests, and what dies hold of replicas
and cache lines. -/
theorem gate_eq (s : State) (q : Asker) (n : Need) : (s.gate q n).1 =
    { s with walks := (s.gate q n).1.walks, collapses := (s.gate q n).1.collapses, reqs := (s.gate q n).1.reqs
             next := (s.gate q n).1.next, dies := (s.gate q n).1.dies } := by
  have hc := s.collapseAll_eq n.repl
  have hw (l : List Nat) (s : State) : l.foldl (fun (s : State) va => s.requestWalk q.die dieUnits q.ctx va q.part) s =
      { s with walks := (l.foldl (fun (s : State) va => s.requestWalk q.die dieUnits q.ctx va q.part) s).walks
               next := (l.foldl (fun (s : State) va => s.requestWalk q.die dieUnits q.ctx va q.part) s).next } := by
    induction l generalizing s with
    | nil => rfl
    | cons a t ih => rw [List.foldl_cons, ih, requestWalk_eq]
  unfold gate
  split
  · split_ifs
    · rfl
    · split
      · rename_i t ht; rw [ht] at hc; rw [hc]
      · rename_i t ht
        have hc : t = { s with dies := t.dies, collapses := t.collapses } := by rw [ht] at hc; exact hc
        have ha := t.ask_eq q n.reads n.writes
        split
        · rename_i u hu
          have ha : u = { t with reqs := u.reqs, next := u.next, dies := u.dies } := by rw [hu] at ha; exact ha
          dsimp only [useWalks]
          rw [ha, hc]
        · rw [ha, hc]
  · dsimp only
    rw [hw]

/-- A closed gate is closed for one of its reasons; an open one has every request performed and every address translated. -/
theorem gate_true {s t : State} {q : Asker} {n : Need} (h : s.gate q n = (t, true)) :
    (n.vas.all (s.translated q.die q.ctx)) = true ∧ n.stalled = false ∧ (s.collapseAll n.repl).2 = true := by
  unfold gate at h
  split at h
  · rename_i hv
    split_ifs at h with hs
    · simp at h
    · refine ⟨?_, by simpa using hs, ?_⟩
      · simpa [List.filter_eq_nil_iff] using hv
      · split at h
        · simp at h
        · rename_i u hu; rw [hu]
  · simp at h

end Sys2Proof.Machine.State
end

