-- ==== Sys2Proof/Tests/Slice0.lean ====
section
/-! SUPPORT. Tests of the model: words written from the spec's encodings, ill-formed sequences, results of the spec's worked
examples, and for each obligation with hypotheses a state and operands that meet them. -/

set_option Elab.async false

namespace Sys2Proof.Tests

open Sys2Proof.Machine

/-! ### Decoding: one word for every instruction (R66, Tables 3.7, 3.11, 5.8, 7.9, 8.5, 9.9, 10.4, 11.1, 11.3, 13.8) -/

/-- Operands that the words below hold. -/
def fr : FR := { nw := false, d := 3, a := .v 1, b := .s 2 }
def fru : FRu := { nw := false, d := 5, a := .const 1 }
def fi : FI := { nw := false, d := 2, a := .v 30, imm6 := 0x21 }
def fp : FP := { cond := 2, pd := 9, a := .v 7, b := .v 8 }
def fpi : FPi := { cond := 3, pd := 1, a := .v 0, imm6 := 4 }
def fm : FM := { cc := 1, d := 4, a := .v 9, off5 := 3 }

/-- Each sequence of words decodes to the instruction beside it. -/
def decodesTo (l : List (List Nat × Instr)) : Bool := l.all fun x => decode (x.1.map (BitVec.ofNat 32)) == some x.2

/-- Words of the integer forms, written from the spec's encodings. -/
theorem test_decode_integer : decodesTo [
    ([0x00043072], .add {} fr),
    ([0x000827A1], .addI {} fi),
    ([0x000C3072], .sub {} fr),
    ([0x00103072], .mul {} fr),
    ([0x00143072], .mulh {} fr),
    ([0x00183072], .mad {} fr),
    ([0x001C3072], .min {} fr),
    ([0x00203072], .max {} fr),
    ([0x00245940], .abs {} fru),
    ([0x00285940], .neg {} fru),
    ([0x002C3072], .adds {} fr),
    ([0x00303072], .subs {} fr),
    ([0x00343072], .sad {} fr),
    ([0x00403072], .and_ {} fr),
    ([0x004427A1], .andI {} fi),
    ([0x00483072], .or_ {} fr),
    ([0x004C27A1], .orI {} fi),
    ([0x00503072], .xor_ {} fr),
    ([0x005427A1], .xorI {} fi),
    ([0x00583072], .andn {} fr),
    ([0x005C5940], .not_ {} fru),
    ([0x00603072], .shl {} fr),
    ([0x006427A1], .shlI {} fi),
    ([0x00683072], .shr {} fr),
    ([0x006C27A1], .shrI {} fi),
    ([0x00703072], .sar {} fr),
    ([0x007427A1], .sarI {} fi),
    ([0x00783072], .rot {} fr),
    ([0x007C27A1], .rotI {} fi),
    ([0x00805940], .clz {} fru),
    ([0x00845940], .popc {} fru),
    ([0x00885940], .brev {} fru),
    ([0x008C3072], .bfe {} fr),
    ([0x00903072], .bfi {} fr),
    ([0x00943072], .prmt {} fr),
    ([0x00985940], .ext {} fru),
    ([0x00A691C8], .cmp {} fp),
    ([0x00AB1004], .cmpI {} fpi),
    ([0x00C05940], .mov {} fru),
    ([0x00D03072], .lea {} fr),
    ([0x00D427A1], .leaI {} fi),
    ([0x0400061A, 0x000820A0], .addI { hints := { imm := some 0x61A } } { nw := false, d := 2, a := .v 2, imm6 := 0x20 }),
    ([0x0C600000, 0x00081041], .addI { hints := { type := some { ty := 3, se := false, sub := 0 } } } { nw := false, d := 1, a := .v 1, imm6 := 1 }),
    ([0x0D150000, 0x00A62042], .cmp { hints := { type := some { ty := 8, se := true, sub := 5 } } } { cond := 2, pd := 2, a := .v 1, b := .v 2 }),
    ([0xFC000000], .nop { guard := some { p := 15, ps := true } }),
    ([0x00000000], .nop {}),
    ([0xB4A03072], .sel { guard := some { p := 6, ps := true } } fr),
    ([0x04000027, 0x00C4403F], .movi { hints := { imm := some 0x27 } } { nw := false, d := 4, imm6 := 0x3F })] = true := by decide +kernel

/-- Words of the floating forms, written from the spec's encodings. -/
theorem test_decode_floating : decodesTo [
    ([0x01003072], .fadd {} fr),
    ([0x01043072], .fsub {} fr),
    ([0x01083072], .fmul {} fr),
    ([0x010C3072], .ffma {} fr),
    ([0x01103072], .fmin {} fr),
    ([0x01143072], .fmax {} fr),
    ([0x01183072], .fminm {} fr),
    ([0x011C3072], .fmaxm {} fr),
    ([0x012291C8], .fcmp {} fp),
    ([0x01285940], .frnd {} fru),
    ([0x012C3072], .fscale {} fr),
    ([0x01405940], .frcp {} fru),
    ([0x01445940], .frsq {} fru),
    ([0x01485940], .fsqrt {} fru),
    ([0x014C3072], .fdivf {} fr),
    ([0x01505940], .fexp2 {} fru),
    ([0x01545940], .flog2 {} fru),
    ([0x01585940], .fsin {} fru),
    ([0x015C5940], .fcos {} fru),
    ([0x01605940], .ftanh {} fru),
    ([0x01843072], .cvtsr {} fr),
    ([0x01883072], .pack {} fr),
    ([0x018C3072], .unpack {} fr),
    ([0x01C03072], .dot2 {} fr),
    ([0x01C43072], .dot4 {} fr),
    ([0x01C83072], .dot8 {} fr),
    ([0x01CC3072], .dots {} fr),
    ([0x012491C8], .fclass {} { pd := 9, a := .v 7, b := .v 8 }),
    ([0x01825957], .cvt {} { sat := true, d := 5, a := .const 1, stype := 0x0B, rtz := true }),
    ([0x0A400000, 0x9D0C5187], .ffma { guard := some { p := 3, ps := true }, hints := { src3 := some { v3 := true, s3 := .v 8, n1 := false, n2 := false, n3 := false, a1 := false, a2 := false, a3 := false, sat := false, ro := false, rm := 0 } } } { nw := false, d := 5, a := .v 6, b := .v 7 }),
    ([0x010010A9], .fadd {} { nw := false, d := 1, a := .v 2, b := .const 5 })] = true := by decide +kernel

/-- Words of the moves forms, written from the spec's encodings. -/
theorem test_decode_moves : decodesTo [
    ([0x00AC9943], .pand {} { pd := 9, n1 := true, pa := 5, n2 := false, pb := 3 }),
    ([0x00B09943], .por {} { pd := 9, n1 := true, pa := 5, n2 := false, pb := 3 }),
    ([0x00B49943], .pxor {} { pd := 9, n1 := true, pa := 5, n2 := false, pb := 3 }),
    ([0x00B89940], .pnot {} { pd := 9, n1 := true, pa := 5 }),
    ([0x00BC5029], .movpToVector {} { d := 5, one := true, pn := 9 }),
    ([0x00BE0CA9], .movpToPredicates {} { a := .s 2, one := true, pn := 9 }),
    ([0x00C80003], .movs {} { sd := false, d := 0, a := .v 0, srn := 3 }),
    ([0x00CA60FF], .movs {} { sd := true, d := 6, a := .v 3, srn := 0x3F }),
    ([0x00CC01DC], .movsw {} { a := .v 7, srn := 0x1C })] = true := by decide +kernel

/-- Words of the cross forms, written from the spec's encodings. -/
theorem test_decode_cross : decodesTo [
    ([0x02022A72], .shfl {} { wc := 2, d := 5, vs := 9, b := .s 2 }),
    ([0x02062CC0], .vote {} { op := 2, d := 5, pa := 9, n := true }),
    ([0x020A05C8], .redg {} { op := 4, d := 5, a := .s 2 }),
    ([0x020E45C8], .scang {} { op := 4, incl := true, d := 5, a := .s 2 }),
    ([0x02105CB1], .bcast {} { d := 5, a := .s 2, first := true, lane := 17 })] = true := by decide +kernel

/-- Words of the access forms, written from the spec's encodings. -/
theorem test_decode_access : decodesTo [
    ([0x024D2123], .ldB64 {} fm),
    ([0x02412123], .ldN8 {} fm),
    ([0x02452123], .ldN16 {} fm),
    ([0x02492123], .ldN32 {} fm),
    ([0x02512123], .ldS8 {} fm),
    ([0x02552123], .ldS16 {} fm),
    ([0x02592123], .ldS32 {} fm),
    ([0x02612123], .stB8 {} fm),
    ([0x02652123], .stB16 {} fm),
    ([0x02692123], .stB32 {} fm),
    ([0x026D2123], .stB64 {} fm),
    ([0x02812123], .ldfe {} fm),
    ([0x02852123], .stfe {} fm),
    ([0x02892123], .fefill {} fm),
    ([0x02912123], .atom {} fm),
    ([0x02952123], .atomf {} fm),
    ([0x02992123], .cas {} fm),
    ([0x028D3123], .feq {} { cc := 1, pd := 6, a := .v 9, off5 := 3 }),
    ([0x029D0123], .pref {} { cc := 1, a := .v 9, off5 := 3 }),
    ([0x02A10123], .cinv {} { cc := 1, a := .v 9, off5 := 3 }),
    ([0x02A50123], .cwb {} { cc := 1, a := .v 9, off5 := 3 }),
    ([0x02A80002], .waitk {} { mask := 2 }),
    ([0x02811680], .ldfe {} { cc := 1, d := 2, a := .s 4, off5 := 0 }),
    ([0x026D1021], .stB64 {} { cc := 1, d := 2, a := .v 1, off5 := 1 })] = true := by decide +kernel

/-- Words of the matrix forms, written from the spec's encodings. -/
theorem test_decode_matrix : decodesTo [
    ([0x02C32258], .tdef {} { tid := 200, sd := 9, sa := 6 }),
    ([0x02C72000], .tinv {} { tid := 200 }),
    ([0x02C85CB0], .tget {} { d := 5, a := .s 2, w := 6 }),
    ([0x02CC8421], .mzero {} { mask := 0x8421 }),
    ([0x02F08421], .mwait {} { mask := 0x8421 }),
    ([0x02D25800], .mload {} { mt := 9, sa := 6 }),
    ([0x02D65800], .mstore {} { mt := 9, sa := 6 }),
    ([0x02E0E912], .mmaW16 {} { mt := 3, cv := 5, va := 4, vb := 9 }),
    ([0x02E4E912], .mmaW8 {} { mt := 3, cv := 5, va := 4, vb := 9 }),
    ([0x02E8E912], .mmaW6 {} { mt := 3, cv := 5, va := 4, vb := 9 }),
    ([0x02ECC90A], .mmaW4 {} { mt := 3, cv := 1, va := 4, vb := 5 }),
    ([0x03DA8101], .cvset {} { cv := 5, cm1 := 0x101 }),
    ([0x03F88421], .savept {} { mask := 0x8421 })] = true := by decide +kernel

/-- Words of the engine forms, written from the spec's encodings. -/
theorem test_decode_engine : decodesTo [
    ([0x03011800], .copy {} { cc := 1, ch := 0, sa := 6 }),
    ([0x0302D800], .copy {} { cc := 2, ch := 3, sa := 6 }),
    ([0x03068C80], .gres {} { slot := 5, a := .s 2 }),
    ([0x0306C000], .gresOpen {} { slot := 5 }),
    ([0x03091E00], .cflag {} { cc := 1, ch := 0, sa := 7, sv := 8 }),
    ([0x030E5800], .tlbp {} { sd := 9, sa := 6 }),
    ([0x030E5A00], .tlbpFill {} { sd := 9, sa := 6 }),
    ([0x03121800], .pattrReplicate {} { cc := 2, sa := 6 }),
    ([0x03125800], .pattrCollapse {} { cc := 2, sa := 6 }),
    ([0x03129800], .pattrFlush {} { cc := 2, sa := 6 }),
    ([0x03161800], .coll {} { cc := 2, sa := 6 })] = true := by decide +kernel

/-- Words of the render forms, written from the spec's encodings. -/
theorem test_decode_render : decodesTo [
    ([0x031A2A5A], .tex {} { cc := 2, d := 5, vc := 9, st := 6, filt := true, wrap := false }),
    ([0x031D410C], .trace {} { cc := 1, vh := 8, vr := 4, sb := 3, mode := 0 }),
    ([0x03222A5A], .traceh {} { cc := 2, d := 5, vh := 9, sb := 6, w := 2 }),
    ([0x03408380], .prim {} { vp := 8, a := .v 14 }),
    ([0x03440000], .pend {}),
    ([0x03481040], .cwr {} { cc := 0, bm := 1, a := .v 1, st := 0 }),
    ([0x034E9600], .cclr {} { cc := 2, st := 9, sb := 6 }),
    ([0x03529600], .cdec {} { cc := 2, st := 9, sb := 6 }),
    ([0x0356E726], .zcmp {} { wr := true, cond := 3, pd := 9, a := .s 2, st := 6 })] = true := by decide +kernel

/-- Words of the control forms, written from the spec's encodings. -/
theorem test_decode_control : decodesTo [
    ([0x8B80BFFB], .bra { guard := some { p := 1, ps := false } } { tpri := 2, off14 := 0x3FFB }),
    ([0x03864C80], .brx {} { tpri := 9, a := .s 2 }),
    ([0xB78A4005], .brany { guard := some { p := 6, ps := true } } { tpri := 9, off14 := 5 }),
    ([0xB78E4005], .brall { guard := some { p := 6, ps := true } } { tpri := 9, off14 := 5 }),
    ([0x03924005], .call {} { tpri := 9, off14 := 5 }),
    ([0x03940000], .ret {}),
    ([0x03994009], .loop {} { sc := 5, off14 := 9 }),
    ([0x039C0000], .rfpt {}),
    ([0x03A00000], .yield {}),
    ([0x03A662C7], .launch {} { sd := 9, q := 17, sa := 6, sb := 3, ao := true }),
    ([0x03A891C8], .emit {} { pd := 9, a := .v 7, b := .v 8 }),
    ([0x03AC0000], .exit {}),
    ([0x03B10301], .await {} { cc := 1, live := 0x301 })] = true := by decide +kernel

/-- Words of the sync forms, written from the spec's encodings. -/
theorem test_decode_sync : decodesTo [
    ([0x03C001F2], .barinit {} { a := .v 7, b := .s 2 }),
    ([0x03C40D40], .barjoin {} { a := .s 5 }),
    ([0x03C60D40], .barjoinNow {} { a := .s 5 }),
    ([0x03C80D40], .bararr {} { a := .s 5 }),
    ([0x03CC0D40], .barwait {} { a := .s 5 }),
    ([0x03D00D40], .bardrop {} { a := .s 5 }),
    ([0x03D40000], .pbar {}),
    ([0x03DE8000], .fence {} { scope := 5 }),
    ([0x03E00000], .fenceSc {})] = true := by decide +kernel

/-- Words of the handler forms, written from the spec's encodings. -/
theorem test_decode_handler : decodesTo [
    ([0x03E40001], .trap {} { mask := 1 }),
    ([0x03E80000], .rtt {}),
    ([0x03E80001], .rttSkip {}),
    ([0x03EC8421], .brk {} { mask := 0x8421 }),
    ([0x03F00900], .repl {} { a := .const 0, half := false }),
    ([0x03F50008], .hmov {} { dir := false, cl := 4, n := 0, h := 1 })] = true := by decide +kernel

/-! ### Ill-formed sequences (Table 3.10) -/

/-- Codes that decoding or the check gives a sequence. -/
def codesOf (ws : List Nat) : List Nat :=
  match decodeWords (ws.map (BitVec.ofNat 32)) with
  | some d => d.codes ++ ((d.instr.map (·.codesAt none)).getD [])
  | none => [0]

/-- 0xFFFF_FFFF, a reserved hint class, a reserved bit, `imm` before `atom`, a latch outside a chain, a guard on `rfpt`, `sel`
without one, source 0x2C, an Rt form without `src3`, NW outside a chain, and `loop` back: code by code (R77). -/
theorem test_illegal_words : codesOf [0xFFFFFFFF] = [1] ∧ (codesOf [0x28000000, 0]).contains 2 = true ∧ codesOf [0x00000001] = [3] ∧
    (codesOf [0x04000005, 0x02924403]).min? = some 4 ∧ codesOf [0x00043832] = [5] ∧ codesOf [0x839C0000] = [6] ∧ codesOf [0x00A03072] = [6] ∧
    codesOf [0x00043B32] = [7] ∧ codesOf [0x00183072] = [8] ∧ codesOf [0x00063072] = [9] ∧ codesOf [0x03994000] = [10] := by
  decide +kernel

/-- Legal neighbours of those sequences raise nothing. -/
theorem test_legal_words : codesOf [0xFC000000] = [] ∧ codesOf [0x039C0000] = [] ∧
    codesOf [0x0A400000, 0x9D0C5187] = [] ∧ codesOf [0x03994001] = [] := by decide +kernel

/-- Terms that the well-formedness check refuses: each check of it has one. -/
theorem test_not_wellformed :
    (Instr.add { hints := { chain := some 1 } } fr).wf = false ∧ (Instr.add { hints := { imm := some 0 } } fr).wf = false ∧
    (Instr.add {} { fr with a := .latch 0 }).wf = false ∧ (Instr.rfpt { guard := some { p := 0, ps := false } }).wf = false ∧
    (Instr.sel {} fr).wf = false ∧ (Instr.add {} { fr with b := .resv 0 }).wf = false ∧ (Instr.mad {} fr).wf = false ∧
    (Instr.add {} { fr with nw := true }).wf = false ∧ (Instr.waitk {} { mask := 0 }).wf = false ∧ Instr.getVersion.wf = false ∧
    (Instr.add { hints := { type := some { ty := 11, se := false, sub := 0 } } } fr).wf = false ∧
    (Instr.add { hints := { memq := some { scope := 0, ord := 0, cp := 0, fe := 0 } } } fr).wf = false ∧
    (Instr.ldB64 { hints := { memq := some { scope := 7, ord := 0, cp := 0, fe := 0 } } } fm).wf = false ∧
    (Instr.ldB64 { hints := { guardq := some 0 } } fm).wf = false ∧
    (Instr.add { hints := { rep := some { cnt := 31, sd := true, sa := false, sb := false } } } fr).wf = false ∧
    (Instr.movi {} { nw := false, d := 1, imm6 := 0 }).wf = true ∧ (Instr.add {} fr).wf = true := by decide +kernel

/-- A chain of two whose head holds LEN = 1 is well formed; a `rep` in it, a second `chain` and a wrong LEN are not (R102, R65). -/
theorem test_chain_wellformed :
    let head : Head := { hints := { chain := some 1 } }
    chainWf [.add head { fr with nw := true, d := 0 }, .mov {} { nw := false, d := 1, a := .latch 0 }] = true ∧
    chainWf [.add head fr, .add { hints := { rep := some { cnt := 1, sd := false, sa := false, sb := false } } } fr] = false ∧
    chainWf [.add head fr, .add head fr] = false ∧ chainWf [.add head fr] = false ∧ chainWf [] = false := by decide +kernel

/-! ### A state with one group at issue -/

/-- After reset, with a program of `nop`s placed: context 1, launch 1, gang 2, group 3 on core 0 of cluster 0 of die 0. -/
def base : State := State.reset.placed 0

/-- The group whose turn it is. -/
def gOf (s : State) : Group := (s.group? s.cur).getD { id := 0, gang := 0, die := 0, cluster := 0, core := 0 }

/-- Its selected entry. -/
def eOf (s : State) : Entry := (Entry.select (gOf s).front).getD { pc := 0, mask := 0 }

/-- The instruction is at issue, for the only entry of its group. -/
def ready (s : State) (i : Instr) : Bool :=
  let g := gOf s
  let u := Iss.mk' s g (eOf s) i
  (s.group? s.cur).isSome && (Entry.select g.front).isSome && i.head.hints.chain.isNone && (i.codesAt none).isEmpty &&
    (!g.inHandler || (!handlerBanned i && !i.namesHigh)) && (g.inHandler || !fpBarrier i || (u.allWritten && g.pnd == 0)) &&
    !u.pending && g.front == [eOf s]

theorem ready_spec {s : State} {i : Instr} (h : ready s i = true) : AtIssue i s (gOf s) (eOf s) ∧ Only (gOf s) (eOf s) := by
  simp only [ready, Bool.and_eq_true, Bool.or_eq_true, Bool.not_eq_true', Option.isNone_iff_eq_none, List.isEmpty_iff,
    beq_iff_eq] at h
  obtain ⟨⟨⟨⟨⟨⟨⟨h1, h2⟩, h3⟩, h4⟩, h5⟩, h6⟩, h7⟩, h8⟩ := h
  refine ⟨⟨?_, ?_, h3, h4, ?_, ?_, h7⟩, ?_⟩
  · obtain ⟨g, hg⟩ := Option.isSome_iff_exists.mp h1
    simp [gOf, hg]
  · obtain ⟨e, he⟩ := Option.isSome_iff_exists.mp h2
    simp [eOf, he]
  · intro hh; simpa [hh] using h5
  · intro hh hf; simpa [hh, hf] using h6
  · intro x hx _; rw [h8] at hx; simpa using hx

/-- Every instruction of the list is at issue. -/
theorem all_ready {s : State} {l : List Instr} (h : l.all (ready s) = true) :
    ∀ i ∈ l, AtIssue i s (gOf s) (eOf s) ∧ Only (gOf s) (eOf s) := fun i hi => ready_spec (List.all_eq_true.mp h i hi)

/-- The base state with its group, or itself, changed. -/
def onGroup (f : Group → Group) (s : State) : State := s.updGroup s.cur f
def onEntry (f : Entry → Entry) (s : State) : State := onGroup (fun g => { g with entries := g.entries.map f }) s

/-- A vector register of a lane after an instruction. -/
def vAfter (i : Option Instr) (s : State) (r l : Nat) : Option Word :=
  match i.map fun i => exec i s with
  | some (.next t) => (t.group? s.cur).map fun g => g.getV r l
  | _ => none

/-! ### Worked examples (Tables 5.8, 6.7) -/

/-- The words, in lane 0 of a group whose registers hold these values. -/
def vLine (ws : List Nat) (regs : List (Nat × Nat)) (r : Nat) : Option Word :=
  vAfter (decode (ws.map (BitVec.ofNat 32)))
    (onGroup (fun g => regs.foldl (fun g x => g.setV x.1 0 (BitVec.ofNat 64 x.2)) { g with s := [(4, 0x0000000501234567)] }) base) r 0

def regs5 : List (Nat × Nat) := [(1, 0x80FF7F0110203040), (2, 0x800180020F302850)]
def regs6 : List (Nat × Nat) := [(1, 0x7F7FFFFF3F800000), (2, 0x4000000033800000), (5, 0x447A000043960000), (8, 0x39803F80), (9, 0x33800000)]

theorem test_table_5_8 : vLine [0x0D000000, 0x002C3042] regs5 3 = some 0xFFFFFF031F505890 ∧
    vLine [0x0CE00000, 0x002C7042] regs5 7 = some 0x8000FF031F50587F ∧
    vLine [0x0B200000, 0x00344042] regs5 4 = some 0x00FE010101100810 ∧
    vLine [0x0BA00000, 0x00945042] regs5 5 = some 0x403020100100FFFF ∧
    vLine [0x04000000, 0x08001000, 0x0C800000, 0x006C6068] regs5 6 = some 0 := by decide +kernel

theorem test_table_6_7 : vLine [0x01003042] regs6 3 = some 0x7F7FFFFF3F800000 ∧
    vLine [0x08000B00, 0x01004042] regs6 4 = some 0x7F8000003F800001 ∧
    vLine [0x0DE00000, 0x01826158] regs6 6 = some 0x7E79 ∧ vLine [0x0DE00000, 0x01806158] regs6 6 = some 0x7F79 ∧
    vLine [0x0A480000, 0x01C0A208] regs6 10 = some 0x3F800000 := by decide +kernel

/-- `cmp.lt.n8x8` of Table 5.8, whole and of element 5 alone. -/
theorem test_table_5_8_cmp :
    let p (ws : List Nat) : Option Bool := match (decode (ws.map (BitVec.ofNat 32))).map fun i => exec i
        (onGroup (fun g => regs5.foldl (fun g x => g.setV x.1 0 (BitVec.ofNat 64 x.2)) g) base) with
      | some (.next t) => (t.group? 3).map fun g => g.getPn 2 0
      | _ => none
    p [0x0D000000, 0x00A62042] = some false ∧ p [0x0D150000, 0x00A62042] = some true := by decide +kernel

/-! ### Witnesses: encoding, steps, traps -/

/-- A word instruction, with the facts of its opcode that SpecWordsDecode names, and a word that decodes. -/
theorem wit_encoding : (Instr.add {} fr).isWord = true ∧ (Instr.add {} fr).opBits = some (1, 0x3072) ∧
    (Instr.add {} fr).head.hints = {} ∧ decode [0x00043072#32] = some (.add {} fr) := by decide +kernel

/-- A first step that runs `add v3, v1, s2`, fetched, decoded and legal. -/
theorem wit_StepRunsDecoded : let s := State.reset.placed 0x00043072
    s.pkg.powered = true ∧ s.agenda = [] ∧ s.controllerBusy = false ∧ s.turn = some (gOf s, eOf s) ∧
    s.fetchSeq (gOf s) (eOf s).pc = .ok [0x00043072#32] ∧
    decodeWords [0x00043072#32] = some { instr := some (.add {} fr), codes := [], words := 1 } := by decide +kernel

/-- Steps of another agent, a sequence outside the code, and a code page without leave to execute. -/
theorem wit_OtherSteps :
    (let s : State := { base with agenda := [.getVersion] }
     s.pkg.powered = true ∧ s.agenda = [.getVersion] ∧ Instr.getVersion.isWord = false) ∧
    (let s := onEntry (fun e => { e with pc := placeVa }) base
     s.agenda = [] ∧ s.controllerBusy = false ∧ s.turn = some (gOf s, eOf s) ∧ s.fetchSeq (gOf s) (eOf s).pc = .outside placeVa) ∧
    (let s : State := { base with clusters := base.clusters.map fun c => { c with tlb := c.tlb.map fun e => { e with pte := e.pte &&& ~~~8#64 } } }
     s.turn = some (gOf s, eOf s) ∧ s.fetchSeq (gOf s) (eOf s).pc = .fault (placeVa + 64) 2) := by decide +kernel

/-- OtherSteps: an uncorrectable error, a page walk and a line of device memory in the way of an instruction fetch. -/
theorem wit_OtherSteps_fetch :
    let acts (s : State) : Prop := s.pkg.powered = true ∧ s.agenda = [] ∧ s.controllerBusy = false ∧ s.turn = some (gOf s, eOf s)
    (let s : State := { base with poison := [placePa + 64] }
     acts s ∧ s.fetchSeq (gOf s) (eOf s).pc = .poison (placeVa + 64)) ∧
    (let s : State := { base with clusters := base.clusters.map fun c => { c with tlb := [] } }
     acts s ∧ s.fetchSeq (gOf s) (eOf s).pc = .wait (placeVa + 64)) ∧
    (let s : State := { base with dies := base.dies.map fun d => { d with lines := [] } }
     acts s ∧ s.fetchSeq (gOf s) (eOf s).pc = .packet (placePa + 64)) := by decide +kernel

/-- A group in handler mode for a trap of class 11, with one handler entry at its code. -/
def handling : State := onGroup (fun g => { g with
  frame := some { entries := [{ pc := placeVa + 64, prio := 15, mask := 0xFFFFFFFF }] }, stop := .handling
  trap := some { cls := 11, pc := placeVa + 64, emask := 0xFFFFFFFF, tmask := 0xFFFFFFFF } }) base

/-- The conditions of IssueChecks, one by one: an illegal form; a barred form, and a register above v15, in handler mode; a barrier
with a pending exception; a register that an access in flight writes. -/
theorem wit_IssueChecks :
    (let i := Instr.add {} { fr with nw := true }
     i.isWord = true ∧ i.head.hints.chain = none ∧ base.group? base.cur = some (gOf base) ∧
     Entry.select (gOf base).front = some (eOf base) ∧ lowestCode (i.codesAt none) = some 9) ∧
    (let i := Instr.exit {}
     (gOf handling).inHandler = true ∧ handlerBanned i = true ∧ i.codesAt none = [] ∧
     Entry.select (gOf handling).front = some (eOf handling) ∧ (Instr.mov {} { nw := false, d := 16, a := .v 0 }).namesHigh = true ∧
     (Instr.mov {} { nw := false, d := 15, a := .v 0 }).namesHigh = false) ∧
    (let s := onGroup (fun g => { g with fpflags := 0x10001 }) base
     fpBarrier (.pbar {}) = true ∧ (Instr.pbar {}).codesAt none = [] ∧ (gOf s).inHandler = false ∧ (gOf s).pnd ≠ 0 ∧
     (Iss.mk' s (gOf s) (eOf s) (.pbar {})).allWritten = true) ∧
    (let a : Access := { id := 9, op := 8, grp := 3, die := 0, lane := 0, kind := .load false, va := 0, loc := 0, size := 8, d := 3, phase := .toHbm }
     let s : State := { base with accs := [a] }
     fpBarrier (.add {} fr) = false ∧ (Instr.add {} fr).codesAt none = [] ∧ (Iss.mk' s (gOf s) (eOf s) (.add {} fr)).pending = true) := by
  decide +kernel

/-- The context with a trap handler object. -/
def withHandler (s : State) : State := s.updCtx 1 fun c => { c with hobj := 0x20000 }

theorem wit_TrapTaken : let s := withHandler base
    let g := gOf s
    s.group? g.id = some g ∧ g.frame = none ∧ eOf s ∈ g.entries ∧ g.front = [eOf s] ∧
    (s.groupContext? g).map (·.hobj) = some 0x20000 ∧ (11 : Nat) ≠ 8 := by decide +kernel

theorem wit_SupervisorTrapTaken : let s := base
    let g := gOf s
    let c : Context := (s.groupContext? g).getD { num := 0 }
    s.group? g.id = some g ∧ g.frame = none ∧ s.groupContext? g = some c ∧ c.hobj = 0 ∧ supervisorClass 8 = true ∧
    (c.shead - c.stail).toNat ≠ 2 ^ c.supn ∧ s.memOk = true ∧ s.pkg.evEn = false := by decide +kernel

theorem wit_MemOkStep : base.memOk = true ∧ (match step base with | .next _ => true | _ => false) = true := by decide +kernel

/-! ### Witnesses: register forms -/

/-- Registers that a map succeeds for. -/
def gateOk (s : State) (g : Group) (ws : List Nat) : Bool := match s.regGate g ws with | .ok _ => true | _ => false

/-- The instruction is a register form that can be written at once. -/
def formOk (s : State) (i : Instr) : Bool :=
  match i.alu with
  | some o => ready s i && i.head.hints.rep.isNone && (eOf s).repi == 0 && i.head.hints.dead.isNone &&
      (o.pd.isSome || o.nw || gateOk s (gOf s) (if (Iss.mk' s (gOf s) (eOf s) i).ex = 0 then [] else [o.d]))
  | none => false

theorem gate_spec {s : State} {g : Group} {ws : List Nat} (h : gateOk s g ws = true) : ∃ g1, s.regGate g ws = .ok g1 := by
  unfold gateOk at h; split at h
  · exact ⟨_, by assumption⟩
  · simp at h

theorem formOk_spec {s : State} {i : Instr} (h : formOk s i = true) : ∃ o, RegisterForm i o s (gOf s) (eOf s) := by
  unfold formOk at h
  split at h
  · rename_i o ho
    simp only [Bool.and_eq_true, Bool.or_eq_true, Option.isNone_iff_eq_none, beq_iff_eq] at h
    obtain ⟨⟨⟨⟨h1, h2⟩, h3⟩, h4⟩, h5⟩ := h
    refine ⟨o, ho, (ready_spec h1).1, (ready_spec h1).2, .inl h4, ⟨h2, h3⟩, ?_⟩
    rcases h5 with (h5 | h5) | h5
    · exact .inl h5
    · exact .inr (.inl h5)
    · exact .inr (.inr (gate_spec h5))
  · simp at h

/-- A third source for the Rt forms. -/
def rt : Head := { hints := { src3 := some { v3 := true, s3 := .v 8, n1 := false, n2 := false, n3 := false, a1 := false, a2 := false
                                             a3 := false, sat := false, ro := false, rm := 0 } } }
def req : Head := { guard := some { p := 1, ps := true } }

/-- Every register form at issue, each Rt form with its third source, `sel` with its guard. -/
def registerForms : List Instr :=
  [.nop {}, .cvt {} { sat := false, d := 5, a := .v 1, stype := 11, rtz := false }, .add {} fr, .addI {} fi, .sub {} fr, .mul {} fr,
   .mulh {} fr, .mad rt fr, .min {} fr, .max {} fr, .abs {} fru, .neg {} fru, .adds {} fr, .subs {} fr, .sad rt fr, .and_ {} fr,
   .andI {} fi, .or_ {} fr, .orI {} fi, .xor_ {} fr, .xorI {} fi, .andn {} fr, .not_ {} fru, .shl {} fr, .shlI {} fi, .shr {} fr,
   .shrI {} fi, .sar {} fr, .sarI {} fi, .rot {} fr, .rotI {} fi, .clz {} fru, .popc {} fru, .brev {} fru, .bfe {} fr, .bfi rt fr,
   .prmt rt fr, .ext {} fru, .sel req fr, .cmp {} fp, .cmpI {} fpi, .mov {} fru, .movi {} { nw := false, d := 1, imm6 := 0 }, .lea {} fr,
   .leaI {} fi] ++
  [.fadd {} fr, .fsub {} fr, .fmul {} fr, .ffma rt fr, .fmin {} fr, .fmax {} fr, .fminm {} fr, .fmaxm {} fr, .fcmp {} fp,
   .fclass {} { pd := 9, a := .v 7, b := .v 8 }, .frnd {} fru, .fscale {} fr, .frcp {} fru, .frsq {} fru, .fsqrt {} fru, .fdivf rt fr,
   .fexp2 {} fru, .flog2 {} fru, .fsin {} fru, .fcos {} fru, .ftanh {} fru, .cvtsr {} fr, .pack {} fr,
   .unpack {} { fr with b := .const 1 }, .dot2 rt fr, .dot4 rt fr, .dot8 rt fr, .dots rt fr]

/-- RegisterFormCompletes: every register form is at issue in the base state. -/
theorem wit_RegisterFormCompletes : ∀ i ∈ registerForms, ∃ o, RegisterForm i o base (gOf base) (eOf base) := by
  have h : registerForms.all (formOk base) = true := by decide +kernel
  exact fun i hi => formOk_spec (List.all_eq_true.mp h i hi)

/-- The base state with registers v0-v9 mapped. -/
def mappedState : State := onGroup (fun g => (List.range 10).foldl (fun g r => g.setV r 0 (BitVec.ofNat 64 (r + 5))) g) base

/-- RepeatedFormCompletes: `add` of two repeats that step D and S1, with its registers mapped. -/
theorem wit_RepeatedFormCompletes :
    let i := Instr.add { hints := { rep := some { cnt := 1, sd := true, sa := true, sb := false } } } fr
    (AtIssue i mappedState (gOf mappedState) (eOf mappedState) ∧ Only (gOf mappedState) (eOf mappedState)) ∧ i.alu.isSome = true ∧
    (eOf mappedState).repi = 0 ∧ (∀ r ∈ i.vwrites, r ∈ mappedState.mappedRegs (gOf mappedState)) ∧
    ∀ x ∈ (gOf mappedState).entries, x ≠ eOf mappedState → x.repi = 0 :=
  ⟨ready_spec (by decide +kernel), by decide +kernel, by decide +kernel, by decide +kernel, by decide +kernel⟩

/-- ChainCompletes: `add` (to the latch alone) and `mov v1, b0`. -/
theorem wit_ChainCompletes :
    let i := Instr.add { hints := { chain := some 1 } } { fr with nw := true, d := 0 }
    let m := Instr.mov {} { nw := false, d := 1, a := .latch 0 }
    let s : State := base.wr (placePa + 68) 4 0x00C01000 |>.wr (placePa + 72) 4 0x00C01800
    let g := gOf s
    let e := eOf s
    let ds : List Decoded := [{ instr := some m, codes := [], words := 1 }]
    let r := ChainRun.lanes [(i, e.pc), (m, e.pc + 8)] s.draw (Iss.mk' s g e i).act.toList { g := g }
    s.group? s.cur = some g ∧ Entry.select g.front = some e ∧ g.front = [e] ∧ (match s.members g 1 (e.pc + 8) with | .ok xs => xs == ds | _ => false) = true ∧
    lowestCode (unitCodes i ds) = none ∧ g.inHandler = false ∧
    ([i, m].any fun i => (i.vreads ++ i.vwrites).any (s.pendV g) || i.preds.any (s.pendP g)) = false ∧ m.isStore = false ∧
    r.written = [1] ∧ gateOk s g r.written = true := by decide +kernel

/-- Another group on the core of the first. -/
def second (f : Group → Group) (s : State) : State :=
  { s with groups := s.groups ++ [f { id := 50, gang := 2, index := 1, die := 0, cluster := 0, core := 0, slot := 1 }] }

/-- A stage of 8 steady registers, the first group having 10 mapped, beside another group of the core. -/
def surging (peak : Nat) (f : Group → Group) : State :=
  { second f mappedState with
    launches := base.launches.map fun l => { l with stages := l.stages.map fun t => { t with steady := 8, peak := peak } } }

/-- SurgePool: within the reservation, above the peak, granted with a later asker beside it, and waiting for a holder. -/
theorem wit_SurgePool :
    let i := Instr.mov {} { nw := false, d := 20, a := .v 0 }
    let asks (s : State) : Bool := ready s i && (Iss.mk' s (gOf s) (eOf s) i).ex != 0 && (eOf s).repi == 0 &&
      !(s.mappedRegs (gOf s)).contains 20 && !(gOf s).inHandler && !(gOf s).surge
    let later := surging 24 fun g => { g with surgeWait := some 1000 }
    let holder := surging 24 fun g => { g with surge := true }
    let asker := surging 24 fun g => { g with surgeWait := some 0 }
    i.head.hints.rep = none ∧ i.head.hints.dead = none ∧ i.alu.map (fun o => (o.d, o.pd, o.nw)) = some (20, none, false) ∧
    [surging 8 id, mappedState, later, holder, asker].all asks = true ∧
    (holder.groupStage? (gOf holder)).map (fun st => (8 * ceilDiv st.steady 8, st.peak)) = some (8, 24) ∧
    ((surging 8 id).groupStage? (gOf (surging 8 id))).map (·.peak) = some 8 ∧
    (mappedState.groupStage? (gOf mappedState)).map (fun st => 8 * ceilDiv st.steady 8) = some 32 ∧
    (mappedState.mappedRegs (gOf mappedState)).length = 10 ∧ (holder.mappedRegs (gOf holder)).length = 10 ∧
    (later.next < 1000 ∧ later.groups.all (fun h => !h.surge) = true) ∧
    (holder.groups.any fun h => h.id != (gOf holder).id && h.core == (gOf holder).core && h.surge) = true ∧
    (0 < asker.next ∧ (asker.groups.any fun h => h.id != (gOf asker).id && h.surgeWait == some 0) = true) := by decide +kernel

/-- OperandsSeen, lane operations: sources of each kind stand where the statement names them, and element types at its bounds. -/
theorem wit_OperandsSeen : (Instr.add {} fr).alu.map (fun o => (o.a, o.b)) = some (some (.v 1), some (.s 2)) ∧
    (Instr.mov {} { nw := false, d := 1, a := .latch 3 }).alu.map (·.a) = some (some (.latch 3)) ∧
    (Instr.addI {} fi).alu.map (·.imm) = some (some 0x21) ∧ (Instr.addI {} fi).head.hints.imm = none ∧
    (Instr.addI { hints := { imm := some 0x61A } } fi).head.hints.imm = some 0x61A ∧ 0 < typeCount 0 ∧ 15 < typeCount 10 ∧
    0 < typeCount 11 ∧ 15 < typeCount 19 ∧ rt.hints.src3.map (fun x => (x.v3, x.s3)) = some (true, .v 8) ∧
    (let x : Src3 := ⟨false, .v 0, true, true, false, true, false, false, false, false, 0⟩
     let h : Head := { hints := { src3 := some x } }
     (Instr.mad h fr).head.hints.src3 = some x ∧ x.v3 = false) := by decide +kernel

/-- Lanes of integer forms: each form has its exact value, and types and elements at the ends of their ranges are computed. -/
theorem wit_IntegerLanes : ([Instr.add {} fr, .addI {} fi, .sub {} fr, .mul {} fr, .mulh {} fr, .mad rt fr, .min {} fr, .max {} fr, .abs {} fru,
      .neg {} fru, .adds {} fr, .subs {} fr, .sad rt fr].all fun i => (exactForm 64 i).isSome) = true ∧
    0 < typeCount 1 ∧ 7 < typeCount 8 ∧ saturates true (.mul {} fr) = true ∧ saturates false (.mul {} fr) = false ∧
    saturates false (.adds {} fr) = true ∧ typeSigned 1 = true ∧ typeSigned 2 = false := by decide +kernel

/-- A lane's operands. -/
def op (t a b : Nat) : LaneOp :=
  { t := t, se := none, a := BitVec.ofNat 64 a, b := BitVec.ofNat 64 b, c := 0, x := 0, isImm := false, old := 0, cond := 0, q := false, sat := true
    rm := 0, handler := false, ftz := 0 }

/-- Shift counts at, below and far above the width; a checked one reports exactly from the width on. -/
theorem wit_ShiftLanes : (op 2 1 63).t ≤ 10 ∧ 0 < typeCount 2 ∧ (op 2 1 63).se = none ∧ 0 < typeWidth 2 ∧ ((Instr.shl {} fr).lane (op 2 1 63)).val = 0x8000000000000000 ∧ ((Instr.shl {} fr).lane (op 2 1 64)).val = 0 ∧
    ((Instr.sar {} fr).lane (op 1 (2 ^ 63) 64)).val = 0xFFFFFFFFFFFFFFFF ∧ ((Instr.shl {} fr).lane (op 2 1 63)).log = false ∧
    ((Instr.shl {} fr).lane (op 2 1 64)).log = true := by decide +kernel

/-- Bit forms: no bit, one bit and all bits set; a field that ends at, and beyond, the top bit. -/
theorem wit_BitLanes : (op 10 0 0).t ≤ 10 ∧ 15 < typeCount 10 ∧ ({ op 10 0 0 with se := some 15 } : LaneOp).se = some 15 ∧ ((Instr.clz {} fru).lane (op 2 0 0)).val = 64 ∧ ((Instr.clz {} fru).lane (op 2 1 0)).val = 63 ∧
    ((Instr.popc {} fru).lane (op 2 (2 ^ 64 - 1) 0)).val = 64 ∧ ((Instr.brev {} fru).lane (op 2 1 0)).val = 0x8000000000000000 ∧
    ((Instr.bfe {} fr).lane (op 1 0xF000000000000000 (8 * 256 + 60))).val = 0xFFFFFFFFFFFFFFFF ∧
    ((Instr.bfe {} fr).lane (op 2 0xF000000000000000 64)).val = 0 := by decide +kernel

/-- WholeWordLanes: both forms of `lea`, each condition, and elements that compare either way. -/
theorem wit_WholeWordLanes : (op 2 1 2).isImm = false ∧ ({ op 2 1 0 with isImm := true } : LaneOp).isImm = true ∧
    ((Instr.cmp {} fp).lane (op 2 5 5)).pred = true ∧ ((Instr.cmp {} fp).lane { op 1 (2 ^ 64 - 1) 0 with cond := 2 }).pred = true ∧
    ((Instr.cmp {} fp).lane { op 2 (2 ^ 64 - 1) 0 with cond := 3 }).pred = true ∧ ((Instr.cmp {} fp).lane { op 2 5 5 with cond := 1 }).pred = false := by
  decide +kernel

/-! ### Witnesses: floating point -/

/-- RoundedOnce: a value that is exact, one that is a tie, and one below the least normal number, without overflow. -/
theorem wit_RoundedOnce : fp32 ∈ [fp64, fp32, fp16, bf16, e4m3, e5m2, e3m2, e2m3, e2m1] ∧
    ((fp32.round 0 .ieee false false 3 0 false).fl.testBit 2) = false ∧
    ((fp32.round 4 .ieee false true (2 ^ 25 + 1) (-1) false).fl.testBit 2) = false ∧
    ((e2m1.round 0 .ieee false false 1 (-9) false).fl.testBit 2) = false := by decide +kernel

/-- RoundedOnce, conversions: integers at and beyond a type's ends, the sources of a stochastic rounding, powers of two within
and beyond E8M0, and a stochastic result on each side of the largest FP4 value. -/
theorem wit_RoundedOnce_cvt : typeLo 5 = -32768 ∧ typeHi 5 = 32767 ∧ 17 ≤ (op 19 0 0).t ∧ (op 8 0 0).t ≤ 8 ∧ 13 ≤ (op 19 0 0).t ∧
    readFV 0 12 0x7FC00000 = .nan false ∧ readFV 0 12 0x7F800001 = .nan true ∧ readFV 0 12 0xFF800000 = .inf true ∧
    readFV 0 12 0x80000000 = .fin true 0 (-149) ∧ readFV 0 12 0x41000000 = .fin false 8388608 (-20) ∧
    ftzOn 0 13 = false ∧ ftzOn 4 13 = true ∧ fp16.subnormal 1 = true ∧ fp16.subnormal 0x400 = false := by decide +kernel

/-- RoundedOnce: powers of two around values. -/
theorem wit_RoundedOnce_powers : (2 : ℚ) ^ (-128 : ℤ) ≤ dyadic 1 (-128) ∧ dyadic 1 (-128) < (2 : ℚ) ^ (-127 : ℤ) ∧
    (2 : ℚ) ^ (128 : ℤ) ≤ dyadic 1 128 ∧ dyadic 1 128 < (2 : ℚ) ^ (129 : ℤ) ∧ (2 : ℚ) ^ (0 : ℤ) ≤ dyadic 3 (-1) ∧
    dyadic 3 (-1) < (2 : ℚ) ^ (1 : ℤ) := by norm_num [dyadic]

/-- RoundedOnce: stochastic results above and below the largest FP4 value. -/
theorem wit_RoundedOnce_stochastic :
    let g := fltFmt 19
    let u (e : Int) : ℚ := (2 : ℚ) ^ (max (e + Nat.log2 1) g.emin - g.fr)
    let w (e : Int) : ℚ := (⌊dyadic 1 e / u e + ((elem 0 12 0 : Nat) : ℚ) / 2 ^ 32⌋ : ℚ) * u e
    (g.unpack g.maxBits).rat < w 3 ∧ w 0 ≤ (g.unpack g.maxBits).rat := by
  have h1 : (fltFmt 19).unpack (fltFmt 19).maxBits = .fin false 3 1 := by decide +kernel
  have h2 : (fltFmt 19).emin = 0 := by decide +kernel
  have h3 : (fltFmt 19).fr = 1 := by decide +kernel
  have h4 : elem 0 12 0 = 0 := by decide +kernel
  simp only [h1, h2, h3, h4, FV.rat, dyadic]
  norm_num [show Nat.log2 1 = 0 from by decide +kernel]

/-- ExactArithmetic: a sum that is not zero, one that cancels, and a product. -/
theorem wit_ExactArithmetic : dyadic 1 0 + dyadic 1 1 ≠ 0 ∧ dyadic 1 1 + -dyadic 2 0 = 0 ∧ (3 : Nat) * 5 ≠ 0 ∧
    dyadic 1 0 * dyadic 1 0 + dyadic 1 0 ≠ 0 := by
  simp only [dyadic]; norm_num

/-- ExactArithmetic, dot products: finite halves, a NaN, an infinity times a zero, and scales that are and are not numbers. -/
theorem wit_ExactArithmetic_dots :
    ((List.range 4).all fun j => (fp16.unpack (elem (op 13 0x3C003C003C003C00 0).a 13 j)) == .fin false 1024 (-10)) = true ∧
    (fp16.unpack (elem (op 13 0x7E00 0).a 13 0)).isNan = true ∧ fp16.unpack (elem (op 13 0x7C00 0).a 13 0) = .inf false ∧
    fp16.unpack (elem (op 13 0x7C00 0).b 13 0) = .fin false 0 (-24) ∧ (op 7 0 0).sat = true ∧ ({ op 7 0 0 with sat := false } : LaneOp).sat = false ∧
    (0x7F7F % 256 ≠ 255 ∧ 0x7F7F / 256 % 256 ≠ 255 ∧ ¬0xFF % 256 ≠ 255) ∧
    ((List.range 16).all fun j => e2m1.unpack (elem (op 19 0x2222222222222222 0).a 19 j) == .fin false 2 (-1)) = true := by decide +kernel

/-- FloatCompares: pairs of infinities, of numbers and of zeros, a quiet and a signalling NaN; SpecialResults: a pair in and one out
of the fix-up range. -/
theorem wit_FloatCompares : (op 12 0x7F800000 0x7F800000).elems = [0, 1] ∧ (op 12 0x7F800000 0x7F800000).va 0 = .inf false ∧
    (op 12 0xFF800000 0x3F800000).va 0 = .inf true ∧ (op 12 0xFF800000 0x3F800000).vb 0 = .fin false 8388608 (-23) ∧
    (op 12 0x80000000 0).va 0 = .fin true 0 (-149) ∧ (op 12 0x80000000 0).vb 0 = .fin false 0 (-149) ∧
    ((op 12 0x7FC00000 0).va 0).isNan = true ∧ ((op 12 0x7FC00000 0).va 0).isSig = false ∧ ((op 12 0x7F800001 0).va 0).isSig = true ∧
    ({ op 12 0 0 with sat := false } : LaneOp).sat = false ∧ (op 12 0 0).cond ≤ 3 ∧ (op 12 0 0).se = none ∧
    (0 < 8388608 ∧ fp32.emin ≤ (-23 : Int) + Nat.log2 8388608 ∧ ¬fp32.emin + 2 ≤ (-149 : Int) + Nat.log2 8388608 - 23) := by decide +kernel

/-- SpecialResults and FloatCompares: operands of each kind. -/
theorem wit_SpecialResults : (FV.inf true).isNan = false ∧ (FV.fin true 1 0).isNan = false ∧ (0 : Nat) < 1 ∧
    fp32.unpack 0x7F800001 = .nan true ∧ fp32.unpack 0x7FC00000 = .nan false ∧ (op 12 0 0).elems.length = 2 ∧ (op 13 0 0).elems.length = 4 ∧
    ({ op 12 0 0 with se := some 1 } : LaneOp).elems = [1] := by decide +kernel

/-- FlagsRaised, in and outside handler mode, with an enable set. -/
theorem wit_FlagsRaised : (gOf handling).inHandler = true ∧ (gOf base).inHandler = false ∧ (31 : Nat) < 32 := by decide +kernel

/-! ### Witnesses: predicates, special registers, cross-lane forms -/

/-- A vector register can be written at once. -/
def mapOk (s : State) (i : Instr) (d : Nat) : Bool :=
  gateOk s (gOf s) (if (Iss.mk' s (gOf s) (eOf s) i).ex = 0 then [] else [d])

theorem mapOk_spec {s : State} {i : Instr} {d : Nat} (h : mapOk s i d = true) : Mappable i s (gOf s) (eOf s) d := gate_spec h

/-- Instructions at issue that can write their vector register. -/
theorem all_mappable {s : State} {l : List (Instr × Nat)} (h : l.all (fun x => ready s x.1 && mapOk s x.1 x.2) = true) :
    ∀ x ∈ l, (AtIssue x.1 s (gOf s) (eOf s) ∧ Only (gOf s) (eOf s)) ∧ Mappable x.1 s (gOf s) (eOf s) x.2 := fun x hx => by
  have := List.all_eq_true.mp h x hx
  simp only [Bool.and_eq_true] at this
  exact ⟨ready_spec this.1, mapOk_spec this.2⟩

def q0 : FQ := { pd := 15, n1 := true, pa := 0, n2 := false, pb := 1 }

theorem wit_PredicateForms :
    (∀ i ∈ [Instr.pand {} q0, .por {} q0, .pxor {} q0, .pnot {} { pd := 15, n1 := true, pa := 0 },
        .movpToPredicates {} { a := .s 2, one := true, pn := 15 }, .movpToPredicates {} { a := .v 1, one := false, pn := 0 }],
      AtIssue i base (gOf base) (eOf base) ∧ Only (gOf base) (eOf base)) ∧
    ∀ x ∈ [(Instr.movpToVector {} { d := 31, one := true, pn := 15 }, 31), (.movpToVector {} { d := 0, one := false, pn := 0 }, 0)],
      (AtIssue x.1 base (gOf base) (eOf base) ∧ Only (gOf base) (eOf base)) ∧ Mappable x.1 base (gOf base) (eOf base) x.2 :=
  ⟨all_ready (by decide +kernel), all_mappable (by decide +kernel)⟩

/-- The base state with its entry in a loop, or a call. -/
def inLoop : State := onEntry (fun e => { e with stack := [.loop (placeVa + 64) (placeVa + 72) 3] }) base
def inCall : State := onEntry (fun e => { e with stack := [.call (placeVa + 68) 2, .loop (placeVa + 64) (placeVa + 72) 1] }) base

theorem wit_SpecialMoves :
    (∀ x ∈ [(Instr.movs {} { sd := false, d := 1, a := .v 0, srn := 0 }, 1), (.movs {} { sd := false, d := 31, a := .v 0, srn := 0x1C }, 31)],
      (AtIssue x.1 base (gOf base) (eOf base) ∧ Only (gOf base) (eOf base)) ∧ Mappable x.1 base (gOf base) (eOf base) x.2) ∧
    (∀ i ∈ [Instr.movs {} { sd := true, d := 15, a := .v 0, srn := 0x1B }, .movs {} { sd := true, d := 0, a := .v 2, srn := 0x3F }],
      AtIssue i base (gOf base) (eOf base) ∧ Only (gOf base) (eOf base)) ∧
    (Iss.mk' base (gOf base) (eOf base) (.movs {} { sd := true, d := 15, a := .v 0, srn := 0x1B })).allWritten = true ∧
    (AMap.get? (gOf base).items 31).isSome = true ∧ (base.die? (gOf base).die).isSome = true ∧
    (eOf inLoop).stack = [.loop (placeVa + 64) (placeVa + 72) 3] ∧ (eOf inCall).stack.head? = some (.call (placeVa + 68) 2) ∧
    (eOf base).stack = [] ∧ (((base.gang? (gOf base).gang).bind fun ga => base.launch? ga.launch).bind fun la => base.ctx? la.ctx).isSome = true :=
  ⟨all_mappable (by decide +kernel), all_ready (by decide +kernel), by decide +kernel⟩

/-- SpecialWrites: each register, with a legal and an illegal mode word at the bounds of RM. -/
theorem wit_SpecialWrites :
    (∀ i ∈ [Instr.movsw {} { a := .s 4, srn := 0x1A }, .movsw {} { a := .s 4, srn := 0x1B }, .movsw {} { a := .s 4, srn := 0x1C }],
      AtIssue i base (gOf base) (eOf base) ∧ Only (gOf base) (eOf base)) ∧
    (∀ i ∈ [Instr.movsw {} { a := .s 4, srn := 0x18 }], AtIssue i inLoop (gOf inLoop) (eOf inLoop) ∧ Only (gOf inLoop) (eOf inLoop)) ∧
    (4#64 &&& ~~~0x1F77#64 = 0 ∧ (4#64).toNat % 8 ≤ 4) ∧ ¬(5#64 &&& ~~~0x1F77#64 = 0 ∧ (5#64).toNat % 8 ≤ 4) ∧
    ¬(8#64 &&& ~~~0x1F77#64 = 0 ∧ (8#64).toNat % 8 ≤ 4) ∧
    (Iss.mk' base (gOf base) (eOf base) (.movsw {} { a := .s 4, srn := 0x1B })).allWritten = true :=
  ⟨all_ready (by decide +kernel), all_ready (by decide +kernel), by decide +kernel⟩

theorem wit_CrossLaneForms :
    (∀ x ∈ [(Instr.shfl {} { wc := 3, d := 5, vs := 1, b := .v 2 }, 5), (.shfl {} { wc := 0, d := 5, vs := 1, b := .const 3 }, 5),
        (.vote {} { op := 2, d := 6, pa := 1, n := true }, 6), (.vote {} { op := 3, d := 6, pa := 1, n := false }, 6),
        (.bcast {} { d := 7, a := .v 1, first := true, lane := 0 }, 7), (.bcast {} { d := 7, a := .s 1, first := false, lane := 31 }, 7)],
      (AtIssue x.1 base (gOf base) (eOf base) ∧ Only (gOf base) (eOf base)) ∧ Mappable x.1 base (gOf base) (eOf base) x.2) ∧
    ∀ i ∈ [Instr.vote {} { op := 0, d := 15, pa := 0, n := false }, .vote {} { op := 1, d := 0, pa := 15, n := true }],
      AtIssue i base (gOf base) (eOf base) ∧ Only (gOf base) (eOf base) :=
  ⟨all_mappable (by decide +kernel), all_ready (by decide +kernel)⟩

theorem wit_FoldForms :
    (∀ x ∈ [(Instr.redg {} { op := 0, d := 5, a := .v 1 }, 5), (.redg {} { op := 5, d := 5, a := .s 1 }, 5),
        (.scang {} { op := 2, incl := true, d := 6, a := .v 1 }, 6), (.scang {} { op := 1, incl := false, d := 6, a := .v 1 }, 6)],
      (AtIssue x.1 base (gOf base) (eOf base) ∧ Only (gOf base) (eOf base)) ∧ Mappable x.1 base (gOf base) (eOf base) x.2) ∧
    0 < typeCount 1 ∧ 7 < typeCount 8 :=
  ⟨all_mappable (by decide +kernel), by decide +kernel⟩

/-! ### Witnesses: control -/

/-- Branches forward within the code, and to the word before it. -/
def fwd : FB := { tpri := 3, off14 := 2 }
def back : FB := { tpri := 3, off14 := 0x3FFF }
/-- Guard p0, which no lane passes, and its other sense, which all pass. -/
def never : Head := { guard := some { p := 0, ps := false } }
def always : Head := { guard := some { p := 0, ps := true } }

theorem wit_BranchForms :
    (∀ i ∈ [Instr.bra {} fwd, .bra never back, .brany always fwd, .brany never back, .brall always fwd, .brall never back],
      AtIssue i base (gOf base) (eOf base) ∧ Only (gOf base) (eOf base)) ∧
    (let u := Iss.mk' base (gOf base) (eOf base) (.bra {} fwd)
     (((eOf base).pc : Int) + 4 * wordOffset none fwd.off14) % 2 ^ 56 = placeVa + 72 ∧ u.targetOk (placeVa + 72) = true ∧
     u.targetOk (placeVa + 60) = false) ∧
    (gOf base).passes never.guard 0 = false ∧ (gOf base).passes always.guard 31 = true :=
  ⟨all_ready (by decide +kernel), by decide +kernel⟩

/-- The base state with an offset into the kernel object in s4. -/
def offset (n : Nat) : State := onGroup (fun g => { g with s := [(4, BitVec.ofNat 64 n)] }) base

theorem wit_CallForms :
    (∀ i ∈ [Instr.call {} fwd, .call always fwd], AtIssue i base (gOf base) (eOf base) ∧ Only (gOf base) (eOf base)) ∧
    (∀ i ∈ [Instr.ret {}, .ret always, .ret never], AtIssue i inCall (gOf inCall) (eOf inCall) ∧ Only (gOf inCall) (eOf inCall)) ∧
    (∀ i ∈ [Instr.brx {} { tpri := 15, a := .s 4 }], AtIssue i (offset 64) (gOf (offset 64)) (eOf (offset 64)) ∧
      Only (gOf (offset 64)) (eOf (offset 64))) ∧
    (let u := Iss.mk' inCall (gOf inCall) (eOf inCall) (.ret {})
     (eOf inCall).stack = [] ++ .call (placeVa + 68) 2 :: [.loop (placeVa + 64) (placeVa + 72) 1] ∧ u.targetOk (placeVa + 68) = true) ∧
    (eOf base).stack.length < 4 ∧ (base.codeSpan (gOf base)).1 = placeVa ∧
    (Iss.mk' base (gOf base) (eOf base) (.call {} fwd)).targetOk (placeVa + 72) = true ∧
    readSrc (gOf (offset 64)) 31 [] 0 (.s 4) = 64 ∧
    (Iss.mk' (offset 64) (gOf (offset 64)) (eOf (offset 64)) (.brx {} { tpri := 15, a := .s 4 })).targetOk (placeVa + 64) = true :=
  ⟨all_ready (by decide +kernel), all_ready (by decide +kernel), all_ready (by decide +kernel), by decide +kernel⟩

/-- LoopForms: counts of zero, and of one; the end of a body met with counts 1 and 2, and not met; `yield` beside an entry elsewhere. -/
theorem wit_LoopForms :
    (∀ i ∈ [Instr.loop {} { sc := 4, off14 := 2 }, .rfpt {}, .yield {}], AtIssue i base (gOf base) (eOf base) ∧ Only (gOf base) (eOf base)) ∧
    (∀ i ∈ [Instr.loop {} { sc := 4, off14 := 2 }], AtIssue i (offset 1) (gOf (offset 1)) (eOf (offset 1)) ∧
      Only (gOf (offset 1)) (eOf (offset 1))) ∧
    (gOf base).getS 4 = 0 ∧ (gOf (offset 1)).getS 4 = 1 ∧
    (Iss.mk' base (gOf base) (eOf base) (.loop {} { sc := 4, off14 := 2 })).targetOk (placeVa + 76) = true ∧
    (let e (n : Nat) : Entry := { eOf base with stack := [.loop (placeVa + 64) (placeVa + 64) (BitVec.ofNat 32 n)] }
     (e 2).pc ≤ placeVa + 64 ∧ placeVa + 64 < (e 2).pc + 4 * 1 ∧ ¬placeVa + 68 < (e 1).pc + 4 * 1 ∧ 2 ≤ (2#32).toNat ∧ (1#32).toNat ≤ 1) ∧
    (eOf base).mask ≠ 0 ∧ (gOf base).front = [eOf base] :=
  ⟨all_ready (by decide +kernel), all_ready (by decide +kernel), by decide +kernel⟩

/-- The offset state with a full control stack of loop records. -/
def fullStack : State :=
  onGroup (fun g => { g with s := [(4, 1)], entries := g.entries.map fun e => { e with stack := List.replicate 4 (.loop 0 4 1) } }) base

/-- The base state inside a call that returns into the kernel object's header. -/
def inBadCall : State := onEntry (fun e => { e with stack := [.call (placeVa + 60) 2] }) base

/-- ControlTraps: targets outside the code for the uniform branches, a loop that skips its body, `brx` and `ret`. -/
theorem wit_ControlTraps_targets :
    (∀ i ∈ [Instr.brany always back, .brall always back, .loop {} { sc := 4, off14 := 16 }, .brx {} { tpri := 3, a := .s 4 }],
      AtIssue i base (gOf base) (eOf base) ∧ Only (gOf base) (eOf base)) ∧
    (∀ i ∈ [Instr.ret {}], AtIssue i inBadCall (gOf inBadCall) (eOf inBadCall) ∧ Only (gOf inBadCall) (eOf inBadCall)) ∧
    (let outside (i : Instr) (t : Nat) : Bool := !(Iss.mk' base (gOf base) (eOf base) i).targetOk t
     outside (.brany always back) (placeVa + 60) && outside (.brall always back) (placeVa + 60) &&
       outside (.loop {} { sc := 4, off14 := 16 }) (placeVa + 132) && outside (.brx {} { tpri := 3, a := .s 4 }) placeVa) = true ∧
    (eOf base).mask.toList.all (fun l => (gOf base).passes always.guard l) = true ∧ (eOf base).mask ≠ 0 ∧ (gOf base).getS 4 = 0 ∧
    (eOf base).readDone = 0 ∧ (base.codeSpan (gOf base)).1 = placeVa ∧
    (eOf inBadCall).stack = [] ++ .call (placeVa + 60) 2 :: [] ∧
    (Iss.mk' inBadCall (gOf inBadCall) (eOf inBadCall) (.ret {})).targetOk (placeVa + 60) = false :=
  ⟨all_ready (by decide +kernel), all_ready (by decide +kernel), by decide +kernel⟩

/-- ControlTraps: targets outside the code and stacks without room, for each form. -/
theorem wit_ControlTraps :
    (∀ i ∈ [Instr.bra {} back, .call {} back], AtIssue i base (gOf base) (eOf base) ∧ Only (gOf base) (eOf base)) ∧
    (∀ i ∈ [Instr.call {} fwd, .loop {} { sc := 4, off14 := 1 }, .ret {}], AtIssue i fullStack (gOf fullStack) (eOf fullStack) ∧
      Only (gOf fullStack) (eOf fullStack)) ∧
    (Iss.mk' base (gOf base) (eOf base) (.bra {} back)).targetOk (placeVa + 60) = false ∧
    (Iss.mk' base (gOf base) (eOf base) (.call {} back)).targetOk (placeVa + 60) = false ∧ (eOf fullStack).stack.length = 4 ∧
    (eOf base).stack.length < 4 ∧ (gOf fullStack).getS 4 = 1 ∧
    (eOf fullStack).stack.any (fun x => match x with | .call .. => true | _ => false) = false ∧ (gOf base).passes none 0 = true :=
  ⟨all_ready (by decide +kernel), all_ready (by decide +kernel), by decide +kernel⟩

/-! ### Witnesses: accesses -/

/-- The base state with a store range of its gang, and in s4 the address of a data word, in s5 that of a granule of the range. -/
def data : State :=
  { (onGroup (fun g => { g with s := [(4, BitVec.ofNat 64 (placeVa + 128)), (5, 0xFD000000000010)] }) base) with
    gangs := base.gangs.map fun ga => { ga with start := 4096, size := 4096 } }

def m4 : FM := { cc := 3, d := 4, a := .s 4, off5 := 0 }
def m5 : FM := { cc := 0, d := 4, a := .s 5, off5 := 0 }

/-- Where a lane's address leads. -/
def planOf (s : State) (i : Instr) (l : Nat) : Option Plan :=
  i.accForm.map fun f => s.planAddr (gOf s) f (f.needsWindow i.head.hints) ((gOf s).effAddr f l)

/-- The access form can issue at once for every lane. -/
def accOk (s : State) (i : Instr) : Bool :=
  ready s i && i.head.hints.rep.isNone && (eOf s).repi == 0 && (Iss.mk' s (gOf s) (eOf s) i).ex == 0xFFFFFFFF &&
    (match i.accForm with
     | some f => decide (s.counter (gOf s).id ((gOf s).ctr f.cc) < 63) && gateOk s (gOf s) (accResults f)
     | none => false) &&
    !s.orderHolds (gOf s) 0xFFFFFFFF i.head.hints.rel &&
    lanes.all fun l => match planOf s i l with | some (.go ..) => true | some (.skip _) => true | _ => false

def n64 : Head := { hints := { type := some { ty := 2, se := false, sub := 0 } } }

/-- ChainCompletes: `add` (to the latch alone) and `stB64 v0`, for every lane. -/
theorem wit_ChainCompletes_store :
    let i := Instr.add { hints := { chain := some 1 } } { fr with nw := true, d := 0 }
    let st := Instr.stB64 {} { cc := 3, d := 0, a := .s 4, off5 := 0 }
    let s : State := data.wr (placePa + 68) 4 0x00C01000 |>.wr (placePa + 72) 4 0x026F0680
    let g := gOf s
    let e := eOf s
    let ds : List Decoded := [{ instr := some st, codes := [], words := 1 }]
    let r := ChainRun.lanes [(i, e.pc)] s.draw (Iss.mk' s g e i).act.toList { g := g }
    s.group? s.cur = some g ∧ Entry.select g.front = some e ∧ g.front = [e] ∧ (match s.members g 1 (e.pc + 8) with | .ok xs => xs == ds | _ => false) = true ∧
    lowestCode (unitCodes i ds) = none ∧ g.inHandler = false ∧
    ([i, st].any fun i => (i.vreads ++ i.vwrites).any (s.pendV g) || i.preds.any (s.pendP g)) = false ∧ st.isStore = true ∧
    chainMembers i e ds = [(i, e.pc)] ++ [(st, e.pc + 8)] ∧ gateOk s g r.written = true ∧
    (st.accForm.map fun f => decide (s.counter g.id (g.ctr f.cc) < 63) && !s.orderHolds g 0xFFFFFFFF false &&
      lanes.all fun l => match s.planAddr g f (f.needsWindow st.head.hints) (r.g.effAddr f l (AMap.getD r.lats l [])) with
        | .go .. => true
        | _ => false) = some true := by decide +kernel

/-- AccessIssue: every access form but `ldfe`, on a translated address where it may have one and on a window address. -/
theorem wit_AccessIssue : [Instr.ldN8 {} m4, .ldN16 {} m4, .ldN32 {} m4, .ldB64 {} m4, .ldS8 {} m4, .ldS16 {} m4, .ldS32 {} m4,
      .stB8 {} m4, .stB16 {} m4, .stB32 {} m4, .stB64 {} m4, .atom n64 m4, .atomf { hints := { type := some { ty := 11, se := false, sub := 0 } } } m4,
      .cas {} m4, .pref {} { cc := 0, a := .s 4, off5 := 0 }, .cinv {} { cc := 0, a := .s 4, off5 := 0 }, .cwb {} { cc := 0, a := .s 5, off5 := 0 },
      .ldB64 {} m5, .stB64 {} m5, .stfe {} m5, .fefill {} m5, .feq {} { cc := 1, pd := 15, a := .s 5, off5 := 0 }].all (accOk data) = true ∧
    ready data (.ldB64 never m4) = true ∧ (Iss.mk' data (gOf data) (eOf data) (.ldB64 never m4)).ex = 0 := by decide +kernel

/-- AccessIssue, repeated: `rep 1` on a load of one register after another, and on a store, at addresses that translate. -/
theorem wit_AccessIssue_rep :
    let s : State := onGroup (fun g => (g.setV 4 0 7).setV 5 0 8) data
    let r : RepHint := { cnt := 1, sd := true, sa := false, sb := false }
    let h : Head := { hints := { rep := some r } }
    let g := gOf s
    let e := eOf s
    (∀ i ∈ [Instr.ldB64 h m4, .stB64 h m4], AtIssue i s g e ∧ Only g e) ∧ e.repi = 0 ∧ s.accs = [] ∧
    ([Instr.ldB64 h m4, .stB64 h m4].all fun i => match i.accForm with
      | none => false
      | some f0 =>
        let f (j : Nat) : AccForm := { f0 with d := if r.sd then f0.d + j else f0.d, a := Src.step r.sa j f0.a }
        i.head.hints.rep == some r && !i.head.hints.acq && !i.head.hints.rel && decide (s.counter g.id (g.ctr f0.cc) + 1 < 63) &&
        (match f0.kind with | .load _ => true | .store => true | _ => false) &&
        i.vwrites.all (s.mappedRegs g).contains && (accResults (f 0)).all (!(AccForm.names (f 1)).contains ·) &&
        [0, 1].all fun j => lanes.all fun l =>
          match { s with walks := [] }.planAddr g (f j) (f0.needsWindow i.head.hints) (g.effAddr (f j) l) with
          | .go .. => true
          | _ => false) = true :=
  ⟨all_ready (by decide +kernel), by decide +kernel⟩

/-- AccessFaults: misaligned, a full/empty form on a translated address, a translation fault, outside the windows' ranges, misaligned
in one, and the first address it may use; and a form whose lane 0 faults. -/
theorem wit_AccessFaults :
    let g := gOf data
    let at' (i : Instr) (ea : Nat) := i.accForm.map fun f => data.planAddr g f (f.needsWindow i.head.hints) ea
    at' (.ldB64 {} m4) (placeVa + 1) = some (.bad 9 1 (placeVa + 1)) ∧ at' (.stfe {} m4) placeVa = some (.bad 9 2 placeVa) ∧
    at' (.ldB64 {} m4) 0xFD000000001000 = some (.bad 9 0 0xFD000000001000) ∧ at' (.ldB64 {} m4) 0xFD000000000001 = some (.bad 9 1 0xFD000000000001) ∧
    at' (.ldB64 {} m4) 0xFD000000000FF8 = some (.go 0xFD000000000FF8 (storeLoc 0 0 8184) 0 none) ∧
    (let s := onGroup (fun g => { g with s := [(4, BitVec.ofNat 64 (placeVa + 129))] }) data
     ready s (.ldB64 {} m4) = true ∧ (gOf s).inHandler = false ∧ planOf s (.ldB64 {} m4) 0 = some (.bad 9 1 (placeVa + 129)) ∧
     s.counter (gOf s).id 3 < 63 ∧ gateOk s (gOf s) [4] = true ∧
     s.orderHolds (gOf s) (Iss.mk' s (gOf s) (eOf s) (.ldB64 {} m4)).ex false = false) := by decide +kernel

/-- LdfeWaitk: no lane sent, all on their way, all read; a counter that is zero, and one that is not. -/
theorem wit_LdfeWaitk :
    let i := Instr.ldfe {} m5
    let todo (s : State) := (gOf s).execMask i (eOf s).mask &&& ~~~(eOf s).readDone
    let send (s : State) := todo s &&& ~~~(Iss.mk' s (gOf s) (eOf s) i).inFlight
    let read := onEntry (fun e => { e with readDone := 0xFFFFFFFF, park := none }) data
    let sent : State := { data with
      ops := [{ id := 60, grp := 3, ctr := 0, lanes := 0xFFFFFFFF }]
      accs := lanes.map fun l => { id := 70 + l, op := 60, grp := 3, die := 0, lane := l, kind := .ldfe, va := 0, loc := storeLoc 0 0 4112,
                                   size := 8, d := 5, phase := .atBank, pc := placeVa + 64 } }
    ready data i = true ∧ send data = 0xFFFFFFFF ∧ data.counter 3 0 < 63 ∧ gateOk data (gOf data) [4] = true ∧
    data.orderHolds (gOf data) (send data) false = false ∧
    lanes.all (fun l => match planOf data i l with | some (.go ..) => true | _ => false) = true ∧
    ready read i = true ∧ todo read = 0 ∧ ready sent i = true ∧ todo sent ≠ 0 ∧ send sent = 0 ∧
    ready data (.waitk {} { mask := 15 }) = true ∧ (List.range 4).all (fun k => data.counter 3 k == 0) = true ∧
    ready sent (.waitk {} { mask := 1 }) = true ∧ sent.counter 3 0 ≠ 0 := by decide +kernel

/-- One access at the first bank of a store, and the state that holds it. -/
def acc (k : AccKind) (fe : Nat) : Access :=
  { id := 9, op := 8, grp := 3, die := 0, lane := 31, kind := k, va := 0, loc := storeLoc 0 0 4096, size := 8, d := 31, fe := fe, phase := .atBank }
def withAcc (a : Access) : State := { data with accs := [a] }
/-- The same with the granule full. -/
def full (a : Access) : State := { withAcc a with full := [a.loc / 16] }

/-- A request of an engine for a granule of the same bank. -/
def unitReq : UnitReq := { id := 12, owner := .copy 80, die := 0, loc := storeLoc 0 0 4096, ctx := 1 }

/-- AccessesAct: what the first clause asks of the bank, with an access and a request at it, and what the second asks of each kind. -/
theorem wit_AccessesAct :
    (let a := acc .store 1
     let s := withAcc a
     let r : State := { data with reqs := [unitReq] }
     let off (s : State) : State := s.updCluster 0 0 fun c => { c with quarters := [.waking, .on, .on, .on] }
     s.relocking 0 = false ∧ ({ s with reqs := [unitReq] } : State).accs.map (·.id) = [9] ∧ r.reqs.map (·.id) = [12] ∧ s.bankQueue 0 0 0 = [] ∧
     (s.enterBank 0 0 0).bankQueue 0 0 0 = [.acc { a with queued := s.next }] ∧ (data.enterBank 0 0 0).bankQueue 0 0 0 = [] ∧
     (r.enterBank 0 0 0).bankQueue 0 0 0 = [.unit { unitReq with queued := r.next }] ∧
     ((s.enterBank 0 0 0).cluster 0 0).quarters.getD 0 .off = .on ∧ ((off s).enterBank 0 0 0).bankQueue 0 0 0 ≠ [] ∧
     ((off s).enterBank 0 0 0).quarterOn a.loc = false ∧ ((off r).enterBank 0 0 0).bankQueue 0 0 0 ≠ [] ∧
     (s.updDie 0 fun d => { d with relock := some 5 }).relocking 0 = true) ∧
    (let a := acc .store 1
     let s := withAcc a
     a ∈ s.accs ∧ a.home = a.die ∧ a.phase = .atBank ∧ a.dst = .lane ∧ a.discard = [] ∧ isStoreLoc a.loc = true ∧ s.memOk = true ∧
     (s.group? a.grp).isSome = true ∧ s.poisoned a.loc 8 = false ∧ s.waitersOf a.loc = [] ∧ a.lane < 32 ∧ a.hnd = (gOf s).inHandler) ∧
    (let a := acc .ldfe 3
     (full a).isFull a.loc = true ∧ (withAcc a).isFull a.loc = false ∧ (gOf (withAcc a)).die = locDie a.loc ∧
     (gOf (withAcc a)).cluster = locCluster a.loc ∧ (withAcc a).memOk = true ∧ (full a).poisoned a.loc 8 = false) ∧
    0 < typeCount 1 ∧ 15 < typeCount 10 ∧ (15 : Nat) < 16 := by decide +kernel

/-- An access to device memory, and the base state with it and its counted operation done. -/
def hbm (p : AccPhase) : Access :=
  { acc (.load false) 1 with loc := placePa + 128, phase := p, tag := 5 }
def withHbm (a : Access) : State := { data with accs := [a], ops := [{ id := 8, grp := 3, ctr := 0, lanes := 1 }] }

/-- Its packet. -/
def accPacket (ctx : Nat) : Packet := { unit := false, id := 9, kind := 0, ctx := ctx, part := 0 }

/-- The one element of a list for which a condition holds. -/
def sole {α : Type} [DecidableEq α] (p : α → Bool) (l : List α) (a : α) : Bool := l.filter p == [a]

theorem sole_spec {α : Type} [DecidableEq α] {p : α → Bool} {l : List α} {a : α} (h : sole p l a = true) : Sole p l a := by
  simp only [sole, beq_iff_eq] at h
  have ha : a ∈ l.filter p := by rw [h]; simp
  refine ⟨(List.mem_filter.mp ha).1, (List.mem_filter.mp ha).2, fun b hb hp => ?_⟩
  have : b ∈ l.filter p := List.mem_filter.mpr ⟨hb, hp⟩
  rw [h] at this; simpa using this

/-- AccessSteps, clause by clause (`sole` as in `sole_spec`). -/
theorem wit_AccessSteps :
    (let s : State := { withHbm (hbm .toHbm) with accs := [] }
     let o : CountedOp := { id := 8, grp := 3, ctr := 0, lanes := 1 }
     sole (fun p => p.id == o.id) s.ops o = true ∧ o.ready = true ∧ o.engine = false ∧ o.ctr ≠ 9 ∧ o.poisoned = 0 ∧ ∀ b ∈ s.accs, b.op ≠ o.id) ∧
    (let s := withHbm (hbm .toHbm)
     let d : Die := (s.die? 0).getD { num := 0 }
     let r : UnitReq := { unitReq with loc := placePa + 128, write := true }
     let u : State := { data with reqs := [r] }
     s.die? d.num = some d ∧ d.slotOwner (hbmChannel (placePa + 128)) 0 = 4 ∧ (hbm .toHbm).started = false ∧ (hbm .toHbm).home = d.num ∧
     (hbm .toHbm).tag < noTag ∧ s.packets 0 (hbmChannel (placePa + 128)) = [accPacket 0] ∧ (∀ b ∈ s.accs, b.id = 9 → b = hbm .toHbm) ∧
     (withHbm { hbm .remoteWrite with tag := noTag }).freeTag 0 < noTag ∧ isDevice (placePa + 128) = true ∧
     u.packets 0 (hbmChannel (placePa + 128)) = [{ unit := true, id := 12, kind := 2, ctx := 1, part := 0 }] ∧ u.freeTag 0 = 0 ∧
     sole (fun q => q.id == 12) u.reqs r = true ∧
     sole (fun q => isDevice q.loc && q.home == 0 && q.tag == 6 && q.started && !q.done) ({ u with reqs := [{ r with started := true, tag := 6 }] } : State).reqs
       { r with started := true, tag := 6 } = true ∧ u.accs = [] ∧ r.owner ≠ .fetch 3 0) ∧
    (let ch := hbmChannel (placePa + 128)
     let slots (r : ShareRec) (ctx : Nat) : State :=
       (withHbm { hbm .toHbm with ctx := ctx }).updDie 0 fun d => { d with channels := [(ch, 1 * 2 ^ (3 * 5))], shares := [(1, r)] }
     let d (s : State) : Die := (s.die? 0).getD { num := 0 }
     let own : ShareRec := { valid := true, ctx := 1 }
     (d (slots own 1)).slotOwner ch 5 = 1 ∧ (AMap.getD (d (slots own 1)).shares 1 {}).valid = true ∧
     (slots own 1).packets 0 ch = [accPacket 1] ∧ (AMap.getD (d (slots own 1)).shares 1 {}).ctx = 1 ∧
     (slots { own with don := true } 2).packets 0 ch = [accPacket 2] ∧ (AMap.getD (d (slots { own with don := true } 2)).shares 1 {}).don = true) ∧
    (let a := { hbm .toHbm with started := true }
     sole (fun b => b.phase == .toHbm && b.home == a.home && b.tag == a.tag && b.started) (withHbm a).accs a = true ∧ (withHbm a).mustFollow a = false ∧
     a.die = a.home ∧ a.repl = none) ∧
    (let a := hbm .hbmDone
     sole (fun b => b.phase == .hbmDone && b.home == a.home && b.tag == a.tag) (withHbm a).accs a = true ∧ a.bad = false ∧
     (withHbm a).relocking a.home = false) := by
  decide +kernel

/-- AccessSteps, accesses of other dies, of other packages and of the host. -/
theorem wit_AccessSteps_links :
    (let a := { acc .store 1 with phase := .remoteWrite, die := 1 }
     let s : State := { withHbm a with dies := data.dies ++ [{ num := 1 }], streams := [{ id := 40, cmd := 0, src := 1, dst := 0, opened := true }] }
     sole (fun b => b.id == a.id && b.phase == .remoteWrite) s.accs a = true ∧ s.mustFollow a = false ∧ s.clockHolds a = false ∧
     s.quarterOn a.loc = true ∧ isDevice a.loc = false ∧ isDevice (placePa + 128) = true ∧ a.repl = none ∧
     s.itemStreamOpen a.die a.home = true ∧ s.stalledPair a.die a.home = false ∧ s.relocking a.home = false ∧ a.kind.writes = true ∧
     { a with seqNo := 1 }.seqNo = 0 + 1) ∧
    (let a := { acc (.load true) 1 with phase := .remoteReply, home := 1 }
     let s : State := { withHbm a with dies := data.dies ++ [{ num := 1 }] }
     sole (fun b => b.id == a.id && b.phase == .remoteReply) s.accs a = true ∧ a.bad = false ∧ s.stalledPair a.home a.die = false ∧
     s.relocking a.die = false ∧ s.replyHeld a = false) ∧
    (let a := { acc (.load true) 1 with phase := .toHost, loc := 2 ^ 51 }
     sole (fun b => b.id == a.id && b.phase == .toHost) (withHbm a).accs a = true ∧ (withHbm a).mustFollow a = false ∧
     (withHbm a).linkHeld a.die a.loc 0 = false ∧ (withHbm a).relocking a.die = false) ∧
    (let a := { acc .store 1 with phase := .toPeer 5 }
     let s := (withHbm a).updPkg fun p => { p with peers := [5] }
     sole (fun b => b.id == a.id) s.accs a = true ∧ s.linkHeld a.die a.loc 6 = false ∧ s.relocking a.die = false ∧
     s.linkHeld a.die (2 ^ 51) 6 = false ∧ (withHbm a).linkHeld a.die (2 ^ 51) 6 = true) ∧
    paHost (placePa + 128) = false ∧ paOk (placePa + 128) = true ∧ (placePa + 128) % 8 = 0 ∧ (data.die? (paDie (placePa + 128))).isSome = true ∧
    data.memOk = true ∧ data.collapsing (placePa + 128) = false ∧ data.copyRead (placePa + 128) = false ∧ 65528 % 8 = 0 ∧ 65528 < 65536 ∧
    (let s := data.updPkg fun p => { p with windows := [(31, {})], scanouts := [{ die := 0, cluster := 1, core := 2, groups := [] }], boot := 3 }
     (AMap.get? s.pkg.windows 31).isSome = true ∧ (s.pkg.scanouts[0]?).isSome = true ∧ 3 ≤ s.pkg.boot) ∧
    (data.updPkg fun p => { p with boot := 3 }).pkg.boot = 3 ∧ (data.updPkg fun p => { p with boot := 4 }).pkg.boot = 4 := by
  decide +kernel

/-! ### Witnesses: tensors and the matrix engine -/

/-- A tensor entry: address, place, format, extents, row pitch. -/
def tensor (base loc fmt d0 d1 rowp : Nat) : Nat :=
  base + loc * 2 ^ 56 + 2 ^ 63 + fmt * 2 ^ 64 + 2 ^ 72 + d0 * 2 ^ 128 + d1 * 2 ^ 160 + 2 ^ 192 + 2 ^ 224 + rowp * 2 ^ 256

/-- The same with 32-element scale blocks along dimension 0, their codes in tensor 5. -/
def scaled (e : Nat) : Nat := e + 5 * 2 ^ 320 + 2 ^ 328 + 2 * 2 ^ 386 + 16 * 2 ^ 416

/-- The tensors of the witnesses: f32, bf16 and fp8 in the gang's range, f32 on the placed page, scaled fp6 and fp4, and scales. -/
def tensors : AMap (BitVec 512) :=
  [(1, tensor 0xFD000000000000 0 2 8 4 32), (2, tensor 0xFD000000000000 0 4 8 4 32), (3, tensor (placeVa + 128) 2 2 4 1 16),
   (4, scaled (tensor 0xFD000000000000 0 7 64 4 64 + 2 ^ 74)), (5, tensor 0 2 10 2 4 16), (6, scaled (tensor 0xFD000000000000 0 9 64 4 32)),
   (7, tensor 0xFD000000000000 0 5 8 4 16)].map fun x => (x.1, BitVec.ofNat 512 x.2)

/-- The data state with those tensors, tile set 1 bound, a descriptor of tensor 1 in s6, one of an absent tensor in s7, one of
tensor k in vector register k of every lane, and an image of tensor 1 at the address in s4. -/
def tiles : State :=
  let s := data.wr (placePa + 128) 64 (tensor 0xFD000000000000 0 2 8 4 32)
  let s := s.updCtx 1 fun c => { c with tensors := tensors }
  let s := s.updGang 2 fun ga => { ga with tset := some 1 }
  let s := s.updCluster 0 0 fun c => { c with tags := [(1, { owned := true, ctx := 1 })] }
  onGroup (fun g => lanes.foldl (fun g l => [2, 4, 6, 7].foldl (fun g r => g.setV r l (BitVec.ofNat 64 (r * 2 ^ 56))) g)
    { g with s := g.s ++ [(6, 1 * 2 ^ 56), (7, 9 * 2 ^ 56)] }) s

/-- Requests of an owner for the bytes at locations, performed. -/
def requested (o : Owner) (reads writes : List Nat) (s : State) : State :=
  let done (w : Bool) (l : Nat) : UnitReq := { id := 500, owner := o, die := 0, loc := l, write := w, started := true, done := true }
  { s with reqs := s.reqs ++ (spansOf reads).map (done false) ++ (spansOf writes).map (done true) }

/-- A block can be read at a virtual address. -/
def blockOk (s : State) (va n loc : Nat) : Bool :=
  let ea := va % 2 ^ 56 / n * n
  !s.poisoned loc n && !s.linkHeld (gOf s).die loc 0 && s.answered (.block (gOf s).id) false (spansOf (bytesFrom loc n)) &&
    (match winOf ea with
     | .translated => s.xlate (gOf s).die (gOf s).cluster (s.groupCtx (gOf s)) ea .read == .ok loc 0
     | _ => ((s.gang? (gOf s).gang).bind fun ga => s.windowLoc ga (s.groupCtx (gOf s)) ea n) == some loc)

theorem blockOk_spec {s : State} {va n loc : Nat} (h : blockOk s va n loc = true) : BlockAt s (gOf s) va n loc := by
  simp only [blockOk, Bool.and_eq_true, Bool.not_eq_true'] at h
  obtain ⟨⟨⟨h1, h2⟩, h3⟩, h4⟩ := h
  refine ⟨h1, h2, h3, ?_⟩
  split at h4
  · rename_i hw; exact .inl ⟨hw, by simpa using h4⟩
  · rename_i hw; exact .inr ⟨fun hh => hw hh, by simpa using h4⟩

/-- The tiles state in which the blocks that its group may read have been read. -/
def blocks : State := requested (.block 3) (bytesFrom (placePa + 128) 64 ++ bytesFrom (storeLoc 0 0 4096) 64) [] tiles

/-- TensorForms: each form, a block in memory and one in the store, and the probe's cases: a page that the TLBs hold, one that a finished
walk found absent, one that nothing holds yet, the lens page, and an address of a window. -/
theorem wit_TensorForms :
    (∀ i ∈ [Instr.tdef {} { tid := 255, sd := 1, sa := 4 }, .tinv {} { tid := 1 }, .tlbp {} { sd := 0, sa := 4 }, .tlbpFill {} { sd := 15, sa := 4 },
        .tlbpFill {} { sd := 15, sa := 5 }], AtIssue i blocks (gOf blocks) (eOf blocks) ∧ Only (gOf blocks) (eOf blocks)) ∧
    (∀ x ∈ [(Instr.tget {} { d := 31, a := .const 1, w := 7 }, 31), (.tget {} { d := 0, a := .const 0, w := 0 }, 0)],
      (AtIssue x.1 blocks (gOf blocks) (eOf blocks) ∧ Only (gOf blocks) (eOf blocks)) ∧ Mappable x.1 blocks (gOf blocks) (eOf blocks) x.2) ∧
    BlockAt blocks (gOf blocks) ((gOf blocks).getS 4).toNat 64 (placePa + 128) ∧
    BlockAt blocks (gOf blocks) ((gOf blocks).getS 5).toNat 64 (storeLoc 0 0 4096) ∧
    (blocks.groupContext? (gOf blocks)).isSome = true ∧ tdefStatus (Memory.readN blocks.mem (placePa + 128) 64) = 0 ∧
    tdefStatus (Memory.readN blocks.mem (storeLoc 0 0 4096) 64) = 1 ∧
    (let va := placeVa + 128
     let s := tiles
     let g := gOf s
     let none' (w : Option (Nat × Nat × BitVec 64)) : State :=
       { s with walks := [{ id := 50, die := 0, cluster := 0, ctx := 1, vpn := 2 ^ 39, phase := .done w 0 }] }
     s.probe g va = some (.ok (4, placePa + 15, placePa + 128)) ∧ winOf va = .translated ∧
     s.probeWord g va = some (2 ^ 63 + 2 ^ 55 + placePa + 128) ∧ winOf 0xFD000000000010 ≠ .translated ∧
     s.probeWord g 0xFD000000000010 = some (7 * 2 ^ 60) ∧ ((s.groupContext? g).map (·.lens / 65536)) = some (2 ^ 24) ∧ va / 65536 ≠ 2 ^ 24 ∧
     s.held g.die g.cluster (s.groupCtx g) (65536 * 2 ^ 39) = none ∧ s.probeWord g (65536 * 2 ^ 39) = none ∧
     (none' none).probe g (65536 * 2 ^ 39) = some (.error 0)) :=
  ⟨all_ready (by decide +kernel), all_mappable (by decide +kernel), blockOk_spec (by decide +kernel), blockOk_spec (by decide +kernel),
   by decide +kernel⟩

/-- The gang of the group at issue. -/
def gaOf (s : State) : Gang := (s.gang? (gOf s).gang).getD { id := 0, launch := 0, serial := 0, pdie := 0, ngroups := 1, die := 0, cluster := 0 }

/-- The tiles state with one lane, the last that its convergence register 0 awaits. -/
def lastSigner : State :=
  (onEntry (fun e => { e with mask := 0x80000000 }) tiles).updGang 2 fun ga => { ga with cv := [(0, { sig := 31 })] }

/-- The tiles state without a set, where four other gangs hold all sets; and where another gang's data claim the set. -/
def noSet : State := { tiles with
  gangs := (tiles.gangs.map fun (ga : Gang) => { ga with tset := none }) ++ (List.range 4).map fun n => { id := 60 + n, launch := 1, serial := 9, pdie := 0, ngroups := 1, die := 0, cluster := 0, tset := some n } }
def claimed : State := tiles.updCluster 0 0 fun c => { c with tags := [(1, { owned := true, ctx := 2, held := 1 })] }

def zeroOp : MatOp := { stamp := 1, mask := 0x8001, kind := .zero }
/-- The last signer of a group whose matrix queue is full. -/
def fullQueue : State := onGroup (fun g => { g with matq := List.replicate 4 zeroOp }) lastSigner

theorem wit_MatrixForms :
    (∀ i ∈ [Instr.mzero {} { mask := 0xFFFF }, .mload {} { mt := 15, sa := 6 }, .mload {} { mt := 0, sa := 7 }, .mstore {} { mt := 0, sa := 6 },
        .mmaW16 {} { mt := 3, cv := 0, va := 2, vb := 2 }, .mmaW8 {} { mt := 3, cv := 0, va := 7, vb := 7 },
        .mmaW6 {} { mt := 3, cv := 0, va := 4, vb := 4 }, .mmaW4 {} { mt := 3, cv := 7, va := 6, vb := 6 },
        .mmaW16 {} { mt := 3, cv := 0, va := 2, vb := 4 }, .mwait {} { mask := 1 }, .cvset {} { cv := 7, cm1 := 511 }, .savept {} { mask := 0 }],
      AtIssue i tiles (gOf tiles) (eOf tiles) ∧ Only (gOf tiles) (eOf tiles)) ∧
    (∀ i ∈ [Instr.mmaW16 {} { mt := 3, cv := 0, va := 2, vb := 2 }], AtIssue i lastSigner (gOf lastSigner) (eOf lastSigner) ∧
      Only (gOf lastSigner) (eOf lastSigner)) ∧
    (∀ i ∈ [Instr.mmaW4 {} { mt := 3, cv := 0, va := 6, vb := 6 }], AtIssue i fullQueue (gOf fullQueue) (eOf fullQueue) ∧
      Only (gOf fullQueue) (eOf fullQueue)) ∧
    (∀ i ∈ [Instr.mzero {} { mask := 1 }], AtIssue i noSet (gOf noSet) (eOf noSet) ∧ Only (gOf noSet) (eOf noSet)) ∧
    (∀ i ∈ [Instr.mzero {} { mask := 1 }], AtIssue i claimed (gOf claimed) (eOf claimed) ∧ Only (gOf claimed) (eOf claimed)) ∧
    HoldsSet tiles (gOf tiles) (gaOf tiles) 1 ∧ HoldsSet lastSigner (gOf lastSigner) (gaOf lastSigner) 1 ∧
    HoldsSet fullQueue (gOf fullQueue) (gaOf fullQueue) 1 ∧
    ((gOf tiles).matq.length < 4 ∧
     (let t := tiles.ent 1 1
      t.testBit 63 = true ∧ Ent.matLoc t (gOf tiles) = true ∧ Ent.fmt t = 2 ∧ (tiles.ent 1 9).testBit 63 = false) ∧
     (let fault (w k : Nat) := tiles.descFault (gOf tiles) 1 w (BitVec.ofNat 64 (k * 2 ^ 56)) (BitVec.ofNat 64 (k * 2 ^ 56))
      fault 16 2 = none ∧ fault 8 7 = none ∧ fault 6 4 = none ∧ fault 4 6 = none) ∧
     tiles.descFault (gOf tiles) 1 16 (2 * 2 ^ 56) (4 * 2 ^ 56) = some 4 ∧ (eOf tiles).mid = false ∧ ((gaOf tiles).cvAt 0).hold = none ∧
     tiles.orderHolds (gOf tiles) (eOf tiles).mask true = false ∧ tiles.orderHolds (gOf tiles) (Mask.one 0) true = false ∧
     ((gaOf tiles).cvAt 0).sig < ((gaOf tiles).cvAt 0).cm1 ∧ ((gaOf lastSigner).cvAt 0).sig = ((gaOf lastSigner).cvAt 0).cm1 ∧
     ((gaOf lastSigner).cvAt 0).hold = none ∧ lastSigner.orderHolds (gOf lastSigner) (Mask.one 31) true = false ∧
     (gOf lastSigner).matq.length < 4 ∧ 4 ≤ (gOf fullQueue).matq.length ∧ ((gaOf fullQueue).cvAt 0).sig = ((gaOf fullQueue).cvAt 0).cm1 ∧
     (eOf lastSigner).mask.toList = [31] ∧ (gaOf noSet).tset = none ∧ (gOf noSet).tileWait = none ∧
     noSet.setFor (gaOf noSet) noSet.next = none ∧
     claimed.claim (gaOf claimed) 1 1 = .trap 0 ∧ (gaOf claimed).tset = some 1) ∧
    (tiles.groups.all fun x => x.matq.all fun o => o.mask &&& 1 == 0) = true ∧ ready (onGroup (fun g => g.enqueue zeroOp) tiles) (.mwait {} { mask := 1 }) = true ∧
    zeroOp.mask &&& 1 ≠ 0 ∧ (tiles.groupContext? (gOf tiles)).map (·.savem) = some false ∧
    ((tiles.updCtx 1 fun c => { c with savem := true }).groupContext? (gOf tiles)).map (·.savem) = some true :=
  ⟨all_ready (by decide +kernel), all_ready (by decide +kernel), all_ready (by decide +kernel), all_ready (by decide +kernel),
   all_ready (by decide +kernel), by unfold HoldsSet; decide +kernel, by unfold HoldsSet; decide +kernel, by unfold HoldsSet; decide +kernel,
   by decide +kernel⟩

/-- The tiles state with an operation queued, and running. -/
def queued (o : MatOp) : State := onGroup (fun g => g.enqueue o) tiles
def runningOp (o : MatOp) : State := (queued o).updCluster 0 0 fun c => { c with running := some (3, o) }

/-- The requests of the engine for its operation. -/
def matGate (s : State) (o : MatOp) : State × Bool :=
  s.gate { owner := .matrix o.stamp, die := 0, cluster := 0, port := 4, ctx := 1, part := s.groupPart (gOf s) } (s.matNeed (gaOf s) 1 o)

/-- Clauses of MatrixSteps: a start; completions of each kind; the window of an idle and of a busy tile; a freed set. -/
theorem wit_MatrixSteps :
    (let s := queued zeroOp
     let g := gOf s
     (s.cluster 0 0).running = none ∧ (s.cluster 0 0).power = .awake ∧ s.relocking 0 = false ∧ g ∈ s.residents 0 0 ∧ g.matq = zeroOp :: [] ∧
     (s.residents 0 0).length = 1 ∧ g.core < 4 ∧ g.slot < 32 ∧ (gaOf s).tset = some 1 ∧ s.eligible 0 0 zeroOp 1 = true ∧
     (gaOf s).preempting = false ∧ (gaOf s).restoredOps = false) ∧
    (let s := runningOp zeroOp
     s.memOk = true ∧ (matGate s zeroOp).2 = true ∧ (s.cluster 0 0).running = some (3, zeroOp) ∧ s.group? 3 = some (gOf s) ∧ (gaOf s).die = 0 ∧
     (gaOf s).cluster = 0 ∧ (gaOf s).tset = some 1 ∧ zeroOp.mask.getLsbD 15 = true ∧ s.relocking 0 = false ∧
     ((runningOp zeroOp).updDie 0 fun d => { d with relock := some 5 }).relocking 0 = true) ∧
    (let o (k : MatKind) : MatOp := { stamp := 1, mask := 1, kind := k, ta := BitVec.ofNat 512 (tiles.ent 1 1) }
     let need := tiles.matNeed (gaOf tiles) 1 (o (.load (2 ^ 56)))
     let s := requested (.matrix 1) (bytesFrom (storeLoc 0 0 4096) 128) (bytesFrom (storeLoc 0 0 4096) 128) (runningOp (o (.store (2 ^ 56))))
     need.reads.length = 128 ∧ (matGate (runningOp (o (.load (2 ^ 56)))) (o (.load (2 ^ 56)))).2 = false ∧ (matGate s (o (.load (2 ^ 56)))).2 = true ∧
     (matGate s (o (.store (2 ^ 56)))).2 = true ∧ Ent.inside (tiles.ent 1 1) (0, 0, 0, 0) = true ∧ Ent.inside (tiles.ent 1 1) (8, 0, 0, 0) = false ∧
     descC0 (2 ^ 56) = 0 ∧ descC1 (2 ^ 56) = 0 ∧ s.tensorByte (gaOf s) 1 (tiles.ent 1 1) 3 (Ent.bitAddr (tiles.ent 1 1) (7, 3, 0, 0) / 8) .write =
       .at (storeLoc 0 0 (4096 + 124)) 0) ∧
    (let s := tiles
     s.tileBusy 0 0 16 = false ∧ (s.die? 0).isSome = true ∧ (queued zeroOp).tileBusy 0 0 16 = true ∧ (queued zeroOp).tileBusy 0 0 17 = false) ∧
    (let s : State := onGroup (fun g => { g with tileWait := some 7 }) (tiles.updGang 2 fun ga => { ga with tset := none })
     gOf s ∈ s.residents 0 0 ∧ s.freeSets 0 0 = [0, 1, 2, 3] ∧ s.pickSet (gaOf s) = some 0 ∧ (gaOf s).savedScale = [] ∧
     (gaOf s).savePoint = false) := by decide +kernel

/-- MatrixSteps, a load and a tile operation whose operands can be read. -/
theorem wit_MatrixSteps_operands :
    firstFail (tiles.operand (gaOf tiles) 1 (tiles.ent 1 1) (2 ^ 56) 64).flatten = none ∧
    firstFail (tiles.operand (gaOf tiles) 1 (tiles.ent 1 2) (2 * 2 ^ 56) (formK 16)).flatten = none := by decide +kernel

/-! ### Witnesses: engines, streams and collectives -/

/-- A copy block of four elements from tensor 3 to tensor 1, and a reduction of one element of tensor 3 by die 0 alone. -/
def copyBlock : Nat := 4 * 2 ^ 384 + 2 ^ 416 + 2 ^ 448 + 2 ^ 480 + 1 * 2 ^ 16 + 3 * 2 ^ 8
def collBlock : Nat := 2 ^ 448 + 2 ^ 352 + 7 * 2 ^ 320 + 1 * 2 ^ 16 + 3 * 2 ^ 8

/-- The tiles state with page tables for the placed page, whose leaf stands in the die's TLB, a colour surface 8 and a depth tensor 10 on it, a partition of die 0, the
blocks at the addresses in s8 and s10, and a flag's address in s9. -/
def engines : State :=
  let s := [(0x100000, 0x101001), (0x101000, 0x102001), (0x102000, 0x103001), (0x103000, 0x104001), (0x104008, placePa + 15)].foldl
    (fun (s : State) x => s.wr x.1 8 x.2) (tiles.installTlb 0 dieUnits (leafEntry 1 placeVa 4 (placePa + 15)))
  let s := (s.wr (placePa + 192) 64 copyBlock).wr (placePa + 256) 64 collBlock
  let s := s.updCtx 1 fun c => { c with
    root := 0x100000, parts := [(0, { cmask := 0xFFFFFFFF, valid := true, dmask := 1 })]
    tensors := c.tensors ++ [(8, BitVec.ofNat 512 (tensor (placeVa + 512) 2 16 8 8 32)), (10, BitVec.ofNat 512 (tensor (placeVa + 1024) 2 17 8 8 32))] }
  onGroup (fun g => { g with s := g.s ++ [(8, BitVec.ofNat 64 (placeVa + 192)), (9, 0xFD000000000040), (10, BitVec.ofNat 64 (placeVa + 256)), (11, 8),
                                          (12, 3), (13, 10)] }) s

/-- An engine command can be queued. -/
def mayQueue (s : State) (i : Instr) (cc : Nat) : Bool :=
  decide ((gOf s).engq.length < 4) && decide (s.counter (gOf s).id cc < 63) && !(Iss.mk' s (gOf s) (eOf s) i).accessesOpen

theorem mayQueue_spec {s : State} {i : Instr} {cc : Nat} (h : mayQueue s i cc = true) : MayQueue i s (gOf s) (eOf s) cc := by
  simp only [mayQueue, Bool.and_eq_true, decide_eq_true_eq, Bool.not_eq_true'] at h
  exact ⟨h.1.1, h.1.2, h.2⟩

/-- The engines state in which the blocks have been read. -/
def commands : State :=
  requested (.block 3) ([128, 192, 256].flatMap fun k => bytesFrom (placePa + k) 64) [] engines

theorem wit_EngineForms :
    (∀ i ∈ [Instr.copy {} { cc := 3, ch := 3, sa := 8 }, .copy {} { cc := 0, ch := 0, sa := 4 }, .coll {} { cc := 1, sa := 10 },
        .cflag {} { cc := 0, ch := 1, sa := 9, sv := 4 }, .pattrReplicate {} { cc := 0, sa := 4 }, .pattrCollapse {} { cc := 1, sa := 4 },
        .pattrFlush {} { cc := 2, sa := 4 }, .gres {} { slot := 7, a := .s 4 }, .gres {} { slot := 0, a := .const 0 }, .gresOpen {} { slot := 7 }],
      AtIssue i commands (gOf commands) (eOf commands) ∧ Only (gOf commands) (eOf commands)) ∧
    (∀ cc, cc < 4 → MayQueue (.copy {} { cc := 3, ch := 3, sa := 8 }) commands (gOf commands) (eOf commands) cc) ∧
    BlockAt commands (gOf commands) ((gOf commands).getS 8).toNat 64 (placePa + 192) ∧
    BlockAt commands (gOf commands) ((gOf commands).getS 10).toNat 64 (placePa + 256) ∧
    BlockAt commands (gOf commands) ((gOf commands).getS 4).toNat 64 (placePa + 128) ∧
    (commands.copyFault 1 (Memory.readN commands.mem (placePa + 192) 64) = none ∧ cbKind copyBlock = 0 ∧
     (commands.copyFault 1 (Memory.readN commands.mem (placePa + 128) 64)).isSome = true ∧
     commands.collFault (gOf commands) 1 (Memory.readN commands.mem (placePa + 256) 64) = none ∧
     (match commands.flagPlan (gOf commands) 0xFD000000000040 with | .go .. => true | _ => false) = true ∧
     winOf (placeVa + 128) = .translated ∧
     (match commands.xlate 0 0 1 (placeVa + 128) .read with | .ok .. => true | _ => false) = true) ∧
    readSrc (gOf commands) 0 [] 0 (.s 4) ≠ 0 ∧ readSrc (gOf commands) 0 [] 0 (.const 0) = 0 :=
  ⟨all_ready (by decide +kernel),
   fun cc h => mayQueue_spec (by
     have : (List.range 4).all (mayQueue commands (.copy {} { cc := 3, ch := 3, sa := 8 })) = true := by decide +kernel
     exact List.all_eq_true.mp this cc (List.mem_range.mpr h)),
   blockOk_spec (by decide +kernel), blockOk_spec (by decide +kernel), blockOk_spec (by decide +kernel), by decide +kernel⟩

def copyKind : CmdKind :=
  .copy (BitVec.ofNat 512 copyBlock) (BitVec.ofNat 512 (engines.ent 1 3)) (BitVec.ofNat 512 (engines.ent 1 1)) 0
def cmd (k : CmdKind) (v : Option Bool) : Cmd := { id := 80, grp := 3, gang := 2, launch := 1, ctx := 1, op := 81, ch := 0, kind := k, verdict := v }

/-- The engines state with the command at the queue's head, and with it started. -/
def headed (c : Cmd) : State := onGroup (fun g => { g with engq := [c] }) engines
def started (a : Active) : State := { engines with active := [a], ops := [{ id := 81, grp := 3, ctr := 0, lanes := 1, engine := true }] }

/-- Two dies, and a stream between them. -/
def streaming (x : Stream) : State := { engines with dies := engines.dies ++ [{ num := 1 }], streams := [x] }
def stream (links : List (Nat × Nat)) (opened : Bool) (es : List Elem) : Stream :=
  { id := 90, cmd := 80, src := 0, dst := 1, links := links, opened := opened, elems := es }
def elem8 : Elem := { src := (List.range 8).map (placePa + 128 + ·), dst := (List.range 8).map (2 ^ 42 + 64 + ·), bits := 64 }

/-- The asker of a command. -/
def copier : Asker := (cmd copyKind none).asker 0 (.copy 80)

/-- EngineSteps: heads judged and room on the channel, tag grants, and the flits of a stream up to its data. -/
theorem wit_EngineSteps :
    (let s := headed (cmd copyKind (some true))
     let no := headed (cmd copyKind (some false))
     (s.nextHead 0 0).map (·.1) = some (gOf s) ∧ (s.nextHead 0 0).map (·.2.1) = some (cmd copyKind (some true)) ∧ s.relocking 0 = false ∧
     s.channelStalled 0 0 = false ∧ s.active = [] ∧ s.group? (gOf s).id = some (gOf s) ∧
     (s.gate copier { vas := s.cmdVas (cmd copyKind (some true)) }).2 = true ∧ s.cmdVas (cmd copyKind (some true)) ≠ [] ∧
     (no.nextHead 0 0).map (·.1) = some (gOf no) ∧ (no.nextHead 0 0).map (·.2.1) = some (cmd copyKind (some false)) ∧
     (no.cmdGate (cmd copyKind (some false)) 0).2 = true ∧ no.channelStalled 0 0 = false) ∧
    (let x := stream [(0, 0)] false []
     linkTo 0 1 = (0, 0) ∧ (streaming x).streams = [x] ∧ ((streaming x).tagsOn (linkTo 0 1)).length < 256) ∧
    (let x := stream [] false []
     let y : Stream := { stream [] true [] with due := [0, 1, 2, 3] }
     let z := (streaming (stream [] true [])).updDie 0 fun d => { d with clock := [(1, 5)] }
     sole (fun y => y.id == 90) (streaming x).streams x = true ∧ x.links = [] ∧ x.closing = false ∧ (streaming x).stalledPair 0 1 = false ∧
     x.opened = false ∧ (streaming y).dueQuarter y = some 0 ∧ z.dueQuarter (stream [] true []) = some 0) ∧
    (let x := stream [] true [elem8]
     let a : Active := { cmd := cmd copyKind none, die := 0, order := 1 }
     let st (s : State) : State := { s with streams := [x], active := [a] }
     let s := requested (.payload 90) elem8.src elem8.dst (st (streaming x))
     let bad (s : State) : State := { s with poison := [placePa + 128] }
     s.streamCmd x = some a ∧ x.elems ≠ [] ∧ x.payload = [elem8] ∧ s.flitReady x a.cmd.scope = true ∧
     ((st (streaming x)).elemsGate (a.payer x) x.payload).2 = false ∧
     (s.elemsGate (a.payer x) x.payload).2 = true ∧ ((s.elemsGate (a.payer x) x.payload).1.moveAll 1 x.payload).2 = none ∧
     ((bad (s.elemsGate (a.payer x) x.payload).1).moveAll 1 x.payload).2.isSome = true ∧ 0 < elem8.bits ∧ elem8.bits ≤ 512) := by
  decide +kernel

/-- EngineSteps: flags, and closing. -/
theorem wit_EngineSteps_flags :
    (let x : Stream := { stream [] true [] with flags := [80] }
     let a : Active := { cmd := cmd (.cflag 0xFD000000000040 5) none, die := 0, order := 1 }
     let s : State := { streaming x with active := [a] }
     let loc := storeLoc 0 0 4160
     let s1 := requested (.payload 90) [] (bytesFrom loc 8) s
     let s2 : State := { requested (.copy 80) [] (bytesFrom loc 8) s with streams := [] }
     x.flags = a.cmd.id :: [] ∧ sole (fun b => b.cmd.id == 80) s.active a = true ∧ x.elems = [] ∧ s.flagHeld a = false ∧
     s.flitReady x a.cmd.scope = true ∧ s.flagLoc a.cmd 0xFD000000000040 = some loc ∧ (s1.gate (a.payer x) { writes := [loc] }).2 = true ∧
     s.relocking 0 = false ∧ s.portsStall a = false ∧ a.flagged = false ∧ { a with flagged := true }.flagged = true ∧
     (s2.gate (a.cmd.asker 0 (.copy 80)) { writes := [loc] }).2 = true ∧ sole (fun b => b.cmd.id == 80) s2.active a = true) ∧
    (let x := stream [] true []
     let c (n : Nat) : Stream := { x with closing := true, tags := (List.range n).map fun k => (0, 0, k) }
     x.cmd ≠ 0 ∧ x.opened = true ∧ x.elems = [] ∧ x.flags = [] ∧ x.closing = false ∧ (streaming x).stalledPair 0 1 = false ∧
     1 < (c 2).tags.length ∧ (c 1).tags.length ≤ 1 ∧ (c 1).closing = true) ∧
    (let x := { stream [] true [] with cmd := 0 }
     let s : State := { streaming x with gtime := 4096 }
     sole (fun y => y.forItems 0 1) s.streams x = true ∧ x.opened = true ∧ (x.idle / 2048 + 2) * 2048 ≤ s.gtime ∧
     s.itemWritesOpen 0 1 = false ∧ s.stalledPair 0 1 = false) := by decide +kernel

/-- EngineSteps: completions of copies, and of a flush of a page. -/
theorem wit_EngineSteps_ends :
    (let a : Active := { cmd := cmd copyKind none, die := 0, order := 1, elems := [{ elem8 with dst := (List.range 8).map (placePa + 512 + ·) }] }
     let s := requested (.copy 80) (bytesFrom (placePa + 128) 8) (bytesFrom (placePa + 512) 8) (started a)
     let m := (s.elemsGate copier a.elems).1.moveAll a.cmd.ctx a.elems
     sole (fun b => b.cmd.id == a.cmd.id) s.active a = true ∧ s.relocking 0 = false ∧ s.portsStall a = false ∧ a.fail = none ∧
     (s.elemsGate copier a.elems).2 = true ∧ m.2 = none ∧ m.1.streams = [] ∧
     ((m.1.updActive a.cmd.id fun _ => { a with elems := [] }).cmdGate a.cmd a.die).2 = true ∧ a.cmd.stat = 0) ∧
    (let a : Active := { cmd := cmd (.pattr 2 placeVa) none, die := 0, order := 1 }
     let s : State := (started a).wr 0x104008 8 (placePa + 15)
     let s1 := (s.gate copier { vas := [placeVa] }).1
     (s.gate copier { vas := [placeVa] }).2 = true ∧ s1.walk 1 placeVa = .leaf 4 (placePa + 15) ∧ pteAttr (placePa + 15) = 0 ∧
     s.portsStall a = false) := by decide +kernel

/-- EngineSteps: collectives, collapses and moves. -/
theorem wit_EngineSteps_others :
    (let c := cmd (.coll (BitVec.ofNat 512 collBlock) (BitVec.ofNat 512 (engines.ent 1 3)) (BitVec.ofNat 512 (engines.ent 1 1))) (some true)
     let k0 : CollCmd := { cmd := c, die := 0, ctx := 1 }
     let s := requested (.gives 80) (bytesFrom (placePa + 128) 8) [] (headed c)
     let k : CollCmd := { k0 with values := [5], all := [(0, [5])] }
     let s' : State := requested (.takes 80) [] (bytesFrom (storeLoc 0 0 4096) 8) { headed c with colls := [k] }
     sole (fun y => y.engq.head?.map (·.id) == some c.id) s.groups (gOf s) = true ∧ (gaOf s).preempting = false ∧ s.relocking (gOf s).die = false ∧
     s.colls = [] ∧ (memberDies (colMembers (BitVec.ofNat 512 collBlock).toNat)).all (fun k => ((s.die? k).map (·.failed)).getD true == false) = true ∧
     s.collReadable k0 = true ∧ (headed c).collReadable k0 = false ∧
     sole (fun k => k.cmd.id == c.id && !k.pending) s'.colls k = true ∧ k.status = none ∧ k.fail = none ∧
     (s'.collWritable k k.results).2 = true ∧
     (({ (s'.collWritable k k.results).1 with colls := [] } : State).collWrite k k.results).2 = none) ∧
    (let c : Collapse := { home := 0, page := 4096, ctx := 1, va := placeVa, todo := [1] }
     let c' := { c with dropped := [1] }
     sole (fun k => k.page == c.page && k.todo.contains 1 && !k.dropped.contains 1) ({ engines with collapses := [c] } : State).collapses c = true ∧
     sole (fun k => k.page == c.page && k.dropped.contains 1 && k.todo.contains 1) ({ engines with collapses := [c'] } : State).collapses c' = true ∧
     engines.readOpen 4096 65536 = false) ∧
    (engines.memOk = true ∧ elem8.src = (List.range 8).map (placePa + 128 + ·) ∧ elem8.dst = (List.range 8).map (2 ^ 42 + 64 + ·) ∧
     elem8.bits = 8 * 8 ∧ elem8.sbits = 8 * 8 ∧ elem8.sbit = 0 ∧ elem8.dbit = 0 ∧ 2 ^ 42 + 64 + 8 ≤ 2 ^ 60 ∧
     elem8.src.all (fun l => !engines.poisoned l 1) = true) := by decide +kernel

/-! ### Witnesses: texture, rays and rendering -/

/-- The engines state with a ray's handle that names no record in v3. -/
def rays : State := onGroup (fun g => lanes.foldl (fun g l => g.setV 3 l 0xFFFFFFFFFFFFFFFF) g) engines

def traversing : Access := { id := 9, op := 8, grp := 3, die := 0, lane := 31, kind := .ray 0 placeVa (List.replicate 8 0x3F800000), va := 0, loc := 0, size := 0, d := 20, phase := .traversing }

theorem wit_TextureRay :
    (∀ i ∈ [Instr.tex {} { cc := 0, d := 20, vc := 0, st := 12, filt := false, wrap := false },
        .tex {} { cc := 0, d := 20, vc := 0, st := 6, filt := true, wrap := true }, .tex never { cc := 0, d := 20, vc := 0, st := 12, filt := false, wrap := false },
        .trace {} { cc := 1, vh := 20, vr := 0, sb := 4, mode := 3 }, .traceh {} { cc := 2, d := 20, vh := 1, sb := 4, w := 0 },
        .traceh {} { cc := 2, d := 20, vh := 3, sb := 4, w := 2 }], AtIssue i rays (gOf rays) (eOf rays) ∧ Only (gOf rays) (eOf rays)) ∧
    (let g := gOf rays
     let ft : FTex := { cc := 0, d := 20, vc := 0, st := 12, filt := false, wrap := false }
     let u := Iss.mk' rays g (eOf rays) (.tex {} ft)
     u.ex = 0xFFFFFFFF ∧ (g.getS 12).toNat % 256 = 3 ∧ Ent.isTexture (rays.ent 1 3) = true ∧ Ent.isTexture (rays.ent 1 0) = false ∧
     rays.counter g.id 0 < 63 ∧ rays.orderHolds g u.ex false = false ∧ gateOk rays g [20] = true ∧ gateOk rays g [20, 21] = true ∧
     lanes.all (fun l => match (u.texLane ft (rays.ent 1 3) l).plan with | .go .. => true | _ => false) = true ∧
     (g.getV 1 31).toNat / 2 ^ 32 = 0 ∧ 0xFFFFFFFE ≤ (g.getV 3 31).toNat / 2 ^ 32 ∧
     [0, 8].all (fun k => match rays.planAddr g halfForm false (placeVa + 128 + k) with | .go .. => true | _ => false) = true ∧
     (Iss.mk' rays g (eOf rays) (.tex never ft)).ex = 0) ∧
    (let s : State := { rays with accs := [traversing] }
     sole (fun b => b.id == 9 && b.phase == .traversing) s.accs traversing = true ∧ (s.group? 3).isSome = true ∧ s.rayHeld traversing = false ∧
     s.relocking 0 = false ∧ (gOf s).frame = none ∧ traversing.lane < 32 ∧
     (match s.traverse 9 (gOf s) 0 placeVa (List.replicate 8 0x3F800000) with | .error n => n.reads ≠ [] | .ok _ => false) = true ∧
     (match (requested (.ray 9) (bytesFrom placePa 64) [] s).traverse 9 (gOf s) 0 placeVa (List.replicate 8 0x3F800000) with
       | .ok o => o.log.isNone | .error _ => false) = true ∧
     traversing.dst = .lane ∧ traversing.discard = [] ∧ traversing.hnd = false) :=
  ⟨all_ready (by decide +kernel), by decide +kernel⟩

/-- The engines state in a draw of one tile, its items of stage `st` holding the ticket `t`, a triangle's vertices in v12-v17. -/
def drawing (st : Nat) (t : Option Ticket) : State :=
  let one : Word := 0x3F80000000000000
  let s : State := { engines with launches := engines.launches.map fun (l : Launch) => { l with
    lpb := 2 ^ 620 + 2 ^ 616 + 2 ^ 448 + 2 ^ 480 + 2 ^ 512, tileMap := [0], m0 := 1, m1 := 1
    draw := [{ die := 0, posts := [{ ticket := 0, px := 0, py := 0 }] }] } }
  onGroup (fun g => lanes.foldl (fun g l => ((g.setV 13 l one).setV 15 l one).setV 17 l one)
    { g with items := g.items.map fun x => (x.1, { x.2 with stage := st, ticket := t }) }) s

def draw0 : State := drawing 0 none
def draw1 : State := drawing 1 (some { num := 0, die := 0 })
def laOf (s : State) : Launch := (s.groupLaunch? (gOf s)).getD { id := 0, ctx := 0, queue := 0, seq := 0, lpb := 0 }

/-- Lanes of a group whose draw items are of a stage. -/
def drawLanes (s : State) (st : Nat) : Bool := lanes.all fun l => s.drawItem (gOf s) l st

/-- A need whose requests have been performed, and what its gate gives. -/
def granted (q : Asker) (n : Need) (s : State) : State × Bool := (requested q.owner n.reads n.writes s).gate q n

/-- The gate of a box of one block that `cclr` or `cdec` acts on. -/
def boxed (dec : Bool) : State × Bool :=
  granted { owner := .box 3, die := 0, cluster := 0, port := 6, ctx := 1, part := draw1.groupPart (gOf draw1) }
    (draw1.boxNeed 0 1 (draw1.ent 1 8) dec [(0, 0)]) draw1

theorem wit_RenderForms :
    (∀ i ∈ [Instr.prim {} { vp := 12, a := .s 4 }, .pend {}, .cwr {} { cc := 0, bm := 0, a := .s 1, st := 6 },
        .zcmp {} { wr := false, cond := 0, pd := 0, a := .s 1, st := 11 }, .cwr {} { cc := 0, bm := 0, a := .s 1, st := 11 },
        .zcmp {} { wr := false, cond := 0, pd := 0, a := .s 1, st := 13 }], AtIssue i draw0 (gOf draw0) (eOf draw0) ∧ Only (gOf draw0) (eOf draw0)) ∧
    (∀ i ∈ [Instr.prim {} { vp := 12, a := .s 4 }, .pend {}, .cwr {} { cc := 3, bm := 4, a := .v 1, st := 11 },
        .cwr {} { cc := 0, bm := 0, a := .s 1, st := 6 }, .zcmp {} { wr := true, cond := 7, pd := 15, a := .v 1, st := 13 },
        .zcmp {} { wr := false, cond := 0, pd := 0, a := .s 1, st := 11 }, .cclr {} { cc := 0, st := 11, sb := 5 }, .cdec {} { cc := 3, st := 11, sb := 5 },
        .cclr {} { cc := 0, st := 6, sb := 5 }, .cdec {} { cc := 0, st := 13, sb := 5 }, .cwr never { cc := 3, bm := 4, a := .v 1, st := 11 },
        .zcmp never { wr := true, cond := 7, pd := 15, a := .v 1, st := 13 }],
      AtIssue i draw1 (gOf draw1) (eOf draw1) ∧ Only (gOf draw1) (eOf draw1)) ∧
    (drawLanes draw0 0 = true ∧ drawLanes draw1 0 = false ∧ drawLanes draw1 1 = true ∧
     ((AMap.get? (gOf draw0).items 31).map fun it => (it.tgEnded, it.prims)) = some (false, 0) ∧ draw0.launch? (laOf draw0).id = some (laOf draw0)) ∧
    ((let vs := (List.range 6).flatMap fun k => [((gOf draw0).getV (12 + k) 0).truncate 32, ((gOf draw0).getV (12 + k) 0 >>> 32).truncate 32]
      (laOf draw0).bin vs = [0] ∧ (laOf draw0).bin (List.replicate 12 0) = []) ∧
     (draw1.ticketOf (gOf draw1) 31).map (fun t => (t.dres, t.cres)) = some (false, false) ∧ draw0.ticketOf (gOf draw0) 31 = none ∧
     Ent.isSurface (draw1.ent 1 8) = true ∧ Ent.isSurface (draw1.ent 1 0) = false ∧ Ent.isDepth (draw1.ent 1 10) = true ∧
     Ent.isDepth (draw1.ent 1 8) = false ∧ draw1.counter 3 3 < 63) ∧
    ((Iss.mk' draw1 (gOf draw1) (eOf draw1) (.cdec {} { cc := 0, st := 11, sb := 5 })).accessesOpen = false ∧
     (boxed false).2 = true ∧ (boxed true).2 = true ∧ ((boxed false).1.clearBlocks 0 1 (draw1.ent 1 8) [(0, 0)]).2 = none ∧
     ((boxed true).1.decodeBlocks 0 1 (draw1.ent 1 8) [(0, 0)]).2 = (none, []) ∧
     boxBlocks (draw1.ent 1 8) (2 ^ 32 + 2 ^ 48) = [(0, 0)]) :=
  ⟨all_ready (by decide +kernel), all_ready (by decide +kernel), by decide +kernel⟩

/-- The draw state in which lane 31's item has resolved its tickets. -/
def draw2 : State :=
  onGroup (fun g => { g with items := g.items.map fun x =>
    if x.1 = 31 then (x.1, { x.2 with ticket := some { num := 0, die := 0, dres := true, cres := true } }) else x }) draw1

/-- RenderForms, `cwr` and `zcmp` of which one lane traps and the others post. -/
theorem wit_RenderForms_mixed :
    (∀ i ∈ [Instr.cwr {} { cc := 3, bm := 4, a := .v 1, st := 11 }, .zcmp {} { wr := true, cond := 7, pd := 15, a := .v 1, st := 13 }],
      AtIssue i draw2 (gOf draw2) (eOf draw2) ∧ Only (gOf draw2) (eOf draw2)) ∧
    ((draw2.ticketOf (gOf draw2) 31).map (fun t => (t.dres, t.cres)) = some (true, true) ∧
     (draw2.ticketOf (gOf draw2) 0).map (fun t => (t.dres, t.cres)) = some (false, false) ∧ Ent.isSurface (draw2.ent 1 8) = true ∧
     Ent.isDepth (draw2.ent 1 10) = true ∧ (Iss.mk' draw2 (gOf draw2) (eOf draw2) (.cwr {} { cc := 3, bm := 4, a := .v 1, st := 11 })).ex = 0xFFFFFFFF) :=
  ⟨all_ready (by decide +kernel), by decide +kernel⟩

/-- The launch of a draw changed. -/
def onDraw (f : Launch → Launch) : State := { draw1 with launches := draw1.launches.map f }
def prim0 : Prim := { verts := [], handle := 0, token := 0 }

theorem wit_RenderSteps :
    (let s := onDraw fun l => { l with pkts := [(4096 * 9, .prim prim0), (4096 * 10, .marker { header := 0, counts := [1, 0xFF] })] }
     s.launch? (laOf s).id = some (laOf s) ∧ s.relocking 0 = false ∧ (laOf s).firstPkt 0 0 = some (36864, .prim prim0) ∧ s.stalledPair 0 0 = false ∧
     s.primsHeld 0 false none < 4096) ∧
    (let s := onDraw fun l => { l with pkts := [(4096 * 10, .marker { header := 0, counts := [1, 0xFF] })] }
     (laOf s).firstPkt 0 0 = some (40960, .marker { header := 0, counts := [1, 0xFF] }) ∧ s.stalledPair 0 0 = false) ∧
    (let s := onDraw fun l => { l with tileMap := [0xFF], draw := [{ die := 0, dealt := [(0, 1)], ended := [0] }] }
     (laOf s).live = true ∧ (laOf s).isDraw = true ∧ ((laOf s).focus 0).window (laOf s).items 0 = [0] ∧ ((laOf s).focus 0).markers = [] ∧
     ((laOf s).focus 0).ended = [0] ∧ (laOf s).owners = [] ∧
     (laOf (onDraw fun l => { l with tileMap := [0], draw := [{ die := 0, dealt := [(0, 1)], ended := [0] }] })).owners = [0]) ∧
    (let p := { prim0 with verts := [0, 0, 0, 0x3F800000, 0x3F800000, 0, 0, 0x3F800000, 0, 0x3F800000, 0, 0x3F800000] }
     let s := onDraw fun l => { l with draw := [{ die := 0, released := [p] }] }
     ((laOf s).focus 0).released = p :: [] ∧ (List.range 3).all (fun k => (vertOf p.verts k).2.2.1.isFin) = true) ∧
    (let c : ColourPost := { bm := 0, colour := 0xFF0000FF, surface := BitVec.ofNat 512 (engines.ent 1 8), op := 5, grp := 3 }
     let d : DepthPost := { cond := 7, z := 0, wr := true, tensor := BitVec.ofNat 512 (engines.ent 1 10), grp := 3, lane := 0, pd := 1 }
     let p : Post := { ticket := 0, px := 0, py := 0, colour := some c, depth := some d }
     let s := onDraw fun l => { l with draw := [{ die := 0, posts := [p] }] }
     let va := (p.depthVa d).getD 0
     ((laOf s).focus 0).posts.find? (·.ticket == p.ticket) = some p ∧ ((laOf s).focus 0).clearBefore p (·.colourDone) = true ∧
     ((laOf s).focus 0).clearBefore p (·.depthDone) = true ∧ (p.depthVa d).isSome = true ∧ ({ p with px := 8 } : Post).depthVa d = none ∧
     let x := granted ((laOf s).asker 0 (.depth (laOf s).id 0 0))
       (s.needVas 0 (laOf s).ctx [(va, 4)] (if s.depthWrites (laOf s) 0 va d then [(va, 4)] else [])) s
     s.depthWrites (laOf s) 0 va d = true ∧ x.2 = true ∧ x.1.readVa 0 (laOf s).ctx va 4 = some 0 ∧ depthCond d.cond d.z.toNat 0 = true ∧
     depthCond 0 d.z.toNat 0 = false ∧ (x.1.writeVa 0 (laOf s).ctx va 4 d.z.toNat).2 = true) ∧
    (fp32.unpack 0x3F800000).isNan = false := by decide +kernel

/-- RenderSteps, the colour of a posted pixel: one inside its surface, one outside, and one whose block cannot be read. -/
theorem wit_RenderSteps_colour :
    let c : ColourPost := { bm := 0, colour := 0xFF0000FF, surface := BitVec.ofNat 512 (engines.ent 1 8), op := 5, grp := 3 }
    let p : Post := { ticket := 0, px := 0, py := 0, colour := some c }
    let en : Ent := c.surface.toNat
    let la := laOf draw1
    let bad : State := { draw1 with poison := lanes.map (placePa + 512 + 128 + · * 128) ++ lanes.map (placePa + 512 + · * 64) }
    let gated (s : State) (p : Post) : State × Bool := granted (la.asker 0 (.colour la.id 0 0)) (s.blendNeed la 0 p c) s
    let out : Post := { p with px := 9 }
    (gated draw1 p).2 = true ∧ ((gated draw1 p).1.drawn.readBlock 0 la.ctx en 0 0).isOk = true ∧
    (match (gated draw1 p).1.planColour la 0 p c with
      | .ok (some (w, b)) => !b && ((gated draw1 p).1.drawn.writeBlock 0 la.ctx en w).2.isNone
      | _ => false) = true ∧
    (gated draw1 out).2 = true ∧ (match (gated draw1 out).1.planColour la 0 out c with | .ok none => true | _ => false) = true ∧
    (gated bad p).2 = true ∧ (match (gated bad p).1.planColour la 0 p c with | .error _ => true | _ => false) = true := by decide +kernel

/-! ### Witnesses: work, barriers and fences -/

/-- The engines state with a running queue 1, two stages, room for emitted items and continuation records, and a refill entry. -/
def working : State :=
  let s := engines.updCtx 1 fun c => { c with queues := [(1, { en := true, state := qRunning, logn := 4, rbase := placeVa + 1024 })] }
  { s with
    dies := s.dies.map fun (d : Die) => { d with areas := [(0, { ctx := 1, emitn := 1, contn := 1, valid := true })] }
    launches := s.launches.map fun (l : Launch) => { l with lpb := 2 ^ 616, stages := l.stages.map fun t => { t with refill := 64 } } }

/-- Its items in stage 1, the last; holding a membership; its entry in two loops. -/
def lastStage : State := onGroup (fun g => { g with items := g.items.map fun x => (x.1, { x.2 with stage := 1 }) }) working
def member : Member := { obj := storeLoc 0 0 4112, addr := 0xFD000000000010, ph := false, arr := false }
def members (m : Member) (s : State) : State := s.updGroup 3 fun g => { g with items := g.items.map fun x => (x.1, { x.2 with members := [m] }) }
def deep : State := working.updGroup 3 fun g => { g with entries := g.entries.map fun e => { e with stack := List.replicate 2 (.loop 0 4 1) } }

/-- The working state in which the LPB image has been read, and the place of the next one in the queue may be written. -/
def launching : State :=
  requested (.append 3) [] (bytesFrom (placePa + 1024) 128) (requested (.block 3) (bytesFrom (placePa + 128) 128) [] working)

theorem wit_WorkForms :
    (∀ i ∈ [Instr.launch {} { sd := 1, q := 0, sa := 4, sb := 0, ao := false }, .launch {} { sd := 1, q := 1, sa := 4, sb := 4, ao := true }],
      AtIssue i launching (gOf launching) (eOf launching) ∧ Only (gOf launching) (eOf launching)) ∧
    (∀ i ∈ [Instr.emit {} { pd := 1, a := .v 1, b := .s 4 }, .exit {}, .exit never, .await {} { cc := 3, live := 0xFFFF }, .await never { cc := 0, live := 0 }],
      AtIssue i working (gOf working) (eOf working) ∧ Only (gOf working) (eOf working)) ∧
    (∀ i ∈ [Instr.emit {} { pd := 1, a := .v 1, b := .s 4 }], AtIssue i lastStage (gOf lastStage) (eOf lastStage) ∧ Only (gOf lastStage) (eOf lastStage)) ∧
    (∀ i ∈ [Instr.exit {}], AtIssue i (members member working) (gOf (members member working)) (eOf (members member working)) ∧
      Only (gOf (members member working)) (eOf (members member working))) ∧
    (∀ i ∈ [Instr.await {} { cc := 0, live := 0xFFFF }], AtIssue i deep (gOf deep) (eOf deep) ∧ Only (gOf deep) (eOf deep)) ∧
    (∀ i ∈ [Instr.await {} { cc := 0, live := 0 }], AtIssue i base (gOf base) (eOf base) ∧ Only (gOf base) (eOf base)) ∧
    BlockAt launching (gOf launching) ((gOf launching).getS 4).toNat 128 (placePa + 128) ∧
    (let q : Asker := { owner := .block 3, die := 0, cluster := 0, port := 0, ctx := 1, part := launching.groupPart (gOf launching) }
     let s1 := (launching.ask q (bytesFrom (placePa + 128) 128) []).1.consumeWalks 0 0 1
     let s0 := s1.gate { q with owner := .append 3, cluster := 32, port := 5 } (s1.needVa 0 1 true (placeVa + 1024) 128)
     let d : QDesc := ((working.ctx? 1).map fun c => AMap.getD c.queues 1 {}).getD {}
     (gOf launching).core = 0 ∧ s0.2 = true ∧ s0.1.ctx? 1 = working.ctx? 1 ∧ (s0.1.writeVa 0 1 (placeVa + 1024) 128 5).2 = true ∧ (working.ctx? 1).isSome = true ∧
     d.en = true ∧ d.state = qRunning ∧ d.tail - d.head ≠ 2 ^ d.logn ∧ d.rbase + 128 * (d.tail % 2 ^ d.logn) = placeVa + 1024 ∧ d.sdie = 0 ∧
     ((working.ctx? 1).map fun c => (AMap.getD c.queues 0 {}).en) = some false ∧ working.accs = [] ∧
     (Iss.mk' launching (gOf launching) (eOf launching) (.launch {} { sd := 1, q := 1, sa := 4, sb := 4, ao := true })).accessesOpen = false) ∧
    ((lanes.all fun l => match working.groupLaunch? (gOf working), AMap.get? (gOf working).items l with
       | some la, some it => !(decide (la.nstage ≤ it.stage + 1) || (la.isDraw && it.stage == 0)) | _, _ => false) = true ∧
     ((lastStage.groupLaunch? (gOf lastStage)).map (·.nstage)) = some 2 ∧ ((AMap.get? (gOf lastStage).items 0).map (·.stage)) = some 1 ∧
     working.emitted 0 1 < 64 * ((working.areaOf 0 1).map (·.emitn)).getD 0 ∧ engines.emitted 0 1 = 64 * ((engines.areaOf 0 1).map (·.emitn)).getD 0) ∧
    ((gOf working).engq = [] ∧ AMap.ascFrom 0 (gOf working).items = true ∧ AMap.ascFrom 0 (gOf working).p = true ∧
     ((working.groupStage? (gOf working)).map (·.refill)) = some 64 ∧ ((base.groupStage? (gOf base)).map (·.refill)) = some 0 ∧
     working.contWords (gOf working) (eOf working) 31 0xFFFF ≤ 20 ∧ 20 < deep.contWords (gOf deep) (eOf deep) 31 0xFFFF ∧
     lanes.all (fun l => !working.awaitHeld (gOf working) 3 l) = true ∧ working.launch? (laOf working).id = some (laOf working) ∧ working.ops = [] ∧
     32 ≤ 64 * ((working.areaOf 0 1).map (·.contn)).getD 0 - (working.contSlots 0 1).length) :=
  ⟨all_ready (by decide +kernel), all_ready (by decide +kernel), all_ready (by decide +kernel), all_ready (by decide +kernel),
   all_ready (by decide +kernel), all_ready (by decide +kernel), blockOk_spec (by decide +kernel), by decide +kernel⟩

/-- The data state with a barrier object at the granule that s5 names, and with that membership of every item. -/
def object (o : Nat) : State := data.wr (storeLoc 0 0 4112) 16 o
def inited (pend exp : Nat) : Nat := 2 ^ 34 + pend * 2 ^ 16 + exp
def enrolled (o : Nat) (m : Member) : State := members m (object o)

/-- What a form comes to over the lanes of the entry. -/
def barOf (s : State) (op : BarOp) : Nat × Nat :=
  let r := (Iss.mk' s (gOf s) (eOf s) (.nop {})).ex.toList.foldl (BarRun.lane op (.s 5)) { s := s, g := gOf s }
  (r.bad.length, r.waits.length)

/-- BarrierForms: every form at issue, its steps going well, waiting, and misused; and steps at the bounds of PEND and EXP. -/
theorem wit_BarrierForms :
    (∀ i ∈ [Instr.barinit {} { a := .s 5, b := .s 4 }, .barjoin {} { a := .s 5 }, .barjoinNow {} { a := .s 5 }, .bararr {} { a := .s 5 },
        .barwait {} { a := .s 5 }, .bardrop {} { a := .s 5 }, .pbar {}], AtIssue i data (gOf data) (eOf data) ∧ Only (gOf data) (eOf data)) ∧
    (let u := Iss.mk' data (gOf data) (eOf data) (.barinit {} { a := .s 5, b := .s 4 })
     (match data.planAddr (gOf data) barForm true ((gOf data).barAddr (.s 5) 0) with | .go _ l _ _ => l == storeLoc 0 0 4112 | _ => false) = true ∧
     data.barBank (storeLoc 0 0 4112) = true ∧ u.barHeld false = false ∧ u.barHeld true = false ∧ u.barReady (.s 5) lanes = true ∧
     data.memOk = true ∧ data.poisoned (storeLoc 0 0 4112) 16 = false) ∧
    (barOf (object (inited 0 0)) (.join false) = (0, 0) ∧ barOf (object (inited 1 1)) (.join true) = (0, 0) ∧
     barOf (enrolled (inited 32 32) member) .arrive = (0, 0) ∧ barOf (enrolled (inited 32 32) { member with arr := true }) .wait = (0, 0) ∧
     barOf (enrolled (inited 32 32) { member with arr := true, ph := true }) .wait = (0, 32) ∧
     barOf (enrolled (inited 32 32) { member with ph := true }) .drop = (0, 0)) ∧
    (let one := onEntry (fun e => { e with mask := 0x80000000 }) data
     (Iss.mk' one (gOf one) (eOf one) (.bararr {} { a := .s 5 })).ex.toList = [31] ∧
     BarOp.arrive.misused (one.rd (storeLoc 0 0 4112) 16) ((AMap.get? (gOf one).items 31).getD {}) (storeLoc 0 0 4112) = true) ∧
    (let it : Item := { members := [member] }
     BarOp.wait.misused (inited 1 1) { members := [{ member with arr := true }] } member.obj = false ∧ it.member? member.obj = some member ∧
     barPend (inited 1 1) = 1 ∧ barExp (inited 1 1) = 1 ∧ barPhase (inited 1 1) = member.ph ∧ barExp (inited 0 0xFFFE) < 0xFFFF ∧
     barPend (inited 0xFFFF 0) = 0xFFFF) ∧
    (let s := enrolled (inited 32 32) { member with arr := true }
     let waits (ph : Bool) : State := onEntry (fun e => { e with park := some (.barwait [(0, (storeLoc 0 0 4112, ph))] 0) }) s
     s.planAddr (gOf s) barForm true ((gOf s).barAddr (.s 5) 31) = .go 0xFD000000000010 (storeLoc 0 0 4112) 0 none ∧
     s.poisoned (storeLoc 0 0 4112) 16 = false ∧ s.fromOutside (gOf s).id (storeLoc 0 0 4112) = false ∧
     barPhase (BarOp.arrive.act (inited 1 1) { members := [member] } member.obj 0).1 ≠ barPhase (inited 1 1) ∧
     barPhase (BarOp.arrive.act (inited 2 2) { members := [member] } member.obj 0).1 = barPhase (inited 2 2) ∧
     barPhase (s.rd (storeLoc 0 0 4112) 16) = false ∧
     ((gOf (waits false)).entries[0]?).map (·.park) = some (some (.barwait [(0, (storeLoc 0 0 4112, false))] 0)) ∧
     ((gOf (waits true)).entries[0]?).map (·.park) = some (some (.barwait [(0, (storeLoc 0 0 4112, true))] 0))) ∧
    ((data.groupLaunch? (gOf data)).bind (·.brokenBy) = none ∧
     ((({ data with launches := data.launches.map fun l => { l with brokenBy := some 63 } } : State).groupLaunch? (gOf data)).bind (·.brokenBy)) = some 63) :=
  ⟨all_ready (by decide +kernel), by decide +kernel⟩

/-- A state whose `fence.sc` has drained, and one whose heartbeat is taken. -/
def fencing (x : Nat × Option (Nat × Nat)) : State := onEntry (fun e => { e with sc := some x }) base
def dieOf (s : State) : Die := (s.die? 0).getD { num := 0 }

theorem wit_FenceForms :
    (∀ i ∈ [Instr.fence {} { scope := 0 }, .fence {} { scope := 6 }, .fenceSc {}], AtIssue i base (gOf base) (eOf base) ∧ Only (gOf base) (eOf base)) ∧
    (∀ i ∈ [Instr.fence {} { scope := 2 }], AtIssue i (withAcc (acc .store 1)) (gOf (withAcc (acc .store 1))) (eOf (withAcc (acc .store 1))) ∧
      Only (gOf (withAcc (acc .store 1))) (eOf (withAcc (acc .store 1)))) ∧
    (∀ i ∈ [Instr.fenceSc {}], AtIssue i (fencing (4, none)) (gOf (fencing (4, none))) (eOf (fencing (4, none))) ∧
      Only (gOf (fencing (4, none))) (eOf (fencing (4, none)))) ∧
    (∀ i ∈ [Instr.fenceSc {}], AtIssue i (fencing (4, some (0, 1))) (gOf (fencing (4, some (0, 1)))) (eOf (fencing (4, some (0, 1)))) ∧
      Only (gOf (fencing (4, some (0, 1)))) (eOf (fencing (4, some (0, 1))))) ∧
    ((Iss.mk' base (gOf base) (eOf base) (.fence {} { scope := 6 })).fenceHeld = false ∧
     (let s := withAcc (acc .store 1); (Iss.mk' s (gOf s) (eOf s) (.fence {} { scope := 2 })).fenceHeld = true) ∧
     (base.die? 0).isSome = true ∧ (eOf base).sc = none ∧ (let s := fencing (4, none); s.coreUndrained (gOf s) 4 = false) ∧ (dieOf base).closedTick = 0) ∧
    (let s : State := { base with gtime := 2048 }
     s.die? 0 = some (dieOf s) ∧ 2048 * ((dieOf s).sentTick + 1) ≤ s.gtime ∧ s.writesOpen 0 2048 = false ∧ (dieOf s).failed = false ∧ (dieOf s).relock = none) ∧
    (let s : State := base.updDie 0 fun d => { d with sentTick := 1 }
     s.closed < (dieOf s).sentTick ∧ (AMap.getD s.ticks s.closed []).contains 0 = false ∧ (dieOf s).closedTick < ({ s with closed := 1 } : State).closed) ∧
    (let parked := onEntry (fun e => { e with park := some (.pbar { words := 1 }) }) base
     let x := laOf parked
     x.live = true ∧ parked.relocking 0 = false ∧ parked.launchDies x = [0] ∧ x.arrived = [] ∧ x.releasing = [] ∧ x.brokenBy = none ∧
     parked.dieReady x 0 = true ∧ parked.launch? x.id = some x ∧ (treeChildren 0).all (fun c => (parked.die? c).isNone) = true) ∧
    (let s : State := { base with launches := base.launches.map fun (l : Launch) => { l with arrived := [0] } }
     (laOf s).arrived = [0] ∧ (laOf s).treeAt = [] ∧ s.launchDies (laOf s) ≠ []) ∧
    (let s : State := { base with launches := base.launches.map fun (l : Launch) => { l with releasing := [0] } }
     (laOf s).releasing = [0] ∧ s.treeCut 16 0 = false ∧ s.hopCut 0 = false ∧ (s.updDie 0 fun d => { d with relock := some 5 }).relocking 0 = true) ∧
    (let s := (State.updPkg { base with dies := base.dies ++ [{ num := 1 }] } fun p => { p with
       links := [{ die := 1, dir := 2, path := [(1, 0), (0, 0)], lat := 1 }], edgesFailed := [(0, 0, 0)] })
     (s.die? 1).isSome = true ∧ s.treeCut 16 1 = true ∧ s.hopCut 1 = true ∧ s.treeCut 16 0 = false ∧
     (laOf { s with launches := base.launches.map fun (l : Launch) => { l with releasing := [1] } }).brokenBy = none) :=
  ⟨all_ready (by decide +kernel), all_ready (by decide +kernel), all_ready (by decide +kernel), all_ready (by decide +kernel), by decide +kernel⟩

/-! ### Witnesses: traps, the handler and the supervisor -/

theorem wit_TrapRaises : (∀ i ∈ [Instr.trap {} { mask := 0 }, .trap {} { mask := 0xFFFF }],
      AtIssue i base (gOf base) (eOf base) ∧ Only (gOf base) (eOf base)) ∧
    (Iss.mk' base (gOf base) (eOf base) (.trap {} { mask := 0 })).ex ≠ 0 := ⟨all_ready (by decide +kernel), by decide +kernel⟩

/-- The handling state for a memory error, whose lanes lack register 5. -/
def handlingError : State := onGroup (fun g => { g with trap := some { cls := 10, pc := placeVa + 64, emask := 0xFFFFFFFF, tmask := 0xFFFFFFFF
                                                                       lmask := 0xFFFFFFFF, dests := [5] } }) handling
/-- The handling state for a branch that trapped in some lanes: the others wait for the handler (R346). -/
def handlingJoin : State := onGroup (fun g => { g with trap := g.trap.map fun t => { t with joins := true } }) handling
/-- The base state in a context with DBGEN set. -/
def debugging : State := base.updCtx 1 fun c => { c with dbgen := true }
/-- The trap record of a group. -/
def trapOf (s : State) : TrapRec := (gOf s).trap.getD { cls := 0 }

theorem wit_HandlerForms :
    (∀ i ∈ [Instr.brk {} { mask := 7 }, .rtt {}, .rttSkip {}, .repl {} { a := .s 1, half := false }, .hmov {} { dir := false, cl := 0, n := 1, h := 2 }],
      AtIssue i base (gOf base) (eOf base) ∧ Only (gOf base) (eOf base)) ∧
    (∀ i ∈ [Instr.brk {} { mask := 7 }], AtIssue i debugging (gOf debugging) (eOf debugging) ∧ Only (gOf debugging) (eOf debugging)) ∧
    (∀ i ∈ [Instr.rtt {}], AtIssue i handlingJoin (gOf handlingJoin) (eOf handlingJoin) ∧ Only (gOf handlingJoin) (eOf handlingJoin)) ∧
    (∀ i ∈ [Instr.rtt {}, .rttSkip {}, .hmov {} { dir := false, cl := 0, n := 31, h := 15 }, .hmov {} { dir := false, cl := 1, n := 15, h := 0 },
        .hmov {} { dir := false, cl := 2, n := 0, h := 0 }, .hmov {} { dir := false, cl := 3, n := 0, h := 0 }, .hmov {} { dir := false, cl := 4, n := 5, h := 15 },
        .hmov {} { dir := false, cl := 5, n := 3, h := 1 }, .hmov {} { dir := true, cl := 0, n := 31, h := 1 }, .hmov {} { dir := true, cl := 1, n := 0, h := 1 },
        .hmov {} { dir := true, cl := 2, n := 0, h := 1 }, .hmov {} { dir := true, cl := 3, n := 0x1A, h := 1 }],
      AtIssue i handling (gOf handling) (eOf handling) ∧ Only (gOf handling) (eOf handling)) ∧
    (∀ i ∈ [Instr.repl {} { a := .s 1, half := false }], AtIssue i handlingError (gOf handlingError) (eOf handlingError) ∧
      Only (gOf handlingError) (eOf handlingError)) ∧
    ((base.groupContext? (gOf base)).map (·.dbgen) = some false ∧
     (debugging.groupContext? (gOf debugging)).map (·.dbgen) = some true ∧ (gOf base).inHandler = false ∧ (trapOf handlingJoin).joins = true ∧
     (trapOf handling).joins = false ∧ handling.pendingAccs 3 = [] ∧ handling.depthDue 3 = []) ∧
    (let g := gOf handling
     let t := trapOf handling
     g.inHandler = true ∧ g.trap = some t ∧ t.cls ≠ 10 ∧ t.isRep = false ∧ handling.accs = [] ∧ handling.ops = [] ∧ g.entries.length = 1 ∧
     g.entries.all (fun x => x.mask == t.emask && x.restart != some 0) = true ∧ handling.awaited g t 31 0xFFFFFFFF = false ∧
     (Iss.mk' handling g (eOf handling) (.rtt {})).ex ≠ 0 ∧ gateOk handling { g with frame := none } [31] = true ∧
     (handling.mappedRegs { g with frame := none }) = [] ∧ srnWritable 0x1A = true ∧ (g.srWrite t 0x1A 4).isSome = true) ∧
    (let g := gOf handling
     let t := trapOf handling
     let s (k : AccKind) : State := { handling with accs := [{ acc k 1 with d := 20 }] }
     (s (.load false)).awaited g t 20 0xFFFFFFFF = true ∧ (s (.feq 3)).awaitedP g = true ∧ handling.awaitedP g = false ∧ t.words ≠ 0 ∧
     (let u : TrapRec := { t with words := 0 }; (handling.reread g u).words = 1)) ∧
    (let t := trapOf handlingError
     t.cls = 10 ∧ t.fetchError = false ∧ t.dests[0]? = some 5 ∧ t.supplied = [] ∧ (gOf handlingError).inHandler = true) :=
  ⟨all_ready (by decide +kernel), all_ready (by decide +kernel), all_ready (by decide +kernel), all_ready (by decide +kernel),
   all_ready (by decide +kernel), by decide +kernel⟩

/-- A stopped group. -/
def stoppedGroup (st : Stop) (cls : Nat) : State :=
  withHandler (onGroup (fun g => { g with stop := st, trap := some { cls := cls, pc := placeVa + 64, emask := 0xFFFFFFFF, tmask := 0xFFFFFFFF } }) base)

theorem wit_SupervisorSteps :
    (let s := stoppedGroup .waitFrame 11
     gOf s ∈ s.groups ∧ s.group? (gOf s).id = some (gOf s) ∧ (gOf s).stop = .waitFrame ∧ (gOf s).untended = false ∧
     s.frameBusy 0 0 0 = false ∧ s.groups.length = 1) ∧
    (let s := ((stoppedGroup .waitFrame 11).updCtx 1 fun c => { c with hobj := placeVa + 256 }).installTlb 0 dieUnits
       (leafEntry 1 placeVa 4 (placePa + 15))
     let q : Asker := { owner := .block 3, die := 0, cluster := 0, port := 0, ctx := 1, part := s.groupPart (gOf s) }
     let n := s.needVa 0 1 false (placeVa + 256) 64
     (gOf s).stop = .waitFrame ∧ (s.gate q n).2 = false ∧ (granted q n s).2 = true) ∧
    (let o : CountedOp := { id := 60, grp := 3, ctr := 0, lanes := 3, poisoned := 1, dests := [5] }
     let s : State := { withHandler (onGroup (fun g => { g with deliver := [60] }) base) with ops := [o] }
     sole (fun p => p.id == o.id) s.ops o = true ∧ (gOf s).stop = .running ∧ (gOf s).inHandler = false ∧ (gOf s).halted = false ∧
     (gOf s).entries.all (fun x => !x.midway) = true ∧ o.id ∈ (gOf s).deliver ∧
     (s.groupContext? (gOf s)).map (·.hobj) = some 0x20000) ∧
    (let s := stoppedGroup (.waitSupervisor true) 11
     let f := stoppedGroup (.waitSupervisor true) 14
     s.supGroup 0 1 0 = some (gOf s) ∧ s.isStranded (gOf s) = false ∧ (gOf s).handlerFaulted = false ∧ (gaOf s).restoredOps = false ∧
     (gOf f).handlerFaulted = true ∧ f.supGroup 0 1 0 = some (gOf f) ∧ (s.groupLaunch? (gOf s)).isSome = true) ∧
    (let s := base.updCtx 1 fun c => { c with nslot := 1, slotsz := 8 }
     let v : BitVec 128 := 2 ^ 96 + 2 ^ 80 + 1
     v.getLsbD 0 = true ∧ (dieOf s).preempt.getLsbD 0 = false ∧ s.namedGangs 0 (v.toNat / 2 ^ 80 % 2 ^ 16) (v.toNat / 2 ^ 96) = [gaOf s] ∧
     (gaOf s).slot = none ∧ (s.gangGroups (gaOf s).id).any (fun g => !g.retired) = true ∧ (s.ctx? 1).bind (·.freeSlot (gaOf s).need) = some 0 ∧
     (1#128).getLsbD 0 = true) ∧
    (let s := (base.updCtx 1 fun c => { c with nslot := 1, slotsz := 8 }).updGang 2 fun ga => { ga with preempting := true, slot := some 0 }
     (gaOf s).preempting = true ∧ (gaOf s).saved = none ∧ s.accs = [] ∧ (gaOf s).slot = some 0 ∧ s.gangDrained (gaOf s) = true ∧
     s.launch? (gaOf s).launch = some (laOf s) ∧ (s.ctx? (laOf s).ctx).isSome = true) ∧
    ((base.updCtx 1 fun c => { c with dbgen := true }).dbgTargets 0 (2 ^ 48 + 1) = [3] ∧
     (let s := onGroup (fun g => { g with haltReq := true }) base
      (gOf s).haltReq = true ∧ (gOf s).halted = false ∧ (gOf s).front.all (fun e => !e.midway) = true)) := by decide +kernel

/-! ### Witnesses: queues, dealing and readiness -/

/-- A kernel object header of 16 code words and an LPB of one stage that runs it over 32 items. -/
def header : Nat := 0x4B4F + 2 ^ 16 + 64 * 2 ^ 64 + 32 * 2 ^ 140 + 32 * 2 ^ 146 + 2 ^ 152 + 64 * 2 ^ 192 + 128 * 2 ^ 224
def block : Nat := placeVa + 32 * 2 ^ 448 + 2 ^ 480 + 2 ^ 512

/-- The working state with that header and LPB in place, and queue 1 holding the LPB. -/
def queuedLpb (v : Nat) : State :=
  (((working.wr placePa 64 header).wr (placePa + 1024) 128 v).updCtx 1 fun c => { c with
    queues := [(1, { en := true, state := 1, logn := 4, rbase := placeVa + 1024, tail := 1 })] }).updPkg fun p => { p with boot := 3 }
def admitted (v : Nat) : Launch := { id := (queuedLpb v).next, ctx := 1, queue := 1, seq := 1, lpb := BitVec.ofNat 1024 v, lpbAddr := placeVa + 1024 }

/-- An LPB with a completion address on the placed page. -/
def complBlock : BitVec 1024 := BitVec.ofNat 1024 ((placeVa + 2048) * 2 ^ 704)

/-- An LPB that depends on its own sequence number. -/
def selfish : Nat := block + (2 ^ 63 + 2 ^ 58 + 1) * 2 ^ 768

theorem wit_QueueSteps :
    (let s := queuedLpb block
     let q : Asker := { owner := .admission 1 1, die := 0, ctx := 1, part := (admitted block).part }
     let n := s.needVas 0 1 ((placeVa + 1024, 128) :: s.stageReads 0 1 (admitted block)) []
     (s.ctx? 1).isSome = true ∧ s.ctx? 7 = none ∧ s.pkg.boot = 3 ∧ s.admissionHeld 1 1 = false ∧ s.relocking 0 = false ∧
     (s.updDie 0 fun d => { d with relock := some 5 }).relocking 0 = true ∧
     s.readVa 0 1 (placeVa + 1024) 128 = some block ∧ (s.gate q n).2 = false ∧ (granted q n s).2 = true ∧
     lowestCode (((granted q n s).1.readStages 0 1 (admitted block)).1 ++ lpbCauses (admitted block) (s.partDies ((s.ctx? 1).getD { num := 0 }) 0).isSome) = none ∧
     (admitted block).selfDep = false ∧ (admitted selfish).selfDep = true ∧
     lowestCode (((queuedLpb selfish).readStages 0 1 (admitted selfish)).1 ++ lpbCauses (admitted selfish) true) = none ∧
     s.readVa 0 1 0 128 = none) ∧
    (let s : State := { base with launches := base.launches.map fun (l : Launch) => { l with phase := .waiting } }
     let held := s.updDie 0 fun d => { d with relock := some 5 }
     let l := laOf s
     s.launch? 1 = some l ∧ l.phase = .waiting ∧ s.depsHold l = true ∧ s.depsHold (admitted selfish) = false ∧ s.releaseHeld l (s.partOf l) = false ∧
     held.releaseHeld l (held.partOf l) = true ∧ (s.partOf l).failed = false ∧
     (s.gate { owner := .release l.id, die := (s.partOf l).home, ctx := l.ctx, part := l.part } (s.releaseNeed l (s.partOf l).home)).2 = true) ∧
    (let s : State := { base with gangs := [], groups := [] }
     let x := (s.launch? 1).getD { id := 0, ctx := 0, queue := 0, seq := 0, lpb := 0 }
     x.phase = .released ∧ s.drained x = true ∧ x.compl = 0 ∧ s.commandsRun 1 false = false ∧ s.relocking (s.serviceDie x) = false) ∧
    (let s : State := { engines with gangs := [], groups := [], launches := engines.launches.map fun (l : Launch) => { l with lpb := complBlock } }
     let x := (s.launch? 1).getD { id := 0, ctx := 0, queue := 0, seq := 0, lpb := 0 }
     let g := granted { owner := .complete x.id, die := s.serviceDie x, ctx := x.ctx, part := x.part } (s.needVa (s.serviceDie x) x.ctx true x.compl 8) s
     x.phase = .released ∧ s.drained x = true ∧ x.compl = placeVa + 2048 ∧ s.relocking (s.serviceDie x) = false ∧ g.2 = true ∧
     (g.1.writeVa (g.1.serviceDie x) x.ctx x.compl 8 (x.queue * 2 ^ 48 + x.seq % 2 ^ 48)).2 = true) := by decide +kernel

/-- The working state with its launch changed. -/
def dealing (f : Launch → Launch) : State := { working with launches := working.launches.map f }
def stock32 : Stock := { die := 0, stage := 0, ranges := [(0, 32)], final := true }

theorem wit_DealingSteps :
    (let s := dealing fun l => { l with lpb := 2 ^ 621, stocks := [{ die := 0, stage := 0 }], total := 300 }
     let x := laOf s
     s.launch? x.id = some x ∧ x.live = true ∧ x.deal = true ∧ x.cores = false ∧ x.dies.contains 0 = true ∧ (x.stock 0 0).count ≤ 128 ∧
     (x.stock 0 0).asked = false ∧ (x.stock 0 0).final = false ∧ s.stalledPair 0 x.home = false ∧ s.stalledPair x.home 0 = false) ∧
    (let s := dealing fun l => { l with dealQ := [0], total := 300, dealR := [(0, [(0, 256)], false)], stocks := [stock32] }
     let x := laOf s
     x.dealQ = [0] ∧ AMap.get? x.dealR 0 = some ([(0, 256)], false) ∧ 0 < s.stockOf x 0 0 ∧ 0 < x.nstage ∧ x.holds.contains 0 = false ∧
     AMap.getD x.starve 0 0 + 64 * 2048 ≤ ({ s with gtime := 131072 } : State).gtime) ∧
    (let s := dealing fun l => { l with stocks := [stock32], total := 32, supply := 32 }
     s.relocking 0 = false ∧ (s.restoreStep 0).isNone = true ∧ (s.heldFor 0).isNone = true ∧ (s.placeNew 0).isSome = true) ∧
    (let s := dealing fun l => { l with lpb := 2 ^ 619, stocks := [stock32], total := 32, supply := 32 }
     (s.restoreStep 0).isNone = true ∧ ((s.heldFor 0).bind s.placeShares).isSome = true) ∧
    (let s : State := { working with groups := [], gangs := working.gangs.map fun (ga : Gang) => { ga with
        saved := some 0, savedGroups := working.groups, slot := some 0, tset := none } }
     (s.restoreStep 0).isSome = true) := by decide +kernel

/-- The working state with its group changed. -/
def ofGroup (f : Group → Group) : State := onGroup f working
def parkedOn (p : Park) : State := onEntry (fun e => { e with park := some p }) working

theorem wit_ReadinessSteps :
    (let g := gOf working
     working.group? g.id = some g ∧ g.waited < 4096 ∧ g.level < 7 ∧ 4096 ≤ (gOf (ofGroup fun g => { g with waited := 4096 })).waited ∧
     (gOf (ofGroup fun g => { g with waited := 4096 })).level < 7 ∧ 7 ≤ (gOf (ofGroup fun g => { g with level := 7 })).level) ∧
    (let s := ofGroup fun g => { g with surgeWait := some 5 }
     gOf s ∈ s.groups ∧ s.group? (gOf s).id = some (gOf s) ∧ s.groups.length = 1 ∧ (gOf s).surge = false) ∧
    (let s := parkedOn (.waitk 1)
     let z := parkedOn (.zcmp { words := 1 })
     sole (fun x => x.pc == (eOf working).pc && s.parkHolds (gOf s) x) (gOf s).front { eOf working with park := some (.waitk 1) } = true ∧
     sole (fun x => x.pc == (eOf working).pc && z.parkHolds (gOf z) x) (gOf z).front { eOf working with park := some (.zcmp { words := 1 }) } = true) ∧
    (let s : State := { ofGroup (fun g => { g with items := [], entries := [] }) with
       launches := working.launches.map fun (l : Launch) => { l with stocks := [stock32] } }
     let g := gOf s
     (s.groupLaunch? g).isSome = true ∧ (s.groupStage? g).isSome = true ∧ g.free = true ∧ s.relocking g.die = false ∧ s.refillSelected g = true ∧
     (s.gang? g.gang).map (·.restoredOps) = some false ∧ (s.cluster g.die g.cluster).power = .awake ∧
     ((s.updLaunch (laOf s).id fun l => l.withdrawn g.die).launch? (laOf s).id).map (fun x => s.nextCont x g.die 0) = some none) ∧
    (let c : Cont := { id := 40, launch := 1, die := 0, grp := 3, item := {}, pred := 1, pc := placeVa + 64, prio := 1, stack := [], cc := 0
                       live := 2, addr := 0, waits := [], slot := 0, ready := some 5, regs := [(1, 7)] }
     let s : State := { ofGroup (fun g => { g with items := g.items.filter (·.1 ≠ 0), entries := [] }) with
       conts := [c], launches := working.launches.map fun (l : Launch) => { l with stages := l.stages.map fun t => { t with thresh := 1 } } }
     let g := gOf s
     s.refillSelected g = true ∧ g.free = true ∧ s.nextCont (laOf s) g.die 0 = some (c, 0) ∧ s.emptyLanes g = [0] ∧
     gateOk s g (c.regs.map (·.1)) = true ∧ (s.updLaunch (laOf s).id fun l => l.withdrawn g.die) = s) ∧
    (let s := ofGroup fun g => { g with items := [], entries := [] }
     let g := gOf s
     g.free = true ∧ g.retired = false ∧ s.conts = [] ∧ s.holdsRefill g = false ∧ g.frame = none ∧ g.engq = [] ∧ g.matq = [] ∧ s.ops = [] ∧ s.accs = [] ∧
     g.pnd = 0 ∧ (gOf (ofGroup fun g => { g with fpflags := 0x10001 })).pnd ≠ 0) ∧
    (let c : Cont := { id := 40, launch := 1, die := 0, grp := 3, item := {}, pred := 0, pc := 0, prio := 0, stack := [], cc := 0, live := 0, addr := 0
                       waits := [], slot := 0 }
     let s : State := { working with conts := [c] }
     sole (fun x => x.id == c.id && x.ready.isNone) s.conts c = true ∧ s.contDone c = true) ∧
    (let s := ofGroup fun g => { g with retired := true, entries := [], items := [] }
     let t := s.updGang 2 fun ga => { ga with cv := [(0, { sig := 1 })] }
     (gaOf s).saved = none ∧ (gaOf s).stranded = false ∧ s.groups.all (·.retired) = true ∧ (gaOf s).cv = [] ∧ (gaOf t).signed ≠ 0 ∧
     (gaOf t).preempting = false ∧ (gaOf t).cv.find? (fun c => c.2.sig != 0) = some (0, { sig := 1 }) ∧
     sole (fun x => some x.index == some (0 : Nat)) (t.gangGroups 2) (gOf t) = true) := by decide +kernel

/-! ### Witnesses: power, walks, failures, the package -/

def onDie (f : Die → Die) : State := engines.updDie 0 f
def onCluster (f : Cluster → Cluster) : State := engines.updCluster 0 1 f

theorem wit_PowerSteps :
    (let s := onDie fun d => { d with tokens := 1, wakes := [(0, 1)] }
     (dieOf s).tokens = 0 + 1 ∧ (0, 1) ∈ (dieOf s).wakes ∧ ((dieOf s).wakes.all fun x => decide (0 < x.1 ∨ 0 = x.1 ∧ 1 ≤ x.2)) = true ∧
     (dieOf engines).wakes = []) ∧
    (let d := dieOf engines
     d.freq = 18 ∧ d.relock = none ∧ d.failed = false ∧ d.lastRelock = none) ∧
    (let s := onDie fun d => { d with relock := some 2000 }
     let rel : State := { s with launches := s.launches.map fun l => { l with releasing := [0] } }
     (dieOf s).relock = some 2000 ∧ 2000 ≤ ({ s with gtime := 2000 } : State).gtime ∧ s.gtime < 2000 ∧
     s.launches.all (fun x => x.brokenBy == none && !x.releasing.contains 0) = true ∧
     rel.launches.map (fun x => (x.brokenBy, x.releasing)) = [(none, [0])] ∧ rel.treeCut 16 0 = false) ∧
    ((onCluster fun c => { c with power := .waking }).cluster 0 1).power = .waking ∧ ((onCluster fun c => { c with power := .gatingDown }).cluster 0 1).power = .gatingDown ∧
    (let c := engines.cluster 0 1
     c.power = .awake ∧ engines.groups.all (fun g => !(g.die == 0 && g.cluster == 1)) = true ∧ engines.gangs.all (fun g => g.cluster == 0) = true ∧ c.clearing = [] ∧
     engines.atBanks 0 1 = [] ∧ engines.unitsAt 0 1 = [] ∧ c.running = none ∧ (engines.die? 0).isSome = true ∧ (gOf engines).cluster = 0 ∧
     engines.quarterIdle 0 1 3 = true ∧ engines.quarterIdle 0 0 0 = false ∧ c.quarters.getD 3 .off = .on) ∧
    ((onCluster fun c => { c with quarters := [.waking, .on, .on, .on] }).cluster 0 1).quarters.getD 0 .off = .waking ∧
    (let s := onCluster fun c => { c with clearing := [(4096, 8192)] }
     let a := { acc .store 1 with loc := storeLoc 0 1 4096 }
     (s.cluster 0 1).clearing.find? (fun r => r.1 == 4096) = some (4096, 8192) ∧ s.rangeWanted 0 1 4096 8192 = false ∧
     ({ s with accs := [a] } : State).rangeWanted 0 1 4096 8192 = true) ∧
    engines.memOk = true := by decide +kernel

def walkOf (p : WalkPhase) : Walk := { id := 50, die := 0, cluster := 0, ctx := 1, vpn := 1, phase := p }

theorem wit_WalkSteps :
    (let s : State := { engines with walks := (List.range 64).map fun n => { walkOf .running with id := 100 + n, vpn := n } }
     64 ≤ (s.walks.filter fun w => w.die == 0 && w.isRunning).length) ∧
    (let w := walkOf .running
     let s : State := { engines with walks := [w, { walkOf .waiting with id := 51 }] }
     let q : Asker := { owner := .walk 50, die := 0, cluster := 0, ctx := 1 }
     let done := requested (.walk 50) (s.walkBytes w) [] s
     (s.walks.filter fun w => w.die == 0 && w.isRunning).length < 64 ∧
     (s.walks.find? fun w => w.die == 0 && w.isWaiting && !s.walks.any fun x => x.isRunning && s.sameWalk x w) = none ∧
     sole (fun x => x.id == 50 && x.die == 0 && x.isRunning) s.walks w = true ∧ (s.walkBytes w).length = 5 ∧
     (s.askFor q (s.walkBytes w) []).2 = false ∧ (done.askFor q (done.walkBytes w) []).2 = true ∧
     s.walk 1 65536 = .leaf 4 (placePa + 15) ∧ (s.walk 1 0 = .cause 0) ∧ (s.walks.any fun x => x.isWaiting && s.sameWalk w x && x.install) = true ∧
     ({ w with stale := true } : Walk).stale = true ∧ w.stale = false) ∧
    (let s : State := { engines with walks := [{ walkOf .running with vpn := 2 ^ 39 }] }
     sole (fun x => x.id == 50 && x.die == 0 && x.isRunning) s.walks { walkOf .running with vpn := 2 ^ 39 } = true ∧
     s.walk 1 (65536 * 2 ^ 39) = .cause 0) ∧
    (let s : State := { engines with walks := [walkOf .waiting] }
     (s.walks.find? fun w => w.die == 0 && w.isWaiting && !s.walks.any fun x => x.isRunning && s.sameWalk x w) = some (walkOf .waiting)) ∧
    (1#128).getLsbD 0 = true ∧ (2#128).getLsbD 0 = false ∧ (dieOf engines).invs = [] ∧
    (let s := onDie fun d => { d with tlbinv := 1, invs := [1] }
     (dieOf s).invs = 1 :: [] ∧ (s.walks.any fun w => w.isRunning && w.stale && invHits 1 w.ctx (w.vpn * 65536) 65536) = false ∧
     s.oldPlans 1 = false ∧
     (({ s with walks := [{ walkOf .running with stale := true }] } : State).walks.any fun w =>
       w.isRunning && w.stale && invHits (2 ^ 56 + 3) w.ctx (w.vpn * 65536) 65536) = true) := by
  decide +kernel

theorem wit_FailureSteps :
    (let c : Context := { num := 1, parts := [(0, { cmask := 0xFFFFFFFF, valid := true, dmask := 1 })] }
     let s : State := { engines with ctxs := [c] }
     s.ctx? c.num = some c ∧ AMap.get? c.parts 0 = some { cmask := 0xFFFFFFFF, valid := true, dmask := 1 } ∧ (1#64).getLsbD 0 = true) ∧
    (engines.die? 0).isSome = true ∧ (dieOf engines).failed = false ∧ (dieOf engines).wdt = 0 ∧
    (let s : State := { engines with launches := engines.launches.map fun (l : Launch) => { l with arrived := [0] } }
     s.launch? (laOf s).id = some (laOf s) ∧ (laOf s).live = true ∧ 0 ∈ (laOf s).dies ∧ (laOf s).arrived ≠ [] ∧ (dieOf s).failed = false) ∧
    (let s := (onDie fun d => { d with failed := true }).updPkg fun p => { p with declaring := [0] }
     (dieOf s).failed = true ∧ 0 ∈ s.pkg.declaring ∧ 0 ∉ (onDie fun d => { d with failed := true }).pkg.declaring) ∧
    (let s := (onDie fun d => { d with wdt := 5 }).updCluster 0 1 fun c => { c with stalls := [(3, 0, 5, false)] }
     (dieOf s).wdt ≠ 0 ∧ AMap.getD (s.cluster 0 1).stalls 3 (0, 0, false) = (0, 5, false) ∧ (dieOf s).wdt.toNat ≤ 5) ∧
    (let s := onDie fun d => { d with wdtNext := some (7, 0) }
     (dieOf s).wdtNext = some (7, 0) ∧ s.gtime / 2048 ≤ 0 ∧ 0 < ({ s with gtime := 2048 } : State).gtime / 2048) ∧
    (let n (k : Nat) := ((List.replicate k (0, 9, 0) ++ [(0, 9, engines.gtime)]).filter fun (x : Nat × Nat × Nat) =>
        decide (engines.gtime < x.2.2 + 3600000000000)).length
     n 14 < 16 ∧ 16 ≤ n 15) := by decide +kernel

theorem wit_BootSteps :
    (let s := State.reset
     let cs := (List.range 72).map s.pkg.classify
     let u (n : Nat) : State := s.updPkg fun p => { p with powered := true, boot := n, sites := cs }
     s.pkg.boot = 0 ∧ s.pkg.flash.refused = none ∧ (u 1).pkg.powered = true ∧ (u 1).pkg.boot = 1 ∧ (u 2).pkg.boot = 2 ∧ (u 2).pkg.sites = cs ∧
     (u 3).pkg.boot = 3 ∧ (u 2).pkg.flash.grade = 64 ∧ (formMesh cs 8).isSome = true ∧
     ((formMesh cs 8).bind fun ms => formLinks cs ms 1).isSome = true) ∧
    (let p : Package := { flash := { imageSigOk := false }, tested := List.replicate 71 .full }
     let cs := (List.range 72).map p.classify
     p.flash.refused = some 2 ∧ ({ minSecVer := 1 } : Flash).refused = some 3 ∧ ({ imageCommitted := false } : Flash).refused = some 1 ∧
     (formMesh cs 8).isSome = true ∧ formMesh ((List.range 72).map ({ tested := [] } : Package).classify) 8 = none) ∧
    (let s := base.updPkg fun p => { p with boot := 5 }
     s.pkg.boot ≠ 0 ∧ s.pkg.boot = 5 ∧ s.pkg.recovery = false ∧ (s.updPkg fun p => { p with recovery := true }).pkg.recovery = true) ∧
    (let p := base.pkg
     p.ampCeiling < 24001 ∧ 100 * 22799 < 95 * p.ampCeiling ∧ p.limit ≤ 250#16 ∧ ¬p.limit ≤ 249#16 ∧ 100 * 237 < 95 * p.limit.toNat) ∧
    ((dieOf base).freq ≠ 8 ∧ (dieOf base).relock = none ∧ (dieOf base).failed = false ∧ (dieOf base).lastRelock = none) ∧
    base.pkg.appending = [] ∧
    (let e : RetEntry := { commit := 0, crc := 0, seq := 1, kind := 2, site := 3, offset := 0 }
     (base.updPkg fun p => { p with appending := [e] }).pkg.appending = e :: []) ∧
    (base.ctx? 1).isSome = true := by decide +kernel

/-- BootSteps, a mesh without a path for a link: a full row's edge sites around dark ones leave the next row unreachable. -/
theorem wit_BootSteps_no_path :
    let cs : List Site := (List.range 72).map fun n => if n = 8 then .dark else if n / 9 = 1 ∨ n / 9 = 3 then .dark else .full
    (formMesh cs 3).isSome = true ∧ ((formMesh cs 3).bind fun ms => formLinks cs ms 1) = none := by decide +kernel

end Sys2Proof.Tests
end

section
/-! PROOFS. Boot: the parts of a boot, the host's registers and images, the limits of power and heat, and register writes (spec 15),
and from them the obligation on boot, attestation, power and heat. -/

set_option Elab.async false

namespace Sys2Proof.Machine

/-! ### Fields of a written value -/

/-- A field of a written value is a word of its width. -/
theorem ofNat_bits {w hi lo n : Nat} (v : BitVec w) (h : hi + 1 - lo = n) :
    BitVec.ofNat n (bits v.toNat hi lo) = v.extractLsb' lo n := by
  subst h
  apply BitVec.eq_of_toNat_eq
  simp [bits, BitVec.extractLsb'_toNat]

theorem bits_eq_div_mod (x hi lo : Nat) : bits x hi lo = x / 2 ^ lo % 2 ^ (hi + 1 - lo) := by
  rw [bits, Nat.shiftRight_eq_div_pow]

/-! ### Memory -/

/-- A byte below the first listed address is blank. -/
theorem Memory.read_of_lt {m : List Host.Cell} {lo a : Nat} (hm : Memory.wfFrom lo m = true) (h : a < lo) :
    Memory.read m a = Memory.blank := by
  cases m with
  | nil => rfl
  | cons c t =>
    simp only [Memory.wfFrom, Bool.and_eq_true, decide_eq_true_eq] at hm
    obtain ⟨⟨hlo, -⟩, -⟩ := hm
    simp only [Memory.read]
    rw [if_neg (by omega), if_pos (by omega)]

/-- Memory of which only some addresses are kept: the others read blank. -/
theorem Memory.read_filter (q : Nat → Bool) {m : List Host.Cell} (hm : Memory.wf m = true) (a : Nat) :
    Memory.read (m.filter fun c => q c.1) a = if q a = true then Memory.read m a else Memory.blank := by
  suffices h : ∀ lo, Memory.wfFrom lo m = true →
      Memory.read (m.filter fun c => q c.1) a = if q a = true then Memory.read m a else Memory.blank from h 0 hm
  clear hm
  induction m with
  | nil => intro _ _; simp [Memory.read]
  | cons c t ih =>
    intro lo hm
    obtain ⟨k, b⟩ := c
    simp only [Memory.wfFrom, Bool.and_eq_true, decide_eq_true_eq] at hm
    obtain ⟨-, ht⟩ := hm
    have hbelow := Memory.read_of_lt (a := a) ht
    rw [List.filter_cons]
    cases hk : q k with
    | true =>
      simp only [if_true, Memory.read, ih _ ht]
      by_cases ha : a = k
      · simp [ha, hk]
      · by_cases hlt : a < k <;> simp [ha, hlt]
    | false =>
      simp only [Bool.false_eq_true, if_false, Memory.read, ih _ ht]
      by_cases ha : a = k
      · simp [ha, hk]
      · by_cases hlt : a < k
        · simp [ha, hlt, hbelow (by omega)]
        · simp [ha, hlt]

namespace State

/-! ### The package, events and the lens table -/

@[simp] theorem updPkg_pkg (s : State) (f : Package → Package) : (s.updPkg f).pkg = f s.pkg := rfl

/-- An event changes memory and the event ring's fields alone. -/
theorem event_eq (s : State) (code a b : Nat) : s.event code a b =
    { s with mem := (s.event code a b).mem
             pkg := { s.pkg with evOver := (s.event code a b).pkg.evOver, evHead := (s.event code a b).pkg.evHead } } := by
  unfold event; dsimp only; split_ifs <;> simp only [updPkg, wr]

@[simp] theorem event_dies (s : State) (code a b : Nat) : (s.event code a b).dies = s.dies := by rw [event_eq]
@[simp] theorem event_powered (s : State) (code a b : Nat) : (s.event code a b).pkg.powered = s.pkg.powered := by rw [event_eq]
@[simp] theorem event_boot (s : State) (code a b : Nat) : (s.event code a b).pkg.boot = s.pkg.boot := by rw [event_eq]
@[simp] theorem event_bootCause (s : State) (code a b : Nat) : (s.event code a b).pkg.bootCause = s.pkg.bootCause := by rw [event_eq]
@[simp] theorem event_latch (s : State) (code a b : Nat) : (s.event code a b).pkg.latch = s.pkg.latch := by rw [event_eq]
@[simp] theorem event_limit (s : State) (code a b : Nat) : (s.event code a b).pkg.limit = s.pkg.limit := by rw [event_eq]
@[simp] theorem event_flash (s : State) (code a b : Nat) : (s.event code a b).pkg.flash = s.pkg.flash := by rw [event_eq]
@[simp] theorem event_links (s : State) (code a b : Nat) : (s.event code a b).pkg.links = s.pkg.links := by rw [event_eq]
@[simp] theorem event_mirrors (s : State) (code a b : Nat) : (s.event code a b).pkg.mirrors = s.pkg.mirrors := by rw [event_eq]

/-- Publishing the lens table changes memory alone. -/
theorem publish_eq (s : State) (ws : List (Nat × Nat × Nat)) : s.publish ws = { s with mem := (s.publish ws).mem } := by
  have h (s : State) : ws.foldl (fun (s : State) w => s.wr (lensLoc + w.1) w.2.1 w.2.2) s =
      { s with mem := (ws.foldl (fun (s : State) w => s.wr (lensLoc + w.1) w.2.1 w.2.2) s).mem } := by
    induction ws generalizing s with
    | nil => rfl
    | cons w t ih => rw [List.foldl_cons, ih]; rfl
  unfold publish
  rw [h]

@[simp] theorem publish_pkg (s : State) (ws : List (Nat × Nat × Nat)) : (s.publish ws).pkg = s.pkg := by rw [publish_eq]
@[simp] theorem publish_dies (s : State) (ws : List (Nat × Nat × Nat)) : (s.publish ws).dies = s.dies := by rw [publish_eq]

end State

/-! ### The parts of a boot (R384) -/

theorem powerUp_rom {s : State} (h : s.pkg.powered = false ∨ s.pkg.boot = 0) : exec .powerUp s = .next s.drawn.bootRom := by
  have hc : (!s.pkg.powered || s.pkg.boot == 0) = true := by simpa using h
  exact congrArg _ (if_pos hc)

theorem powerUp_on {s : State} (hp : s.pkg.powered = true) (hb : s.pkg.boot ≠ 0) : exec .powerUp s =
    .next (match s.pkg.boot with | 1 => s.selfTest | 2 => s.drawn.bootMesh | _ => s) := by
  have hc : ¬(!s.pkg.powered || s.pkg.boot == 0) = true := by simp [hp, hb]
  exact congrArg _ (if_neg hc)

theorem powerUp_selfTest {s : State} (hp : s.pkg.powered = true) (hb : s.pkg.boot = 1) :
    exec .powerUp s = .next s.selfTest := by
  rw [powerUp_on hp (by omega), hb]; rfl

theorem powerUp_mesh {s : State} (hp : s.pkg.powered = true) (hb : s.pkg.boot = 2) :
    exec .powerUp s = .next s.drawn.bootMesh := by
  rw [powerUp_on hp (by omega), hb]; rfl

theorem powerUp_booted {s : State} (hp : s.pkg.powered = true) (h0 : s.pkg.boot ≠ 0) (h1 : s.pkg.boot ≠ 1)
    (h2 : s.pkg.boot ≠ 2) : exec .powerUp s = .next s := by
  rw [powerUp_on hp h0]
  split
  · contradiction
  · contradiction
  · rfl

/-! Where a boot ends, its state and cause stand, and what it has set up stays. -/

@[simp] theorem State.bootEnds_dies (s : State) (st cause : Nat) : (s.bootEnds st cause).dies = s.dies := by
  simp [State.bootEnds]
@[simp] theorem State.bootEnds_powered (s : State) (st cause : Nat) : (s.bootEnds st cause).pkg.powered = s.pkg.powered := by
  simp [State.bootEnds]
@[simp] theorem State.bootEnds_boot (s : State) (st cause : Nat) : (s.bootEnds st cause).pkg.boot = st := by
  simp [State.bootEnds]
@[simp] theorem State.bootEnds_bootCause (s : State) (st cause : Nat) : (s.bootEnds st cause).pkg.bootCause = cause := by
  simp [State.bootEnds]
@[simp] theorem State.bootEnds_latch (s : State) (st cause : Nat) : (s.bootEnds st cause).pkg.latch = s.pkg.latch := by
  simp [State.bootEnds]
@[simp] theorem State.bootEnds_limit (s : State) (st cause : Nat) : (s.bootEnds st cause).pkg.limit = s.pkg.limit := by
  simp [State.bootEnds]
@[simp] theorem State.bootEnds_flash (s : State) (st cause : Nat) : (s.bootEnds st cause).pkg.flash = s.pkg.flash := by
  simp [State.bootEnds]
@[simp] theorem State.bootEnds_links (s : State) (st cause : Nat) : (s.bootEnds st cause).pkg.links = s.pkg.links := by
  simp [State.bootEnds]
@[simp] theorem State.bootEnds_mirrors (s : State) (st cause : Nat) : (s.bootEnds st cause).pkg.mirrors = s.pkg.mirrors := by
  simp [State.bootEnds]

/-- The ceilings are latched when the ROM runs (R394). -/
def State.latched (s : State) : State :=
  s.updPkg fun p =>
    let fl : Flash := { p.flash with log := bootLog p.flash.log }
    { p with powered := true, latch := p.flash.latch, limit := p.flash.latch, ampCeiling := p.flash.ampCeiling, flash := fl }

theorem State.bootRom_of_refused {s : State} {c : Nat} (h : s.pkg.flash.refused = some c) :
    s.bootRom = s.latched.bootEnds 5 c := by
  have hl : s.latched.pkg.flash.refused = some c := h
  change (match s.latched.pkg.flash.refused with | some c => _ | none => _) = _
  rw [hl]; rfl

theorem State.bootRom_of_accepted {s : State} (h : s.pkg.flash.refused = none) :
    s.bootRom = s.latched.updPkg fun p => { p with boot := 1 } := by
  have hl : s.latched.pkg.flash.refused = none := h
  change (match s.latched.pkg.flash.refused with | some c => _ | none => _) = _
  rw [hl]; rfl

/-! ### Self-test: the sites demoted (R392) -/

/-- A whole entry is good: COMMIT is programmed and the CRC is that of its body (R393). -/
theorem RetEntry.mk'_good (seq kind site offset : Nat) : (RetEntry.mk' seq kind site offset).good = true := by
  simp [RetEntry.mk', RetEntry.good, RetEntry.body]

namespace Package

/-- The kind of a demotion's entry: of a dark site 3, of another 2 (Table 15.4). -/
def demotionKind (p : Package) (n : Nat) : Nat := if p.classify n = .dark then 3 else 2

/-- The site is full, or an entry demotes it as far already. -/
abbrev stands (p : Package) (n : Nat) : Prop :=
  p.classify n = .full ∨
    ((bootLog p.flash.log ++ p.appending).any fun e => e.site == n && (e.kind == p.demotionKind n || e.kind == 3)) = true

/-- The entry of a site's demotion, were it appended now. -/
def demotionEntry (p : Package) (n : Nat) : RetEntry :=
  RetEntry.mk' ((bootLog p.flash.log).length + p.appending.length) (p.demotionKind n) n 0

/-- The entries that the demotion of a site appends. -/
def demotion (p : Package) (n : Nat) : List RetEntry := if p.stands n then [] else [p.demotionEntry n]

/-- The entries that the demotions of sites append, site after site. -/
def demotions (p : Package) : List Nat → List RetEntry
  | [] => []
  | n :: l => p.demotion n ++ (p.demote n).demotions l

theorem demote_eq (p : Package) (n : Nat) : p.demote n = { p with appending := p.appending ++ p.demotion n } := by
  by_cases h : p.stands n
  · rw [demotion, if_pos h, List.append_nil]
    exact if_pos h
  · rw [demotion, if_neg h]
    exact if_neg h

theorem foldl_demote (l : List Nat) (p : Package) :
    l.foldl demote p = { p with appending := p.appending ++ p.demotions l } := by
  induction l generalizing p with
  | nil => rw [demotions, List.append_nil]; rfl
  | cons n l ih => rw [List.foldl_cons, ih, demotions, demote_eq, List.append_assoc]

/-- A demotion changes no site's class: the log in flash is as it was. -/
theorem classify_demote (p : Package) (n k : Nat) : (p.demote n).classify k = p.classify k := by
  rw [demote_eq]; rfl

theorem demotion_of_full {p : Package} {n : Nat} (h : p.classify n = .full) : p.demotion n = [] := if_pos (.inl h)

theorem demotions_of_full (l : List Nat) (p : Package) (h : ∀ n ∈ l, p.classify n = .full) : p.demotions l = [] := by
  induction l generalizing p with
  | nil => rfl
  | cons n l ih =>
    have hl : ∀ k ∈ l, (p.demote n).classify k = .full := fun k hk =>
      (classify_demote ..).trans (h k (List.mem_cons_of_mem _ hk))
    rw [demotions, demotion_of_full (h n List.mem_cons_self), ih _ hl, List.append_nil]

/-- A site below full that no entry names is demoted. -/
theorem demotion_of_unlisted {p : Package} {n : Nat} (h : p.classify n ≠ .full)
    (hn : ∀ e ∈ bootLog p.flash.log ++ p.appending, e.site ≠ n) : p.demotion n = [p.demotionEntry n] := by
  refine if_neg (not_or.mpr ⟨h, ?_⟩)
  simp only [List.any_eq_true, not_exists, not_and]
  intro e he
  simp [hn e he]

/-- A demotion's entry names the site demoted. -/
theorem site_of_mem_demotion {p : Package} {n : Nat} {e : RetEntry} (h : e ∈ p.demotion n) : e.site = n := by
  unfold demotion at h
  split_ifs at h
  · simp at h
  · rw [List.mem_singleton.mp h]; rfl

/-- Of the sites tested, one below full that no entry names gets an entry of its class. -/
theorem exists_mem_demotions {n : Nat} (l : List Nat) (p : Package) (hl : n ∈ l) (h : p.classify n ≠ .full)
    (hn : ∀ e ∈ bootLog p.flash.log ++ p.appending, e.site ≠ n) :
    ∃ e ∈ p.demotions l, e.site = n ∧ e.kind = (if p.classify n = .dark then 3 else 2) ∧ e.good = true := by
  induction l generalizing p with
  | nil => simp at hl
  | cons k l ih =>
    by_cases hk : n = k
    · subst hk
      refine ⟨p.demotionEntry n, List.mem_append_left _ ?_, rfl, rfl, RetEntry.mk'_good ..⟩
      rw [demotion_of_unlisted h hn]
      exact List.mem_singleton_self _
    · have hn' : ∀ e ∈ bootLog (p.demote k).flash.log ++ (p.demote k).appending, e.site ≠ n := by
        rw [demote_eq]
        intro e he
        rcases List.mem_append.mp he with hb | ha
        · exact hn e (List.mem_append_left _ hb)
        · rcases List.mem_append.mp ha with ha | hd
          · exact hn e (List.mem_append_right _ ha)
          · exact fun hs => hk (hs.symm.trans (site_of_mem_demotion hd))
      obtain ⟨e, he, hfacts⟩ := ih (p.demote k) ((List.mem_cons.mp hl).resolve_left hk)
        (by rwa [classify_demote]) hn'
      rw [classify_demote] at hfacts
      exact ⟨e, List.mem_append_right _ he, hfacts⟩

end Package

theorem State.selfTest_eq (s : State) : s.selfTest = s.updPkg fun p =>
    { p with sites := (List.range 72).map s.pkg.classify, boot := 2
             appending := p.appending ++ s.pkg.demotions (List.range 72) } := by
  change ({ s with pkg := { (List.range 72).foldl Package.demote s.pkg with
    sites := (List.range 72).map s.pkg.classify, boot := 2 } } : State) = _
  rw [Package.foldl_demote]; rfl

/-! ### Forming the mesh (R40-R46) -/

/-- A link without its latency: die, direction and path. -/
def LinkPath.shape (l : LinkPath) : Nat × Nat × List (Nat × Nat) := (l.die, l.dir, l.path)

/-- An unchanged mesh keeps its generation, and the latencies measured when that began (R43; log 69). -/
theorem State.meshStands_of_same {s : State} {cs : List Site} {ms : List (Nat × Nat)} {ls : List LinkPath}
    (h : s.pkg.flash.mapping = ms ∧ s.pkg.flash.paths.map LinkPath.shape = ls.map LinkPath.shape) :
    (s.meshStands cs ms ls).pkg.flash.gen = s.pkg.flash.gen ∧ (s.meshStands cs ms ls).pkg.links = s.pkg.flash.paths := by
  have hc : (s.pkg.flash.mapping == ms && s.pkg.flash.paths.map LinkPath.shape == ls.map LinkPath.shape) = true := by simpa using h
  unfold LinkPath.shape at hc
  simp [State.meshStands, hc]

/-- A changed mesh begins a new generation (R43). -/
theorem State.meshStands_of_changed {s : State} {cs : List Site} {ms : List (Nat × Nat)} {ls : List LinkPath}
    (h : ¬(s.pkg.flash.mapping = ms ∧ s.pkg.flash.paths.map LinkPath.shape = ls.map LinkPath.shape)) :
    (s.meshStands cs ms ls).pkg.flash.gen = s.pkg.flash.gen + 1 ∧ (s.meshStands cs ms ls).pkg.links = ls := by
  have hc : ¬(s.pkg.flash.mapping == ms && s.pkg.flash.paths.map LinkPath.shape == ls.map LinkPath.shape) = true := by simpa using h
  unfold LinkPath.shape at hc
  simp [State.meshStands, hc]

/-- Whatever the mesh was before: the package stays up, and its dies and mirror maps are those of the mesh. -/
theorem State.meshStands_facts (s : State) (cs : List Site) (ms : List (Nat × Nat)) (ls : List LinkPath) :
    (s.meshStands cs ms ls).pkg.powered = s.pkg.powered ∧ (s.meshStands cs ms ls).pkg.flash.mapping = ms ∧
    (s.meshStands cs ms ls).dies = (ms.mapIdx fun n p => { num := n, px := p.1, py := p.2 }) ∧
    (s.meshStands cs ms ls).pkg.mirrors = mirrorMaps (s.meshStands cs ms ls).pkg.links := by
  simp [State.meshStands]

theorem State.bootMesh_of_none {s : State} (h : formMesh s.pkg.sites (s.pkg.flash.grade / 8) = none) :
    s.bootMesh = (s.publish (lensWords s.pkg.sites [] [] 0 0)).bootEnds 4 1 := by
  unfold State.bootMesh gradeRows
  dsimp only
  rw [h]

theorem State.bootMesh_of_unlinked {s : State} {ms : List (Nat × Nat)}
    (h : formMesh s.pkg.sites (s.pkg.flash.grade / 8) = some ms) (hl : formLinks s.pkg.sites ms s.draw = none) :
    s.bootMesh = (s.publish (lensWords s.pkg.sites [] [] 0 0)).bootEnds 4 2 := by
  unfold State.bootMesh gradeRows
  dsimp only
  rw [h]
  dsimp only
  rw [hl]

theorem State.bootMesh_of_formed {s : State} {ms : List (Nat × Nat)} {ls : List LinkPath}
    (h : formMesh s.pkg.sites (s.pkg.flash.grade / 8) = some ms) (hl : formLinks s.pkg.sites ms s.draw = some ls) :
    s.bootMesh = (s.meshStands s.pkg.sites ms ls).bootEnds 3 0 := by
  unfold State.bootMesh gradeRows
  dsimp only
  rw [h]
  dsimp only
  rw [hl]

/-! ### What the host reads of a register (R384, R394) -/

/-- A read of a whole register of 8 bytes. -/
theorem hostMemoryAccess_register {s : State} {sp : HostSpace} {x : Nat}
    (h : s.hostRead { write := false, pa := 0, size := 8, data := 0, space := sp } = regBytes x 8 0 8) :
    exec (.hostMemoryAccess { write := false, pa := 0, size := 8, data := 0, space := sp }) s =
      .next (s.updPkg fun p => { p with hostReads := p.hostReads ++ [BitVec.ofNat 64 x] }) := by
  have hx : BitVec.ofNat 64 (x / 256 ^ 0 % 256 ^ 8) = BitVec.ofNat 64 x := by
    apply BitVec.eq_of_toNat_eq
    simp
  have hlog : s.hostReadLog { write := false, pa := 0, size := 8, data := 0, space := sp } = none := by
    refine if_neg fun hc => ?_
    obtain ⟨hsp, -⟩ := hc
    change sp = .eventLog at hsp
    subst hsp
    cases h
  change Host.Outcome.next (match s.hostReadLog _, s.hostRead _ with | some e, _ => _ | none, some x => _ | none, none => _) = _
  rw [hlog, h, ← hx]; rfl

theorem State.readBootst_eq (s : State) : s.readBootst =
    (if s.pkg.boot = 3 then s.pkg.flash.gen.toNat * 2 ^ 32 + s.pkg.flash.grade * 2 ^ 24 else 0) +
      s.pkg.bootCause * 2 ^ 16 + s.pkg.boot := by
  by_cases h : s.pkg.boot = 3 <;> simp [State.readBootst, h]

theorem State.readPkgpwr_eq (s : State) : s.readPkgpwr =
    s.pkg.latch.toNat * 2 ^ 48 + s.pkg.limit.toNat * 2 ^ 32 + s.pkg.now.toNat * 2 ^ 16 + (if s.pkg.curl = true then 4 else 0) +
      (if s.therm = true then 2 else 0) + (if s.pkg.throt = true then 1 else 0) := by
  simp [State.readPkgpwr, b2n]

/-! ### Images and attestation (R387, R388) -/

/-- The image that an update writes (R387). -/
def Flash.withImage (f : Flash) (ok : Bool) (ver image : Nat) : Flash :=
  { f with imageCommitted := ok, imageSigOk := ok, imageSecVer := ver, image := image }

theorem imageUpdate_taken {s : State} {ok : Bool} {ver : Nat} (hb : s.pkg.boot ≠ 0)
    (hr : s.pkg.boot = 5 → s.pkg.recovery = true) : exec (.imageUpdate ok ver) s =
      .next (s.fresh.updPkg fun p => { p with flash := p.flash.withImage ok ver s.next }) := by
  refine congrArg _ (if_neg ?_)
  rintro (h | ⟨h5, hf⟩)
  · exact hb h
  · rw [hr h5] at hf; cases hf

/-- What the ROM will say of an image just written (Table 15.3). -/
theorem Flash.refused_withImage (f : Flash) (ok : Bool) (ver image : Nat) : (f.withImage ok ver image).refused =
    if ok = false then some 1 else if ver < f.minSecVer then some 3 else none := by
  cases ok <;> rfl

theorem recoveryImageLoad_in_recovery {s : State} {ok : Bool} {ver : Nat} (h5 : s.pkg.boot = 5) :
    exec (.recoveryImageLoad ok ver) s =
      .next (if ok = true ∧ s.pkg.flash.minSecVer ≤ ver then s.updPkg fun p => { p with recovery := true } else s) := by
  change Host.Outcome.next (if s.pkg.boot = 5 ∧ ok = true ∧ s.pkg.flash.minSecVer ≤ ver then _ else s) = _
  simp only [h5, true_and]

theorem spdm_answer {s : State} (h : s.pkg.boot ≠ 0) (code : Nat) (vs : List Nat) :
    s.spdm code vs = .next (s.updPkg fun p => { p with spdmOut := p.spdmOut ++ [(code, vs)] }) :=
  congrArg _ (if_neg h)

/-! ### Heat and the loss of power (R322, R393, R396) -/

/-- A die that steps to another frequency and relocks (R322). -/
def Die.stepTo (d : Die) (now f : Nat) : Die :=
  { d with
    stepG := now, stepC := d.cyc + 1, ratio := BitVec.ofNat 64 (d.freq * 256 + f), relock := some (now + 2000)
    hot := d.hot && decide (f < d.freq) }

theorem Die.canStep_of {d : Die} {now : Nat} (hr : d.relock = none) (hf : d.failed = false)
    (hl : ∀ t, d.lastRelock = some t → t + 50000 ≤ now) : d.canStep now = true := by
  unfold Die.canStep
  cases h : d.lastRelock with
  | none => simp [hr, hf]
  | some t => simpa [hr, hf] using hl t h

theorem State.die?_startStep {s : State} {die f : Nat} {d : Die} (h : s.die? die = some d) (hs : f ∈ clockSteps)
    (hf : d.freq ≠ f) (hc : d.canStep s.gtime = true) : (s.startStep die f).die? die = some (d.stepTo s.gtime f) := by
  unfold State.startStep
  rw [State.die?_updDie _ _ _ _ fun a ha => by split_ifs <;> exact ha, if_pos rfl, h, Option.map_some]
  refine congrArg _ (if_pos ?_)
  simpa [hc, hs] using hf.symm

/-- The low byte of a step record's ratio is the new frequency (Table 11.8). -/
theorem Die.stepTo_ratio (d : Die) (now f : Nat) (h : f < 256) : (d.stepTo now f).ratio.toNat % 256 = f := by
  simp only [Die.stepTo, BitVec.toNat_ofNat]
  omega

/-- A hot die makes THERM read 1 (Table 15.6). -/
theorem State.therm_of_hot {s : State} {die : Nat} {d : Die} (h : s.die? die = some d) (hd : d.hot = true) : s.therm = true :=
  List.any_eq_true.mpr ⟨d, List.mem_of_find?_eq_some h, hd⟩

@[simp] theorem State.event_die? (s : State) (code a b die : Nat) : (s.event code a b).die? die = s.die? die := by
  rw [State.event_eq]; rfl

/-- A die at 105 °C starts its step to 0.8 GHz and is hot (R396). -/
theorem thermalStep_taken {s : State} {die c : Nat} {d : Die} (h : s.die? die = some d) (h105 : 105 ≤ c) (hf : d.freq ≠ 8)
    (hc : d.canStep s.gtime = true) :
    ∃ t, exec (.thermalStep die c) s = .next t ∧ t.die? die = some { d.stepTo s.gtime 8 with hot := true } := by
  refine ⟨((s.startStep die 8).updDie die fun d => { d with hot := true }).event 6 die 0, ?_, ?_⟩
  · change Host.Outcome.next (match s.die? die with | none => _ | some d => _) = _
    rw [h]
    exact congrArg _ (if_pos ⟨h105, hf, hc⟩)
  · have hstep := State.die?_startStep h (by decide : 8 ∈ clockSteps) hf hc
    rw [State.event_die?, State.die?_updDie _ _ _ _ (fun _ ha => by exact ha), if_pos rfl, hstep]; rfl

theorem thermalStep_below {s : State} {die c : Nat} {d : Die} (h : s.die? die = some d) (hc : c < 105) :
    exec (.thermalStep die c) s = .next s := by
  change Host.Outcome.next (match s.die? die with | none => _ | some d => _) = _
  rw [h]
  exact congrArg _ (if_neg fun ⟨h105, _⟩ => by omega)

/-- With every rail gone, flash and host memory are what is left (R396; log 43). -/
theorem State.powerOff_facts (s : State) : s.powerOff.groups = [] ∧ s.powerOff.dies = [] ∧ s.powerOff.accs = [] ∧
    s.powerOff.pkg.powered = false ∧ s.powerOff.pkg.boot = 0 ∧ s.powerOff.pkg.flash = s.pkg.flash ∧
    (s.memOk = true → ∀ a, Memory.read s.powerOff.mem a =
      if paHost a = true ∧ a < 2 ^ 52 then Memory.read s.mem a else 0) := by
  refine ⟨rfl, rfl, rfl, rfl, rfl, rfl, fun hm a => ?_⟩
  have h := Memory.read_filter (fun a => paHost a && decide (a < 2 ^ 52)) hm a
  simp only [Bool.and_eq_true, decide_eq_true_eq] at h
  exact h

theorem thermalTrip_taken {s : State} {c : Nat} (h : 115 ≤ c) : exec (.thermalTrip c) s = .next s.powerOff :=
  congrArg _ (if_pos h)

/-- The retirement log when power goes during the append of an entry (R393). -/
def State.cutAppend (s : State) (e : RetEntry) (n : Nat) : State :=
  s.updPkg fun p =>
    let fl : Flash := { p.flash with log := bootLog p.flash.log ++ [e.upTo n] }
    { p with flash := fl }

theorem powerLoss_idle {s : State} {n : Nat} (h : s.pkg.appending = []) : exec (.powerLoss n) s = .next s.powerOff := by
  change Host.Outcome.next (State.powerOff (match s.pkg.appending with | e :: _ => _ | [] => _)) = _
  rw [h]

theorem powerLoss_appending {s : State} {n : Nat} {e : RetEntry} {t : List RetEntry} (h : s.pkg.appending = e :: t) :
    exec (.powerLoss n) s = .next (s.cutAppend e n).powerOff := by
  change Host.Outcome.next (State.powerOff (match s.pkg.appending with | e :: _ => _ | [] => _)) = _
  rw [h]; rfl

/-! ### Records that system software writes (R5) -/

theorem State.withCtx_of_some {s : State} {n : Nat} {c : Context} (h : s.ctx? n = some c) : s.withCtx n = s :=
  if_pos (by simp [h])

/-- A context that has a record, after an update of it that keeps its number. -/
theorem State.ctx?_updCtx_self {s : State} {n : Nat} {c : Context} {f : Context → Context} (h : s.ctx? n = some c)
    (hf : ∀ a : Context, a.num = n → (f a).num = n) : ((s.withCtx n).updCtx n f).ctx? n = some (f c) := by
  rw [State.withCtx_of_some h, State.ctx?_updCtx _ _ _ _ hf, if_pos rfl, h, Option.map_some]

theorem State.writeReg_partition {s : State} {n k : Nat} (hk : k < 16) (x : Nat) : s.writeReg (.partition n k) x =
    (s.withCtx n).updCtx n fun c => { c with parts := AMap.set c.parts k (Partition.ofBits x) } := if_pos hk

theorem State.writeReg_tensorEntry {s : State} {n k : Nat} (hk : k < 256) (x : Nat) : s.writeReg (.tensorEntry n k) x =
    (s.withCtx n).updCtx n fun c => { c with tensors := AMap.set c.tensors k (tensorFields (BitVec.ofNat 512 x)) } := if_pos hk

/-- The fields of a partition record, from the value written (Table 2.7). -/
theorem Partition.ofBits_fields (v : BitVec 512) : (Partition.ofBits v.toNat).failed = false ∧
    (Partition.ofBits v.toNat).valid = v.getLsbD 64 ∧ (Partition.ofBits v.toNat).dmask = v.extractLsb' 0 64 ∧
    (Partition.ofBits v.toNat).cmask = v.extractLsb' 96 32 ∧ (Partition.ofBits v.toNat).home = v.toNat / 2 ^ 90 % 64 :=
  ⟨rfl, rfl, ofNat_bits v rfl, ofNat_bits v rfl, bits_eq_div_mod _ 95 90⟩

/-- A host-link window, from the value written (Table 15.1). -/
def HostWin.ofBits (x : Nat) : HostWin :=
  { limit := Machine.bits x 127 96, base := Machine.bits x 95 64, ctx := Machine.bits x 63 48, tgt := Machine.bits x 11 8
    w := bit x 1, valid := bit x 0 }

theorem hostWindowWrite_taken {s : State} {n : Nat} (h : n < 32) (v : BitVec 128) : exec (.hostWindowWrite n v) s =
    .next (s.updPkg fun p => { p with windows := AMap.set p.windows n (HostWin.ofBits v.toNat) }) :=
  congrArg _ (if_pos h)

theorem HostWin.ofBits_fields (v : BitVec 128) : (HostWin.ofBits v.toNat).valid = v.getLsbD 0 ∧
    (HostWin.ofBits v.toNat).w = v.getLsbD 1 ∧ (HostWin.ofBits v.toNat).tgt = v.toNat / 2 ^ 8 % 16 ∧
    (HostWin.ofBits v.toNat).ctx = v.toNat / 2 ^ 48 % 2 ^ 16 ∧ (HostWin.ofBits v.toNat).base = v.toNat / 2 ^ 64 % 2 ^ 32 ∧
    (HostWin.ofBits v.toNat).limit = v.toNat / 2 ^ 96 := by
  have hlimit : v.toNat / 2 ^ 96 < 2 ^ 32 := by have := v.isLt; omega
  exact ⟨rfl, rfl, bits_eq_div_mod _ 11 8, bits_eq_div_mod _ 63 48, bits_eq_div_mod _ 95 64,
    (bits_eq_div_mod _ 127 96).trans (Nat.mod_eq_of_lt hlimit)⟩

/-- An update of the package on a condition: where it fails, nothing changes. -/
theorem State.updPkg_ite (s : State) (c : Package → Prop) [DecidablePred c] (f : Package → Package) :
    (s.updPkg fun p => if c p then f p else p) = if c s.pkg then s.updPkg f else s := by
  by_cases h : c s.pkg <;> simp [State.updPkg, h]

theorem currentLimitTrip_eq (s : State) (a : Nat) : exec (.currentLimitTrip a) s =
    .next (if s.pkg.ampCeiling < a then s.updPkg fun p => { p with curl := true } else s) :=
  congrArg _ (State.updPkg_ite ..)

theorem currentLimitRelease_eq (s : State) (a : Nat) : exec (.currentLimitRelease a) s =
    .next (if 100 * a < 95 * s.pkg.ampCeiling then s.updPkg fun p => { p with curl := false } else s) :=
  congrArg _ (State.updPkg_ite ..)

/-! ### The obligation -/

/-- Settles O60: each clause is the equation of its step, read through the fields it names. -/
theorem bootSteps : Obligations.BootSteps := by
  unfold Obligations.BootSteps
  refine ⟨fun s => ⟨?rom, ?selfTest, ?mesh, fun hp h0 h1 h2 => powerUp_booted hp h0 h1 h2⟩, fun s => ⟨?bootst, ?pkgpwr⟩,
    fun s ok ver => ⟨?update, ?inRecovery, recoveryImageLoad_in_recovery⟩, fun s hb => ?attestation,
    fun s n v => ⟨?window, ?peer, fun _ => rfl, ?current, fun _ => rfl⟩,
    fun s die d c hd => ⟨?hot, thermalStep_below hd⟩, fun s c n => ⟨?trip, ?noTrip, ?loss, ?lossInAppend⟩,
    fun s r v => ⟨_, rfl, ?partition, ?tensor⟩⟩
  case rom =>
    refine fun h => ⟨fun c hc => ⟨_, powerUp_rom h, ?_⟩, fun hc => ⟨_, powerUp_rom h, ?_⟩⟩
    · rw [State.bootRom_of_refused (s := s.drawn) hc]; simp [State.latched]
    · rw [State.bootRom_of_accepted (s := s.drawn) hc]; simp [State.latched]
  case selfTest =>
    intro hp hb
    refine ⟨s.pkg.demotions (List.range 72), ?_, fun hfull => ?_, fun n hn hc ha hlog => ?_⟩
    · rw [powerUp_selfTest hp hb, State.selfTest_eq]
    · exact Package.demotions_of_full _ _ fun n hn => hfull n (List.mem_range.mp hn)
    · exact Package.exists_mem_demotions _ _ (List.mem_range.mpr hn) hc (by rwa [ha, List.append_nil])
  case mesh =>
    refine fun hp hb => ⟨fun hm => ⟨_, powerUp_mesh hp hb, ?_⟩, fun ms hm hl => ⟨_, powerUp_mesh hp hb, ?_⟩,
      fun ms ls hm hl => ⟨_, powerUp_mesh hp hb, ?_⟩⟩
    · rw [State.bootMesh_of_none (s := s.drawn) hm]; simp [hp]
    · rw [State.bootMesh_of_unlinked (s := s.drawn) hm hl]; simp [hp]
    · obtain ⟨hup, hmap, hdies, hmirrors⟩ := s.drawn.meshStands_facts s.pkg.sites ms ls
      rw [State.bootMesh_of_formed (s := s.drawn) hm hl]
      simp only [State.bootEnds_powered, State.bootEnds_boot, State.bootEnds_bootCause, State.bootEnds_flash,
        State.bootEnds_dies, State.bootEnds_mirrors, State.bootEnds_links]
      exact ⟨hup.trans hp, trivial, trivial, hmap, hdies, hmirrors, State.meshStands_of_same (s := s.drawn),
        State.meshStands_of_changed (s := s.drawn)⟩
  case bootst => rw [← State.readBootst_eq]; exact hostMemoryAccess_register rfl
  case pkgpwr => rw [← State.readPkgpwr_eq]; exact hostMemoryAccess_register rfl
  case update => exact fun hb hr => ⟨_, imageUpdate_taken hb hr, rfl, Flash.refused_withImage ..⟩
  case inRecovery => exact fun h5 hr => congrArg _ (if_pos (.inr ⟨h5, hr⟩))
  case attestation =>
    exact ⟨spdm_answer hb .., spdm_answer hb .., spdm_answer hb .., spdm_answer hb .., spdm_answer hb ..,
      fun n => ⟨_, spdm_answer (s := s.drawn) hb ..⟩, spdm_answer hb ..⟩
  case window =>
    intro hn
    refine ⟨_, hostWindowWrite_taken hn v, rfl, fun k hk => ?_, _, ?_, HostWin.ofBits_fields v⟩
    · exact (AMap.get?_set ..).trans (if_neg hk)
    · exact (AMap.get?_set ..).trans (if_pos rfl)
  case peer => exact fun hn => congrArg _ (if_pos hn)
  case current =>
    refine fun a => ⟨fun ha => ?_, fun ha => ?_, fun ha => ?_⟩
    · rw [currentLimitTrip_eq, if_pos ha]
    · rw [currentLimitTrip_eq, if_neg (by omega)]
    · rw [currentLimitRelease_eq, if_pos ha]
  case hot =>
    intro h105 hf hr hfail hl
    obtain ⟨t, ht, hdie⟩ := thermalStep_taken hd h105 hf (Die.canStep_of hr hfail hl)
    exact ⟨t, _, ht, hdie, rfl, rfl, d.stepTo_ratio s.gtime 8 (by decide), State.therm_of_hot hdie rfl⟩
  case trip => exact fun h => ⟨_, thermalTrip_taken h, s.powerOff_facts⟩
  case noTrip => exact fun h => congrArg _ (if_neg (by omega))
  case loss => exact fun h => ⟨_, powerLoss_idle h, s.powerOff_facts⟩
  case lossInAppend => exact fun e t h => ⟨_, powerLoss_appending h, (s.cutAppend e n).powerOff_facts⟩
  case partition =>
    rintro c k rfl hk hc
    rw [State.writeReg_partition hk]
    exact ⟨_, _, by rw [State.withCtx_of_some hc]; rfl, State.ctx?_updCtx_self hc fun _ ha => ha, rfl,
      (AMap.get?_set ..).trans (if_pos rfl), Partition.ofBits_fields v⟩
  case tensor =>
    rintro c k rfl hk hc
    rw [State.writeReg_tensorEntry hk, BitVec.ofNat_toNat, BitVec.setWidth_eq]
    exact ⟨_, by rw [State.withCtx_of_some hc]; rfl, State.ctx?_updCtx_self hc fun _ ha => ha, rfl⟩

end Sys2Proof.Machine
end

section
/-! PROOFS. Queues: what the completion of an ended launch gives up (spec 14 R379; log 89), and from it the obligation on launch
queues. -/

set_option Elab.async false

namespace Sys2Proof.Machine

/-! ### Commands of an ended launch (R379; log 89) -/

/-- The commands in progress that stay are those whose number no stuck command of the ended launch has: the model gives a command
up by its number alone. -/
theorem State.mem_dropStuck_active {s : State} {l : Nat} {a : Active} : a ∈ (s.dropStuck l).active ↔
    a ∈ s.active ∧ ∀ b ∈ s.active, b.cmd.launch = l → s.cmdStuck b = true → b.cmd.id ≠ a.cmd.id := by
  change a ∈ s.active.filter _ ↔ _
  simp only [List.mem_filter, Bool.not_eq_true', List.contains_eq_mem, decide_eq_false_iff_not, List.mem_map, Bool.and_eq_true,
    beq_iff_eq, not_exists, not_and, and_imp, ne_eq]

/-- A launch without a completion address completes without a write: only its queue's record and the launches change (R34). -/
theorem State.completeWhenReady_of_compl_zero {s : State} {l : Launch} (h : l.compl = 0) (st : Nat) : s.completeWhenReady l st =
    { s with ctxs := (s.completeWhenReady l st).ctxs, launches := s.launches.filter fun x => x.id ≠ l.id } := by
  unfold State.completeWhenReady State.completeLaunch
  simp only [h, if_true]
  rfl

/-- An ended launch completes once its commands that can complete have (R34, R379). -/
theorem launchCompletion_ending {s : State} {l : Launch} {st : Nat} (hl : s.launch? l.id = some l)
    (hr : s.relocking (s.serviceDie l) = false) (hp : l.phase = .ending st) (hc : s.commandsRun l.id false = false) :
    exec (.launchCompletion l.id) s = .next ((s.dropStuck l.id).completeWhenReady l st) := by
  change Host.Outcome.next (match s.launch? l.id with | none => s | some x => _) = _
  rw [hl]
  simp only [hr, hp, hc, Bool.false_eq_true, if_false]

/-- The commands in progress after an ended launch without a completion address has completed. -/
theorem launchCompletion_ending_active {s t : State} {l : Launch} {st : Nat} (hl : s.launch? l.id = some l)
    (hr : s.relocking (s.serviceDie l) = false) (hp : l.phase = .ending st) (hc : s.commandsRun l.id false = false)
    (h0 : l.compl = 0) (ht : exec (.launchCompletion l.id) s = .next t) : t.active = (s.dropStuck l.id).active := by
  rw [launchCompletion_ending hl hr hp hc, Host.Outcome.next.injEq] at ht
  rw [← ht, State.completeWhenReady_of_compl_zero h0]

/-- What the refuted clause lacks is that commands of different launches have different numbers: with that, the completion of an
ended launch keeps every command of the others. -/
theorem launchCompletion_ending_keeps_others {s t : State} {l : Launch} {st : Nat} (hl : s.launch? l.id = some l)
    (hr : s.relocking (s.serviceDie l) = false) (hp : l.phase = .ending st) (hc : s.commandsRun l.id false = false)
    (h0 : l.compl = 0) (ht : exec (.launchCompletion l.id) s = .next t)
    (hids : ∀ a ∈ s.active, ∀ b ∈ s.active, b.cmd.id = a.cmd.id → b.cmd.launch = a.cmd.launch) :
    ∀ a ∈ s.active, a.cmd.launch ≠ l.id → a ∈ t.active := by
  intro a ha hal
  rw [launchCompletion_ending_active hl hr hp hc h0 ht, State.mem_dropStuck_active]
  exact ⟨ha, fun b hb hbl _ hid => hal ((hids a ha b hb hid).symm.trans hbl)⟩

/-! ### The counterexample -/

namespace SharedNumber

/-- A launch that has ended with status 0x82 and has no completion address. -/
def ended : Launch := { id := 1, ctx := 1, queue := 0, seq := 1, lpb := 0, phase := .ending 0x82 }

/-- A flag write with number 5. -/
def flagWrite (launch : Nat) : Cmd := { id := 5, grp := launch, gang := launch, launch := launch, op := 5, ch := 0, kind := .cflag 0 0 }

/-- The ended launch's command, which waits on the failed peer port 0. -/
def stuck : Active := { cmd := flagWrite 1, die := 0, order := 1, ports := [0] }

/-- The command of a running launch, which waits on nothing. -/
def other : Active := { cmd := flagWrite 2, die := 0, order := 2 }

/-- Both launches, and both commands in progress under one number. -/
def state : State :=
  { State.reset with
    launches := [ended, { id := 2, ctx := 1, queue := 1, seq := 1, lpb := 0, phase := .released }]
    active := [stuck, other], pkg := { boot := 3, peers := [0], peersFailed := [0] } }

theorem ended_compl : ended.compl = 0 := by decide +kernel

theorem not_mem_dropStuck : other ∉ (state.dropStuck ended.id).active := fun h =>
  have ⟨_, hother⟩ := State.mem_dropStuck_active.mp h
  hother stuck (by decide) rfl (by decide) rfl

end SharedNumber

/-! ### The obligation -/

open SharedNumber in
/-- Refutes O54, in its clause that the completion of an ended launch keeps the commands of other launches: with a stuck command go
all commands of its number (log 89), and the clause speaks of every state, so also of one in which a running launch's command has
that number. -/
theorem not_queueSteps : ¬ Obligations.QueueSteps := by
  unfold Obligations.QueueSteps
  rintro ⟨-, -, -, hlaunches⟩
  have hl : state.launch? ended.id = some ended := rfl
  have hc : state.commandsRun ended.id false = false := by decide
  have hr : state.relocking (state.serviceDie ended) = false := rfl
  obtain ⟨-, -, -, -, hcompletes, -⟩ := hlaunches state ended hl
  obtain ⟨t, ht, -, -, hkeeps, -⟩ := hcompletes 0x82 (.inr ⟨rfl, hc⟩) ended_compl hr
  have hmem : other ∈ t.active := hkeeps other (by decide) (by decide)
  rw [launchCompletion_ending_active hl hr rfl hc ended_compl ht] at hmem
  exact not_mem_dropStuck hmem

end Sys2Proof.Machine
end

section
/-! PROOFS. Dealing: the equation of each dealing and placement step under its premises (spec 02 R36, R53, R55, R56), and from
them the obligation on dealing and placing. -/

set_option Elab.async false

namespace Sys2Proof.Machine

/-- A launch found under its number, after an update that keeps the number. -/
theorem State.launch?_updLaunch (s : State) (id k : Nat) (f : Launch → Launch) (hf : ∀ x : Launch, x.id = id → (f x).id = id) :
    (s.updLaunch id f).launch? k = if k = id then (s.launch? k).map f else s.launch? k :=
  State.find?_map_id Launch.id s.launches id k f hf

/-! ### Dealing (R36) -/

/-- A die of a running launch asks where its unissued stock is 128 items or fewer. -/
theorem dealRequest_taken {s : State} {x : Launch} {die : Nat} (hx : s.launch? x.id = some x) (hlive : x.live = true)
    (hdeal : x.deal = true) (hcores : x.cores = false) (hdie : x.dies.contains die = true) (hstock : (x.stock die 0).count ≤ 128)
    (hasked : (x.stock die 0).asked = false) (hfinal : (x.stock die 0).final = false) (hpair : s.stalledPair die x.home = false)
    (hrelock : s.relocking die = false) :
    exec (.dealRequest x.id die) s = .next (s.updLaunch x.id fun x =>
      { (x.updStock die 0 fun k => { k with asked := true }) with dealQ := x.dealQ ++ [die] }) := by
  change Host.Outcome.next (match s.launch? x.id with | none => s | some x => _) = _
  rw [hx]
  exact congrArg _ (if_pos (by simp only [hlive, hdeal, hcores, hdie, decide_eq_true hstock, hasked, hfinal, hpair, hrelock, Bool.not_false, Bool.and_self]))

/-- What the home die changes of a launch as it serves the oldest request. -/
def Launch.served (die : Nat) (rest : List Nat) (n : Nat) (x : Launch) : Launch :=
  { x with
    dealQ := rest, supply := x.supply + n
    dealR := AMap.set x.dealR die (if n = 0 then [] else [(x.supply, n)], decide (x.total ≤ x.supply + n)) }

/-- The home serves the oldest request with the next 256 positions, or what is left. -/
theorem dealServe_taken {s : State} {x : Launch} {die : Nat} {rest : List Nat} (hx : s.launch? x.id = some x)
    (hlive : x.live = true) (hq : x.dealQ = die :: rest) (hpair : s.stalledPair die x.home = false)
    (hrelock : s.relocking x.home = false) :
    exec (.dealServe x.id) s = .next (s.updLaunch x.id (Launch.served die rest (min 256 (x.total - x.supply)))) := by
  change Host.Outcome.next (match s.launch? x.id with | none => s | some x => match x.dealQ with | [] => s | die :: rest => _) = _
  rw [hx]
  dsimp only
  rw [hq]
  dsimp only
  rw [if_neg (by simp [hlive, hpair, hrelock])]
  rfl

/-- The die receives the positions dealt to it. -/
theorem dealReply_taken {s : State} {x : Launch} {die : Nat} {rs : List (Nat × Nat)} {fin : Bool} (hx : s.launch? x.id = some x)
    (hr : AMap.get? x.dealR die = some (rs, fin)) (hpair : s.stalledPair x.home die = false) (hrelock : s.relocking die = false) :
    exec (.dealReply x.id die) s = .next (s.updLaunch x.id fun x =>
      let y := (x.updStock die 0 fun k => { k with ranges := k.ranges ++ rs, final := fin, asked := false }).dealtTo die rs
      { y with dealR := AMap.erase y.dealR die }) := by
  change Host.Outcome.next (match s.launch? x.id with
    | none => s | some x => match AMap.get? x.dealR die with | none => s | some (rs, fin) => _) = _
  rw [hx]
  dsimp only
  rw [hr]
  exact congrArg _ (if_neg (by simp [hpair, hrelock]))

/-! ### Placing (R53, R55) -/

/-- A launch with stock that has not placed for 64 heartbeats holds the die. -/
theorem starvationHold_taken {s : State} {x : Launch} {die : Nat} (hx : s.launch? x.id = some x) (hlive : x.live = true)
    (hdie : x.dies.contains die = true) (hstock : ∃ k, k < x.nstage ∧ 0 < s.stockOf x die k)
    (hholds : x.holds.contains die = false) (hstarve : AMap.getD x.starve die 0 + 64 * 2048 ≤ s.gtime) :
    exec (.starvationHold die x.id) s = .next (s.updLaunch x.id fun x => { x with holds := insertNat x.holds die }) := by
  have hany : ((List.range x.nstage).any fun k => decide (0 < s.stockOf x die k)) = true := by simpa using hstock
  change Host.Outcome.next (match s.launch? x.id with | none => s | some x => _) = _
  rw [hx]
  exact congrArg _ (if_pos (by simp only [hlive, hdie, hany, hholds, Bool.not_false, Bool.and_self, decide_eq_true hstarve]))

/-- A placement step restores first, then places the shares of the launch the die holds for, then one new gang. -/
theorem placementStep_eq {s : State} {die : Nat} (hrelock : s.relocking die = false) :
    exec (.placementStep die) s = .next (match s.restoreStep die with
      | some t => t
      | none => match s.heldFor die with
        | some l => (s.placeShares l).getD s
        | none => (s.placeNew die).getD s) :=
  congrArg _ (if_neg (by simp [hrelock]))

/-! ### The obligation -/

/-- Settles O55: each clause is the equation of its step. -/
theorem dealingSteps : Obligations.DealingSteps := by
  unfold Obligations.DealingSteps
  refine ⟨fun s x die hx hlive => ⟨dealRequest_taken hx hlive, fun rest hq hpair hrelock => ?served,
    fun rs fin hr hpair hrelock => dealReply_taken hx hr hpair hrelock, starvationHold_taken hx hlive⟩,
    fun s die hrelock => ⟨fun t hr => ?restored, fun l t hr hl hp => ?shares, fun t hr hl hp => ?new⟩⟩
  case served =>
    refine ⟨_, dealServe_taken hx hlive hq hpair hrelock, rfl, ?_⟩
    refine (State.launch?_updLaunch s x.id x.id (Launch.served _ _ _) fun _ h => h).trans ?_
    rw [if_pos rfl, hx]; rfl
  case restored => rw [placementStep_eq hrelock, hr]
  case shares => simp only [placementStep_eq hrelock, hr, hl, hp, Option.getD_some]
  case new => simp only [placementStep_eq hrelock, hr, hl, hp, Option.getD_some]

end Sys2Proof.Machine
end

section
/-! PROOFS. Power: tokens, gating and clearing, frequency steps and what a relocked die does of package barriers (spec 02 R57-R58,
spec 08 R229-R234, spec 11 R322-R323), and from them the obligation on power steps. -/

set_option Elab.async false

namespace Sys2Proof.Machine

/-! ### Dies -/

/-- A die found under its number, after an update that keeps the number. -/
theorem State.die?_updDie_self {s : State} {die : Nat} {d : Die} (f : Die → Die) (h : s.die? die = some d)
    (hf : ∀ a : Die, (f a).num = a.num) : (s.updDie die f).die? die = some (f d) := by
  rw [State.die?_updDie _ _ _ _ fun a ha => (hf a).trans ha, if_pos rfl, h, Option.map_some]

theorem State.relocking_of {s : State} {die : Nat} {d : Die} (h : s.die? die = some d) : s.relocking die = d.relock.isSome := by
  unfold State.relocking; rw [h]; rfl

/-! ### Inrush tokens (R57) -/

theorem firstWake_mem {l : List (Nat × Nat)} {y : Nat × Nat} (h : firstWake l = some y) : y ∈ l := by
  induction l generalizing y with
  | nil => cases h
  | cons x t ih =>
    unfold firstWake at h
    split at h
    case h_1 => cases h; exact List.mem_cons_self
    case h_2 z hz =>
      cases h
      split_ifs
      · exact List.mem_cons_of_mem _ (ih hz)
      · exact List.mem_cons_self

/-- The request served next is the least: the oldest, and of those the one of the lowest cluster. -/
theorem firstWake_of_least {l : List (Nat × Nat)} {w cl : Nat} (hmem : (w, cl) ∈ l)
    (hleast : ∀ x ∈ l, w < x.1 ∨ w = x.1 ∧ cl ≤ x.2) : firstWake l = some (w, cl) := by
  induction l with
  | nil => cases hmem
  | cons x t ih =>
    obtain ⟨xw, xc⟩ := x
    have hx := hleast _ List.mem_cons_self
    have ht : ∀ y ∈ t, w < y.1 ∨ w = y.1 ∧ cl ≤ y.2 := fun y hy => hleast y (List.mem_cons_of_mem _ hy)
    rw [firstWake]
    cases hf : firstWake t with
    | none =>
      rcases List.mem_cons.mp hmem with heq | htail
      · rw [heq]
      · rw [ih htail ht] at hf; cases hf
    | some y =>
      obtain ⟨yw, yc⟩ := y
      have hy := ht _ (firstWake_mem hf)
      by_cases htail : (w, cl) ∈ t
      · rw [ih htail ht] at hf
        cases hf
        dsimp only at hx ⊢
        split_ifs with hlt
        · rfl
        · have : xw = w ∧ xc = cl := by omega
          simp [this]
      · have heq : (w, cl) = (xw, xc) := (List.mem_cons.mp hmem).resolve_right htail
        cases heq
        dsimp only at hy ⊢
        rw [if_neg (by omega)]

theorem inrushGrant_eq {s : State} {die : Nat} {d : Die} (hd : s.die? die = some d) : exec (.inrushGrant die) s =
    .next (match d.tokens, firstWake d.wakes with
      | k + 1, some (t, cl) =>
        (s.updDie die fun d => { d with tokens := k, wakes := d.wakes.erase (t, cl) }).updCluster die cl fun c =>
          { c with power := .waking }
      | _, _ => s) := by
  change Host.Outcome.next (match s.die? die with | none => s | some d => _) = _
  rw [hd] <;> rfl

/-- Without a free token or a request nothing is granted. -/
theorem inrushGrant_idle {s : State} {die : Nat} {d : Die} (hd : s.die? die = some d) (h : d.tokens = 0 ∨ d.wakes = []) :
    exec (.inrushGrant die) s = .next s := by
  rw [inrushGrant_eq hd]
  rcases h with h | h
  · rw [h]
  · rw [h]; cases d.tokens <;> rfl

/-- A free token goes to the oldest request. -/
theorem inrushGrant_taken {s : State} {die k w cl : Nat} {d : Die} (hd : s.die? die = some d) (ht : d.tokens = k + 1)
    (hw : firstWake d.wakes = some (w, cl)) : exec (.inrushGrant die) s =
      .next ((s.updDie die fun d => { d with tokens := k, wakes := d.wakes.erase (w, cl) }).updCluster die cl fun c =>
        { c with power := .waking }) := by
  rw [inrushGrant_eq hd, ht, hw]

/-! ### Frequency steps and relocking (R322, R323) -/

theorem State.startStep_eq (s : State) (die f : Nat) : s.startStep die f = { s with dies := (s.startStep die f).dies } := rfl

theorem relockEnd_due {s : State} {die t : Nat} {d : Die} (hd : s.die? die = some d) (ht : d.relock = some t) (hle : t ≤ s.gtime) :
    exec (.relockEnd die) s = .next (s.launches.foldl (fun (s : State) x => s.pbarReaches x die)
      (s.updDie die fun d => d.relocked s.gtime t)) := by
  change Host.Outcome.next (match (s.die? die).bind (·.relock) with | some t => _ | none => s) = _
  rw [hd, Option.bind_some, ht]
  exact congrArg _ (if_pos hle)

theorem relockEnd_early {s : State} {die t : Nat} {d : Die} (hd : s.die? die = some d) (ht : d.relock = some t) (hlt : s.gtime < t) :
    exec (.relockEnd die) s = .next s := by
  change Host.Outcome.next (match (s.die? die).bind (·.relock) with | some t => _ | none => s) = _
  rw [hd, Option.bind_some, ht]
  exact congrArg _ (if_neg (by omega))

/-- What reaches a die of a package barrier changes launches and groups alone. -/
theorem State.pbarReaches_eq (s : State) (x : Launch) (die : Nat) : s.pbarReaches x die =
    { s with launches := (s.pbarReaches x die).launches, groups := (s.pbarReaches x die).groups } := by
  unfold State.pbarReaches
  split
  · rfl
  · split_ifs <;> rfl

theorem State.foldl_pbarReaches_eq (die : Nat) (l : List Launch) (s : State) :
    l.foldl (fun (s : State) x => s.pbarReaches x die) s =
      { s with
        launches := (l.foldl (fun (s : State) x => s.pbarReaches x die) s).launches
        groups := (l.foldl (fun (s : State) x => s.pbarReaches x die) s).groups } := by
  induction l generalizing s with
  | nil => rfl
  | cons x t ih => rw [List.foldl_cons, ih, State.pbarReaches_eq]

/-- Of a barrier that is whole and whose release is not on its way to the die, nothing reaches it. -/
theorem State.pbarReaches_idle {s : State} {x : Launch} {die : Nat} (hb : x.brokenBy = none) (hr : die ∉ x.releasing) :
    s.pbarReaches x die = s := by
  unfold State.pbarReaches
  simp [hb, hr]

theorem State.foldl_pbarReaches_idle {die : Nat} {l : List Launch} (s : State)
    (h : ∀ x ∈ l, x.brokenBy = none ∧ die ∉ x.releasing) : l.foldl (fun (s : State) x => s.pbarReaches x die) s = s := by
  induction l with
  | nil => rfl
  | cons x t ih =>
    obtain ⟨hb, hr⟩ := h x List.mem_cons_self
    rw [List.foldl_cons, State.pbarReaches_idle hb hr]
    exact ih fun y hy => h y (List.mem_cons_of_mem _ hy)

/-- A release that comes down an uncut tree takes effect. -/
theorem State.pbarReaches_releasing {s : State} {x : Launch} {die : Nat} (hb : x.brokenBy = none) (hr : die ∈ x.releasing)
    (hcut : s.treeCut 16 die = false) : s.pbarReaches x die =
      (s.updLaunch x.id fun x => { x with releasing := x.releasing.filter (· ≠ die) }).unparkPbar x.id die syncstEpisode := by
  unfold State.pbarReaches
  simp [hb, hr, hcut]

/-- Routes, and with them the tree's cuts, depend on which dies there are and which links broke: an update of a die that keeps its
number changes none. -/
theorem State.cutPair_updDie (s : State) (die : Nat) (f : Die → Die) (hf : ∀ a : Die, (f a).num = a.num) (a b : Nat) :
    (s.updDie die f).cutPair a b = s.cutPair a b := by
  have hsome (n : Nat) : ((s.updDie die f).die? n).isSome = (s.die? n).isSome := by
    rw [State.die?_updDie _ _ _ _ fun a ha => (hf a).trans ha]
    split_ifs <;> simp
  have hedge (row bridge : Nat) : (s.updDie die f).edgeDie row bridge = s.edgeDie row bridge := by
    unfold State.edgeDie; simp only [hsome]
  have hpath : (s.updDie die f).path a b = s.path a b := by
    unfold State.path; simp only [hedge]
  unfold State.cutPair
  rw [hpath]; rfl

theorem State.treeCut_updDie (s : State) (die : Nat) (f : Die → Die) (hf : ∀ a : Die, (f a).num = a.num) (fuel node : Nat) :
    (s.updDie die f).treeCut fuel node = s.treeCut fuel node := by
  induction fuel generalizing node with
  | zero => rfl
  | succ n ih =>
    unfold State.treeCut State.hopCut
    simp only [State.cutPair_updDie s die f hf, ih]

/-! What an unparking leaves of a group. -/

theorem Group.closePark_id (g : Group) (m : Mask) (c : Close) : (g.closePark m c).id = g.id := by
  have hdead := SamePlace.id (samePlace_applyDead { g with frame := none } m c.dead)
  have hupd (g' : Group) : (g'.updEntry m fun e => { e.advance c.words with yielded := e.yielded || c.y }).id = g'.id :=
    SamePlace.id (samePlace_setFront ..)
  exact (SamePlace.id (samePlace_setFront ..)).trans ((hupd _).trans hdead)

theorem Group.releasePbar_id (g : Group) (f : Word → Word) : (g.releasePbar f).id = g.id := by
  have hfold (l : List Entry) (g : Group) :
      (l.foldl (fun g e => match e.park with | some (.pbar c) => g.closePark e.mask c | _ => g) g).id = g.id := by
    induction l generalizing g with
    | nil => rfl
    | cons e t ih =>
      rw [List.foldl_cons, ih]
      split
      · exact Group.closePark_id ..
      · rfl
  unfold Group.releasePbar
  split_ifs
  · rfl
  · exact hfold ..

/-- A group whose mapped count may have fallen differs at most in the surge pool. -/
theorem State.surgeFall_eq (s : State) (g g' : Group) : ∃ b, s.surgeFall g g' = { g' with surge := b } := by
  unfold State.surgeFall State.surgeReturn
  split_ifs
  · exact ⟨false, rfl⟩
  · exact ⟨g'.surge, rfl⟩
  · exact ⟨g'.surge, rfl⟩

theorem State.surgeFall_id (s : State) (g g' : Group) : (s.surgeFall g g').id = g'.id := by
  obtain ⟨b, hb⟩ := s.surgeFall_eq g g'
  rw [hb]

theorem State.group?_unparkPbar {s : State} {l die : Nat} {f : Word → Word} {g : Group} (hg : s.group? g.id = some g) :
    (s.unparkPbar l die f).group? g.id = some (if g.id ∈ (s.launchGroups l die).map (·.id)
      then s.surgeFall g (g.releasePbar f) else g) := by
  have hmap : (s.unparkPbar l die f).group? g.id = (s.group? g.id).map fun g =>
      if ((s.launchGroups l die).map (·.id)).contains g.id then s.surgeFall g (g.releasePbar f) else g := by
    refine List.find?_map.trans (congrArg _ ?_)
    refine congrArg (fun p => List.find? p s.groups) (funext fun x => ?_)
    simp only [Function.comp_apply]
    split_ifs <;> simp only [State.surgeFall_id, Group.releasePbar_id]
  rw [hmap, hg]
  simp only [Option.map_some, List.contains_eq_mem, decide_eq_true_eq]

/-! ### Gating and clearing (R58, R229-R234) -/

theorem clusterGate_idle {s : State} {die cl : Nat} (hp : (s.cluster die cl).power = .awake)
    (hg : ∀ g ∈ s.groups, ¬(g.die = die ∧ g.cluster = cl))
    (hga : ∀ g ∈ s.gangs, ¬(g.die = die ∧ g.cluster = cl ∧ g.saved = none)) (hc : (s.cluster die cl).clearing = [])
    (hb : s.atBanks die cl = []) (hu : s.unitsAt die cl = []) (hr : (s.cluster die cl).running = none)
    (hd : (s.die? die).isSome = true) :
    exec (.clusterGate die cl) s = .next (s.updCluster die cl fun c => { c with power := .gatingDown }) := by
  have hres : s.residents die cl = [] := by simpa [State.residents, List.filter_eq_nil_iff] using hg
  have hgang : s.residentGangs die cl = [] := by
    simpa [State.residentGangs, List.filter_eq_nil_iff, and_assoc] using hga
  exact congrArg _ (if_pos ⟨hp, hres, hgang, hc, hb, hu, hr, hd⟩)

theorem clusterGate_resident {s : State} {die cl : Nat} (h : ∃ g ∈ s.groups, g.die = die ∧ g.cluster = cl) :
    exec (.clusterGate die cl) s = .next s := by
  obtain ⟨g, hg, hdie, hcl⟩ := h
  have hres : g ∈ s.residents die cl := List.mem_filter.mpr ⟨hg, by simp [hdie, hcl]⟩
  refine congrArg _ (if_neg ?_)
  rintro ⟨-, hnil, -⟩
  rw [hnil] at hres; cases hres

theorem rangeClearEnd_eq {s : State} {die cl start n : Nat}
    (h : (s.cluster die cl).clearing.find? (fun r => r.1 == start) = some (start, n)) : exec (.rangeClearEnd die cl start) s =
      .next (if s.rangeWanted die cl start n then s else
        (s.blankRange die cl start n).updCluster die cl fun c => { c with clearing := c.clearing.filter fun r => r.1 ≠ start }) := by
  change Host.Outcome.next (match (s.cluster die cl).clearing.find? fun r => r.1 == start with | none => s | some (st, n) => _) = _
  rw [h]

/-- Memory after a range of it is cleared. -/
theorem Memory.read_clear {m : List Host.Cell} (hm : Memory.wf m = true) (lo hi a : Nat) :
    Memory.read (Memory.clear m lo hi) a = if lo ≤ a ∧ a < hi then 0 else Memory.read m a := by
  refine (Memory.read_filter (fun k => !(decide (lo ≤ k) && decide (k < hi))) hm a).trans ?_
  by_cases h : lo ≤ a ∧ a < hi
  · rw [if_neg (by simp [h.1, h.2]), if_pos h]; rfl
  · rw [if_pos (by simp; omega), if_neg h]

/-- The granules of a range are empty after its clearing, and every other granule is as it was. -/
theorem State.isFull_blankRange (s : State) (die cl start n a : Nat) : (s.blankRange die cl start n).isFull a =
    (s.isFull a && !(decide (storeLoc die cl start / 16 ≤ a / 16) && decide (a / 16 < (storeLoc die cl start + n) / 16))) := by
  unfold State.isFull State.blankRange
  simp only [List.contains_eq_mem, List.mem_filter, Bool.decide_and, Bool.decide_eq_true]

theorem State.blankRange_mem {s : State} (hm : s.memOk = true) (die cl start n : Nat) :
    (s.blankRange die cl start n).memOk = true ∧ ∀ a, Memory.read (s.blankRange die cl start n).mem a =
      if storeLoc die cl start ≤ a ∧ a < storeLoc die cl start + n then 0 else Memory.read s.mem a :=
  ⟨Memory.wf_clear _ _ _ hm, fun a => Memory.read_clear hm _ _ a⟩

theorem State.blankCluster_mem {s : State} (hm : s.memOk = true) (die cl : Nat) :
    (s.blankCluster die cl).memOk = true ∧ ∀ a, Memory.read (s.blankCluster die cl).mem a =
      if storeLoc die cl 0 ≤ a ∧ a < storeLoc die cl 0 + 2 ^ 20 ∨ scaleLoc die cl 0 ≤ a ∧ a < scaleLoc die cl 0 + 2 ^ 16 then 0
      else Memory.read s.mem a := by
  have hstore := Memory.wf_clear s.mem (storeLoc die cl 0) (storeLoc die cl 0 + 2 ^ 20) hm
  refine ⟨Memory.wf_clear _ _ _ hstore, fun a => (Memory.read_clear hstore _ _ a).trans ?_⟩
  simp only [Memory.read_clear hm, or_comm (a := storeLoc die cl 0 ≤ a ∧ _), ite_or]

/-- A die with four of its cache's ways gated: their lines are gone (R234). -/
def Die.waysGated (d : Die) (w : Nat) : Die :=
  { d with waysOff := d.waysOff ||| BitVec.ofNat 4 (2 ^ w), lines := d.lines.filter fun x => x.way / 4 ≠ w }

/-- A die with four of its cache's ways woken (R234). -/
def Die.waysWoken (d : Die) (w : Nat) : Die := { d with waysOff := d.waysOff &&& ~~~(BitVec.ofNat 4 (2 ^ w)) }

theorem dieCacheWayGate_taken {s : State} {die w : Nat} (hw : w < 4) :
    exec (.dieCacheWayGate die w) s = .next (s.updDie die fun d => d.waysGated w) := congrArg _ (if_pos hw)

theorem dieCacheWayWake_taken {s : State} {die w : Nat} (hw : w < 4) :
    exec (.dieCacheWayWake die w) s = .next (s.updDie die fun d => d.waysWoken w) := congrArg _ (if_pos hw)

/-- The bits of the ways that a gating adds. -/
theorem getLsbD_gated (b : BitVec 4) {w k : Nat} (hk : k < 4) :
    (b ||| BitVec.ofNat 4 (2 ^ w)).getLsbD k = (k == w || b.getLsbD k) := by
  simp only [BitVec.getLsbD_or, BitVec.getLsbD_ofNat, hk, decide_true, Bool.true_and, Nat.testBit_two_pow]
  rw [Bool.or_comm, beq_eq_decide, decide_eq_decide.mpr (eq_comm (a := w))]

/-- The bits of the ways that a wake leaves. -/
theorem getLsbD_woken (b : BitVec 4) {w k : Nat} (hk : k < 4) :
    (b &&& ~~~(BitVec.ofNat 4 (2 ^ w))).getLsbD k = (k != w && b.getLsbD k) := by
  simp only [BitVec.getLsbD_and, BitVec.getLsbD_not, BitVec.getLsbD_ofNat, hk, decide_true, Bool.true_and, Nat.testBit_two_pow]
  rw [Bool.and_comm, bne, beq_eq_decide, decide_eq_decide.mpr (eq_comm (a := w))]

/-! ### The obligation -/

/-- Settles O57: each clause is the equation of its step. -/
theorem powerSteps : Obligations.PowerSteps := by
  unfold Obligations.PowerSteps
  refine ⟨fun s die d hd => ⟨?grant, inrushGrant_idle hd, ?step, ?relocked, ?early, fun w hw => ⟨?gateWays, ?wakeWays⟩⟩,
    fun s die cl => ⟨fun h => congrArg _ (if_pos h), clusterGate_idle, clusterGate_resident, fun h => congrArg _ (if_pos h),
      fun q hq hi hon => congrArg _ (if_pos ⟨hq, hi, hon⟩), fun q h => congrArg _ (if_pos h), ?wanted, ?cleared, ?range, ?cluster⟩⟩
  case grant => exact fun k w cl ht hmem hleast => inrushGrant_taken hd ht (firstWake_of_least hmem hleast)
  case step =>
    intro f hf hne hr hfail hl
    have hstep := State.die?_startStep hd hf (Ne.symm hne) (Die.canStep_of hr hfail hl)
    exact ⟨_, _, rfl, s.startStep_eq die f, hstep, by rw [State.relocking_of hstep]; rfl, rfl⟩
  case relocked =>
    intro t ht hle
    have hself := State.die?_updDie_self (fun d => d.relocked s.gtime t) hd fun _ => rfl
    have hdie : (s.launches.foldl (fun (s : State) x => s.pbarReaches x die)
        (s.updDie die fun d => d.relocked s.gtime t)).die? die = some (d.relocked s.gtime t) := by
      rw [State.foldl_pbarReaches_eq]; exact hself
    refine ⟨_, _, relockEnd_due hd ht hle, ?_, hdie, by rw [State.relocking_of hdie]; rfl, fun h => ?_, ?_, rfl⟩
    · rw [State.foldl_pbarReaches_eq]; rfl
    · rw [State.foldl_pbarReaches_idle _ h]; exact ⟨rfl, rfl⟩
    · intro x hx hb hrel hcut
      rw [← State.treeCut_updDie s die (fun d => d.relocked s.gtime t) fun _ => rfl] at hcut
      rw [hx, List.foldl_cons, List.foldl_nil, State.pbarReaches_releasing hb hrel hcut]
      refine ⟨?_, fun g _ hg => ?_⟩
      · change (s.launches.map fun y => if y.id = x.id then _ else y) = _
        rw [hx, List.map_cons, List.map_nil, if_pos rfl]
      · let s1 := (s.updDie die fun d => d.relocked s.gtime t).updLaunch x.id fun x =>
          { x with releasing := x.releasing.filter (· ≠ die) }
        obtain ⟨b, hfall⟩ := s1.surgeFall_eq g (g.releasePbar syncstEpisode)
        refine ⟨b, (g.releasePbar syncstEpisode).surgeWait, ?_⟩
        rw [State.group?_unparkPbar (s := s1) hg, hfall]
        rfl
  case early => exact fun t ht hlt => ⟨s, relockEnd_early hd ht hlt, hd⟩
  case gateWays =>
    refine ⟨_, d.waysGated w, dieCacheWayGate_taken hw, rfl, State.die?_updDie_self _ hd fun _ => rfl, rfl,
      fun k hk => getLsbD_gated _ hk, fun x => ?_⟩
    simp only [Die.waysGated, List.mem_filter, decide_eq_true_eq]
  case wakeWays =>
    exact ⟨_, d.waysWoken w, dieCacheWayWake_taken hw, rfl, State.die?_updDie_self _ hd fun _ => rfl, rfl,
      fun k hk => getLsbD_woken _ hk⟩
  case wanted => exact fun start n h hw => (rangeClearEnd_eq h).trans (congrArg _ (if_pos hw))
  case cleared => exact fun start n h hw => (rangeClearEnd_eq h).trans (congrArg _ (if_neg (by simp [hw])))
  case range =>
    intro hm start n
    obtain ⟨hok, hread⟩ := State.blankRange_mem hm die cl start n
    exact ⟨hok, hread, s.isFull_blankRange die cl start n⟩
  case cluster => exact fun hm => State.blankCluster_mem hm die cl

end Sys2Proof.Machine
end

section
/-! PROOFS. Readiness: when the rise of a group's level changes nothing (spec 05 R90), and from it the obligation on levels, stalls,
unparking, refill and retirement. -/

set_option Elab.async false

namespace Sys2Proof.Machine

/-! ### The rise of a level (R90) -/

/-- What the rise does to a group that it finds. -/
def Group.levelRaised (g : Group) : Group :=
  if 4096 ≤ g.waited ∧ g.level < 7 then { g with level := g.level + 1, waited := g.waited - 4096 } else g

theorem levelRaise_eq (s : State) (k : Nat) : exec (.levelRaise k) s = .next (s.updGroup k Group.levelRaised) := rfl

theorem Group.levelRaised_of_not_due {g : Group} (h : g.waited < 4096 ∨ 7 ≤ g.level) : g.levelRaised = g := if_neg (by omega)

/-- What the refuted clause lacks is that no other group has the group's number: with that, a level that is not due to rise leaves
the state as it is. -/
theorem levelRaise_not_due {s : State} {g : Group} (hids : ∀ x ∈ s.groups, x.id = g.id → x = g)
    (h : g.waited < 4096 ∨ 7 ≤ g.level) : exec (.levelRaise g.id) s = .next s := by
  have hgroups : (s.groups.map fun x => if x.id = g.id then x.levelRaised else x) = s.groups := by
    refine (List.map_congr_left fun x hx => ?_).trans (List.map_id _)
    split_ifs with hid
    · rw [hids x hx hid, Group.levelRaised_of_not_due h]; rfl
    · rfl
  rw [levelRaise_eq]
  exact congrArg _ (congrArg (fun gs => { s with groups := gs }) hgroups)

/-! ### The counterexample -/

namespace SharedLevel

/-- A group that has not waited. -/
def fresh : Group := { id := 7, gang := 1, die := 0, cluster := 0, core := 0 }

/-- Another group under the same number, which was ready and not chosen for 4,096 cycles. -/
def waiting : Group := { fresh with waited := 4096 }

/-- Both groups; the one looked up under their number is the one that has not waited. -/
def state : State := { State.reset with groups := [fresh, waiting] }

end SharedLevel

/-! ### The obligation -/

open SharedLevel in
/-- Refutes O56, in its clause that a group that has not waited 4,096 cycles keeps its level and nothing changes: the step raises
every group of the number it is given, and the clause speaks of every state, so also of one in which a second group has the number and
has waited. -/
theorem not_readinessSteps : ¬ Obligations.ReadinessSteps := by
  unfold Obligations.ReadinessSteps
  rintro ⟨hgroups, -⟩
  have hfound : state.group? fresh.id = some fresh := rfl
  obtain ⟨-, hkeeps, -⟩ := hgroups state fresh hfound
  have hsame : state.updGroup fresh.id Group.levelRaised = state :=
    Host.Outcome.next.inj ((levelRaise_eq state fresh.id).symm.trans (hkeeps (.inl (by decide))))
  have hlevels : (state.updGroup fresh.id Group.levelRaised).groups.map Group.level = [0, 1] := by decide
  rw [hsame] at hlevels
  exact absurd hlevels (by decide)

end Sys2Proof.Machine
end

section
/-! PROOFS. Matrix engine: an mstore that wakes a waiter whose read is lost writes an error log record (spec 07 R191, spec 08 R226,
spec 13 R351, R354, R370), and from it the obligation on the matrix engine, the tile window and binding a freed set. -/

set_option Elab.async false

namespace Sys2Proof.Machine

/-! ### The counterexample -/

namespace RecordedWaiter

/-- A store of tile 0 into a tensor of one FP32 element, the first of the gang's range. -/
def op : MatOp :=
  { stamp := 1, mask := 1, kind := .store 0
    ta := BitVec.ofNat 512 (0xFD000000000000 + 2 ^ 63 + 2 * 2 ^ 64 + 2 ^ 72 + 2 ^ 128 + 2 ^ 160 + 2 ^ 192 + 2 ^ 224 + 32 * 2 ^ 256) }

def group : Group := { id := 3, gang := 2, die := 0, cluster := 0, core := 0, matq := [op] }

def gang : Gang := { id := 2, launch := 1, serial := 1, pdie := 0, ngroups := 1, die := 0, cluster := 0, size := 4096, tset := some 0 }

/-- A lane's `ldfe` that waits at that element's granule, its value bound for a continuation record. -/
def waiter : Access :=
  { id := 9, op := 8, grp := 3, die := 0, lane := 32, kind := .ldfe, va := 0xFD000000000000, loc := 2 ^ 60, size := 8
    dst := .record 4, phase := .waiter }

/-- The engine runs the store, whose only request is performed; the granule it writes met an uncorrectable error, and the error log of
the context is empty and begins at location 0. -/
def state : State :=
  { State.reset with
    groups := [group], gangs := [gang], ctxs := [{ num := 0 }], accs := [waiter], poison := [2 ^ 60]
    clusters := [{ key := 0, power := .awake, running := some (3, op) }]
    reqs := [{ id := 5, owner := .matrix 1, die := 0, loc := 2 ^ 60, write := true, started := true, done := true }] }

/-- The asker of the running operation. -/
def asker : Asker :=
  { owner := .matrix op.stamp, die := 0, cluster := 0, port := 4, ctx := state.groupCtx group, part := state.groupPart group }

/-- The state once the gate of the operation has answered. -/
def gated : State := (state.gate asker (state.matNeed gang (state.groupCtx group) op)).1

theorem gate_open : (state.gate asker (state.matNeed gang (state.groupCtx group) op)).2 = true := by decide +kernel

theorem gate_answers : state.gate asker (state.matNeed gang (state.groupCtx group) op) = (gated, true) := by
  rw [gated, ← gate_open]

/-- The tensor has its first element alone. -/
theorem inside_only_origin : ∀ r < 64, ∀ c < 64,
    Ent.inside op.ta.toNat (descC0 0 + c, descC1 0 + r, 0, 0) = true → r = 0 ∧ c = 0 := by decide +kernel

/-- Where the operation stores the element of a coordinate. -/
def place (r c : Nat) : ELoc :=
  gated.tensorByte gang (state.groupCtx group) op.ta.toNat (descC1 0 + r) (Ent.bitAddr op.ta.toNat (descC0 0 + c, descC1 0 + r, 0, 0) / 8)
    .write

theorem place_origin : place 0 0 = .at (2 ^ 60) 0 := by decide +kernel

theorem place_of_inside {r c : Nat} (hr : r < 64) (hc : c < 64)
    (h : Ent.inside op.ta.toNat (descC0 0 + c, descC1 0 + r, 0, 0) = true) : place r c = .at (2 ^ 60) 0 := by
  obtain ⟨rfl, rfl⟩ := inside_only_origin r hr c hc h
  exact place_origin

/-- The state after a step that goes on. -/
def after : Out → State
  | .next t => t
  | _ => State.reset

/-- The waiter served by the store finds the error, and its record stands at location 0: its cause is 12. -/
theorem recorded : Memory.read (after (exec (.matrixOpComplete 0 0) state)).mem 0 = 12 := by decide +kernel

end RecordedWaiter

/-! ### The obligation -/

open RecordedWaiter in
/-- Refutes O42, in its clause that a store changes no byte beside its elements: the store sets its granules full, a waiter that it
wakes may find an uncorrectable error there, and where the value was bound for a continuation record the loss is logged in memory. -/
theorem not_matrixSteps : ¬ Obligations.MatrixSteps := by
  unfold Obligations.MatrixSteps
  rintro ⟨-, hcomplete, -⟩
  obtain ⟨-, hruns⟩ := hcomplete state 0 0 group gang 0 op
  obtain ⟨-, hdone⟩ := hruns rfl rfl rfl rfl rfl gated
  obtain ⟨-, t, g', ht, -, -, -, -, -, hstore, -⟩ :=
    hdone (by decide) (by decide) rfl rfl (by decide) (by decide) gate_answers
  obtain ⟨hother, -⟩ := hstore 0 0 (by decide) rfl rfl fun r c hr hc hin => ⟨_, _, place_of_inside hr hc hin⟩
  have hread : Memory.read t.mem 0 = Memory.read state.mem 0 := by
    refine hother 0 fun r c loc hgoes => ?_
    obtain ⟨hr, hc, hin, hloc⟩ := hgoes
    have hplace : ELoc.at (2 ^ 60) 0 = .at loc 0 := (place_of_inside hr hc hin).symm.trans hloc
    cases hplace
    exact .inl (by decide)
  have hrecord : Memory.read t.mem 0 = 12 := by
    have h := recorded
    rw [ht] at h
    exact h
  rw [hrecord] at hread
  exact absurd hread (by decide)

end Sys2Proof.Machine
end

section
/-! PROOFS. Failures: partitions declared failed, barriers broken by a failed die, the watchdog and corrected errors (spec 11 R315,
spec 15 R389-R392), and from them the obligation on failures. -/

set_option Elab.async false

namespace Sys2Proof.Machine

/-! ### Folds over lists -/

/-- What every step of a fold keeps, the fold keeps. -/
theorem foldl_keeps {σ α : Type} {P : σ → Prop} {f : σ → α → σ} (h : ∀ s a, P s → P (f s a)) (l : List α) {s : σ} (hs : P s) :
    P (l.foldl f s) := by
  induction l generalizing s with
  | nil => exact hs
  | cons a t ih => exact ih (h s a hs)

/-- What the step of one member establishes, and every step keeps, stands after the fold. -/
theorem foldl_reaches {σ α : Type} {P Q : σ → Prop} {f : σ → α → σ} {a : α} {l : List α} (ha : a ∈ l)
    (hQ : ∀ s b, Q s → Q (f s b)) (hP : ∀ s b, P s → P (f s b)) (hstep : ∀ s, Q s → P (f s a)) {s : σ} (hs : Q s) :
    P (l.foldl f s) := by
  induction l generalizing s with
  | nil => cases ha
  | cons b t ih =>
    rcases List.mem_cons.mp ha with rfl | ht
    · exact foldl_keeps hP t (hstep s hs)
    · exact ih ht (hQ s b hs)

/-- A field that every step of a fold leaves as it is. -/
theorem foldl_field {σ α β : Type} (π : σ → β) {f : σ → α → σ} (h : ∀ s a, π (f s a) = π s) (l : List α) (s : σ) :
    π (l.foldl f s) = π s :=
  foldl_keeps (P := fun t => π t = π s) (fun t a ht => (h t a).trans ht) l rfl

theorem mem_insertNat (l : List Nat) (a : Nat) : a ∈ insertNat l a := by
  induction l with
  | nil => exact List.mem_singleton_self a
  | cons k t ih =>
    unfold insertNat
    split_ifs with heq hlt
    · rw [heq]; exact List.mem_cons_self
    · exact List.mem_cons_self
    · exact List.mem_cons_of_mem _ ih

theorem AMap.mem_of_get? {α : Type} {m : AMap α} {k : Nat} {x : α} (h : AMap.get? m k = some x) : (k, x) ∈ m := by
  induction m with
  | nil => cases h
  | cons c t ih =>
    obtain ⟨a, v⟩ := c
    rw [AMap.get?] at h
    split_ifs at h with heq
    · cases h; rw [heq]; exact List.mem_cons_self
    · exact List.mem_cons_of_mem _ (ih h)

/-! ### Partition records (R390) -/

namespace State

/-- The partition records of a context. -/
def parts? (s : State) (k : Nat) : Option (AMap Partition) := (s.ctx? k).map Context.parts

/-- The partition of a context stands declared failed. -/
def PartFailed (s : State) (k n : Nat) : Prop := ∃ ps, s.parts? k = some ps ∧ (AMap.getD ps n {}).failed = true

theorem PartFailed.ctx {s : State} {k n : Nat} (h : s.PartFailed k n) :
    ∃ c, s.ctx? k = some c ∧ (AMap.getD c.parts n {}).failed = true := by
  obtain ⟨ps, hps, hf⟩ := h
  obtain ⟨c, hc, rfl⟩ := Option.map_eq_some_iff.mp hps
  exact ⟨c, hc, hf⟩

theorem parts?_of_ctxs {s t : State} (h : t.ctxs = s.ctxs) (k : Nat) : t.parts? k = s.parts? k := by
  unfold parts? State.ctx?; rw [h]

theorem parts?_updCtx (s : State) (n k : Nat) (f : Context → Context) (hf : ∀ c : Context, (f c).num = c.num) :
    (s.updCtx n f).parts? k = if k = n then (s.ctx? k).map fun c => (f c).parts else s.parts? k := by
  unfold parts?
  rw [ctx?_updCtx _ _ _ _ fun c hc => (hf c).trans hc]
  split_ifs
  · exact Option.map_map ..
  · rfl

/-- An update of a context's other fields. -/
theorem parts?_updCtx_other (s : State) (n k : Nat) (f : Context → Context) (hf : ∀ c : Context, (f c).num = c.num)
    (hp : ∀ c : Context, (f c).parts = c.parts) : (s.updCtx n f).parts? k = s.parts? k := by
  rw [parts?_updCtx _ _ _ _ hf]
  split_ifs
  · simp only [hp]; rfl
  · rfl

@[simp] theorem forgetSaved_ctxs (s : State) (ga : Gang) (ctx : Nat) : (s.forgetSaved ga ctx).ctxs = s.ctxs := by
  unfold forgetSaved
  split
  · rfl
  · split
    · split_ifs
      · rfl
      · exact wr_ctxs ..
    · rfl

@[simp] theorem releaseSet_ctxs (s : State) (ga : Gang) (ctx : Nat) : (s.releaseSet ga ctx).ctxs = s.ctxs := by
  unfold releaseSet; split
  · rfl
  · exact updCluster_ctxs ..

@[simp] theorem clearSlice_ctxs (s : State) (ga : Gang) : (s.clearSlice ga).ctxs = s.ctxs := by
  unfold clearSlice; split <;> rfl

@[simp] theorem startClear_ctxs (s : State) (ga : Gang) : (s.startClear ga).ctxs = s.ctxs := by
  unfold startClear; split_ifs
  · rfl
  · exact updCluster_ctxs ..

@[simp] theorem preemptDone_ctxs (s : State) (die : Nat) : (s.preemptDone die).ctxs = s.ctxs := by
  unfold preemptDone; split
  · rfl
  · dsimp only; split_ifs <;> rfl

/-- The slot of the pool that a gang leaves. -/
def slotLeft (s : State) (ga : Gang) (ctx : Nat) : State :=
  match ga.slot with
  | some n => s.updCtx ctx fun c => { c with slots := c.slots.filter (· ≠ n) }
  | none => s

theorem parts?_slotLeft (s : State) (ga : Gang) (ctx k : Nat) : (s.slotLeft ga ctx).parts? k = s.parts? k := by
  unfold slotLeft; split
  · exact parts?_updCtx_other _ _ _ _ (fun _ => rfl) fun _ => rfl
  · rfl

/-- A gang that leaves changes of its context the slot of the pool alone. -/
theorem removeGang_ctxs (s : State) (ga : Gang) : (s.removeGang ga).ctxs =
    ((s.forgetSaved ga (((s.launch? ga.launch).map (·.ctx)).getD 0)).slotLeft ga
      (((s.launch? ga.launch).map (·.ctx)).getD 0)).ctxs := by
  unfold removeGang slotLeft
  dsimp only
  split_ifs <;> simp <;> rfl

theorem parts?_removeGang (s : State) (ga : Gang) (k : Nat) : (s.removeGang ga).parts? k = s.parts? k :=
  (parts?_of_ctxs (s.removeGang_ctxs ga) k).trans ((parts?_slotLeft ..).trans (parts?_of_ctxs (forgetSaved_ctxs ..) k))

theorem parts?_endLaunch (s : State) (id st k : Nat) : (s.endLaunch id st).parts? k = s.parts? k := by
  unfold endLaunch
  split
  · rfl
  · split
    · rfl
    · exact foldl_field (fun t : State => t.parts? k) (fun (t : State) (ga : Gang) => t.parts?_removeGang ga k) _ (s.dropInFlight _)

/-- A partition declared failed; no other record changes. -/
theorem parts?_failPartition (s : State) (ctx part k : Nat) : (s.failPartition ctx part).parts? k =
    if k = ctx then (s.parts? k).map fun ps => AMap.set ps part { AMap.getD ps part {} with failed := true } else s.parts? k := by
  let s1 := (s.launches.filter fun l => l.ctx == ctx && l.part == part && l.live).foldl (fun (s : State) l => s.endLaunch l.id 0x80) s
  have h1 : s1.parts? k = s.parts? k := foldl_field (fun t : State => t.parts? k) (fun (t : State) (l : Launch) => t.parts?_endLaunch l.id 0x80 k) _ s
  let f (c : Context) : Context := { c with parts := AMap.set c.parts part { AMap.getD c.parts part {} with failed := true } }
  have hevent : (s.failPartition ctx part).parts? k = (s1.updCtx ctx f).parts? k :=
    parts?_of_ctxs (by unfold failPartition; rw [event_eq]) k
  rw [hevent, parts?_updCtx _ _ _ f fun _ => rfl, ← h1]
  split_ifs
  · unfold parts?; rw [Option.map_map]; rfl
  · rfl

theorem partFailed_failPartition {s : State} {k n : Nat} (h : (s.parts? k).isSome = true) : (s.failPartition k n).PartFailed k n := by
  obtain ⟨ps, hps⟩ := Option.isSome_iff_exists.mp h
  refine ⟨_, by rw [parts?_failPartition, if_pos rfl, hps, Option.map_some], ?_⟩
  rw [AMap.getD_set, if_pos rfl]

theorem PartFailed.failPartition {s : State} {k n : Nat} (h : s.PartFailed k n) (ctx part : Nat) :
    (s.failPartition ctx part).PartFailed k n := by
  obtain ⟨ps, hps, hf⟩ := h
  unfold PartFailed
  rw [parts?_failPartition, hps]
  split_ifs with hk
  · refine ⟨_, rfl, ?_⟩
    rw [AMap.getD_set]
    split_ifs
    · rfl
    · exact hf
  · exact ⟨ps, rfl, hf⟩

theorem parts?_failPartition_isSome {s : State} {k : Nat} (h : (s.parts? k).isSome = true) (ctx part : Nat) :
    ((s.failPartition ctx part).parts? k).isSome = true := by
  rw [parts?_failPartition]
  split_ifs <;> simpa using h

/-- One turn of `failParts`: a partition of a context, tested. -/
def failPart (p : Context → Partition → Bool) (c : Context) (s : State) (x : Nat × Partition) : State :=
  if x.2.valid && !x.2.failed && p c x.2 then s.failPartition c.num x.1 else s

theorem failParts_eq (s : State) (p : Context → Partition → Bool) :
    s.failParts p = s.ctxs.foldl (fun s c => c.parts.foldl (failPart p c) s) s := rfl

theorem PartFailed.failPart {s : State} {k n : Nat} (h : s.PartFailed k n) (p : Context → Partition → Bool) (c : Context)
    (x : Nat × Partition) : (State.failPart p c s x).PartFailed k n := by
  unfold State.failPart
  split_ifs
  · exact h.failPartition ..
  · exact h

theorem parts?_failPart_isSome {s : State} {k : Nat} (h : (s.parts? k).isSome = true) (p : Context → Partition → Bool) (c : Context)
    (x : Nat × Partition) : ((failPart p c s x).parts? k).isSome = true := by
  unfold failPart
  split_ifs
  · exact parts?_failPartition_isSome h ..
  · exact h

/-- Every valid partition that satisfies the test, and is not failed yet, is declared failed. -/
theorem partFailed_failParts {s : State} {p : Context → Partition → Bool} {c : Context} {n : Nat} {x : Partition}
    (hc : s.ctx? c.num = some c) (hx : AMap.get? c.parts n = some x) (hv : x.valid = true) (hf : x.failed = false)
    (hp : p c x = true) : (s.failParts p).PartFailed c.num n := by
  have hdue (t : State) : failPart p c t (n, x) = t.failPartition c.num n := if_pos (by simp [hv, hf, hp])
  have hsome : (s.parts? c.num).isSome = true := by unfold parts?; rw [hc]; rfl
  rw [failParts_eq]
  refine foldl_reaches (P := fun t => t.PartFailed c.num n) (Q := fun t : State => (t.parts? c.num).isSome = true)
    (List.mem_of_find?_eq_some hc) (fun t b ht => ?_) (fun t b ht => ?_) (fun t ht => ?_) hsome
  · exact foldl_keeps (P := fun t : State => (t.parts? c.num).isSome = true) (fun t y ht => parts?_failPart_isSome ht p b y) b.parts ht
  · exact foldl_keeps (P := fun t : State => t.PartFailed c.num n) (fun t y ht => PartFailed.failPart ht p b y) b.parts ht
  · refine foldl_reaches (P := fun t => t.PartFailed c.num n) (Q := fun t : State => (t.parts? c.num).isSome = true)
      (AMap.mem_of_get? hx) (fun t y ht => parts?_failPart_isSome ht p c y) (fun t y ht => ht.failPart p c y) (fun t ht => ?_) ht
    rw [hdue]
    exact partFailed_failPartition ht

/-- Of a partition that is failed already, the launch alone ends. -/
theorem failLaunchPartition_of_failed {s : State} {l : Launch} (h : (s.partOf l).failed = true) :
    s.failLaunchPartition l = s.endLaunch l.id 0x80 := by
  refine if_pos ?_
  unfold partOf at h
  cases hc : s.ctx? l.ctx with
  | none => rw [hc] at h; exact h
  | some c => rw [hc] at h; exact h

/-! ### A die that fails (R315, R389) -/

@[simp] theorem event_accs (s : State) (code a b : Nat) : (s.event code a b).accs = s.accs := by rw [event_eq]
@[simp] theorem event_launches (s : State) (code a b : Nat) : (s.event code a b).launches = s.launches := by rw [event_eq]

end State

/-- A launch whose package barrier is broken by a die (R315): the first die that broke it is the one recorded. -/
def Launch.broken (die : Nat) (x : Launch) : Launch :=
  { x with brokenBy := some (x.brokenBy.getD die), arrived := [], treeAt := [], releasing := [] }

namespace State

/-- The break of a barrier reaches the groups of a die alone. -/
theorem pbarReaches_of_broken {s : State} {x : Launch} {d : Nat} (hx : x.brokenBy = some d) (die : Nat) :
    s.pbarReaches x die = { s with groups := (s.pbarReaches x die).groups } := by
  unfold pbarReaches
  rw [hx]; rfl

/-- A broken barrier: its launch, and then its groups on the dies that run. -/
theorem breakBarrier_def (s : State) (l die : Nat) : s.breakBarrier l die =
    match (s.updLaunch l (Launch.broken die)).launch? l with
    | none => s.updLaunch l (Launch.broken die)
    | some x => (x.dies.filter fun d => d != die && !(s.updLaunch l (Launch.broken die)).relocking d).foldl
        (fun (s : State) d => s.pbarReaches x d) (s.updLaunch l (Launch.broken die)) := rfl

/-- A broken barrier changes its launch and groups alone. -/
theorem breakBarrier_eq (s : State) (l die : Nat) : s.breakBarrier l die =
    { s.updLaunch l (Launch.broken die) with groups := (s.breakBarrier l die).groups } := by
  generalize ht : s.breakBarrier l die = t
  rw [breakBarrier_def] at ht
  split at ht
  case h_1 => rw [← ht]
  case h_2 x hx =>
    rw [launch?_updLaunch _ _ _ (Launch.broken die) fun _ h => h, if_pos rfl] at hx
    obtain ⟨y, -, hy⟩ := Option.map_eq_some_iff.mp hx
    have hbroken : x.brokenBy = some (y.brokenBy.getD die) := by rw [← hy]; rfl
    rw [← ht]
    refine foldl_keeps (P := fun t : State => t = { s.updLaunch l (Launch.broken die) with groups := t.groups }) (fun t b ht => ?_) _ rfl
    rw [pbarReaches_of_broken hbroken, ht]

theorem breakBarrier_dies (s : State) (l die : Nat) : (s.breakBarrier l die).dies = s.dies := by rw [breakBarrier_eq]; rfl
theorem breakBarrier_accs (s : State) (l die : Nat) : (s.breakBarrier l die).accs = s.accs := by rw [breakBarrier_eq]; rfl

theorem launch?_breakBarrier (s : State) (l die k : Nat) : (s.breakBarrier l die).launch? k =
    if k = l then (s.launch? k).map (Launch.broken die) else s.launch? k := by
  rw [breakBarrier_eq]
  exact launch?_updLaunch s l k (Launch.broken die) fun _ h => h

/-- The barrier of a launch is broken, by a die given. -/
def BrokenBy (s : State) (id d : Nat) : Prop := ∃ l, s.launch? id = some l ∧ l.brokenBy = some d

/-- The die that a break of a launch's barrier by `die` leaves recorded. -/
def BreaksTo (s : State) (id die d : Nat) : Prop := ∃ l, s.launch? id = some l ∧ l.brokenBy.getD die = d

theorem BreaksTo.breakBarrier {s : State} {id die d : Nat} (h : s.BreaksTo id die d) (l : Nat) :
    (s.breakBarrier l die).BreaksTo id die d := by
  obtain ⟨x, hx, hd⟩ := h
  unfold BreaksTo
  rw [launch?_breakBarrier, hx]
  split_ifs
  · exact ⟨_, rfl, hd⟩
  · exact ⟨x, rfl, hd⟩

theorem BrokenBy.breakBarrier {s : State} {id die d : Nat} (h : s.BrokenBy id d) (l : Nat) :
    (s.breakBarrier l die).BrokenBy id d := by
  obtain ⟨x, hx, hd⟩ := h
  unfold BrokenBy
  rw [launch?_breakBarrier, hx]
  split_ifs
  · exact ⟨_, rfl, by rw [Launch.broken, hd]; rfl⟩
  · exact ⟨x, rfl, hd⟩

theorem BreaksTo.broken {s : State} {id die d : Nat} (h : s.BreaksTo id die d) : (s.breakBarrier id die).BrokenBy id d := by
  obtain ⟨x, hx, hd⟩ := h
  refine ⟨_, by rw [launch?_breakBarrier, if_pos rfl, hx, Option.map_some], ?_⟩
  rw [Launch.broken, hd]

/-- The tick that closes changes no die, access or launch. -/
theorem closeTick_eq (s : State) : s.closeTick = { s with closed := s.closeTick.closed, ticks := s.closeTick.ticks } := by
  unfold closeTick; split_ifs <;> rfl

/-- Collectives that end by a failed die change their commands and groups alone. -/
theorem failColls_eq (s : State) (die : Nat) : s.failColls die =
    { s with colls := (s.failColls die).colls, groups := (s.failColls die).groups } := by
  unfold failColls
  refine foldl_keeps (P := fun t : State => t = { s with colls := t.colls, groups := t.groups }) (fun t c ht => ?_) _ rfl
  rw [ht]; rfl

/-- A die failed and excluded, before the barriers it takes part in are broken. -/
def excluded (s : State) (die : Nat) : State := ((s.updDie die fun d => { d with failed := true }).stopDie die).closeTick

/-- Launches whose open package barrier a failed die breaks. -/
def brokenLaunches (s : State) (die : Nat) : List Launch :=
  s.launches.filter fun l => l.live && l.dies.contains die && s.barrierOpen l

/-- The first turn of a die's failure. -/
def failedDie (s : State) (die : Nat) : State :=
  ((((s.excluded die).brokenLaunches die).foldl (fun s l => s.breakBarrier l.id die) (s.excluded die)).failColls die).event 2 die 0

theorem failedDie_dies (s : State) (die : Nat) : (s.failedDie die).dies = (s.updDie die fun d => { d with failed := true }).dies := by
  unfold failedDie excluded
  rw [event_dies, failColls_eq, closeTick_eq]
  exact foldl_field State.dies (fun (t : State) (l : Launch) => t.breakBarrier_dies l.id die) _ _

theorem failedDie_die? {s : State} {die : Nat} {d : Die} (hd : s.die? die = some d) :
    (s.failedDie die).die? die = some { d with failed := true } := by
  have h := die?_updDie_self (fun d => { d with failed := true }) hd fun _ => rfl
  unfold State.die? at h ⊢
  rw [failedDie_dies]
  exact h

theorem updPkg_die? (s : State) (f : Package → Package) (k : Nat) : (s.updPkg f).die? k = s.die? k := rfl
theorem updPkg_launch? (s : State) (f : Package → Package) (k : Nat) : (s.updPkg f).launch? k = s.launch? k := rfl

theorem failedDie_accs (s : State) (die : Nat) : (s.failedDie die).accs =
    s.accs.filter fun a => a.die ≠ die ∧ (a.home ≠ die ∨ (s.group? a.grp).isSome) := by
  unfold failedDie excluded
  rw [event_accs, failColls_eq, closeTick_eq]
  exact foldl_field State.accs (fun (t : State) (l : Launch) => t.breakBarrier_accs l.id die) _ _

theorem excluded_launches (s : State) (die : Nat) : (s.excluded die).launches = s.launches := by
  unfold excluded; rw [closeTick_eq]; rfl

/-- The barrier of a running launch that a die has arrived at is broken by the failure of a die that it spans. -/
theorem failedDie_brokenBy {s : State} {die : Nat} {l : Launch} (hl : s.launch? l.id = some l) (hlive : l.live = true)
    (hdie : die ∈ l.dies) (harr : l.arrived ≠ []) : (s.failedDie die).BrokenBy l.id (l.brokenBy.getD die) := by
  have hmem : l ∈ (s.excluded die).brokenLaunches die := by
    refine List.mem_filter.mpr ⟨by rw [excluded_launches]; exact List.mem_of_find?_eq_some hl, ?_⟩
    simp [hlive, hdie, barrierOpen, harr]
  have hto : (s.excluded die).BreaksTo l.id die (l.brokenBy.getD die) :=
    ⟨l, by unfold State.launch?; rw [excluded_launches]; exact hl, rfl⟩
  have hfold := foldl_reaches (P := fun t : State => t.BrokenBy l.id (l.brokenBy.getD die))
    (Q := fun t : State => t.BreaksTo l.id die (l.brokenBy.getD die)) (f := fun s x => s.breakBarrier x.id die) hmem
    (fun t x ht => ht.breakBarrier x.id) (fun t x ht => ht.breakBarrier x.id) (fun t ht => ht.broken) hto
  obtain ⟨l', hl', hb⟩ := hfold
  refine ⟨l', ?_, hb⟩
  unfold failedDie State.launch?
  rw [event_launches, failColls_eq]
  exact hl'

end State

theorem dieFailed_first {s : State} {die : Nat} {d : Die} (hd : s.die? die = some d) (hf : d.failed = false) :
    exec (.dieFailed die) s = .next ((s.failedDie die).updPkg fun p => { p with declaring := insertNat p.declaring die }) := by
  change Host.Outcome.next (match s.die? die with | none => s | some d => _) = _
  rw [hd]
  exact congrArg _ (if_neg (by simp [hf]))

theorem dieFailed_second {s : State} {die : Nat} {d : Die} (hd : s.die? die = some d) (hf : d.failed = true) :
    exec (.dieFailed die) s = .next (if s.pkg.declaring.contains die then
      (s.failParts fun _ p => p.dmask.getLsbD die).updPkg fun p => { p with declaring := p.declaring.filter (· ≠ die) }
      else s) := by
  change Host.Outcome.next (match s.die? die with | none => s | some d => _) = _
  rw [hd]
  exact congrArg _ (if_pos hf)

/-! ### The watchdog (R391, R400) -/

/-- The scan-out of a core. -/
def State.scanoutLog (s : State) (die cl core : Nat) : Scanout :=
  let gs := (s.residents die cl).filter (·.core == core)
  { die := die, cluster := cl, core := core, groups := gs
    counters := gs.map fun g => (g.id, (List.range 4).map (s.counter g.id))
    commands := gs.map fun g => (g.id, (s.cmdStates g).map fun c => (c.1, c.2.code))
    readLanes := gs.map fun g => (g.id, g.ldfeMasks) }

/-- What a scan-out shows does not depend on the stall counts of a cluster. -/
theorem State.scanoutLog_updCluster (s : State) (d c : Nat) (f : Cluster → Cluster) (hkey : ∀ x : Cluster, (f x).key = x.key)
    (hrun : ∀ x : Cluster, (f x).running = x.running) (die cl core : Nat) :
    (s.updCluster d c f).scanoutLog die cl core = s.scanoutLog die cl core := by
  have hcluster (a b : Nat) : ((s.updCluster d c f).cluster a b).running = (s.cluster a b).running := by
    rw [State.cluster_updCluster _ _ _ _ _ _ hkey]
    split_ifs
    · exact hrun _
    · rfl
  unfold State.scanoutLog State.residents State.counter State.cmdStates
  simp only [State.updCluster_groups, State.updCluster_ops, State.updCluster_active, State.updCluster_colls, hcluster]

theorem watchdogScanout_eq {s : State} {die : Nat} {d : Die} (hd : s.die? die = some d) (cl core : Nat) :
    exec (.watchdogScanout die cl core) s =
      let x := AMap.getD (s.cluster die cl).stalls core (0, 0, false)
      let t := s.updCluster die cl fun c => { c with stalls := AMap.set c.stalls core (x.1, x.2.1, true) }
      .next (if d.wdt ≠ 0 ∧ d.wdt.toNat ≤ x.2.1 ∧ x.2.2 = false then
        (t.updPkg fun p => { p with scanouts := p.scanouts ++ [t.scanoutLog die cl core] }).event 4 die (cl * 4 + core) else s) := by
  change Host.Outcome.next (match s.die? die with | none => s | some d => _) = _
  rw [hd]; rfl

theorem State.wdtDue_of_written {s : State} {die h : Nat} {w : BitVec 16} {d : Die} (hd : s.die? die = some d)
    (hw : d.wdtNext = some (w, h)) (now : Nat) : s.wdtDue now die =
      if h < now / 2048 then
        { s.updDie die fun d => { d with wdt := w, wdtNext := none } with
          clusters := s.clusters.map fun (c : Cluster) =>
            if c.key / 32 = die then
              { c with stalls := c.stalls.map fun (x : Nat × Nat × Nat × Bool) => (x.1, x.2.1, 0, x.2.2.2) }
            else c }
      else s := by
  unfold State.wdtDue
  rw [hd, Option.bind_some, hw]; rfl

/-! ### Corrected errors (R392) -/

/-- A page put up for retirement is retired, or about to be. -/
theorem Package.pageGone_retirePage (p : Package) (site offset : Nat) : (p.retirePage site offset).pageGone site offset = true := by
  unfold Package.retirePage
  split_ifs with h
  · exact h
  · simp [Package.append, Package.pageGone, RetEntry.mk']

/-- Corrected errors within the last hour, with one more. -/
def State.recentErrors (s : State) (die page : Nat) : List (Nat × Nat × Nat) :=
  (s.pkg.pageErrors ++ [(die, page, s.gtime)]).filter fun x => decide (s.gtime < x.2.2 + 3600000000000)

/-- Corrected errors of a page among them. -/
def pageCount (l : List (Nat × Nat × Nat)) (die page : Nat) : Nat := (l.filter fun x => x.1 == die && x.2.1 == page).length

/-- The package after an error that retires the page. -/
def State.pageRetired (s : State) (site die page : Nat) : Package :=
  { s.pkg.retirePage site (65536 * page) with
    pageErrors := (s.recentErrors die page).filter fun x => !(x.1 == die && x.2.1 == page) }

theorem correctedErrorRetire_eq {s : State} {die : Nat} {d : Die} (hd : s.die? die = some d) (page : Nat) :
    exec (.correctedErrorRetire die page) s = .next { s with
      pkg := if 16 ≤ pageCount (s.recentErrors die page) die page then s.pageRetired (9 * d.py + d.px) die page
        else { s.pkg with pageErrors := s.recentErrors die page } } := by
  change Host.Outcome.next (match s.die? die with | none => s | some d => _) = _
  rw [hd]; rfl

/-! ### The obligation -/

/-- Settles O59: each clause is the equation of its step, and a fold over the partitions or launches keeps what one of its turns has
established. -/
theorem failureSteps : Obligations.FailureSteps := by
  unfold Obligations.FailureSteps
  refine ⟨fun s px py dir hx hy hdir => ⟨?recorded, ?edge⟩, fun s port hp => congrArg _ (if_neg (by omega)),
    fun s n hn => congrArg _ (if_neg (by omega)), fun s l h => State.failLaunchPartition_of_failed h,
    fun s p c n x hc hx hv hf hp => (State.partFailed_failParts hc hx hv hf hp).ctx,
    fun s die d hd => ⟨fun hf => ?first, fun hf hdecl => ?second, fun hf hdecl => ?settled⟩,
    fun s die cl core d hd => ⟨?quiet, ?scanned⟩, fun s die d v hd => ⟨rfl, fun w h hw => ⟨fun hle => ?notDue, fun hlt => ?due⟩⟩,
    fun s die page d hd => ⟨?few, ?sixteenth⟩⟩
  case recorded =>
    dsimp only [State.updPkg_pkg]
    split_ifs with h
    · exact List.contains_iff_mem.mp h
    · exact List.mem_append_right _ (List.mem_singleton_self _)
  case edge => exact congrArg _ (if_neg (by omega))
  case first =>
    refine ⟨_, { d with failed := true }, dieFailed_first hd hf, ?_, rfl, fun a ha => ?_, mem_insertNat _ _, fun l hl hlive hdie harr => ?_⟩
    · rw [State.updPkg_die?, State.failedDie_die? hd]
    · rw [State.updPkg_accs, State.failedDie_accs] at ha
      exact (of_decide_eq_true (List.mem_filter.mp ha).2).1
    · obtain ⟨l', hl', hb⟩ := State.failedDie_brokenBy hl hlive hdie harr
      exact ⟨l', by rw [State.updPkg_launch?, hl'], hb⟩
  case second =>
    refine ⟨_, (dieFailed_second hd hf).trans (congrArg _ (if_pos (List.contains_iff_mem.mpr hdecl))), ?_, fun c n x hc hx hv hxf hm => ?_⟩
    · simp
    · exact (State.partFailed_failParts (p := fun _ p => p.dmask.getLsbD die) hc hx hv hxf hm).ctx
  case settled => exact (dieFailed_second hd hf).trans (congrArg _ (if_neg (by simpa using hdecl)))
  case quiet =>
    intro h
    rw [watchdogScanout_eq hd]
    refine congrArg _ (if_neg ?_)
    rintro ⟨h0, hle, hs⟩
    rcases h with h | h | h
    · exact h0 h
    · omega
    · rw [h] at hs; cases hs
  case scanned =>
    intro h0 hle hs
    rw [watchdogScanout_eq hd]
    refine congrArg Host.Outcome.next ((if_pos ⟨h0, hle, hs⟩).trans ?_)
    rw [State.scanoutLog_updCluster _ _ _ _ (fun _ => by rfl) fun _ => by rfl]
    rfl
  case notDue =>
    change Host.Outcome.next (s.wdtDue s.gtime die) = _
    rw [State.wdtDue_of_written hd hw, if_neg (by omega)]
  case due =>
    refine ⟨_, _, congrArg Host.Outcome.next ((State.wdtDue_of_written hd hw _).trans (if_pos hlt)), rfl, ?_, rfl, rfl⟩
    exact State.die?_updDie_self (fun d => { d with wdt := w, wdtNext := none }) hd fun _ => rfl
  case few =>
    exact fun hn => (correctedErrorRetire_eq hd page).trans
      (congrArg (fun p => Host.Outcome.next { s with pkg := p }) (if_neg (Nat.not_le.mpr hn)))
  case sixteenth =>
    intro hn
    refine ⟨{ s with pkg := s.pageRetired (9 * d.py + d.px) die page }, (correctedErrorRetire_eq hd page).trans
      (congrArg (fun p => Host.Outcome.next { s with pkg := p }) (if_pos hn)), rfl, Package.pageGone_retirePage .., fun x hx => ?_⟩
    simpa [imp_iff_not_or] using (List.mem_filter.mp hx).2

end Sys2Proof.Machine
end

section
/-! PROOFS. Accesses: packets and their slots, what arrives, replies, and what the host reads and writes (spec 09 R244-R247, spec 12
R334, spec 15 R380-R385), and from them the obligation on the other steps that carry an access. -/

set_option Elab.async false

namespace Sys2Proof.Machine

/-! ### The one member of a list that a test holds of -/

theorem Sole.find? {α : Type} {p : α → Bool} {l : List α} {a : α} (h : Sole p l a) : l.find? p = some a := by
  obtain ⟨hmem, hp, hsole⟩ := h
  cases hf : l.find? p with
  | none => exact absurd hp (List.find?_eq_none.mp hf a hmem)
  | some b => exact congrArg some (hsole b (List.mem_of_find?_eq_some hf) (List.find?_some hf))

/-- An update of the members of one number, where one member alone has it. -/
theorem Sole.map_congr {α : Type} {p : α → Bool} {l : List α} {a : α} (h : Sole p l a) {f g : α → α} (hfg : f a = g a) :
    (l.map fun b => if p b = true then f b else b) = l.map fun b => if p b = true then g b else b := by
  obtain ⟨-, -, hsole⟩ := h
  refine List.map_congr_left fun b hb => ?_
  split_ifs with hp
  · rw [hsole b hb hp, hfg]
  · rfl

/-! ### Bytes written -/

/-- Memory after `n` bytes of a number are written. -/
theorem Memory.read_writeN (n : Nat) {m : List Host.Cell} (hm : Memory.wf m = true) (a v x : Nat) :
    Memory.read (Memory.writeN m a n v) x = if a ≤ x ∧ x < a + n then BitVec.ofNat 8 (v / 256 ^ (x - a)) else Memory.read m x := by
  induction n generalizing m a v with
  | zero => rw [if_neg (by omega)]; rfl
  | succ n ih =>
    rw [Memory.writeN, ih (Memory.wf_write m a _ hm), Memory.read_write _ _ _ _ hm]
    by_cases hxa : x = a
    · subst hxa
      rw [if_neg (by omega), if_pos rfl, if_pos (by omega), Nat.sub_self, Nat.pow_zero, Nat.div_one]
    · by_cases hin : a + 1 ≤ x ∧ x < a + 1 + n
      · have hpow : x - a = x - (a + 1) + 1 := by omega
        rw [if_pos hin, if_pos (by omega), hpow, Nat.pow_succ, Nat.mul_comm, Nat.div_div_eq_div_mul]
      · rw [if_neg hin, if_neg hxa, if_neg (by omega)]

/-! ### Counted operations and resent lanes (R226, R228) -/

theorem countedOpComplete_taken {s : State} {o : CountedOp} (ho : Sole (fun p => p.id == o.id) s.ops o) (hready : o.ready = true)
    (heng : o.engine = false) (hctr : o.ctr ≠ 9) (hpoison : o.poisoned = 0) (hback : ∀ b ∈ s.accs, b.op ≠ o.id) :
    exec (.countedOpComplete o.id) s = .next { s with ops := s.ops.filter fun p => p.id ≠ o.id } := by
  have hret : (s.opReturned o && o.ctr != 9) = true := by
    have hnone : s.accs.any (fun a => a.op == o.id) = false := by simpa using hback
    simp [State.opReturned, hready, heng, hnone, hctr]
  change Host.Outcome.next (match s.ops.find? _ with | some o => _ | none => s) = _
  rw [ho.find?]
  exact congrArg _ ((if_pos hret).trans (if_pos hpoison))

/-! ### Packets (R244-R247) -/

/-- The older of a packet and the best so far. -/
def older (best : Option Packet) (p : Packet) : Option Packet :=
  match best with | none => some p | some b => if p.id < b.id then some p else some b

theorem foldl_older {p : Packet} (ps : List Packet) (best : Option Packet) (hbest : ∀ b, best = some b → b = p ∨ p.id < b.id)
    (hps : ∀ q ∈ ps, q = p ∨ p.id < q.id) (hp : best = some p ∨ p ∈ ps) : ps.foldl older best = some p := by
  induction ps generalizing best with
  | nil => exact hp.resolve_right (by simp)
  | cons q t ih =>
    have hq := hps q List.mem_cons_self
    refine ih (older best q) (fun b hb => ?_) (fun x hx => hps x (List.mem_cons_of_mem _ hx)) ?_
    · cases best with
      | none => cases hb; exact hq
      | some c =>
        unfold older at hb
        dsimp only at hb
        split_ifs at hb <;> cases hb
        · exact hq
        · exact hbest _ rfl
    · rcases hp with rfl | hp
      · left
        unfold older
        dsimp only
        rw [if_neg]
        rcases hq with rfl | hlt <;> omega
      · rcases List.mem_cons.mp hp with rfl | ht
        · left
          cases best with
          | none => rfl
          | some c =>
            unfold older
            dsimp only
            rcases hbest c rfl with rfl | hlt
            · rw [if_neg (by omega)]
            · rw [if_pos hlt]
        · exact .inr ht

theorem oldestPacket_eq_some {ps : List Packet} {p : Packet} (hp : p ∈ ps) (hold : ∀ q ∈ ps, q = p ∨ p.id < q.id) :
    oldestPacket ps = some p :=
  foldl_older ps none (fun _ h => by cases h) hold (.inr hp)

/-- The packet of the slot's owner that a slot picks first. -/
def State.ownPick (s : State) (d : Die) (die ch slot : Nat) : Option Packet :=
  let own := d.slotOwner ch (slot % 64)
  let r := AMap.getD d.shares own {}
  if decide (own < 4) && r.valid then oldestPacket ((s.packets die ch).filter fun p => p.ctx == r.ctx && p.part == r.part) else none

/-- The packet that a slot picks. -/
def State.slotPick (s : State) (d : Die) (die ch slot : Nat) : Option Packet :=
  let own := d.slotOwner ch (slot % 64)
  let r := AMap.getD d.shares own {}
  match s.ownPick d die ch slot with
  | some p => some p
  | none => if (decide (own < 4) && r.valid) && !r.don then none else oldestPacket (s.packets die ch)

theorem channelSlot_eq {s : State} {d : Die} (hd : s.die? d.num = some d) (ch slot : Nat) : exec (.channelSlot d.num ch slot) s =
    .next (match s.slotPick d d.num ch slot with | some p => s.startPacket p | none => s) := by
  have h : exec (.channelSlot d.num ch slot) s =
      .next (match s.slotPick ((s.die? d.num).getD { num := d.num }) d.num ch slot with
        | some p => s.startPacket p | none => s) := rfl
  rw [h, hd, Option.getD_some]

section Slot

variable {s : State} {d : Die} {ch slot : Nat}

/-- Whose packet a slot is for: the share record of its owner, where that is named and valid. -/
abbrev Die.named (d : Die) (ch slot : Nat) : Prop :=
  d.slotOwner ch (slot % 64) < 4 ∧ (AMap.getD d.shares (d.slotOwner ch (slot % 64)) {}).valid = true

/-- A packet of the context and partition that the slot's share record names. -/
abbrev Die.names (d : Die) (ch slot : Nat) (p : Packet) : Prop :=
  p.ctx = (AMap.getD d.shares (d.slotOwner ch (slot % 64)) {}).ctx ∧ p.part = (AMap.getD d.shares (d.slotOwner ch (slot % 64)) {}).part

theorem ownPick_of_open (h : ¬d.named ch slot) (die : Nat) : s.ownPick d die ch slot = none :=
  if_neg (by simpa using h)

theorem ownPick_of_named (h : d.named ch slot) (die : Nat) : s.ownPick d die ch slot =
    oldestPacket ((s.packets die ch).filter fun p => decide (d.names ch slot p)) := by
  refine (if_pos (by simpa using h)).trans ?_
  simp only [Die.names, Bool.decide_and, beq_eq_decide]

theorem ownPick_of_none (h : ∀ q ∈ s.packets d.num ch, ¬d.names ch slot q) : s.ownPick d d.num ch slot = none := by
  by_cases hn : d.named ch slot
  · have hnil : (s.packets d.num ch).filter (fun p => decide (d.names ch slot p)) = [] :=
      List.filter_eq_nil_iff.mpr fun q hq => by simpa using h q hq
    rw [ownPick_of_named hn, hnil]; rfl
  · exact ownPick_of_open hn _

theorem slotPick_of_ownPick_none (hown : s.ownPick d d.num ch slot = none)
    (hshare : ¬d.named ch slot ∨ (AMap.getD d.shares (d.slotOwner ch (slot % 64)) {}).don = true) :
    s.slotPick d d.num ch slot = oldestPacket (s.packets d.num ch) := by
  unfold State.slotPick
  rw [hown]
  refine if_neg ?_
  simp only [Bool.and_eq_true, decide_eq_true_eq, Bool.not_eq_true', not_and, and_imp, Bool.not_eq_false]
  exact fun h4 hv => hshare.resolve_left (not_not.mpr ⟨h4, hv⟩)

/-- A slot that is open, or whose named owner donates it and has no packet, starts the oldest packet of the channel. -/
theorem channelSlot_oldest (hd : s.die? d.num = some d) {p : Packet} (hp : p ∈ s.packets d.num ch)
    (hshare : ¬d.named ch slot ∨ (AMap.getD d.shares (d.slotOwner ch (slot % 64)) {}).don = true ∧
      ∀ q ∈ s.packets d.num ch, ¬d.names ch slot q)
    (hold : ∀ q ∈ s.packets d.num ch, q = p ∨ p.id < q.id) : exec (.channelSlot d.num ch slot) s = .next (s.startPacket p) := by
  have hown : s.ownPick d d.num ch slot = none := by
    rcases hshare with hn | ⟨-, hnone⟩
    · exact ownPick_of_open hn _
    · exact ownPick_of_none hnone
  rw [channelSlot_eq hd, slotPick_of_ownPick_none hown (hshare.imp_right And.left), oldestPacket_eq_some hp hold]

/-- A named slot starts the oldest packet of its context and partition. -/
theorem channelSlot_named (hd : s.die? d.num = some d) {p : Packet} (hp : p ∈ s.packets d.num ch) (hn : d.named ch slot)
    (hmine : d.names ch slot p) (hold : ∀ q ∈ s.packets d.num ch, d.names ch slot q → q = p ∨ p.id < q.id) :
    exec (.channelSlot d.num ch slot) s = .next (s.startPacket p) := by
  have hown : s.ownPick d d.num ch slot = some p := by
    rw [ownPick_of_named hn]
    refine oldestPacket_eq_some (List.mem_filter.mpr ⟨hp, decide_eq_true hmine⟩) fun q hq => ?_
    obtain ⟨hq, hqm⟩ := List.mem_filter.mp hq
    exact hold q hq (of_decide_eq_true hqm)
  have hpick : s.slotPick d d.num ch slot = some p := by
    unfold State.slotPick
    rw [hown]
  rw [channelSlot_eq hd, hpick]

/-- A named slot that is not donated stays empty where its owner has no packet. -/
theorem channelSlot_kept (hd : s.die? d.num = some d) (hn : d.named ch slot)
    (hdon : (AMap.getD d.shares (d.slotOwner ch (slot % 64)) {}).don = false)
    (hnone : ∀ q ∈ s.packets d.num ch, ¬d.names ch slot q) : exec (.channelSlot d.num ch slot) s = .next s := by
  obtain ⟨h4, hv⟩ := hn
  have hpick : s.slotPick d d.num ch slot = none := by
    unfold State.slotPick
    rw [ownPick_of_none hnone]
    exact if_pos (by simp [h4, hv, hdon])
  rw [channelSlot_eq hd, hpick]

end Slot

/-- An access that waits for its packet stands among the packets of its channel. -/
theorem mem_packets_acc {s : State} {a : Access} (ha : a ∈ s.accs) (hs : a.started = false)
    (hw : a.phase = .toHbm ∧ a.tag < noTag ∨ a.phase = .remoteWrite ∧ isDevice a.loc = true ∧ s.freeTag a.home < noTag) :
    { unit := false, id := a.id, kind := a.packet, ctx := a.ctx, part := a.part } ∈ s.packets a.home (hbmChannel a.loc) := by
  have hwaits : s.waitsPacket a = true := by
    rcases hw with ⟨hph, htag⟩ | ⟨hph, hdev, hfree⟩
    · simp [State.waitsPacket, hs, hph, htag]
    · simp [State.waitsPacket, hs, hph, hdev, hfree]
  exact List.mem_append_left _ (List.mem_map.mpr ⟨a, List.mem_filter.mpr ⟨ha, by simp [hwaits]⟩, rfl⟩)

/-- A request of an engine or a unit that waits for its packet stands there too. -/
theorem mem_packets_unit {s : State} {r : UnitReq} (hr : r ∈ s.reqs) (hdev : isDevice r.loc = true) (hs : r.started = false)
    (hd : r.done = false) (hfree : s.freeTag r.home < noTag) (hroute : r.die = r.home ∨ s.stalledPair r.die r.home = false) :
    { unit := true, id := r.id, kind := if r.write then 2 else 0, ctx := r.ctx, part := r.part } ∈ s.packets r.home (hbmChannel r.loc) := by
  have hwaits : s.reqWaits r = true := by
    rcases hroute with hh | hh <;> simp [State.reqWaits, hdev, hs, hd, hfree, hh]
  exact List.mem_append_right _ (List.mem_map.mpr ⟨r, List.mem_filter.mpr ⟨hr, by simp [hwaits]⟩, rfl⟩)

/-- An access that has its tag is marked as started, and nothing else changes. -/
theorem startPacket_acc {s : State} {a : Access} {p : Packet} (hph : a.phase = .toHbm) (hid : ∀ b ∈ s.accs, b.id = a.id → b = a)
    (htag : a.tag < noTag) (hp : p.unit = false) (hpid : p.id = a.id) :
    s.startPacket p = { s with accs := s.accs.map fun b => if b.id = a.id then { b with started := true } else b } := by
  have haccs : (s.accs.map fun b => if b.id = a.id then
      { b with started := true, tag := if b.phase = .remoteWrite ∨ noTag ≤ b.tag then s.freeTag b.home else b.tag } else b) =
      s.accs.map fun b => if b.id = a.id then { b with started := true } else b := by
    refine List.map_congr_left fun b hb => ?_
    split_ifs with hba hc
    · obtain rfl := hid b hb hba
      rcases hc with hc | hc
      · rw [hph] at hc; cases hc
      · omega
    · rfl
    · rfl
  unfold State.startPacket
  rw [hp, hpid, if_neg (by decide)]
  exact congrArg (fun l => { s with accs := l }) haccs

/-- A request takes the lowest free tag of its base die. -/
theorem startPacket_unit {s : State} {r : UnitReq} {p : Packet} (hr : Sole (fun q => q.id == r.id) s.reqs r) (hp : p.unit = true)
    (hpid : p.id = r.id) : s.startPacket p =
      { s with reqs := s.reqs.map fun q => if q.id = r.id then { q with started := true, tag := s.freeTag r.home } else q } := by
  have hreqs := hr.map_congr (f := fun q => { q with started := true, tag := s.freeTag q.home })
    (g := fun q => { q with started := true, tag := s.freeTag r.home }) rfl
  simp only [beq_iff_eq] at hreqs
  unfold State.startPacket
  rw [hp, hpid, if_pos rfl]
  exact congrArg (fun l => { s with reqs := l }) hreqs

/-- A base die has 4,096 tags, and the one that a packet takes is carried by no other. -/
theorem freeTag_spec (s : State) (die : Nat) : s.freeTag die ≤ 4096 ∧ (s.freeTag die < 4096 → s.freeTag die ∉ s.tags die) := by
  unfold State.freeTag
  dsimp only
  cases hf : (List.range (Nat.min noTag ((s.tags die).length + 1))).find? fun t => !(s.tags die).contains t with
  | none => exact ⟨le_refl _, fun h => absurd h (by decide)⟩
  | some t =>
    have hlt := List.mem_range.mp (List.mem_of_find?_eq_some hf)
    have hfree : t ∉ s.tags die := by simpa using List.find?_some hf
    exact ⟨le_trans hlt.le (Nat.min_le_left ..), fun _ => hfree⟩

/-! ### Accesses that act (R244, R334, R380) -/

section Act

variable {s : State} {a : Access}

theorem crossHeld_of_mayAct (h : s.mayAct a) : s.crossHeld a = false := by
  obtain ⟨-, -, hroute⟩ := h
  rcases hroute with hh | ⟨hpair, hclock, hopen⟩
  · simp [State.crossHeld, hh]
  · have hwrite : (a.kind.writes && !s.itemStreamOpen a.die a.home) = false := by
      cases hw : a.kind.writes
      · rfl
      · simp [hopen hw]
    simp [State.crossHeld, hpair, hclock, hwrite]

theorem replGate_of_mayAct (h : s.mayAct a) : s.replGate a = (s, true) := by
  obtain ⟨-, hrepl, -⟩ := h
  unfold State.replGate
  rw [hrepl]

/-- An access that may act does. -/
theorem performAcc_of_mayAct (act : State → Access → State) (h : s.mayAct a) : s.performAcc act a = act (s.arrive a) a := by
  obtain ⟨hfollow, -, -⟩ := id h
  unfold State.performAcc
  rw [hfollow, crossHeld_of_mayAct h, if_neg (by decide), replGate_of_mayAct h]

theorem hbmPacket_acc (ha : Sole (fun b => b.phase == .toHbm && b.home == a.home && b.tag == a.tag && b.started) s.accs a)
    (h : s.mayAct a) : exec (.hbmPacket a.home a.tag) s = .next ((s.arrive a).actAny a) := by
  change Host.Outcome.next (match s.accs.find? _ with | some a => _ | none => _) = _
  rw [ha.find?]
  exact congrArg _ (performAcc_of_mayAct State.actAny h)

/-- The packet of an engine or a unit marks its request as done. -/
theorem hbmPacket_unit {r : UnitReq} (hnone : ∀ b ∈ s.accs, (b.phase == .toHbm && b.home == r.home && b.tag == r.tag && b.started) = false)
    (hr : Sole (fun q => isDevice q.loc && q.home == r.home && q.tag == r.tag && q.started && !q.done) s.reqs r)
    (hfetch : ∀ g pc, r.owner ≠ .fetch g pc) : exec (.hbmPacket r.home r.tag) s =
      .next { s with reqs := s.reqs.map fun q => if q.id = r.id then { q with done := true } else q } := by
  have hacc : (s.accs.find? fun a => a.phase == .toHbm && a.home == r.home && a.tag == r.tag && a.started) = none :=
    List.find?_eq_none.mpr fun b hb => by simp only [hnone b hb]; decide
  change Host.Outcome.next (match s.accs.find? _ with
    | some a => _ | none => match s.reqs.find? _ with | some r => _ | none => s) = _
  rw [hacc]
  dsimp only
  rw [hr.find?]
  refine congrArg _ ?_
  change s.packetDone r = s.unitDone r
  unfold State.packetDone
  split
  case h_1 g pc ho => exact absurd ho (hfetch g pc)
  case h_2 => rfl

theorem hbmReply_taken (ha : Sole (fun b => b.phase == .hbmDone && b.home == a.home && b.tag == a.tag) s.accs a)
    (hbad : a.bad = false) (hhome : a.die = a.home) (hrelock : s.relocking a.home = false) :
    exec (.hbmReply a.home a.tag) s = .next ((s.writeResult a a.result).dropAcc a.id) := by
  change Host.Outcome.next (match s.accs.find? _ with | none => s | some a => _) = _
  rw [ha.find?]
  exact congrArg _ ((if_neg (by simp [hrelock])).trans ((if_pos (by simp [hbad])).trans (if_pos hhome)))

theorem remoteWriteApply_taken (ha : Sole (fun b => b.id == a.id && b.phase == .remoteWrite) s.accs a) (h : s.mayAct a)
    (hquarter : isStoreLoc a.loc = true → s.quarterOn a.loc = true) (hdev : isDevice a.loc = true → a.started = true)
    (hrelock : s.relocking a.home = false) :
    exec (.remoteWriteApply a.id) s = .next ((s.arrive a).actAny { a with home := a.die }) := by
  obtain ⟨hfollow, -, -⟩ := id h
  have hgo : ¬(s.mustFollow a || s.crossHeld a || (isStoreLoc a.loc && !s.quarterOn a.loc) || s.relocking a.home ||
      (isDevice a.loc && !a.started)) = true := by
    simp only [hfollow, crossHeld_of_mayAct h, hrelock, Bool.or_eq_true, Bool.and_eq_true, Bool.not_eq_true', Bool.false_eq_true,
      false_or, or_false]
    rintro (⟨hstore, hoff⟩ | ⟨hdevice, hstarted⟩)
    · rw [hquarter hstore] at hoff; cases hoff
    · rw [hdev hdevice] at hstarted; cases hstarted
  change Host.Outcome.next (match s.accs.find? _ with | some a => _ | none => s) = _
  rw [ha.find?]
  refine congrArg _ ((if_neg hgo).trans ?_)
  rw [replGate_of_mayAct h]

/-- A write of another die with a clock arrives on the item stream and raises the home die's clock. -/
theorem arrive_of_clocked (hhome : a.die ≠ a.home) (hw : a.kind.writes = true) (hseq : 0 < a.seqNo) :
    s.arrive a = (s.itemFlit a.die a.home (AMap.getD a.clock a.die 0) a.data.toNat).raiseClock a.home (AMap.set a.clock a.die a.seqNo) :=
  (if_pos ⟨hw, hhome⟩).trans (if_pos hseq)

theorem remoteReadReply_taken (ha : Sole (fun b => b.id == a.id && b.phase == .remoteReply) s.accs a) (hbad : a.bad = false)
    (hpair : s.stalledPair a.home a.die = false) (hrelock : s.relocking a.die = false) (hheld : s.replyHeld a = false) :
    exec (.remoteReadReply a.id) s = .next (((s.raiseClock a.die a.clock).writeResult a a.result).dropAcc a.id) := by
  change Host.Outcome.next (match s.accs.find? _ with | some a => _ | none => s) = _
  rw [ha.find?]
  exact congrArg _ ((if_neg (by simp [hpair, hrelock, hheld])).trans (if_neg (by simp [hbad])))

theorem hostLinkReply_taken (ha : Sole (fun b => b.id == a.id && b.phase == .toHost) s.accs a) (hfollow : s.mustFollow a = false)
    (hlink : s.linkHeld a.die a.loc 0 = false) (hrelock : s.relocking a.die = false) :
    exec (.hostLinkReply a.id) s = .next (s.actAny { a with home := a.die }) := by
  change Host.Outcome.next (match s.accs.find? _ with | some a => _ | none => s) = _
  rw [ha.find?]
  exact congrArg _ (if_neg (by simp [hfollow, hlink, hrelock]))

/-- A result that is delivered changes groups and continuation records alone. -/
theorem State.writeResult_eq (s : State) (a : Access) (r : AccResult) : s.writeResult a r =
    { s with groups := (s.writeResult a r).groups, conts := (s.writeResult a r).conts } := by
  unfold State.writeResult
  split
  · rfl
  · rfl
  · dsimp only; split_ifs <;> rfl

/-- A peer's acknowledgement delivers the peer's bytes and ends the access. -/
theorem peerAcknowledgement_taken {n : Nat} (ha : Sole (fun b => b.id == a.id) s.accs a) (hph : a.phase = .toPeer n)
    (hlink : s.linkHeld a.die a.loc (n + 1) = false) (hrelock : s.relocking a.die = false) :
    exec (.peerAcknowledgement a.id) s = .next ((s.drawn.writeResult { a with home := a.die }
      { vals := a.dregs.map fun d => (d, a.peerRead s.draw d) }).dropAcc a.id) := by
  change Host.Outcome.next (match s.accs.find? _ with
    | some a => (match a.phase with | .toPeer n => _ | _ => s) | none => s) = _
  rw [ha.find?]
  dsimp only
  rw [hph]
  exact congrArg _ ((if_neg (by simp [hlink, hrelock])).trans (if_pos rfl))

end Act

/-! ### The host (R341, R380-R385) -/

section HostAccess

variable {s : State} {a : HostAccess}

/-- The access is of 1, 2, 4 or 8 bytes and aligned. -/
theorem hostMemoryAccess_eq (hn : a.size ∈ [1, 2, 4, 8]) (hal : a.pa % a.size = 0) : exec (.hostMemoryAccess a) s =
    .next (if a.write then (s.hostWrite a).getD s
      else match s.hostReadLog a, s.hostRead a with
        | some e, _ => s.updPkg fun p => { p with hostLogs := p.hostLogs ++ [e] }
        | none, some x => s.updPkg fun p => { p with hostReads := p.hostReads ++ [BitVec.ofNat 64 x] }
        | none, none => s) := by
  refine congrArg _ (if_neg ?_)
  have hsize : (a.size == 1 || a.size == 2 || a.size == 4 || a.size == 8) = true := by simpa [or_assoc] using hn
  simp [hsize, hal]

theorem hostMemoryAccess_reads {x : Nat} (hn : a.size ∈ [1, 2, 4, 8]) (hal : a.pa % a.size = 0) (hw : a.write = false)
    (hsp : a.space ≠ .eventLog) (hx : s.hostRead a = some x) :
    exec (.hostMemoryAccess a) s = .next { s with pkg := { s.pkg with hostReads := s.pkg.hostReads ++ [BitVec.ofNat 64 x] } } := by
  have hlog : s.hostReadLog a = none := if_neg fun h => hsp h.1
  simp only [hostMemoryAccess_eq hn hal, hw, hlog, hx, Bool.false_eq_true, if_false, State.updPkg]

theorem hostMemoryAccess_readsLog {x : Scanout} (hn : a.size ∈ [1, 2, 4, 8]) (hal : a.pa % a.size = 0) (hw : a.write = false)
    (hsp : a.space = .eventLog) (hb : 3 ≤ s.pkg.boot) (hx : s.pkg.scanouts[a.pa]? = some x) :
    exec (.hostMemoryAccess a) s = .next { s with pkg := { s.pkg with hostLogs := s.pkg.hostLogs ++ [x] } } := by
  have hlog : s.hostReadLog a = some x := (if_pos ⟨hsp, hb⟩).trans hx
  simp only [hostMemoryAccess_eq hn hal, hw, hlog, Bool.false_eq_true, if_false, State.updPkg]

theorem hostMemoryAccess_writes {t : State} (hn : a.size ∈ [1, 2, 4, 8]) (hal : a.pa % a.size = 0) (hw : a.write = true)
    (ht : s.hostWrite a = some t) : exec (.hostMemoryAccess a) s = .next t := by
  rw [hostMemoryAccess_eq hn hal, if_pos hw, ht, Option.getD_some]

end HostAccess

/-- A collapse by the host changes no byte. -/
theorem State.collapseHome_mem (s : State) (pa : Nat) : (s.collapseHome pa).mem = s.mem := by
  unfold State.collapseHome
  dsimp only
  split_ifs <;> rfl

/-- The bits of a window, from its fields (Table 15.1). -/
theorem HostWin.bits_eq (w : HostWin) : w.bits = w.limit % 2 ^ 32 * 2 ^ 96 + w.base % 2 ^ 32 * 2 ^ 64 + w.ctx % 2 ^ 16 * 2 ^ 48 +
    w.tgt % 16 * 2 ^ 8 + (if w.w then 2 else 0) + (if w.valid then 1 else 0) := by
  unfold HostWin.bits b2n
  cases w.w <;> rfl

/-! ### The obligation -/

/-- Settles O39: each clause is the equation of its step, under the test that finds its access, request or packet. -/
theorem accessSteps : Obligations.AccessSteps := by
  unfold Obligations.AccessSteps
  refine fun s a d => ⟨rfl, fun o => countedOpComplete_taken, fun ch slot hd => ⟨?oldest, ?named, channelSlot_kept hd⟩, mem_packets_acc,
    fun r => mem_packets_unit, fun hph hid htag p => startPacket_acc hph hid htag, fun r hr p => startPacket_unit hr, freeTag_spec s,
    hbmPacket_acc, fun r => hbmPacket_unit, hbmReply_taken, fun ha _ => remoteWriteApply_taken ha, arrive_of_clocked,
    remoteReadReply_taken, hostLinkReply_taken, ?peer, ?device, ?other⟩
  case oldest => exact fun p hp hshare hold => channelSlot_oldest hd hp hshare hold
  case named => exact fun p hp hn hmine hold => channelSlot_named hd hp hn hmine hold
  case peer =>
    intro n ha hph hlink hrelock
    refine ⟨_, peerAcknowledgement_taken ha hph hlink hrelock, ?_, fun b => ?_⟩
    · rw [State.writeResult_eq]; rfl
    · rw [State.writeResult_eq]
      change b ∈ s.accs.filter _ ↔ _
      simp only [List.mem_filter, decide_eq_true_eq]
  case device =>
    intro pa n w hhost hpa hn hal hdie hmem
    refine ⟨hostMemoryAccess_reads hn hal rfl (fun h => by cases h) (if_neg ?_), fun hcoll hcopy => ?_⟩
    · rw [hhost, hpa, Option.isNone_eq_false_iff.mpr hdie]; decide
    · have hwrite : s.hostWrite { write := true, pa := pa, size := n, data := w } = some ((s.collapseHome pa).wr pa n w.toNat) := by
        refine if_neg ?_
        simp [hhost, hpa, hcoll, hcopy, Option.isSome_iff_ne_none.mp hdie]
      refine ⟨_, hostMemoryAccess_writes hn hal rfl hwrite, fun x => ?_⟩
      rw [State.collapseHome_mem, Memory.read_writeN n hmem]
      rfl
  case other =>
    refine fun off n hn hal => ⟨fun hoff hboot => ?_, fun w k hw hk hlen => ?_, fun x hb hx => ?_⟩
    · exact hostMemoryAccess_reads hn hal rfl (fun h => by cases h) (if_neg (by dsimp only; omega))
    · refine hostMemoryAccess_reads hn hal rfl (fun h => by cases h) ?_
      have hwin : AMap.getD s.pkg.windows k {} = w := by rw [AMap.getD, hw, Option.getD_some]
      refine (if_pos hk).trans ((if_pos hlen).trans ?_)
      rw [hwin, HostWin.bits_eq]
    · exact hostMemoryAccess_readsLog hn hal rfl rfl hb hx

end Sys2Proof.Machine
end

section
/-! PROOFS. Surge pool: a register form whose D is not mapped completes, traps or waits as the gate of its group says (spec 02 R49,
R54, spec 04 R99), and from it the obligation on the surge pool. -/

set_option Elab.async false

namespace Sys2Proof.Machine

/-! ### Mapped registers (R54, R99) -/

theorem Group.mem_mapped {g : Group} {r : Nat} : r ∈ g.mapped ↔ r < 32 ∧ ∃ c ∈ g.v, c.1 / 32 = r := by
  simp only [Group.mapped, List.mem_filter, List.mem_range, List.any_eq_true, beq_iff_eq]

theorem State.mem_mappedRegs {s : State} {g : Group} {r : Nat} : r ∈ s.mappedRegs g ↔
    r ∈ g.mapped ∨ ∃ a ∈ s.accs, a.grp = g.id ∧ a.dst = .lane ∧ r ∈ a.dregs ∧ r ∉ a.discard := by
  simp only [State.mappedRegs, List.mem_dedup, List.mem_append, List.mem_flatMap, State.pendingAccs, List.mem_filter,
    Bool.and_eq_true, beq_iff_eq, decide_eq_true_eq, Access.newRegs, Bool.not_eq_true', List.contains_eq_mem, decide_eq_false_iff_not,
    and_assoc]

theorem State.nodup_mappedRegs (s : State) (g : Group) : (s.mappedRegs g).Nodup := List.nodup_dedup _

/-- A property of some key of a map with one value set. -/
theorem AMap.exists_key_set {α : Type} (p : Nat → Prop) (m : AMap α) (a : Nat) (x : α) :
    (∃ c ∈ AMap.set m a x, p c.1) ↔ p a ∨ ∃ c ∈ m, p c.1 := by
  induction m with
  | nil => simp [AMap.set]
  | cons c t ih =>
    obtain ⟨j, v⟩ := c
    rw [AMap.set]
    split_ifs with heq hlt
    · subst heq
      simp only [List.exists_mem_cons_iff]
      rw [← or_assoc, or_self]
    · simp only [List.exists_mem_cons_iff]
    · simp only [List.exists_mem_cons_iff, ih]
      rw [← or_assoc, ← or_assoc, or_comm (a := p j)]

/-- A group that maps what another does, and one register more, counts more. -/
theorem State.length_mappedRegs_lt {s : State} {g g' : Group} {d : Nat} (hid : g'.id = g.id) (hsub : ∀ r ∈ g.mapped, r ∈ g'.mapped)
    (hd : d ∉ s.mappedRegs g) (hd' : d ∈ g'.mapped) : (s.mappedRegs g).length < (s.mappedRegs g').length := by
  have hmem : d :: s.mappedRegs g ⊆ s.mappedRegs g' := by
    refine List.cons_subset.mpr ⟨State.mem_mappedRegs.mpr (.inl hd'), fun r hr => ?_⟩
    refine State.mem_mappedRegs.mpr ((State.mem_mappedRegs.mp hr).imp (hsub r) ?_)
    rw [hid]; exact id
  exact (List.subperm_of_subset (List.nodup_cons.mpr ⟨hd, s.nodup_mappedRegs g⟩) hmem).length_le

/-! ### The gate (R54) -/

section Gate

variable {s : State} {g : Group} {d : Nat}

/-- The gate of a write that maps one register more. -/
theorem regGate_unmapped (hh : g.inHandler = false) (hd : d ∉ s.mappedRegs g) : s.regGate g [d] =
    if (s.regLimits g).2 < (s.mappedRegs g).length + 1 then .limit
    else if decide ((s.mappedRegs g).length + 1 ≤ (s.regLimits g).1) || g.surge then .ok g
    else if !s.surgeHeld g && !s.surgeWaited g then .ok { g with surge := true, surgeWait := none }
    else .wait { g with surgeWait := some (g.surgeWait.getD s.next) } := by
  have hn : ([d].filter fun r => !(s.mappedRegs g).contains r).dedup.length + (s.mappedRegs g).length =
      (s.mappedRegs g).length + 1 := by
    rw [List.filter_cons_of_pos (by simpa using hd), List.filter_nil, List.dedup_cons_of_notMem List.not_mem_nil]
    exact Nat.add_comm ..
  refine (if_neg (by simp [hh])).trans ?_
  dsimp only
  rw [hn]
  exact if_neg (by omega)

/-- A sequence that maps no register passes. -/
theorem regGate_nil (s : State) (g : Group) : s.regGate g [] = .ok g := by
  by_cases hh : g.inHandler = true
  · exact if_pos hh
  · exact (if_neg hh).trans (if_pos (Nat.zero_add _))

theorem fitting_of_limit (h : s.regGate g [d] = .limit) : s.fitting g [d] = [] := by
  change (match s.regGate g ([] ++ [d]) with | .limit => [] | _ => [] ++ [d]) = _
  rw [List.nil_append, h]

theorem fitting_of_fits (h : s.regGate g [d] ≠ .limit) : s.fitting g [d] = [d] := by
  change (match s.regGate g ([] ++ [d]) with | .limit => [] | _ => [] ++ [d]) = _
  rw [List.nil_append]
  split
  · contradiction
  · rfl

theorem surgeHeld_iff : s.surgeHeld g = true ↔
    ∃ h, (h ∈ s.groups ∧ h.id ≠ g.id ∧ h.die = g.die ∧ h.cluster = g.cluster ∧ h.core = g.core) ∧ h.surge = true := by
  simp only [State.surgeHeld, List.any_eq_true, Bool.and_eq_true, bne_iff_ne, beq_iff_eq, and_assoc]

theorem surgeWaited_iff : s.surgeWaited g = true ↔
    ∃ h, (h ∈ s.groups ∧ h.id ≠ g.id ∧ h.die = g.die ∧ h.cluster = g.cluster ∧ h.core = g.core) ∧ ∃ x, h.surgeWait = some x ∧
      (x < g.surgeWait.getD s.next ∨ x = g.surgeWait.getD s.next ∧ s.srGroup h < s.srGroup g) := by
  simp only [State.surgeWaited, List.any_eq_true, Bool.and_eq_true, bne_iff_ne, beq_iff_eq, and_assoc]
  refine exists_congr fun h => ?_
  cases h.surgeWait <;> simp

/-- Another group of the core holds the pool, or waits for it ahead of this one. -/
theorem surge_busy_iff : (!s.surgeHeld g && !s.surgeWaited g) = false ↔
    ∃ h, (h ∈ s.groups ∧ h.id ≠ g.id ∧ h.die = g.die ∧ h.cluster = g.cluster ∧ h.core = g.core) ∧
      (h.surge = true ∨ ∃ x, h.surgeWait = some x ∧
        (x < g.surgeWait.getD s.next ∨ x = g.surgeWait.getD s.next ∧ s.srGroup h < s.srGroup g)) := by
  rw [← Bool.not_or, Bool.not_eq_false', Bool.or_eq_true, surgeHeld_iff, surgeWaited_iff, ← exists_or]
  simp only [and_or_left]

end Gate

/-- Without `rep` a register form has one repeat, the form itself. -/
theorem Alu.step_none (o : Alu) (j : Nat) : o.step none j = o := rfl

/-! ### A register form that writes one vector register -/

/-- A register form without repeats at issue, which writes its vector register D in some lane. -/
structure WritesOne (i : Instr) (o : Alu) (s : State) (g : Group) (e : Entry) : Prop where
  form : i.alu = some o
  issue : AtIssue i s g e
  unrepeated : i.head.hints.rep = none
  start : e.repi = 0
  noPred : o.pd = none
  writes : o.nw = false
  lanes : (Iss.mk' s g e i).ex ≠ 0

namespace WritesOne

variable {i : Instr} {o : Alu} {s : State} {g g1 : Group} {e : Entry}

theorem exec_eq (w : WritesOne i o s g e) : exec i s = .next ((Iss.mk' s g e i).runAlu o) := by
  rw [exec_alu w.form, aluSeq, issue_next w.issue]
  refine congrArg _ ((if_neg (by rw [w.issue.unchained]; decide)).trans ?_)
  rw [w.form]

theorem reps (w : WritesOne i o s g e) : i.head.hints.reps = 0 := by
  unfold Hints.reps; rw [w.unrepeated]; rfl

/-- The registers that one of its repeats writes. -/
theorem maps (w : WritesOne i o s g e) (ds : List Nat) :
    (if o.pd.isSome || o.nw || (Iss.mk' s g e i).ex = 0 then [] else ds) = ds := by
  refine if_neg ?_
  simp only [w.noPred, w.writes, decide_eq_false w.lanes, Option.isSome_none, Bool.or_self, Bool.false_eq_true, not_false_iff]

theorem vwrites (w : WritesOne i o s g e) : i.vwrites = [o.d] :=
  vwrites_alu w.form w.unrepeated (by rw [w.noPred]; rfl) w.writes

/-- The lanes of its one repeat are those that execute. -/
theorem execMask_eq (w : WritesOne i o s g e) (hreg : ∀ l, g1.getP l = g.getP l) :
    g1.execMask (Iss.mk' s g e i).i (if 0 = (Iss.mk' s g e i).e.repi then (Iss.mk' s g e i).act else (Iss.mk' s g e i).e.mask) =
      (Iss.mk' s g e i).ex := by
  have hpasses (q : Option Guard) (l : Nat) : g1.passes q l = g.passes q l := by
    cases q <;> simp [Group.passes, Group.getPn, hreg]
  rw [if_pos (Eq.symm w.start : 0 = (Iss.mk' s g e i).e.repi)]
  change g1.execMask i _ = g.execMask i _
  unfold Group.execMask
  simp only [hpasses]
  rfl

/-- Where the gate answers, the one repeat runs in the lanes that execute. -/
theorem runReps_of_ok (w : WritesOne i o s g e) (h : s.regGate g [o.d] = .ok g1) : (Iss.mk' s g e i).runReps o 1 0 g1 false =
    ((Group.runLanes i o (Iss.mk' s g e i).ex.toList g1).1, (Group.runLanes i o (Iss.mk' s g e i).ex.toList g1).2, none) := by
  have hmask := w.execMask_eq (g1 := g1) fun l => by rw [regGate_ok h]; rfl
  have hrep : (Iss.mk' s g e i).i.head.hints.rep = none := w.unrepeated
  rw [Iss.runReps]
  dsimp only
  rw [hmask, hrep, Alu.step_none]
  rw [w.maps, Iss.mk'_s, regGate_again h]
  dsimp only [Iss.runReps]
  rw [Bool.false_or, Iss.mk'_i]

/-- Where the gate meets the limit, no repeat runs. -/
theorem runReps_of_limit (w : WritesOne i o s g e) (h : s.regGate g [o.d] = .limit) :
    (Iss.mk' s g e i).runReps o 1 0 g false = (g, false, some (0, (Iss.mk' s g e i).ex)) := by
  have hmask := w.execMask_eq (g1 := g) fun _ => rfl
  have hrep : (Iss.mk' s g e i).i.head.hints.rep = none := w.unrepeated
  rw [Iss.runReps]
  dsimp only
  rw [hmask, hrep, Alu.step_none]
  rw [w.maps, Iss.mk'_s, h]

/-- The group in which the lanes have run, from what the gate gives. -/
def ran (i : Instr) (o : Alu) (u : Iss) (g1 : Group) : Group := (Group.runLanes i o u.ex.toList g1).1

/-- The form completes where the gate answers. -/
theorem exec_of_ok (w : WritesOne i o s g e) (h : s.regGate g [o.d] = .ok g1) : exec i s =
    .next (if (Group.runLanes i o (Iss.mk' s g e i).ex.toList g1).2 = true
      then ((Iss.mk' s g e i).finish (ran i o (Iss.mk' s g e i) g1)).logGroup g 1 0 0 0 e.pc
      else (Iss.mk' s g e i).finish (ran i o (Iss.mk' s g e i) g1)) := by
  have hfit : s.fitting g [o.d] = [o.d] := fitting_of_fits (by rw [h]; exact RegGate.noConfusion)
  rw [w.exec_eq]
  unfold Iss.runAlu
  simp only [Iss.mk'_i, Iss.mk'_e, Iss.mk'_s, Iss.mk'_g, w.reps, w.start, w.maps, w.vwrites, hfit, h, Nat.zero_add, Nat.sub_zero,
    w.runReps_of_ok h, ran]

/-- The form waits where the gate does. -/
theorem exec_of_wait (w : WritesOne i o s g e) (h : s.regGate g [o.d] = .wait g1) :
    exec i s = .next (s.updGroup g1.id fun _ => g1) := by
  have hfit : s.fitting g [o.d] = [o.d] := fitting_of_fits (by rw [h]; exact RegGate.noConfusion)
  rw [w.exec_eq]
  unfold Iss.runAlu
  simp only [Iss.mk'_i, Iss.mk'_s, Iss.mk'_g, w.maps, w.vwrites, hfit, h]

/-- The form traps where the gate meets the limit. -/
theorem exec_of_limit (w : WritesOne i o s g e) (h : s.regGate g [o.d] = .limit) :
    exec i s = .next (((Iss.mk' s g e i).atRepeat 0).trapAfter g { cls := 5, tmask := (Iss.mk' s g e i).ex }) := by
  rw [w.exec_eq]
  unfold Iss.runAlu
  simp only [Iss.mk'_i, Iss.mk'_e, Iss.mk'_s, Iss.mk'_g, w.reps, w.start, w.maps, w.vwrites, fitting_of_limit h, regGate_nil,
    Nat.zero_add, Nat.sub_zero, w.runReps_of_limit h, Bool.false_eq_true, if_false]

end WritesOne

/-! ### Completing (R126) -/

/-- Flags raised in lanes depend on the modes, the frame and the flags of the group alone. -/
theorem foldl_raise_fpflags_congr (fl : Nat → Nat) (ls : List Nat) {g g' : Group} (hm : g'.fpmode = g.fpmode)
    (hh : g'.inHandler = g.inHandler) (hf : g'.fpflags = g.fpflags) :
    (ls.foldl (fun g l => g.raise (fl l)) g').fpflags = (ls.foldl (fun g l => g.raise (fl l)) g).fpflags := by
  induction ls generalizing g g' with
  | nil => exact hf
  | cons l ls ih =>
    exact ih (by rw [Group.fpmode_raise, Group.fpmode_raise, hm]) (by rw [Group.inHandler_raise, Group.inHandler_raise, hh])
      (Group.raise_fpflags_congr _ hm hh hf)

/-- Running the lanes from what the gate gives keeps the group's place. -/
theorem WritesOne.ran_samePlace {i : Instr} {o : Alu} {s : State} {g g1 : Group} {e : Entry} (w : WritesOne i o s g e)
    (h : s.regGate g [o.d] = .ok g1) : SamePlace g (ran i o (Iss.mk' s g e i) g1) := by
  have place1 : SamePlace g g1 := by rw [regGate_ok h]; rfl
  obtain ⟨g2, hrun, place2, -⟩ := Group.runLanes_spec i o (alu_pd w.form) (Iss.mk' s g e i).ex.toList g1 (Mask.nodup_toList _)
    fun k hk => Mask.has_lt (Mask.mem_toList.mp hk)
  rw [ran, hrun]
  exact Group.SamePlace.trans place1 place2

/-- A form of which the gate grants the register writes its lanes. -/
theorem WritesOne.writesLanes {i : Instr} {o : Alu} {s : State} {g g1 : Group} {e : Entry} (w : WritesOne i o s g e) (ho : Only g e)
    (hd : OrderedIfDead i g) (h : s.regGate g [o.d] = .ok g1) : WritesLanes i o s g e (laneResult i o g) := by
  have hg1 := regGate_ok h
  have place1 : SamePlace g g1 := by rw [hg1]; rfl
  have front1 : g1.front = g.front := by rw [hg1]; rfl
  have hop (l : Nat) : i.lane (g1.laneOp i o l []) = laneResult i o g l := by rw [hg1]; rfl
  have getV1 (r l : Nat) : g1.getV r l = g.getV r l := by rw [hg1]; rfl
  have getPn1 (n l : Nat) : g1.getPn n l = g.getPn n l := by rw [hg1]; rfl
  obtain ⟨g2, hrun, place2, front2, ord2, hv, hp, hs, hf⟩ := Group.runLanes_spec i o (alu_pd w.form) (Iss.mk' s g e i).ex.toList g1
    (Mask.nodup_toList _) fun k hk => Mask.has_lt (Mask.mem_toList.mp hk)
  have front : g2.front = g.front := front2.trans front1
  have place : SamePlace g g2 := Group.SamePlace.trans place1 place2
  obtain ⟨g', hg', only, closed, past⟩ := (Iss.mk' s g e i).finish_past g2 (by simp [w.issue.here]) (Group.SamePlace.id place)
    (front.symm ▸ select_mem w.issue.entry) (by intro x hx; exact ho x (front ▸ hx))
  have listed : (Iss.mk' s g e i).deads = [] ∨ g2.ordered = true := by
    refine hd.imp (fun hn => ?_) fun hord => ord2 (by rw [hg1]; exact hord)
    rw [Iss.deads_mk', hn]; rfl
  refine ⟨_, g', ?_, hg', only, Group.SamePlace.trans place closed.place, past, ?_, ?_, ?_, ?_⟩
  · rw [w.exec_of_ok h, WritesOne.ran, hrun]
    simp only [hop]
  · intro r l hl
    simp only [closed.getV r l hl listed, hv r l hl, hop, getV1, Mask.mem_toList, Alu.written]
    cases (Iss.mk' s g e i).ex.has l <;> cases (laneResult i o g l).noVal <;> cases o.nw <;> simp
  · intro n l hl
    have getPn' : g'.getPn n l = g2.getPn n l := by simp only [Group.getPn, closed.getP]
    simp only [getPn', hp, hop, getPn1, Mask.mem_toList]
  · intro n
    rw [closed.getS, hs, hg1]; rfl
  · rw [closed.flags, hf]
    simp only [hop]
    exact foldl_raise_fpflags_congr _ _ (by rw [hg1]) (by rw [hg1]; rfl) (by rw [hg1])
theorem Mask.toList_ne_nil {m : Mask} (h : m ≠ 0) : m.toList ≠ [] := by
  refine fun hnil => h (BitVec.eq_of_getLsbD_eq fun l hl => ?_)
  have hnot : l ∉ m.toList := by rw [hnil]; exact List.not_mem_nil
  rw [Mask.mem_toList, Bool.not_eq_true] at hnot
  exact hnot.trans (BitVec.getLsbD_zero ..).symm

/-! ### The form gives a value in every lane -/

theorem laneDot_noVal (x : LaneOp) : (laneDot x).noVal = false := by
  unfold laneDot
  split <;> rfl

theorem laneCvt_noVal (st : Nat) (rtz : Bool) (x : LaneOp) : (laneCvt st rtz x).noVal = false := by
  unfold laneCvt
  dsimp only
  split <;> rfl

/-- A register form with a vector destination gives its lane a value. -/
theorem lane_noVal {i : Instr} {o : Alu} (h : i.alu = some o) (hp : o.pd = none) (hw : o.nw = false) (x : LaneOp) :
    (i.lane x).noVal = false := by
  cases i <;> cases h
  case nop.refl => cases hw
  case cmp.refl | cmpI.refl | fcmp.refl | fclass.refl => cases hp
  case cvt.refl h f => exact laneCvt_noVal ..
  case dot2.refl | dot4.refl | dot8.refl => exact laneDot_noVal x
  all_goals rfl

/-! ### Registers that the lanes of a form map -/

namespace Group

/-- A lane's value goes to the group's registers, outside handler mode. -/
theorem laneWrite_vector {g : Group} {o : Alu} {r : LaneOut} (hh : g.inHandler = false) (hp : o.pd = none) (hw : o.nw = false)
    (hr : r.noVal = false) (l : Nat) : g.laneWrite o l r = { g with v := AMap.set g.v (32 * o.d + l) r.val }.raise r.fl := by
  have hf : g.frame = none := Option.not_isSome_iff_eq_none.mp (by rw [← Group.inHandler, hh]; decide)
  simp only [laneWrite, hr, hw, hp, Bool.or_self, Bool.false_eq_true, if_false, setV, hf]

theorem raise_surges (g : Group) (fl : Nat) : (g.raise fl).v = g.v ∧ (g.raise fl).surge = g.surge ∧
    (g.raise fl).surgeWait = g.surgeWait := by
  unfold raise; split <;> exact ⟨rfl, rfl, rfl⟩

/-- Lanes that a form writes keep the mapped registers and what the group has of the surge pool; the first of them maps D. -/
theorem runLanes_mapped {i : Instr} {o : Alu} (hi : i.alu = some o) (hp : o.pd = none) (hw : o.nw = false) (hd : o.d < 32)
    (ls : List Nat) (g : Group) (hh : g.inHandler = false) (hl : ∀ l ∈ ls, l < 32) :
    (∀ r, r ∈ g.mapped ∨ (r = o.d ∧ ls ≠ []) → r ∈ (runLanes i o ls g).1.mapped) ∧
      (runLanes i o ls g).1.surge = g.surge ∧ (runLanes i o ls g).1.surgeWait = g.surgeWait := by
  induction ls generalizing g with
  | nil => exact ⟨fun r hr => hr.elim (fun h => h) fun h => absurd rfl h.2, rfl, rfl⟩
  | cons l ls ih =>
    have hwrite := laneWrite_vector hh hp hw (lane_noVal hi hp hw (g.laneOp i o l [])) l
    obtain ⟨hv, hs, hsw⟩ := raise_surges { g with v := AMap.set g.v (32 * o.d + l) (i.lane (g.laneOp i o l [])).val }
      (i.lane (g.laneOp i o l [])).fl
    rw [← hwrite] at hv hs hsw
    obtain ⟨hm, hsurge, hwait⟩ := ih (g.laneWrite o l (i.lane (g.laneOp i o l []))) (by rw [inHandler_laneWrite, hh])
      fun k hk => hl k (List.mem_cons_of_mem _ hk)
    refine ⟨fun r hr => hm r (.inl ?_), hsurge.trans hs, hwait.trans hsw⟩
    have hlane : (32 * o.d + l) / 32 = o.d := by have := hl l (List.mem_cons_self ..); omega
    rw [mem_mapped, hv, AMap.exists_key_set (fun k => k / 32 = r), hlane]
    rcases hr with hr | ⟨rfl, -⟩
    · exact (mem_mapped.mp hr).imp (fun h => h) .inr
    · exact ⟨hd, .inl rfl⟩

end Group

/-! ### Completing without a dead hint keeps the pool -/

theorem surgeReturn_of_lt {s : State} {g : Group} (h : (s.regLimits g).1 < (s.mappedRegs g).length) : s.surgeReturn g = g := by
  refine if_neg ?_
  rw [decide_eq_false (by omega), Bool.and_false]
  exact Bool.false_ne_true

theorem setFront_surges (g : Group) (es : List Entry) : (g.setFront es).surge = g.surge ∧ (g.setFront es).surgeWait = g.surgeWait ∧
    (g.setFront es).v = g.v := by
  unfold Group.setFront; split <;> exact ⟨rfl, rfl, rfl⟩

namespace Iss

variable {u : Iss} {g : Group}

theorem started_surges (u : Iss) (g : Group) : (u.started g).surge = g.surge ∧ (u.started g).surgeWait = g.surgeWait ∧
    (u.started g).mapped = g.mapped := by
  obtain ⟨h1, h2, h3⟩ := setFront_surges g (g.front.map fun e => { e with yielded := false })
  exact ⟨h1, h2, by unfold Group.mapped started; simp only [h3]⟩

theorem started_inHandler (u : Iss) (g : Group) : (u.started g).inHandler = g.inHandler := by
  unfold started Group.inHandler Group.setFront
  cases g.frame <;> rfl

/-- A sequence that frees no register, of a group whose count stays above its steady reservation, keeps what the group has of the pool. -/
theorem close_surges (h : (u.s.regLimits (u.started g)).1 < (u.s.mappedRegs (u.started g)).length) (y : Bool) (stall : Nat) :
    (u.close g [] y stall).surge = g.surge ∧ (u.close g [] y stall).surgeWait = g.surgeWait := by
  obtain ⟨h1, h2, -⟩ := started_surges u g
  have hr : u.s.surgeReturn ((u.started g).applyDead u.e.mask []) = u.started g := surgeReturn_of_lt h
  unfold close
  dsimp only
  rw [hr]
  cases y with
  | false => exact ⟨h1, h2⟩
  | true => exact ⟨(setFront_surges _ _).1.trans h1, (setFront_surges _ _).2.1.trans h2⟩

theorem finish_surges (hd : u.deads = []) (hid : g.id = u.g.id) (hg : (u.s.group? u.g.id).isSome = true)
    (h : (u.s.regLimits (u.started g)).1 < (u.s.mappedRegs (u.started g)).length) :
    ∃ g', (u.finish g).group? u.g.id = some g' ∧ g'.surge = g.surge ∧ g'.surgeWait = g.surgeWait := by
  have hdis : u.s.discard u.g u.e.mask [] = u.s := if_pos rfl
  obtain ⟨h1, h2⟩ := close_surges h u.y u.stall
  have hclose := close_closed u g [] u.y u.stall
  unfold finish finishWith finishAs
  rw [hd]
  dsimp only
  rw [hdis]
  exact ⟨_, put_group u _ hg ((Group.SamePlace.id (closed_setFront hclose _).place).trans hid), (setFront_surges _ _).1.trans h1,
    (setFront_surges _ _).2.1.trans h2⟩

end Iss
/-! ### Trapping at the peak (R54, R344) -/

theorem State.group?_congr {s t : State} (h : t.groups = s.groups) (k : Nat) : t.group? k = s.group? k := by
  rw [State.group?, State.group?, h]

theorem State.event_groups (s : State) (code a b : Nat) : (s.event code a b).groups = s.groups := by rw [State.event_eq]

theorem State.logRecord_groups (s : State) (ctx v : Nat) : (s.logRecord ctx v).groups = s.groups := by
  unfold State.logRecord
  split
  · rfl
  · split
    · exact State.updCtx_groups ..
    · exact (State.updCtx_groups ..).trans (State.wr_groups ..)

theorem State.logGroup_groups (s : State) (g : Group) (cause detail info addr pc : Nat) :
    (s.logGroup g cause detail info addr pc).groups = s.groups := State.logRecord_groups ..

/-- Appending to the supervisor ring changes of the groups at most where the one stops (R352). -/
theorem State.group?_supAppend {s : State} {g x : Group} {k : Nat} (t : TrapRec) (hk : g.id = k) (h : s.group? k = some x) :
    ∃ st, (s.supAppend g t).group? k = some { x with stop := st } := by
  subst hk
  have same : ∃ st, s.group? g.id = some { x with stop := st } := ⟨x.stop, h⟩
  unfold State.supAppend
  dsimp only
  split
  · exact same
  · split
    · exact same
    · refine ⟨.waitSupervisor true, ?_⟩
      rw [State.group?_updGroup, if_pos rfl, State.group?_congr ((State.event_groups ..).trans ((State.updCtx_groups ..).trans
        (State.wr_groups ..))), h]
      · rfl
      · exact fun _ hid => hid

theorem State.group?_put {s : State} {k : Nat} {g : Group} (hid : g.id = k) (h : (s.group? k).isSome = true) :
    (s.updGroup k fun _ => g).group? k = some g := by
  obtain ⟨x, hx⟩ := Option.isSome_iff_exists.mp h
  rw [State.group?_updGroup _ _ _ _ fun _ _ => hid, if_pos rfl, hx]
  rfl

/-- The group that a trap at entry `e` leaves: its record, where it stops, and the restart mask in the entry (R344). -/
def Group.trapTaken (g : Group) (e : Entry) (t : TrapRec) (st : Stop) : Group :=
  { (g.tried.updEntry e.mask fun x => { x with restart := some t.lmask, mid := false, repi := e.repi }) with
    trap := some t, stop := st }

section Trapped

variable (g : Group) (e : Entry) (t : TrapRec) (st : Stop)

theorem Group.trapTaken_id : (g.trapTaken e t st).id = g.id :=
  (Group.SamePlace.id (Group.samePlace_setFront g.tried _) : (g.tried.setFront _).id = g.tried.id)

theorem Group.trapTaken_getV (r l : Nat) : (g.trapTaken e t st).getV r l = g.getV r l := Iss.setFront_getV g.tried _ r l

theorem Group.trapTaken_getP (l : Nat) : (g.trapTaken e t st).getP l = g.getP l := Iss.setFront_getP g.tried _ l

end Trapped

/-- A trap taken outside handler mode leaves its record in the group, whose registers stay. -/
theorem State.group?_takeTrap {s : State} {g : Group} (e : Entry) (a : TrapArgs) (hh : g.inHandler = false)
    (hs : (s.group? g.id).isSome = true) :
    ∃ st, (s.takeTrap g e a).group? g.id = some (g.trapTaken e (mkTrapRec e a s.next) st) := by
  let toSup := supervisorClass a.cls || ((s.fresh.groupContext? g.tried).map (·.hobj)).getD 0 == 0
  let g' := g.trapTaken e (mkTrapRec e a s.next) (if toSup then .waitSupervisor false else .waitFrame)
  have heq : s.takeTrap g e a = if toSup then (s.fresh.updGroup g.id fun _ => g').supAppend g' (mkTrapRec e a s.next)
      else s.fresh.updGroup g.id fun _ => g' :=
    if_neg (by rw [show g.tried.inHandler = false from hh]; decide)
  have hput : (s.fresh.updGroup g.id fun _ => g').group? g.id = some g' := State.group?_put (Group.trapTaken_id ..) hs
  rw [heq]
  split
  · obtain ⟨st', h⟩ := State.group?_supAppend (mkTrapRec e a s.next) (Group.trapTaken_id ..) hput
    exact ⟨st', h⟩
  · exact ⟨_, hput⟩

/-- The form traps at the peak with class 5, and no lane of it writes. -/
theorem WritesOne.traps {i : Instr} {o : Alu} {s : State} {g : Group} {e : Entry} (w : WritesOne i o s g e) (hh : g.inHandler = false)
    (h : s.regGate g [o.d] = .limit) : ∃ t g', exec i s = .next t ∧ t.group? g.id = some g' ∧
      (∃ r, g'.trap = some r ∧ r.cls = 5 ∧ r.pc = e.pc ∧ r.tmask = (Iss.mk' s g e i).ex) ∧
      (∀ r l, g'.getV r l = g.getV r l) ∧ (∀ n l, g'.getPn n l = g.getPn n l) := by
  let u := (Iss.mk' s g e i).atRepeat 0
  have hid : (u.started g).id = g.id := Group.SamePlace.id (Iss.started_samePlace u g)
  have hput : (u.put g).group? g.id = some g := Iss.put_group u g (by simp [u, Iss.atRepeat, w.issue.here]) rfl
  have hframe : (u.started g).inHandler = false := (Iss.started_inHandler u g).trans hh
  obtain ⟨st, hg'⟩ := State.group?_takeTrap (s := u.put g) u.e (u.trapArgs { cls := 5, tmask := (Iss.mk' s g e i).ex })
    hframe (by rw [hid, hput]; rfl)
  rw [hid] at hg'
  refine ⟨_, _, w.exec_of_limit h, hg', ⟨_, rfl, rfl, rfl, rfl⟩, fun r l => ?_, fun n l => ?_⟩
  · exact (Group.trapTaken_getV ..).trans (Iss.started_getV ..)
  · exact congrArg (fun p : BitVec 16 => p.getLsbD n) ((Group.trapTaken_getP ..).trans (Iss.started_getP ..))

/-! ### The obligation -/

theorem regLimits_of_stage {s : State} {g : Group} {st : Stage} (h : s.groupStage? g = some st) :
    s.regLimits g = (8 * ceilDiv st.steady 8, st.peak) := by
  unfold State.regLimits
  rw [h]

/-- A group granted the pool, whose form frees no register, keeps it: D is mapped once its lanes are written. -/
theorem WritesOne.keeps_surge {i : Instr} {o : Alu} {s : State} {g g1 : Group} {e : Entry} (w : WritesOne i o s g e)
    (hh : g.inHandler = false) (hdead : i.head.hints.dead = none) (hlt : o.d < 32) (hd : o.d ∉ s.mappedRegs g)
    (hsteady : (s.regLimits g).1 < (s.mappedRegs g).length + 1) (h : s.regGate g [o.d] = .ok g1) {t : State} {g' : Group}
    (ht : exec i s = .next t) (hg' : t.group? g.id = some g') : g'.surge = g1.surge ∧ g'.surgeWait = g1.surgeWait := by
  have hg1 := regGate_ok h
  have hmapped1 : g1.mapped = g.mapped := by rw [hg1]; rfl
  obtain ⟨hm, hs, hsw⟩ := Group.runLanes_mapped w.form w.noPred w.writes hlt (Iss.mk' s g e i).ex.toList g1 (by rw [hg1]; exact hh)
    fun l hl => Mask.has_lt (Mask.mem_toList.mp hl)
  obtain ⟨g2, hrun⟩ : ∃ g2, g2 = WritesOne.ran i o (Iss.mk' s g e i) g1 := ⟨_, rfl⟩
  rw [← WritesOne.ran, ← hrun] at hm hs hsw
  have place : SamePlace g g2 := hrun ▸ w.ran_samePlace h
  have hid : ((Iss.mk' s g e i).started g2).id = g.id :=
    (Group.SamePlace.id (Iss.started_samePlace _ g2)).trans (Group.SamePlace.id place)
  have hlim : s.regLimits ((Iss.mk' s g e i).started g2) = s.regLimits g := by
    rw [Group.SamePlace.trans place (Iss.started_samePlace (Iss.mk' s g e i) g2)]; rfl
  have hcount : (s.mappedRegs g).length < (s.mappedRegs ((Iss.mk' s g e i).started g2)).length := by
    refine State.length_mappedRegs_lt hid (fun r hr => ?_) hd ?_
    all_goals rw [(Iss.started_surges _ g2).2.2]
    · exact hm r (.inl (hmapped1 ▸ hr))
    · exact hm _ (.inr ⟨rfl, Mask.toList_ne_nil w.lanes⟩)
  obtain ⟨g3, hg3, hsurge, hwait⟩ := Iss.finish_surges (u := Iss.mk' s g e i) (g := g2) (by rw [Iss.deads_mk', hdead]; rfl)
    (Group.SamePlace.id place) (by simp [w.issue.here]) (by rw [Iss.mk'_s, hlim]; omega)
  have hgroups : t.groups = ((Iss.mk' s g e i).finish g2).groups := by
    have := Host.Outcome.next.inj (ht.symm.trans (w.exec_of_ok h))
    rw [this, ← hrun]
    split
    · exact State.logGroup_groups ..
    · rfl
  rw [State.group?_congr hgroups] at hg'
  cases hg'.symm.trans hg3
  exact ⟨hsurge.trans hs, hwait.trans hsw⟩

/-- Settles O15: the gate's answer decides among completing, trapping and waiting. -/
theorem surgePool : Obligations.SurgePool := by
  unfold Obligations.SurgePool
  refine ⟨fun s g r => by rw [State.mem_mappedRegs, Group.mem_mapped], State.nodup_mappedRegs, ?_⟩
  intro i o s g e st hform hissue ho hlisted hrep hrepi hpd hnw hex hh hst hlt hd n steady t rival busy
  have w : WritesOne i o s g e := ⟨hform, hissue, hrep, hrepi, hpd, hnw, hex⟩
  have hgate := regGate_unmapped hh hd
  rw [regLimits_of_stage hst] at hgate
  have hover (hsteady : steady < n) (hsurge : g.surge = false) : ¬(decide (n ≤ steady) || g.surge) = true := by
    rw [decide_eq_false (Nat.not_le.mpr hsteady), hsurge]
    exact Bool.false_ne_true
  refine ⟨fun hpeak => ?_, fun hpeak hfree => ?_, fun hpeak hsteady hsurge hidle => ?_, fun hpeak hsteady hsurge hbusy => ?_⟩
  · exact w.traps hh (hgate.trans (if_pos hpeak))
  · refine w.writesLanes ho hlisted (hgate.trans ((if_neg (by omega)).trans (if_pos ?_)))
    rw [Bool.or_eq_true, decide_eq_true_eq]
    exact hfree
  · have hfree : (!s.surgeHeld g && !s.surgeWaited g) = true := by
      rw [← Bool.not_eq_false]
      exact fun hb => hidle (surge_busy_iff.mp hb)
    have hok := hgate.trans ((if_neg (by omega)).trans ((if_neg (hover hsteady hsurge)).trans (if_pos hfree)))
    refine ⟨w.writesLanes ho hlisted hok, fun hdead t g' ht hg' => ?_⟩
    exact w.keeps_surge hh hdead hlt hd (by rw [regLimits_of_stage hst]; exact hsteady) hok ht hg'
  · have hwait : ¬(!s.surgeHeld g && !s.surgeWaited g) = true := by
      rw [surge_busy_iff.mpr hbusy]
      exact Bool.false_ne_true
    exact w.exec_of_wait (hgate.trans ((if_neg (by omega)).trans ((if_neg (hover hsteady hsurge)).trans (if_neg hwait))))

end Sys2Proof.Machine
end

section
/-! PROOFS. Issue checks: the branches of a step that runs a group's sequence and of the checks before an instruction's own meaning
(spec 03 R77, spec 04 R61, R101, spec 06 R161, spec 13 R350), and from them the obligations on both. -/

set_option Elab.async false

namespace Sys2Proof.Machine

/-! ### A step that runs a group's sequence (R61) -/

theorem step_of_idle_agenda {s : State} (hp : s.pkg.powered = true) (ha : s.agenda = []) : step s = s.proceed := by
  rw [step, if_pos hp, ha]

theorem State.proceed_of_turn {s : State} {g : Group} {e : Entry} (hc : s.controllerBusy = false) (ht : s.turn = some (g, e)) :
    s.proceed = onNext State.handOver (s.issueEntry g e) := by
  simp only [State.proceed, hc, ht, Bool.false_eq_true, if_false]

theorem State.issueEntry_of_decoded {s : State} {g : Group} {e : Entry} {ws : List (BitVec 32)} {d : Decoded} {i : Instr}
    (hf : s.fetchSeq g e.pc = .ok ws) (hd : decodeWords ws = some d) (hc : d.codes = []) (hi : d.instr = some i) :
    s.issueEntry g e = exec i s := by
  simp only [State.issueEntry, hf, hd, hc, hi]

/-- Settles O5: the branches of the step, of its turn and of its fetch, one after the other. -/
theorem stepRunsDecoded : Obligations.StepRunsDecoded := by
  unfold Obligations.StepRunsDecoded
  intro s g e ws d i hpowered hagenda hcontroller hturn hfetch hdecode hcodes hinstr
  calc step s = s.proceed := step_of_idle_agenda hpowered hagenda
    _ = onNext State.handOver (s.issueEntry g e) := State.proceed_of_turn hcontroller hturn
    _ = onNext State.handOver (exec i s) := by rw [State.issueEntry_of_decoded hfetch hdecode hcodes hinstr]

/-! ### The branches of issuing outside a chain (R77, R350, R161, R101) -/

/-- A word is executed by issuing it for the selected entry of the group that issues. -/
theorem exec_issueAt {i : Instr} {s : State} {g : Group} {e : Entry} (hi : i.isWord = true) (hg : s.group? s.cur = some g)
    (he : Entry.select g.front = some e) : ∃ k, exec i s = .next (issueAt i s g e k) := by
  obtain ⟨k, hk⟩ := exec_issue i s hi
  refine ⟨k, hk.trans ?_⟩
  simp only [issue, hg, he]

section IssueAt

variable {i : Instr} {s : State} {g : Group} {e : Entry} {k : Iss → State}

theorem issueAt_of_code {c : Nat} (hchain : i.head.hints.chain = none) (hc : lowestCode (i.codesAt none) = some c) :
    issueAt i s g e k = (Iss.mk' s g e i).trap { cls := 1, detail := c, tmask := (Iss.mk' s g e i).act } := by
  simp only [issueAt, hchain, hc]

theorem lowestCode_of_legal (hlegal : i.codesAt none = []) : lowestCode (i.codesAt none) = none := by
  rw [hlegal]
  rfl

theorem issueAt_of_barred (hchain : i.head.hints.chain = none) (hlegal : i.codesAt none = []) (hh : g.inHandler = true)
    (hbar : handlerBanned i = true ∨ i.namesHigh = true) :
    issueAt i s g e k = (Iss.mk' s g e i).trap { cls := 14, tmask := (Iss.mk' s g e i).act } := by
  have hstop : (g.inHandler && (handlerBanned i || i.namesHigh)) = true := by
    rw [hh, Bool.true_and]
    exact Bool.or_eq_true_iff.mpr hbar
  simp only [issueAt, hchain, lowestCode_of_legal hlegal, hstop, if_true]

theorem issueAt_of_pnd (hchain : i.head.hints.chain = none) (hlegal : i.codesAt none = []) (hh : g.inHandler = false)
    (hb : fpBarrier i = true) (hw : (Iss.mk' s g e i).allWritten = true) (hp : g.pnd ≠ 0) :
    issueAt i s g e k = (Iss.mk' s g e i).trapAfter { g with fpflags := g.fpflags &&& 0x1F }
      { cls := 7, info := g.pnd, tmask := (Iss.mk' s g e i).act } := by
  simp [issueAt, hchain, lowestCode_of_legal hlegal, hh, hb, hw, hp]

theorem issueAt_of_pending (hchain : i.head.hints.chain = none) (hlegal : i.codesAt none = []) (hh : g.inHandler = false)
    (hb : fpBarrier i = false) (hp : (Iss.mk' s g e i).pending = true) : issueAt i s g e k = s := by
  simp [issueAt, hchain, lowestCode_of_legal hlegal, hh, hb, hp]

end IssueAt

/-! ### A trap in handler mode (R350, R352) -/

/-- Appending to the supervisor ring leaves the groups as they are, or marks the one as appended (R352). -/
theorem State.supAppend_groups (s : State) (g : Group) (t : TrapRec) : (s.supAppend g t).groups = s.groups ∨
    (s.supAppend g t).groups = (s.updGroup g.id fun x => { x with stop := .waitSupervisor true }).groups := by
  unfold State.supAppend
  dsimp only
  split
  · exact .inl rfl
  · split
    · exact .inl rfl
    · refine .inr (congrArg (List.map _) ?_)
      rw [State.event_groups, State.updCtx_groups, State.wr_groups]

/-- The group that a handler fault leaves: out of handler mode, with its record, waiting for the supervisor (R350). -/
def Group.afterHandlerFault (g : Group) (t : TrapRec) (appended : Bool) : Group :=
  { g.tried with frame := none, trap := some t, stop := .waitSupervisor appended }

/-- The record of a handler fault: class 14 whatever was met, and the delivery that the handler was serving (R350, R351). -/
def Group.faultRec (g : Group) (e : Entry) (a : TrapArgs) (order : Nat) : TrapRec :=
  { mkTrapRec e a order with cls := 14, op := (g.trap.map TrapRec.delivered).getD 0 }

/-- A trap taken in handler mode is a handler fault. -/
theorem State.group?_takeTrap_handler {s : State} {g : Group} (e : Entry) (a : TrapArgs) (hh : g.inHandler = true)
    (hs : (s.group? g.id).isSome = true) :
    ∃ b, (s.takeTrap g e a).group? g.id = some (g.afterHandlerFault (g.faultRec e a s.next) b) := by
  let g' := g.afterHandlerFault (g.faultRec e a s.next) false
  let put := (s.fresh.updGroup g.id fun _ => g').updCluster g.die g.cluster fun c =>
    { c with handler := AMap.erase c.handler g.core }
  have heq : s.takeTrap g e a = put.supAppend g' (g.faultRec e a s.next) := if_pos hh
  have hput : put.group? g.id = some g' :=
    (State.group?_congr (State.updCluster_groups ..) _).trans (State.group?_put rfl hs)
  rw [heq]
  rcases State.supAppend_groups put g' (g.faultRec e a s.next) with h | h
  · exact ⟨false, (State.group?_congr h _).trans hput⟩
  · refine ⟨true, (State.group?_congr h _).trans ?_⟩
    rw [State.group?_updGroup, if_pos (show g.id = g'.id from rfl), hput]
    · rfl
    · exact fun _ hid => hid

/-! ### A pending floating exception (R161) -/

theorem Group.trapTaken_fpflags (g : Group) (e : Entry) (t : TrapRec) (st : Stop) : (g.trapTaken e t st).fpflags = g.fpflags :=
  Iss.setFront_fpflags g.tried _

/-- A trap taken after effects in `g'`, outside handler mode, leaves its record and the flags of `g'`. -/
theorem Iss.group?_trapAfter {u : Iss} {g' : Group} (a : TrapArgs) (hs : (u.s.group? u.g.id).isSome = true) (hid : g'.id = u.g.id)
    (hh : g'.inHandler = false) : ∃ x, (u.trapAfter g' a).group? u.g.id = some x ∧ x.fpflags = g'.fpflags ∧
      x.trap = some (mkTrapRec u.e (u.trapArgs a) (u.put g').next) := by
  have hput : (u.put g').group? u.g.id = some g' := Iss.put_group u g' hs hid
  have hstarted : (u.started g').id = u.g.id := (Group.SamePlace.id (Iss.started_samePlace u g')).trans hid
  obtain ⟨st, hx⟩ := State.group?_takeTrap (s := u.put g') u.e (u.trapArgs a) ((Iss.started_inHandler u g').trans hh)
    (by rw [hstarted, hput]; rfl)
  rw [hstarted] at hx
  exact ⟨_, hx, (Group.trapTaken_fpflags ..).trans (Iss.started_fpflags ..), rfl⟩

/-! ### The obligation -/

/-- Settles O7: each clause is one branch of issuing, and the trap that the branch takes. -/
theorem issueChecks : Obligations.IssueChecks := by
  unfold Obligations.IssueChecks
  refine ⟨?illegal, ?barred, ?exception, ?pending⟩
  case illegal =>
    intro i s g e c hi hchain hg he hc
    obtain ⟨k, hk⟩ := exec_issueAt hi hg he
    exact ⟨_, rfl, rfl, rfl, rfl, rfl, hk.trans (congrArg _ (issueAt_of_code hchain hc))⟩
  case barred =>
    intro i s g e hi hchain hg he hlegal hh hbar
    obtain ⟨k, hk⟩ := exec_issueAt hi hg he
    have hs : (s.group? g.id).isSome = true := by rw [State.group?_id hg, hg]; rfl
    obtain ⟨b, hx⟩ := State.group?_takeTrap_handler (s := s) e
      ((Iss.mk' s g e i).trapArgs { cls := 14, tmask := (Iss.mk' s g e i).act }) hh hs
    refine ⟨_, _, hk.trans (congrArg _ (issueAt_of_barred hchain hlegal hh hbar)), hx, rfl, ⟨_, rfl, rfl, rfl, rfl⟩, ?_⟩
    cases b
    · exact .inl rfl
    · exact .inr rfl
  case exception =>
    intro i s g e hi hchain hg he hlegal hh hb hw hp
    obtain ⟨k, hk⟩ := exec_issueAt hi hg he
    obtain ⟨x, hx, hflags, htrap⟩ := Iss.group?_trapAfter (u := Iss.mk' s g e i)
      (g' := { g with fpflags := g.fpflags &&& 0x1F }) { cls := 7, info := g.pnd, tmask := (Iss.mk' s g e i).act }
      (by rw [Iss.mk'_s, Iss.mk'_g, State.group?_id hg, hg]; rfl) rfl hh
    exact ⟨_, x, hk.trans (congrArg _ (issueAt_of_pnd hchain hlegal hh hb hw hp)), hx, hflags, _, htrap, rfl, rfl⟩
  case pending =>
    intro i s g e hi hchain hg he hlegal hh hb hp
    obtain ⟨k, hk⟩ := exec_issueAt hi hg he
    exact hk.trans (congrArg _ (issueAt_of_pending hchain hlegal hh hb hp))

end Sys2Proof.Machine
end

section
/-! PROOFS. Other steps: a step of the agenda, and a sequence that cannot be fetched (spec 04 R113, spec 09 R254, spec 13 R351, spec 95),
and from them the obligation on both. -/

set_option Elab.async false

namespace Sys2Proof.Machine

theorem step_of_scheduled {s : State} {i : Instr} {t : List Instr} (hp : s.pkg.powered = true) (ha : s.agenda = i :: t)
    (hi : i.isWord = false) : step s = onNext State.pass (exec i { s with agenda := t }) := by
  rw [step, if_pos hp, ha]
  exact if_neg (ne_true_of_eq_false hi)

/-- A sequence that is not fetched is no instruction: the group's turn comes to what stops the fetch. -/
theorem step_of_unfetched {s : State} {g : Group} {e : Entry} (hp : s.pkg.powered = true) (ha : s.agenda = [])
    (hc : s.controllerBusy = false) (ht : s.turn = some (g, e)) (hf : ∀ ws, s.fetchSeq g e.pc ≠ .ok ws) :
    step s = .next (s.fetchStop g e (s.fetchSeq g e.pc)).handOver := by
  have hissue : s.issueEntry g e = .next (s.fetchStop g e (s.fetchSeq g e.pc)) := by
    unfold State.issueEntry
    split
    · exact absurd ‹_› (hf _)
    · rfl
  rw [step_of_idle_agenda hp ha, State.proceed_of_turn hc ht, hissue]
  rfl

/-- Settles O6: each clause on a fetch is one answer of what stops it. -/
theorem otherSteps : Obligations.OtherSteps := by
  unfold Obligations.OtherSteps
  refine ⟨fun s i t => step_of_scheduled, fun s g e hp ha hc ht => ?_⟩
  have stopped (f : Fetch) (h : s.fetchSeq g e.pc = f) (hf : ∀ ws, f ≠ .ok ws) :
      step s = .next (s.fetchStop g e f).handOver := by
    rw [step_of_unfetched hp ha hc ht (h ▸ hf), h]
  refine ⟨fun a h => ?outside, fun a c h => ?fault, fun a h => ?poison, fun a h => ?wait, fun pa h => ?packet⟩
  all_goals exact stopped _ h fun ws => Fetch.noConfusion

end Sys2Proof.Machine
end

section
/-! PROOFS. Control transfers: where the lanes of an entry go when a sequence completes in parts, and the traps of a transfer that
cannot be made (spec 04 R108-R120), and from them the obligations on branches, calls, loops and their traps. -/

set_option Elab.async false

namespace Sys2Proof.Machine

/-! ### Lanes that pass a guard (R60) -/

theorem Mask.ext_has {a b : Mask} (h : ∀ l, l < 32 → a.has l = b.has l) : a = b :=
  BitVec.eq_of_getLsbD_eq fun l hl => h l hl

theorem Mask.has_zero (l : Nat) : (0 : Mask).has l = false := BitVec.getLsbD_zero

/-- Of a form that a guard restricts, the lanes that execute are those that pass it. -/
theorem Group.execMask_eq_ofPred {g : Group} {i : Instr} (h : i.info.guard ≠ 2) (m : Mask) :
    g.execMask i m = Mask.ofPred fun l => m.has l && g.passes i.head.guard l := by
  refine Mask.ext_has fun l hl => ?_
  unfold Group.execMask
  rw [if_neg h, Mask.has_ofPred, decide_eq_true hl, Bool.true_and]
  cases i.head.guard with
  | none => exact (Bool.and_true _).symm
  | some q => rw [Mask.has_ofPred, decide_eq_true hl, Bool.true_and]

/-! ### Parts of an entry (R93, R110) -/

/-- Where the lanes of an entry stand. -/
def Entry.place (e : Entry) : Nat × Nat × List CRec := (e.pc, e.prio, e.stack)

/-- Where the lanes of an entry stand past a sequence of `w` words that makes no transfer. -/
def Entry.past (e : Entry) (w : Nat) : Nat × Nat × List CRec := ((e.advance w).pc, e.prio, (e.advance w).stack)

@[simp] theorem Entry.place_advance (e : Entry) (w : Nat) : (e.advance w).place = e.past w := rfl
@[simp] theorem Entry.mask_advance (e : Entry) (w : Nat) : (e.advance w).mask = e.mask := rfl
@[simp] theorem Entry.past_yielded (e : Entry) (b : Bool) (w : Nat) : ({ e with yielded := b } : Entry).past w = e.past w := rfl
@[simp] theorem Entry.place_fall (e : Entry) (m : Mask) (w : Nat) : (e.fall m w).place = e.past w := rfl
@[simp] theorem Entry.mask_fall (e : Entry) (m : Mask) (w : Nat) : (e.fall m w).mask = m := rfl
@[simp] theorem Entry.place_goto (e : Entry) (m : Mask) (t prio : Nat) (stack : List CRec) :
    (e.goto m t prio stack).place = (t, prio, stack) := rfl
@[simp] theorem Entry.mask_goto (e : Entry) (m : Mask) (t prio : Nat) (stack : List CRec) : (e.goto m t prio stack).mask = m := rfl

section Transfer

variable {i : Instr} {s : State} {g : Group} {e : Entry}

/-! ### A sequence that completes in parts -/

/-- A sequence whose parts hold every lane of its entry at the place `dest` gives, or past it, moves its lanes there. -/
theorem moves_of_parts {dest : Nat → Option (Nat × Nat × List CRec)} {parts : Entry → List Entry} (h : AtIssue i s g e) (ho : Only g e)
    (hx : exec i s = .next ((Iss.mk' s g e i).finishWith g parts))
    (hparts : ∀ b l, e.mask.has l = true → ∃ p ∈ parts { e with yielded := b }, p.mask.has l = true ∧
      p.place = (dest l).getD (e.past (i.head.hints.count + 1))) : Moves i s g e dest := by
  let u := Iss.mk' s g e i
  obtain ⟨g', b, hg', honly, hclosed, hstands⟩ := u.finishAs_stands g u.deads u.y u.stall parts (by simp [u, h.here]) rfl
    (select_mem h.entry) ho
  rw [Iss.deads_mk'] at hclosed
  refine ⟨_, g', hx, hg', honly, hclosed, fun l hl => ?_⟩
  obtain ⟨p, hp, hpl, hplace⟩ := hparts b l hl
  have hstand := hstands p hp l hpl
  cases hd : dest l with
  | none =>
    rw [hd] at hplace
    obtain ⟨hpc, hprio, hstack⟩ : p.pc = _ ∧ p.prio = _ ∧ p.stack = _ := by simpa [Entry.place, Entry.past] using hplace
    rw [hpc, hprio, hstack] at hstand
    exact hstand
  | some d =>
    rw [hd] at hplace
    have hd : p.place = d := hplace
    rw [← hd]
    exact hstand

/-- A sequence that completes with no transfer moves no lane but past it. -/
theorem moves_past {dest : Nat → Option (Nat × Nat × List CRec)} (h : AtIssue i s g e) (ho : Only g e)
    (hx : exec i s = .next ((Iss.mk' s g e i).finish g)) (hd : ∀ l, dest l = none) : Moves i s g e dest := by
  refine moves_of_parts h ho hx fun b l hl => ⟨_, List.mem_singleton.mpr rfl, hl, ?_⟩
  rw [hd]
  rfl

/-- A sequence that sends some of its lanes to one place and the others past it. -/
theorem moves_split {taken : Mask} {t prio : Nat} {stack : List CRec} {parts : Entry → List Entry} (h : AtIssue i s g e) (ho : Only g e)
    (hx : exec i s = .next ((Iss.mk' s g e i).finishWith g parts))
    (hparts : ∀ b, let x : Entry := { e with yielded := b }
      parts x = [x.goto taken t prio stack, x.fall (e.mask &&& ~~~taken) (i.head.hints.count + 1)]) :
    Moves i s g e fun l => if taken.has l = true then some (t, prio, stack) else none := by
  refine moves_of_parts h ho hx fun b l hl => ?_
  rw [hparts]
  cases ht : taken.has l with
  | true => exact ⟨_, List.mem_cons_self .., ht, rfl⟩
  | false => exact ⟨_, List.mem_cons_of_mem _ (List.mem_singleton.mpr rfl), by simp [Mask.has_diff, hl, ht], rfl⟩

/-- A trap taken at the sequence with no effect of it. -/
theorem traps_of {a : TrapArgs} (hx : exec i s = .next ((Iss.mk' s g e i).trap a)) : Traps i s g e a.cls a.detail a.info a.tmask :=
  ⟨(Iss.mk' s g e i).trapArgs a, rfl, rfl, rfl, rfl, hx⟩

/-! ### Targets (R70, R113) -/

/-- The target that a B or L form of an entry names. -/
def Entry.targetOf (e : Entry) (h : Head) (off : BitVec 14) : Nat :=
  ((((e.pc + 4 * h.hints.count : Nat) : Int) + 4 * wordOffset h.hints.imm off) % 2 ^ 56).toNat

theorem Iss.target_mk' (s : State) (g : Group) (e : Entry) (i : Instr) (off : BitVec 14) :
    (Iss.mk' s g e i).target off = e.targetOf i.head off := by
  unfold Iss.target Iss.ia Iss.mk' Entry.targetOf
  simp

/-- The address of the instruction word of a sequence. -/
theorem Iss.ia_mk' (s : State) (g : Group) (e : Entry) (i : Instr) : (Iss.mk' s g e i).ia = e.pc + 4 * i.head.hints.count := by
  simp [Iss.ia, Iss.mk']

theorem Iss.targetOk_iff (u : Iss) (t : Nat) : u.targetOk t = true ↔
    t % 4 = 0 ∧ (u.s.codeSpan u.g).1 + 64 ≤ t ∧ t < (u.s.codeSpan u.g).1 + 64 + (u.s.codeSpan u.g).2 := by
  simp only [Iss.targetOk, inCode, Bool.and_eq_true, beq_iff_eq, decide_eq_true_eq]

/-! ### Branches (R114, R115) -/

theorem branch_moves {taken : Mask} {t prio : Nat} (h : AtIssue i s g e) (ho : Only g e)
    (hx : exec i s = .next ((Iss.mk' s g e i).branch taken t prio)) (hok : taken = 0 ∨ (Iss.mk' s g e i).targetOk t = true) :
    Moves i s g e fun l => if taken.has l = true then some (t, prio, popLoops t e.stack) else none := by
  unfold Iss.branch at hx
  by_cases h0 : taken = 0
  · rw [if_pos h0] at hx
    refine moves_past h ho hx fun l => ?_
    rw [h0, Mask.has_zero]
    rfl
  · rw [if_neg h0, hok.resolve_left h0] at hx
    exact moves_split h ho hx fun _ => rfl

theorem branch_traps {taken : Mask} {t prio : Nat} (hx : exec i s = .next ((Iss.mk' s g e i).branch taken t prio)) (h0 : taken ≠ 0)
    (hbad : (Iss.mk' s g e i).targetOk t = false) : Traps i s g e 4 0 (t % 2 ^ 32) taken := by
  unfold Iss.branch at hx
  rw [if_neg h0, hbad] at hx
  exact traps_of hx

/-- The lanes of an entry that pass the guard of a form. -/
def Entry.guarded (e : Entry) (g : Group) (h : Head) : Mask := Mask.ofPred fun l => e.mask.has l && g.passes h.guard l

theorem Iss.taken_mk' (hg : i.info.guard ≠ 2) : (Iss.mk' s g e i).taken = e.guarded g i.head :=
  Group.execMask_eq_ofPred hg e.mask

theorem Iss.tested_any : ((Iss.mk' s g e i).tested.any id) = e.mask.toList.any fun l => g.passes i.head.guard l := List.any_map ..

theorem Iss.tested_all : ((Iss.mk' s g e i).tested.all id) = e.mask.toList.all fun l => g.passes i.head.guard l := List.all_map ..

end Transfer

section Forms

variable {h : Head} {s : State} {g : Group} {e : Entry}

theorem exec_bra {f : FB} (hi : AtIssue (.bra h f) s g e) : exec (.bra h f) s =
    .next ((Iss.mk' s g e (.bra h f)).branch (e.guarded g h) (e.targetOf h f.off14) f.tpri.toNat) := by
  have htaken : (Iss.mk' s g e (.bra h f)).taken = e.guarded g h := Iss.taken_mk' nofun
  have ht : (Iss.mk' s g e (.bra h f)).target f.off14 = e.targetOf h f.off14 := Iss.target_mk' ..
  rw [← htaken, ← ht]
  exact issue_next hi _

theorem exec_brany {f : FB} (hi : AtIssue (.brany h f) s g e) : exec (.brany h f) s =
    .next ((Iss.mk' s g e (.brany h f)).branch (if e.mask.toList.any fun l => g.passes h.guard l then e.mask else 0)
      (e.targetOf h f.off14) f.tpri.toNat) := by
  have htested : (Iss.mk' s g e (.brany h f)).tested.any id = e.mask.toList.any fun l => g.passes h.guard l := Iss.tested_any
  have ht : (Iss.mk' s g e (.brany h f)).target f.off14 = e.targetOf h f.off14 := Iss.target_mk' ..
  rw [← htested, ← ht]
  exact issue_next hi _

theorem exec_brall {f : FB} (hi : AtIssue (.brall h f) s g e) : exec (.brall h f) s =
    .next ((Iss.mk' s g e (.brall h f)).branch (if e.mask.toList.all fun l => g.passes h.guard l then e.mask else 0)
      (e.targetOf h f.off14) f.tpri.toNat) := by
  have htested : (Iss.mk' s g e (.brall h f)).tested.all id = e.mask.toList.all fun l => g.passes h.guard l := Iss.tested_all
  have ht : (Iss.mk' s g e (.brall h f)).target f.off14 = e.targetOf h f.off14 := Iss.target_mk' ..
  rw [← htested, ← ht]
  exact issue_next hi _

/-! ### Calls and returns (R116, R117) -/

theorem exec_call {f : FB} (hi : AtIssue (.call h f) s g e) (h0 : e.guarded g h ≠ 0) : exec (.call h f) s = .next (
    if 4 ≤ e.stack.length then (Iss.mk' s g e (.call h f)).trap { cls := 3, detail := 1, tmask := e.guarded g h }
    else if !(Iss.mk' s g e (.call h f)).targetOk (e.targetOf h f.off14) then
      (Iss.mk' s g e (.call h f)).badTarget (e.targetOf h f.off14) (e.guarded g h)
    else (Iss.mk' s g e (.call h f)).finishWith g fun x =>
      [x.goto (e.guarded g h) (e.targetOf h f.off14) f.tpri.toNat (.call (e.pc + 4 * h.hints.count + 4) x.prio :: x.stack),
        x.fall (x.mask &&& ~~~e.guarded g h) (h.hints.count + 1)]) := by
  have htaken : (Iss.mk' s g e (.call h f)).taken = e.guarded g h := Iss.taken_mk' nofun
  have ht : (Iss.mk' s g e (.call h f)).target f.off14 = e.targetOf h f.off14 := Iss.target_mk' ..
  have hia : (Iss.mk' s g e (.call h f)).ia = e.pc + 4 * h.hints.count := Iss.ia_mk' ..
  rw [← htaken] at h0 ⊢
  rw [← ht, ← hia]
  exact (issue_next hi _).trans (congrArg _ (if_neg h0))

/-- Past loop records, the innermost call record is the first one met (R117). -/
theorem popCall_append {ls : List CRec} (hls : ∀ x ∈ ls, ∃ a b n, x = .loop a b n) (rp pr : Nat) (rest : List CRec) :
    popCall (ls ++ .call rp pr :: rest) = some (rp, pr, rest) := by
  induction ls with
  | nil => rfl
  | cons x ls ih =>
    obtain ⟨a, b, n, rfl⟩ := hls x (List.mem_cons_self ..)
    exact ih fun y hy => hls y (List.mem_cons_of_mem _ hy)

theorem popCall_of_no_call {stack : List CRec} (h : ∀ x ∈ stack, ∀ a p, x ≠ .call a p) : popCall stack = none := by
  induction stack with
  | nil => rfl
  | cons x stack ih =>
    cases x with
    | call a p => exact absurd rfl (h _ (List.mem_cons_self ..) a p)
    | loop a b n => exact ih fun y hy => h y (List.mem_cons_of_mem _ hy)

theorem exec_ret_none (hi : AtIssue (.ret h) s g e) (h0 : e.guarded g h = 0) :
    exec (.ret h) s = .next ((Iss.mk' s g e (.ret h)).finish g) := by
  have htaken : (Iss.mk' s g e (.ret h)).taken = e.guarded g h := Iss.taken_mk' nofun
  exact (issue_next hi _).trans (congrArg _ (if_pos (htaken.trans h0)))

/-- A return that no call record answers traps (R108). -/
theorem exec_ret_uncalled (hi : AtIssue (.ret h) s g e) (h0 : e.guarded g h ≠ 0) (hp : popCall e.stack = none) :
    exec (.ret h) s = .next ((Iss.mk' s g e (.ret h)).trap { cls := 3, detail := 2, tmask := e.guarded g h }) := by
  have htaken : (Iss.mk' s g e (.ret h)).taken = e.guarded g h := Iss.taken_mk' nofun
  rw [← htaken] at h0 ⊢
  refine (issue_next hi _).trans (congrArg _ ((if_neg h0).trans ?_))
  rw [Iss.mk'_e, hp]

theorem exec_ret_called (hi : AtIssue (.ret h) s g e) (h0 : e.guarded g h ≠ 0) {t prio : Nat} {stk : List CRec}
    (hp : popCall e.stack = some (t, prio, stk)) : exec (.ret h) s = .next (
      if !(Iss.mk' s g e (.ret h)).targetOk t then (Iss.mk' s g e (.ret h)).badTarget t (e.guarded g h)
      else (Iss.mk' s g e (.ret h)).finishWith g fun x =>
        [x.goto (e.guarded g h) t prio stk, x.fall (x.mask &&& ~~~e.guarded g h) (h.hints.count + 1)]) := by
  have htaken : (Iss.mk' s g e (.ret h)).taken = e.guarded g h := Iss.taken_mk' nofun
  rw [← htaken] at h0 ⊢
  refine (issue_next hi _).trans (congrArg _ ((if_neg h0).trans ?_))
  rw [Iss.mk'_e, hp]
  rfl

/-! ### Indirect branches (R118) -/

/-- The lanes that an indirect branch sends: those that pass its guard, but those that a handler skipped (R361). -/
def Entry.sent (e : Entry) (g : Group) (h : Head) : Mask := e.guarded g h &&& ~~~e.readDone

/-- The target of a lane's indirect branch. -/
def brxTarget (s : State) (g : Group) (f : FBrx) (l : Nat) : Nat := (s.codeSpan g).1 + (readSrc g l [] 0 f.a).toNat % 2 ^ 32

/-- The lanes that an indirect branch sends, each with its target. -/
def brxTargets (s : State) (g : Group) (e : Entry) (h : Head) (f : FBrx) : List (Nat × Nat) :=
  (e.sent g h).toList.map fun l => (l, brxTarget s g f l)

theorem exec_brx_sent {f : FBrx} (hi : AtIssue (.brx h f) s g e)
    (hok : ∀ x ∈ brxTargets s g e h f, (Iss.mk' s g e (.brx h f)).targetOk x.2 = true) :
    exec (.brx h f) s = .next ((Iss.mk' s g e (.brx h f)).finishWith g fun x =>
      x.fall (x.mask &&& ~~~e.sent g h) (h.hints.count + 1) :: brxParts x f.tpri.toNat (brxTargets s g e h f)) := by
  have htaken : (Iss.mk' s g e (.brx h f)).taken = e.guarded g h := Iss.taken_mk' nofun
  have hbad : (brxTargets s g e h f).filter (fun x => !(Iss.mk' s g e (.brx h f)).targetOk x.2) = [] :=
    List.filter_eq_nil_iff.mpr fun x hx => by simp [hok x hx]
  unfold brxTargets brxTarget Entry.sent at hbad ⊢
  rw [← htaken] at hbad ⊢
  refine (issue_next hi _).trans (congrArg _ ?_)
  dsimp only [Iss.mk'_s, Iss.mk'_g, Iss.mk'_e]
  rw [hbad]
  rfl

theorem exec_brx_bad {f : FBrx} (hi : AtIssue (.brx h f) s g e) {l t : Nat} {rest : List (Nat × Nat)}
    (hbad : (brxTargets s g e h f).filter (fun x => !(Iss.mk' s g e (.brx h f)).targetOk x.2) = (l, t) :: rest) :
    exec (.brx h f) s = .next ((Iss.mk' s g e (.brx h f)).trap
      { cls := 4, info := t % 2 ^ 32, tmask := Mask.ofPred fun k => ((l, t) :: rest).any (·.1 == k), joins := true }) := by
  have htaken : (Iss.mk' s g e (.brx h f)).taken = e.guarded g h := Iss.taken_mk' nofun
  unfold brxTargets brxTarget Entry.sent at hbad
  rw [← htaken] at hbad
  refine (issue_next hi _).trans (congrArg _ ?_)
  dsimp only [Iss.mk'_s, Iss.mk'_g, Iss.mk'_e]
  rw [hbad]

theorem brxParts_cons (e : Entry) (prio l t : Nat) (r : List (Nat × Nat)) : brxParts e prio ((l, t) :: r) =
    if (brxParts e prio r).any (·.pc = t) then
      (brxParts e prio r).map fun (p : Entry) => if p.pc = t then { p with mask := p.mask ||| Mask.one l } else p
    else e.goto (Mask.one l) t prio (popLoops t e.stack) :: brxParts e prio r := rfl

/-- Every part of an indirect branch stands at its target, its loop records popped. -/
theorem brxParts_place {e : Entry} {prio : Nat} (ts : List (Nat × Nat)) :
    ∀ p ∈ brxParts e prio ts, p.place = (p.pc, prio, popLoops p.pc e.stack) := by
  induction ts with
  | nil => exact fun p hp => absurd hp List.not_mem_nil
  | cons x r ih =>
    obtain ⟨l, t⟩ := x
    intro p hp
    rw [brxParts_cons] at hp
    split at hp
    · obtain ⟨q, hq, rfl⟩ := List.mem_map.mp hp
      have := ih q hq
      split <;> exact this
    · rcases List.mem_cons.mp hp with rfl | hp
      · rfl
      · exact ih p hp

/-- Every lane of an indirect branch is in a part that stands at its target (R118). -/
theorem exists_brxParts {e : Entry} {prio l t : Nat} {ts : List (Nat × Nat)} (hts : ∀ x ∈ ts, x.1 < 32) (h : (l, t) ∈ ts) :
    ∃ p ∈ brxParts e prio ts, p.mask.has l = true ∧ p.pc = t := by
  induction ts with
  | nil => exact absurd h List.not_mem_nil
  | cons x r ih =>
    obtain ⟨l0, t0⟩ := x
    have hl0 : l0 < 32 := hts _ (List.mem_cons_self ..)
    have hself : (Mask.one l0).has l0 = true := by simp [Mask.has_one hl0]
    have ih := ih fun x hx => hts x (List.mem_cons_of_mem _ hx)
    rw [brxParts_cons]
    split_ifs with hany
    · have joined (p : Entry) (hp : p ∈ brxParts e prio r) (hpc : p.pc = t) (hl : p.mask.has l = true ∨ (l = l0 ∧ t = t0)) :
          ∃ q ∈ (brxParts e prio r).map fun (p : Entry) => if p.pc = t0 then { p with mask := p.mask ||| Mask.one l0 } else p,
            q.mask.has l = true ∧ q.pc = t := by
        refine ⟨_, List.mem_map.mpr ⟨p, hp, rfl⟩, ?_⟩
        split_ifs with ht
        · refine ⟨?_, hpc⟩
          rw [Mask.has_or, Bool.or_eq_true]
          exact hl.imp_right fun hlt => by rw [hlt.1]; exact hself
        · exact ⟨hl.resolve_right fun h => ht (hpc.trans h.2), hpc⟩
      rcases List.mem_cons.mp h with heq | hr
      · obtain ⟨rfl, rfl⟩ := Prod.mk.inj heq
        obtain ⟨p, hp, hpc⟩ := List.any_eq_true.mp hany
        exact joined p hp (of_decide_eq_true hpc) (.inr ⟨rfl, rfl⟩)
      · obtain ⟨p, hp, hl, hpc⟩ := ih hr
        exact joined p hp hpc (.inl hl)
    · rcases List.mem_cons.mp h with heq | hr
      · obtain ⟨rfl, rfl⟩ := Prod.mk.inj heq
        exact ⟨_, List.mem_cons_self .., hself, rfl⟩
      · obtain ⟨p, hp, hl⟩ := ih hr
        exact ⟨p, List.mem_cons_of_mem _ hp, hl⟩

theorem Entry.has_sent (l : Nat) (hl : l < 32) :
    (e.sent g h).has l = (e.mask.has l && g.passes h.guard l && !e.readDone.has l) := by
  rw [Entry.sent, Mask.has_diff, Entry.guarded, Mask.has_ofPred, decide_eq_true hl, Bool.true_and]

theorem mem_brxTargets {f : FBrx} {x : Nat × Nat} : x ∈ brxTargets s g e h f ↔
    (e.sent g h).has x.1 = true ∧ x.2 = brxTarget s g f x.1 := by
  simp only [brxTargets, List.mem_map, Mask.mem_toList]
  constructor
  · rintro ⟨l, hl, rfl⟩
    exact ⟨hl, rfl⟩
  · rintro ⟨hl, ht⟩
    exact ⟨x.1, hl, Prod.ext rfl ht.symm⟩

/-- An indirect branch whose lanes all have good targets sends each to its own, and the others past it. -/
theorem brx_moves {f : FBrx} (hi : AtIssue (.brx h f) s g e) (ho : Only g e)
    (hok : ∀ l, e.mask.has l = true → (g.passes h.guard l && !e.readDone.has l) = true →
      (Iss.mk' s g e (.brx h f)).targetOk (brxTarget s g f l) = true) :
    Moves (.brx h f) s g e fun l => if (g.passes h.guard l && !e.readDone.has l) = true
      then some (brxTarget s g f l, f.tpri.toNat, popLoops (brxTarget s g f l) e.stack) else none := by
  have hsent (l : Nat) (hl : e.mask.has l = true) : (e.sent g h).has l = (g.passes h.guard l && !e.readDone.has l) := by
    rw [Entry.has_sent l (Mask.has_lt hl), hl, Bool.true_and]
  have hx := exec_brx_sent hi fun x hx => by
    obtain ⟨hs, ht⟩ := mem_brxTargets.mp hx
    have hs' := hs
    rw [Entry.has_sent _ (Mask.has_lt hs), Bool.and_assoc, Bool.and_eq_true] at hs'
    rw [ht]
    exact hok x.1 hs'.1 hs'.2
  refine moves_of_parts hi ho hx fun b l hl => ?_
  by_cases hgo : (g.passes h.guard l && !e.readDone.has l) = true
  · have hmem : (l, brxTarget s g f l) ∈ brxTargets s g e h f :=
      mem_brxTargets.mpr ⟨(hsent l hl).trans hgo, rfl⟩
    obtain ⟨p, hp, hpl, hpc⟩ := exists_brxParts (e := { e with yielded := b }) (prio := f.tpri.toNat)
      (fun x hx => Mask.has_lt (mem_brxTargets.mp hx).1) hmem
    refine ⟨p, List.mem_cons_of_mem _ hp, hpl, ?_⟩
    rw [brxParts_place _ p hp, hpc, if_pos hgo]
    rfl
  · refine ⟨_, List.mem_cons_self .., ?_, ?_⟩
    · rw [Entry.mask_fall, Mask.has_diff, hsent l hl, Bool.eq_false_of_not_eq_true hgo]
      simpa using hl
    · rw [if_neg hgo]
      rfl

/-- An indirect branch sends a lane to no place of the code. -/
def brxStrays (s : State) (g : Group) (e : Entry) (h : Head) (f : FBrx) (l : Nat) : Bool :=
  e.mask.has l && g.passes h.guard l && !e.readDone.has l && !(Iss.mk' s g e (.brx h f)).targetOk (brxTarget s g f l)

theorem brxTargets_strays (f : FBrx) :
    (brxTargets s g e h f).filter (fun x => !(Iss.mk' s g e (.brx h f)).targetOk x.2) =
      (lanes.filter (brxStrays s g e h f)).map fun l => (l, brxTarget s g f l) := by
  unfold brxTargets Mask.toList
  rw [List.filter_map, List.filter_filter]
  refine congrArg _ (List.filter_congr fun l hl => ?_)
  rw [Entry.has_sent l (List.mem_range.mp hl), Bool.and_comm]
  rfl

/-- A list of lanes filtered begins with the first lane that passes. -/
theorem lanes_filter_of_first {p : Nat → Bool} {l0 : Nat} (hl : l0 < 32) (h0 : p l0 = true) (hfirst : ∀ l, l < l0 → p l = false) :
    ∃ rest, lanes.filter p = l0 :: rest := by
  refine List.head?_eq_some_iff.mp ?_
  rw [List.head?_filter]
  exact List.find?_range_eq_some.mpr ⟨h0, List.mem_range.mpr hl, fun j hj => by simp [hfirst j hj]⟩

/-- An indirect branch traps for the lanes that it sends to no place of the code, with the target of the first of them. -/
theorem brx_traps {f : FBrx} (hi : AtIssue (.brx h f) s g e) {l0 : Nat} (hbad : brxStrays s g e h f l0 = true)
    (hfirst : ∀ l, l < l0 → brxStrays s g e h f l = false) :
    Traps (.brx h f) s g e 4 0 (brxTarget s g f l0 % 2 ^ 32) (Mask.ofPred (brxStrays s g e h f)) := by
  have hl0 : l0 < 32 := by
    unfold brxStrays at hbad
    simp only [Bool.and_eq_true, and_assoc] at hbad
    exact Mask.has_lt hbad.1
  obtain ⟨rest, hrest⟩ := lanes_filter_of_first hl0 hbad hfirst
  have hx := exec_brx_bad hi ((brxTargets_strays f).trans (by rw [hrest, List.map_cons]))
  have hmask : (Mask.ofPred fun k => ((l0, brxTarget s g f l0) :: rest.map fun l => (l, brxTarget s g f l)).any (·.1 == k)) =
      Mask.ofPred (brxStrays s g e h f) := by
    refine Mask.ext_has fun k hk => ?_
    have hmem : k ∈ lanes.filter (brxStrays s g e h f) ↔ brxStrays s g e h f k = true := by simp [lanes, hk]
    rw [hrest, List.mem_cons] at hmem
    rw [Mask.has_ofPred, Mask.has_ofPred]
    refine congrArg _ (Bool.eq_iff_iff.mpr (Iff.trans ?_ hmem))
    rw [List.any_cons, List.any_map, Bool.or_eq_true, beq_iff_eq, eq_comm]
    simp [Function.comp_def]
  rw [hmask] at hx
  exact traps_of hx

/-! ### Loops (R109, R110) -/

theorem exec_loop_skip {f : FL} (hi : AtIssue (.loop h f) s g e) (hn : (g.getS f.sc.toNat).truncate 32 = (0 : BitVec 32)) :
    exec (.loop h f) s = .next (
      if !(Iss.mk' s g e (.loop h f)).targetOk (e.targetOf h f.off14 + 4) then
        (Iss.mk' s g e (.loop h f)).badTarget (e.targetOf h f.off14 + 4) e.mask
      else (Iss.mk' s g e (.loop h f)).finishWith g fun x => [x.goto x.mask (e.targetOf h f.off14 + 4) x.prio x.stack]) := by
  have ht : (Iss.mk' s g e (.loop h f)).target f.off14 = e.targetOf h f.off14 := Iss.target_mk' ..
  rw [← ht]
  exact (issue_next hi _).trans (congrArg _ (if_pos hn))

theorem exec_loop_enter {f : FL} (hi : AtIssue (.loop h f) s g e) (hn : (g.getS f.sc.toNat).truncate 32 ≠ (0 : BitVec 32)) :
    exec (.loop h f) s = .next (
      if 4 ≤ e.stack.length then (Iss.mk' s g e (.loop h f)).trap { cls := 3, detail := 1, tmask := e.mask }
      else (Iss.mk' s g e (.loop h f)).finishWith g fun x => [x.goto x.mask (e.pc + 4 * h.hints.count + 4) x.prio
        (.loop (e.pc + 4 * h.hints.count + 4) (e.targetOf h f.off14) ((g.getS f.sc.toNat).truncate 32) :: x.stack)]) := by
  have ht : (Iss.mk' s g e (.loop h f)).target f.off14 = e.targetOf h f.off14 := Iss.target_mk' ..
  have hia : (Iss.mk' s g e (.loop h f)).ia = e.pc + 4 * h.hints.count := Iss.ia_mk' ..
  rw [← ht, ← hia]
  exact (issue_next hi _).trans (congrArg _ (if_neg hn))

/-- A sequence that sends its whole entry to one place. -/
theorem moves_whole {i : Instr} {t prio : Nat} {stack : List CRec} {parts : Entry → List Entry} (hi : AtIssue i s g e) (ho : Only g e)
    (hx : exec i s = .next ((Iss.mk' s g e i).finishWith g parts))
    (hparts : ∀ b, let x : Entry := { e with yielded := b }
      parts x = [x.goto e.mask t prio stack]) : Moves i s g e fun _ => some (t, prio, stack) := by
  refine moves_of_parts hi ho hx fun b l hl => ?_
  rw [hparts]
  exact ⟨_, List.mem_singleton.mpr rfl, hl, rfl⟩

/-- The end test where the innermost record's last word is behind, and the count is above 1 (R110). -/
theorem endTest_again {st fin lo next : Nat} {n : BitVec 32} {t : List CRec} (hlo : lo ≤ fin) (hnext : fin < next) (hn : 2 ≤ n.toNat) :
    endTest (.loop st fin n :: t) lo next = (st, .loop st fin (n - 1) :: t) := by
  rw [endTest.eq_def]
  exact (if_pos ⟨hlo, hnext⟩).trans (if_neg (by omega))

/-- The end test where the innermost record's body has ended, and no outer body ends with it (R110). -/
theorem endTest_leave {st fin lo next : Nat} {n : BitVec 32} {t : List CRec} (hlo : lo ≤ fin) (hnext : fin < next) (hn : n.toNat ≤ 1)
    (ht : ∀ a b k r, t = .loop a b k :: r → b ≠ fin) : endTest (.loop st fin n :: t) lo next = (fin + 4, t) := by
  rw [endTest.eq_def]
  refine (if_pos ⟨hlo, hnext⟩).trans ((if_pos hn).trans ?_)
  split
  · exact if_neg (ht _ _ _ _ rfl)
  · rfl

theorem endTest_inside {st fin lo next : Nat} {n : BitVec 32} {t : List CRec} (h : ¬(lo ≤ fin ∧ fin < next)) :
    endTest (.loop st fin n :: t) lo next = (next, .loop st fin n :: t) := by
  rw [endTest.eq_def]
  exact if_neg h

/-- Where the end test leaves an entry (R110). -/
theorem Entry.advance_of_endTest {e : Entry} {w pc : Nat} {stack : List CRec} (h : endTest e.stack e.pc (e.pc + 4 * w) = (pc, stack)) :
    (e.advance w).pc = pc ∧ (e.advance w).stack = stack := by
  unfold Entry.advance
  rw [h]
  exact ⟨rfl, rfl⟩

/-! ### The frontier after a sequence (R92, R94) -/

/-- An entry that no later one merges with stays as it is. -/
theorem mem_mergeInto_of_apart {a x : Entry} (h : a.mergeable x = false) {es : List Entry} (ha : a ∈ es) : a ∈ Entry.mergeInto x es := by
  induction es with
  | nil => cases ha
  | cons b t ih =>
    unfold Entry.mergeInto
    split_ifs with hb
    · rcases List.mem_cons.mp ha with rfl | ht
      · rw [h] at hb
        exact absurd hb Bool.false_ne_true
      · exact List.mem_cons_of_mem _ ht
    · rcases List.mem_cons.mp ha with rfl | ht
      · exact List.mem_cons_self ..
      · exact List.mem_cons_of_mem _ (ih ht)

/-- The first part of a frontier, where no other entry merges with it, stands in the frontier as it is. -/
theorem mem_normalise_of_apart {a : Entry} {es : List Entry} (ha : a.mask ≠ 0) (h : ∀ x ∈ es, a.mergeable x = false) :
    a ∈ Entry.normalise (a :: es) := by
  unfold Entry.normalise
  rw [mem_sort, List.filter_cons_of_pos (by simpa using ha), List.foldl_cons]
  have key (xs acc : List Entry) (hacc : a ∈ acc) (hxs : ∀ x ∈ xs, a.mergeable x = false) :
      a ∈ xs.foldl (fun acc x => Entry.mergeInto x acc) acc := by
    induction xs generalizing acc with
    | nil => exact hacc
    | cons x xs ih =>
      exact ih _ (mem_mergeInto_of_apart (hxs x (List.mem_cons_self ..)) hacc) fun y hy => hxs y (List.mem_cons_of_mem _ hy)
  exact key _ _ (List.mem_singleton.mpr rfl) fun x hx => h x (List.mem_of_mem_filter hx)

theorem not_mergeable_of_pc {a b : Entry} (h : a.pc ≠ b.pc) : a.mergeable b = false := by
  simp [Entry.mergeable, h]

namespace Iss

/-- The frontier that a sequence completing in parts leaves. -/
def frontAfter (e : Entry) (es : List Entry) (y : Bool) (parts : Entry → List Entry) : List Entry :=
  Entry.normalise (parts { e with yielded := y } ++ (es.map fun x => { x with yielded := y && decide (x.mask = e.mask) }).filter
    fun x => x.mask ≠ e.mask)

/-- A sequence that completes in parts leaves its group closed, with the frontier of its parts and the other entries. -/
theorem finishAs_group (u : Iss) (g : Group) (dead : List Nat) (y : Bool) (stall : Nat) (parts : Entry → List Entry)
    (h : (u.s.group? u.g.id).isSome = true) (hg : g.id = u.g.id) (he : u.e ∈ g.front) (ho : Only g u.e) :
    (u.finishAs g dead y stall parts).group? u.g.id =
      some (({ u with s := u.s.discard u.g u.e.mask dead }.close g dead y stall).setFront (frontAfter u.e g.front y parts)) := by
  let w : Iss := { u with s := u.s.discard u.g u.e.mask dead }
  have hfront := front_close w g dead y stall
  have hfind : ((w.close g dead y stall).front.find? fun x => x.mask = u.e.mask).getD u.e = { u.e with yielded := y } := by
    rw [hfront, List.find?_map]
    obtain ⟨x, hx⟩ := Option.isSome_iff_exists.mp (List.find?_isSome (p := (fun x : Entry => decide (x.mask = u.e.mask)) ∘
      fun e => { e with yielded := y && decide (e.mask = w.e.mask) }).mpr ⟨u.e, he, by simp⟩)
    have hmask : x.mask = u.e.mask := by simpa using List.find?_some hx
    rw [hx, ho x (List.mem_of_find?_eq_some hx) hmask]
    simp [w]
  have hclosed := close_closed w g dead y stall
  have hput := put_group w ((w.close g dead y stall).setFront (frontAfter u.e g.front y parts)) (by
      unfold State.group?
      rw [show w.s = u.s.discard u.g u.e.mask dead from rfl, discard_groups]
      exact h)
    ((Group.SamePlace.id (closed_setFront hclosed _).place).trans hg)
  have heq : (w.close g dead y stall).replaceEntry u.e.mask (parts { u.e with yielded := y }) =
      (w.close g dead y stall).setFront (frontAfter u.e g.front y parts) := by
    unfold Group.replaceEntry frontAfter
    rw [hfront]
  rw [← heq, ← hfind] at hput
  rw [← heq, ← hfind]
  exact hput

end Iss

/-- `yield` completes as every sequence does, and where no other entry stands past it, its entry is yielded (R120, R96). -/
theorem yield_ends (hi : AtIssue (.yield h) s g e) (ho : Only g e) (hm : e.mask ≠ 0) :
    ∃ t g', exec (.yield h) s = .next t ∧ t.group? g.id = some g' ∧ OnlyGroup s t g.id ∧ Closed e.mask (deadOf (.yield h)) g g' ∧
      Past g' e (h.hints.count + 1) ∧ ((∀ x ∈ g.front, x ≠ e → x.pc ≠ (e.advance (h.hints.count + 1)).pc) →
        ∃ x ∈ g'.front, x.mask = e.mask ∧ x.yielded = true) := by
  have hx : exec (.yield h) s = .next ((Iss.mk' s g e (.yield h)).finishAs g (Iss.mk' s g e (.yield h)).deads true
      (Iss.mk' s g e (.yield h)).stall fun x => [x.advance (h.hints.count + 1)]) := issue_next hi _
  have he := select_mem hi.entry
  have hs : (s.group? g.id).isSome = true := by rw [hi.here]; rfl
  obtain ⟨g', b, hg', honly, hclosed, hstands⟩ := (Iss.mk' s g e (.yield h)).finishAs_stands g (Iss.mk' s g e (.yield h)).deads true
    (Iss.mk' s g e (.yield h)).stall (fun x => [x.advance (h.hints.count + 1)]) hs rfl he ho
  rw [Iss.deads_mk'] at hclosed
  have hgroup := (Iss.mk' s g e (.yield h)).finishAs_group g (Iss.mk' s g e (.yield h)).deads true
    (Iss.mk' s g e (.yield h)).stall (fun x => [x.advance (h.hints.count + 1)]) hs rfl he ho
  cases hg'.symm.trans hgroup
  refine ⟨_, _, hx, hg', honly, hclosed, fun l hl => hstands _ (List.mem_singleton.mpr rfl) l hl, fun hapart => ?_⟩
  rw [front_setFront]
  refine ⟨_, mem_normalise_of_apart hm fun x hx => not_mergeable_of_pc ?_, rfl, rfl⟩
  obtain ⟨hx, hmask⟩ := List.mem_filter.mp hx
  obtain ⟨z, hz, rfl⟩ := List.mem_map.mp hx
  exact Ne.symm (hapart z hz fun heq => by simp [heq] at hmask)

end Forms

/-! ### The obligations -/

/-- Settles O31: all three branch by the same operation, and differ in the lanes that take it. -/
theorem branchForms : Obligations.BranchForms := by
  unfold Obligations.BranchForms
  intro h f s g e ho
  refine ⟨fun hi hok => ?bra, fun hi hok => ?brany, fun hi hok => ?brall⟩
  case bra => exact branch_moves hi ho (exec_bra hi) hok
  case brany => exact branch_moves hi ho (exec_brany hi) hok
  case brall => exact branch_moves hi ho (exec_brall hi) hok

/-- Settles O32: a call and a return send the lanes that pass to one place, an indirect branch each to its own. -/
theorem callForms : Obligations.CallForms := by
  unfold Obligations.CallForms
  refine ⟨fun h f s g e ho => ⟨fun hi h0 hroom hok => ?call, fun ls rp pr rest hstack hls hi hok => ?ret⟩,
    fun h f s g e hi ho hok => ?brx⟩
  case call =>
    have hx := exec_call hi h0
    rw [if_neg (Nat.not_le.mpr hroom)] at hx
    have hok : (Iss.mk' s g e (.call h f)).targetOk (e.targetOf h f.off14) = true := hok
    rw [hok] at hx
    exact moves_split hi ho hx fun _ => rfl
  case ret =>
    have hpop : popCall e.stack = some (rp, pr, rest) := hstack ▸ popCall_append hls rp pr rest
    by_cases h0 : e.guarded g h = 0
    · refine moves_past hi ho (exec_ret_none hi h0) fun l => if_neg ?_
      change ¬(e.guarded g h).has l = true
      rw [h0, Mask.has_zero]
      exact Bool.false_ne_true
    · have hx := exec_ret_called hi h0 hpop
      rw [hok] at hx
      exact moves_split hi ho hx fun _ => rfl
  case brx => exact brx_moves hi ho hok

/-- Settles O33: a loop moves its whole entry; past a sequence the end test decides; `yield` completes as every sequence does, and its
entry, where no other stands at its place, keeps its flag. -/
theorem loopForms : Obligations.LoopForms := by
  unfold Obligations.LoopForms
  refine ⟨fun h f s g e => ⟨fun hi ho => ⟨fun hn hok => ?skip, fun hn hroom => ?enter⟩, ?atEnd, ?within⟩,
    fun h s g e ho => ⟨fun hi => ?rfpt, fun hm hi => ?yield⟩⟩
  case skip =>
    have hx := exec_loop_skip hi hn
    have hok : (Iss.mk' s g e (.loop h f)).targetOk (e.targetOf h f.off14 + 4) = true := hok
    rw [hok] at hx
    exact moves_whole hi ho hx fun _ => rfl
  case enter =>
    have hx := exec_loop_enter hi hn
    rw [if_neg (Nat.not_le.mpr hroom)] at hx
    exact moves_whole hi ho hx fun _ => rfl
  case atEnd =>
    intro st fin w n t hstack hlo hnext
    refine ⟨fun hn => Entry.advance_of_endTest ?_, fun hn ht => Entry.advance_of_endTest ?_⟩
    · rw [hstack]
      exact endTest_again hlo hnext hn
    · rw [hstack]
      exact endTest_leave hlo hnext hn ht
  case within =>
    intro st fin w n t hstack hout
    refine Entry.advance_of_endTest ?_
    rw [hstack]
    exact endTest_inside hout
  case rfpt => exact ends_of (issue_next hi _) hi ho rfl rfl rfl
  case yield => exact yield_ends hi ho hm

/-- Settles O34: each clause is the branch of its form that traps. -/
theorem controlTraps : Obligations.ControlTraps := by
  unfold Obligations.ControlTraps
  refine ⟨fun h f fl s g e => ⟨fun hi h0 hbad => ?bra, fun hi h0 hbad => ?brany, fun hi h0 hbad => ?brall,
    fun hroom hi h0 hbad => ?call, fun hi h0 hfull => ?callFull, fun ls rp pr rest hstack hls hi h0 hbad => ?ret,
    fun hi h0 hnone => ?retNone, fun hi hn hbad => ?skip, fun hi hn hfull => ?loopFull⟩,
    fun h f s g e l0 hi hbad hfirst => ?brx, fun s g e i t => Iss.targetOk_iff _ t⟩
  case bra => exact branch_traps (exec_bra hi) h0 hbad
  case brany => exact branch_traps (exec_brany hi) h0 hbad
  case brall => exact branch_traps (exec_brall hi) h0 hbad
  case call =>
    have hx := exec_call hi h0
    have hbad : (Iss.mk' s g e (.call h f)).targetOk (e.targetOf h f.off14) = false := hbad
    rw [if_neg (Nat.not_le.mpr hroom), hbad] at hx
    exact traps_of hx
  case callFull =>
    have hx := exec_call hi h0
    rw [if_pos hfull] at hx
    exact traps_of hx
  case ret =>
    have hx := exec_ret_called hi h0 (hstack ▸ popCall_append hls rp pr rest)
    rw [hbad] at hx
    exact traps_of hx
  case retNone => exact traps_of (exec_ret_uncalled hi h0 (popCall_of_no_call hnone))
  case skip =>
    have hx := exec_loop_skip hi hn
    have hbad : (Iss.mk' s g e (.loop h fl)).targetOk (e.targetOf h fl.off14 + 4) = false := hbad
    rw [hbad] at hx
    exact traps_of hx
  case loopFull =>
    have hx := exec_loop_enter hi hn
    rw [if_pos hfull] at hx
    exact traps_of hx
  case brx => exact brx_traps hi hbad hfirst

end Sys2Proof.Machine
end

section
/-! PROOFS. Repeats: a register form with a `rep` hint whose registers are all mapped (spec 04 R99, R105, R106), and from it the
obligation on repeated register forms. -/

set_option Elab.async false

namespace Sys2Proof.Machine

/-! ### Registers that are mapped already (R54) -/

/-- The group may write these registers without mapping one more. -/
def State.holds (s : State) (g : Group) (ws : List Nat) : Prop := g.inHandler = true ∨ ∀ r ∈ ws, r ∈ s.mappedRegs g

theorem State.holds_of_subset {s : State} {g : Group} {ws ds : List Nat} (h : s.holds g ws) (hsub : ∀ r ∈ ds, r ∈ ws) : s.holds g ds :=
  h.imp_right fun hall r hr => hall r (hsub r hr)

/-- The gate lets a group write what it holds. -/
theorem regGate_of_holds {s : State} {g : Group} {ws : List Nat} (h : s.holds g ws) : s.regGate g ws = .ok g := by
  rcases h with hh | hall
  · exact if_pos hh
  · by_cases hh : g.inHandler = true
    · exact if_pos hh
    · have hnone : (ws.filter fun r => !(s.mappedRegs g).contains r) = [] :=
        List.filter_eq_nil_iff.mpr fun r hr => by simp [hall r hr]
      refine (if_neg hh).trans (if_pos ?_)
      rw [hnone]
      exact Nat.zero_add _

/-- What the gate may let a group write is among what it is asked for. -/
theorem State.mem_of_mem_fitting {s : State} {g : Group} {ws : List Nat} : ∀ r ∈ s.fitting g ws, r ∈ ws := by
  unfold State.fitting
  refine List.foldlRecOn (motive := fun acc => ∀ r ∈ acc, r ∈ ws) ws _ (fun r hr => absurd hr List.not_mem_nil) ?_
  intro acc hacc a ha r hr
  split at hr
  · exact hacc r hr
  · rcases List.mem_append.mp hr with hr | hr
    · exact hacc r hr
    · exact List.mem_singleton.mp hr ▸ ha

/-! ### What lanes of a register form leave alone -/

namespace Group

theorem v_setV (g : Group) (r l : Nat) (x : Word) : (g.setV r l x).v = g.v ∨ (g.setV r l x).v = AMap.set g.v (32 * r + l) x := by
  unfold setV
  split
  · exact .inl rfl
  · exact .inr rfl

theorem v_setPn (g : Group) (n l : Nat) (b : Bool) : (g.setPn n l b).v = g.v := by
  unfold setPn setP
  dsimp only
  split <;> rfl

/-- A lane's write unmaps no register. -/
theorem mapped_laneWrite (g : Group) (o : Alu) (l : Nat) (x : LaneOut) {r : Nat} (h : r ∈ g.mapped) : r ∈ (g.laneWrite o l x).mapped := by
  have hv : ∃ g1 : Group, (g.laneWrite o l x).v = g1.v ∧ (g1.v = g.v ∨ g1.v = AMap.set g.v (32 * o.d + l) x.val) := by
    refine ⟨if x.noVal || o.nw then g else g.setV o.d l x.val, ?_, ?_⟩
    · unfold laneWrite
      dsimp only
      rw [(raise_surges _ _).1]
      split
      · exact v_setPn ..
      · rfl
    · split
      · exact .inl rfl
      · exact v_setV ..
  obtain ⟨g1, hg1, hset⟩ := hv
  rw [mem_mapped] at h ⊢
  refine h.imp_right fun hkey => ?_
  rw [hg1]
  rcases hset with hset | hset
  · rw [hset]; exact hkey
  · rw [hset, AMap.exists_key_set fun k => k / 32 = r]; exact .inr hkey

theorem entries_laneWrite (g : Group) (o : Alu) (l : Nat) (x : LaneOut) : (g.laneWrite o l x).entries = g.entries := by
  have hraise (g : Group) (fl : Nat) : (g.raise fl).entries = g.entries := by unfold raise; split <;> rfl
  have hsetV (g : Group) (r : Nat) (w : Word) : (g.setV r l w).entries = g.entries := by unfold setV; split <;> rfl
  have hsetP (g : Group) (p : BitVec 16) : (g.setP l p).entries = g.entries := by unfold setP; split <;> rfl
  unfold laneWrite
  dsimp only
  rw [hraise]
  split
  · refine (hsetP ..).trans ?_
    split
    · rfl
    · exact hsetV ..
  · split
    · rfl
    · exact hsetV ..

/-- What every lane's write leaves as it is, the lanes of a form leave as it is. -/
theorem runLanes_keeps {P : Group → Prop} (hP : ∀ g o l x, P g → P (g.laneWrite o l x)) (i : Instr) (o : Alu) (ls : List Nat)
    (g : Group) (h : P g) : P (runLanes i o ls g).1 := by
  induction ls generalizing g with
  | nil => exact h
  | cons l ls ih => exact ih _ (hP g o l _ h)

end Group

/-! ### The repeats (R105) -/

/-- One repeat of a register form. -/
def Iss.repeatOnce (u : Iss) (o : Alu) (g : Group) (j : Nat) : Group :=
  (Group.runLanes u.i (o.step u.i.head.hints.rep j) (g.execMask u.i (if j = u.e.repi then u.act else u.e.mask)).toList g).1

theorem State.holds_laneWrite {s : State} {ws : List Nat} (g : Group) (o : Alu) (l : Nat) (x : LaneOut) (h : s.holds g ws) :
    s.holds (g.laneWrite o l x) ws := by
  refine h.imp (fun hh => ?_) fun hall r hr => ?_
  · rw [Group.inHandler_laneWrite, hh]
  · have hid : (g.laneWrite o l x).id = g.id := Group.SamePlace.id (Group.samePlace_laneWrite g o l x)
    rw [State.mem_mappedRegs, hid]
    exact (State.mem_mappedRegs.mp (hall r hr)).imp_left (Group.mapped_laneWrite g o l x)

/-- A repeat whose register the gate grants runs, and the later ones after it. -/
theorem Iss.runReps_succ {u : Iss} {o : Alu} {n j : Nat} {g : Group} {lg : Bool}
    (h : u.s.regGate g (if (o.step u.i.head.hints.rep j).pd.isSome || (o.step u.i.head.hints.rep j).nw ||
      g.execMask u.i (if j = u.e.repi then u.act else u.e.mask) = 0 then [] else [(o.step u.i.head.hints.rep j).d]) = .ok g) :
    ∃ b, u.runReps o (n + 1) j g lg = u.runReps o n (j + 1) (u.repeatOnce o g j) b := by
  refine ⟨lg || (Group.runLanes u.i (o.step u.i.head.hints.rep j)
    (g.execMask u.i (if j = u.e.repi then u.act else u.e.mask)).toList g).2, ?_⟩
  rw [Iss.runReps]
  dsimp only
  rw [h]
  rfl

/-- Where every repeat writes a register that the group holds, all repeats run, one after the other. -/
theorem Iss.runReps_of_holds {u : Iss} {o : Alu} {ws : List Nat} (n j : Nat) (g : Group) (lg : Bool) (hg : u.s.holds g ws)
    (hws : ∀ k, j ≤ k → k < j + n → o.pd.isSome = false → o.nw = false → (o.step u.i.head.hints.rep k).d ∈ ws) :
    ∃ lg', u.runReps o n j g lg = ((List.range' j n).foldl (u.repeatOnce o) g, lg', none) := by
  induction n generalizing j g lg with
  | zero => exact ⟨lg, rfl⟩
  | succ n ih =>
    have hpd : (o.step u.i.head.hints.rep j).pd = o.pd := by unfold Alu.step; split <;> rfl
    have hnw : (o.step u.i.head.hints.rep j).nw = o.nw := by unfold Alu.step; split <;> rfl
    obtain ⟨b, hb⟩ := Iss.runReps_succ (u := u) (o := o) (n := n) (j := j) (g := g) (lg := lg) <| by
      refine regGate_of_holds (State.holds_of_subset hg fun r hr => ?_)
      generalize g.execMask u.i (if j = u.e.repi then u.act else u.e.mask) = m at hr
      split at hr
      · cases hr
      · next hw =>
        simp only [hpd, hnw, Bool.or_eq_true, not_or, Bool.not_eq_true] at hw
        exact List.mem_singleton.mp hr ▸ hws j (Nat.le_refl j) (by omega) hw.1.1 hw.1.2
    obtain ⟨lg', hrest⟩ := ih (j + 1) (u.repeatOnce o g j) b
      (Group.runLanes_keeps (P := fun g => u.s.holds g ws) State.holds_laneWrite _ _ _ _ hg)
      fun k hk hlt => hws k (by omega) (by omega)
    exact ⟨lg', hb.trans (hrest.trans (by rw [List.range'_succ, List.foldl_cons]))⟩

/-! ### The registers that repeats write (R64, R105) -/

theorem vwrites_of_repeatable {i : Instr} {o : Alu} (h : i.alu = some o) (hrep : i.info.rep = true) : i.vwrites =
    if o.pd.isSome || o.nw then [] else spread ((i.head.hints.rep.map (·.sd)).getD false) i.head.hints.reps o.d := by
  cases i <;> cases h
  case cvt.refl => cases hrep
  all_goals rfl

/-- A form that accepts no `rep` hint is legal without one alone (R64, R77). -/
theorem rep_none_of_legal {i : Instr} (hrep : i.info.rep = false) (hl : i.codesAt none = []) : i.head.hints.rep = none := by
  cases hr : i.head.hints.rep with
  | none => rfl
  | some r => simp [Instr.codesAt, hintCodes, hr, hrep, codeIf] at hl

/-- The register that a repeat of a legal register form writes is one of those its sequence writes. -/
theorem step_d_mem_vwrites {i : Instr} {o : Alu} (h : i.alu = some o) (hl : i.codesAt none = []) (hp : o.pd.isSome = false)
    (hw : o.nw = false) {j : Nat} (hj : j ≤ i.head.hints.reps) : (o.step i.head.hints.rep j).d ∈ i.vwrites := by
  cases hrep : i.info.rep with
  | false =>
    have hnone := rep_none_of_legal hrep hl
    rw [vwrites_alu h hnone hp hw, hnone]
    exact List.mem_singleton.mpr rfl
  | true =>
    rw [vwrites_of_repeatable h hrep, hp, hw]
    change _ ∈ spread _ _ _
    unfold Alu.step spread
    cases hr : i.head.hints.rep with
    | none => exact List.mem_singleton.mpr rfl
    | some r =>
      cases hsd : r.sd with
      | false => simp [hsd]
      | true => simpa [hsd] using by omega

/-! ### No sequence pending (R106) -/

/-- No entry of the group holds an interrupted `rep` sequence. -/
def Group.NonePending (g : Group) : Prop := ∀ x ∈ g.entries, x.repi = 0

namespace Group

variable {g : Group}

theorem NonePending.repi_eq (h : g.NonePending) : g.repi = 0 := by
  have hnone : g.entries.find? (fun e => e.repi != 0) = none := List.find?_eq_none.mpr fun x hx => by simp [h x hx]
  rw [repi, hnone]
  rfl

theorem NonePending.of_entries {g' : Group} (h : g.NonePending) (he : g'.entries = g.entries) : g'.NonePending := by
  unfold NonePending
  rw [he]
  exact h

/-- The frontier of a group in handler mode is the handler's, of which `sr.repi` says nothing. -/
theorem NonePending.setFront (h : g.NonePending) {es : List Entry} (hes : g.inHandler = false → ∀ x ∈ es, x.repi = 0) :
    (g.setFront es).NonePending := by
  cases hf : g.frame with
  | some f => exact h.of_entries (by simp [Group.setFront, hf])
  | none =>
    have hentries : (g.setFront es).entries = es := by simp [Group.setFront, hf]
    unfold NonePending
    rw [hentries]
    exact hes (by simp [inHandler, hf])

theorem front_of_not_inHandler (h : g.inHandler = false) : g.front = g.entries := by
  have hf : g.frame = none := Option.not_isSome_iff_eq_none.mp (by rw [← Group.inHandler, h]; decide)
  simp [front, hf]

/-- A change of every entry that leaves its repeat as it is. -/
theorem NonePending.mapFront (h : g.NonePending) {f : Entry → Entry} (hf : ∀ x, (f x).repi = x.repi) :
    (g.setFront (g.front.map f)).NonePending := by
  refine h.setFront fun hh x hx => ?_
  rw [front_of_not_inHandler hh] at hx
  obtain ⟨y, hy, rfl⟩ := List.mem_map.mp hx
  exact (hf y).trans (h y hy)

theorem entries_applyDead (g : Group) (m : Mask) (rs : List Nat) : (g.applyDead m rs).entries = g.entries := by
  have hkill (r : Nat) (g : Group) (l : Nat) : (g.killV r l).entries = g.entries := by unfold killV; split <;> rfl
  exact foldl_keeps (P := fun x : Group => x.entries = g.entries)
    (fun x r hx => foldl_keeps (P := fun x : Group => x.entries = g.entries) (fun x l hx => (hkill r x l).trans hx) m.toList hx) rs rfl

theorem inHandler_applyDead (g : Group) (m : Mask) (rs : List Nat) : (g.applyDead m rs).inHandler = g.inHandler := by
  have hkill (r : Nat) (g : Group) (l : Nat) : (g.killV r l).inHandler = g.inHandler := by
    unfold killV inHandler; cases g.frame <;> rfl
  exact foldl_keeps (P := fun x : Group => x.inHandler = g.inHandler)
    (fun x r hx => foldl_keeps (P := fun x : Group => x.inHandler = g.inHandler) (fun x l hx => (hkill r x l).trans hx) m.toList hx)
    rs rfl

theorem inHandler_setFront (g : Group) (es : List Entry) : (g.setFront es).inHandler = g.inHandler := by
  unfold Group.setFront inHandler; cases g.frame <;> rfl

end Group

theorem State.surgeReturn_entries (s : State) (g : Group) : (s.surgeReturn g).entries = g.entries := by
  unfold State.surgeReturn; split <;> rfl

theorem Iss.inHandler_close (u : Iss) (g : Group) (dead : List Nat) (y : Bool) (stall : Nat) :
    (u.close g dead y stall).inHandler = g.inHandler := by
  have hreturn : (u.s.surgeReturn ((u.started g).applyDead u.e.mask dead)).inHandler = g.inHandler := by
    rw [Group.inHandler, Iss.surgeReturn_frame]
    exact (Group.inHandler_applyDead ..).trans (Iss.started_inHandler u g)
  unfold Iss.close
  cases y with
  | false => exact hreturn
  | true => exact (Group.inHandler_setFront ..).trans hreturn

theorem Iss.nonePending_close (u : Iss) {g : Group} (h : g.NonePending) (dead : List Nat) (y : Bool) (stall : Nat) :
    (u.close g dead y stall).NonePending := by
  have hstarted : (u.started g).NonePending :=
    (h.mapFront (f := fun e => { e with yielded := false }) fun _ => rfl).of_entries rfl
  have hreturn : (u.s.surgeReturn ((u.started g).applyDead u.e.mask dead)).NonePending :=
    hstarted.of_entries ((State.surgeReturn_entries ..).trans (Group.entries_applyDead ..))
  unfold Iss.close
  cases y with
  | false => exact hreturn.of_entries rfl
  | true =>
    refine Group.NonePending.mapFront (g := { u.s.surgeReturn ((u.started g).applyDead u.e.mask dead) with stall := stall })
      (hreturn.of_entries rfl) fun x => ?_
    split <;> rfl

/-- Merging and sorting leave no entry pending where none was (R94). -/
theorem Entry.repi_normalise {es : List Entry} (h : ∀ x ∈ es, x.repi = 0) : ∀ x ∈ Entry.normalise es, x.repi = 0 := by
  have merged (e : Entry) (he : e.repi = 0) (acc : List Entry) (hacc : ∀ x ∈ acc, x.repi = 0) :
      ∀ x ∈ Entry.mergeInto e acc, x.repi = 0 := by
    induction acc with
    | nil => exact fun x hx => List.mem_singleton.mp hx ▸ he
    | cons a t ih =>
      rw [List.forall_mem_cons] at hacc
      unfold Entry.mergeInto
      split
      · exact List.forall_mem_cons.mpr ⟨hacc.1, hacc.2⟩
      · exact List.forall_mem_cons.mpr ⟨hacc.1, ih hacc.2⟩
  intro x hx
  unfold Entry.normalise at hx
  rw [mem_sort] at hx
  exact List.foldlRecOn (motive := fun acc => ∀ x ∈ acc, x.repi = 0) (es.filter fun e => e.mask ≠ 0) _
    (fun x hx => absurd hx List.not_mem_nil) (fun acc hacc e he => merged e (h e (List.mem_of_mem_filter he)) acc hacc) x hx

/-- A sequence that completes leaves no entry pending where none was. -/
theorem Iss.nonePending_finish (u : Iss) {g : Group} (h : (u.s.group? u.g.id).isSome = true) (hg : g.id = u.g.id) (he : u.e ∈ g.front)
    (ho : Only g u.e) (hn : g.NonePending) : ∃ g', (u.finish g).group? u.g.id = some g' ∧ g'.NonePending := by
  refine ⟨_, u.finishAs_group g u.deads u.y u.stall (fun x => [x.advance u.words]) h hg he ho, ?_⟩
  refine (Iss.nonePending_close _ hn _ _ _).setFront fun hh => ?_
  rw [Iss.inHandler_close] at hh
  refine Entry.repi_normalise fun x hx => ?_
  rcases List.mem_append.mp hx with hx | hx
  · rw [List.mem_singleton.mp hx]; rfl
  · obtain ⟨y, hy, rfl⟩ := List.mem_map.mp (List.mem_of_mem_filter hx)
    rw [Group.front_of_not_inHandler hh] at hy
    exact hn y hy

/-! ### The obligation -/

theorem exec_register_form {i : Instr} {o : Alu} {s : State} {g : Group} {e : Entry} (hform : i.alu = some o) (hi : AtIssue i s g e) :
    exec i s = .next ((Iss.mk' s g e i).runAlu o) := by
  rw [exec_alu hform, aluSeq, issue_next hi]
  refine congrArg _ ((if_neg (by rw [hi.unchained]; decide)).trans ?_)
  rw [hform]

/-- A register form whose registers are all mapped runs its repeats and completes, and may log a shift count (R105, R136). -/
theorem exec_of_holds {i : Instr} {o : Alu} {s : State} {g : Group} {e : Entry} (hform : i.alu = some o) (hi : AtIssue i s g e)
    (hrepi : e.repi = 0) (hheld : s.holds g i.vwrites) : ∃ lg : Bool, exec i s =
      .next (if lg then ((Iss.mk' s g e i).finish (repeated i o (Iss.mk' s g e i) g)).logGroup g 1 0 0 0 e.pc
        else (Iss.mk' s g e i).finish (repeated i o (Iss.mk' s g e i) g)) := by
  have hgate (c : Bool) : s.regGate g (s.fitting g (if c then [] else i.vwrites)) = .ok g := by
    refine regGate_of_holds (State.holds_of_subset hheld fun r hr => ?_)
    have := State.mem_of_mem_fitting r hr
    split at this
    · cases this
    · exact this
  obtain ⟨lg, hreps⟩ := Iss.runReps_of_holds (u := Iss.mk' s g e i) (o := o) (i.head.hints.reps + 1) 0 g false hheld
    fun k _ hk hp hw => step_d_mem_vwrites hform hi.legal hp hw (by omega)
  have hrepeated : (List.range' 0 (i.head.hints.reps + 1)).foldl ((Iss.mk' s g e i).repeatOnce o) g = repeated i o (Iss.mk' s g e i) g := by
    unfold repeated Iss.repeatOnce
    rw [← List.range_eq_range']
    simp only [Iss.mk'_e, Iss.mk'_i, hrepi]
  refine ⟨lg, (exec_register_form hform hi).trans (congrArg _ ?_)⟩
  unfold Iss.runAlu
  simp only [Iss.mk'_i, Iss.mk'_s, Iss.mk'_g, Iss.mk'_e, hgate, hrepi, Nat.sub_zero, hreps, hrepeated]

/-- The repeats of a register form change of the group only registers, predicates and flags. -/
theorem repeated_keeps {P : Group → Prop} (hP : ∀ g o l x, P g → P (g.laneWrite o l x)) (i : Instr) (o : Alu) (u : Iss) {g : Group}
    (h : P g) : P (repeated i o u g) :=
  foldl_keeps (P := P) (fun x _ hx => Group.runLanes_keeps hP _ _ _ x hx) _ h

/-- Settles O13: with every register mapped no repeat meets the gate, so the repeats run in order and the sequence completes. -/
theorem repeatedFormCompletes : Obligations.RepeatedFormCompletes := by
  unfold Obligations.RepeatedFormCompletes
  intro i o s g e hform hi ho hrepi hheld u
  obtain ⟨lg, hx⟩ := exec_of_holds hform hi hrepi hheld
  have hplace : SamePlace g (repeated i o u g) :=
    repeated_keeps (P := fun x => SamePlace g x) (fun g o l x h => Group.SamePlace.trans h (Group.samePlace_laneWrite g o l x)) i o u rfl
  have hfront : (repeated i o u g).front = g.front :=
    repeated_keeps (P := fun x => x.front = g.front) (fun g o l x h => (Group.front_laneWrite g o l x).trans h) i o u rfl
  have hentries : (repeated i o u g).entries = g.entries :=
    repeated_keeps (P := fun x => x.entries = g.entries) (fun g o l x h => (Group.entries_laneWrite g o l x).trans h) i o u rfl
  have hs : (s.group? g.id).isSome = true := by rw [hi.here]; rfl
  have he : e ∈ (repeated i o u g).front := hfront ▸ select_mem hi.entry
  have ho' : Only (repeated i o u g) e := fun x hx => ho x (hfront ▸ hx)
  obtain ⟨g', hg', honly, hclosed, hpast⟩ := u.finish_past (repeated i o u g) hs (Group.SamePlace.id hplace) he ho'
  rw [Iss.deads_mk'] at hclosed
  refine ⟨u.finish (repeated i o u g), _, g', hx, ?_, hg', honly, hclosed, fun hothers => ?_, hpast⟩
  · cases lg
    · exact .inl rfl
    · exact .inr rfl
  · have hnone : g.NonePending := fun x hx => by
      by_cases hxe : x = e
      · rw [hxe, hrepi]
      · exact hothers x hx hxe
    obtain ⟨g2, hg2, hn⟩ := u.nonePending_finish hs (Group.SamePlace.id hplace) he ho' (hnone.of_entries hentries)
    cases hg'.symm.trans hg2
    exact hn.repi_eq

end Sys2Proof.Machine
end

section
/-! PROOFS. Work: what the lane of an `exit` takes with it (spec 14 R368), and from it the obligation on `launch`, `emit`, `exit` and
`await`. -/

set_option Elab.async false

namespace Sys2Proof.Machine

/-! ### A lane leaves (R368) -/

/-- Of a map in ascending order, the keys that pass a test keep their values. -/
theorem AMap.get?_filter_key {α : Type} (p : Nat → Bool) (m : AMap α) (lo k : Nat) (hm : AMap.ascFrom lo m = true) :
    AMap.get? (m.filter fun c => p c.1) k = if p k then AMap.get? m k else none := by
  induction m generalizing lo with
  | nil => split <;> rfl
  | cons c t ih =>
    obtain ⟨j, v⟩ := c
    simp only [AMap.ascFrom, Bool.and_eq_true, decide_eq_true_eq] at hm
    have ih := ih (j + 1) hm.2
    have below (h : k ≤ j) : AMap.get? t k = none := AMap.get?_below t (j + 1) k (by omega) hm.2
    rw [List.filter_cons]
    rcases Nat.lt_trichotomy k j with hlt | rfl | hgt
    · split <;> simp [AMap.get?, hlt, hlt.ne, ih, below hlt.le]
    · split <;> simp_all [AMap.get?]
    · split <;> simp [AMap.get?, hgt.not_gt, hgt.ne', ih]

/-- What the refuted clause lacks is that the group's registers are listed in order: with that, a lane that leaves takes the
registers of no other lane with it. -/
theorem Group.getV_dropLane {g : Group} (hf : g.frame = none) (hv : AMap.ascFrom 0 g.v = true) {l k : Nat} (hk : k < 32) (hne : k ≠ l)
    (r : Nat) : (g.dropLane l).getV r k = g.getV r k := by
  have hlane : (32 * r + k) % 32 = k := by omega
  have hread (g : Group) (hf : g.frame = none) : g.getV r k = (AMap.get? g.v (32 * r + k)).getD 0 := by
    unfold getV AMap.getD
    rw [hf]
  have hkeys : AMap.get? (g.dropLane l).v (32 * r + k) = AMap.get? g.v (32 * r + k) := by
    refine (AMap.get?_filter_key (fun n => decide (n % 32 ≠ l)) g.v 0 (32 * r + k) hv).trans (if_pos ?_)
    rw [hlane]
    exact decide_eq_true hne
  rw [hread _ hf, hread (g.dropLane l) hf, hkeys]

/-! ### The counterexample -/

namespace UnlistedRegister

/-- An entry of lane 0 alone. -/
def entry : Entry := { pc := 0, mask := 1 }

/-- A group whose registers are not listed in order: v2 of lane 0 stands before v1 of lane 1, which is therefore not found. -/
def group : Group := { id := 1, gang := 0, die := 0, cluster := 0, core := 0, entries := [entry], v := [(32 * 2 + 0, 5), (32 * 1 + 1, 7)] }

def state : State := { State.reset with groups := [group], cur := 1 }

theorem atIssue : AtIssue (.exit {}) state group entry where
  group := rfl
  entry := rfl
  unchained := rfl
  legal := rfl
  allowed := nofun
  quiet := nofun
  free := rfl

theorem only : Only group entry := fun _ hx _ => List.mem_singleton.mp hx

/-- Register v1 of lane 1 of the group after a step that goes on. -/
def registerAfter : Out → Option Word
  | .next t => (t.group? 1).map fun g => g.getV 1 1
  | _ => none

/-- It reads zero before the exit of lane 0, and 7 after it, since what stood before it is gone. -/
theorem register_before : group.getV 1 1 = 0 := by decide

theorem register_after : registerAfter (exec (.exit {}) state) = some 7 := by decide +kernel

end UnlistedRegister

/-! ### The obligation -/

open UnlistedRegister in
/-- Refutes O48, in its clause that an `exit` leaves the registers of the other lanes as they are: the clause asks that items and
predicates are listed in order but not that registers are, so it speaks also of a group in which a register of the lane that leaves
hides one of another lane. -/
theorem not_workForms : ¬ Obligations.WorkForms := by
  unfold Obligations.WorkForms
  rintro ⟨-, -, -, hexit, -⟩
  obtain ⟨-, hends⟩ := hexit {} state group entry atIssue only
  obtain ⟨t, g', ht, hg', -, -, -, hothers, -⟩ := hends (by decide +kernel) rfl rfl rfl rfl
  obtain ⟨-, -, hregisters⟩ := hothers 1 (by decide) (by decide +kernel)
  have hafter := register_after
  rw [ht, registerAfter, show t.group? 1 = some g' from hg', Option.map_some, hregisters 1, register_before] at hafter
  exact absurd hafter (by decide)

end Sys2Proof.Machine
end

section
/-! PROOFS. Chains: what a chain's later lanes read after a `dead` hint of an earlier lane (spec 04 R100, R102-R104, spec 02 R54), and
from it the obligation on chains. -/

set_option Elab.async false

namespace Sys2Proof.Machine

/-! ### Fetching the second member (R102) -/

theorem State.members_one {s : State} {g : Group} {a : Nat} {ws : List (BitVec 32)} {d : Decoded} (hf : s.fetchSeq g a = .ok ws)
    (hd : decodeWords ws = some d) : s.members g 1 a = .ok [d] := by
  simp only [State.members, hf, hd]

/-! ### The counterexample -/

namespace HiddenRegister

/-- `cmp` sets p0 where v1 is 0; its `dead` hint frees v2, and a member follows. -/
def first : Instr := .cmp { hints := { chain := some 1, dead := some { hi := false, mask := 4 } } } { cond := 0, pd := 0, a := .v 1, b := .const 0 }

/-- `mov` writes v3 where p0 holds. -/
def second : Instr := .mov { guard := some { p := 0, ps := false } } { nw := false, d := 3, a := .const 0 }

def entry : Entry := { pc := placeVa + 64, mask := 3 }

/-- Lanes 0 and 1 of a group whose v1 is not 0 in either; its registers are not listed in order, and v2 of lane 0 hides v1 of lane 1,
which therefore reads 0 until v2 of lane 0 is freed. -/
def group : Group :=
  { id := 3, gang := 2, die := 0, cluster := 0, core := 0, entries := [entry], v := [(32 * 1 + 0, 1), (32 * 2 + 0, 5), (32 * 1 + 1, 7)] }

/-- The stage allows the group the two registers that it has mapped, and no third. -/
def stage : Stage :=
  { kobj := placeVa, entry := 64, refill := 0, thresh := 32, rpri := 0, codesz := 64, steady := 0, peak := 2, store := 0, groups := 1, span := 1 }

/-- The chain's words stand at the group's PC, which issues next. -/
def state : State :=
  let s := State.reset.placed 0
  { s with
    groups := [group], launches := s.launches.map fun l => { l with stages := [stage] }
    mem := Memory.writeN s.mem (placePa + 64) 16 ((encode first ++ encode second).foldr (fun w x => w.toNat + 2 ^ 32 * x) 0) }

/-- What follows the first member. -/
def member : Decoded := { instr := some second, codes := [], words := 1 }

/-- The chain as its lanes run it one after the other. -/
def run : ChainRun := ChainRun.lanes (chainMembers first entry [member]) state.draw (entry.restart.getD entry.mask).toList { g := group }

theorem second_fetched : state.members group 1 (entry.pc + 4 * (first.head.hints.count + 1)) = .ok [member] :=
  State.members_one (ws := encode second) (by decide +kernel) (by decide +kernel)

theorem atIssue : ChainAtIssue first state group entry [member] where
  group := by decide +kernel
  entry := rfl
  only := fun _ hx _ => List.mem_singleton.mp hx
  chained := ⟨1, rfl, second_fetched⟩
  legal := by decide +kernel
  allowed := nofun
  free := by decide +kernel

/-- Lane 0 frees its v2, lane 1 then reads its v1, and neither lane writes v3. -/
theorem run_written : run.written = [] := by decide +kernel

theorem run_logs : run.logs = [] := by decide +kernel

/-- Where the entries of the group stand after a step that goes on. -/
def pcsAfter : Out → Option (List Nat)
  | .next t => (t.group? 3).map fun g => g.front.map (·.pc)
  | _ => none

/-- Asked before any lane runs, lane 1 would write v3, a third register: it traps, and the entry stays. -/
theorem entry_stays : pcsAfter (exec first state) = some [entry.pc] := by decide +kernel

end HiddenRegister

/-! ### The obligation -/

open HiddenRegister in
/-- Refutes O14: it lets the chain complete where the registers that its lanes write can be mapped, as they write them one after the
other. The chain asks the gate for each lane's registers before any lane runs. The two agree where a lane's `dead` hint changes no
register of another lane, which needs the group's registers to be listed in order (`Group.getV_applyDead`), and the statement does not
ask for that. -/
theorem not_chainCompletes : ¬ Obligations.ChainCompletes := by
  unfold Obligations.ChainCompletes
  intro h
  obtain ⟨hcompletes, -⟩ := h first _ state group group entry [member] rfl atIssue
  have hlast : ∀ x, (chainMembers first entry [member]).getLast? = some x → x.1.isStore = false := by
    intro x hx
    cases hx
    rfl
  obtain ⟨t, g', ht, hg', -, -, hpast⟩ := hcompletes hlast (run_written ▸ regGate_nil state group)
  obtain ⟨x, hx, -, hpc, -⟩ := hpast 0 (by decide)
  have hstay := entry_stays
  rw [ht, show (ChainRun.lanes _ _ _ _).logs = [] from run_logs, State.logShifts, List.foldl_nil, pcsAfter,
    show t.group? 3 = some g' from hg', Option.map_some, Option.some.injEq] at hstay
  have hmem : x.pc ∈ [entry.pc] := hstay ▸ List.mem_map_of_mem hx
  rw [hpc] at hmem
  exact absurd hmem (by decide)

end Sys2Proof.Machine
end

section
/-! PROOFS. Elements: what an element of a built value is, bit by bit, and the readings and narrowings of an element (spec 05 R126,
R127). -/

set_option Elab.async false

namespace Sys2Proof.Machine

/-! ### Widths (Table 3.8) -/

theorem typeCount_dvd (t : Nat) : typeCount t ∣ 64 := by
  unfold typeCount
  split <;> decide

theorem typeCount_le (t : Nat) : typeCount t ≤ 16 := by
  unfold typeCount
  split <;> decide

theorem typeWidth_mul_typeCount (t : Nat) : typeWidth t * typeCount t = 64 := Nat.div_mul_cancel (typeCount_dvd t)

/-- No element is narrower than four bits. -/
theorem typeWidth_ge (t : Nat) : 4 ≤ typeWidth t :=
  (Nat.le_div_iff_mul_le (Nat.pos_of_dvd_of_pos (typeCount_dvd t) (by decide))).mpr (Nat.mul_le_mul_left 4 (typeCount_le t))

theorem typeWidth_pos (t : Nat) : 0 < typeWidth t := lt_of_lt_of_le (by decide) (typeWidth_ge t)

/-- The bits of an element lie in its value. -/
theorem elem_bit_lt {t j n : Nat} (hj : j < typeCount t) (hn : n < typeWidth t) : typeWidth t * j + n < 64 := by
  calc typeWidth t * j + n < typeWidth t * j + typeWidth t := Nat.add_lt_add_left hn _
    _ = typeWidth t * (j + 1) := rfl
    _ ≤ typeWidth t * typeCount t := Nat.mul_le_mul_left _ hj
    _ = 64 := typeWidth_mul_typeCount t

/-! ### Elements (R126) -/

theorem elem_lt (x : Word) (t j : Nat) : elem x t j < 2 ^ typeWidth t := Nat.mod_lt _ (Nat.two_pow_pos _)

theorem elem_mod (x : Word) (t j : Nat) : elem x t j % 2 ^ typeWidth t = elem x t j := Nat.mod_eq_of_lt (elem_lt x t j)

theorem testBit_elem (x : Word) (t j : Nat) {n : Nat} (hn : n < typeWidth t) :
    (elem x t j).testBit n = x.getLsbD (typeWidth t * j + n) := by
  rw [elem, Nat.testBit_mod_two_pow, Nat.testBit_shiftRight, decide_eq_true hn, Bool.true_and]
  rfl

/-- Bit `n` of part `j` of a joined value is bit `n` of that part, and 0 beyond the parts. -/
theorem testBit_joinElems {w n : Nat} (hn : n < w) (es : List Nat) (j : Nat) :
    (joinElems w es).testBit (w * j + n) = (es.getD j 0).testBit n := by
  induction es generalizing j with
  | nil => simp [joinElems]
  | cons e es ih =>
    rw [joinElems, Nat.add_comm, Nat.testBit_two_pow_mul_add _ (Nat.mod_lt _ (Nat.two_pow_pos w))]
    cases j with
    | zero => simp [hn]
    | succ j =>
      have hsub : w * (j + 1) + n - w = w * j + n := by rw [Nat.mul_succ]; omega
      rw [if_neg (by rw [Nat.mul_succ]; omega), hsub, ih, List.getD_cons_succ]

/-- An element of a built value is what was put there, modulo its width. -/
theorem elem_buildElems {t j : Nat} (f : Nat → Nat) (hj : j < typeCount t) : elem (buildElems t f) t j = f j % 2 ^ typeWidth t := by
  refine Nat.eq_of_testBit_eq fun n => ?_
  by_cases hn : n < typeWidth t
  · rw [testBit_elem _ _ _ hn, buildElems, BitVec.getLsbD_ofNat, decide_eq_true (elem_bit_lt hj hn), Bool.true_and,
      testBit_joinElems hn, Nat.testBit_mod_two_pow, decide_eq_true hn, Bool.true_and]
    simp [hj]
  · rw [Nat.testBit_lt_two_pow (lt_of_lt_of_le (elem_lt ..) (Nat.pow_le_pow_right (by decide) (Nat.not_lt.mp hn))),
      Nat.testBit_mod_two_pow, decide_eq_false hn, Bool.false_and]

theorem elem_splat {t j : Nat} (e : Nat) (hj : j < typeCount t) : elem (splat t e) t j = e % 2 ^ typeWidth t := elem_buildElems _ hj

/-- An element that a lane's operation computes. -/
theorem LaneOp.elem_build {x : LaneOp} {j : Nat} (f : Nat → Nat) (hj : j < typeCount x.t) (hse : x.se = none ∨ x.se = some j) :
    elem (x.build f) x.t j = f j % 2 ^ typeWidth x.t := by
  unfold LaneOp.build
  rcases hse with hse | hse
  · rw [hse]
    exact elem_buildElems f hj
  · rw [hse]
    refine (elem_buildElems _ hj).trans ?_
    rw [if_pos rfl]

/-- With SE the other elements keep D's. -/
theorem LaneOp.elem_build_other {x : LaneOp} {j k : Nat} (f : Nat → Nat) (hj : j < typeCount x.t) (hse : x.se = some k) (hk : k ≠ j) :
    elem (x.build f) x.t j = elem x.old x.t j := by
  unfold LaneOp.build
  rw [hse]
  refine (elem_buildElems _ hj).trans ?_
  rw [if_neg (Ne.symm hk), elem_mod]

/-! ### Readings and narrowings (R127) -/

theorem wrapTo_lt (w : Nat) (x : Int) : wrapTo w x < 2 ^ w := by
  have hpos : (0 : Int) < (2 ^ w : Nat) := by exact_mod_cast Nat.two_pow_pos w
  have h1 := Int.emod_nonneg x (Int.ne_of_gt hpos)
  have h2 := Int.emod_lt_of_pos x hpos
  unfold wrapTo
  omega

/-- A narrowed value, as an integer. -/
theorem cast_wrapTo (w : Nat) (x : Int) : (wrapTo w x : Int) = x % 2 ^ w := by
  have h : ((2 ^ w : Nat) : Int) = 2 ^ w := by norm_cast
  rw [wrapTo, h]
  exact Int.toNat_of_nonneg (Int.emod_nonneg x (by positivity))

theorem wrapTo_mod (w : Nat) (x : Int) : wrapTo w x % 2 ^ w = wrapTo w x := Nat.mod_eq_of_lt (wrapTo_lt w x)

/-- Values that agree modulo the width narrow alike. -/
theorem wrapTo_congr {w : Nat} {x y : Int} (h : x % 2 ^ w = y % 2 ^ w) : wrapTo w x = wrapTo w y :=
  Int.ofNat_inj.mp ((cast_wrapTo w x).trans (h.trans (cast_wrapTo w y).symm))

theorem wrapTo_natCast {w n : Nat} (h : n < 2 ^ w) : wrapTo w n = n := by
  refine Int.ofNat_inj.mp ((cast_wrapTo w n).trans (Int.emod_eq_of_lt (Int.natCast_nonneg n) ?_))
  exact_mod_cast h

/-- Two's complement as Lean's bit vectors read it. -/
theorem toSigned_eq_toInt {w x : Nat} (hw : 0 < w) (hx : x < 2 ^ w) : toSigned w x = (BitVec.ofNat w x).toInt := by
  have hp : 2 ^ w = 2 * 2 ^ (w - 1) := by rw [← Nat.pow_succ', Nat.succ_eq_add_one, Nat.sub_add_cancel hw]
  rw [BitVec.toInt_eq_toNat_cond, BitVec.toNat_ofNat, Nat.mod_eq_of_lt hx, toSigned]
  by_cases h : 2 ^ (w - 1) ≤ x
  · rw [if_pos h, if_neg (by omega)]
    norm_cast
  · rw [if_neg h, if_pos (by omega)]

theorem wrapTo_eq_ofInt (w : Nat) (x : Int) : wrapTo w x = (BitVec.ofInt w x).toNat := (BitVec.toNat_ofInt x).symm

/-- The range of two's complement. -/
theorem toSigned_range {w x : Nat} (hw : 0 < w) (hx : x < 2 ^ w) : -2 ^ (w - 1) ≤ toSigned w x ∧ toSigned w x ≤ 2 ^ (w - 1) - 1 := by
  rw [toSigned_eq_toInt hw hx]
  have h1 := BitVec.le_toInt (BitVec.ofNat w x)
  have h2 := BitVec.toInt_lt (x := BitVec.ofNat w x)
  exact ⟨h1, by omega⟩

/-- A pattern is what its reading narrows to. -/
theorem wrapTo_toSigned {w x : Nat} (hw : 0 < w) (hx : x < 2 ^ w) : wrapTo w (toSigned w x) = x := by
  rw [toSigned_eq_toInt hw hx, wrapTo_eq_ofInt, BitVec.ofInt_toInt, BitVec.toNat_ofNat, Nat.mod_eq_of_lt hx]

/-- A value in the signed range is read back as it is. -/
theorem toSigned_wrapTo {w : Nat} {x : Int} (hw : 0 < w) (hlo : -2 ^ (w - 1) ≤ x) (hhi : x ≤ 2 ^ (w - 1) - 1) :
    toSigned w (wrapTo w x) = x := by
  rw [toSigned_eq_toInt hw (wrapTo_lt w x), wrapTo_eq_ofInt, BitVec.ofNat_toNat, BitVec.setWidth_eq]
  exact BitVec.toInt_ofInt_eq_self hw hlo (by omega)

/-- Widening `k` bits of two's complement repeats the top one. -/
theorem testBit_wrapTo_toSigned {w k x n : Nat} (hk : 0 < k) (hx : x < 2 ^ k) (hn : n < w) :
    (wrapTo w (toSigned k x)).testBit n = if n < k then x.testBit n else x.testBit (k - 1) := by
  have h : wrapTo w (toSigned k x) = ((BitVec.ofNat k x).signExtend w).toNat := by
    rw [toSigned_eq_toInt hk hx, wrapTo_eq_ofInt]; rfl
  rw [h, BitVec.testBit_toNat, BitVec.getLsbD_signExtend, decide_eq_true hn, Bool.true_and, BitVec.msb_eq_getLsbD_last,
    BitVec.getLsbD_ofNat, BitVec.getLsbD_ofNat, decide_eq_true (by omega : k - 1 < k), Bool.true_and]
  by_cases hnk : n < k <;> simp [hnk]

end Sys2Proof.Machine
end

section
/-! PROOFS. Integer lanes: each integer form is one exact operation, narrowed by wrap or by sat (spec 05 R127, R131-R134), and from it
the obligation on integer lanes. -/

set_option Elab.async false

namespace Sys2Proof.Machine

/-! ### Saturation (R127) -/

theorem satTo_lt (t : Nat) (v : Int) : satTo t v < 2 ^ typeWidth t := wrapTo_lt _ _

/-- Comparing with one end after the other clamps. -/
theorem clamp_eq {lo hi : Int} (h : lo ≤ hi) (v : Int) : (if v < lo then lo else if hi < v then hi else v) = max lo (min hi v) := by
  split_ifs <;> omega

/-- A saturated value reads as the exact value clamped to the signed range. -/
theorem readElem_satTo_signed {t : Nat} (h : typeSigned t = true) (v : Int) :
    readElem t (satTo t v) = max (-2 ^ (typeWidth t - 1)) (min (2 ^ (typeWidth t - 1) - 1) v) := by
  have hp : (0 : Int) < 2 ^ (typeWidth t - 1) := by positivity
  have hsat : satTo t v = wrapTo (typeWidth t) (max (-2 ^ (typeWidth t - 1)) (min (2 ^ (typeWidth t - 1) - 1) v)) := by
    rw [satTo]
    simp only [h, if_true]
    push_cast
    rw [clamp_eq (by omega)]
  rw [readElem, if_pos h, hsat]
  exact toSigned_wrapTo (typeWidth_pos t) (by omega) (by omega)

/-- A saturated value reads as the exact value clamped to the unsigned range. -/
theorem readElem_satTo_unsigned {t : Nat} (h : typeSigned t = false) (v : Int) :
    readElem t (satTo t v) = max 0 (min (2 ^ typeWidth t - 1) v) := by
  have hp : (0 : Int) < 2 ^ typeWidth t := by positivity
  have hsat : satTo t v = wrapTo (typeWidth t) (max 0 (min (2 ^ typeWidth t - 1) v)) := by
    rw [satTo]
    simp only [h, Bool.false_eq_true, if_false]
    push_cast
    rw [clamp_eq (by omega)]
  rw [readElem, if_neg (by rw [h]; exact Bool.false_ne_true), hsat, cast_wrapTo]
  exact Int.emod_eq_of_lt (by omega) (by omega)

/-! ### The forms (Table 5.2) -/

/-- A form of Table 5.2 and R132-R134 is its exact operation on every computed element, narrowed as the form says. -/
theorem lane_of_exactForm {i : Instr} {x : LaneOp} {F : Int → Int → Int → Int} (h : exactForm (typeWidth x.t) i = some F) :
    i.lane x = x.arith (saturates x.sat i) F := by
  cases i <;> cases h <;> simp only [Instr.lane, saturates]
  case mulh =>
    have hdiv (a b : Int) : (a * b).fdiv (2 ^ typeWidth x.t) = a * b / (2 ^ typeWidth x.t : Nat) := by
      rw [Int.fdiv_eq_ediv_of_nonneg _ (by positivity)]
      norm_cast
    simp only [laneMulh, hdiv]
  case min => simp only [laneMin, min_def]
  case max => simp only [laneMax, max_def]
  case abs =>
    have habs (a : Int) : |a| = if a < 0 then -a else a := by
      split_ifs with ha
      · exact abs_of_neg ha
      · exact abs_of_nonneg (not_lt.mp ha)
    simp only [laneAbs, habs]
  case sad =>
    have habs (a b : Int) : |a - b| = if a < b then b - a else a - b := by
      split_ifs with hab
      · rw [abs_of_neg (Int.sub_neg_of_lt hab), neg_sub]
      · exact abs_of_nonneg (Int.sub_nonneg_of_le (not_lt.mp hab))
    simp only [laneSad, habs]
  all_goals rfl

/-- A computed element of an exact operation. -/
theorem elem_arith {x : LaneOp} {sat : Bool} {F : Int → Int → Int → Int} {j : Nat} (hj : j < typeCount x.t)
    (hse : x.se = none ∨ x.se = some j) : elem (x.arith sat F).val x.t j =
      if sat then satTo x.t (F (readElem x.t (elem x.a x.t j)) (readElem x.t (elem x.b x.t j)) (readElem x.t (elem x.c x.t j)))
      else wrapTo (typeWidth x.t)
        (F (readElem x.t (elem x.a x.t j)) (readElem x.t (elem x.b x.t j)) (readElem x.t (elem x.c x.t j))) := by
  refine (LaneOp.elem_build _ hj hse).trans (Nat.mod_eq_of_lt ?_)
  dsimp only
  split
  · exact satTo_lt _ _
  · exact wrapTo_lt _ _

/-- Settles O17: every form is an exact operation on elements, whose narrowing is wrap or the clamp. -/
theorem integerLanes : Obligations.IntegerLanes := by
  unfold Obligations.IntegerLanes
  intro i x j F hF _ hj w v r
  have hr : r = elem (x.arith (saturates x.sat i) F).val x.t j := by rw [← lane_of_exactForm hF]
  refine ⟨fun k hk hne => hr.trans (LaneOp.elem_build_other _ hj hk hne), fun hse => ⟨elem_lt _ _ _, ?_, ?_, ?_⟩⟩
  · intro hsat
    rw [hr, elem_arith hj hse, hsat, if_neg Bool.false_ne_true, cast_wrapTo]
    exact Int.emod_eq_emod_iff_emod_sub_eq_zero.mp (Int.emod_emod_of_dvd v dvd_rfl)
  · intro hsat hsigned
    rw [hr, elem_arith hj hse, hsat, if_pos rfl]
    exact readElem_satTo_signed hsigned v
  · intro hsat hunsigned
    rw [hr, elem_arith hj hse, hsat, if_pos rfl]
    exact readElem_satTo_unsigned hunsigned v

end Sys2Proof.Machine
end

section
/-! PROOFS. Shift and bit lanes: shifts, rotations, bit counts, fields, byte permutes and extension, bit by bit (spec 05 R136-R141), and
from them the obligations on both. -/

set_option Elab.async false

namespace Sys2Proof.Machine

/-! ### Shifts and rotations (R136) -/

/-- A computed element of a shift. -/
theorem elem_shift {x : LaneOp} {f : Nat → Nat → Nat → Nat} {g : Nat → Nat → Nat} {j : Nat} (hj : j < typeCount x.t)
    (hse : x.se = none ∨ x.se = some j) : elem (x.shift f g).val x.t j =
      (if x.count j < typeWidth x.t then f (typeWidth x.t) (elem x.a x.t j) (x.count j)
        else g (typeWidth x.t) (elem x.a x.t j)) % 2 ^ typeWidth x.t :=
  LaneOp.elem_build _ hj hse

/-- Multiplying by a power at or above the width leaves nothing of it. -/
theorem mul_two_pow_mod_of_le {w c : Nat} (a : Nat) (h : w ≤ c) : a * 2 ^ c % 2 ^ w = 0 :=
  Nat.mod_eq_zero_of_dvd (dvd_mul_of_dvd_right (pow_dvd_pow 2 h) a)

/-- The floor of a signed pattern over a power at or above its width: its sign alone is left. -/
theorem toSigned_ediv_of_le {w a c : Nat} (hw : 0 < w) (ha : a < 2 ^ w) (h : w ≤ c) :
    toSigned w a / 2 ^ c = if toSigned w a < 0 then -1 else 0 := by
  obtain ⟨hlo, hhi⟩ := toSigned_range hw ha
  have hle : (2 : Int) ^ (w - 1) ≤ 2 ^ c := pow_le_pow_right₀ (by norm_num) (by omega)
  split_ifs with hneg
  · exact Int.ediv_eq_neg_one_of_neg_of_le hneg (by omega)
  · exact Int.ediv_eq_zero_of_lt (by omega) (by omega)

theorem wrapTo_neg_one (w : Nat) : wrapTo w (-1) = 2 ^ w - 1 := by
  have hpos := Nat.two_pow_pos w
  have hw : wrapTo w (-1) = wrapTo w ((2 ^ w - 1 : Nat) : Int) := by
    refine wrapTo_congr ?_
    push_cast [hpos]
    rw [sub_eq_neg_add, Int.add_emod_right]
  rw [hw, wrapTo_natCast (by omega)]

section Rotation

variable {w a c : Nat} (hc : c < w) (ha : a < 2 ^ w)
include hc

theorem two_pow_split : 2 ^ w = 2 ^ c * 2 ^ (w - c) := by
  rw [← Nat.pow_add, Nat.add_sub_cancel' (Nat.le_of_lt hc)]

/-- Of a pattern rotated left by `c` below its width, the bits that stay stand above those that come round. -/
theorem rotated_eq : a * 2 ^ c % 2 ^ w + a / 2 ^ (w - c) = 2 ^ c * (a % 2 ^ (w - c)) + a / 2 ^ (w - c) := by
  rw [two_pow_split hc, Nat.mul_comm a, Nat.mul_mod_mul_left]

include ha

theorem rotated_low_lt : a / 2 ^ (w - c) < 2 ^ c :=
  Nat.div_lt_of_lt_mul (by rw [Nat.mul_comm, ← two_pow_split hc]; exact ha)

/-- Bit `k` of a pattern rotated left by `c` below its width stands at (k + c) mod w. -/
theorem testBit_rotated {k : Nat} (hk : k < w) :
    (a * 2 ^ c % 2 ^ w + a / 2 ^ (w - c)).testBit ((k + c) % w) = a.testBit k := by
  rw [rotated_eq hc, Nat.testBit_two_pow_mul_add _ (rotated_low_lt hc ha)]
  by_cases hwrap : k + c < w
  · rw [Nat.mod_eq_of_lt hwrap, if_neg (by omega), Nat.testBit_mod_two_pow, decide_eq_true (by omega), Bool.true_and,
      Nat.add_sub_cancel]
  · have hmod : (k + c) % w = k + c - w := by rw [Nat.mod_eq_sub_mod (by omega), Nat.mod_eq_of_lt (by omega)]
    have hplace : k + c - w + (w - c) = k := by omega
    rw [hmod, if_pos (by omega), Nat.testBit_div_two_pow, hplace]

theorem rotated_lt : a * 2 ^ c % 2 ^ w + a / 2 ^ (w - c) < 2 ^ w := by
  rw [rotated_eq hc, two_pow_split hc]
  calc 2 ^ c * (a % 2 ^ (w - c)) + a / 2 ^ (w - c) < 2 ^ c * (a % 2 ^ (w - c)) + 2 ^ c :=
        Nat.add_lt_add_left (rotated_low_lt hc ha) _
    _ = 2 ^ c * (a % 2 ^ (w - c) + 1) := (Nat.mul_succ ..).symm
    _ ≤ 2 ^ c * 2 ^ (w - c) := Nat.mul_le_mul_left _ (Nat.mod_lt _ (Nat.two_pow_pos _))

end Rotation

section Shift

variable {x : LaneOp} {j : Nat} (hj : j < typeCount x.t) (hse : x.se = none ∨ x.se = some j)
include hj hse

theorem elem_laneShl : elem (laneShl x).val x.t j = elem x.a x.t j * 2 ^ x.count j % 2 ^ typeWidth x.t := by
  refine (elem_shift hj hse).trans ?_
  split
  · exact Nat.mod_mod _ _
  · rw [mul_two_pow_mod_of_le _ (by omega), Nat.zero_mod]

theorem elem_laneShr : elem (laneShr x).val x.t j = elem x.a x.t j / 2 ^ x.count j := by
  have ha := elem_lt x.a x.t j
  refine (elem_shift hj hse).trans ?_
  split
  · exact Nat.mod_eq_of_lt (lt_of_le_of_lt (Nat.div_le_self _ _) ha)
  · next hc =>
    rw [Nat.div_eq_of_lt (lt_of_lt_of_le ha (Nat.pow_le_pow_right (by decide) (Nat.not_lt.mp hc)))]
    exact Nat.zero_mod _

theorem elem_laneSar : elem (laneSar x).val x.t j = wrapTo (typeWidth x.t) (toSigned (typeWidth x.t) (elem x.a x.t j) / 2 ^ x.count j) := by
  refine (elem_shift hj hse).trans ?_
  split
  · rw [wrapTo_mod]; norm_cast
  · next hc =>
    rw [toSigned_ediv_of_le (typeWidth_pos _) (elem_lt ..) (Nat.not_lt.mp hc)]
    have hpos := Nat.two_pow_pos (typeWidth x.t)
    split_ifs
    · rw [wrapTo_neg_one, Nat.mod_eq_of_lt (by omega)]
    · exact (Nat.zero_mod _).trans (wrapTo_natCast (n := 0) hpos).symm

theorem testBit_elem_laneRot {k : Nat} (hk : k < typeWidth x.t) :
    (elem (laneRot x).val x.t j).testBit ((k + x.count j) % typeWidth x.t) = (elem x.a x.t j).testBit k := by
  have hc : x.count j % typeWidth x.t < typeWidth x.t := Nat.mod_lt _ (typeWidth_pos _)
  have hrot : elem (laneRot x).val x.t j = _ := LaneOp.elem_build _ hj hse
  rw [hrot, Nat.mod_eq_of_lt (rotated_lt hc (elem_lt ..)), ← Nat.add_mod_mod]
  exact testBit_rotated hc (elem_lt ..) hk

end Shift

/-- Settles O18: each shift is its arithmetic on a computed element, a count at or above the width taken apart from a lesser one; the
opcodes, words and types are those of the definitions. -/
theorem shiftLanes : Obligations.ShiftLanes := by
  unfold Obligations.ShiftLanes
  intro h f x j _ hj hse w c a
  refine ⟨elem_laneShl hj hse, elem_laneShr hj hse, elem_laneSar hj hse, fun k hk => testBit_elem_laneRot hj hse hk,
    fun fi => ⟨rfl, rfl, rfl, rfl⟩, fun fi => ?_⟩
  simp only [List.forall_mem_cons, List.not_mem_nil, false_imp_iff, implies_true, and_true]
  refine ⟨?shl, ?shr, ?sar, ?rot⟩
  all_goals exact ⟨rfl, rfl, rfl, rfl, rfl, rfl, rfl, rfl⟩

/-! ### Bit counts (R138) -/

/-- A computed element of an element-wise operation whose result fits. -/
theorem elem_map3 {x : LaneOp} {f : Nat → Nat → Nat → Nat} {j : Nat} (hj : j < typeCount x.t) (hse : x.se = none ∨ x.se = some j) :
    elem (x.map3 f).val x.t j = f (elem x.a x.t j) (elem x.b x.t j) (elem x.c x.t j) % 2 ^ typeWidth x.t :=
  LaneOp.elem_build _ hj hse

theorem clzN_le (w x : Nat) : clzN w x ≤ w := by
  unfold clzN
  split <;> omega

/-- The leading zeros of a pattern that is not zero count down to its highest one. -/
theorem clzN_bounds {w x : Nat} (hx : x < 2 ^ w) (h0 : x ≠ 0) : 2 ^ (w - 1 - clzN w x) ≤ x ∧ x < 2 ^ (w - clzN w x) := by
  have hlog : Nat.log2 x < w := (Nat.log2_lt h0).mpr hx
  have h1 : w - 1 - clzN w x = Nat.log2 x := by rw [clzN, if_neg h0]; omega
  have h2 : w - clzN w x = Nat.log2 x + 1 := by rw [clzN, if_neg h0]; omega
  rw [h1, h2]
  exact ⟨Nat.log2_self_le h0, Nat.lt_log2_self⟩

theorem popcN_eq_countP (w x : Nat) : popcN w x = (List.range w).countP x.testBit := List.countP_eq_length_filter.symm

theorem popcN_le (w x : Nat) : popcN w x ≤ w := (List.length_filter_le ..).trans_eq List.length_range

theorem brevN_succ (w x : Nat) : brevN (w + 1) x = 2 * brevN w x + b2n (x.testBit w) := by
  unfold brevN
  rw [List.range_succ, List.foldl_append]
  rfl

theorem brevN_lt (w x : Nat) : brevN w x < 2 ^ w := by
  induction w with
  | zero => exact Nat.one_pos
  | succ w ih =>
    have hb : b2n (x.testBit w) ≤ 1 := by unfold b2n; split <;> omega
    rw [brevN_succ, Nat.pow_succ]
    omega

theorem testBit_brevN {w k : Nat} (x : Nat) (hk : k < w) : (brevN w x).testBit k = x.testBit (w - 1 - k) := by
  induction w generalizing k with
  | zero => omega
  | succ w ih =>
    rw [brevN_succ]
    cases k with
    | zero => cases hx : x.testBit w <;> simp [b2n, hx, Nat.testBit_zero]
    | succ k =>
      have hdiv : (2 * brevN w x + b2n (x.testBit w)) / 2 = brevN w x := by unfold b2n; split <;> omega
      rw [Nat.testBit_succ, hdiv, ih (by omega)]
      congr 1; omega

/-! ### Fields (R139) -/

/-- A field of `k` bits from `pos`, zero- or sign-extended to a width. -/
theorem testBit_field {w a pos k n : Nat} (signed : Bool) (hk : 0 < k) (hn : n < w) :
    (if signed then wrapTo w (toSigned k (a / 2 ^ pos % 2 ^ k)) else a / 2 ^ pos % 2 ^ k).testBit n =
      if n < k then a.testBit (pos + n) else signed && a.testBit (pos + k - 1) := by
  have hlt : a / 2 ^ pos % 2 ^ k < 2 ^ k := Nat.mod_lt _ (Nat.two_pow_pos k)
  have hbit (m : Nat) (hm : m < k) : (a / 2 ^ pos % 2 ^ k).testBit m = a.testBit (pos + m) := by
    rw [Nat.testBit_mod_two_pow, decide_eq_true hm, Bool.true_and, Nat.testBit_div_two_pow, Nat.add_comm]
  cases signed with
  | true =>
    rw [if_pos rfl, testBit_wrapTo_toSigned hk hlt hn, Bool.true_and]
    refine ite_congr rfl (hbit n) fun _ => (hbit (k - 1) (by omega)).trans ?_
    congr 1; omega
  | false =>
    rw [if_neg Bool.false_ne_true, Bool.false_and]
    by_cases hnk : n < k
    · rw [if_pos hnk, hbit n hnk]
    · rw [if_neg hnk, Nat.testBit_lt_two_pow (lt_of_lt_of_le hlt (Nat.pow_le_pow_right (by decide) (Nat.not_lt.mp hnk)))]

/-- A pattern whose `k` bits from `pos` are those of another, all its other bits as they were. -/
theorem testBit_replaced (b c pos k n : Nat) :
    (b - b / 2 ^ pos % 2 ^ k * 2 ^ pos + c % 2 ^ k * 2 ^ pos).testBit n =
      if pos ≤ n ∧ n < pos + k then c.testBit (n - pos) else b.testBit n := by
  have hb : b = 2 ^ pos * (2 ^ k * (b / 2 ^ pos / 2 ^ k) + b / 2 ^ pos % 2 ^ k) + b % 2 ^ pos := by
    rw [Nat.div_add_mod, Nat.div_add_mod]
  have hnew : b - b / 2 ^ pos % 2 ^ k * 2 ^ pos + c % 2 ^ k * 2 ^ pos =
      2 ^ pos * (2 ^ k * (b / 2 ^ pos / 2 ^ k) + c % 2 ^ k) + b % 2 ^ pos := by
    generalize b / 2 ^ pos / 2 ^ k = q at hb ⊢
    generalize b / 2 ^ pos % 2 ^ k = m at hb ⊢
    generalize b % 2 ^ pos = r at hb ⊢
    rw [hb, Nat.mul_add, Nat.mul_add, Nat.mul_comm m, Nat.mul_comm (c % 2 ^ k)]
    omega
  rw [hnew, Nat.testBit_two_pow_mul_add _ (Nat.mod_lt _ (Nat.two_pow_pos pos)),
    Nat.testBit_two_pow_mul_add _ (Nat.mod_lt _ (Nat.two_pow_pos k)), Nat.testBit_mod_two_pow, Nat.testBit_mod_two_pow,
    Nat.testBit_div_two_pow, Nat.testBit_div_two_pow]
  by_cases h1 : n < pos
  · simp [h1, Nat.not_le.mpr h1]
  · by_cases h2 : n < pos + k
    · simp [h1, h2, Nat.not_lt.mp h1, show n - pos < k by omega]
    · have hsum : n - pos - k + k + pos = n := by omega
      simp [h1, h2, show ¬n - pos < k by omega, hsum]

/-! ### Bytes (R140) -/

/-- A byte has its top bit exactly from 128 on. -/
theorem byte_top_iff {y : Nat} (h : y < 256) : 128 ≤ y ↔ y.testBit 7 = true := by
  rw [Nat.testBit_eq_decide_div_mod_eq, decide_eq_true_eq]
  omega

/-- A bit of byte `k` of a word. -/
theorem testBit_byte (x : Word) (k : Nat) {m : Nat} (hm : m < 8) : (x.toNat / 2 ^ (8 * k) % 256).testBit m = x.getLsbD (8 * k + m) := by
  rw [show 256 = 2 ^ 8 from rfl, Nat.testBit_mod_two_pow, decide_eq_true hm, Bool.true_and, Nat.testBit_div_two_pow, Nat.add_comm]
  rfl

/-- A byte, or its sign in every bit. -/
theorem testBit_byte_or_sign (sign : Bool) {y m : Nat} (hy : y < 256) (hm : m < 8) :
    (if sign then (if 128 ≤ y then 255 else 0) else y).testBit m = if sign then y.testBit 7 else y.testBit m := by
  cases sign with
  | false => rfl
  | true =>
    rw [if_pos rfl, if_pos rfl]
    by_cases htop : y.testBit 7 = true
    · rw [if_pos ((byte_top_iff hy).mpr htop), htop, show 255 = 2 ^ 8 - 1 from rfl, Nat.testBit_two_pow_sub_one, decide_eq_true hm]
    · rw [if_neg (fun h => htop ((byte_top_iff hy).mp h)), Nat.zero_testBit, Bool.eq_false_iff.mpr htop]

/-- A bit of a byte permute. -/
theorem getLsbD_lanePrmt (x : LaneOp) {n m : Nat} (hn : n < 8) (hm : m < 8) :
    let sel := x.c.toNat / 2 ^ (4 * n) % 16
    let y (k : Nat) := if sel < 8 then x.a.getLsbD (8 * sel + k) else x.b.getLsbD (8 * (sel - 8) + k)
    (lanePrmt x).val.getLsbD (8 * n + m) = if x.c.getLsbD (32 + n) then y 7 else y m := by
  intro sel y
  let byte := if sel < 8 then x.a.toNat / 2 ^ (8 * sel) % 256 else x.b.toNat / 2 ^ (8 * (sel - 8)) % 256
  have hlt : byte < 256 := by
    unfold byte
    split <;> exact Nat.mod_lt _ (by decide)
  have hbyte (k : Nat) (hk : k < 8) : byte.testBit k = y k := by
    unfold byte y
    split <;> exact testBit_byte _ _ hk
  rw [lanePrmt, BitVec.getLsbD_ofNat, decide_eq_true (by omega), Bool.true_and, testBit_joinElems hm]
  simp only [List.getD_eq_getElem?_getD, List.getElem?_map, List.getElem?_range hn, Option.map_some, Option.getD_some]
  exact (testBit_byte_or_sign (x.c.getLsbD (32 + n)) hlt hm).trans (by rw [hbyte 7 (by decide), hbyte m hm])

/-! ### The obligation on bit lanes -/

/-- A checked shift reports a count out of range in some computed element (R137). -/
theorem log_shift (x : LaneOp) (f : Nat → Nat → Nat → Nat) (g : Nat → Nat → Nat) :
    (x.shift f g).log = true ↔ x.sat = true ∧ ∃ k ∈ x.elems, typeWidth x.t ≤ x.count k := by
  simp only [LaneOp.shift, Bool.and_eq_true, List.any_eq_true, decide_eq_true_eq]

section Bits

variable {x : LaneOp} {j : Nat} (hj : j < typeCount x.t) (hse : x.se = none ∨ x.se = some j)
include hj hse

theorem elem_laneClz : elem (laneClz x).val x.t j = clzN (typeWidth x.t) (elem x.a x.t j) :=
  (elem_map3 hj hse).trans (Nat.mod_eq_of_lt (lt_of_le_of_lt (clzN_le ..) Nat.lt_two_pow_self))

theorem elem_lanePopc : elem (lanePopc x).val x.t j = popcN (typeWidth x.t) (elem x.a x.t j) :=
  (elem_map3 hj hse).trans (Nat.mod_eq_of_lt (lt_of_le_of_lt (popcN_le ..) Nat.lt_two_pow_self))

theorem elem_laneBrev : elem (laneBrev x).val x.t j = brevN (typeWidth x.t) (elem x.a x.t j) :=
  (elem_map3 hj hse).trans (Nat.mod_eq_of_lt (brevN_lt ..))

/-- A bit of an extracted field. -/
theorem testBit_laneBfe {n : Nat} (hn : n < typeWidth x.t) :
    let pos := elem x.b x.t j % 256
    let k := if pos < typeWidth x.t then min (elem x.b x.t j / 256 % 256) (typeWidth x.t - pos) else 0
    (elem (laneBfe x).val x.t j).testBit n = if n < k then (elem x.a x.t j).testBit (pos + n)
      else typeSigned x.t && decide (0 < k) && (elem x.a x.t j).testBit (pos + k - 1) := by
  intro pos k
  have hfield : fieldOf (typeWidth x.t) (elem x.b x.t j) = (pos, k) := rfl
  rw [laneBfe, elem_map3 hj hse, Nat.testBit_mod_two_pow, decide_eq_true hn, Bool.true_and]
  simp only [hfield]
  by_cases hk : k = 0
  · simp [hk]
  · rw [if_neg hk, testBit_field _ (Nat.pos_of_ne_zero hk) hn, decide_eq_true (Nat.pos_of_ne_zero hk), Bool.and_true]

/-- A bit of a value with a field replaced. -/
theorem testBit_laneBfi {n : Nat} (hn : n < typeWidth x.t) :
    let pos := elem x.c x.t j % 256
    let k := if pos < typeWidth x.t then min (elem x.c x.t j / 256 % 256) (typeWidth x.t - pos) else 0
    (elem (laneBfi x).val x.t j).testBit n =
      if pos ≤ n ∧ n < pos + k then (elem x.a x.t j).testBit (n - pos) else (elem x.b x.t j).testBit n := by
  intro pos k
  have hfield : fieldOf (typeWidth x.t) (elem x.c x.t j) = (pos, k) := rfl
  rw [laneBfi, elem_map3 hj hse, Nat.testBit_mod_two_pow, decide_eq_true hn, Bool.true_and]
  simp only [hfield]
  by_cases hk : k = 0
  · rw [if_pos hk, if_neg (by omega)]
  · rw [if_neg hk, testBit_replaced]

end Bits

/-- A bit of a widened half element (R141). -/
theorem testBit_laneExt {x : LaneOp} {j n : Nat} (hj : j < typeCount x.t) (hn : n < typeWidth x.t) :
    (elem (laneExt x).val x.t j).testBit n = if n < typeWidth x.t / 2 then x.a.getLsbD (typeWidth x.t / 2 * j + n)
      else typeSigned x.t && x.a.getLsbD (typeWidth x.t / 2 * j + typeWidth x.t / 2 - 1) := by
  have hhalf : 0 < typeWidth x.t / 2 := by have := typeWidth_ge x.t; omega
  rw [laneExt, elem_buildElems _ hj, Nat.testBit_mod_two_pow, decide_eq_true hn, Bool.true_and]
  exact testBit_field (typeSigned x.t) hhalf hn

/-- Settles O19: each form computes its pattern on a computed element, read bit by bit. -/
theorem bitLanes : Obligations.BitLanes := by
  unfold Obligations.BitLanes
  intro h fu f x j _ hj hse w a r
  have hclz : r (.clz h fu) = clzN w a := elem_laneClz hj hse
  refine ⟨?checked, fun h0 => ?_, fun h0 => ?_, ?_, fun k hk => ?_, fun n hn => testBit_laneBfe hj hse hn,
    fun n hn => testBit_laneBfi hj hse hn, fun n hn m hm => getLsbD_lanePrmt x hn hm, fun _ n hn => testBit_laneExt hj hn⟩
  case checked =>
    simp only [List.forall_mem_cons, List.not_mem_nil, false_imp_iff, implies_true, and_true]
    exact ⟨⟨rfl, log_shift x _ _⟩, ⟨rfl, log_shift x _ _⟩, ⟨rfl, log_shift x _ _⟩⟩
  · rw [hclz, clzN, if_pos h0]
  · rw [hclz]
    exact clzN_bounds (elem_lt ..) h0
  · exact (elem_lanePopc hj hse).trans (popcN_eq_countP ..)
  · exact (congrArg (Nat.testBit · k) (elem_laneBrev hj hse)).trans (testBit_brevN _ hk)

end Sys2Proof.Machine
end

section
/-! PROOFS. Whole-word lanes: logic, selection, moves, addresses and integer compares (spec 05 R135, R142, R143, R146, R148), and from
them the obligation on whole words. -/

set_option Elab.async false

namespace Sys2Proof.Machine

/-! ### Addresses (R148) -/

theorem val_laneLea (x : LaneOp) : (laneLea x).val.toNat = (x.a + (if x.isImm then x.x.signExtend 64 else x.b)).toNat % 2 ^ 56 := by
  refine (BitVec.toNat_ofNat ..).trans (Nat.mod_eq_of_lt ?_)
  exact lt_of_lt_of_le (Nat.mod_lt _ (Nat.two_pow_pos 56)) (by decide)

theorem laneLea_register {x : LaneOp} (h : x.isImm = false) : (laneLea x).val.toNat = (x.a.toNat + x.b.toNat) % 2 ^ 56 := by
  rw [val_laneLea, h, if_neg Bool.false_ne_true, BitVec.toNat_add]
  exact Nat.mod_mod_of_dvd _ (by decide)

theorem laneLea_immediate {x : LaneOp} (h : x.isImm = true) :
    ((laneLea x).val.toNat : Int) = ((x.a.toNat : Int) + x.x.toInt) % 2 ^ 56 := by
  have hx : (x.x.signExtend 64).toInt = x.x.toInt := BitVec.toInt_signExtend_of_le (by decide)
  have hcond := BitVec.toInt_eq_toNat_cond (x.x.signExtend 64)
  rw [hx] at hcond
  rw [val_laneLea, h, if_pos rfl, BitVec.toNat_add]
  split at hcond <;> omega

/-! ### Compares (R143) -/

/-- The elements that a compare looks at. -/
theorem LaneOp.elems_eq (x : LaneOp) : (match x.se with | some k => [k] | none => List.range (typeCount x.t)) = x.elems := by
  unfold LaneOp.elems
  cases x.se <;> rfl

/-- The predicate of a compare, relation by relation. -/
theorem pred_laneCmp (x : LaneOp) :
    let a (j : Nat) := readElem x.t (elem x.a x.t j)
    let b (j : Nat) := readElem x.t (elem x.b x.t j)
    (x.cond = 0 → ((laneCmp x).pred = true ↔ ∀ j ∈ x.elems, a j = b j)) ∧
    (x.cond = 1 → ((laneCmp x).pred = true ↔ ∃ j ∈ x.elems, a j ≠ b j)) ∧
    (x.cond = 2 → ((laneCmp x).pred = true ↔ ∀ j ∈ x.elems, a j < b j)) ∧
    (x.cond = 3 → ((laneCmp x).pred = true ↔ ∀ j ∈ x.elems, b j ≤ a j)) := by
  refine ⟨fun h => ?eq, fun h => ?ne, fun h => ?lt, fun h => ?ge⟩
  all_goals simp [laneCmp, h, condRel]

/-- Settles O20: the values of logic, select and move are the definitions'; sums of addresses and compares are taken case by case. -/
theorem wholeWordLanes : Obligations.WholeWordLanes := by
  unfold Obligations.WholeWordLanes
  refine ⟨fun h f fi fu x => ?_, ?_⟩
  · exact ⟨rfl, rfl, rfl, rfl, rfl, rfl, rfl, rfl, rfl, rfl, laneLea_register, laneLea_immediate⟩
  · intro h f fi x a b js r
    have hjs : js = x.elems := x.elems_eq
    rw [hjs]
    exact ⟨rfl, rfl, rfl, rfl, pred_laneCmp x⟩

end Sys2Proof.Machine
end

section
/-! PROOFS. Operands: what a lane's operation reads, the source flags element by element, and the inline constants (spec 03 R68, R72,
spec 05 R126, R129, spec 06 R156), and from them the obligation on operands. -/

set_option Elab.async false

namespace Sys2Proof.Machine

/-! ### Source flags (R129, R156) -/

theorem modWord_unflagged (t : Nat) (x : Word) : modWord t false false x = x := rfl

/-- An element after its flags, whether or not there are any. -/
theorem elem_modWord {t j : Nat} {n a : Bool} (x : Word) (hj : j < typeCount t) (hflag : (n || a) = true) :
    elem (modWord t n a x) t j = modElem t n a (elem x t j) % 2 ^ typeWidth t := by
  rw [modWord, if_pos hflag]
  exact elem_buildElems _ hj

/-- Narrowing the negation of a narrowed value. -/
theorem wrapTo_neg_wrapTo (w : Nat) (x : Int) : wrapTo w (-(wrapTo w x : Int)) = wrapTo w (-x) := by
  rw [cast_wrapTo]
  exact wrapTo_congr (Int.ModEq.neg (Int.mod_modEq x _))

/-- The absolute value of an integer element, as a pattern. -/
theorem wrapTo_abs {w e : Nat} (he : e < 2 ^ w) :
    (if decide (2 ^ (w - 1) ≤ e) then wrapTo w (-(e : Int)) else e) = wrapTo w |toSigned w e| := by
  have hpow : (e : Int) < 2 ^ w := by exact_mod_cast he
  by_cases h : 2 ^ (w - 1) ≤ e
  · rw [if_pos (decide_eq_true h), toSigned, if_pos h, abs_of_neg (by omega)]
    refine wrapTo_congr ?_
    rw [neg_sub, sub_eq_neg_add, Int.add_emod_right]
  · rw [if_neg (by rw [decide_eq_false h]; exact Bool.false_ne_true), toSigned, if_neg h, abs_of_nonneg (by omega), wrapTo_natCast he]

/-- An integer element after its flags: its absolute value, then its negation, in wrap arithmetic. -/
theorem modElem_integer {t : Nat} (ht : typeFloat t = false) (n a : Bool) {e : Nat} (he : e < 2 ^ typeWidth t) :
    modElem t n a e = wrapTo (typeWidth t)
      ((if n then -1 else 1) * (if a then |toSigned (typeWidth t) e| else toSigned (typeWidth t) e)) := by
  have habs : (if a && decide (2 ^ (typeWidth t - 1) ≤ e) then wrapTo (typeWidth t) (-(e : Int)) else e) =
      wrapTo (typeWidth t) (if a then |toSigned (typeWidth t) e| else toSigned (typeWidth t) e) := by
    cases a with
    | true => exact wrapTo_abs he
    | false => exact (wrapTo_toSigned (typeWidth_pos t) he).symm
  simp only [modElem, ht, Bool.false_eq_true, if_false, habs]
  cases n with
  | true => rw [if_pos rfl, if_pos rfl, neg_one_mul, wrapTo_neg_wrapTo]
  | false => rw [if_neg Bool.false_ne_true, if_neg Bool.false_ne_true, one_mul]

/-- A floating element after its flags: its sign bit cleared, then inverted; its other bits stay. -/
theorem testBit_modElem_float {t m : Nat} (ht : typeFloat t = true) (n a : Bool) (e : Nat) (hm : m < typeWidth t) :
    (modElem t n a e).testBit m = if m = typeWidth t - 1 then ((!a && e.testBit m) != n) else e.testBit m := by
  have hclear : (if a then e % 2 ^ (typeWidth t - 1) else e).testBit m =
      if m = typeWidth t - 1 then (!a && e.testBit m) else e.testBit m := by
    cases a with
    | true =>
      rw [if_pos rfl, Nat.testBit_mod_two_pow]
      by_cases hs : m = typeWidth t - 1
      · rw [if_pos hs, decide_eq_false (by omega)]; rfl
      · rw [if_neg hs, decide_eq_true (by omega), Bool.true_and]
    | false => simp
  simp only [modElem, ht, if_true]
  cases n with
  | true =>
    rw [if_pos rfl, Nat.testBit_xor, hclear, Nat.testBit_two_pow]
    by_cases hs : m = typeWidth t - 1
    · simp [hs]
    · simp [hs, Ne.symm hs]
  | false =>
    rw [if_neg Bool.false_ne_true, hclear]
    simp

theorem typeFloat_of_le {t : Nat} (h : t ≤ 10) : typeFloat t = false := by
  rw [typeFloat, decide_eq_false (by omega), Bool.false_and]

theorem typeFloat_of_range {t : Nat} (h : 11 ≤ t) (h' : t ≤ 20) : typeFloat t = true := by simp [typeFloat, h, h']

/-- A source of an integer type after its flags, element by element. -/
theorem elem_modWord_integer {t j : Nat} (n a : Bool) (x : Word) (ht : t ≤ 10) (hj : j < typeCount t) :
    elem (modWord t n a x) t j = wrapTo (typeWidth t)
      ((if n then -1 else 1) * (if a then |toSigned (typeWidth t) (elem x t j)| else toSigned (typeWidth t) (elem x t j))) := by
  rw [← modElem_integer (typeFloat_of_le ht) n a (elem_lt x t j)]
  by_cases hflag : (n || a) = true
  · rw [elem_modWord x hj hflag, modElem_integer (typeFloat_of_le ht) n a (elem_lt x t j), wrapTo_mod]
  · simp only [Bool.or_eq_true, not_or, Bool.not_eq_true] at hflag
    obtain ⟨rfl, rfl⟩ := hflag
    simp [modElem, typeFloat_of_le ht, modWord_unflagged]

/-- A bit of a source of a floating type after its flags. -/
theorem testBit_modWord_float {t j m : Nat} (n a : Bool) (x : Word) (ht : typeFloat t = true) (hj : j < typeCount t)
    (hm : m < typeWidth t) : (elem (modWord t n a x) t j).testBit m =
      if m = typeWidth t - 1 then ((!a && (elem x t j).testBit m) != n) else (elem x t j).testBit m := by
  by_cases hflag : (n || a) = true
  · rw [elem_modWord x hj hflag, Nat.testBit_mod_two_pow, decide_eq_true hm, Bool.true_and, testBit_modElem_float ht n a _ hm]
  · simp only [Bool.or_eq_true, not_or, Bool.not_eq_true] at hflag
    obtain ⟨rfl, rfl⟩ := hflag
    simp [modWord_unflagged]

/-! ### Inline constants (R72) -/

theorem elem_constWord {c t j : Nat} (hj : j < typeCount t) : elem (constWord c t) t j = constElem c t % 2 ^ typeWidth t :=
  elem_splat _ hj

/-- The constants of an integer type. -/
theorem elem_constWord_integer {t j : Nat} (ht : t < 11) (hj : j < typeCount t) :
    elem (constWord 0 t) t j = 0 ∧ elem (constWord 1 t) t j = 1 ∧ elem (constWord 2 t) t j = 2 % 2 ^ typeWidth t ∧
      elem (constWord 3 t) t j = 2 ^ typeWidth t - 1 := by
  have hfloat : typeFloat t = false := typeFloat_of_le (by omega)
  have hpow : 2 ^ 4 ≤ 2 ^ typeWidth t := Nat.pow_le_pow_right (by decide) (typeWidth_ge t)
  simp only [elem_constWord hj, constElem, hfloat, Bool.false_eq_true, if_false]
  exact ⟨Nat.zero_mod _, Nat.mod_eq_of_lt (by omega), trivial, Nat.mod_eq_of_lt (by omega)⟩

/-- The value of an inline constant in a floating type. -/
def constValue (c t : Nat) : FV := (fltFmt t).unpack (constElem c t % 2 ^ typeWidth t)

/-- The eight constants of a floating type. -/
theorem constValue_eq {t : Nat} (h : 11 ≤ t) (h' : t ≤ 19) :
    (constValue 0 t).isZero = true ∧ (constValue 1 t).eqNum (.fin false 1 0) = true ∧ (constValue 2 t).eqNum (.fin false 1 1) = true ∧
      (constValue 3 t).eqNum (.fin true 1 0) = true ∧ (constValue 4 t).eqNum (.fin false 1 (-1)) = true ∧
      (constValue 5 t).eqNum (.fin false 1 0) = true ∧ (constValue 6 t).eqNum (.fin false 1 1) = true ∧
      (constValue 7 t).eqNum (.fin true 1 0) = true := by
  interval_cases t <;> decide +kernel

/-! ### The obligation -/

/-- Settles O16: the operands are the definition's, source by source; the flags and constants are taken element by element. -/
theorem operandsSeen : Obligations.OperandsSeen := by
  unfold Obligations.OperandsSeen
  refine ⟨fun g i o l lat => ?sources, fun t ht j hj => elem_constWord_integer ht hj, fun t h h' j hj => ?floats⟩
  case floats =>
    intro v
    have hv (c : Nat) : v c = constValue c t := congrArg (fltFmt t).unpack (elem_constWord hj)
    simp only [hv]
    exact constValue_eq h h'
  case sources =>
    intro p x3 flag read
    have hread (k : Nat) (x : Src) : read k x = readSrc g l lat (i.srcs.getD k (.const 0, i.ty)).2 x := by cases x <;> rfl
    refine ⟨?first, ?second, ?third, ?noThird, ?immediate, ?short, ?long, rfl, rfl, modWord_unflagged,
      fun t n a x j ht hj => elem_modWord_integer n a x ht hj, fun t n a x j h h' hj => ?bits⟩
    case first =>
      intro x hx
      simp only [p, Group.laneOp, hx, hread]
      rfl
    case second =>
      intro x himm hx
      simp only [p, Group.laneOp, hx, himm, hread]
      rfl
    case third =>
      intro x hx hv3
      have hx' : i.head.hints.src3 = some x := hx
      have hs3 : i.head.hints.s3 = x.s3 := by rw [Hints.s3, hx']; rfl
      simp [p, Group.laneOp, hx', hs3, hread, hv3]
    case noThird =>
      intro hno hn ha
      have hv3 : flag (·.v3) = false := by
        cases hx : x3 with
        | none => simp [flag, hx]
        | some x => simp [flag, hx, hno x hx]
      change modWord i.ty (flag (·.n3)) (flag (·.a3)) (if flag (·.v3) = true then _ else 0) = 0
      rw [hn, ha, hv3]
      rfl
    case immediate =>
      intro m hm
      simp [p, Group.laneOp, hm]
    case short =>
      intro hnone m hm
      simp [p, Group.laneOp, hm, hnone, immX]
    case long =>
      intro h m hh hm
      simp [p, Group.laneOp, hm, hh, immX]
    case bits =>
      have hfloat := typeFloat_of_range h (by omega : t ≤ 20)
      have hw := typeWidth_pos t
      refine ⟨Nat.eq_of_testBit_eq fun m => ?_, ?_⟩
      · rw [Nat.testBit_mod_two_pow, Nat.testBit_mod_two_pow]
        by_cases hm : m < typeWidth t - 1
        · rw [testBit_modWord_float n a x hfloat hj (by omega), if_neg (by omega)]
        · rw [decide_eq_false hm, Bool.false_and, Bool.false_and]
      · rw [testBit_modWord_float n a x hfloat hj (by omega), if_pos rfl]

end Sys2Proof.Machine
end

section
/-! PROOFS. Register forms: a form without repeats completes in its executing lanes, with its vector register granted or with none to
map (spec 04 R99, R105, spec 05 R126), and from it the obligation on register forms. -/

set_option Elab.async false

namespace Sys2Proof.Machine

section

variable {i : Instr} {o : Alu} {s : State} {g : Group} {e : Entry}

/-- Without repeats, a form that maps no register runs once, in the lanes that execute. -/
theorem exec_of_unmapped (h : RegisterForm i o s g e) (hno : (o.pd.isSome || o.nw || decide ((Iss.mk' s g e i).ex = 0)) = true) :
    exec i s = .next (if (Group.runLanes i o (Iss.mk' s g e i).ex.toList g).2 = true
      then ((Iss.mk' s g e i).finish (Group.runLanes i o (Iss.mk' s g e i).ex.toList g).1).logGroup g 1 0 0 0 e.pc
      else (Iss.mk' s g e i).finish (Group.runLanes i o (Iss.mk' s g e i).ex.toList g).1) := by
  obtain ⟨hrep, hstart⟩ := h.single
  have hreps : i.head.hints.reps = 0 := by unfold Hints.reps; rw [hrep]; rfl
  have hnone (ds : List Nat) : (if (o.pd.isSome || o.nw || decide ((Iss.mk' s g e i).ex = 0)) = true then [] else ds) = [] := if_pos hno
  have hruns : (Iss.mk' s g e i).runReps o 1 0 g false =
      ((Group.runLanes i o (Iss.mk' s g e i).ex.toList g).1, (Group.runLanes i o (Iss.mk' s g e i).ex.toList g).2, none) := by
    have hmask : g.execMask (Iss.mk' s g e i).i (if 0 = (Iss.mk' s g e i).e.repi then (Iss.mk' s g e i).act else
        (Iss.mk' s g e i).e.mask) = (Iss.mk' s g e i).ex := by
      rw [if_pos (show 0 = (Iss.mk' s g e i).e.repi from hstart.symm)]; rfl
    rw [Iss.runReps]
    dsimp only
    rw [hmask, Iss.mk'_i, hrep, Alu.step_none]
    simp only [hnone, regGate_nil, Iss.runReps, Bool.false_or]
  rw [exec_register_form h.form h.issue]
  unfold Iss.runAlu
  simp only [Iss.mk'_i, Iss.mk'_e, Iss.mk'_s, Iss.mk'_g, hreps, hstart, hnone, State.fitting, List.foldl_nil, regGate_nil, Nat.zero_add,
    Nat.sub_zero, hruns]

/-- A form that runs in the lanes of its group, and then completes, writes its lanes. -/
theorem writesLanes_of_run (h : RegisterForm i o s g e)
    (hx : exec i s = .next (if (Group.runLanes i o (Iss.mk' s g e i).ex.toList g).2 = true
      then ((Iss.mk' s g e i).finish (Group.runLanes i o (Iss.mk' s g e i).ex.toList g).1).logGroup g 1 0 0 0 e.pc
      else (Iss.mk' s g e i).finish (Group.runLanes i o (Iss.mk' s g e i).ex.toList g).1)) :
    WritesLanes i o s g e (laneResult i o g) := by
  obtain ⟨g2, hrun, place, front, ordered, hv, hp, hs, hf⟩ := Group.runLanes_spec i o (alu_pd h.form) (Iss.mk' s g e i).ex.toList g
    (Mask.nodup_toList _) fun k hk => Mask.has_lt (Mask.mem_toList.mp hk)
  have hop (l : Nat) : i.lane (g.laneOp i o l []) = laneResult i o g l := rfl
  rw [hrun] at hx
  obtain ⟨g', hg', only, closed, past⟩ := (Iss.mk' s g e i).finish_past g2 (by simp [h.issue.here]) (Group.SamePlace.id place)
    (front.symm ▸ select_mem h.issue.entry) (by intro x hx; exact h.only x (front ▸ hx))
  have listed : (Iss.mk' s g e i).deads = [] ∨ g2.ordered = true := by
    refine h.listed.imp (fun hn => ?_) ordered
    rw [Iss.deads_mk', hn]; rfl
  refine ⟨_, g', hx, hg', only, Group.SamePlace.trans place closed.place, past, ?_, ?_, fun n => (closed.getS n).trans (hs n),
    closed.flags.trans hf⟩
  · intro r l hl
    simp only [closed.getV r l hl listed, hv r l hl, hop, Mask.mem_toList, Alu.written]
    cases (Iss.mk' s g e i).ex.has l <;> cases (laneResult i o g l).noVal <;> cases o.nw <;> simp
  · intro n l _
    have getPn' : g'.getPn n l = g2.getPn n l := by simp only [Group.getPn, closed.getP]
    simp only [getPn', hp, hop, Mask.mem_toList]

end

/-- Settles O12: a form either writes one vector register, which the gate grants, or maps none. -/
theorem registerFormCompletes : Obligations.RegisterFormCompletes := by
  unfold Obligations.RegisterFormCompletes
  intro i o s g e h
  by_cases hno : (o.pd.isSome || o.nw || decide ((Iss.mk' s g e i).ex = 0)) = true
  · exact writesLanes_of_run h (exec_of_unmapped h hno)
  · simp only [Bool.or_eq_true, decide_eq_true_eq, not_or, Bool.not_eq_true] at hno
    obtain ⟨⟨hpd, hnw⟩, hex⟩ := hno
    have w : WritesOne i o s g e :=
      ⟨h.form, h.issue, h.single.1, h.single.2, Option.not_isSome_iff_eq_none.mp (by rw [hpd]; decide), hnw, hex⟩
    obtain ⟨g1, hgate⟩ : Mappable i s g e o.d := by
      refine (h.mapped.resolve_left ?_).resolve_left ?_
      · rw [hpd]; decide
      · rw [hnw]; decide
    rw [if_neg hex] at hgate
    exact w.writesLanes h.only h.listed hgate

end Sys2Proof.Machine
end

section
/-! PROOFS. Special forms: predicate logic, predicate moves and the special registers complete with what they write in their executing
lanes (spec 05 R144-R154), and from them the obligations on each. -/

set_option Elab.async false

namespace Sys2Proof.Machine

/-! ### Writes lane by lane -/

namespace Group

/-- What every lane's write of predicates leaves as it is. -/
structure OnlyPredicates (F : Group → Nat → Group) : Prop where
  place : ∀ g l, SamePlace g (F g l)
  getV : ∀ g l r k, (F g l).getV r k = g.getV r k
  getS : ∀ g l n, (F g l).getS n = g.getS n
  flags : ∀ g l, (F g l).fpflags = g.fpflags
  front : ∀ g l, (F g l).front = g.front

/-- A write of a lane's sixteen predicates is one. -/
theorem onlyPredicates_setP {F : Group → Nat → Group} (h : ∀ g l, ∃ x, F g l = g.setP l x) : OnlyPredicates F := by
  constructor
  all_goals
    intro g l
    obtain ⟨x, hx⟩ := h g l
    rw [hx]
  · exact samePlace_setP g l x
  · exact fun r k => getV_setP ..
  · exact fun n => getS_setP ..
  · exact fpflags_setP ..
  · exact front_setP ..

/-- Predicates after a write in each lane of a list. -/
theorem getPn_foldl {F : Group → Nat → Group} {w : Nat → Nat → Option Bool} {n : Nat}
    (hF : ∀ g l k, (F g l).getPn n k = if k = l then (w n k).getD (g.getPn n k) else g.getPn n k) (ls : List Nat) (g : Group) (k : Nat) :
    (ls.foldl F g).getPn n k = if k ∈ ls then (w n k).getD (g.getPn n k) else g.getPn n k := by
  induction ls generalizing g with
  | nil => simp
  | cons a t ih =>
    rw [List.foldl_cons, ih, hF]
    by_cases ha : k = a
    · subst ha
      cases w n k <;> simp
    · simp [ha]

end Group

section

variable {i : Instr} {s : State} {g : Group} {e : Entry}

/-- An instruction that writes predicates in its executing lanes and completes. -/
theorem givesPredicates_of {F : Group → Nat → Group} {w w' : Nat → Nat → Option Bool} (h : AtIssue i s g e) (ho : Only g e)
    (hx : exec i s = .next ((Iss.mk' s g e i).finish ((Iss.mk' s g e i).ex.toList.foldl F g))) (hF : Group.OnlyPredicates F)
    (hw : ∀ n, n < 16 → ∀ g l k, (F g l).getPn n k = if k = l then (w n k).getD (g.getPn n k) else g.getPn n k)
    (hw' : ∀ n l, n < 16 → w' n l = if (Iss.mk' s g e i).ex.has l = true then w n l else none) : GivesPredicates i s g e w' := by
  have keep {α : Type} (π : Group → α) (hπ : ∀ g l, π (F g l) = π g) : π ((Iss.mk' s g e i).ex.toList.foldl F g) = π g :=
    foldl_keeps (P := fun x => π x = π g) (fun x l hx => (hπ x l).trans hx) _ rfl
  have place : SamePlace g ((Iss.mk' s g e i).ex.toList.foldl F g) := Group.samePlace_foldl F hF.place _ g
  refine ⟨_, ends_of hx h ho rfl (Group.SamePlace.id place) (keep Group.front hF.front), place,
    fun r l _ => keep (·.getV r l) fun g k => hF.getV g k r l, fun n l hn _ => ?_, fun n => keep (·.getS n) fun g k => hF.getS g k n,
    keep Group.fpflags hF.flags⟩
  rw [Group.getPn_foldl (hw n hn), hw' n l hn]
  simp only [Mask.mem_toList]
  split <;> rfl

/-- An instruction that writes one predicate in its executing lanes and completes. -/
theorem givesPredicates_of_writeP {pd : Nat} (hpd : pd < 16) {f : Nat → Bool} {w : Nat → Nat → Option Bool} (h : AtIssue i s g e)
    (ho : Only g e) (hx : exec i s = .next ((Iss.mk' s g e i).writeP pd f))
    (hw : ∀ n l, w n l = if n = pd ∧ (Iss.mk' s g e i).ex.has l = true then some (f l) else none) : GivesPredicates i s g e w := by
  refine givesPredicates_of (w := fun n l => if n = pd then some (f l) else none) h ho hx
    (Group.onlyPredicates_setP fun g l => ⟨_, rfl⟩) (fun n _ g l k => ?_) fun n l _ => ?_
  · rw [Group.getPn_setPn _ _ _ _ _ _ hpd]
    by_cases hn : n = pd <;> by_cases hk : k = l <;> simp [hn, hk]
  · rw [hw]
    by_cases hn : n = pd <;> simp [hn]

/-- A vector register that the gate grants is written in every executing lane. -/
theorem Iss.writeV_of_ok {u : Iss} {d : Nat} {g1 : Group} (f : Nat → Word)
    (h : u.s.regGate u.g (if u.ex = 0 then [] else [d]) = .ok g1) :
    u.writeV d f = u.finish (u.ex.toList.foldl (fun g l => g.setV d l (f l)) g1) := by
  unfold Iss.writeV Iss.withRegs
  rw [h, regGate_ok h]
  rfl

/-- An instruction that writes one vector register in its executing lanes and completes. -/
theorem givesVector_of_writeV {d : Nat} {f : Nat → Word} (h : AtIssue i s g e) (ho : Only g e) (hm : Mappable i s g e d)
    (hx : exec i s = .next ((Iss.mk' s g e i).writeV d f)) :
    GivesVector i s g e d fun l => if (Iss.mk' s g e i).ex.has l = true then some (f l) else none := by
  obtain ⟨g1, hgate⟩ := hm
  have hg1 := regGate_ok hgate
  have place1 : SamePlace g g1 := by rw [hg1]; rfl
  have same {α : Type} (π : Group → α) (hπ : ∀ g l, π (Group.setV g d l (f l)) = π g) (h1 : π g1 = π g) :
      π ((Iss.mk' s g e i).ex.toList.foldl (fun g l => g.setV d l (f l)) g1) = π g :=
    foldl_keeps (P := fun x => π x = π g) (fun x l hx => (hπ x l).trans hx) _ h1
  have place := Group.SamePlace.trans place1
    (Group.samePlace_foldl (fun g l => g.setV d l (f l)) (fun g l => Group.samePlace_setV g d l _) (Iss.mk' s g e i).ex.toList g1)
  rw [Iss.writeV_of_ok f hgate] at hx
  refine ⟨_, ends_of hx h ho rfl (Group.SamePlace.id place) (same Group.front (fun g l => front_setV ..) (by rw [hg1]; rfl)),
    place, fun r l hl => ?_, fun l => same (·.getP l) (fun g k => Group.getP_setV ..) (by rw [hg1]; rfl),
    fun n => same (·.getS n) (fun g k => Group.getS_setV ..) (by rw [hg1]; rfl),
    same Group.fpflags (fun g l => Group.fpflags_setV ..) (by rw [hg1])⟩
  have getV1 : g1.getV r l = g.getV r l := by rw [hg1]; rfl
  rw [Group.getV_foldl_setV _ _ _ _ _ _ (fun k hk => Mask.has_lt (Mask.mem_toList.mp hk)) hl, getV1]
  simp only [Mask.mem_toList]
  by_cases hr : r = d <;> by_cases hex : (Iss.mk' s g e i).ex.has l = true <;> simp [hr, hex]

/-! ### Predicate forms (R144, R145) -/

/-- A two-operand predicate form. -/
theorem givesPredicates_of_predSeq {f : FQ} {op : Bool → Bool → Bool} (hi : exec i s = predSeq i f op s) (h : AtIssue i s g e)
    (ho : Only g e) : GivesPredicates i s g e fun n l =>
      if n = f.pd.toNat ∧ (Iss.mk' s g e i).ex.has l = true then
        some (op (g.getPn f.pa.toNat l != f.n1) (g.getPn f.pb.toNat l != f.n2)) else none :=
  givesPredicates_of_writeP f.pd.isLt h ho (hi.trans (issue_next h _)) fun _ _ => rfl

/-- `movp` to predicates writes one of them, or all sixteen. -/
theorem givesPredicates_of_movp {h : Head} {f : FMovpP} (hi : AtIssue (.movpToPredicates h f) s g e) (ho : Only g e) :
    GivesPredicates (.movpToPredicates h f) s g e fun n l =>
      if (Iss.mk' s g e (.movpToPredicates h f)).ex.has l = true ∧ (f.one = false ∨ n = f.pn.toNat) then
        some (if f.one then readSrc g l [] 0 f.a != 0 else (readSrc g l [] 0 f.a).getLsbD n) else none := by
  have hx := issue_next hi (fun u => u.finish <| u.ex.toList.foldl (fun g l =>
    let a := readSrc u.g l [] 0 f.a
    if f.one then g.setPn f.pn.toNat l (a != 0) else g.setP l (a.truncate 16)) u.g)
  refine givesPredicates_of (w := fun n l => if f.one = false ∨ n = f.pn.toNat then
      some (if f.one then readSrc g l [] 0 f.a != 0 else (readSrc g l [] 0 f.a).getLsbD n) else none) hi ho hx
    (Group.onlyPredicates_setP fun g l => ?_) (fun n hn x l k => ?_) fun n l _ => ?_
  · cases f.one <;> exact ⟨_, rfl⟩
  · cases f.one with
    | true =>
      simp only [if_true, Group.getPn_setPn _ _ _ _ _ _ f.pn.isLt]
      by_cases hp : n = f.pn.toNat <;> by_cases hk : k = l <;> simp [hp, hk]
    | false =>
      simp only [Bool.false_eq_true, if_false, true_or, if_true, Option.getD_some, Group.getPn, Group.getP_setP]
      by_cases hk : k = l
      · simp [hk, hn]
      · simp [hk]
  · by_cases hex : (Iss.mk' s g e (.movpToPredicates h f)).ex.has l = true <;> simp [hex]

/-- Settles O26: each form writes its predicates, or its register, in its executing lanes. -/
theorem predicateForms : Obligations.PredicateForms := by
  unfold Obligations.PredicateForms
  intro h f fu fp fv s g e ho two
  refine ⟨fun hi => givesPredicates_of_predSeq (i := .pand h f) rfl hi ho, fun hi => givesPredicates_of_predSeq (i := .por h f) rfl hi ho,
    fun hi => givesPredicates_of_predSeq (i := .pxor h f) rfl hi ho, ?_, fun hi => givesPredicates_of_movp hi ho, ?_⟩
  · exact fun hi => givesPredicates_of_writeP fu.pd.isLt hi ho (issue_next hi _) fun _ _ => rfl
  · intro i hi hm
    have hval (l : Nat) : (if fv.one then BitVec.ofNat 64 (b2n (g.getPn fv.pn.toNat l)) else (g.getP l).zeroExtend 64) =
        if fv.one then (if g.getPn fv.pn.toNat l then 1 else 0) else (g.getP l).zeroExtend 64 := by
      cases g.getPn fv.pn.toNat l <;> rfl
    simp only [← hval]
    exact givesVector_of_writeV hi ho hm (issue_next hi _)

/-! ### Special registers read (R149-R153) -/

theorem lowLane_of_ne_zero {m : Mask} (h : m ≠ 0) : m.toList.head? = some (lowLane m) := by
  unfold lowLane
  cases hm : m.toList with
  | nil => exact absurd hm (Mask.toList_ne_nil h)
  | cons a t => rfl

theorem Mask.toList_zero : (0 : Mask).toList = [] := rfl

/-- The value that `movs` gives a lane. -/
def movsValue (s : State) (g : Group) (e : Entry) (f : FMovs) (l : Nat) : Word :=
  if f.srn = 0x3F then readSrc g l [] 0 f.a else s.srRead g e l f.srn.toNat

/-- `movs` starts where the results it waits for are written (R153). -/
theorem exec_movs {h : Head} {f : FMovs} (hi : AtIssue (.movs h f) s g e)
    (hw : (f.srn = 0x1B ∨ f.srn = 0x1C) → (Iss.mk' s g e (.movs h f)).allWritten = true) :
    exec (.movs h f) s = .next (
      if f.sd then (Iss.mk' s g e (.movs h f)).finish (if (Iss.mk' s g e (.movs h f)).ex = 0 then g
        else g.setS f.d.toNat (movsValue s g e f (lowLane (Iss.mk' s g e (.movs h f)).ex)))
      else (Iss.mk' s g e (.movs h f)).writeV f.d.toNat (movsValue s g e f)) := by
  have hnum (n : Nat) (hn : n < 64) : f.srn.toNat = n ↔ f.srn = BitVec.ofNat 6 n := by
    rw [← BitVec.toNat_inj, BitVec.toNat_ofNat, Nat.mod_eq_of_lt hn]
  have hval : (fun l => if f.srn.toNat = 0x3F then readSrc g l [] 0 f.a else s.srRead g e l f.srn.toNat) = movsValue s g e f := by
    funext l
    simp only [hnum 0x3F (by decide)]
    rfl
  have hstart : ¬((f.srn.toNat = 0x1B ∨ f.srn.toNat = 0x1C) ∧ (!(Iss.mk' s g e (.movs h f)).allWritten) = true) := by
    rw [hnum 0x1B (by decide), hnum 0x1C (by decide)]
    intro hstop
    rw [hw hstop.1] at hstop
    exact Bool.false_ne_true hstop.2
  refine (issue_next hi _).trans (congrArg _ ((if_neg hstart).trans ?_))
  rw [← hval]
  rfl

/-- `movs` to a scalar register gives it the value of the lowest executing lane, and keeps it where there is none. -/
theorem movs_scalar {h : Head} {f : FMovs} (hi : AtIssue (.movs h f) s g e) (ho : Only g e)
    (hw : (f.srn = 0x1B ∨ f.srn = 0x1C) → (Iss.mk' s g e (.movs h f)).allWritten = true) (hsd : f.sd = true) :
    ∃ g0, Ends (.movs h f) s g e s g0 ∧ SamePlace g g0 ∧ (∀ r l, l < 32 → g0.getV r l = g.getV r l) ∧ (∀ l, g0.getP l = g.getP l) ∧
      g0.fpflags = g.fpflags ∧
      ScalarsAfter g g0 f.d.toNat ((Iss.mk' s g e (.movs h f)).ex.toList.head?.map (movsValue s g e f)) := by
  have hx := exec_movs hi hw
  rw [hsd, if_pos rfl] at hx
  by_cases hex : (Iss.mk' s g e (.movs h f)).ex = 0
  · rw [if_pos hex] at hx
    refine ⟨g, ends_of hx hi ho rfl rfl rfl, rfl, fun _ _ _ => rfl, fun _ => rfl, rfl, fun n => ?_⟩
    rw [hex, Mask.toList_zero]
    exact (ite_self _).symm
  · rw [if_neg hex] at hx
    refine ⟨_, ends_of hx hi ho rfl (Group.SamePlace.id (Group.samePlace_setS ..)) (front_setS ..), Group.samePlace_setS ..,
      fun _ _ _ => Group.getV_setS .., fun _ => Group.getP_setS .., ?_, fun n => ?_⟩
    · unfold Group.setS; split <;> rfl
    · rw [Group.getS_setS, lowLane_of_ne_zero hex]
      rfl

/-- The bits of `sr.supply`: the stock of the stage, and EXH on top (Table 5.7). -/
theorem getLsbD_supply (exh : Bool) (count n : Nat) (hn : n < 64) :
    (BitVec.ofNat 64 (b2n exh * 2 ^ 63 + count % 2 ^ 48)).getLsbD n =
      if n < 48 then count.testBit n else decide (n = 63) && exh := by
  rw [BitVec.getLsbD_ofNat, decide_eq_true hn, Bool.true_and, Nat.mul_comm,
    Nat.testBit_two_pow_mul_add _ (lt_trans (Nat.mod_lt _ (Nat.two_pow_pos 48)) (by decide)), Nat.testBit_mod_two_pow]
  by_cases h48 : n < 48
  · simp [h48, show n < 63 by omega]
  · by_cases h63 : n = 63
    · subst h63
      cases exh <;> rfl
    · simp [h48, h63, show n < 63 by omega]

end

/-- What a lane reads of its item, its place, its die and its group (Tables 5.6, 5.7). -/
theorem srRead_of_item {s : State} {g : Group} (e : Entry) {l : Nat} {it : Item} {d : Die} (hit : AMap.get? g.items l = some it)
    (hd : s.die? g.die = some d) :
    let v := s.srRead g e l
    v 0x00 = it.item0.zeroExtend 64 ∧ v 0x01 = it.item1.zeroExtend 64 ∧ v 0x02 = it.item2.zeroExtend 64 ∧
    v 0x03 = it.itemid.zeroExtend 64 ∧ v 0x04 = BitVec.ofNat 64 it.stage ∧ v 0x11 = BitVec.ofNat 64 d.cyc ∧
    v 0x12 = BitVec.ofNat 64 d.stepG ∧ v 0x13 = BitVec.ofNat 64 d.stepC ∧ v 0x14 = d.ratio ∧
    v 0x1D = BitVec.ofNat 64 (s.srSupply g it.stage) := by
  simp only [State.srRead, hit, hd, Option.getD_some, and_self]

/-- What a lane reads of its loop: the count of the innermost one of its entry. -/
theorem srRead_lcnt (s : State) (g : Group) (e : Entry) (l : Nat) :
    (∀ a b n t, e.stack = .loop a b n :: t → s.srRead g e l 0x18 = n.zeroExtend 64) ∧
    (∀ a p t, e.stack = .call a p :: t → s.srRead g e l 0x18 = 0) ∧ (e.stack = [] → s.srRead g e l 0x18 = 0) := by
  refine ⟨fun a b n t h => ?_, fun a p t h => ?_, fun h => ?_⟩
  all_goals simp only [State.srRead, h]

section Launched

variable {s : State} {g : Group} {ga : Gang} {la : Launch} (hga : s.gang? g.gang = some ga) (hla : s.launch? ga.launch = some la)
include hga hla

theorem groupLaunch?_of_gang : s.groupLaunch? g = some la := by
  simp only [State.groupLaunch?, State.gangLaunch?, hga, Option.bind_some, hla]

theorem groupCtx_of_gang : s.groupCtx g = la.ctx := by
  simp only [State.groupCtx, groupLaunch?_of_gang hga hla, Option.map_some, Option.getD_some]

/-- What a lane reads of its gang, launch and context (Table 5.7). -/
theorem srRead_of_gang (e : Entry) (l : Nat) {c : Context} (hc : s.ctx? la.ctx = some c) :
    let v := s.srRead g e l
    v 0x08 = BitVec.ofNat 64 (ga.pdie * 2 ^ 40 + ga.serial % 2 ^ 40) ∧
    v 0x07 = BitVec.ofNat 64 ((ga.pdie * 2 ^ 40 + ga.serial % 2 ^ 40) * 16 + g.index) ∧
    v 0x09 = BitVec.ofNat 64 (la.queue * 2 ^ 48 + la.seq % 2 ^ 48) ∧ v 0x0A = BitVec.ofNat 64 (la.ctx % 2 ^ 16) ∧
    v 0x1E = BitVec.ofNat 64 c.lens := by
  have hlaunch := groupLaunch?_of_gang hga hla
  have hctx := groupCtx_of_gang hga hla
  have hcontext : s.groupContext? g = some c := by rw [State.groupContext?, hctx, hc]
  simp only [State.srRead, State.srGang, State.srGroup, hga, hlaunch, hctx, hcontext, Option.map_some, Option.getD_some, Gang.sr,
    Launch.sr, true_and]
  exact ⟨rfl, trivial⟩

/-- `sr.supply` as its stock and the condition of EXH. -/
theorem srSupply_of_gang (stage : Nat) : s.srSupply g stage =
    b2n (stage == 0 && (la.stock g.die stage).count == 0 && (!la.deal || la.cores || (la.stock g.die stage).final)) * 2 ^ 63 +
      (la.stock g.die stage).count % 2 ^ 48 := by
  simp only [State.srSupply, groupLaunch?_of_gang hga hla]

/-- The fields of `sr.supply` (Table 5.7). -/
theorem srSupply_fields (stage : Nat) :
    let v := BitVec.ofNat 64 (s.srSupply g stage)
    let k := la.stock g.die stage
    (∀ n, n < 48 → v.getLsbD n = k.count.testBit n) ∧ (∀ n, 48 ≤ n → n < 63 → v.getLsbD n = false) ∧
    (v.getLsbD 63 = true ↔ stage = 0 ∧ k.count = 0 ∧ (la.deal = false ∨ la.cores = true ∨ k.final = true)) := by
  dsimp only
  rw [srSupply_of_gang hga hla]
  refine ⟨fun n hn => ?_, fun n hlo hhi => ?_, ?_⟩
  · rw [getLsbD_supply _ _ _ (by omega), if_pos hn]
  · rw [getLsbD_supply _ _ _ (by omega), if_neg (by omega), decide_eq_false (by omega), Bool.false_and]
  · rw [getLsbD_supply _ _ _ (by decide)]
    simp [and_assoc, or_assoc]

end Launched

/-- Settles O27: `movs` writes its value by its destination, and each register's value is read off its table row. -/
theorem specialMoves : Obligations.SpecialMoves := by
  unfold Obligations.SpecialMoves
  refine ⟨?moves, ?values⟩
  case moves =>
    intro h f s g e i u val hi ho hw
    refine ⟨fun hsd hm => ?_, movs_scalar hi ho hw⟩
    have hx := exec_movs hi hw
    rw [hsd, if_neg Bool.false_ne_true] at hx
    exact givesVector_of_writeV hi ho hm hx
  case values =>
    intro s g e l it d hit hd v
    obtain ⟨h0, h1, h2, h3, h4, h11, h12, h13, h14, h1D⟩ := srRead_of_item e hit hd
    obtain ⟨hloop, hcall, hempty⟩ := srRead_lcnt s g e l
    refine ⟨h0, h1, h2, h3, h4, rfl, rfl, rfl, rfl, rfl, rfl, h11, h12, h13, h14, rfl, rfl, rfl, rfl, rfl, hloop, hcall, hempty, ?_⟩
    intro ga la c hga hla hc
    obtain ⟨h8, h7, h9, hA, hE⟩ := srRead_of_gang hga hla e l hc
    refine ⟨h8, h7, h9, hA, hE, ?_⟩
    rw [show v 0x1D = _ from h1D]
    exact srSupply_fields hga hla it.stage

/-! ### Special registers written (R150, R154) -/

theorem fpmodeOk_iff (a : Word) : fpmodeOk a = true ↔ a &&& ~~~0x1F77#64 = 0 ∧ a.toNat % 8 ≤ 4 := by
  simp only [fpmodeOk, Bool.and_eq_true, beq_iff_eq, decide_eq_true_eq]

theorem fpflagsOk_iff (a : Word) : fpflagsOk a = true ↔ a &&& ~~~0x1F001F#64 = 0 := beq_iff_eq

section Movsw

variable {h : Head} {f : FMovsw} {s : State} {g : Group} {e : Entry}

/-- The value that `movsw` writes: its source in the lowest lane it is issued for. -/
def movswValue (s : State) (g : Group) (e : Entry) (h : Head) (f : FMovsw) : Word :=
  readSrc g (lowLane (Iss.mk' s g e (.movsw h f)).act) [] 0 f.a

theorem exec_movsw_fpmode (hi : AtIssue (.movsw h f) s g e) (hn : f.srn = 0x1A) : exec (.movsw h f) s = .next (
    if fpmodeOk (movswValue s g e h f) then (Iss.mk' s g e (.movsw h f)).finish { g with fpmode := movswValue s g e h f }
    else (Iss.mk' s g e (.movsw h f)).trap { cls := 1, detail := 10, tmask := (Iss.mk' s g e (.movsw h f)).act }) := by
  have hnum : f.srn.toNat = 0x1A := by rw [hn]; rfl
  refine (issue_next hi _).trans ?_
  simp only [hnum]
  rfl

theorem exec_movsw_fpflags (hi : AtIssue (.movsw h f) s g e) (hn : f.srn = 0x1B)
    (hw : (Iss.mk' s g e (.movsw h f)).allWritten = true) : exec (.movsw h f) s = .next (
    if fpflagsOk (movswValue s g e h f) then (Iss.mk' s g e (.movsw h f)).finish { g with fpflags := movswValue s g e h f }
    else (Iss.mk' s g e (.movsw h f)).trap { cls := 1, detail := 10, tmask := (Iss.mk' s g e (.movsw h f)).act }) := by
  have hnum : f.srn.toNat = 0x1B := by rw [hn]; rfl
  refine (issue_next hi _).trans ?_
  simp only [hnum, hw]
  rfl

theorem exec_movsw_syncst (hi : AtIssue (.movsw h f) s g e) (hn : f.srn = 0x1C)
    (hw : (Iss.mk' s g e (.movsw h f)).allWritten = true) : exec (.movsw h f) s = .next (
    (Iss.mk' s g e (.movsw h f)).finish { g with syncst := syncstWrite g.syncst (movswValue s g e h f) }) := by
  have hnum : f.srn.toNat = 0x1C := by rw [hn]; rfl
  refine (issue_next hi _).trans ?_
  simp only [hnum, hw]
  rfl

/-- An entry with the count of its innermost loop replaced. -/
def Entry.withCount (x : Entry) (n : BitVec 32) : Entry :=
  { x with stack := match x.stack with | .loop st fin _ :: t => .loop st fin n :: t | t => t }

theorem exec_movsw_lcnt (hi : AtIssue (.movsw h f) s g e) (hn : f.srn = 0x18) : exec (.movsw h f) s = .next (
    (Iss.mk' s g e (.movsw h f)).finishWith g fun x =>
      [(x.withCount ((movswValue s g e h f).truncate 32)).advance (h.hints.count + 1)]) := by
  have hnum : f.srn.toNat = 0x18 := by rw [hn]; rfl
  refine (issue_next hi _).trans ?_
  simp only [hnum]
  rfl

/-- `movsw` of `sr.lcnt` moves its entry past it with the innermost loop's count replaced (R112). -/
theorem movsw_lcnt_moves (hi : AtIssue (.movsw h f) s g e) (ho : Only g e) (hn : f.srn = 0x18) {st fin : Nat} {n : BitVec 32}
    {t : List CRec} (hstack : e.stack = .loop st fin n :: t) : Moves (.movsw h f) s g e fun _ =>
      let x := Entry.advance { e with stack := .loop st fin ((movswValue s g e h f).truncate 32) :: t } (h.hints.count + 1)
      some (x.pc, e.prio, x.stack) := by
  refine moves_of_parts hi ho (exec_movsw_lcnt hi hn) fun b l hl => ⟨_, List.mem_singleton.mpr rfl, hl, ?_⟩
  simp only [Entry.withCount, hstack]
  rfl

end Movsw

/-- Settles O28: each register's write is one branch of `movsw`, and its check decides between completing and the trap. -/
theorem specialWrites : Obligations.SpecialWrites := by
  unfold Obligations.SpecialWrites
  intro h f s g e i u a hi ho
  refine ⟨fun hn hok => ?_, fun hn hbad => ?_, fun hn hw hok => ?_, fun hn hw hbad => ?_, fun hn hw => ?_,
    fun hn st fin n t hstack => movsw_lcnt_moves hi ho hn hstack⟩
  · exact ends_of ((exec_movsw_fpmode hi hn).trans (congrArg _ (if_pos ((fpmodeOk_iff a).mpr hok)))) hi ho rfl rfl rfl
  · exact traps_of ((exec_movsw_fpmode hi hn).trans (congrArg _ (if_neg (mt (fpmodeOk_iff a).mp hbad))))
  · exact ends_of ((exec_movsw_fpflags hi hn hw).trans (congrArg _ (if_pos ((fpflagsOk_iff a).mpr hok)))) hi ho rfl rfl rfl
  · exact traps_of ((exec_movsw_fpflags hi hn hw).trans (congrArg _ (if_neg (mt (fpflagsOk_iff a).mp hbad))))
  · exact ends_of (exec_movsw_syncst hi hn hw) hi ho rfl rfl rfl

end Sys2Proof.Machine
end

section
/-! PROOFS. Instruction words: the number an instruction word is, and words of the spec's encodings decoded (spec 03 R59, R61, spec 05
R126), and from them the obligation on the spec's words. -/

set_option Elab.async false

namespace Sys2Proof.Machine

/-- An instruction without hints is its one word. -/
theorem encode_of_no_hints {i : Instr} {op : BitVec 8} {x : BitVec 18} (h : i.opBits = some (op, x)) (hh : i.head.hints = {}) :
    encode i = [wordOf i.head.guard op x] := by
  simp only [encode, h, hh]
  rfl

/-- Two fields side by side, as a number. -/
theorem toNat_append_eq {n m : Nat} (x : BitVec n) (y : BitVec m) : (x ++ y).toNat = x.toNat * 2 ^ m + y.toNat := by
  rw [BitVec.toNat_append, ← Nat.shiftLeft_add_eq_or_of_lt y.isLt, Nat.shiftLeft_eq]

/-- The number of an instruction word: its opcode, its format bits and its guard, each in its place (R59). -/
theorem toNat_wordOf (g : Option Guard) (op : BitVec 8) (x : BitVec 18) : (wordOf g op x).toNat = op.toNat * 0x40000 + x.toNat +
    (match g with | none => 0 | some q => 0x80000000 + q.p.toNat * 2 ^ 27 + (if q.ps then 2 ^ 26 else 0)) := by
  cases g with
  | none =>
    simp only [wordOf, toNat_append_eq, BitVec.toNat_ofNat]
    omega
  | some q =>
    simp only [wordOf, toNat_append_eq, BitVec.toNat_ofBool, BitVec.toNat_ofNat]
    cases q.ps with
    | true => rw [Bool.toNat_true, if_pos rfl]; omega
    | false => rw [Bool.toNat_false, if_neg Bool.false_ne_true]; omega

/-- Settles O3: the word's number, and three words decoded. -/
theorem specWordsDecode : Obligations.SpecWordsDecode := by
  unfold Obligations.SpecWordsDecode
  refine ⟨fun i op x h hh => ⟨_, encode_of_no_hints h hh, toNat_wordOf ..⟩, ?_, ?_, ?_⟩
  all_goals decide +kernel

end Sys2Proof.Machine
end

section
/-! PROOFS. Tensor entries: an operand block that can be read now, what its read and the writes of entries leave of the state, and the
word of a probe (spec 07 R207-R209, spec 09 R253, R271), and from them the obligation on `tdef`, `tinv`, `tget` and `tlbp`. -/

set_option Elab.async false

namespace Sys2Proof.Machine

/-! ### The read of an operand block (R207, R244) -/

/-- A touch changes the lines of a die's cache alone. -/
theorem Die.touch_eq (d : Die) (loc : Nat) (dirty : Bool) (cp : Nat) :
    d.touch loc dirty cp = { d with lines := (d.touch loc dirty cp).lines } := by
  unfold Die.touch
  dsimp only
  repeat' split
  all_goals rfl

theorem sameDies_trans {s t u : State} (h : SameDies s t) (k : SameDies t u) : SameDies s u := fun n => (k n).trans (h n)

theorem sameDies_cacheTouch (s : State) (die loc : Nat) (dirty : Bool) (cp : Nat) : SameDies s (s.cacheTouch die loc dirty cp) := by
  intro n
  unfold State.cacheTouch
  split_ifs
  · have hnum (d : Die) (h : d.num = die) : (d.touch loc dirty cp).num = die := by rw [Die.touch_eq]; exact h
    rw [State.die?_updDie s die n _ hnum]
    split_ifs
    · rw [Option.map_map]
      refine congrArg (Option.map · _) (funext fun d => ?_)
      rw [Function.comp_apply, Die.touch_eq]
    · rfl
  · rfl

theorem sameDies_unitTouch (s : State) (die cp : Nat) (dirty : Bool) (ls : List Nat) : SameDies s (s.unitTouch die cp dirty ls) :=
  foldl_keeps (P := SameDies s) (fun t l ht => sameDies_trans ht (sameDies_cacheTouch t die l dirty cp)) _ fun _ => rfl

/-- Nothing need change at all. -/
theorem BlockRead.refl (s : State) : BlockRead s s := ⟨rfl, fun _ => rfl, fun _ h => h⟩

/-- Bytes that have been asked for and performed are given, and their requests are over. -/
theorem State.ask_of_answered {s : State} {q : Asker} {rs : List Nat} (h : s.answered q.owner false (spansOf rs) = true) :
    ∃ t, s.ask q rs [] = (t, true) ∧ BlockRead s t ∧ t.walks = s.walks := by
  have hask : s.askFor q rs [] = (s.endReqs q.owner, true) := if_pos (by rw [h]; rfl)
  have heq := (s.endReqs q.owner).unitTouch_eq q.die q.cp false rs
  have hdies : SameDies s ((s.endReqs q.owner).unitTouch q.die q.cp false rs) :=
    sameDies_unitTouch (s.endReqs q.owner) _ _ _ _
  refine ⟨(s.endReqs q.owner).unitTouch q.die q.cp false rs, ?_, ⟨?_, hdies, fun r hr => ?_⟩, ?_⟩
  · rw [State.ask, hask]
    rfl
  · rw [heq]
    rfl
  · rw [heq] at hr
    exact List.mem_of_mem_filter hr
  · rw [heq]
    rfl

/-- Dropping walks that have been used is part of a block's read (R253). -/
theorem BlockRead.consumeWalks {s t : State} (h : BlockRead s t) (die cl ctx : Nat) : BlockRead s (t.consumeWalks die cl ctx) := by
  obtain ⟨heq, hdies, hreqs⟩ := h
  refine ⟨?_, hdies, hreqs⟩
  rw [State.consumeWalks]
  conv_lhs => rw [heq]

namespace BlockRead

variable {s t : State} (h : BlockRead s t)
include h

theorem mem : t.mem = s.mem := by rw [h.1]
theorem poison : t.poison = s.poison := by rw [h.1]
theorem groups : t.groups = s.groups := by rw [h.1]
theorem ctxs : t.ctxs = s.ctxs := by rw [h.1]
theorem groupCtx (g : Group) : t.groupCtx g = s.groupCtx g := by rw [h.1]; rfl

end BlockRead

/-- An operand block that can be read now is read, and the instruction goes on with its bytes. -/
theorem Iss.withBlock_of_at {u : Iss} {va n loc : Nat} (h : BlockAt u.s u.g va n loc) (k : Iss → Nat → State) :
    ∃ t, BlockRead u.s t ∧ u.withBlock va n k = k { u with s := t } (Memory.readN u.s.mem loc n) := by
  obtain ⟨hpoison, hlink, hanswered, hplace⟩ := h
  obtain ⟨t, hask, hread, -⟩ := State.ask_of_answered (q := { owner := .block u.g.id, die := u.g.die, cluster := u.g.cluster
                                                              port := u.g.core, ctx := u.ctx, part := u.s.groupPart u.g }) hanswered
  have hread' := hread.consumeWalks u.g.die u.g.cluster u.ctx
  have hbad : (t.consumeWalks u.g.die u.g.cluster u.ctx).badTgt 0 loc n = false := by
    rw [State.badTgt, State.poisoned, hread'.poison]
    exact hpoison
  have hbytes : (t.consumeWalks u.g.die u.g.cluster u.ctx).rdTgt 0 loc (va % 2 ^ 56 / n * n) n = Memory.readN u.s.mem loc n := by
    rw [State.rdTgt, if_pos rfl, State.rd, hread'.mem]
  refine ⟨_, hread', ?_⟩
  rcases hplace with ⟨hwin, hxlate⟩ | ⟨hwin, hwindow⟩
  · have hxlate' : u.s.xlate u.g.die u.g.cluster u.ctx (va % 2 ^ 56 / n * n) .read = .ok loc 0 := hxlate
    simp only [Iss.withBlock, hwin, hxlate', hlink, hask, if_true, hbad, hbytes, Bool.false_eq_true, if_false]
  · have hwindow' : ((u.s.gang? u.g.gang).bind fun ga => u.s.windowLoc ga u.ctx (va % 2 ^ 56 / n * n) n) = some loc := hwindow
    cases hcase : winOf (va % 2 ^ 56 / n * n) with
    | translated => exact absurd hcase hwin
    | gang | sram =>
      simp only [Iss.withBlock, hcase, hwindow', hlink, hask, if_true, hbad, hbytes, Bool.false_eq_true, if_false]

/-! ### Entries (R207-R209) -/

theorem State.ent_eq_toNat (s : State) (c t : Nat) : ∃ b : BitVec 512, s.ent c t = b.toNat := by
  unfold State.ent
  cases s.ctx? c with
  | none => exact ⟨0#512, BitVec.toNat_zero.symm⟩
  | some x => exact ⟨_, rfl⟩

theorem State.ctx?_setEnt (s : State) (c t v k : Nat) : (s.setEnt c t v).ctx? k = if k = c
    then (s.ctx? k).map fun x => { x with tensors := AMap.set x.tensors t (BitVec.ofNat 512 v) } else s.ctx? k :=
  State.ctx?_updCtx s c k _ fun _ h => h

/-- In a context that is set up, the entry written reads back, and every other entry stays. -/
theorem State.ent_setEnt {s : State} {c : Nat} (hc : (s.ctx? c).isSome = true) {v : Nat}
    (hv : (BitVec.ofNat 512 v).toNat = v) (t k n : Nat) : (s.setEnt c t v).ent k n = if k = c ∧ n = t then v else s.ent k n := by
  rw [State.ent, State.ctx?_setEnt]
  by_cases hk : k = c
  · subst hk
    obtain ⟨x, hx⟩ := Option.isSome_iff_exists.mp hc
    rw [if_pos rfl, State.ent, hx]
    simp only [Option.map_some, Option.getD_some, AMap.getD_set, true_and]
    split_ifs
    · exact hv
    · rfl
  · rw [if_neg hk, if_neg fun h => hk h.1]
    rfl

theorem entriesAre_of_blockRead {s t : State} (h : BlockRead s t) : EntriesAre s t s.ent := by
  have hctx (c : Nat) : t.ctx? c = s.ctx? c := by rw [State.ctx?, h.ctxs]; rfl
  refine ⟨?_, fun c => by rw [hctx], fun c n => by rw [State.ent, hctx]; rfl⟩
  have hsame : ({ s with ctxs := t.ctxs } : State) = s := by rw [h.ctxs]
  rw [hsame]
  exact h

/-- A write of an entry beside the read of a block. -/
theorem EntriesAre.setEnt {s t : State} {ent : Nat → Nat → Nat} (h : EntriesAre s t ent) {c : Nat} (hc : (t.ctx? c).isSome = true)
    {v : Nat} (hv : (BitVec.ofNat 512 v).toNat = v) (n : Nat) :
    EntriesAre s (t.setEnt c n v) fun k m => if k = c ∧ m = n then v else ent k m := by
  obtain ⟨⟨heq, hdies, hreqs⟩, hctx, hent⟩ := h
  refine ⟨⟨?_, hdies, hreqs⟩, fun k => ?_, fun k m => ?_⟩
  · unfold State.setEnt State.updCtx
    conv_lhs => rw [heq]
  · rw [← hctx, State.ctx?_setEnt]
    split_ifs
    · rw [Option.map_map]
      rfl
    · rfl
  · rw [State.ent_setEnt hc hv, hent]

theorem Memory.readN_lt (m : List Host.Cell) (a n : Nat) : Memory.readN m a n < 2 ^ (8 * n) := by
  induction n generalizing a with
  | zero => exact Nat.one_pos
  | succ n ih =>
    have hbyte := (Memory.read m a).isLt
    have hrest := ih (a + 1)
    rw [Memory.readN, Nat.mul_succ, Nat.pow_add]
    omega

/-- The bytes of an image are all of it. -/
theorem Memory.toNat_ofNat_readN {n w : Nat} (hw : 8 * n = w) (m : List Host.Cell) (a : Nat) :
    (BitVec.ofNat w (Memory.readN m a n)).toNat = Memory.readN m a n := by
  subst hw
  rw [BitVec.toNat_ofNat, Nat.mod_eq_of_lt (Memory.readN_lt ..)]

theorem toNat_ofNat_sub {w : Nat} (b : BitVec w) (k : Nat) : (BitVec.ofNat w (b.toNat - k)).toNat = b.toNat - k := by
  rw [BitVec.toNat_ofNat, Nat.mod_eq_of_lt (lt_of_le_of_lt (Nat.sub_le ..) b.isLt)]

/-- Clearing a bit that is set takes its weight away. -/
theorem testBit_sub_two_pow {x n : Nat} (h : x.testBit n = true) (k : Nat) :
    (x - 2 ^ n).testBit k = (decide (k ≠ n) && x.testBit k) := by
  induction n generalizing x k with
  | zero =>
    rw [Nat.testBit_zero, decide_eq_true_eq] at h
    cases k with
    | zero => simp; omega
    | succ k =>
      have hhalf : (x - 2 ^ 0) / 2 = x / 2 := by omega
      rw [Nat.testBit_succ, hhalf, Nat.testBit_succ]
      simp
  | succ n ih =>
    have hle := Nat.ge_two_pow_of_testBit h
    rw [Nat.testBit_succ] at h
    cases k with
    | zero => simp [Nat.pow_succ]; omega
    | succ k =>
      have hhalf : (x - 2 ^ (n + 1)) / 2 = x / 2 - 2 ^ n := by omega
      rw [Nat.testBit_succ, hhalf, ih h, Nat.testBit_succ]
      simp

/-! ### Entries written, cleared and read -/

section Entries

variable {h : Head} {s : State} {g : Group} {e : Entry}

/-- `tdef` reads its block, and writes the entry where the image's status is 0. -/
theorem exec_tdef {f : FTdef} {loc : Nat} (hi : AtIssue (.tdef h f) s g e) (hb : BlockAt s g (g.getS f.sa.toNat).toNat 64 loc) :
    let img := Memory.readN s.mem loc 64
    ∃ t, BlockRead s t ∧ exec (.tdef h f) s = .next (
      { Iss.mk' s g e (.tdef h f) with
        s := if tdefStatus img = 0 then t.setEnt (s.groupCtx g) f.tid.toNat img else t
        }.finish (g.setS f.sd.toNat (BitVec.ofNat 64 (tdefStatus img)))) := by
  intro img
  obtain ⟨t, hread, hx⟩ := Iss.withBlock_of_at (u := Iss.mk' s g e (.tdef h f)) hb fun u img =>
    { u with s := if tdefStatus img = 0 then u.s.setEnt u.ctx f.tid.toNat img else u.s }.finish
      (u.g.setS f.sd.toNat (BitVec.ofNat 64 (tdefStatus img)))
  have hctx : t.groupCtx g = s.groupCtx g := hread.groupCtx g
  refine ⟨t, hread, (issue_next hi _).trans (congrArg _ (hx.trans ?_))⟩
  rw [← hctx]
  rfl

/-- `tdef` ends with the status in its scalar register, and the entry written where that is 0 (R207). -/
theorem tdef_ends {f : FTdef} {loc : Nat} (hi : AtIssue (.tdef h f) s g e) (ho : Only g e)
    (hc : (s.groupContext? g).isSome = true) (hb : BlockAt s g (g.getS f.sa.toNat).toNat 64 loc) :
    let img := Memory.readN s.mem loc 64
    ∃ t, Ends (.tdef h f) s g e t (g.setS f.sd.toNat (BitVec.ofNat 64 (tdefStatus img))) ∧
      EntriesAre s t fun c n => if tdefStatus img = 0 ∧ c = s.groupCtx g ∧ n = f.tid.toNat then img else s.ent c n := by
  intro img
  obtain ⟨t, hread, hx⟩ := exec_tdef hi hb
  have hsome : (t.ctx? (s.groupCtx g)).isSome = true := by
    rw [State.ctx?, hread.ctxs]
    exact hc
  have himg : (BitVec.ofNat 512 img).toNat = img := Memory.toNat_ofNat_readN (n := 64) rfl s.mem loc
  have hid := Group.SamePlace.id (Group.samePlace_setS g f.sd.toNat (BitVec.ofNat 64 (tdefStatus img)))
  by_cases hst : tdefStatus img = 0
  · rw [if_pos hst] at hx
    refine ⟨_, ends_of hx hi ho hread.groups hid (front_setS ..), ?_⟩
    simp only [hst, true_and]
    exact (entriesAre_of_blockRead hread).setEnt hsome himg f.tid.toNat
  · rw [if_neg hst] at hx
    refine ⟨t, ends_of hx hi ho hread.groups hid (front_setS ..), ?_⟩
    simp only [hst, false_and, if_false]
    exact entriesAre_of_blockRead hread

theorem exec_tinv {f : FTinv} (hi : AtIssue (.tinv h f) s g e) : exec (.tinv h f) s = .next (
    { Iss.mk' s g e (.tinv h f) with
      s := if (s.ent (s.groupCtx g) f.tid.toNat).testBit 63 = true
        then s.setEnt (s.groupCtx g) f.tid.toNat (s.ent (s.groupCtx g) f.tid.toNat - 2 ^ 63) else s }.finish g) := issue_next hi _

/-- An entry with its bit VALID cleared (R208). -/
def Ent.cleared (x : Ent) : Ent := if x.testBit 63 = true then x - 2 ^ 63 else x

theorem Ent.testBit_cleared (x : Ent) (k : Nat) : x.cleared.testBit k = (decide (k ≠ 63) && x.testBit k) := by
  unfold Ent.cleared
  split_ifs with hx
  · exact testBit_sub_two_pow hx k
  · by_cases hk : k = 63
    · subst hk
      simpa using hx
    · simp [hk]

theorem State.ctx?_of_ent_valid {c t : Nat} (hv : (s.ent c t).testBit 63 = true) : (s.ctx? c).isSome = true := by
  by_contra hc
  rw [State.ent, Option.not_isSome_iff_eq_none.mp hc] at hv
  exact absurd hv (by simp)

/-- `tinv` ends with VALID of its entry clear (R208). -/
theorem tinv_ends {f : FTinv} (hi : AtIssue (.tinv h f) s g e) (ho : Only g e) :
    ∃ t, Ends (.tinv h f) s g e t g ∧ EntriesAre s t fun c n =>
      if c = s.groupCtx g ∧ n = f.tid.toNat then (s.ent (s.groupCtx g) f.tid.toNat).cleared else s.ent c n := by
  have hx := exec_tinv hi
  unfold Ent.cleared
  by_cases hv : (s.ent (s.groupCtx g) f.tid.toNat).testBit 63 = true
  · rw [if_pos hv] at hx
    rw [if_pos hv]
    obtain ⟨b, hb⟩ := s.ent_eq_toNat (s.groupCtx g) f.tid.toNat
    exact ⟨_, ends_of hx hi ho rfl rfl rfl, (entriesAre_of_blockRead (.refl s)).setEnt (State.ctx?_of_ent_valid hv)
      (by rw [hb, toNat_ofNat_sub]) f.tid.toNat⟩
  · rw [if_neg hv] at hx
    refine ⟨s, ends_of hx hi ho rfl rfl rfl, ?_⟩
    have hsame : (fun c n => if c = s.groupCtx g ∧ n = f.tid.toNat then s.ent (s.groupCtx g) f.tid.toNat else s.ent c n) = s.ent := by
      funext c n
      split_ifs with hcn
      · rw [hcn.1, hcn.2]
      · rfl
    rw [if_neg hv, hsame]
    exact entriesAre_of_blockRead (.refl s)

/-- The slice of an entry that `tget` gives (R209). -/
theorem tget_gives {f : FTget} (hi : AtIssue (.tget h f) s g e) (ho : Only g e) (hm : Mappable (.tget h f) s g e f.d.toNat) :
    GivesVector (.tget h f) s g e f.d.toNat fun l => if (Iss.mk' s g e (.tget h f)).ex.has l = true then
      some (BitVec.ofNat 64 (s.ent (s.groupCtx g) ((readSrc g l [] 0 f.a).toNat % 256) / 2 ^ (64 * f.w.toNat) % 2 ^ 64)) else none := by
  have hslice (x : Nat) : bits x (64 * f.w.toNat + 63) (64 * f.w.toNat) = x / 2 ^ (64 * f.w.toNat) % 2 ^ 64 := by
    rw [bits_eq_div_mod]
    congr 2
    omega
  simp only [← hslice]
  exact givesVector_of_writeV hi ho hm (issue_next hi _)

end Entries

/-! ### The word of a probe (R271) -/

section Probe

variable {s : State} {g : Group} {va : Nat}

theorem State.probeWord_window (hw : winOf va ≠ .translated) : s.probeWord g va = some (7 * 2 ^ 60) := if_pos hw

/-- The word of a translation that a probe finds. -/
def State.foundWord (s : State) (level pte pa : Nat) : Nat :=
  2 ^ 63 + (4 - level) * 2 ^ 58 + pte / 16 % 4 * 2 ^ 56 + pte / 4 % 2 * 2 ^ 55 +
    (if pte / 16 % 4 = 2 ∧ s.replicated pte = true then 2 ^ 54 else 0) + pa % 2 ^ 52

theorem b2n_eq_toNat (b : Bool) : b2n b = b.toNat := by cases b <;> rfl

/-- A translated address outside the lens table's page is looked up. -/
theorem State.probeWord_of_lookup (hw : winOf va = .translated)
    (hlens : ∀ c, s.groupContext? g = some c → c.lens = 0 ∨ va / 65536 ≠ c.lens / 65536) :
    s.probeWord g va = (s.probe g va).map fun r => match r with
      | .error c => c * 2 ^ 60
      | .ok (level, pte, pa) => s.foundWord level pte pa := by
  have hoff : ¬(((s.groupContext? g).map (·.lens)).getD 0 ≠ 0 ∧ va / 65536 = ((s.groupContext? g).map (·.lens)).getD 0 / 65536) := by
    cases hc : s.groupContext? g with
    | none => exact fun h => h.1 rfl
    | some c => exact fun h => (hlens c hc).elim h.1 (· h.2)
  refine (if_neg (not_not.mpr hw)).trans ((if_neg hoff).trans (congrArg (Option.map · _) (funext fun r => ?_)))
  rcases r with c | ⟨level, pte, pa⟩
  · rfl
  · have hattr : pteAttr pte = pte / 16 % 4 := bits_eq_div_mod ..
    have hbit : b2n (bit pte 2) = pte / 4 % 2 := (b2n_eq_toNat _).trans (Nat.toNat_testBit pte 2)
    have hrepl : b2n (pte / 16 % 4 == 2 && s.replicated pte) * 2 ^ 54 =
        if pte / 16 % 4 = 2 ∧ s.replicated pte = true then 2 ^ 54 else 0 := by simp [b2n]
    simp only [State.foundWord, hattr, hbit, hrepl]

theorem State.probe_unheld (h : s.held g.die g.cluster (s.groupCtx g) va = none) : s.probe g va = none := by
  rw [State.probe, h]
  rfl

end Probe

/-! ### `tlbp` and `tlbp.fill` -/

theorem State.installTlb_groups (s : State) (die cl : Nat) (x : TlbE) : (s.installTlb die cl x).groups = s.groups := by
  unfold State.installTlb
  split_ifs
  · exact State.updCluster_groups ..
  · rfl

/-- The walks that a requester has used are dropped as without its installing a leaf. -/
theorem State.consumeWalks_installTlb (s : State) (die cl ctx : Nat) (x : TlbE) : (s.installTlb die cl x).consumeWalks die cl ctx =
    { s.installTlb die cl x with walks := (s.consumeWalks die cl ctx).walks } := by
  have hwalks : (s.installTlb die cl x).walks = s.walks := by
    unfold State.installTlb
    split_ifs
    · exact State.updCluster_walks ..
    · rfl
  rw [State.consumeWalks, hwalks]
  rfl

section Tlbp

variable {i : Instr} {s : State} {g : Group} {e : Entry} {sd sa : BitVec 4} {fill : Bool}

/-- A probe asks for the walk that its address wants (R253). -/
theorem tlbp_walks (hi : AtIssue i s g e) (hx : exec i s = tlbpSeq i sd sa fill s)
    (hw : s.probeWord g ((g.getS sa.toNat).toNat % 2 ^ 56) = none) : exec i s = .next
      (s.requestWalk g.die g.cluster (s.groupCtx g) ((g.getS sa.toNat).toNat % 2 ^ 56) (s.groupPart g) false) := by
  refine (hx.trans (issue_next hi _)).trans (congrArg _ ?_)
  simp only [Iss.mk'_s, Iss.mk'_g, hw]
  rfl

/-- What `tlbp` leaves in the TLBs: with `fill`, a translation that it found. -/
def State.filled (s : State) (g : Group) (fill : Bool) (va w : Nat) : State :=
  match fill, s.probe g va with
  | true, some (.ok (level, pte, _)) =>
    if winOf va = Win.translated ∧ bit w 63 then s.installTlb g.die g.cluster (leafEntry (s.groupCtx g) va level pte) else s
  | _, _ => s

theorem State.filled_groups (w : Nat) (va : Nat) : (s.filled g fill va w).groups = s.groups := by
  unfold State.filled
  split
  · split_ifs
    · exact State.installTlb_groups ..
    · rfl
  · rfl

theorem State.filled_of_unfound {va w : Nat} (h : fill = false ∨ w < 2 ^ 63) : s.filled g fill va w = s := by
  unfold State.filled
  split
  · refine if_neg fun hbit => ?_
    have hw := Nat.testBit_lt_two_pow (h.resolve_left Bool.noConfusion)
    exact absurd (hw.symm.trans hbit.2) Bool.false_ne_true
  · rfl

theorem State.filled_of_found {va w level pte pa : Nat} (hp : s.probe g va = some (.ok (level, pte, pa)))
    (hwin : winOf va = .translated) (hlo : 2 ^ 63 ≤ w) (hhi : w < 2 ^ 64) :
    s.filled g true va w = s.installTlb g.die g.cluster (leafEntry (s.groupCtx g) va level pte) := by
  simp only [State.filled, hp]
  exact if_pos ⟨hwin, Nat.testBit_of_two_pow_le_and_two_pow_add_one_gt hlo hhi⟩

/-- A probe with a word gives it to its scalar register, having used the walks it waited for. -/
theorem tlbp_ends {w : Nat} (hi : AtIssue i s g e) (ho : Only g e) (hx : exec i s = tlbpSeq i sd sa fill s)
    (hw : s.probeWord g ((g.getS sa.toNat).toNat % 2 ^ 56) = some w) : Ends i s g e
      ((s.filled g fill ((g.getS sa.toNat).toNat % 2 ^ 56) w).consumeWalks g.die g.cluster (s.groupCtx g))
      (g.setS sd.toNat (BitVec.ofNat 64 w)) := by
  refine ends_of ((hx.trans (issue_next hi _)).trans (congrArg _ ?_)) hi ho (State.filled_groups ..)
    (Group.SamePlace.id (Group.samePlace_setS ..)) (front_setS ..)
  simp only [Iss.mk'_s, Iss.mk'_g, hw]
  rfl

theorem exec_tlbp (h : Head) (f : FTlbp) (s : State) : exec (.tlbp h f) s = tlbpSeq (.tlbp h f) f.sd f.sa false s := rfl

theorem exec_tlbpFill (h : Head) (f : FTlbpF) (s : State) : exec (.tlbpFill h f) s = tlbpSeq (.tlbpFill h f) f.sd f.sa true s := rfl

end Tlbp

/-! ### The obligation -/

/-- Settles O40: a block's read and each write of an entry leave what they name, and the probe's word is read off its cases. -/
theorem tensorForms : Obligations.TensorForms := by
  unfold Obligations.TensorForms
  refine ⟨fun h f s g e loc => tdef_ends, ?tinv, fun h f s g e => tget_gives, ?tlbp,
    fun s g va => ⟨State.probeWord_window, fun hw hlens => ?word⟩⟩
  case tinv =>
    intro h f s g e i hi ho
    obtain ⟨t, hends, hread, hctx, hent⟩ := tinv_ends hi ho
    refine ⟨t, hends, ⟨hread, hctx, fun _ _ => rfl⟩, fun k => ?_, fun c n hcn => ?_⟩
    · have hhere : t.ent (s.groupCtx g) f.tid.toNat = _ := (hent ..).trans (if_pos ⟨rfl, rfl⟩)
      rw [hhere, Ent.testBit_cleared]
    · exact (hent c n).trans (if_neg fun hboth => hcn.elim (· hboth.1) (· hboth.2))
  case tlbp =>
    intro h f ff s g e i va sd hmem hi ho
    rcases List.mem_pair.mp hmem with heq | heq <;> obtain ⟨rfl, rfl, rfl⟩ := by simpa only [Prod.mk.injEq] using heq
    · have hx := exec_tlbp h f s
      refine ⟨tlbp_walks hi hx, fun w hw => ⟨fun _ => ?_, fun _ _ _ => nofun⟩⟩
      have hends := tlbp_ends hi ho hx hw
      rwa [State.filled_of_unfound (.inl rfl)] at hends
    · have hx := exec_tlbpFill h ff s
      refine ⟨tlbp_walks hi hx, fun w hw => ⟨fun hlow => ?_, fun level pte pa _ hp hwin hlo hhi => ?_⟩⟩
      · have hends := tlbp_ends hi ho hx hw
        rwa [State.filled_of_unfound (.inr (hlow.resolve_left nofun))] at hends
      · have hends := tlbp_ends hi ho hx hw
        rw [State.filled_of_found hp hwin hlo hhi, State.consumeWalks_installTlb] at hends
        exact ⟨_, hends, rfl⟩
  case word =>
    rw [State.probeWord_of_lookup hw hlens]
    refine ⟨fun hnone => ?_, fun c hc => ?_, fun level pte pa hok _ => ?_⟩
    · rw [State.probe_unheld hnone]
      rfl
    · rw [hc]
      rfl
    · rw [hok]
      rfl

end Sys2Proof.Machine
end

section
/-! PROOFS. Matrix forms: a sequence that parks or holds its pipe, the tag comparison and the descriptors before a matrix operation is
queued, and the signatures of `mma` (spec 02 R52, spec 07 R193-R215), and from them the obligation on the matrix instructions. -/

set_option Elab.async false

namespace Sys2Proof.Machine

/-! ### What an unfinished sequence leaves of its group -/

namespace SameRegisters

theorem trans {a b c : Group} (h : SameRegisters a b) (k : SameRegisters b c) : SameRegisters a c := by
  obtain ⟨hv, hp, hs, hf⟩ := h
  obtain ⟨kv, kp, ks, kf⟩ := k
  exact ⟨fun r l hl => (kv r l hl).trans (hv r l hl), fun l => (kp l).trans (hp l), fun n => (ks n).trans (hs n), kf.trans hf⟩

theorem setFront (g : Group) (es : List Entry) : SameRegisters g (g.setFront es) :=
  ⟨fun r l _ => Iss.setFront_getV g es r l, Iss.setFront_getP g es, Iss.setFront_getS g es, Iss.setFront_fpflags g es⟩

theorem started (u : Iss) (g : Group) : SameRegisters g (u.started g) :=
  ⟨fun r l _ => Iss.started_getV u g r l, Iss.started_getP u g, Iss.started_getS u g, Iss.started_fpflags u g⟩

theorem surgeFall (s : State) (g g' : Group) : SameRegisters g' (s.surgeFall g g') := by
  obtain ⟨b, hb⟩ := s.surgeFall_eq g g'
  rw [hb]
  exact ⟨fun _ _ _ => rfl, fun _ => rfl, fun _ => rfl, rfl⟩

end SameRegisters

theorem State.surgeFall_samePlace (s : State) (g g' : Group) : SamePlace g' (s.surgeFall g g') := by
  obtain ⟨b, hb⟩ := s.surgeFall_eq g g'
  rw [hb]
  rfl

theorem State.surgeFall_front (s : State) (g g' : Group) : (s.surgeFall g g').front = g'.front := by
  obtain ⟨b, hb⟩ := s.surgeFall_eq g g'
  rw [hb]
  rfl

/-- Of the entry at issue, a sequence that has started and stays at it changes what `f` changes. -/
theorem Iss.mem_front_updEntry {u : Iss} {g : Group} (he : u.e ∈ g.front) (f : Entry → Entry) :
    f { u.e with yielded := false } ∈ ((u.started g).updEntry u.e.mask f).front := by
  rw [Group.updEntry, front_setFront, Iss.front_started, List.map_map]
  exact List.mem_map.mpr ⟨u.e, he, if_pos rfl⟩

theorem Iss.samePlace_updEntry (u : Iss) (g : Group) (f : Entry → Entry) : SamePlace g ((u.started g).updEntry u.e.mask f) :=
  Group.SamePlace.trans (Iss.started_samePlace u g) (Group.samePlace_setFront ..)

theorem Iss.sameRegisters_updEntry (u : Iss) (g : Group) (f : Entry → Entry) :
    SameRegisters g ((u.started g).updEntry u.e.mask f) :=
  (SameRegisters.started u g).trans (SameRegisters.setFront ..)

section Issued

variable {i : Instr} {s s' : State} {g g0 : Group} {e : Entry}

/-- An instruction whose meaning parks its entry parks it (R95). -/
theorem parks_of {p : Park} (h : AtIssue i s g e) (hx : exec i s = .next ((Iss.mk' s g e i).park g0 p)) (hid : g0.id = g.id)
    (hf : g0.front = g.front) : Parks i s g e s g0 p := by
  let u := Iss.mk' s g e i
  let f (e : Entry) : Entry := { e with park := some p }
  have place : SamePlace g0 (s.surgeFall g ((u.started g0).updEntry e.mask f)) :=
    Group.SamePlace.trans (u.samePlace_updEntry g0 f) (State.surgeFall_samePlace ..)
  have hid' := (Group.SamePlace.id place).trans hid
  have he : e ∈ g0.front := hf ▸ select_mem h.entry
  refine ⟨_, _, hx, u.put_group _ (by rw [Iss.mk'_s, Iss.mk'_g, h.here]; rfl) hid', u.put_only _ hid', place,
    (u.sameRegisters_updEntry g0 f).trans (SameRegisters.surgeFall ..), f { e with yielded := false }, ?_, rfl, rfl, rfl, rfl, rfl⟩
  rw [State.surgeFall_front]
  exact u.mem_front_updEntry he f

/-- The sequence goes on at its entry, with the lanes `left` still to sign (R193, R194). -/
def GoesOn (i : Instr) (s : State) (g : Group) (e : Entry) (s' : State) (g0 : Group) (left : Mask) : Prop :=
  ∃ t g' x, exec i s = .next t ∧ t.group? g.id = some g' ∧ OnlyGroup s' t g.id ∧ SamePlace g0 g' ∧ SameRegisters g0 g' ∧
    x ∈ g'.front ∧ x = { e with yielded := x.yielded, restart := some left, mid := true }

/-- An instruction whose meaning holds its pipe goes on at its entry. -/
theorem goesOn_of {left : Mask} (h : AtIssue i s g e) (hx : exec i s = .next ((Iss.mk' s g e i).signMid s' g0 left))
    (hs : s'.groups = s.groups) (hid : g0.id = g.id) (hf : g0.front = g.front) : GoesOn i s g e s' g0 left := by
  let u := Iss.mk' s g e i
  let f (e : Entry) : Entry := { e with restart := some left, mid := true }
  have hid' := (Group.SamePlace.id (u.samePlace_updEntry g0 f)).trans hid
  have he : e ∈ g0.front := hf ▸ select_mem h.entry
  have hhere : (s'.group? g.id).isSome = true := by rw [State.group?_congr hs, h.here]; rfl
  refine ⟨_, _, f { e with yielded := false }, hx, State.group?_put hid' hhere, ⟨rfl, rfl, fun k hk => ?_, fun _ _ => rfl⟩,
    u.samePlace_updEntry g0 f, u.sameRegisters_updEntry g0 f, u.mem_front_updEntry he f, rfl⟩
  exact (State.group?_updGroup s' g.id k _ fun _ _ => hid').trans (if_neg hk)

/-- A sequence that takes an identifier of its own ends as one that takes none. -/
theorem ends_of_fresh (hx : exec i s = .next (({ Iss.mk' s g e i with s := s.fresh } : Iss).finish g0)) (h : AtIssue i s g e)
    (ho : Only g e) (hid : g0.id = g.id) (hf : g0.front = g.front) : Ends i s g e s g0 := by
  obtain ⟨t, g', hnext, hg', honly, hclosed, hpast⟩ := ends_of hx h ho rfl hid hf
  have hfresh : OnlyGroup s s.fresh g.id := ⟨rfl, rfl, fun _ _ => rfl, fun _ _ => rfl⟩
  exact ⟨t, g', hnext, hg', Iss.onlyGroup_trans hfresh honly, hclosed, hpast⟩

end Issued

/-! ### Gangs -/

/-- A gang that is looked up has the identifier asked for. -/
theorem State.gang?_id {s : State} {k : Nat} {ga : Gang} (h : s.gang? k = some ga) : ga.id = k := by
  have := List.find?_some h
  simpa using this

/-- An update of the gang of a group changes that gang alone. -/
theorem gangBecomes_of {s : State} {k : Nat} {ga : Gang} (h : s.gang? k = some ga) (f : Gang → Gang) (hf : ∀ a, (f a).id = a.id)
    (n : Nat) : GangBecomes s { s.updGang ga.id f with next := n } (f ga) := by
  refine ⟨rfl, fun j => ?_⟩
  refine (State.gang?_updGang s ga.id j f fun a ha => (hf a).trans ha).trans ?_
  rw [hf]
  split_ifs with hj
  · rw [hj, State.gang?_id h, h]
    rfl
  · rfl

/-! ### The tag comparison (R52, R202) -/

section Tiles

variable {u : Iss} {ga : Gang} {n : Nat} {k : Iss → Gang → Nat → State}

theorem Iss.withTiles_of_holds (h : HoldsSet u.s u.g ga n) : u.withTiles k = k u ga n := by
  obtain ⟨hga, hset, hclaim⟩ := h
  have hclaim : u.s.claim ga u.ctx n = .go := hclaim
  simp only [Iss.withTiles, Iss.withSet, hga, hset, hclaim]

theorem Iss.withTiles_of_claimed {c : Nat} (hga : u.s.gang? u.g.gang = some ga) (hset : ga.tset = some n)
    (hclaim : u.s.claim ga u.ctx n = .trap c) : u.withTiles k = u.trap { cls := 13, detail := c, tmask := u.act } := by
  simp only [Iss.withTiles, Iss.withSet, hga, hset, hclaim]

theorem Iss.withTiles_of_unset (hga : u.s.gang? u.g.gang = some ga) (hset : ga.tset = none)
    (hnone : u.s.setFor ga (u.g.tileWait.getD u.s.next) = none) :
    u.withTiles k = u.park { u.g with tileWait := some (u.g.tileWait.getD u.s.next) } .tileSet := by
  simp only [Iss.withTiles, Iss.withSet, hga, hset, hnone]

end Tiles

section Forms

variable {h : Head} {s : State} {g : Group} {e : Entry} {ga : Gang} {n : Nat}

/-! ### `mzero`, `mload` and `mstore` (R210, R211) -/

/-- Where the matrix queue has room, `mzero` compares the tag and queues its operation. -/
theorem exec_mzero {f : FK16} (hi : AtIssue (.mzero h f) s g e) (hroom : g.matq.length < 4) : exec (.mzero h f) s = .next (
    (Iss.mk' s g e (.mzero h f)).withTiles fun u _ _ =>
      { u with s := u.s.fresh }.finish (u.g.enqueue { stamp := u.s.next, mask := f.mask, kind := .zero })) :=
  (issue_next hi _).trans (congrArg _ (if_neg (Nat.not_le.mpr hroom)))

theorem descTid_eq (d : Word) : descTid d = d.toNat / 2 ^ 56 % 256 := bits_eq_div_mod ..

/-- The descriptor of a tile move and its entry are valid: the reserved bits are zero, the entry is valid, its place suits the engine and
its format is FP32 (R211). -/
def State.moveOk (s : State) (g : Group) (d : Word) : Prop :=
  d.toNat / 2 ^ 52 % 16 = 0 ∧ (s.ent (s.groupCtx g) (d.toNat / 2 ^ 56 % 256)).testBit 63 = true ∧
    Ent.matLoc (s.ent (s.groupCtx g) (d.toNat / 2 ^ 56 % 256)) g = true ∧ Ent.fmt (s.ent (s.groupCtx g) (d.toNat / 2 ^ 56 % 256)) = 2

theorem State.moveOk_iff (s : State) (g : Group) (d : Word) : s.moveOk g d ↔
    (bits d.toNat 55 52 == 0 && (s.ent (s.groupCtx g) (descTid d)).valid && (s.ent (s.groupCtx g) (descTid d)).matLoc g &&
      (s.ent (s.groupCtx g) (descTid d)).fmt == 2) = true := by
  have hbits : bits d.toNat 55 52 = d.toNat / 2 ^ 52 % 16 := bits_eq_div_mod ..
  rw [hbits, descTid_eq]
  simp only [State.moveOk, Ent.valid, bit, Bool.and_eq_true, beq_iff_eq, and_assoc]

section Moves

variable {i : Instr} {f : FMl} {kind : Word → MatKind}

/-- Where the matrix queue has room and the items' earlier accesses are performed, a tile move compares the tag. -/
theorem exec_tileMove (hi : AtIssue i s g e) (hx : exec i s = tileMove i f kind s) (hroom : g.matq.length < 4)
    (hperf : s.orderHolds g (Iss.mk' s g e i).act true = false) : exec i s = .next ((Iss.mk' s g e i).withTiles fun u _ _ =>
      let d := u.g.getS f.sa.toNat
      let x := u.s.ent u.ctx (descTid d)
      if bits d.toNat 55 52 == 0 && x.valid && x.matLoc u.g && x.fmt == 2 then
        { u with s := u.s.fresh }.finish (u.g.enqueue
          { stamp := u.s.next, mask := BitVec.ofNat 16 (2 ^ f.mt.toNat), kind := kind d, ta := BitVec.ofNat 512 x })
      else u.trap { cls := 6, info := descTid d, tmask := u.act }) := by
  refine (hx.trans (issue_next hi _)).trans (congrArg _ (if_neg ?_))
  rw [Iss.mk'_s, Iss.mk'_g, hperf, Bool.or_false]
  simpa using hroom

/-- In a gang that holds its set, a tile move queues its operation, or traps with the identifier of its descriptor (R211). -/
theorem tileMove_queues (hi : AtIssue i s g e) (ho : Only g e) (hx : exec i s = tileMove i f kind s) (hroom : g.matq.length < 4)
    (hset : HoldsSet s g ga n) (hperf : s.orderHolds g (Iss.mk' s g e i).act true = false) :
    let d := g.getS f.sa.toNat
    let t := d.toNat / 2 ^ 56 % 256
    (s.moveOk g d → Ends i s g e s { g with
      matq := g.matq ++ [{ stamp := s.next, mask := BitVec.ofNat 16 (2 ^ f.mt.toNat), kind := kind d
                           ta := BitVec.ofNat 512 (s.ent (s.groupCtx g) t) }] }) ∧
    (¬s.moveOk g d → Traps i s g e 6 0 t (Iss.mk' s g e i).act) := by
  intro d t
  have hx := exec_tileMove hi hx hroom hperf
  rw [Iss.withTiles_of_holds (u := Iss.mk' s g e i) hset] at hx
  have ht : t = descTid d := (descTid_eq d).symm
  rw [ht]
  refine ⟨fun hok => ?_, fun hbad => ?_⟩
  · exact ends_of_fresh (hx.trans (congrArg _ (if_pos ((s.moveOk_iff g d).mp hok)))) hi ho rfl rfl
  · exact traps_of (hx.trans (congrArg _ (if_neg fun h => hbad ((s.moveOk_iff g d).mpr h))))

end Moves

/-- The instructions that queue a matrix operation at once begin with the tag comparison. -/
theorem exec_queues_withTiles {i : Instr} (hi : AtIssue i s g e) (hroom : g.matq.length < 4)
    (hform : (∃ h f, i = .mzero h f) ∨
      (∃ h f, i = .mload h f ∨ i = .mstore h f) ∧ s.orderHolds g (Iss.mk' s g e i).act true = false) :
    ∃ k, exec i s = .next ((Iss.mk' s g e i).withTiles k) := by
  rcases hform with ⟨h, f, rfl⟩ | ⟨⟨h, f, rfl | rfl⟩, hperf⟩
  · exact ⟨_, exec_mzero hi hroom⟩
  · exact ⟨_, exec_tileMove (kind := .load) (f := f) hi rfl hroom hperf⟩
  · exact ⟨_, exec_tileMove (kind := .store) (f := f) hi rfl hroom hperf⟩

/-! ### `mma` (R193, R212) -/

/-- The identifier that the descriptors of a lane name as invalid. -/
def mmaFault (s : State) (g : Group) (w : Nat) (f : FMma) (l : Nat) : Option Nat :=
  s.descFault g (s.groupCtx g) w (g.getV f.va.toNat l) (g.getV f.vb.toNat l)

/-- The lanes of a sequence with invalid descriptors, each with its identifier. -/
def mmaFaults (s : State) (g : Group) (w : Nat) (f : FMma) (ex : Mask) : List (Nat × Nat) :=
  ex.toList.filterMap fun l => (mmaFault s g w f l).map fun t => (l, t)

theorem mmaFaults_eq_nil {w : Nat} {f : FMma} {ex : Mask} (h : ∀ l, ex.has l = true → mmaFault s g w f l = none) :
    mmaFaults s g w f ex = [] :=
  List.filterMap_eq_nil_iff.mpr fun l hl => by rw [h l (Mask.mem_toList.mp hl)]; rfl

/-- The list of faults begins with the lowest lane, and holds every lane with one. -/
theorem mmaFaults_of_first {w : Nat} {f : FMma} {ex : Mask} {l t : Nat} (hl : ex.has l = true) (ht : mmaFault s g w f l = some t)
    (hfirst : ∀ m, m < l → ex.has m = true → mmaFault s g w f m = none) : ∃ rest, mmaFaults s g w f ex = (l, t) :: rest ∧
      (Mask.ofPred fun m => ((l, t) :: rest).any (·.1 == m)) = Mask.ofPred fun m => ex.has m && (mmaFault s g w f m).isSome := by
  let bad (m : Nat) : Bool := ex.has m && (mmaFault s g w f m).isSome
  let pair (m : Nat) : Option (Nat × Nat) := (mmaFault s g w f m).map fun t => (m, t)
  obtain ⟨rest, hrest⟩ := lanes_filter_of_first (p := bad) (Mask.has_lt hl) (by simp [bad, hl, ht]) fun m hm => by
    cases hex : ex.has m with
    | false => simp [bad, hex]
    | true => simp [bad, hfirst m hm hex]
  have hlist : mmaFaults s g w f ex = (lanes.filter bad).filterMap pair := by
    rw [mmaFaults, Mask.toList, List.filterMap_filter, List.filterMap_filter]
    refine congrArg (List.filterMap · lanes) (funext fun m => ?_)
    cases hm : mmaFault s g w f m <;> simp [bad, pair, hm]
  have hcons : mmaFaults s g w f ex = (l, t) :: rest.filterMap pair := by
    rw [hlist, hrest, List.filterMap_cons_some (show pair l = some (l, t) by simp [pair, ht])]
  refine ⟨_, hcons, Mask.ext_has fun m hm => ?_⟩
  rw [← hcons, hlist, Mask.has_ofPred, Mask.has_ofPred]
  refine congrArg _ (Bool.eq_iff_iff.mpr ?_)
  simp only [List.any_eq_true, List.mem_filterMap, List.mem_filter, beq_iff_eq]
  constructor
  · rintro ⟨x, ⟨j, ⟨-, hj⟩, hx⟩, rfl⟩
    obtain ⟨t', -, rfl⟩ := Option.map_eq_some_iff.mp hx
    exact hj
  · intro hbad
    obtain ⟨t', ht'⟩ := Option.isSome_iff_exists.mp (Bool.and_eq_true_iff.mp hbad).2
    exact ⟨(m, t'), ⟨m, ⟨List.mem_range.mpr hm, hbad⟩, by simp [pair, ht']⟩, rfl⟩

section Mma

variable {i : Instr} {w : Nat} {f : FMma}

/-- The four forms of `mma` are one, of their widths. -/
theorem exec_mma_form (hmem : (i, w) ∈ [(Instr.mmaW16 h f, 16), (.mmaW8 h f, 8), (.mmaW6 h f, 6), (.mmaW4 h f, 4)]) :
    exec i s = mmaSeq i w f s := by
  simp only [List.mem_cons, Prod.mk.injEq, List.not_mem_nil, or_false] at hmem
  rcases hmem with ⟨rfl, rfl⟩ | ⟨rfl, rfl⟩ | ⟨rfl, rfl⟩ | ⟨rfl, rfl⟩
  all_goals rfl

/-- Later signatures of an `mma` that holds its pipe follow at once (R194). -/
theorem exec_mma_mid (hi : AtIssue i s g e) (hx : exec i s = mmaSeq i w f s) (hmid : e.mid = true) :
    exec i s = .next ((Iss.mk' s g e i).signNext w f) :=
  (hx.trans (issue_next hi _)).trans (congrArg _ (if_pos hmid))

/-- The first signature of an `mma` comes after the tag comparison, where no lane's descriptors are invalid. -/
theorem exec_mma_valid (hi : AtIssue i s g e) (hx : exec i s = mmaSeq i w f s) (hset : HoldsSet s g ga n) (hmid : e.mid = false)
    (hnil : mmaFaults s g w f (Iss.mk' s g e i).ex = []) : exec i s = .next ((Iss.mk' s g e i).signNext w f) := by
  refine (hx.trans (issue_next hi _)).trans (congrArg _ ((if_neg (ne_true_of_eq_false hmid)).trans ?_))
  rw [Iss.withTiles_of_holds (u := Iss.mk' s g e i) hset]
  dsimp only
  generalize hbad : List.filterMap _ _ = bad
  cases hbad.symm.trans hnil
  rfl

theorem exec_mma_invalid {l t : Nat} {rest : List (Nat × Nat)} (hi : AtIssue i s g e) (hx : exec i s = mmaSeq i w f s)
    (hset : HoldsSet s g ga n) (hmid : e.mid = false) (hcons : mmaFaults s g w f (Iss.mk' s g e i).ex = (l, t) :: rest) :
    exec i s = .next ((Iss.mk' s g e i).trap
      { cls := 6, info := t, tmask := Mask.ofPred fun m => ((l, t) :: rest).any (·.1 == m) }) := by
  refine (hx.trans (issue_next hi _)).trans (congrArg _ ((if_neg (ne_true_of_eq_false hmid)).trans ?_))
  rw [Iss.withTiles_of_holds (u := Iss.mk' s g e i) hset]
  dsimp only
  generalize hbad : List.filterMap _ _ = bad
  cases hbad.symm.trans hcons
  rfl

/-- With valid descriptors an `mma` goes on to its lowest lane's signature. -/
theorem exec_mma_signs (hi : AtIssue i s g e) (hx : exec i s = mmaSeq i w f s) (hset : HoldsSet s g ga n)
    (hok : ∀ l, (Iss.mk' s g e i).ex.has l = true → mmaFault s g w f l = none) :
    exec i s = .next ((Iss.mk' s g e i).signNext w f) := by
  cases hmid : e.mid with
  | true => exact exec_mma_mid hi hx hmid
  | false => exact exec_mma_valid hi hx hset hmid (mmaFaults_eq_nil hok)

/-- An invalid descriptor traps before any lane signs, with the lowest lane's identifier (R212). -/
theorem mma_traps {l t : Nat} (hi : AtIssue i s g e) (hx : exec i s = mmaSeq i w f s) (hset : HoldsSet s g ga n)
    (hmid : e.mid = false) (hl : (Iss.mk' s g e i).ex.has l = true) (ht : mmaFault s g w f l = some t)
    (hfirst : ∀ m, m < l → (Iss.mk' s g e i).ex.has m = true → mmaFault s g w f m = none) :
    Traps i s g e 6 0 t (Mask.ofPred fun m => (Iss.mk' s g e i).ex.has m && (mmaFault s g w f m).isSome) := by
  obtain ⟨rest, hcons, hmask⟩ := mmaFaults_of_first hl ht hfirst
  rw [← hmask]
  exact traps_of (exec_mma_invalid hi hx hset hmid hcons)

/-- A convergence register of the gang, replaced. -/
def Gang.withCv (ga : Gang) (n : Nat) (x : CvReg) : Gang := { ga with cv := AMap.set ga.cv n x }

/-- A register that no lane of another group holds lets a lane of this one sign. -/
theorem CvReg.unheld {r : CvReg} {k : Nat} (h : r.hold = none ∨ r.hold = some k) : (r.hold.isSome && r.hold != some k) = false := by
  rcases h with hnone | hmine
  · rw [hnone]
    rfl
  · simp [hmine]

/-! What one lane's signature comes to, where no other group's lane holds the register (R193). -/

section Sign

variable {c l : Nat} (hga : s.gang? g.gang = some ga)
  (hhold : (ga.cvAt f.cv.toNat).hold = none ∨ (ga.cvAt f.cv.toNat).hold = some g.id)
include hga hhold

theorem signLane_counts (hlow : (ga.cvAt f.cv.toNat).sig < (ga.cvAt f.cv.toNat).cm1) : signLane c w f l s g =
    .signed (s.updGang ga.id fun x => x.withCv f.cv.toNat
      { ga.cvAt f.cv.toNat with sig := (ga.cvAt f.cv.toNat).sig + 1, last := g.index }) g := by
  simp only [signLane, hga, CvReg.unheld hhold, Nat.add_lt_add_iff_right, hlow, if_true, Bool.false_eq_true, if_false]
  rfl

theorem signLane_queues (hfull : (ga.cvAt f.cv.toNat).cm1 ≤ (ga.cvAt f.cv.toNat).sig) (hroom : g.matq.length < 4) :
    signLane c w f l s g = .signed
      { s.updGang ga.id fun x => x.withCv f.cv.toNat { ga.cvAt f.cv.toNat with sig := 0, last := g.index, hold := none } with
        next := s.next + 1 }
      (g.enqueue (s.tileOp c w f.mt.toNat (g.getV f.va.toNat l) (g.getV f.vb.toNat l))) := by
  simp only [signLane, hga, CvReg.unheld hhold, Nat.add_lt_add_iff_right, Nat.not_lt.mpr hfull, Nat.not_le.mpr hroom,
    Bool.false_eq_true, if_false]
  rfl

theorem signLane_holds (hfull : (ga.cvAt f.cv.toNat).cm1 ≤ (ga.cvAt f.cv.toNat).sig) (hroom : 4 ≤ g.matq.length) :
    signLane c w f l s g = .held
      (s.updGang ga.id fun x => x.withCv f.cv.toNat { ga.cvAt f.cv.toNat with hold := some g.id }) := by
  simp only [signLane, hga, CvReg.unheld hhold, Nat.add_lt_add_iff_right, Nat.not_lt.mpr hfull, hroom, if_true,
    Bool.false_eq_true, if_false]
  rfl

end Sign

theorem exec_signNext_none (hx : exec i s = .next ((Iss.mk' s g e i).signNext w f)) (hnone : (Iss.mk' s g e i).ex.toList = []) :
    exec i s = .next ((Iss.mk' s g e i).finish g) := by
  rw [hx, Iss.signNext, hnone]
  rfl

section Next

variable {l : Nat} {ls : List Nat} {s' : State} {g0 : Group} (hi : AtIssue i s g e)
  (hx : exec i s = .next ((Iss.mk' s g e i).signNext w f)) (hlanes : (Iss.mk' s g e i).ex.toList = l :: ls)
  (hperf : s.orderHolds g (Mask.one l) true = false)
include hi hx hlanes hperf

/-- The lowest lane has signed: the sequence ends with its last lane, and goes on with the others. -/
theorem signNext_signed (ho : Only g e) (hsign : signLane (s.groupCtx g) w f l s g = .signed s' g0) (hs : s'.groups = s.groups)
    (hid : g0.id = g.id) (hf : g0.front = g.front) : (ls = [] → Ends i s g e s' g0) ∧
      (ls ≠ [] → GoesOn i s g e s' g0 ((Iss.mk' s g e i).ex &&& ~~~Mask.one l)) := by
  have hsign : signLane (Iss.mk' s g e i).ctx w f l s g = .signed s' g0 := hsign
  simp only [Iss.signNext, hlanes, Iss.mk'_s, Iss.mk'_g, hperf, hsign, Bool.false_eq_true, if_false] at hx
  refine ⟨fun hlast => ?_, fun hmore => ?_⟩
  · rw [if_pos hlast] at hx
    exact ends_of hx hi ho hs hid hf
  · rw [if_neg hmore] at hx
    exact goesOn_of hi hx hs hid hf

/-- The lowest lane holds the register: the sequence goes on with every lane it had. -/
theorem signNext_held (hsign : signLane (s.groupCtx g) w f l s g = .held s') (hs : s'.groups = s.groups) :
    GoesOn i s g e s' g (Iss.mk' s g e i).ex := by
  have hsign : signLane (Iss.mk' s g e i).ctx w f l s g = .held s' := hsign
  simp only [Iss.signNext, hlanes, Iss.mk'_s, Iss.mk'_g, hperf, hsign, Bool.false_eq_true, if_false] at hx
  exact goesOn_of hi hx hs rfl rfl

end Next

end Mma

/-! ### `mwait`, `cvset` and `savept` (R213-R215) -/

theorem gangTilesBusy_iff (s : State) (k : Nat) (m : BitVec 16) : s.gangTilesBusy k m = true ↔
    ∃ x ∈ s.groups, x.gang = k ∧ ∃ o ∈ x.matq, o.mask &&& m ≠ 0 := by
  simp only [State.gangTilesBusy, State.gangGroups, List.any_eq_true, List.mem_filter, beq_iff_eq, bne_iff_ne, and_assoc]

theorem exec_mwait {f : FK16} (hi : AtIssue (.mwait h f) s g e) : exec (.mwait h f) s = .next (
    if s.gangTilesBusy g.gang f.mask = true then (Iss.mk' s g e (.mwait h f)).park g (.mwait f.mask)
    else (Iss.mk' s g e (.mwait h f)).finish g) := issue_next hi _

theorem cvset_ends {f : FCvset} (hi : AtIssue (.cvset h f) s g e) (ho : Only g e) (hga : s.gang? g.gang = some ga)
    (hfree : (ga.cvAt f.cv.toNat).hold = none) :
    ∃ s', GangBecomes s s' (ga.withCv f.cv.toNat { cm1 := f.cm1.toNat }) ∧ Ends (.cvset h f) s g e s' g := by
  refine ⟨_, gangBecomes_of hga (·.withCv f.cv.toNat { cm1 := f.cm1.toNat }) (fun _ => rfl) s.next, ends_of ?_ hi ho rfl rfl rfl⟩
  refine (issue_next hi _).trans (congrArg _ ?_)
  simp only [Iss.mk'_s, Iss.mk'_g, hga, hfree, Option.isSome_none, Bool.false_eq_true, if_false]
  rfl

theorem exec_savept {f : FK16} {c : Context} (hi : AtIssue (.savept h f) s g e) (hc : s.groupContext? g = some c) :
    exec (.savept h f) s = .next ({ Iss.mk' s g e (.savept h f) with
      s := if c.savem = true then s.updGang g.gang fun ga => { ga with live := f.mask } else s }.finish g) := by
  refine (issue_next hi _).trans (congrArg _ ?_)
  have hc : s.ctx? (Iss.mk' s g e (.savept h f)).ctx = some c := hc
  simp only [Iss.mk'_s, Iss.mk'_g, hc, Option.map_some, Option.getD_some]

end Forms

/-! ### The obligation -/

/-- Settles O41: each clause is a branch of its instruction, past the tag comparison where it names a tile. -/
theorem matrixForms : Obligations.MatrixForms := by
  unfold Obligations.MatrixForms
  refine ⟨?mzero, ?moves, ?mma, ?unheld, ?others⟩
  case mzero =>
    intro h f s g e ga n i hi ho hroom hset
    have hx := exec_mzero hi hroom
    rw [Iss.withTiles_of_holds (u := Iss.mk' s g e (.mzero h f)) hset] at hx
    exact ends_of_fresh hx hi ho rfl rfl
  case moves =>
    intro h f s g e ga n d t good queues
    have key (i : Instr) (kind : Word → MatKind) (hx : exec i s = tileMove i f kind s) : queues i (kind d) :=
      fun hi ho hroom hset hperf => tileMove_queues hi ho hx hroom hset hperf
    exact ⟨key _ .load rfl, key _ .store rfl⟩
  case mma =>
    intro h f s g e ga n i w hmem hi ho hset ex r fault signed goesOn
    have hx : exec i s = mmaSeq i w f s := exec_mma_form hmem
    refine ⟨fun hok => ?_, fun l t hmid hl ht hfirst => mma_traps hi hx hset hmid hl ht hfirst⟩
    have hsigns := exec_mma_signs hi hx hset hok
    refine ⟨fun hnone => ends_of (exec_signNext_none hsigns hnone) hi ho rfl rfl rfl, fun l ls hlanes hhold hperf => ?_⟩
    obtain ⟨hga, -, -⟩ := hset
    refine ⟨fun hlow => ⟨_, gangBecomes_of hga (·.withCv f.cv.toNat _) (fun _ => rfl) s.next, ?_⟩,
      fun hfull hroom => ⟨_, gangBecomes_of hga (·.withCv f.cv.toNat _) (fun _ => rfl) (s.next + 1), ?_⟩,
      fun hfull hroom => ⟨_, gangBecomes_of hga (·.withCv f.cv.toNat _) (fun _ => rfl) s.next, ?_⟩⟩
    · exact signNext_signed hi hsigns hlanes hperf ho (signLane_counts hga hhold hlow) rfl rfl rfl
    · exact signNext_signed hi hsigns hlanes hperf ho (signLane_queues hga hhold hfull hroom) rfl rfl rfl
    · exact signNext_held hi hsigns hlanes hperf (signLane_holds hga hhold hfull hroom) rfl
  case unheld =>
    intro i s g e ga hi hroom hform hga
    obtain ⟨k, hx⟩ := exec_queues_withTiles hi hroom hform
    refine ⟨fun n c hset hclaim => ?_, fun hset hnone => ?_⟩
    · rw [Iss.withTiles_of_claimed (u := Iss.mk' s g e i) hga hset hclaim] at hx
      exact traps_of hx
    · rw [Iss.withTiles_of_unset (u := Iss.mk' s g e i) hga hset hnone] at hx
      exact parks_of hi hx rfl rfl
  case others =>
    intro h f fc s g e ga ho hga
    refine ⟨fun hi => ⟨fun hidle => ?_, fun hbusy => ?_⟩, fun hi hfree => cvset_ends hi ho hga hfree,
      fun hi c hc => ⟨fun hlazy => ?_, fun hsave => ?_⟩⟩
    · have hx := exec_mwait hi
      rw [if_neg] at hx
      · exact ends_of hx hi ho rfl rfl rfl
      · rw [gangTilesBusy_iff]
        rintro ⟨x, hx, hgang, o, ho, hne⟩
        exact hne (hidle x hx hgang o ho)
    · have hx := exec_mwait hi
      rw [if_pos ((gangTilesBusy_iff ..).mpr hbusy)] at hx
      exact parks_of hi hx rfl rfl
    · have hx := exec_savept hi hc
      rw [if_neg (ne_true_of_eq_false hlazy)] at hx
      exact ends_of hx hi ho rfl rfl rfl
    · have hx := exec_savept hi hc
      rw [if_pos hsave, ← State.gang?_id hga] at hx
      exact ⟨_, gangBecomes_of hga (fun ga => { ga with live := f.mask }) (fun _ => rfl) s.next, ends_of hx hi ho rfl rfl rfl⟩

end Sys2Proof.Machine
end

section
/-! PROOFS. Access forms: what issuing the accesses of a sequence changes, what of a state translation and the gates before an issue
read (spec 08 R216-R219, R228, R237-R241), and from them the obligation on issuing accesses. -/

set_option Elab.async false

namespace Sys2Proof.Machine

/-! ### What carrying accesses changes (R228, R244, R334) -/

/-- A die but for its clock and the lines of its cache. -/
def Die.bare (d : Die) : Die := { d with clock := [], lines := [] }

/-- Of the dies only their clocks and the lines of their caches differ. -/
def CarryDies (s t : State) : Prop := ∀ n, (t.die? n).map Die.bare = (s.die? n).map Die.bare

/-- Only tables that carry accesses differ. -/
def Carried (s t : State) : Prop :=
  t = { s with accs := t.accs, ops := t.ops, next := t.next, walks := t.walks, dies := t.dies, streams := t.streams
               lastOp := t.lastOp } ∧ CarryDies s t

theorem Carried.refl (s : State) : Carried s s := ⟨rfl, fun _ => rfl⟩

theorem Carried.trans {s t r : State} (h : Carried s t) (k : Carried t r) : Carried s r := by
  obtain ⟨heq, hdies⟩ := h
  obtain ⟨keq, kdies⟩ := k
  refine ⟨?_, fun n => (kdies n).trans (hdies n)⟩
  rw [keq, heq]

theorem Carried.consumeWalks (s : State) (die cl ctx : Nat) : Carried s (s.consumeWalks die cl ctx) := ⟨rfl, fun _ => rfl⟩

/-- Beside what carrying accesses changes, these accesses are added. -/
def Adds (s t : State) (as : List Access) : Prop := Carried s t ∧ t.ops = s.ops ∧ t.accs = s.accs ++ as

namespace Adds

variable {s t r : State} {as bs : List Access}

theorem trans (h : Adds s t as) (k : Adds t r bs) : Adds s r (as ++ bs) := by
  obtain ⟨hc, ho, ha⟩ := h
  obtain ⟨kc, ko, ka⟩ := k
  exact ⟨hc.trans kc, ko.trans ho, by rw [ka, ha, List.append_assoc]⟩

theorem refl (s : State) : Adds s s [] := ⟨.refl s, rfl, (List.append_nil _).symm⟩

/-- A change of one die's clock and lines. -/
theorem updDie (s : State) (n : Nat) {f : Die → Die} (hf : ∀ d, (f d).bare = d.bare) : Adds s (s.updDie n f) [] := by
  refine ⟨⟨rfl, fun k => ?_⟩, rfl, (List.append_nil _).symm⟩
  rw [State.die?_updDie s n k f fun d hd => (congrArg Die.num (hf d) : (f d).bare.num = d.bare.num).trans hd]
  split_ifs
  · rw [Option.map_map]
    exact congrArg (Option.map · _) (funext hf)
  · rfl

theorem cacheTouch (s : State) (die loc : Nat) (dirty : Bool) (cp : Nat) : Adds s (s.cacheTouch die loc dirty cp) [] := by
  unfold State.cacheTouch
  split_ifs
  · exact updDie s die fun d => by rw [Die.touch_eq]; rfl
  · exact refl s

theorem dropLine (s : State) (die loc : Nat) : Adds s (s.dropLine die loc) [] := updDie s die fun _ => rfl

theorem itemStream (s : State) (src dst : Nat) : Adds s (s.itemStream src dst) [] := by
  unfold State.itemStream
  split_ifs <;> exact ⟨⟨rfl, fun _ => rfl⟩, rfl, (List.append_nil _).symm⟩

theorem sendWrite (s : State) (die : Nat) (a : Access) : Adds s (s.sendWrite die a).1 [] := by
  unfold State.sendWrite
  split
  · split
    · exact updDie s die fun _ => rfl
    · exact refl s
  · exact refl s

theorem access (s : State) (a : Access) : Adds s { s with accs := s.accs ++ [a], next := s.next + 1 } [a] :=
  ⟨⟨rfl, fun _ => rfl⟩, rfl, rfl⟩

end Adds

/-! ### The access of one lane (R228) -/

/-- What the accesses of one counted operation have in common: what they do, their register and their order. -/
structure AccessFor (f : AccForm) (acq : Bool) (a : Access) : Prop where
  kind : a.kind = f.kind
  reg : a.d = f.d
  order : a.acq = acq

/-- A clocked write goes out with its number and clock, and is otherwise as it was (R334). -/
theorem State.sendWrite_access (s : State) (die : Nat) (a : Access) :
    ∃ n c, (s.sendWrite die a).2 = { a with seqNo := n, clock := c } := by
  unfold State.sendWrite
  split
  · split
    · exact ⟨_, _, rfl⟩
    · exact ⟨a.seqNo, a.clock, rfl⟩
  · exact ⟨a.seqNo, _, rfl⟩

theorem AccessFor.sendWrite {f : AccForm} {acq : Bool} {a : Access} (h : AccessFor f acq a) (s : State) (die : Nat) :
    AccessFor f acq (s.sendWrite die a).2 := by
  obtain ⟨n, c, heq⟩ := s.sendWrite_access die a
  rw [heq]
  exact { h with }

/-- What the plan of a lane gives of its access. -/
def Access.planned (a : Access) : Nat × Nat × Nat × AccKind × Nat × Nat × Nat × Nat × Word :=
  (a.op, a.grp, a.lane, a.kind, a.va, a.loc, a.size, a.d, a.data)

theorem State.sendWrite_planned (s : State) (die : Nat) (a : Access) : (s.sendWrite die a).2.planned = a.planned := by
  obtain ⟨n, c, heq⟩ := s.sendWrite_access die a
  rw [heq]
  rfl

/-- An access leaves its group with the clock of its die, opens the item stream of its pair of dies, and touches their caches (R232, R244,
R334). -/
def State.carryAccess (s : State) (f : AccForm) (h : Hints) (die : Nat) (a : Access) : State :=
  let sent := s.sendWrite die a
  let t := if f.kind.writes ∧ a.home ≠ die then sent.1.itemStream die a.home else sent.1
  let t := { t with accs := t.accs ++ [sent.2], next := t.next + 1 }
  if sent.2.packet = 4 then t.dropLine a.home a.loc else if f.line = 0 then t.cacheTouch die a.loc f.kind.writes h.cp else t

/-- A lane whose address is known issues one access, as its plan gives it. -/
theorem State.issueLane_eq (s : State) (g : Group) (f : AccForm) (h : Hints) (op l ea loc tgt pc : Nat) (repl : Option (Nat × BitVec 64)) :
    ∃ a, s.issueLane g f h op l ea loc tgt pc repl = s.carryAccess f h g.die a ∧ AccessFor f h.acq a ∧
      accessOf g f op l (.go ea loc tgt repl) = some a.planned := by
  refine ⟨_, rfl, ?_, ?_⟩
  · exact ⟨rfl, rfl, rfl⟩
  · rfl

/-- Carrying an access adds it, as it left, to those in flight. -/
theorem State.carryAccess_adds (s : State) (f : AccForm) (h : Hints) (die : Nat) (a : Access) :
    Adds s (s.carryAccess f h die a) [(s.sendWrite die a).2] := by
  have hsent := Adds.sendWrite s die a
  unfold State.carryAccess
  generalize s.sendWrite die a = sent at hsent
  have hstream : Adds s (if f.kind.writes ∧ a.home ≠ die then sent.1.itemStream die a.home else sent.1) [] := by
    split_ifs
    · exact hsent.trans (.itemStream ..)
    · exact hsent
  dsimp only
  generalize (if f.kind.writes ∧ a.home ≠ die then _ else _ : State) = t at hstream
  have hadded := hstream.trans (.access t sent.2)
  split_ifs
  · exact hadded.trans (.dropLine ..)
  · exact hadded.trans (.cacheTouch ..)
  · exact hadded

/-! ### One counted operation (R228, R345) -/

/-- The lanes of a repeat that do not fault. -/
def planLanes (ps : List (Nat × Plan)) : Mask :=
  Mask.ofPred fun l => ps.any fun x => x.1 == l && (match x.2 with | .bad .. => false | _ => true)

/-- Issue the accesses of the lanes that perform one. -/
def State.issueLanes (s : State) (g : Group) (f : AccForm) (h : Hints) (op pc : Nat) (ps : List (Nat × Plan)) : State :=
  ps.foldl (fun s x => match x.2 with
    | .go ea loc tgt repl => s.issueLane g f h op x.1 ea loc tgt pc repl
    | _ => s) s

theorem State.issueLanes_adds (g : Group) (f : AccForm) (h : Hints) (op pc : Nat) (ps : List (Nat × Plan)) (s : State) :
    ∃ as, Adds s (s.issueLanes g f h op pc ps) as ∧ (∀ a ∈ as, AccessFor f h.acq a) ∧
      as.map Access.planned = ps.filterMap fun x => accessOf g f op x.1 x.2 := by
  induction ps generalizing s with
  | nil => exact ⟨[], .refl s, fun _ h => absurd h List.not_mem_nil, rfl⟩
  | cons x t ih =>
    obtain ⟨l, p⟩ := x
    have idle (hp : accessOf g f op l p = none) (hs : s.issueLanes g f h op pc ((l, p) :: t) = s.issueLanes g f h op pc t) :
        ∃ as, Adds s (s.issueLanes g f h op pc ((l, p) :: t)) as ∧ (∀ a ∈ as, AccessFor f h.acq a) ∧
          as.map Access.planned = ((l, p) :: t).filterMap fun x => accessOf g f op x.1 x.2 := by
      simp only [hs, List.filterMap_cons, hp]
      exact ih s
    cases p with
    | skip | bad | wait => exact idle rfl rfl
    | go ea loc tgt repl =>
      obtain ⟨a, heq, hfor, hplan⟩ := s.issueLane_eq g f h op l ea loc tgt pc repl
      have hfirst := s.carryAccess_adds f h g.die a
      rw [← heq] at hfirst
      obtain ⟨as, hadds, hall, hmap⟩ := ih (s.issueLane g f h op l ea loc tgt pc repl)
      refine ⟨_, hfirst.trans hadds, fun b hb => ?_, ?_⟩
      · rcases List.mem_cons.mp hb with rfl | hb
        · exact hfor.sendWrite s g.die
        · exact hall b hb
      · simp only [List.filterMap_cons, hplan, List.singleton_append, List.map_cons, State.sendWrite_planned, hmap]

/-- The counted operation of lanes of one repeat. -/
def Group.opOf (g : Group) (f : AccForm) (h : Hints) (e : Entry) (trapping : Bool) (ps : List (Nat × Plan)) (id : Nat) : CountedOp :=
  let a0 : Access := { id := 0, op := 0, grp := 0, die := 0, lane := 0, kind := f.kind, va := 0, loc := 0, size := 0
                       d := f.d, phase := .atBank }
  let o : CountedOp :=
    { id := id, grp := g.id, ctr := if trapping then 8 else g.ctr f.cc, cc := g.opCc f.cc, lanes := planLanes ps
      addrs := ps.filterMap fun x => match x.2 with | .go ea .. | .skip ea => some (x.1, ea) | _ => none
      dests := a0.dregs }
  o.issuedBy e h.rep.isSome

theorem State.issueOp_eq (s : State) (g : Group) (f : AccForm) (h : Hints) (e : Entry) (trapping : Bool) (ps : List (Nat × Plan)) :
    s.issueOp g f h e trapping ps = if planLanes ps = 0 then s
      else (s.addOp (g.opOf f h e trapping ps s.next)).fresh.issueLanes g f h s.next e.pc ps := rfl

/-- A repeat with some lane that does not fault issues one counted operation (R228). -/
theorem State.issueOp_issued (s : State) (g : Group) (f : AccForm) (h : Hints) (e : Entry) (trapping : Bool) {ps : List (Nat × Plan)}
    (hne : planLanes ps ≠ 0) : Issued g f s (s.issueOp g f h e trapping ps) (g.opOf f h e trapping ps s.next) ps ∧
      ∀ a ∈ (s.issueOp g f h e trapping ps).accs, a ∈ s.accs ∨ AccessFor f h.acq a := by
  obtain ⟨as, ⟨hcarry, hops, haccs⟩, hall, hmap⟩ :=
    (s.addOp (g.opOf f h e trapping ps s.next)).fresh.issueLanes_adds g f h s.next e.pc ps
  have hadd : Carried s (s.addOp (g.opOf f h e trapping ps s.next)).fresh := ⟨rfl, fun _ => rfl⟩
  obtain ⟨heq, hdies⟩ := hadd.trans hcarry
  rw [State.issueOp_eq, if_neg hne]
  refine ⟨⟨heq, hdies, hops, rfl, as, haccs, hmap⟩, fun a ha => ?_⟩
  rw [haccs] at ha
  exact (List.mem_append.mp ha).imp id (hall a)

/-! ### What translation reads (R217-R219, R250-R254) -/

/-- Without a leaf only the lens table's page translates, and its address is not a leaf's (R46). -/
theorem State.xlateBy_of_none {s : State} {die ctx va pa tgt : Nat} {use : Use} (hx : s.xlateBy die ctx va use none = .ok pa tgt) :
    use = .read ∧ ∀ r, s.xlateBy die ctx va use r = .ok pa tgt := by
  unfold State.xlateBy at hx ⊢
  cases hc : s.ctx? ctx with
  | none => rw [hc] at hx; cases hx
  | some c =>
    rw [hc] at hx
    dsimp only at hx ⊢
    by_cases hlens : c.lens ≠ 0 ∧ va / 65536 = c.lens / 65536
    · rw [if_pos hlens] at hx
      cases use with
      | read => exact ⟨rfl, fun r => (if_pos hlens).trans hx⟩
      | write | fetch => cases hx
    · rw [if_neg hlens] at hx
      cases hx

namespace Carried

variable {s t : State} (h : Carried s t)
include h

/-- What a die shows beside its clock and its cache's lines. -/
theorem die_map {α : Type} (F : Die → α) (hF : ∀ d, F d.bare = F d) (n : Nat) : (t.die? n).map F = (s.die? n).map F := by
  have hbare (o : Option Die) : o.map F = (o.map Die.bare).map F := by
    rw [Option.map_map]; exact congrArg (Option.map · o) (funext fun d => (hF d).symm)
  rw [hbare, hbare (s.die? n), h.2 n]

theorem die_isSome (n : Nat) : (t.die? n).isSome = (s.die? n).isSome := by
  have := congrArg Option.isSome (h.2 n)
  simpa only [Option.isSome_map] using this

theorem groups : t.groups = s.groups := by rw [h.1]
theorem groupCtx (g : Group) : t.groupCtx g = s.groupCtx g := by rw [h.1]; rfl
theorem ctx? (n : Nat) : t.ctx? n = s.ctx? n := by rw [h.1]; rfl
theorem gang? (n : Nat) : t.gang? n = s.gang? n := by rw [h.1]; rfl
theorem hostWindow (ctx pa : Nat) (w : Bool) : t.hostWindow ctx pa w = s.hostWindow ctx pa w := by rw [h.1]; rfl

theorem tlbLookup (die cl ctx va : Nat) : t.tlbLookup die cl ctx va = s.tlbLookup die cl ctx va := by
  have hcl : t.cluster die cl = s.cluster die cl := by rw [h.1]; rfl
  have htlb := h.die_map Die.tlb (fun _ => rfl) die
  unfold State.tlbLookup
  rw [hcl, htlb]

theorem partDies (c : Context) (n : Nat) : t.partDies c n = s.partDies c n := by
  unfold State.partDies
  simp only [h.die_isSome]

theorem replicated (pte : Nat) : t.replicated pte = s.replicated pte := by
  have hrep := h.die_map (fun d => d.replicas.contains (replKey pte)) (fun _ => rfl) (bits (pteAddr pte) 47 42)
  have key (r : State) : r.replicated pte =
      ((r.die? (bits (pteAddr pte) 47 42)).map fun d => d.replicas.contains (replKey pte)).getD false := by
    unfold State.replicated
    cases r.die? (bits (pteAddr pte) 47 42) <;> rfl
  rw [key, key, hrep]

theorem leafAddr (ctx die level pte va : Nat) (use : Use) : t.leafAddr ctx die level pte va use = s.leafAddr ctx die level pte va use := by
  have hparts : ((t.ctx? ctx).bind fun c => t.partDies c (ptePart pte)) = (s.ctx? ctx).bind fun c => s.partDies c (ptePart pte) := by
    simp only [h.ctx?, h.partDies]
  unfold State.leafAddr
  simp only [hparts, h.replicated]

theorem useLeaf (ctx die level pte va : Nat) (use : Use) : t.useLeaf ctx die level pte va use = s.useLeaf ctx die level pte va use := by
  unfold State.useLeaf
  simp only [h.leafAddr, h.hostWindow]

theorem xlateBy (die ctx va : Nat) (use : Use) (r : Option WalkRes) : t.xlateBy die ctx va use r = s.xlateBy die ctx va use r := by
  unfold State.xlateBy
  simp only [h.ctx?, h.useLeaf]

theorem windowLoc (ga : Gang) (ctx ea n : Nat) : t.windowLoc ga ctx ea n = s.windowLoc ga ctx ea n := by
  have hrange (die cl off : Nat) : t.inSomeRange die cl ctx off n = s.inSomeRange die cl ctx off n := by rw [h.1]; rfl
  have hdie (k : Nat) : (t.die? k).isNone = (s.die? k).isNone := by
    rw [← Option.not_isSome, ← Option.not_isSome, h.die_isSome]
  unfold State.windowLoc
  simp only [hrange, hdie]

/-- What a TLB holds for an address is held still, whatever walks have ended. -/
theorem held_of_tlb {die cl ctx va : Nat} {r : WalkRes} (hr : ({ s with walks := [] } : State).held die cl ctx va = some r) :
    t.held die cl ctx va = some r := by
  have hnone : ({ s with walks := [] } : State).walkDone die cl ctx va = none := rfl
  have hlook : ({ s with walks := [] } : State).tlbLookup die cl ctx va = s.tlbLookup die cl ctx va := rfl
  unfold State.held at hr ⊢
  rw [hnone, hlook] at hr
  rw [h.tlbLookup]
  cases hl : s.tlbLookup die cl ctx va with
  | some x => rw [hl] at hr; exact hr
  | none => rw [hl] at hr; cases hr

/-- An address that translates without a walk translates so still, and a write finds the leaf that it found. -/
theorem xlate_of_tlb {die cl ctx va pa tgt : Nat} {use : Use}
    (hx : ({ s with walks := [] } : State).xlate die cl ctx va use = .ok pa tgt) : t.xlate die cl ctx va use = .ok pa tgt ∧
      t.replWrite die cl ctx va use = ({ s with walks := [] } : State).replWrite die cl ctx va use := by
  have hbase (r : Option WalkRes) : ({ s with walks := [] } : State).xlateBy die ctx va use r = t.xlateBy die ctx va use r :=
    (h.xlateBy ..).symm
  unfold State.xlate at hx ⊢
  rw [hbase] at hx
  unfold State.replWrite
  cases hheld : ({ s with walks := [] } : State).held die cl ctx va with
  | some r =>
    rw [hheld] at hx
    rw [h.held_of_tlb hheld]
    exact ⟨hx, rfl⟩
  | none =>
    rw [hheld] at hx
    obtain ⟨rfl, hall⟩ := State.xlateBy_of_none hx
    exact ⟨hall _, rfl⟩

/-- A lane whose address translates without a walk has the same plan still. -/
theorem planAddr_of_tlb {g : Group} {f : AccForm} {nw : Bool} {ea e loc tgt : Nat} {p : Option (Nat × BitVec 64)}
    (hp : ({ s with walks := [] } : State).planAddr g f nw ea = .go e loc tgt p) : t.planAddr g f nw ea = .go e loc tgt p := by
  have hctx : ({ s with walks := [] } : State).groupCtx g = t.groupCtx g := (h.groupCtx g).symm
  have hwin (ga : Gang) (c n : Nat) : ({ s with walks := [] } : State).windowLoc ga c ea n = t.windowLoc ga c ea n :=
    (h.windowLoc ..).symm
  have hgang : ({ s with walks := [] } : State).gang? g.gang = t.gang? g.gang := (h.gang? _).symm
  unfold State.planAddr at hp ⊢
  simp only [hctx, hwin, hgang] at hp
  dsimp only
  generalize t.groupCtx g = c at hp
  by_cases hline : f.line ≠ 0
  · rw [if_pos hline] at hp ⊢
    cases hw : winOf ea with
    | gang | sram => rw [hw] at hp; exact hp
    | translated =>
      rw [hw] at hp
      dsimp only at hp ⊢
      cases hx : ({ s with walks := [] } : State).xlate g.die g.cluster c ea .read with
      | ok pa k =>
        rw [hx] at hp
        rw [(h.xlate_of_tlb hx).1]
        exact hp
      | fault k => rw [hx] at hp; dsimp only at hp; split_ifs at hp
      | wait => rw [hx] at hp; cases hp
  · rw [if_neg hline] at hp ⊢
    cases hw : winOf ea with
    | gang | sram => rw [hw] at hp; exact hp
    | translated =>
      rw [hw] at hp
      dsimp only at hp ⊢
      split_ifs at hp ⊢
      cases hx : ({ s with walks := [] } : State).xlate g.die g.cluster c ea f.use with
      | ok pa k =>
        rw [hx] at hp
        obtain ⟨hok, hrepl⟩ := h.xlate_of_tlb hx
        rw [hok, hrepl]
        exact hp
      | fault k => rw [hx] at hp; cases hp
      | wait => rw [hx] at hp; cases hp

end Carried

/-! ### One repeat of an access form (R105, R228, R345) -/

/-- The lanes' plans of an access form, in lane order. -/
def State.plans (s : State) (g : Group) (f : AccForm) (h : Hints) (m : Mask) : List (Nat × Plan) :=
  m.toList.map fun l => (l, s.planAddr g f (f.needsWindow h) (g.effAddr f l))

/-- The lanes that repeat `j` of a sequence is issued for. -/
def Iss.repeatMask (u : Iss) (j : Nat) : Mask := u.g.execMask u.i (if j = u.e.repi then u.act else u.e.mask)

section Repeat

variable {u : Iss} {f0 : AccForm} {n j : Nat}

theorem Iss.accReps_idle (hm : u.repeatMask j = 0) : u.accReps f0 (n + 1) j = u.accReps f0 n (j + 1) := if_pos hm

/-- What lets repeat `j` of an access form issue: its counter, the order of earlier accesses, its registers, its addresses and the gate. -/
structure Iss.Issues (u : Iss) (f : AccForm) (j : Nat) (g1 : Group) : Prop where
  some : u.repeatMask j ≠ 0
  room : u.s.counter u.g.id (u.g.ctr f.cc) < 63
  ordered : u.s.orderHolds u.g (u.repeatMask j) u.i.head.hints.rel = false
  free : j = u.e.repi ∨ ∀ r ∈ AccForm.names f, u.s.pendV u.g r = false
  known : ∀ l a, (u.repeatMask j).has l = true → u.s.planAddr u.g f (f.needsWindow u.i.head.hints) (u.g.effAddr f l) ≠ .wait a
  mapped : u.s.regGate u.g (accResults f) = .ok g1

/-- The state once a repeat has issued the counted operation of its lanes. -/
def Iss.issued (u : Iss) (f : AccForm) (j : Nat) (g1 : Group) : State :=
  let ps := u.s.plans u.g f u.i.head.hints (u.repeatMask j)
  (u.s.consumeWalks u.g.die u.g.cluster u.ctx).issueOp g1 f u.i.head.hints u.e (planTrap ps).isSome ps

/-- A repeat that may issue does, and then traps for its failing lanes, or the next repeat follows. -/
theorem Iss.accReps_issues {g1 : Group} (h : u.Issues (f0.step u.i.head.hints.rep j) j g1) :
    let f := f0.step u.i.head.hints.rep j
    let s := u.issued f j g1
    u.accReps f0 (n + 1) j = (planTrap (u.s.plans u.g f u.i.head.hints (u.repeatMask j))).elim
      (Iss.accReps { u with s := s, g := g1 } f0 n (j + 1)) fun a => ({ u with s := s }.atRepeat j).trapAfter g1 a := by
  intro f s
  obtain ⟨hsome, hroom, hordered, hfree, hknown, hmapped⟩ := h
  have hwaits : ((u.s.plans u.g f u.i.head.hints (u.repeatMask j)).filterMap fun x =>
      match x.2 with | .wait ea => some ea | _ => none) = [] := by
    rw [List.filterMap_eq_nil_iff]
    rintro ⟨l, p⟩ hx
    obtain ⟨k, hk, heq⟩ := List.mem_map.mp hx
    obtain ⟨rfl, rfl⟩ := Prod.mk.inj heq
    have hne := fun a => hknown k a (Mask.mem_toList.mp hk)
    cases hp : u.s.planAddr u.g f (f.needsWindow u.i.head.hints) (u.g.effAddr f k) with
    | wait a => exact absurd hp (hne a)
    | _ => rfl
  have hpend : ¬(decide (j ≠ u.e.repi) && (AccForm.names f).any (u.s.pendV u.g)) = true := by
    intro hp
    obtain ⟨hj, hany⟩ := (Bool.and_eq_true _ _).mp hp
    obtain ⟨r, hr, hpr⟩ := List.any_eq_true.mp hany
    rcases hfree with h | h
    · exact of_decide_eq_true hj h
    · rw [h r hr] at hpr
      cases hpr
  have hgate : (u.s.consumeWalks u.g.die u.g.cluster u.ctx).regGate u.g (accResults f) = .ok g1 := hmapped
  rw [Iss.accReps]
  dsimp only
  refine (if_neg hsome).trans ((if_neg (Nat.not_le.mpr hroom)).trans ((if_neg (ne_true_of_eq_false hordered)).trans
    ((if_neg hpend).trans ((if_neg (not_not.mpr hwaits)).trans ?_))))
  change (match (u.s.consumeWalks u.g.die u.g.cluster u.ctx).regGate u.g (accResults f) with
    | .wait g => _ | .limit => _ | .ok g => _) = _
  rw [hgate]
  change (match planTrap (u.s.plans u.g f u.i.head.hints (u.repeatMask j)) with | some a => _ | none => _) = _
  cases planTrap (u.s.plans u.g f u.i.head.hints (u.repeatMask j)) with
  | none | some a => rfl

end Repeat

/-! ### Lanes that fault and lanes that do not (R344, R345, R425) -/

/-- The plan of a lane is a fault. -/
def Plan.fails (p : Plan) : Bool := match p with | .bad .. => true | _ => false

theorem planTrap_cons (l : Nat) (p : Plan) (ps : List (Nat × Plan)) (h : p.fails = false) : planTrap ((l, p) :: ps) = planTrap ps := by
  cases p with
  | bad => cases h
  | go | skip | wait => rfl

theorem planTrap_of_none_fails {ps : List (Nat × Plan)} (h : ∀ x ∈ ps, x.2.fails = false) : planTrap ps = none := by
  induction ps with
  | nil => rfl
  | cons x t ih =>
    rw [planTrap_cons _ _ _ (h x List.mem_cons_self), ih fun y hy => h y (List.mem_cons_of_mem _ hy)]

/-- Of the lanes of a mask, those go that do not fault. -/
theorem has_planLanes (m : Mask) (F : Nat → Plan) (l : Nat) :
    (planLanes (m.toList.map fun l => (l, F l))).has l = (m.has l && !(F l).fails) := by
  rw [planLanes, Mask.has_ofPred, Bool.eq_iff_iff]
  simp only [Bool.and_eq_true, decide_eq_true_eq, List.any_eq_true, List.mem_map, Mask.mem_toList, beq_iff_eq, Bool.not_eq_true']
  constructor
  · rintro ⟨_, ⟨_, _⟩, ⟨k, hk, heq⟩, hkl, hp⟩
    obtain ⟨rfl, rfl⟩ := Prod.mk.inj heq
    subst hkl
    refine ⟨hk, ?_⟩
    dsimp only at hp
    cases hF : F k with
    | bad => rw [hF] at hp; cases hp
    | go | skip | wait => rfl
  · rintro ⟨hm, hF⟩
    refine ⟨Mask.has_lt hm, (l, F l), ⟨l, hm, rfl⟩, rfl, ?_⟩
    dsimp only
    cases h : F l with
    | bad => rw [h] at hF; cases hF
    | go | skip | wait => rfl

theorem planLanes_of_none_fails {m : Mask} {F : Nat → Plan} (h : ∀ l, m.has l = true → (F l).fails = false) :
    planLanes (m.toList.map fun l => (l, F l)) = m := by
  refine Mask.ext_has fun l _ => ?_
  rw [has_planLanes]
  cases hm : m.has l with
  | false => rfl
  | true => rw [h l hm]; rfl

/-! ### What one repeat leaves (R105, R228) -/

theorem Carried.of_issued {g : Group} {f : AccForm} {s t : State} {o : CountedOp} {ps : List (Nat × Plan)} (h : Issued g f s t o ps) :
    Carried s t := by
  obtain ⟨heq, hdies, -⟩ := h
  exact ⟨heq, hdies⟩

/-- What the gate changes of a group is nothing that issuing reads. -/
theorem Issued.of_gate {g g1 : Group} {f : AccForm} {s t : State} {ws : List Nat} {o : CountedOp} {ps : List (Nat × Plan)}
    (h : s.regGate g ws = .ok g1) (hi : Issued g1 f s t o ps) : Issued g f s t o ps := by
  rw [regGate_ok h] at hi
  exact hi

/-- Walks whose results a sequence has used are nothing that issuing reads (R253). -/
theorem Issued.of_consumeWalks {g : Group} {f : AccForm} {s t : State} {die cl ctx : Nat} {o : CountedOp} {ps : List (Nat × Plan)}
    (h : Issued g f (s.consumeWalks die cl ctx) t o ps) : Issued g f s t o ps := by
  obtain ⟨heq, hdies, hops, hgrp, as, haccs, hmap⟩ := h
  obtain ⟨heq', hdies'⟩ := (Carried.consumeWalks s die cl ctx).trans ⟨heq, hdies⟩
  exact ⟨heq', hdies', hops, hgrp, as, haccs, hmap⟩

section Whole

variable {u : Iss} {f : AccForm} {j : Nat} {g1 : Group} {ws : List Nat}

/-- A repeat none of whose lanes faults issues one counted operation for all of them. -/
theorem Iss.issued_whole (hm : u.repeatMask j ≠ 0) (hgate : u.s.regGate u.g ws = .ok g1)
    (hgood : ∀ l, (u.repeatMask j).has l = true → (u.s.planAddr u.g f (f.needsWindow u.i.head.hints) (u.g.effAddr f l)).fails = false) :
    planTrap (u.s.plans u.g f u.i.head.hints (u.repeatMask j)) = none ∧ ∃ o,
      Issued u.g f u.s (u.issued f j g1) o (u.s.plans u.g f u.i.head.hints (u.repeatMask j)) ∧ o.lanes = u.repeatMask j ∧
      o.ctr = u.g.ctr f.cc ∧ o.poisoned = 0 ∧
      ∀ a ∈ (u.issued f j g1).accs, a ∈ u.s.accs ∨ AccessFor f u.i.head.hints.acq a := by
  have hnone : planTrap (u.s.plans u.g f u.i.head.hints (u.repeatMask j)) = none := by
    refine planTrap_of_none_fails fun x hx => ?_
    obtain ⟨l, hl, rfl⟩ := List.mem_map.mp hx
    exact hgood l (Mask.mem_toList.mp hl)
  have hlanes : planLanes (u.s.plans u.g f u.i.head.hints (u.repeatMask j)) = u.repeatMask j := planLanes_of_none_fails hgood
  obtain ⟨hissued, hfor⟩ := (u.s.consumeWalks u.g.die u.g.cluster u.ctx).issueOp_issued g1 f u.i.head.hints u.e
    (planTrap (u.s.plans u.g f u.i.head.hints (u.repeatMask j))).isSome (hlanes ▸ hm)
  refine ⟨hnone, _, .of_gate hgate (.of_consumeWalks hissued), hlanes, ?_, rfl, hfor⟩
  rw [hnone, regGate_ok hgate]
  rfl

end Whole

/-! ### Access forms at issue -/

theorem exec_accForm {i : Instr} {f : AccForm} {s : State} {g : Group} {e : Entry} (hf : i.accForm = some f) (hk : f.kind ≠ .ldfe)
    (hi : AtIssue i s g e) : exec i s = .next ((Iss.mk' s g e i).accReps f (i.head.hints.reps + 1 - e.repi) e.repi) := by
  have hx : exec i s = issue i s Iss.runAcc := by
    cases i with
    | ldN8 | ldN16 | ldN32 | ldB64 | ldS8 | ldS16 | ldS32 | stB8 | stB16 | stB32 | stB64 | stfe | fefill | feq | atom | atomf | cas
      | pref | cinv | cwb => rfl
    | ldfe => exact absurd (congrArg AccForm.kind (Option.some.inj hf).symm) hk
    | _ => cases hf
  rw [hx, issue_next hi, Iss.runAcc, show (Iss.mk' s g e i).i.accForm = some f from hf]
  rfl

theorem AccForm.step_of_none {h : Hints} (hr : h.rep = none) (f : AccForm) (j : Nat) : f.step h.rep j = f := by rw [hr]; rfl

section Single

variable {i : Instr} {f : AccForm} {s : State} {g g1 : Group} {e : Entry}

/-- An access form without repeats runs its one repeat. -/
theorem exec_accForm_single (hf : i.accForm = some f) (hk : f.kind ≠ .ldfe) (hi : AtIssue i s g e) (hr : i.head.hints.rep = none)
    (hz : e.repi = 0) : exec i s = .next ((Iss.mk' s g e i).accReps f 1 0) := by
  rw [exec_accForm hf hk hi, hz, show i.head.hints.reps = 0 by rw [Hints.reps, hr]; rfl]

theorem Iss.repeatMask_first (hz : e.repi = 0) : (Iss.mk' s g e i).repeatMask 0 = (Iss.mk' s g e i).ex := by
  unfold Iss.repeatMask
  rw [if_pos (show 0 = (Iss.mk' s g e i).e.repi from hz.symm)]
  rfl

/-- An access form that may issue does, and completes or traps for its failing lanes (R228, R345). -/
theorem exec_accForm_issues (hf : i.accForm = some f) (hk : f.kind ≠ .ldfe) (hi : AtIssue i s g e) (hr : i.head.hints.rep = none)
    (hz : e.repi = 0) (hm : (Iss.mk' s g e i).ex ≠ 0) (hroom : s.counter g.id (g.ctr f.cc) < 63)
    (hord : s.orderHolds g (Iss.mk' s g e i).ex i.head.hints.rel = false)
    (hknown : ∀ l a, (Iss.mk' s g e i).ex.has l = true → s.planAddr g f (f.needsWindow i.head.hints) (g.effAddr f l) ≠ .wait a)
    (hgate : s.regGate g (accResults f) = .ok g1) :
    let u := { Iss.mk' s g e i with s := (Iss.mk' s g e i).issued f 0 g1 }
    exec i s = .next ((planTrap (s.plans g f i.head.hints (Iss.mk' s g e i).ex)).elim (u.finish g1) fun a =>
      (u.atRepeat 0).trapAfter g1 a) := by
  intro u
  have hmask := Iss.repeatMask_first (i := i) (s := s) (g := g) hz
  have hstep : f.step (Iss.mk' s g e i).i.head.hints.rep 0 = f := AccForm.step_of_none hr f 0
  have hissues : (Iss.mk' s g e i).Issues (f.step (Iss.mk' s g e i).i.head.hints.rep 0) 0 g1 := by
    rw [hstep]
    exact ⟨hmask ▸ hm, hroom, hmask ▸ hord, .inl hz.symm, hmask ▸ hknown, hgate⟩
  have hrun := Iss.accReps_issues (n := 0) hissues
  dsimp only at hrun
  rw [hstep, hmask] at hrun
  rw [exec_accForm_single hf hk hi hr hz, hrun]
  obtain ⟨b, w, rfl⟩ : ∃ b w, g1 = { g with surge := b, surgeWait := w } := ⟨_, _, regGate_ok hgate⟩
  rfl

/-- An access form whose lanes' addresses translate issues one counted operation for them and completes (R228). -/
theorem accForm_ends (hf : i.accForm = some f) (hk : f.kind ≠ .ldfe) (hi : AtIssue i s g e) (ho : Only g e)
    (hr : i.head.hints.rep = none) (hz : e.repi = 0) (hm : (Iss.mk' s g e i).ex ≠ 0)
    (hroom : s.counter g.id (g.ctr f.cc) < 63) (hord : s.orderHolds g (Iss.mk' s g e i).ex i.head.hints.rel = false)
    (hgood : ∀ l, (Iss.mk' s g e i).ex.has l = true →
      (∃ ea, s.planAddr g f (f.needsWindow i.head.hints) (g.effAddr f l) = .skip ea) ∨
        ∃ ea loc tgt r, s.planAddr g f (f.needsWindow i.head.hints) (g.effAddr f l) = .go ea loc tgt r)
    (hgate : s.regGate g (accResults f) = .ok g1) :
    ∃ s' o, Ends i s g e s' g1 ∧ Issued g f s s' o ((Iss.mk' s g e i).ex.toList.map fun l =>
        (l, s.planAddr g f (f.needsWindow i.head.hints) (g.effAddr f l))) ∧ o.lanes = (Iss.mk' s g e i).ex ∧
      o.ctr = g.ctr f.cc ∧ o.poisoned = 0 := by
  let u := Iss.mk' s g e i
  have hmask : u.repeatMask 0 = u.ex := Iss.repeatMask_first hz
  have hknown (l a : Nat) (hl : u.ex.has l = true) : s.planAddr g f (f.needsWindow i.head.hints) (g.effAddr f l) ≠ .wait a := by
    rcases hgood l hl with ⟨ea, h⟩ | ⟨ea, loc, tgt, r, h⟩ <;> rw [h] <;> exact Plan.noConfusion
  have hnofail (l : Nat) (hl : (u.repeatMask 0).has l = true) :
      (s.planAddr g f (f.needsWindow i.head.hints) (g.effAddr f l)).fails = false := by
    rcases hgood l (hmask ▸ hl) with ⟨ea, h⟩ | ⟨ea, loc, tgt, r, h⟩ <;> rw [h] <;> rfl
  obtain ⟨hnone, o, hissued, hlanes, hctr, hpois, -⟩ := u.issued_whole (hmask.symm ▸ hm) hgate hnofail
  have hx := exec_accForm_issues hf hk hi hr hz hm hroom hord hknown hgate
  rw [show planTrap (s.plans g f i.head.hints u.ex) = none from hmask ▸ hnone] at hx
  have hg1 := regGate_ok hgate
  have hgroups := (Carried.of_issued hissued).groups
  refine ⟨_, o, ends_of hx hi ho hgroups ?_ ?_, hmask ▸ hissued, hlanes.trans hmask, hctr, hpois⟩
  · rw [hg1]
  · rw [hg1]; rfl

/-- An access form that no lane executes completes and issues nothing. -/
theorem accForm_ends_idle (hf : i.accForm = some f) (hk : f.kind ≠ .ldfe) (hi : AtIssue i s g e) (ho : Only g e)
    (hr : i.head.hints.rep = none) (hz : e.repi = 0) (hm : (Iss.mk' s g e i).ex = 0) : Ends i s g e s g := by
  have hx := exec_accForm_single hf hk hi hr hz
  rw [Iss.accReps_idle ((Iss.repeatMask_first hz).trans hm)] at hx
  exact ends_of hx hi ho rfl rfl rfl

end Single

/-! ### Registers of a repeated access (R64, R101, R105) -/

/-- The registers that a load or store names, over all repeats. -/
structure LoadOrStore (i : Instr) (f : AccForm) : Prop where
  srcs : i.srcs = [(f.a, 0)]
  fields : i.stepFields = (some f.d, f.a.vreg?, none)
  dest : let ds := spread ((i.head.hints.rep.map (·.sd)).getD false) i.head.hints.reps f.d
    ((∃ sg, f.kind = .load sg) ∧ i.vwrites = ds) ∨ (f.kind = .store ∧ i.extraReads = ds)
  others : ∀ s g e, (Iss.mk' s g e i).others = s

theorem loadOrStore_of {i : Instr} {f : AccForm} (hf : i.accForm = some f) (hk : (∃ sg, f.kind = .load sg) ∨ f.kind = .store) :
    LoadOrStore i f := by
  cases i with
  | ldN8 | ldN16 | ldN32 | ldB64 | ldS8 | ldS16 | ldS32 =>
    cases hf
    exact ⟨rfl, rfl, .inl ⟨⟨_, rfl⟩, rfl⟩, fun _ _ _ => rfl⟩
  | stB8 | stB16 | stB32 | stB64 =>
    cases hf
    exact ⟨rfl, rfl, .inr ⟨rfl, rfl⟩, fun _ _ _ => rfl⟩
  | ldfe | stfe | fefill | feq | atom | atomf | cas | pref | cinv | cwb =>
    cases hf
    rcases hk with ⟨_, h⟩ | h <;> cases h
  | _ => cases hf

theorem step_mem_spread {on : Bool} {cnt n j : Nat} (hj : j ≤ cnt) : (if on then n + j else n) ∈ spread on cnt n := by
  cases on with
  | false => exact List.mem_singleton.mpr rfl
  | true => exact List.mem_map.mpr ⟨j, List.mem_range.mpr (Nat.lt_succ_of_le hj), rfl⟩

/-- The vector register of a stepped source, whose steps stay within the file (R64). -/
theorem vreg?_step {on : Bool} {cnt j : Nat} {x : Src} (hok : stepOk on x.vreg? cnt = true) (hj : j ≤ cnt) {n : Nat}
    (hn : (Src.step on j x).vreg? = some n) : ∃ b, x = .v b ∧ n = if on then b.toNat + j else b.toNat := by
  cases x with
  | v b =>
    cases on with
    | false => exact ⟨b, rfl, (Option.some.inj hn).symm⟩
    | true =>
      refine ⟨b, rfl, (Option.some.inj hn).symm.trans ?_⟩
      have hle : b.toNat + cnt ≤ 31 := of_decide_eq_true hok
      rw [if_pos rfl, BitVec.toNat_add, BitVec.toNat_ofNat]
      omega
  | _ => cases hn

/-- The registers of a legal sequence's stepped fields stay within the file (R64, R77). -/
theorem stepOk_of_legal {i : Instr} {r : RepHint} {d a b : Option Nat} (hr : i.head.hints.rep = some r) (hl : i.codesAt none = [])
    (hfields : i.stepFields = (d, a, b)) : stepOk r.sd d r.cnt.toNat = true ∧ stepOk r.sa a r.cnt.toNat = true := by
  simp only [Instr.codesAt, hintCodes, hr, hfields, List.append_eq_nil_iff] at hl
  obtain ⟨⟨⟨⟨⟨⟨-, hrep⟩, -⟩, -⟩, -⟩, -⟩, -⟩ := hl
  unfold codeIf at hrep
  split at hrep
  · cases hrep
  · rename_i h
    simp only [Bool.or_eq_true, Bool.not_eq_true', not_or, Bool.not_eq_false] at h
    exact ⟨h.1.1.2, h.1.2⟩

theorem AccForm.mem_names {f : AccForm} {n : Nat} : n ∈ AccForm.names f ↔ n = f.d ∨ f.a.vreg? = some n := by
  unfold AccForm.names Src.vreg?
  cases f.a <;> simp [eq_comm]

section Named

variable {i : Instr} {f : AccForm} {r : RepHint} {j : Nat}

/-- A register that some repeat names is one of those its sequence names. -/
theorem LoadOrStore.named (h : LoadOrStore i f) (hr : i.head.hints.rep = some r) (hl : i.codesAt none = []) (hj : j ≤ r.cnt.toNat)
    {n : Nat} (hn : n ∈ AccForm.names (f.step (some r) j)) : n ∈ i.vreads ++ i.vwrites := by
  obtain ⟨hsrcs, hfields, hdest, -⟩ := h
  have hreps : i.head.hints.reps = r.cnt.toNat := by rw [Hints.reps, hr]; rfl
  rw [hr, hreps] at hdest
  rcases AccForm.mem_names.mp hn with rfl | hn
  · have hmem : (f.step (some r) j).d ∈ spread r.sd r.cnt.toNat f.d := step_mem_spread hj
    rcases hdest with ⟨-, hw⟩ | ⟨-, hx⟩
    · exact List.mem_append_right _ (hw ▸ hmem)
    · refine List.mem_append_left _ (List.mem_append_right _ ?_)
      exact hx ▸ hmem
  · obtain ⟨b, hb, rfl⟩ := vreg?_step (stepOk_of_legal hr hl hfields).2 hj hn
    refine List.mem_append_left _ (List.mem_append_left _ ?_)
    rw [hsrcs, hr, hreps, hb]
    simpa using step_mem_spread hj

/-- What a repeat of a load writes is one of the registers its sequence writes; a store writes none. -/
theorem LoadOrStore.written (h : LoadOrStore i f) (hr : i.head.hints.rep = some r) (hj : j ≤ r.cnt.toNat) {n : Nat}
    (hn : n ∈ accResults (f.step (some r) j)) : n ∈ i.vwrites := by
  obtain ⟨-, -, hdest, -⟩ := h
  have hreps : i.head.hints.reps = r.cnt.toNat := by rw [Hints.reps, hr]; rfl
  rw [hr, hreps] at hdest
  have hkind : (f.step (some r) j).kind = f.kind := rfl
  unfold accResults at hn
  rcases hdest with ⟨⟨sg, hk⟩, hw⟩ | ⟨hk, -⟩
  · rw [hkind, hk] at hn
    rw [List.mem_singleton.mp hn, hw]
    exact step_mem_spread hj
  · rw [hkind, hk] at hn
    cases hn

/-- The registers that an access of a load or store is to write are its repeat's results. -/
theorem LoadOrStore.dregs (h : LoadOrStore i f) {acq : Bool} {a : Access} {x : Option RepHint}
    (ha : AccessFor (f.step x j) acq a) : a.dregs = accResults (f.step x j) := by
  obtain ⟨-, -, hdest, -⟩ := h
  obtain ⟨hkind, hreg, -⟩ := ha
  have hk : (f.step x j).kind = f.kind := by cases x <;> rfl
  unfold Access.dregs accResults
  rw [hkind, hreg, hk]
  rcases hdest with ⟨⟨sg, hk⟩, -⟩ | ⟨hk, -⟩ <;> rw [hk]

end Named

/-! ### Repeats issued in order (R105, R228) -/

/-- What the repeats before `j` may have changed: accesses of theirs are in flight, one counted operation of each counts. -/
structure Repeated (g : Group) (f : Nat → AccForm) (s t : State) (j : Nat) : Prop where
  carried : Carried s t
  kept : ∀ a ∈ s.accs, a ∈ t.accs
  added : ∀ a ∈ t.accs, a ∈ s.accs ∨ ∃ k < j, AccessFor (f k) false a
  sound : ∀ o ∈ t.ops, o ∈ s.ops ∨ o.poisoned = 0
  count : ∀ c, t.counter g.id c ≤ s.counter g.id c + j

namespace Repeated

variable {g : Group} {f : Nat → AccForm} {s t r : State} {j : Nat} {o : CountedOp} {ps : List (Nat × Plan)}

theorem start (g : Group) (f : Nat → AccForm) (s : State) : Repeated g f s s 0 :=
  ⟨.refl s, fun _ h => h, fun _ h => .inl h, fun _ h => .inl h, fun _ => Nat.le_refl _⟩

/-- A repeat that no lane executes issues nothing. -/
theorem skip (h : Repeated g f s t j) : Repeated g f s t (j + 1) := by
  obtain ⟨hcarried, hkept, hadded, hsound, hcount⟩ := h
  exact ⟨hcarried, hkept, fun a ha => (hadded a ha).imp_right fun ⟨k, hk, hfor⟩ => ⟨k, Nat.lt_succ_of_lt hk, hfor⟩, hsound,
    fun c => (hcount c).trans (Nat.le_succ _)⟩

theorem next (h : Repeated g f s t j) (hi : Issued g (f j) t r o ps) (hp : o.poisoned = 0)
    (hnew : ∀ a ∈ r.accs, a ∈ t.accs ∨ AccessFor (f j) false a) : Repeated g f s r (j + 1) := by
  obtain ⟨hcarried, hkept, hadded, hsound, hcount⟩ := h
  have hstep := Carried.of_issued hi
  obtain ⟨-, -, hops, -, as, haccs, -⟩ := hi
  refine ⟨hcarried.trans hstep, fun a ha => ?_, fun a ha => ?_, fun x hx => ?_, fun c => ?_⟩
  · rw [haccs]
    exact List.mem_append_left _ (hkept a ha)
  · rcases hnew a ha with ha | hfor
    · exact (hadded a ha).imp_right fun ⟨k, hk, hfor⟩ => ⟨k, Nat.lt_succ_of_lt hk, hfor⟩
    · exact .inr ⟨j, Nat.lt_succ_self j, hfor⟩
  · rw [hops] at hx
    rcases List.mem_append.mp hx with hx | hx
    · exact hsound x hx
    · exact .inr (List.mem_singleton.mp hx ▸ hp)
  · have hone : r.counter g.id c ≤ t.counter g.id c + 1 := by
      unfold State.counter
      rw [hops, List.filter_append, List.length_append]
      exact Nat.add_le_add_left (List.length_filter_le _ _) _
    have := hcount c
    omega

/-- A register that none of the issued repeats loads, and that was not pending, is not pending. -/
theorem pendV (h : Repeated g f s t j) {n : Nat} (hn : s.pendV g n = false)
    (hdregs : ∀ k a, AccessFor (f k) false a → a.dregs = accResults (f k))
    (hfree : ∀ k < j, n ∉ accResults (f k)) : t.pendV g n = false := by
  obtain ⟨-, -, hadded, hsound, -⟩ := h
  unfold State.pendV State.pendingAccs at hn ⊢
  simp only [Bool.or_eq_false_iff, List.any_eq_false, Bool.and_eq_false_iff, List.mem_filter, Bool.and_eq_true, beq_iff_eq,
    decide_eq_true_eq, List.contains_iff_mem, not_and, Bool.not_eq_false', and_imp] at hn ⊢
  obtain ⟨haccs, hops⟩ := hn
  refine ⟨fun a ha hgrp hdst hhnd => ?_, hops.imp_right fun hops x hx hgrp hpois => ?_⟩
  · rcases hadded a ha with ha | ⟨k, hk, hfor⟩
    · exact haccs a ha hgrp hdst hhnd
    · rw [hdregs k a hfor]
      exact hfree k hk
  · rcases hsound x hx with hx | hz
    · exact hops x hx hgrp hpois
    · exact absurd hz hpois

theorem orderHolds (h : Repeated g f s t j) (hacq : ∀ a ∈ s.accs, a.grp = g.id → a.acq = false) (m : Mask) :
    t.orderHolds g m false = false := by
  obtain ⟨-, -, hadded, -, -⟩ := h
  refine List.any_eq_false.mpr fun a ha => ?_
  simp only [Bool.and_eq_true, Bool.or_false, beq_iff_eq, not_and, Bool.not_eq_true, and_imp]
  intro hgrp _
  rcases hadded a ha with ha | ⟨k, -, hfor⟩
  · exact hacq a ha hgrp
  · exact hfor.order

theorem holds (h : Repeated g f s t j) {ws : List Nat} (hs : s.holds g ws) : t.holds g ws := by
  refine hs.imp_right fun hall n hn => ?_
  rw [State.mem_mappedRegs]
  exact (State.mem_mappedRegs.mp (hall n hn)).imp_right fun ⟨a, ha, hrest⟩ => ⟨a, h.kept a ha, hrest⟩

end Repeated

section Repeats

variable {i : Instr} {f0 : AccForm} {r : RepHint} {s : State} {g : Group} {e : Entry}

/-- The lanes that repeat `j` of a sequence is issued for. -/
def repeatLanes (i : Instr) (g : Group) (e : Entry) (j : Nat) : Mask := g.execMask i (if j = 0 then e.restart.getD e.mask else e.mask)

/-- The plan of a lane in repeat `j` where no walk has ended. -/
def repeatPlan (i : Instr) (f0 : AccForm) (r : RepHint) (s : State) (g : Group) (j l : Nat) : Plan :=
  ({ s with walks := [] } : State).planAddr g (f0.step (some r) j) (f0.needsWindow i.head.hints) (g.effAddr (f0.step (some r) j) l)

/-- A load or store whose repeats can be issued one after another: no order, its counter and registers free, its addresses translated
without a walk. -/
structure Repeatable (i : Instr) (f0 : AccForm) (r : RepHint) (s : State) (g : Group) (e : Entry) : Prop where
  form : i.accForm = some f0
  kind : (∃ sg, f0.kind = .load sg) ∨ f0.kind = .store
  rep : i.head.hints.rep = some r
  issue : AtIssue i s g e
  whole : e.repi = 0
  acq : i.head.hints.acq = false
  rel : i.head.hints.rel = false
  unordered : ∀ a ∈ s.accs, a.grp = g.id → a.acq = false
  room : s.counter g.id (g.ctr f0.cc) + r.cnt.toNat < 63
  mapped : s.holds g i.vwrites
  apart : ∀ j k, k < j → j ≤ r.cnt.toNat → ∀ d ∈ accResults (f0.step (some r) k), d ∉ AccForm.names (f0.step (some r) j)
  known : ∀ j l, j ≤ r.cnt.toNat → (repeatLanes i g e j).has l = true → ∃ ea loc tgt p, repeatPlan i f0 r s g j l = .go ea loc tgt p

namespace Repeatable

variable (h : Repeatable i f0 r s g e) {t : State} {j : Nat}
include h

/-- The state of the issue at a later repeat. -/
theorem repeatMask : ({ Iss.mk' s g e i with s := t } : Iss).repeatMask j = repeatLanes i g e j := by
  unfold Iss.repeatMask repeatLanes
  rw [← h.whole]
  rfl

theorem plan (ht : Repeated g (f0.step (some r)) s t j) (hj : j ≤ r.cnt.toNat) {l : Nat} (hl : (repeatLanes i g e j).has l = true) :
    ∃ ea loc tgt p, repeatPlan i f0 r s g j l = .go ea loc tgt p ∧
      t.planAddr g (f0.step (some r) j) (f0.needsWindow i.head.hints) (g.effAddr (f0.step (some r) j) l) = .go ea loc tgt p := by
  obtain ⟨ea, loc, tgt, p, hplan⟩ := h.known j l hj hl
  exact ⟨ea, loc, tgt, p, hplan, ht.carried.planAddr_of_tlb hplan⟩

/-- Each repeat may issue once those before it have. -/
theorem issues (ht : Repeated g (f0.step (some r)) s t j) (hj : j ≤ r.cnt.toNat) (hm : repeatLanes i g e j ≠ 0) :
    ({ Iss.mk' s g e i with s := t } : Iss).Issues (f0.step (some r) j) j g := by
  have hform := loadOrStore_of h.form h.kind
  have hmask := h.repeatMask (t := t) (j := j)
  refine ⟨hmask ▸ hm, ?_, ?_, .inr fun n hn => ?_, fun l a hl => ?_, regGate_of_holds ?_⟩
  · have := ht.count (g.ctr f0.cc)
    have := h.room
    change t.counter g.id (g.ctr f0.cc) < 63
    omega
  · change t.orderHolds g _ i.head.hints.rel = false
    rw [h.rel]
    exact ht.orderHolds h.unordered _
  · have hnamed := hform.named h.rep h.issue.legal hj hn
    have hfree := h.issue.free
    rw [Iss.pending, hform.others, Bool.or_eq_false_iff, List.any_eq_false] at hfree
    refine ht.pendV (Bool.eq_false_iff.mpr (hfree.1 n hnamed)) (fun k a ha => hform.dregs ha) fun k hk hd => ?_
    exact h.apart j k hk hj n hd hn
  · obtain ⟨ea, loc, tgt, p, -, hplan⟩ := h.plan ht hj (hmask ▸ hl)
    exact hplan.trans_ne Plan.noConfusion
  · exact ht.holds (State.holds_of_subset h.mapped fun n hn => hform.written h.rep hj hn)

/-- From repeat `j` on, the repeats that are left are issued in order, and the sequence completes. -/
theorem runs (n : Nat) : ∀ (j : Nat) (t : State), Repeated g (f0.step (some r)) s t j → j + n = r.cnt.toNat + 1 →
    ∃ s', Carried s s' ∧ ({ Iss.mk' s g e i with s := t } : Iss).accReps f0 n j = ({ Iss.mk' s g e i with s := s' } : Iss).finish g ∧
      RepeatsIssued g (f0.step (some r)) (repeatLanes i g e) (repeatPlan i f0 r s g) n j t s' := by
  induction n with
  | zero => exact fun j t ht _ => ⟨t, ht.carried, rfl, rfl⟩
  | succ n ih =>
    intro j t ht hj
    have hle : j ≤ r.cnt.toNat := by omega
    have hmask := h.repeatMask (t := t) (j := j)
    by_cases hm : repeatLanes i g e j = 0
    · obtain ⟨s', hc, hx, hissued⟩ := ih (j + 1) t ht.skip (by omega)
      refine ⟨s', hc, (Iss.accReps_idle (hmask.trans hm)).trans hx, ?_⟩
      rw [RepeatsIssued, if_pos hm]
      exact hissued
    · let u : Iss := { Iss.mk' s g e i with s := t }
      have hissues := h.issues ht hle hm
      have hplans : t.plans g (f0.step (some r) j) i.head.hints (repeatLanes i g e j) =
          (repeatLanes i g e j).toList.map fun l => (l, repeatPlan i f0 r s g j l) := by
        refine List.map_congr_left fun l hl => ?_
        obtain ⟨ea, loc, tgt, p, hplan, hplan'⟩ := h.plan ht hle (Mask.mem_toList.mp hl)
        rw [hplan]
        exact congrArg (l, ·) hplan'
      obtain ⟨hnone, o, hissued, hlanes, hctr, hpois, hnew⟩ := u.issued_whole (hmask.symm ▸ hm) hissues.mapped fun l hl => by
        obtain ⟨ea, loc, tgt, p, -, hplan⟩ := h.plan ht hle (hmask ▸ hl)
        exact (congrArg Plan.fails hplan :)
      have hacq : u.i.head.hints.acq = false := h.acq
      rw [hacq] at hnew
      obtain ⟨s', hc, hx, hrest⟩ := ih (j + 1) _ (ht.next hissued hpois hnew) (by omega)
      have hstep : f0.step u.i.head.hints.rep j = f0.step (some r) j := congrArg (f0.step · j) h.rep
      have hrun := Iss.accReps_issues (u := u) (f0 := f0) (n := n) (hstep ▸ hissues)
      dsimp only at hrun
      rw [hstep, hnone] at hrun
      refine ⟨s', hc, hrun.trans hx, ?_⟩
      rw [RepeatsIssued, if_neg hm, ← hplans]
      rw [hmask] at hissued hlanes
      exact ⟨_, o, hissued, hlanes, hctr, hpois, hrest⟩

end Repeatable

/-- A repeated load or store issues its repeats in order and completes (R105). -/
theorem Repeatable.ends (h : Repeatable i f0 r s g e) (ho : Only g e) : ∃ s', Ends i s g e s' g ∧
    RepeatsIssued g (f0.step (some r)) (repeatLanes i g e) (repeatPlan i f0 r s g) (r.cnt.toNat + 1) 0 s s' := by
  obtain ⟨s', hc, hrun, hissued⟩ := h.runs (r.cnt.toNat + 1) 0 s (.start g _ s) (Nat.zero_add _)
  have hkind : f0.kind ≠ .ldfe := by
    rcases h.kind with ⟨sg, hk⟩ | hk <;> rw [hk] <;> exact AccKind.noConfusion
  have hx := exec_accForm h.form hkind h.issue
  rw [h.whole, show i.head.hints.reps = r.cnt.toNat by rw [Hints.reps, h.rep]; rfl] at hx
  exact ⟨s', ends_of (hx.trans (by rw [← hrun]; rfl)) h.issue ho hc.groups rfl rfl, hissued⟩

end Repeats

/-- Settles O35: an access form issues one counted operation for its lanes, and a repeated load or store one for each repeat. -/
theorem accessIssue : Obligations.AccessIssue := by
  unfold Obligations.AccessIssue
  refine ⟨fun i f s g g1 e hf hk hi ho hr hz => ⟨accForm_ends_idle hf hk hi ho hr hz, accForm_ends hf hk hi ho hr hz⟩, ?_⟩
  intro i f0 r s g e hf hk hr hi ho hz cnt f m plan hacq hrel hunord hroom hmapped hapart hknown
  exact Repeatable.ends ⟨hf, hk, hr, hi, hz, hacq, hrel, hunord, hroom, hmapped, hapart, hknown⟩ ho

end Sys2Proof.Machine
end

section
/-! PROOFS. Access faults: the checks of one address and the trap of the lanes that fail them (spec 08 R219, R254; spec 13 R344, R345,
R425), and from them the obligation on address faults. -/

set_option Elab.async false

namespace Sys2Proof.Machine

/-! ### Faults of one address (R219, R254) -/

/-- The checks of an address form come in this order: its window, its alignment, its action, its translation. -/
theorem planAddr_checks (s : State) (g : Group) {f : AccForm} (nw : Bool) (ea : Nat) (hl : f.line = 0) :
    let p := s.planAddr g f nw ea
    let w := (s.gang? g.gang).bind fun ga => s.windowLoc ga (s.groupCtx g) ea f.size
    (winOf ea = .translated → ea % f.size ≠ 0 → p = .bad 9 1 ea) ∧
    (winOf ea = .translated → ea % f.size = 0 → nw = true → p = .bad 9 2 ea) ∧
    (∀ c, winOf ea = .translated → ea % f.size = 0 → nw = false → s.xlate g.die g.cluster (s.groupCtx g) ea f.use = .fault c →
      p = .bad 8 c ea) ∧
    (winOf ea ≠ .translated → w = none → p = .bad 9 0 ea) ∧
    (∀ loc, winOf ea ≠ .translated → w = some loc → ea % f.size ≠ 0 → p = .bad 9 1 ea) ∧
    (∀ loc, winOf ea ≠ .translated → w = some loc → ea % f.size = 0 → p = .go ea loc 0 none) := by
  intro p w
  have hmis (h : ea % f.size ≠ 0) : (ea % f.size != 0) = true := bne_iff_ne.mpr h
  have hal (h : ea % f.size = 0) : ¬(ea % f.size != 0) = true := by rw [h]; exact Bool.noConfusion
  have hp : p = s.planAddr g f nw ea := rfl
  unfold State.planAddr at hp
  rw [if_neg (not_not.mpr hl)] at hp
  cases hw : winOf ea with
  | translated =>
    rw [hw] at hp
    dsimp only at hp
    refine ⟨fun _ h => ?_, fun _ h hn => ?_, fun c _ h hn hx => ?_, fun h => absurd rfl h,
      fun _ h => absurd rfl h, fun _ h => absurd rfl h⟩
    · rw [hp, if_pos (hmis h)]
    · rw [hp, if_neg (hal h), if_pos hn]
    · rw [hp, if_neg (hal h), if_neg (ne_true_of_eq_false hn), hx]
  | gang | sram =>
    rw [hw] at hp
    dsimp only at hp
    change p = (match w with | none => _ | some loc => _) at hp
    refine ⟨Win.noConfusion, Win.noConfusion, fun c => Win.noConfusion, fun _ h => ?_, fun loc _ h hm => ?_, fun loc _ h hm => ?_⟩
    · rw [hp, h]
    · rw [hp, h]
      exact if_pos (hmis hm)
    · rw [hp, h]
      exact if_neg (hal hm)

/-! ### The trap of a repeat's failing lanes (R344, R425) -/

/-- The trap of a list of failing lanes: the first one's, for all of them. -/
theorem planTrap_eq {ps : List (Nat × Plan)} {l c d ea : Nat} {t : List (Nat × Plan)}
    (h : ps.filter (fun x => x.2.fails) = (l, .bad c d ea) :: t) : planTrap ps = some
      { cls := c, detail := d, addr := ea, tmask := Mask.ofPred fun k => (ps.filter fun x => x.2.fails).any (·.1 == k) } := by
  induction ps with
  | nil => cases h
  | cons x xs ih =>
    obtain ⟨k, p⟩ := x
    cases hp : p.fails with
    | false =>
      have hdrop : ((k, p) :: xs).filter (fun x => x.2.fails) = xs.filter fun x => x.2.fails :=
        List.filter_cons_of_neg (by simp [hp])
      rw [hdrop] at h ⊢
      rw [planTrap_cons _ _ _ hp]
      exact ih h
    | true =>
      have hkeep : ((k, p) :: xs).filter (fun x => x.2.fails) = (k, p) :: xs.filter fun x => x.2.fails :=
        List.filter_cons_of_pos hp
      rw [hkeep] at h ⊢
      obtain ⟨heq, -⟩ := List.cons.inj h
      obtain ⟨rfl, rfl⟩ := Prod.mk.inj heq
      refine congrArg some ?_
      have : ∀ j, ((k, Plan.bad c d ea) :: xs.filter fun x => x.2.fails).any (·.1 == j) =
          (j == k || (xs.filter fun x => x.2.fails).any (·.1 == j)) := fun j => by
        rw [List.any_cons, Bool.beq_comm]
      simp only [this]
      rfl

/-- The trap of the lanes of a mask: the lowest failing lane's, for all that fail. -/
theorem planTrap_lanes {m : Mask} {F : Nat → Plan} {l0 c d ea : Nat} (hl : m.has l0 = true) (h0 : F l0 = .bad c d ea)
    (hfirst : ∀ l, l < l0 → m.has l = true → (F l).fails = false) : planTrap (m.toList.map fun l => (l, F l)) = some
      { cls := c, detail := d, addr := ea, tmask := Mask.ofPred fun l => m.has l && (F l).fails } := by
  obtain ⟨rest, hrest⟩ := lanes_filter_of_first (p := fun l => m.has l && (F l).fails) (Mask.has_lt hl) (by simp [hl, h0, Plan.fails])
    fun l hlt => by
      cases hm : m.has l with
      | false => rfl
      | true => exact hfirst l hlt hm
  have hfilter : (m.toList.map fun l => (l, F l)).filter (fun x => x.2.fails) =
      (lanes.filter fun l => m.has l && (F l).fails).map fun l => (l, F l) := by
    rw [List.filter_map, Mask.toList, List.filter_filter]
    refine congrArg (List.map _) (List.filter_congr fun l _ => Bool.and_comm ..)
  rw [planTrap_eq (l := l0) (t := rest.map fun l => (l, F l)) (c := c) (d := d) (ea := ea)]
  · refine congrArg some ?_
    have hmask : (Mask.ofPred fun k => ((m.toList.map fun l => (l, F l)).filter fun x => x.2.fails).any (·.1 == k)) =
        Mask.ofPred fun l => m.has l && (F l).fails := by
      refine Mask.ext_has fun l hlt => ?_
      rw [Mask.has_ofPred, Mask.has_ofPred, hfilter, List.any_map, Bool.eq_iff_iff]
      simp [List.any_filter, lanes, Function.comp]
    rw [hmask]
  · rw [hfilter, hrest, List.map_cons, h0]

/-! ### What a trap leaves (R344, R352) -/

theorem State.event_ops (s : State) (code a b : Nat) : (s.event code a b).ops = s.ops := by rw [State.event_eq]

theorem State.supAppend_flights (s : State) (g : Group) (t : TrapRec) :
    (s.supAppend g t).accs = s.accs ∧ (s.supAppend g t).ops = s.ops := by
  unfold State.supAppend
  dsimp only
  split
  · exact ⟨rfl, rfl⟩
  · split
    · exact ⟨rfl, rfl⟩
    · simp only [State.updGroup_accs, State.updGroup_ops, State.event_accs, State.event_ops, State.updCtx_accs, State.updCtx_ops,
        State.wr_accs, State.wr_ops, and_self]

/-- Taking a trap leaves the accesses in flight and the counted operations. -/
theorem State.takeTrap_flights (s : State) (g : Group) (e : Entry) (a : TrapArgs) :
    (s.takeTrap g e a).accs = s.accs ∧ (s.takeTrap g e a).ops = s.ops := by
  unfold State.takeTrap
  dsimp only
  split
  · refine ⟨(State.supAppend_flights ..).1.trans ?_, (State.supAppend_flights ..).2.trans ?_⟩
    · rw [State.updCluster_accs]; rfl
    · rw [State.updCluster_ops]; rfl
  · split
    · exact State.supAppend_flights ..
    · exact ⟨rfl, rfl⟩

theorem Iss.trapAfter_flights (u : Iss) (g : Group) (a : TrapArgs) :
    (u.trapAfter g a).accs = u.s.accs ∧ (u.trapAfter g a).ops = u.s.ops := by
  obtain ⟨haccs, hops⟩ := (u.put g).takeTrap_flights (u.started g) u.e (u.trapArgs a)
  refine ⟨haccs.trans ?_, hops.trans ?_⟩
  · rw [Iss.put, State.updCluster_accs]; rfl
  · rw [Iss.put, State.updCluster_ops]; rfl

theorem Group.trapTaken_getS (g : Group) (e : Entry) (t : TrapRec) (st : Stop) (n : Nat) : (g.trapTaken e t st).getS n = g.getS n :=
  Iss.setFront_getS g.tried _ n

theorem Group.trapTaken_front (g : Group) (e : Entry) (t : TrapRec) (st : Stop) : (g.trapTaken e t st).front =
    g.front.map fun x => if x.mask = e.mask then { x with restart := some t.lmask, mid := false, repi := e.repi } else x :=
  front_setFront g.tried _

/-- A trap after effects in `g1`, outside handler mode: its record, the registers of `g1`, and the entry where it stood with the lanes to
restart. -/
theorem Iss.trapAfter_leaves {u : Iss} {g1 : Group} (a : TrapArgs) (hs : (u.s.group? u.g.id).isSome = true) (hid : g1.id = u.g.id)
    (hh : g1.inHandler = false) (he : u.e ∈ g1.front) :
    let r := mkTrapRec u.e (u.trapArgs a) (u.put g1).next
    ∃ x, (u.trapAfter g1 a).group? u.g.id = some x ∧ x.trap = some r ∧ SameRegisters g1 x ∧
      ∃ y ∈ x.front, y.mask = u.e.mask ∧ y.pc = u.e.pc ∧ y.restart = some r.lmask := by
  intro r
  have hput : (u.put g1).group? u.g.id = some g1 := Iss.put_group u g1 hs hid
  have hstarted : (u.started g1).id = u.g.id := (Group.SamePlace.id (Iss.started_samePlace u g1)).trans hid
  obtain ⟨st, hx⟩ := State.group?_takeTrap (s := u.put g1) u.e (u.trapArgs a) ((Iss.started_inHandler u g1).trans hh)
    (by rw [hstarted, hput]; rfl)
  rw [hstarted] at hx
  refine ⟨_, hx, rfl, (SameRegisters.started u g1).trans ⟨fun r l _ => Group.trapTaken_getV .., Group.trapTaken_getP _ _ _ _,
    Group.trapTaken_getS _ _ _ _, Group.trapTaken_fpflags ..⟩, ?_⟩
  refine ⟨{ u.e with yielded := false, restart := some r.lmask, mid := false }, ?_, rfl, rfl, rfl⟩
  rw [Group.trapTaken_front, Iss.front_started, List.map_map]
  exact List.mem_map.mpr ⟨u.e, he, if_pos rfl⟩

/-! ### A repeat that traps for some lanes (R345) -/

/-- The plan of a lane is an access. -/
def Plan.goes (p : Plan) : Bool := match p with | .go .. => true | _ => false

theorem planLanes_eq_zero {m : Mask} {F : Nat → Plan} (h : planLanes (m.toList.map fun l => (l, F l)) = 0) (l : Nat)
    (hl : m.has l = true) : (F l).fails = true := by
  have := has_planLanes m F l
  rw [h, Mask.has_zero, hl, Bool.true_and] at this
  simpa using this.symm

/-- The lanes of the accesses that plans give are those that go. -/
theorem lanes_of_plans (g : Group) (f : AccForm) (op : Nat) (F : Nat → Plan) (ls : List Nat) :
    ((ls.map fun l => (l, F l)).filterMap fun x => accessOf g f op x.1 x.2).map (·.2.2.1) = ls.filter fun l => (F l).goes := by
  induction ls with
  | nil => rfl
  | cons l t ih =>
    rw [List.map_cons, List.filterMap_cons, List.filter_cons]
    cases h : F l with
    | go => exact congrArg (l :: ·) ih
    | skip | bad | wait => exact ih

/-- A repeat some of whose lanes fault issues the accesses of the others under no counter. -/
theorem Iss.issued_partly {u : Iss} {f : AccForm} {j : Nat} {g1 : Group} {a : TrapArgs}
    (ht : planTrap (u.s.plans u.g f u.i.head.hints (u.repeatMask j)) = some a) :
    let F (l : Nat) := u.s.planAddr u.g f (f.needsWindow u.i.head.hints) (u.g.effAddr f l)
    (u.issued f j g1).groups = u.s.groups ∧
    (∃ as, (u.issued f j g1).accs = u.s.accs ++ as ∧ as.map (·.lane) = (u.repeatMask j).toList.filter fun l => (F l).goes) ∧
    ∀ o ∈ (u.issued f j g1).ops, o ∈ u.s.ops ∨ o.ctr = 8 := by
  intro F
  by_cases hnone : planLanes (u.s.plans u.g f u.i.head.hints (u.repeatMask j)) = 0
  · have hs : u.issued f j g1 = u.s.consumeWalks u.g.die u.g.cluster u.ctx := if_pos hnone
    have hgo : (u.repeatMask j).toList.filter (fun l => (F l).goes) = [] := by
      refine List.filter_eq_nil_iff.mpr fun l hl => ?_
      have hbad : (F l).fails = true := planLanes_eq_zero hnone l (Mask.mem_toList.mp hl)
      cases h : F l with
      | bad => exact Bool.noConfusion
      | go | skip | wait => rw [h] at hbad; cases hbad
    rw [hs, hgo]
    exact ⟨rfl, ⟨[], (List.append_nil _).symm, rfl⟩, fun o ho => .inl ho⟩
  · obtain ⟨hissued, -⟩ := (u.s.consumeWalks u.g.die u.g.cluster u.ctx).issueOp_issued g1 f u.i.head.hints u.e
      (planTrap (u.s.plans u.g f u.i.head.hints (u.repeatMask j))).isSome hnone
    have hgroups := (Carried.of_issued hissued).groups
    obtain ⟨-, -, hops, -, as, haccs, hmap⟩ := hissued
    refine ⟨hgroups, ⟨as, haccs, ?_⟩, fun o ho => ?_⟩
    · have := congrArg (List.map (·.2.2.1)) hmap
      rw [List.map_map] at this
      exact this.trans (lanes_of_plans ..)
    · rw [Iss.issued, hops] at ho
      refine (List.mem_append.mp ho).imp id fun ho => ?_
      rw [List.mem_singleton.mp ho, ht]
      rfl

section Faults

variable {i : Instr} {f : AccForm} {s : State} {g g1 : Group} {e : Entry} {l0 cls det ea : Nat}

/-- Where some lanes fail, an access form takes one trap for them, and the others issue. -/
theorem accForm_faults (hf : i.accForm = some f) (hk : f.kind ≠ .ldfe) (hi : AtIssue i s g e) (hr : i.head.hints.rep = none)
    (hz : e.repi = 0) (hh : g.inHandler = false) (hroom : s.counter g.id (g.ctr f.cc) < 63)
    (hord : s.orderHolds g (Iss.mk' s g e i).ex i.head.hints.rel = false)
    (hknown : ∀ l a, (Iss.mk' s g e i).ex.has l = true → s.planAddr g f (f.needsWindow i.head.hints) (g.effAddr f l) ≠ .wait a)
    (hgate : s.regGate g (accResults f) = .ok g1) (hl : (Iss.mk' s g e i).ex.has l0 = true)
    (h0 : s.planAddr g f (f.needsWindow i.head.hints) (g.effAddr f l0) = .bad cls det ea)
    (hfirst : ∀ l, l < l0 → (Iss.mk' s g e i).ex.has l = true →
      (s.planAddr g f (f.needsWindow i.head.hints) (g.effAddr f l)).fails = false) :
    let F (l : Nat) := s.planAddr g f (f.needsWindow i.head.hints) (g.effAddr f l)
    ∃ t g' r as, exec i s = .next t ∧ t.group? g.id = some g' ∧ g'.trap = some r ∧ r.cls = cls ∧ r.detail = det ∧ r.addr = ea ∧
      r.pc = e.pc ∧ r.emask = e.mask ∧ r.tmask = Mask.ofPred (fun l => (Iss.mk' s g e i).ex.has l && (F l).fails) ∧ SameRegisters g g' ∧
      (∃ x ∈ g'.front, x.mask = e.mask ∧ x.pc = e.pc ∧ x.restart = some r.tmask) ∧
      t.accs = s.accs ++ as ∧ as.map (·.lane) = (Iss.mk' s g e i).ex.toList.filter (fun l => (F l).goes) ∧
      ∀ o ∈ t.ops, o ∈ s.ops ∨ o.ctr = 8 := by
  intro F
  let u := Iss.mk' s g e i
  have hmask : u.repeatMask 0 = u.ex := Iss.repeatMask_first hz
  have hne : u.ex ≠ 0 := fun h => by rw [h, Mask.has_zero] at hl; cases hl
  have htrap := planTrap_lanes hl h0 hfirst
  have hx := exec_accForm_issues hf hk hi hr hz hne hroom hord hknown hgate
  rw [show planTrap (s.plans g f i.head.hints u.ex) = _ from htrap] at hx
  obtain ⟨hgroups, ⟨as, haccs, hlanes⟩, hops⟩ := u.issued_partly (f := f) (j := 0) (g1 := g1) (hmask.symm ▸ htrap)
  let v := ({ u with s := u.issued f 0 g1 } : Iss).atRepeat 0
  have hve : v.e = e := congrArg (fun n => ({ e with repi := n } : Entry)) hz.symm
  have hg1 := regGate_ok hgate
  have hsame : SameRegisters g g1 := by rw [hg1]; exact ⟨fun _ _ _ => rfl, fun _ => rfl, fun _ => rfl, rfl⟩
  have hhere : (u.issued f 0 g1).group? g.id = some g := (State.group?_congr hgroups _).trans hi.here
  let a : TrapArgs := { cls := cls, detail := det, addr := ea, tmask := Mask.ofPred fun l => u.ex.has l && (F l).fails }
  obtain ⟨hvaccs, hvops⟩ := v.trapAfter_flights g1 a
  obtain ⟨x, hgroup, hrec, hregs, y, hy, hym, hyp, hyr⟩ := v.trapAfter_leaves (g1 := g1) a (congrArg Option.isSome hhere)
    (by rw [hg1]; rfl) (by rw [hg1]; exact hh) (by rw [hve, hg1]; exact select_mem hi.entry)
  rw [hve] at hym hyp
  refine ⟨_, x, _, as, hx, hgroup, hrec, rfl, rfl, rfl, congrArg Entry.pc hve, congrArg Entry.mask hve, rfl, hsame.trans hregs,
    ⟨y, hy, hym, hyp, hyr⟩,
    hvaccs.trans haccs, hmask ▸ hlanes, fun o ho => ?_⟩
  exact hops o (hvops ▸ ho)

end Faults

/-- Settles O36: the checks of one address, and the trap of the lanes that fail them. -/
theorem accessFaults : Obligations.AccessFaults := by
  unfold Obligations.AccessFaults
  refine ⟨fun s g f nw ea hl => planAddr_checks s g nw ea hl, ?_⟩
  intro i f s g g1 e l0 cls det ea hf hk hi hr hz hh u plan bad hroom hord hknown hgate hl h0 hfirst
  exact accForm_faults hf hk hi hr hz hh hroom hord hknown hgate hl h0 hfirst

end Sys2Proof.Machine
end

section
/-! PROOFS. Parking for memory: the lanes that an `ldfe` sends and waits for, and the counters of `waitk` (spec 08 R226, R227, R238, R242),
and from them the obligation on both. -/

set_option Elab.async false

namespace Sys2Proof.Machine

section Parking

variable {i : Instr} {s s' : State} {g g0 : Group} {e : Entry}

/-- An instruction whose meaning parks its entry in a state whose groups are the same parks it (R95). -/
theorem parks_after {p : Park} (h : AtIssue i s g e) (hx : exec i s = .next (({ Iss.mk' s g e i with s := s' } : Iss).park g0 p))
    (hs : s'.groups = s.groups) (hid : g0.id = g.id) (hf : g0.front = g.front) : Parks i s g e s' g0 p := by
  let u : Iss := { Iss.mk' s g e i with s := s' }
  let f (e : Entry) : Entry := { e with park := some p }
  have place : SamePlace g0 (s'.surgeFall g ((u.started g0).updEntry e.mask f)) :=
    Group.SamePlace.trans (u.samePlace_updEntry g0 f) (State.surgeFall_samePlace ..)
  have hid' := (Group.SamePlace.id place).trans hid
  have he : e ∈ g0.front := hf ▸ select_mem h.entry
  have hhere : (s'.group? g.id).isSome = true := by rw [State.group?_congr hs, h.here]; rfl
  refine ⟨_, _, hx, u.put_group _ hhere hid', u.put_only _ hid', place,
    (u.sameRegisters_updEntry g0 f).trans (SameRegisters.surgeFall ..), f { e with yielded := false }, ?_, rfl, rfl, rfl, rfl, rfl⟩
  rw [State.surgeFall_front]
  exact u.mem_front_updEntry he f

end Parking

/-! ### `ldfe` (R226, R227, R238) -/

section Ldfe

variable {h : Head} {f : FM} {fm : AccForm} {s : State} {g g1 : Group} {e : Entry}

/-- The lanes of an `ldfe` that have not read. -/
def ldfeLeft (h : Head) (f : FM) (g : Group) (e : Entry) : Mask := g.execMask (.ldfe h f) e.mask &&& ~~~e.readDone

/-- The lanes of an `ldfe` that have neither read nor are on their way. -/
def ldfeSend (h : Head) (f : FM) (s : State) (g : Group) (e : Entry) : Mask :=
  ldfeLeft h f g e &&& ~~~(Iss.mk' s g e (.ldfe h f)).inFlight

theorem exec_ldfe (hi : AtIssue (.ldfe h f) s g e) (hf : (Instr.ldfe h f).accForm = some fm) : exec (.ldfe h f) s =
    .next (if ldfeLeft h f g e = 0 then (Iss.mk' s g e (.ldfe h f)).finish g
      else if ldfeSend h f s g e = 0 then (Iss.mk' s g e (.ldfe h f)).park g .ldfe
      else (Iss.mk' s g e (.ldfe h f)).sendLdfe fm (ldfeSend h f s g e)) := by
  cases hf
  exact issue_next hi _

theorem accForm_ldfe (hf : (Instr.ldfe h f).accForm = some fm) : accResults fm = [fm.d] := by cases hf; rfl

/-- Lanes whose addresses are known are sent as one counted operation, and their entry parks (R226). -/
theorem sendLdfe_parks (hi : AtIssue (.ldfe h f) s g e) (hf : (Instr.ldfe h f).accForm = some fm) (hsend : ldfeSend h f s g e ≠ 0)
    (hroom : s.counter g.id (g.ctr fm.cc) < 63) (hord : s.orderHolds g (ldfeSend h f s g e) h.hints.rel = false)
    (hgate : s.regGate g (accResults fm) = .ok g1)
    (hgo : ∀ l, (ldfeSend h f s g e).has l = true → ∃ ea loc tgt r, s.planAddr g fm true (g.effAddr fm l) = .go ea loc tgt r) :
    ∃ s' o, Parks (.ldfe h f) s g e s' g1 .ldfe ∧
      Issued g fm s s' o ((ldfeSend h f s g e).toList.map fun l => (l, s.planAddr g fm true (g.effAddr fm l))) ∧
      o.lanes = ldfeSend h f s g e ∧ o.ctr = g.ctr fm.cc := by
  let u := Iss.mk' s g e (.ldfe h f)
  let F (l : Nat) := s.planAddr g fm true (g.effAddr fm l)
  let ps : List (Nat × Plan) := (ldfeSend h f s g e).toList.map fun l => (l, F l)
  have hleft : ldfeLeft h f g e ≠ 0 := fun h0 => hsend (by rw [ldfeSend, h0]; exact BitVec.zero_and)
  have hgood (l : Nat) (hl : (ldfeSend h f s g e).has l = true) : (F l).fails = false := by
    obtain ⟨ea, loc, tgt, r, hp⟩ := hgo l hl
    exact congrArg Plan.fails hp
  have hlanes : planLanes ps = ldfeSend h f s g e := planLanes_of_none_fails hgood
  have hnone : planTrap ps = none := by
    refine planTrap_of_none_fails fun x hx => ?_
    obtain ⟨l, hl, rfl⟩ := List.mem_map.mp hx
    exact hgood l (Mask.mem_toList.mp hl)
  have hg1 := regGate_ok hgate
  obtain ⟨tr, htr⟩ : ∃ tr, tr = (planTrap ps).isSome := ⟨_, rfl⟩
  have hctr : (if tr then 8 else g1.ctr fm.cc) = g.ctr fm.cc := by rw [htr, hnone, hg1]; rfl
  have hissued := Issued.of_gate hgate (s.issueOp_issued g1 fm h.hints e tr (hlanes.symm ▸ hsend)).1
  have hrun : u.sendLdfe fm (ldfeSend h f s g e) =
      ({ u with s := s.issueOp g1 fm h.hints e tr ps } : Iss).park g1 .ldfe := by
    have hgate' : u.s.regGate u.g [fm.d] = .ok g1 := by
      rw [← accForm_ldfe hf]
      exact hgate
    unfold Iss.sendLdfe
    refine (if_neg (Nat.not_le.mpr hroom)).trans ((if_neg (ne_true_of_eq_false hord)).trans ?_)
    rw [hgate']
    have hps : ((ldfeSend h f s g e).toList.map fun l => (l, u.s.planAddr g1 fm true (g1.effAddr fm l))) = ps := by rw [hg1]; rfl
    dsimp only
    rw [hps, ← htr, hnone]
    rfl
  have hx := exec_ldfe hi hf
  rw [if_neg hleft, if_neg hsend, hrun] at hx
  exact ⟨_, _, parks_after hi hx (Carried.of_issued hissued).groups (by rw [hg1]) (by rw [hg1]; rfl), hissued, hlanes, hctr⟩

end Ldfe

/-! ### `waitk` (R242) -/

theorem State.countersZero_iff (s : State) (g : Group) (m : BitVec 4) : s.countersZero g m = true ↔
    ∀ k, k < 4 → m.getLsbD k = true → s.counter g.id (g.ctr k) = 0 := by
  simp only [State.countersZero, List.all_eq_true, List.mem_range, Bool.or_eq_true, Bool.not_eq_true', beq_iff_eq, ← imp_iff_not_or,
    ← Bool.not_eq_true]

theorem exec_waitk {h : Head} {f : FK4} {s : State} {g : Group} {e : Entry} (hi : AtIssue (.waitk h f) s g e) : exec (.waitk h f) s =
    .next (if s.countersZero g f.mask then (Iss.mk' s g e (.waitk h f)).finish g
      else (Iss.mk' s g e (.waitk h f)).park g (.waitk f.mask)) :=
  issue_next hi _

/-- Settles O37: `ldfe` by the lanes it has still to send, `waitk` by its counters. -/
theorem ldfeWaitk : Obligations.LdfeWaitk := by
  unfold Obligations.LdfeWaitk
  refine ⟨?ldfe, ?waitk⟩
  case ldfe =>
    intro h f fm s g g1 e i u todo send plan hi ho hf
    have hx := exec_ldfe hi hf
    refine ⟨fun hdone => ?_, fun hleft hway => ?_, sendLdfe_parks hi hf⟩
    · rw [if_pos (show ldfeLeft h f g e = 0 from hdone)] at hx
      exact ends_of hx hi ho rfl rfl rfl
    · rw [if_neg (show ldfeLeft h f g e ≠ 0 from hleft), if_pos (show ldfeSend h f s g e = 0 from hway)] at hx
      exact parks_of hi hx rfl rfl
  case waitk =>
    intro h f s g e hi ho
    have hx := exec_waitk hi
    refine ⟨fun hall => ?_, fun ⟨k, hk, hm, hc⟩ => ?_⟩
    · rw [if_pos ((State.countersZero_iff ..).mpr hall)] at hx
      exact ends_of hx hi ho rfl rfl rfl
    · rw [if_neg fun hz => hc ((State.countersZero_iff ..).mp hz k hk hm)] at hx
      exact parks_of hi hx rfl rfl

end Sys2Proof.Machine
end

section
/-! PROOFS. Banks: a cycle of a bank, what each kind of access does at its location, and the elements of an atomic (spec 08 R221-R226,
R237-R240), and from them the obligation on accesses that act. -/

set_option Elab.async false

namespace Sys2Proof.Machine

/-! ### The queue of a bank (R221) -/

theorem leastBy_eq_argmin (f : Request → Nat) (rs : List Request) : leastBy f rs = rs.argmin f := by
  unfold leastBy List.argmin
  congr 1
  funext best x
  cases best with
  | none => rfl
  | some b =>
    unfold List.argAux
    dsimp only

theorem leastBy_mem {f : Request → Nat} {rs : List Request} {x : Request} (h : leastBy f rs = some x) : x ∈ rs := by
  rw [leastBy_eq_argmin] at h
  exact List.argmin_mem h

/-- The one least request of a list is picked. -/
theorem leastBy_eq_some {f : Request → Nat} {rs : List Request} {x : Request} (hx : x ∈ rs) (hmin : ∀ y ∈ rs, y = x ∨ f x < f y) :
    leastBy f rs = some x := by
  rw [leastBy_eq_argmin]
  refine List.argmin_eq_some_iff.mpr ⟨hx, fun y hy => ?_, fun y hy hle => ?_⟩
  · rcases hmin y hy with rfl | h
    · exact Nat.le_refl _
    · exact Nat.le_of_lt h
  · rcases hmin y hy with rfl | h
    · exact Nat.le_refl _
    · exact absurd hle (Nat.not_le.mpr h)

/-- What a requester offers stands at the bank's cluster and is in no queue. -/
theorem State.bankOffer_mem {s : State} {die cl bank r : Nat} {x : Request} (h : s.bankOffer die cl bank r = some x) :
    x ∈ s.bankReqs die cl ∧ x.queued = 0 := by
  have mine (hx : x ∈ (s.bankReqs die cl).filter fun x => x.queued == 0 && s.portOf x == r) :
      x ∈ s.bankReqs die cl ∧ x.queued = 0 := by
    obtain ⟨hmem, hcond⟩ := List.mem_filter.mp hx
    exact ⟨hmem, beq_iff_eq.mp ((Bool.and_eq_true _ _).mp hcond).1⟩
  unfold State.bankOffer at h
  dsimp only at h
  split_ifs at h
  · exact mine (leastBy_mem (Option.filter_eq_some_iff.mp h).1)
  · exact mine (List.mem_filter.mp (leastBy_mem h)).1

/-- Requests enter a queue, one after another. -/
def State.enterAll (s : State) (ys : List Request) : State := ys.foldl State.enqueue s

/-- The requests that enter a bank's queue in a cycle: at most as many as it has room for, each held by its requester until then. -/
theorem State.enterBank_eq (s : State) (die cl bank : Nat) : ∃ (ys : List Request) (f : Cluster → Cluster),
    ys.length ≤ 8 - (s.bankQueue die cl bank).length ∧ (∀ y ∈ ys, y ∈ s.bankReqs die cl ∧ y.queued = 0) ∧
    (s.enterBank die cl bank = s.enterAll ys ∨ s.enterBank die cl bank = (s.enterAll ys).updCluster die cl f) := by
  unfold State.enterBank
  dsimp only
  generalize hoffers : List.filterMap _ (List.range 8) = offers
  have hall : ∀ y ∈ offers, y.2 ∈ s.bankReqs die cl ∧ y.2.queued = 0 := by
    intro y hy
    rw [← hoffers] at hy
    obtain ⟨i, -, hi⟩ := List.mem_filterMap.mp hy
    obtain ⟨x, hx, rfl⟩ := Option.map_eq_some_iff.mp hi
    exact State.bankOffer_mem hx
  cases htake : offers.take (8 - (s.bankQueue die cl bank).length) with
  | nil => exact ⟨[], id, Nat.zero_le _, fun y hy => absurd hy List.not_mem_nil, .inl rfl⟩
  | cons x t =>
    refine ⟨(x :: t).map Prod.snd, fun c => { c with entered := AMap.set c.entered bank x.1 }, ?_, fun y hy => ?_, .inr ?_⟩
    · rw [List.length_map, ← htake, List.length_take]
      exact Nat.min_le_left ..
    · obtain ⟨z, hz, rfl⟩ := List.mem_map.mp hy
      exact hall z (List.mem_of_mem_take (htake ▸ hz))
    · unfold State.enterAll
      rw [List.foldl_map]

/-! ### Requests that enter (R221) -/

/-- Of a list whose members have numbers of their own, a change of one member makes at most one more satisfy a condition. -/
theorem countP_update_le {α : Type} {key : α → Nat} {l : List α} (h : (l.map key).Nodup) (k : Nat) (f : α → α) (p : α → Bool) :
    (l.map fun x => if key x = k then f x else x).countP p ≤ l.countP p + 1 := by
  induction l with
  | nil => exact Nat.zero_le _
  | cons x t ih =>
    rw [List.map_cons, List.nodup_cons] at h
    obtain ⟨hx, ht⟩ := h
    rw [List.map_cons, List.countP_cons, List.countP_cons]
    by_cases hk : key x = k
    · have hrest : (t.map fun y => if key y = k then f y else y) = t := by
        refine (List.map_congr_left fun y hy => if_neg fun hky => hx ?_).trans (List.map_id _)
        exact List.mem_map.mpr ⟨y, hy, hky.trans hk.symm⟩
      rw [hrest]
      split_ifs <;> omega
    · rw [if_neg hk]
      have := ih ht
      omega

/-- Only the requests, and which requester entered a bank's queue first, differ. -/
def OnlyEntered (s t : State) : Prop := t = { s with accs := t.accs, reqs := t.reqs, clusters := t.clusters, next := t.next }

theorem OnlyEntered.trans {s t r : State} (h : OnlyEntered s t) (k : OnlyEntered t r) : OnlyEntered s r := by
  unfold OnlyEntered at *
  rw [k, h]

theorem State.enqueue_changes (s : State) (y : Request) : OnlyEntered s (s.enqueue y) := by
  cases y <;> rfl

theorem State.enterAll_changes (ys : List Request) (s : State) : OnlyEntered s (s.enterAll ys) := by
  induction ys generalizing s with
  | nil => rfl
  | cons y t ih => exact (s.enqueue_changes y).trans (ih (s.enqueue y))

/-- The numbers of what is in flight stay. -/
theorem State.enqueue_ids (s : State) (y : Request) :
    (s.enqueue y).accs.map Access.id = s.accs.map Access.id ∧ (s.enqueue y).reqs.map UnitReq.id = s.reqs.map UnitReq.id := by
  have same {α : Type} (key : α → Nat) (k : Nat) (f : α → α) (hf : ∀ x, key (f x) = key x) (l : List α) :
      (l.map fun x => if key x = k then f x else x).map key = l.map key := by
    rw [List.map_map]
    refine List.map_congr_left fun x _ => ?_
    dsimp only [Function.comp]
    split_ifs
    · exact hf x
    · rfl
  cases y with
  | acc a => exact ⟨same Access.id a.id (fun x => { x with queued := s.next }) (fun _ => rfl) s.accs, rfl⟩
  | unit r => exact ⟨rfl, same UnitReq.id r.id (fun x => { x with queued := s.next }) (fun _ => rfl) s.reqs⟩

section Queue

variable (die cl bank : Nat)

/-- A location of a bank of a cluster. -/
def atBankOf (l : Nat) : Bool := isStoreLoc l && locDie l == die && locCluster l == cl && locBank l == bank

theorem State.bankQueue_length (s : State) : (s.bankQueue die cl bank).length =
    s.accs.countP (fun a => a.phase == .atBank && atBankOf die cl bank a.loc && decide (0 < a.queued)) +
      s.reqs.countP (fun r => !r.done && atBankOf die cl bank r.loc && decide (0 < r.queued)) := by
  unfold State.bankQueue State.bankReqs
  simp only [List.filter_append, List.filter_map, List.length_append, List.length_map, List.filter_filter, List.countP_eq_length_filter]
  refine congrArg₂ (· + ·) (congrArg _ (List.filter_congr fun a _ => ?_)) (congrArg _ (List.filter_congr fun r _ => ?_))
  · unfold atBankOf
    dsimp only [Function.comp, Request.loc, Request.queued]
    ac_rfl
  · unfold atBankOf
    dsimp only [Function.comp, Request.loc, Request.queued]
    ac_rfl

/-- A request that enters makes the queue at most one longer. -/
theorem State.bankQueue_enqueue_le (s : State) (y : Request) (ha : (s.accs.map Access.id).Nodup) (hr : (s.reqs.map UnitReq.id).Nodup) :
    ((s.enqueue y).bankQueue die cl bank).length ≤ (s.bankQueue die cl bank).length + 1 := by
  rw [State.bankQueue_length, State.bankQueue_length]
  cases y with
  | acc a =>
    have := countP_update_le ha a.id (fun x => { x with queued := s.next })
      fun a => a.phase == .atBank && atBankOf die cl bank a.loc && decide (0 < a.queued)
    have hreqs : (s.enqueue (.acc a)).reqs = s.reqs := rfl
    have haccs : (s.enqueue (.acc a)).accs = s.accs.map fun x => if x.id = a.id then { x with queued := s.next } else x := rfl
    rw [hreqs, haccs]
    omega
  | unit r =>
    have := countP_update_le hr r.id (fun x => { x with queued := s.next })
      fun r => !r.done && atBankOf die cl bank r.loc && decide (0 < r.queued)
    have haccs : (s.enqueue (.unit r)).accs = s.accs := rfl
    have hreqs : (s.enqueue (.unit r)).reqs = s.reqs.map fun x => if x.id = r.id then { x with queued := s.next } else x := rfl
    rw [hreqs, haccs]
    omega

theorem State.bankQueue_enterAll_le (ys : List Request) (s : State) (ha : (s.accs.map Access.id).Nodup)
    (hr : (s.reqs.map UnitReq.id).Nodup) :
    ((s.enterAll ys).bankQueue die cl bank).length ≤ (s.bankQueue die cl bank).length + ys.length := by
  induction ys generalizing s with
  | nil => exact Nat.le_refl _
  | cons y t ih =>
    obtain ⟨haccs, hreqs⟩ := s.enqueue_ids y
    have hrest := ih (s.enqueue y) (haccs ▸ ha) (hreqs ▸ hr)
    have hone := s.bankQueue_enqueue_le die cl bank y ha hr
    rw [List.length_cons]
    exact hrest.trans (by omega)

end Queue

/-- What does not enter stays as it is. -/
theorem State.mem_enterAll (ys : List Request) (s : State) :
    (∀ a ∈ s.accs, (∀ b, .acc b ∈ ys → b.id ≠ a.id) → a ∈ (s.enterAll ys).accs) ∧
    (∀ r ∈ s.reqs, (∀ q, .unit q ∈ ys → q.id ≠ r.id) → r ∈ (s.enterAll ys).reqs) := by
  induction ys generalizing s with
  | nil => exact ⟨fun a ha _ => ha, fun r hr _ => hr⟩
  | cons y t ih =>
    obtain ⟨haccs, hreqs⟩ := ih (s.enqueue y)
    refine ⟨fun a ha hne => haccs a ?_ fun b hb => hne b (List.mem_cons_of_mem _ hb),
      fun r hr hne => hreqs r ?_ fun q hq => hne q (List.mem_cons_of_mem _ hq)⟩
    · cases y with
      | acc b => exact List.mem_map.mpr ⟨a, ha, if_neg fun h => hne b List.mem_cons_self h.symm⟩
      | unit => exact ha
    · cases y with
      | acc => exact hr
      | unit q => exact List.mem_map.mpr ⟨r, hr, if_neg fun h => hne q List.mem_cons_self h.symm⟩

/-! ### A cycle of a bank (R221, R230) -/

section Cycle

variable {s : State} {die cl bank : Nat}

theorem State.mem_bankReqs_acc {a : Access} (h : .acc a ∈ s.bankReqs die cl) : a ∈ s.accs := by
  unfold State.bankReqs at h
  rcases List.mem_append.mp h with h | h
  · obtain ⟨b, hb, heq⟩ := List.mem_map.mp h
    exact Request.acc.inj heq ▸ (List.mem_filter.mp hb).1
  · obtain ⟨_, _, heq⟩ := List.mem_map.mp h
    cases heq

theorem State.mem_bankReqs_unit {r : UnitReq} (h : .unit r ∈ s.bankReqs die cl) : r ∈ s.reqs := by
  unfold State.bankReqs at h
  rcases List.mem_append.mp h with h | h
  · obtain ⟨_, _, heq⟩ := List.mem_map.mp h
    cases heq
  · obtain ⟨b, hb, heq⟩ := List.mem_map.mp h
    exact Request.unit.inj heq ▸ (List.mem_filter.mp hb).1

/-- Entering a bank's queue changes of the state only the requests, and of the clusters who entered. -/
theorem State.enterBank_changes (s : State) (die cl bank : Nat) : OnlyEntered s (s.enterBank die cl bank) := by
  obtain ⟨ys, f, -, -, h | h⟩ := s.enterBank_eq die cl bank
  · rw [h]
    exact s.enterAll_changes ys
  · rw [h]
    refine (s.enterAll_changes ys).trans ?_
    unfold State.updCluster
    split <;> rfl

/-- What stands in a queue keeps its place, and a queue holds at most eight. -/
theorem State.enterBank_keeps (ha : (s.accs.map (·.id)).Nodup) (hr : (s.reqs.map (·.id)).Nodup)
    (hq : (s.bankQueue die cl bank).length ≤ 8) : (∀ a ∈ s.accs, 0 < a.queued → a ∈ (s.enterBank die cl bank).accs) ∧
      (∀ r ∈ s.reqs, 0 < r.queued → r ∈ (s.enterBank die cl bank).reqs) ∧
      ((s.enterBank die cl bank).bankQueue die cl bank).length ≤ 8 := by
  obtain ⟨ys, f, hlen, hheld, h⟩ := s.enterBank_eq die cl bank
  have hfields : (s.enterBank die cl bank).accs = (s.enterAll ys).accs ∧ (s.enterBank die cl bank).reqs = (s.enterAll ys).reqs := by
    rcases h with h | h <;> rw [h]
    · exact ⟨rfl, rfl⟩
    · exact ⟨State.updCluster_accs .., State.updCluster_reqs ..⟩
  obtain ⟨haccs, hreqs⟩ := hfields
  obtain ⟨hmemA, hmemR⟩ := State.mem_enterAll ys s
  rw [haccs, hreqs]
  refine ⟨fun a hmem hpos => hmemA a hmem fun b hb hid => ?_, fun r hmem hpos => hmemR r hmem fun q hqy hid => ?_, ?_⟩
  · obtain ⟨hreq, hzero⟩ := hheld _ hb
    have : b = a := List.inj_on_of_nodup_map ha (State.mem_bankReqs_acc hreq) hmem hid
    subst this
    exact absurd (show b.queued = 0 from hzero) (Nat.pos_iff_ne_zero.mp hpos)
  · obtain ⟨hreq, hzero⟩ := hheld _ hqy
    have : q = r := List.inj_on_of_nodup_map hr (State.mem_bankReqs_unit hreq) hmem hid
    subst this
    exact absurd (show q.queued = 0 from hzero) (Nat.pos_iff_ne_zero.mp hpos)
  · have hle := State.bankQueue_enterAll_le die cl bank ys s ha hr
    have hsame : ((s.enterBank die cl bank).bankQueue die cl bank).length = ((s.enterAll ys).bankQueue die cl bank).length := by
      rw [State.bankQueue_length, State.bankQueue_length, haccs, hreqs]
    omega

theorem exec_bankAccess (s : State) (die cl bank : Nat) : exec (.bankAccess die cl bank) s = execBankAccess die cl bank s := rfl

theorem bankAccess_relocking (h : s.relocking die = true) : exec (.bankAccess die cl bank) s = .next s := by
  rw [exec_bankAccess, execBankAccess, if_pos h]

theorem bankAccess_idle (h : s.relocking die = false) (hq : (s.enterBank die cl bank).bankQueue die cl bank = []) :
    exec (.bankAccess die cl bank) s = .next (s.enterBank die cl bank) := by
  rw [exec_bankAccess, execBankAccess, if_neg (ne_true_of_eq_false h)]
  dsimp only
  rw [hq]
  rfl

/-- The oldest request of the queue is performed. -/
theorem bankAccess_oldest (h : s.relocking die = false) {x : Request} (hx : x ∈ (s.enterBank die cl bank).bankQueue die cl bank)
    (hmin : ∀ y ∈ (s.enterBank die cl bank).bankQueue die cl bank, y = x ∨ x.queued < y.queued) :
    exec (.bankAccess die cl bank) s = .next ((s.enterBank die cl bank).bankPerforms x) := by
  rw [exec_bankAccess, execBankAccess, if_neg (ne_true_of_eq_false h)]
  dsimp only
  rw [leastBy_eq_some hx hmin]

end Cycle

/-! ### What a lane receives (R101, R349) -/

/-- A result of an access in its own mode is written where the group's registers now are. -/
theorem Group.setVat_inHandler (g : Group) (r l : Nat) (x : Word) : g.setVat g.inHandler r l x = g.setV r l x := by
  obtain ⟨f, hf⟩ : ∃ f, f = g.frame := ⟨_, rfl⟩
  unfold Group.setVat Group.setV Group.inHandler
  rw [← hf]
  cases f <;> rfl

theorem Group.setPat_inHandler (g : Group) (n l : Nat) (b : Bool) : g.setPat g.inHandler n l b = g.setPn n l b := by
  obtain ⟨f, hf⟩ : ∃ f, f = g.frame := ⟨_, rfl⟩
  unfold Group.setPat Group.setPn Group.setP Group.getP Group.inHandler
  rw [← hf]
  cases f <;> rfl

/-- A lane of a group has received register values `vs` and predicate values `p`. -/
def Received (g g' : Group) (lane : Nat) (vs : Nat → Option Word) (p : Nat → Option Bool) : Prop :=
  (∀ r l, l < 32 → g'.getV r l = if l = lane then (vs r).getD (g.getV r l) else g.getV r l) ∧
  (∀ n l, n < 16 → l < 32 → g'.getPn n l = if l = lane then (p n).getD (g.getPn n l) else g.getPn n l) ∧ SameScalars g g' ∧
  g'.items = g.items

namespace Received

variable (g : Group) (lane : Nat)

theorem nothing : Received g g lane (fun _ => none) fun _ => none :=
  ⟨fun _ _ _ => (ite_self _).symm, fun _ _ _ _ => (ite_self _).symm, fun _ => rfl, rfl⟩

theorem register (hl : lane < 32) (d : Nat) (x : Word) :
    Received g (g.setV d lane x) lane (fun r => if r = d then some x else none) fun _ => none := by
  refine ⟨fun r l h => ?_, fun n l _ _ => ?_, fun n => Group.getS_setV .., ?_⟩
  · rw [Group.getV_setV _ _ _ _ _ _ hl h]
    by_cases hr : r = d <;> by_cases hk : l = lane <;> simp [hr, hk]
  · rw [Group.getPn_setV]
    exact (ite_self _).symm
  · unfold Group.setV
    cases g.frame <;> rfl

theorem predicate {n : Nat} (hn : n < 16) (b : Bool) :
    Received g (g.setPn n lane b) lane (fun _ => none) fun k => if k = n then some b else none := by
  refine ⟨fun r l _ => ?_, fun k l _ _ => ?_, fun k => Group.getS_setPn .., ?_⟩
  · rw [Group.getV_setPn]
    exact (ite_self _).symm
  · rw [Group.getPn_setPn _ _ _ _ _ _ hn]
    by_cases hk : k = n <;> by_cases hl : l = lane <;> simp [hk, hl]
  · unfold Group.setPn Group.setP
    cases g.frame <;> rfl

end Received

/-- The group once one of its lanes has received what an access brings. -/
def Group.received (g : Group) (a : Access) (r : AccResult) : Group :=
  let g := r.vals.foldl (fun g x => if a.discard.contains x.1 then g else g.setVat a.hnd x.1 a.lane x.2) g
  match r.pred with | some (p, b) => g.setPat a.hnd p a.lane b | none => g

/-- The group once a lane of its parked `ldfe` has read (R227). -/
def Group.laneRead (g : Group) (a : Access) : Group :=
  if a.kind = .ldfe then
    { g with entries := g.entries.map fun e =>
        if e.mask.has a.lane && e.pc == a.pc then { e with readDone := e.readDone ||| Mask.one a.lane } else e }
  else g

theorem Received.laneRead {g g' : Group} {lane : Nat} {vs : Nat → Option Word} {p : Nat → Option Bool} (h : Received g g' lane vs p)
    (a : Access) : Received g (g'.laneRead a) lane vs p := by
  unfold Group.laneRead
  split_ifs <;> exact h

theorem Group.setVat_id (g : Group) (hnd : Bool) (r l : Nat) (x : Word) : (g.setVat hnd r l x).id = g.id := by
  unfold Group.setVat
  cases hnd with
  | false => rfl
  | true =>
    rw [if_pos rfl]
    split <;> rfl

theorem Group.setPat_id (g : Group) (hnd : Bool) (n l : Nat) (b : Bool) : (g.setPat hnd n l b).id = g.id := by
  unfold Group.setPat
  cases hnd with
  | false => rfl
  | true =>
    dsimp only
    rw [if_pos rfl]
    split <;> rfl

theorem Group.received_id (g : Group) (a : Access) (r : AccResult) : (g.received a r).id = g.id := by
  have hvals : (r.vals.foldl (fun g x => if a.discard.contains x.1 then g else g.setVat a.hnd x.1 a.lane x.2) g).id = g.id := by
    refine List.foldlRecOn (motive := fun x : Group => x.id = g.id) r.vals _ rfl fun x hx v _ => ?_
    split_ifs
    · exact hx
    · exact (Group.setVat_id ..).trans hx
  unfold Group.received
  dsimp only
  split
  · exact (Group.setPat_id ..).trans hvals
  · exact hvals

theorem Group.laneRead_id (g : Group) (a : Access) : (g.laneRead a).id = g.id := by
  unfold Group.laneRead
  split_ifs <;> rfl

/-! ### An access returns on its own die (R222, R226) -/

section Returns

variable {s t : State} {a : Access} {g : Group} {r : AccResult} {vs : Nat → Option Word} {p : Nat → Option Bool}

theorem finishAcc_eq (hhome : a.home = a.die) (hph : a.phase = .atBank) : t.finishAcc a r = (t.writeResult a r).dropAcc a.id := by
  unfold State.finishAcc State.returnAcc
  rw [if_neg (by rw [hph]; exact AccPhase.noConfusion), if_pos hhome.symm]

theorem finishAcc_keeps (hhome : a.home = a.die) (hph : a.phase = .atBank) : (t.finishAcc a r).full = t.full ∧
    (t.finishAcc a r).mem = t.mem ∧ (t.finishAcc a r).ops = t.ops ∧ (t.finishAcc a r).accs = t.accs.filter fun b => b.id ≠ a.id := by
  rw [finishAcc_eq hhome hph, State.writeResult_eq]
  exact ⟨rfl, rfl, rfl, rfl⟩

theorem group?_writeResult (hdst : a.dst = .lane) (k : Nat) : (t.writeResult a r).group? k =
    if k = a.grp then (t.group? k).map fun g => (g.received a r).laneRead a else t.group? k := by
  have heq : t.writeResult a r = if a.kind = .ldfe then (t.updGroup a.grp fun g => g.received a r).markRead a
      else t.updGroup a.grp fun g => g.received a r := by
    unfold State.writeResult
    rw [hdst]
    rfl
  have hfirst (k : Nat) : (t.updGroup a.grp fun g => g.received a r).group? k =
      if k = a.grp then (t.group? k).map fun g => g.received a r else t.group? k :=
    State.group?_updGroup _ _ _ _ fun g hg => (g.received_id a r).trans hg
  rw [heq]
  by_cases hk : a.kind = .ldfe
  · have hread : (t.updGroup a.grp fun g => g.received a r).markRead a =
        (t.updGroup a.grp fun g => g.received a r).updGroup a.grp fun g => g.laneRead a := by
      unfold State.markRead Group.laneRead
      simp only [if_pos hk]
    rw [if_pos hk, hread, State.group?_updGroup _ _ _ _ fun g hg => (g.laneRead_id a).trans hg, hfirst]
    split_ifs
    · rw [Option.map_map]
      rfl
    · rfl
  · rw [if_neg hk, hfirst]
    simp only [Group.laneRead, if_neg hk]

/-- An access that returns on its own die leaves, its lane has its result, and nothing else changes. -/
theorem finishAcc_acted (hhome : a.home = a.die) (hph : a.phase = .atBank) (hdst : a.dst = .lane) (hg : s.group? a.grp = some g)
    (haccs : t.accs = s.accs) (hgroups : t.groups = s.groups) (hops : t.ops = s.ops) (hrec : Received g (g.received a r) a.lane vs p)
    {m : Nat → Byte} (hm : ∀ x, Memory.read t.mem x = m x) : Acted s (t.finishAcc a r) a g vs p m := by
  obtain ⟨-, hmem, hops', haccs'⟩ := finishAcc_keeps (t := t) (r := r) hhome hph
  have hgroup (k : Nat) : (t.finishAcc a r).group? k =
      if k = a.grp then (s.group? k).map fun g => (g.received a r).laneRead a else s.group? k := by
    rw [finishAcc_eq hhome hph, ← State.group?_congr hgroups]
    exact group?_writeResult hdst k
  obtain ⟨hv, hp, hs, hi⟩ := hrec.laneRead a
  refine ⟨fun b => ?_, fun x => by rw [hmem, hm], fun k hk => by rw [hgroup, if_neg hk], hops'.trans hops, _, ?_, hv, hp, hs, hi⟩
  · rw [haccs', haccs, List.mem_filter, decide_eq_true_eq]
  · rw [hgroup, if_pos rfl, hg]
    rfl

end Returns

/-! ### Full/empty actions that no waiter sees (R225, R226) -/

theorem isFull_setFull_true (s : State) (loc : Nat) : (s.setFull loc true).isFull loc = true :=
  List.contains_iff_mem.mpr (mem_insertNat ..)

theorem isFull_setFull_false (s : State) (loc : Nat) : (s.setFull loc false).isFull loc = false := by
  refine Bool.eq_false_iff.mpr fun h => ?_
  have hmem := List.contains_iff_mem.mp h
  exact of_decide_eq_true (List.mem_filter.mp hmem).2 rfl

/-- The full/empty action of an access: what it leaves of a granule's bit. -/
abbrev FeActs (fe : Nat) (loc : Nat) (s t : State) : Prop :=
  (fe = 1 → t.full = s.full) ∧ (fe = 3 → t.isFull loc = false) ∧ (fe = 2 → t.isFull loc = true)

/-- An action that serves no waiter changes the granule's bit alone. -/
theorem feAct_quiet {s : State} {loc fe : Nat} (hfe : fe ∈ [1, 2, 3]) (hq : fe = 2 → s.waitersOf loc = []) :
    s.feAct loc fe = { s with full := (s.feAct loc fe).full } ∧ FeActs fe loc s (s.feAct loc fe) := by
  rcases List.mem_cons.mp hfe with rfl | hfe
  · exact ⟨rfl, fun _ => rfl, fun h => absurd h (by decide), fun h => absurd h (by decide)⟩
  rcases List.mem_cons.mp hfe with rfl | hfe
  · have hnone : (s.setFull loc true).waitersOf loc = [] := hq rfl
    have heq : s.feAct loc 2 = s.setFull loc true := by
      rw [State.feAct, hnone]
      rfl
    rw [heq]
    exact ⟨rfl, fun h => absurd h (by decide), fun h => absurd h (by decide), fun _ => isFull_setFull_true s loc⟩
  · rw [List.mem_singleton.mp hfe]
    exact ⟨rfl, fun h => absurd h (by decide), fun _ => isFull_setFull_false s loc, fun h => absurd h (by decide)⟩

/-! ### The bytes that a load gives (R237) -/

theorem extBytes_eq (sg : Bool) {n x : Nat} (hn : n ≤ 8) (hx : x < 2 ^ (8 * n)) : extBytes sg n x =
    if sg = true ∧ 2 ^ (8 * n) ≤ 2 * x then BitVec.ofNat 64 (2 ^ 64 + x - 2 ^ (8 * n)) else BitVec.ofNat 64 x := by
  have hle : 2 ^ (8 * n) ≤ 2 ^ 64 := Nat.pow_le_pow_right (by decide) (by omega)
  cases sg with
  | false => rfl
  | true =>
    have hsign : 2 ^ (8 * n - 1) ≤ x ↔ 2 ^ (8 * n) ≤ 2 * x := by
      cases n with
      | zero =>
        have hzero : x = 0 := Nat.lt_one_iff.mp hx
        rw [hzero]
      | succ n =>
        have hpow : 2 ^ (8 * (n + 1)) = 2 * 2 ^ (8 * (n + 1) - 1) := by
          rw [← Nat.pow_succ', Nat.succ_eq_add_one, Nat.sub_add_cancel (by omega)]
        rw [hpow]
        omega
    unfold extBytes toSigned
    simp only [hsign, if_true, true_and]
    split_ifs with h
    · refine congrArg (BitVec.ofNat 64) ?_
      have hcast : ((2 ^ 64 + x - 2 ^ (8 * n) : Nat) : Int) = (x : Int) - 2 ^ (8 * n) + 2 ^ 64 := by
        rw [Nat.cast_sub (by omega)]
        push_cast
        ring
      rw [← wrapTo_natCast (w := 64) (n := 2 ^ 64 + x - 2 ^ (8 * n)) (by omega), hcast]
      exact wrapTo_congr (Int.add_emod_right ..).symm
    · rw [wrapTo_natCast (lt_of_lt_of_le hx hle)]

/-! ### An access acts at a bank of its own die (R222, R237-R240) -/

/-- An access of a lane that stands at a bank of its own die, in the mode that its group is in. -/
structure ActsHere (s : State) (a : Access) (g : Group) : Prop where
  mem : s.memOk = true
  home : a.home = a.die
  phase : a.phase = .atBank
  dst : a.dst = .lane
  kept : a.discard = []
  loc : isStoreLoc a.loc = true
  lane : a.lane < 32
  group : s.group? a.grp = some g
  mode : a.hnd = g.inHandler

namespace ActsHere

variable {s w : State} {a : Access} {g : Group} (h : ActsHere s a g)
include h

theorem receives_value (x : Word) :
    Received g (g.received a { vals := [(a.d, x)] }) a.lane (fun r => if r = a.d then some x else none) fun _ => none := by
  have heq : g.received a { vals := [(a.d, x)] } = g.setV a.d a.lane x := by
    unfold Group.received
    simp only [List.foldl_cons, List.foldl_nil, h.kept, h.mode, Group.setVat_inHandler, List.contains_nil, Bool.false_eq_true, if_false]
  rw [heq]
  exact .register g a.lane h.lane a.d x

theorem receives_predicate {n : Nat} (hn : n < 16) (b : Bool) :
    Received g (g.received a { pred := some (n, b) }) a.lane (fun _ => none) fun k => if k = n then some b else none := by
  have heq : g.received a { pred := some (n, b) } = g.setPn n a.lane b := by
    unfold Group.received
    simp only [List.foldl_nil, h.mode, Group.setPat_inHandler]
  rw [heq]
  exact .predicate g a.lane hn b

/-- What has been done at the location, and the full/empty action after it, stay once the access has returned. -/
theorem returns {r : AccResult} {vs : Nat → Option Word} {p : Nat → Option Bool} {m : Nat → Byte}
    (hrec : Received g (g.received a r) a.lane vs p) (hw : w = { s with mem := w.mem }) (hm : ∀ x, Memory.read w.mem x = m x)
    (hfe : a.fe ∈ [1, 2, 3]) (hq : a.fe = 2 → s.waitersOf a.loc = []) :
    Acted s ((w.feAct a.loc a.fe).finishAcc a r) a g vs p m ∧ FeActs a.fe a.loc s ((w.feAct a.loc a.fe).finishAcc a r) := by
  have hwait : a.fe = 2 → w.waitersOf a.loc = [] := by
    rw [hw]
    exact hq
  obtain ⟨heq, hacts⟩ := feAct_quiet hfe hwait
  obtain ⟨hfull, -⟩ := finishAcc_keeps (t := w.feAct a.loc a.fe) (r := r) h.home h.phase
  refine ⟨?_, ?_⟩
  · refine finishAcc_acted h.home h.phase h.dst h.group ?_ ?_ ?_ hrec fun x => ?_
    · rw [heq, hw]
    · rw [heq, hw]
    · rw [heq, hw]
    · rw [heq]; exact hm x
  · unfold FeActs State.isFull at hacts ⊢
    rw [hfull]
    rw [show s.full = w.full by rw [hw]]
    exact hacts

theorem stores {n v : Nat} {r : AccResult} {vs : Nat → Option Word} {p : Nat → Option Bool}
    (hrec : Received g (g.received a r) a.lane vs p) (hfe : a.fe ∈ [1, 2, 3]) (hq : a.fe = 2 → s.waitersOf a.loc = []) :
    Acted s (((s.wr a.loc n v).feAct a.loc a.fe).finishAcc a r) a g vs p (stored s a.loc n v) ∧
      FeActs a.fe a.loc s (((s.wr a.loc n v).feAct a.loc a.fe).finishAcc a r) :=
  h.returns hrec rfl (fun x => Memory.read_writeN n h.mem a.loc v x) hfe hq

end ActsHere

namespace ActsHere

variable {s : State} {a : Access} {g : Group} (h : ActsHere s a g)
include h

/-- The full/empty action of an access to a store bank is taken. -/
theorem fe_of_loc (t : State) : (if isStoreLoc a.loc then t.feAct a.loc a.fe else t) = t.feAct a.loc a.fe := if_pos h.loc

theorem load {sg : Bool} (hk : a.kind = .load sg) (hn : a.size ≤ 8) (hclean : s.poisoned a.loc a.size = false) :
    Acted s (s.actAny a) a g (fun r => if r = a.d then some
        (if sg ∧ 2 ^ (8 * a.size) ≤ 2 * Memory.readN s.mem a.loc a.size then
          BitVec.ofNat 64 (2 ^ 64 + Memory.readN s.mem a.loc a.size - 2 ^ (8 * a.size))
        else BitVec.ofNat 64 (Memory.readN s.mem a.loc a.size)) else none) (fun _ => none) (Memory.read s.mem) ∧
      (s.actAny a).full = s.full := by
  have hact : s.actAny a = s.finishAcc a { vals := [(a.d, extBytes sg a.size (Memory.readN s.mem a.loc a.size))] } := by
    unfold State.actAny State.actAt
    rw [hk]
    exact if_neg (ne_true_of_eq_false hclean)
  rw [hact, ← extBytes_eq sg hn (Memory.readN_lt ..)]
  exact ⟨finishAcc_acted h.home h.phase h.dst h.group rfl rfl rfl (h.receives_value _) fun _ => rfl,
    (finishAcc_keeps h.home h.phase).1⟩

section Quiet

variable (hfe : a.fe ∈ [1, 2, 3]) (hq : a.fe = 2 → s.waitersOf a.loc = [])
include hfe hq

theorem store (hk : a.kind = .store) : Acted s (s.actAny a) a g (fun _ => none) (fun _ => none) (stored s a.loc a.size a.data.toNat) ∧
    FeActs a.fe a.loc s (s.actAny a) := by
  have hact : s.actAny a = ((s.wr a.loc a.size a.data.toNat).feAct a.loc a.fe).finishAcc a {} := by
    unfold State.actAny State.actAt
    rw [hk, ← h.fe_of_loc]
  rw [hact]
  exact h.stores (.nothing ..) hfe hq

theorem stfe (hk : a.kind = .stfe) : Acted s (s.actAny a) a g (fun _ => none) (fun _ => none) (stored s a.loc 8 a.data.toNat) ∧
    FeActs a.fe a.loc s (s.actAny a) := by
  have hact : s.actAny a = ((s.wr a.loc 8 a.data.toNat).feAct a.loc a.fe).finishAcc a {} := by
    unfold State.actAny State.actAt
    rw [hk, ← h.fe_of_loc]
  rw [hact]
  exact h.stores (.nothing ..) hfe hq

theorem fefill (hk : a.kind = .fefill) : Acted s (s.actAny a) a g (fun _ => none) (fun _ => none)
    (stored s a.loc 16 (a.data.toNat + 2 ^ 64 * a.data.toNat)) ∧ FeActs a.fe a.loc s (s.actAny a) := by
  have hact : s.actAny a = ((s.wr a.loc 16 (a.data.toNat + 2 ^ 64 * a.data.toNat)).feAct a.loc a.fe).finishAcc a {} := by
    unfold State.actAny State.actAt
    rw [hk, ← h.fe_of_loc]
  rw [hact]
  exact h.stores (.nothing ..) hfe hq

theorem feq {p : Nat} (hk : a.kind = .feq p) (hp : p < 16) : Acted s (s.actAny a) a g (fun _ => none)
    (fun n => if n = p then some (s.isFull a.loc) else none) (Memory.read s.mem) ∧ FeActs a.fe a.loc s (s.actAny a) := by
  have hact : s.actAny a = (s.feAct a.loc a.fe).finishAcc a { pred := some (p, s.isFull a.loc) } := by
    unfold State.actAny State.actAt
    rw [hk, ← h.fe_of_loc]
  rw [hact]
  exact h.returns (h.receives_predicate hp _) rfl (fun _ => rfl) hfe hq

theorem atomic (hk : (∃ op ty, a.kind = .atom op ty ∨ a.kind = .atomf op ty) ∨ ∃ ty, a.kind = .cas ty)
    (hclean : s.poisoned a.loc 8 = false) :
    Acted s (s.actAny a) a g (fun r => if r = a.d then some (BitVec.ofNat 64 (Memory.readN s.mem a.loc 8)) else none) (fun _ => none)
      (stored s a.loc 8 (atomNew a.kind (BitVec.ofNat 64 (Memory.readN s.mem a.loc 8)) a.data a.data2).toNat) ∧
      FeActs a.fe a.loc s (s.actAny a) := by
  let old := BitVec.ofNat 64 (Memory.readN s.mem a.loc 8)
  have hact : s.actAny a =
      ((s.wr a.loc 8 (atomNew a.kind old a.data a.data2).toNat).feAct a.loc a.fe).finishAcc a { vals := [(a.d, old)] } := by
    rw [← h.fe_of_loc]
    unfold State.actAny State.actAt
    rcases hk with ⟨op, ty, hk | hk⟩ | ⟨ty, hk⟩ <;> rw [hk] <;> exact if_neg (ne_true_of_eq_false hclean)
  rw [hact]
  exact h.stores (h.receives_value _) hfe hq

end Quiet

/-- `ldfe` on a full granule reads, and takes its action (R226). -/
theorem ldfe_full (hk : a.kind = .ldfe) (hfull : s.isFull a.loc = true) (hclean : s.poisoned a.loc 8 = false) (hfe : a.fe ∈ [1, 3]) :
    Acted s (s.actAny a) a g (fun r => if r = a.d then some (BitVec.ofNat 64 (Memory.readN s.mem a.loc 8)) else none) (fun _ => none)
      (Memory.read s.mem) ∧ FeActs a.fe a.loc s (s.actAny a) := by
  let t := s.finishAcc a { vals := [(a.d, BitVec.ofNat 64 (Memory.readN s.mem a.loc 8))] }
  have hact : s.actAny a = if a.fe = 3 then t.setFull a.loc false else t := by
    unfold State.actAny State.actAt
    rw [hk]
    exact (if_pos hfull).trans (if_neg (ne_true_of_eq_false hclean))
  have hacted : Acted s t a g (fun r => if r = a.d then some (BitVec.ofNat 64 (Memory.readN s.mem a.loc 8)) else none) (fun _ => none)
      (Memory.read s.mem) := finishAcc_acted h.home h.phase h.dst h.group rfl rfl rfl (h.receives_value _) fun _ => rfl
  rw [hact]
  rcases List.mem_cons.mp hfe with hone | hthree
  · rw [if_neg (by rw [hone]; decide)]
    exact ⟨hacted, fun _ => (finishAcc_keeps h.home h.phase).1, fun h3 => absurd (hone.symm.trans h3) (by decide),
      fun h2 => absurd (hone.symm.trans h2) (by decide)⟩
  · have hthree := List.mem_singleton.mp hthree
    rw [if_pos hthree]
    exact ⟨hacted, fun h1 => absurd (hthree.symm.trans h1) (by decide), fun _ => isFull_setFull_false t a.loc,
      fun h2 => absurd (hthree.symm.trans h2) (by decide)⟩

/-- `ldfe` on an empty granule of its own cluster waits there (R226). -/
theorem ldfe_empty (hk : a.kind = .ldfe) (hempty : s.isFull a.loc = false) (hdie : g.die = locDie a.loc)
    (hcl : g.cluster = locCluster a.loc) : s.actAny a = { s with
      next := s.next + 1, accs := s.accs.map fun b => if b.id = a.id then { b with phase := .waiter, tag := s.next } else b } := by
  have hinside : s.fromOutside a.grp a.loc = false := by
    unfold State.fromOutside
    rw [h.group]
    simp [hdie, hcl]
  unfold State.actAny State.actAt
  rw [hk]
  refine (if_neg (ne_true_of_eq_false hempty)).trans (if_neg ?_)
  rw [hinside]
  exact Bool.noConfusion

end ActsHere

/-! ### The elements of an atomic (R239, R240) -/

/-- A reading of an element agrees with its pattern modulo the width. -/
theorem readElem_emod (t e : Nat) : readElem t e % 2 ^ typeWidth t = (e : Int) % 2 ^ typeWidth t := by
  unfold readElem toSigned
  split_ifs
  · exact Int.sub_emod_right ..
  · rfl
  · rfl

theorem wrapTo_readElem_add (t x y : Nat) : wrapTo (typeWidth t) (readElem t x + readElem t y) = (x + y) % 2 ^ typeWidth t := by
  have hcongr : (readElem t x + readElem t y) % 2 ^ typeWidth t = ((x + y : Nat) : Int) % 2 ^ typeWidth t := by
    rw [Int.add_emod, readElem_emod, readElem_emod, ← Int.add_emod]
    push_cast
    rfl
  rw [wrapTo_congr hcongr]
  refine Int.ofNat_inj.mp ((cast_wrapTo ..).trans ?_)
  push_cast
  rfl

section Atomic

variable (t : Nat) (old x y : Word) {j : Nat} (hj : j < typeCount t)
include hj

theorem elem_atom (op : Nat) : elem (atomNew (.atom op t) old x y) t j = atomElem op t (elem old t j) (elem x t j) % 2 ^ typeWidth t :=
  elem_buildElems _ hj

theorem elem_atom_add : elem (atomNew (.atom 0 t) old x y) t j = (elem old t j + elem x t j) % 2 ^ typeWidth t := by
  rw [elem_atom t old x y hj]
  refine Eq.trans ?_ (wrapTo_readElem_add t _ _)
  exact wrapTo_mod ..

theorem elem_atom_min : readElem t (elem (atomNew (.atom 1 t) old x y) t j) =
    min (readElem t (elem old t j)) (readElem t (elem x t j)) := by
  have hpick : atomElem 1 t (elem old t j) (elem x t j) =
      if readElem t (elem old t j) ≤ readElem t (elem x t j) then elem old t j else elem x t j := rfl
  rw [elem_atom t old x y hj, hpick, min_def]
  split_ifs <;> rw [elem_mod]

theorem elem_atom_max : readElem t (elem (atomNew (.atom 2 t) old x y) t j) =
    max (readElem t (elem old t j)) (readElem t (elem x t j)) := by
  have hpick : atomElem 2 t (elem old t j) (elem x t j) =
      if readElem t (elem old t j) ≤ readElem t (elem x t j) then elem x t j else elem old t j := rfl
  rw [elem_atom t old x y hj, hpick, max_def]
  split_ifs <;> rw [elem_mod]

theorem elem_atom_and : elem (atomNew (.atom 3 t) old x y) t j = elem old t j &&& elem x t j :=
  (elem_atom t old x y hj 3).trans (Nat.mod_eq_of_lt (Nat.and_lt_two_pow _ (elem_lt ..)))

theorem elem_atom_or : elem (atomNew (.atom 4 t) old x y) t j = elem old t j ||| elem x t j :=
  (elem_atom t old x y hj 4).trans (Nat.mod_eq_of_lt (Nat.or_lt_two_pow (elem_lt ..) (elem_lt ..)))

theorem elem_atom_xor : elem (atomNew (.atom 5 t) old x y) t j = elem old t j ^^^ elem x t j :=
  (elem_atom t old x y hj 5).trans (Nat.mod_eq_of_lt (Nat.xor_lt_two_pow (elem_lt ..) (elem_lt ..)))

theorem elem_atom_swap : elem (atomNew (.atom 6 t) old x y) t j = elem x t j := (elem_atom t old x y hj 6).trans (elem_mod ..)

theorem elem_cas : elem (atomNew (.cas t) old x y) t j = if elem old t j = elem x t j then elem y t j else elem old t j := by
  refine (elem_buildElems _ hj).trans ?_
  split_ifs <;> exact elem_mod ..

end Atomic

/-! ### The obligation -/

theorem State.quarterOn_iff (s : State) (l : Nat) : s.quarterOn l = true ↔
    (s.cluster (locDie l) (locCluster l)).quarters.getD (l % 2 ^ 20 / 2 ^ 18) .on = .on := beq_iff_eq

/-- Settles O38: a cycle of a bank, what each kind of access does at its location, and the elements of an atomic. -/
theorem accessesAct : Obligations.AccessesAct := by
  unfold Obligations.AccessesAct
  refine ⟨?cycle, ?acts, ?atomics⟩
  case cycle =>
    intro s die cl bank s1 queue quarter
    refine ⟨s.enterBank_changes die cl bank, State.enterBank_keeps, bankAccess_relocking, fun hrun => ⟨bankAccess_idle hrun, ?_⟩⟩
    intro x hx hmin
    have hrun := bankAccess_oldest hrun hx hmin
    refine ⟨fun a ha => ⟨fun hon => ?_, fun hoff => ?_⟩, fun r hr => ⟨fun hon => ?_, fun hoff => ?_⟩⟩
    · rw [hrun, ha]
      exact congrArg _ (if_pos ((s1.quarterOn_iff a.loc).mpr hon))
    · rw [hrun, ha]
      exact congrArg _ (if_neg fun h => hoff ((s1.quarterOn_iff a.loc).mp h))
    · rw [hrun, hr]
      exact congrArg _ (if_neg hon)
    · rw [hrun, hr]
      exact congrArg _ (if_pos hoff)
  case acts =>
    intro s a g hmem ha hhome hph hdst hkept hloc hlane hg hmode t same bytes fe clean quiet reg none'
    have h : ActsHere s a g := ⟨hmem, hhome, hph, hdst, hkept, hloc, hlane, hg, hmode⟩
    refine ⟨fun sg => h.load, fun hk ⟨hfe, hq⟩ => h.store hfe hq hk, fun hk ⟨hfe, hq⟩ => h.stfe hfe hq hk,
      fun hk ⟨hfe, hq⟩ => h.fefill hfe hq hk, fun p hk hp ⟨hfe, hq⟩ => h.feq hfe hq hk hp, h.ldfe_full,
      fun hk hempty hdie hcl _ => h.ldfe_empty hk hempty hdie hcl, fun hk ⟨hfe, hq⟩ hclean => h.atomic hfe hq hk hclean⟩
  case atomics =>
    intro t old x y j _ _ hj o b new
    exact ⟨elem_atom_add t old x y hj, elem_atom_min t old x y hj, elem_atom_max t old x y hj, elem_atom_and t old x y hj,
      elem_atom_or t old x y hj, elem_atom_xor t old x y hj, elem_atom_swap t old x y hj, elem_cas t old x y hj⟩

end Sys2Proof.Machine
end

section
/-! PROOFS. Engine forms: what queueing an engine command leaves of the state and of its group, and the guard slots (spec 09 R256-R272,
spec 11 R317), and from them the obligation on `copy`, `cflag`, `pattr`, `coll` and `gres`. -/

set_option Elab.async false

namespace Sys2Proof.Machine

/-! ### The verdict of a queue's head (R258) -/

/-- The verdict that a slot gives the head it guards. -/
def Slot.verdict : Slot → Option Bool
  | .opened => none
  | .isTrue => some true
  | .isFalse => some false

namespace Group

/-- A verdict changes the engine queue alone. -/
theorem judge_eq (g : Group) : g.judge = { g with engq := g.judge.engq } := by
  unfold judge
  split
  · rfl
  · split_ifs <;> rfl

@[simp] theorem judge_id (g : Group) : g.judge.id = g.id := by rw [judge_eq]

theorem judge_front (g : Group) : g.judge.front = g.front := by rw [judge_eq]; rfl

/-- Beside its verdict the head of the queue stays as it is. -/
theorem judge_engq (g : Group) :
    g.judge.engq.map (fun c => { c with verdict := none }) = g.engq.map fun c => { c with verdict := none } := by
  unfold judge
  split
  · rfl
  · next c t hq =>
    split_ifs
    · rfl
    · rw [hq]; rfl

/-- A held head takes the verdict of the slot that guards it. -/
theorem judge_engq_of_slot {g : Group} {c : Cmd} {t : List Cmd} {n : Nat} {v : Slot} (hq : g.engq = c :: t) (hheld : c.verdict = none)
    (hguard : c.guard = some n) (hslot : AMap.getD g.gslots n .opened = v) : g.judge.engq = { c with verdict := v.verdict } :: t := by
  simp only [judge, hq, hheld, hguard, hslot]
  cases v <;> rfl

end Group

/-! ### Queueing a command (R256, R228) -/

section Queueing

variable {i : Instr} {s t : State} {g : Group} {e : Entry} {cc : Nat}

theorem Iss.queueHeld_of_mayQueue (h : MayQueue i s g e cc) : (Iss.mk' s g e i).queueHeld cc = false := by
  obtain ⟨hroom, hcount, hopen⟩ := h
  simp only [Iss.queueHeld, Iss.mk'_g, Iss.mk'_s, hopen, Nat.not_le.mpr hroom, Nat.not_le.mpr hcount, decide_false, Bool.or_self]

/-- A command queued once an operand block has been read is queued, and its sequence completes. -/
theorem queues_of {ch scope blk : Nat} {kind : CmdKind} (hi : AtIssue i s g e) (ho : Only g e) (hread : BlockRead s t)
    (hx : exec i s = .next ({ Iss.mk' s g e i with s := t }.queueCmd cc ch kind scope blk)) : Queues i s g e cc ch scope kind := by
  have hgroups := hread.groups
  have hctx := hread.groupCtx g
  have hops : t.ops = s.ops := by rw [hread.1]
  obtain ⟨heq, hdies, hreqs⟩ := hread
  refine ⟨_, _, _, _, ends_of hx hi ho hgroups (Group.judge_id _) (Group.judge_front _), ⟨?_, hdies, hreqs⟩,
    congrArg (· ++ [_]) hops, rfl, rfl, rfl, rfl, Group.judge_eq _, (Group.judge_engq _).trans List.map_append, rfl, rfl, hctx, rfl,
    rfl, rfl, rfl⟩
  simp only [State.addOp, State.fresh]
  rw [heq]

/-- An instruction that queues a command by an operand block reads the block, where both can be done. -/
theorem exec_withBlock {sa : BitVec 4} {loc : Nat} {k : Iss → Iss → Nat → State}
    (hx : exec i s = issue i s fun u => if u.queueHeld cc then u.s else u.withBlock (u.g.getS sa.toNat).toNat 64 (k u))
    (hi : AtIssue i s g e) (hq : MayQueue i s g e cc) (hb : BlockAt s g (g.getS sa.toNat).toNat 64 loc) :
    ∃ t, BlockRead s t ∧
      exec i s = .next (k (Iss.mk' s g e i) { Iss.mk' s g e i with s := t } (Memory.readN s.mem loc 64)) := by
  obtain ⟨t, hread, hk⟩ := Iss.withBlock_of_at (u := Iss.mk' s g e i) hb (k (Iss.mk' s g e i))
  refine ⟨t, hread, (hx.trans (issue_next hi _)).trans (congrArg _ (.trans (if_neg ?_) hk))⟩
  rw [Iss.queueHeld_of_mayQueue hq]
  exact Bool.false_ne_true

end Queueing

/-! ### Blocks (R27, R265, R317) -/

namespace BlockRead

variable {s t : State} (h : BlockRead s t)
include h

theorem ctx? (n : Nat) : t.ctx? n = s.ctx? n := by rw [State.ctx?, h.ctxs]; rfl

theorem ent (c n : Nat) : t.ent c n = s.ent c n := by rw [State.ent, h.ctx?]; rfl

theorem gang? (n : Nat) : t.gang? n = s.gang? n := by rw [h.1]; rfl

theorem copyFault (c b : Nat) : t.copyFault c b = s.copyFault c b := by
  unfold State.copyFault State.scaleOk
  simp only [h.ent]

theorem die_isSome (n : Nat) : (t.die? n).isSome = (s.die? n).isSome := by
  have := congrArg Option.isSome (h.2.1 n)
  simpa only [Option.isSome_map] using this

theorem partDies (c : Context) (n : Nat) : t.partDies c n = s.partDies c n := by
  unfold State.partDies
  simp only [h.die_isSome]

theorem groupLaunch? (g : Group) : t.groupLaunch? g = s.groupLaunch? g := by rw [h.1]; rfl

theorem collFault (g : Group) (c b : Nat) : t.collFault g c b = s.collFault g c b := by
  unfold State.collFault
  simp only [h.ent, h.ctx?, h.partDies, h.groupLaunch?]

end BlockRead

/-- A gang that is bound to a tile set goes on with it (R52). -/
theorem Iss.withSet_of_bound {u : Iss} {ga : Gang} {n : Nat} {k : Iss → Gang → Nat → State} (hga : u.s.gang? u.g.gang = some ga)
    (hset : ga.tset = some n) : u.withSet k = k u ga n := by
  simp only [Iss.withSet, hga, hset]

section Forms

variable {h : Head} {s : State} {g : Group} {e : Entry} {loc : Nat}

/-! ### `copy` and `coll` (R264, R317) -/

/-- A copy command, with the entries its block names as they stand (R264). -/
def State.copyKind (s : State) (c b : Nat) : CmdKind :=
  .copy (BitVec.ofNat 512 b) (BitVec.ofNat 512 (if cbKind b = 3 then 0 else s.ent c (cbStid b))) (BitVec.ofNat 512 (s.ent c (cbDtid b)))
    (BitVec.ofNat 512 (s.ent c (Ent.scalet (s.ent c (cbDtid b)))))

theorem BlockRead.copyKind {t : State} (h : BlockRead s t) (c b : Nat) : t.copyKind c b = s.copyKind c b := by
  simp only [State.copyKind, h.ent]

/-- Beside reading its block, a copy does what the block and the entries that it names say. -/
theorem exec_copy {f : FCopy} (hi : AtIssue (.copy h f) s g e) (hq : MayQueue (.copy h f) s g e f.cc.toNat)
    (hb : BlockAt s g (g.getS f.sa.toNat).toNat 64 loc) :
    let b := Memory.readN s.mem loc 64
    ∃ t blk, BlockRead s t ∧
      (∀ x, s.copyFault (s.groupCtx g) b = some x →
        exec (.copy h f) s = .next ({ Iss.mk' s g e (.copy h f) with s := t }.badTensor x)) ∧
      (s.copyFault (s.groupCtx g) b = none → (cbKind b = 2 → ∃ ga n, s.gang? g.gang = some ga ∧ ga.tset = some n) →
        exec (.copy h f) s = .next ({ Iss.mk' s g e (.copy h f) with s := t }.queueCmd f.cc.toNat f.ch.toNat
          (s.copyKind (s.groupCtx g) b) (engScope h.hints) blk)) := by
  obtain ⟨t, hread, hx⟩ := exec_withBlock rfl hi hq hb
  have hctx : t.groupCtx g = s.groupCtx g := hread.groupCtx g
  dsimp only [Iss.ctx, Iss.mk'_g] at hx
  rw [hctx, hread.copyFault] at hx
  refine ⟨t, (g.getS f.sa.toNat).toNat % 2 ^ 56 / 64 * 64, hread, fun x hfault => ?_, fun hvalid hset => ?_⟩
  · rw [hx, hfault]
    rfl
  · rw [hx, hvalid, ← hread.copyKind]
    refine congrArg _ ?_
    by_cases hkind : cbKind (Memory.readN s.mem loc 64) = 2
    · obtain ⟨ga, n, hga, hn⟩ := hset hkind
      refine (if_pos hkind).trans (Iss.withSet_of_bound ((hread.gang? _).trans hga) hn)
    · exact if_neg hkind

/-- So does a collective: where its block is valid it queues a command with the entries that the block names. -/
theorem exec_coll {f : FPattr0} (hi : AtIssue (.coll h f) s g e) (hq : MayQueue (.coll h f) s g e f.cc.toNat)
    (hb : BlockAt s g (g.getS f.sa.toNat).toNat 64 loc)
    (hvalid : s.collFault g (s.groupCtx g) (Memory.readN s.mem loc 64) = none) :
    let b := Memory.readN s.mem loc 64
    ∃ t blk, BlockRead s t ∧ exec (.coll h f) s = .next ({ Iss.mk' s g e (.coll h f) with s := t }.queueCmd f.cc.toNat 0
      (.coll (BitVec.ofNat 512 b) (BitVec.ofNat 512 (s.ent (s.groupCtx g) (colStid b)))
        (BitVec.ofNat 512 (s.ent (s.groupCtx g) (colDtid b)))) 5 blk) := by
  obtain ⟨t, hread, hx⟩ := exec_withBlock rfl hi hq hb
  have hctx : t.groupCtx g = s.groupCtx g := hread.groupCtx g
  dsimp only [Iss.ctx, Iss.mk'_g] at hx
  rw [hctx, hread.collFault, hvalid] at hx
  dsimp only at hx
  rw [hread.ent, hread.ent] at hx
  exact ⟨t, _, hread, hx⟩

/-! ### `cflag` and `pattr` (R270, R272) -/

theorem exec_cflag {f : FCflag} {a loc : Nat} {k : Nat} {r : Option (Nat × BitVec 64)} (hi : AtIssue (.cflag h f) s g e)
    (hq : MayQueue (.cflag h f) s g e f.cc.toNat) (hplan : s.flagPlan g ((g.getS f.sa.toNat).toNat % 2 ^ 56) = .go a loc k r) :
    exec (.cflag h f) s = .next ((Iss.mk' s g e (.cflag h f)).queueCmd f.cc.toNat f.ch.toNat
      (.cflag ((g.getS f.sa.toNat).toNat % 2 ^ 56) (g.getS f.sv.toNat)) (engScope h.hints) ((g.getS f.sa.toNat).toNat % 2 ^ 56)) := by
  refine (issue_next hi _).trans (congrArg _ ((if_neg ?_).trans ?_))
  · rw [Iss.queueHeld_of_mayQueue hq]
    exact Bool.false_ne_true
  · simp only [Iss.mk'_s, Iss.mk'_g, hplan]

/-- The forms of `pattr` queue their command once their address translates, having used the walk that it waited for (R253). -/
theorem exec_pattr {i : Instr} {cc : BitVec 2} {sa : BitVec 4} {op pa k : Nat} (hx : exec i s = pattrSeq i cc sa op s)
    (hi : AtIssue i s g e) (hq : MayQueue i s g e cc.toNat) (hwin : winOf ((g.getS sa.toNat).toNat % 2 ^ 56) = .translated)
    (hpa : s.xlate g.die g.cluster (s.groupCtx g) ((g.getS sa.toNat).toNat % 2 ^ 56) .read = .ok pa k) :
    exec i s = .next ({ Iss.mk' s g e i with s := s.consumeWalks g.die g.cluster (s.groupCtx g) }.queueCmd cc.toNat 0
      (.pattr op ((g.getS sa.toNat).toNat % 2 ^ 56)) 6 ((g.getS sa.toNat).toNat % 2 ^ 56)) := by
  have hpa : s.xlate g.die g.cluster (Iss.mk' s g e i).ctx ((g.getS sa.toNat).toNat % 2 ^ 56) .read = .ok pa k := hpa
  refine (hx.trans (issue_next hi _)).trans (congrArg _ ((if_neg ?_).trans ?_))
  · rw [Iss.queueHeld_of_mayQueue hq]
    exact Bool.false_ne_true
  · simp only [Iss.mk'_s, Iss.mk'_g, hwin, hpa]
    rfl

/-! ### `gres` (R269) -/

/-- A group with a guard slot set: the slot reads what was set, and a held head that names it is judged at once. -/
theorem sets_slot {i : Instr} {n : Nat} {v : Slot} (hi : AtIssue i s g e) (ho : Only g e)
    (hx : exec i s = .next ((Iss.mk' s g e i).finish (g.setSlot n v))) :
    ∃ g0, Ends i s g e s g0 ∧ g0 = { g with gslots := g0.gslots, engq := g0.engq } ∧
      (∀ k, AMap.get? g0.gslots k = if k = n then some v else AMap.get? g.gslots k) ∧
      ∀ c t, g.engq = c :: t → c.verdict = none → c.guard = some n → g0.engq = { c with verdict := v.verdict } :: t := by
  have heq := Group.judge_eq { g with gslots := AMap.set g.gslots n v }
  refine ⟨g.setSlot n v, ends_of hx hi ho rfl (Group.judge_id _) (Group.judge_front _), ?_, fun k => ?_, fun c t hq hheld hguard => ?_⟩
  · rw [Group.setSlot, heq]
  · rw [Group.setSlot, heq]
    exact AMap.get?_set ..
  · exact Group.judge_engq_of_slot hq hheld hguard ((AMap.getD_set ..).trans (if_pos rfl))

theorem exec_gres {f : FGres} (hi : AtIssue (.gres h f) s g e) : exec (.gres h f) s = .next ((Iss.mk' s g e (.gres h f)).finish
    (g.setSlot f.slot.toNat (if readSrc g (((Iss.mk' s g e (.gres h f)).act.toList.head?).getD 0) [] 0 f.a = 0
      then .isFalse else .isTrue))) := by
  rw [← List.headD_eq_head?_getD]
  exact issue_next hi _

end Forms

/-! ### The obligation -/

/-- Settles O43: a block read, a flag's place or a translated address lets one command be queued, and a slot set judges the head. -/
theorem engineForms : Obligations.EngineForms := by
  unfold Obligations.EngineForms
  refine ⟨?copy, ?coll, ?cflag, ?pattr, ?gres⟩
  case copy =>
    intro h f s g e loc i ctx b d hi ho hq hb
    obtain ⟨t, blk, hread, htrap, hqueue⟩ := exec_copy hi hq hb
    exact ⟨fun hvalid hset => queues_of hi ho hread (hqueue hvalid hset),
      fun x hfault => ⟨_, t, rfl, rfl, rfl, hread, htrap x hfault⟩⟩
  case coll =>
    intro h f s g e loc i ctx b hi ho hq hb hvalid
    obtain ⟨t, blk, hread, hx⟩ := exec_coll hi hq hb hvalid
    exact queues_of hi ho hread hx
  case cflag =>
    rintro h f s g e i ea hi ho hq ⟨loc, k, r, hplan⟩
    exact queues_of hi ho (.refl s) (exec_cflag hi hq hplan)
  case pattr =>
    intro h f f1 f2 s g e queues
    have key (i : Instr) (cc : BitVec 2) (sa : BitVec 4) (op : Nat) (hx : exec i s = pattrSeq i cc sa op s) : queues i cc sa op := by
      rintro hi ho hq hwin ⟨pa, k, hpa⟩
      exact queues_of hi ho ((BlockRead.refl s).consumeWalks ..) (exec_pattr hx hi hq hwin hpa)
    exact ⟨key _ _ _ _ rfl, key _ _ _ _ rfl, key _ _ _ _ rfl⟩
  case gres =>
    intro h f fo s g e sets x
    have hsets {i : Instr} {n : Nat} {v : Slot} (hx : AtIssue i s g e → exec i s = .next ((Iss.mk' s g e i).finish (g.setSlot n v))) :
        sets i n v := fun hi ho => sets_slot hi ho (hx hi)
    refine ⟨fun hx => hsets fun hi => (exec_gres hi).trans ?_, fun hx => hsets fun hi => (exec_gres hi).trans ?_,
      hsets fun hi => issue_next hi _⟩
    · rw [if_neg hx]
    · rw [if_pos hx]

end Sys2Proof.Machine
end

section
/-! PROOFS. Walks: a page walk from its start to the TLBs that its leaf enters, and the invalidation of a range (spec 09 R253-R255), and
from them the obligation on walks. -/

set_option Elab.async false

namespace Sys2Proof.Machine

/-- An entry that is added stands in the TLB. -/
theorem mem_tlbAdd (cap : Nat) (l : List TlbE) (e : TlbE) : e ∈ tlbAdd cap l e :=
  List.mem_append_right _ (List.mem_singleton_self e)

namespace State

variable {s t : State}

/-! ### What a walk reads (R248, R245) -/

theorem poisoned_congr (h : t.poison = s.poison) (a n : Nat) : t.poisoned a n = s.poisoned a n := by rw [poisoned, h]; rfl

theorem rd_congr (h : t.mem = s.mem) (a n : Nat) : t.rd a n = s.rd a n := by rw [rd, h]; rfl

theorem walkFrom_congr (hmem : t.mem = s.mem) (hpoison : t.poison = s.poison) (va fuel level tbl : Nat) :
    t.walkFrom va fuel level tbl = s.walkFrom va fuel level tbl := by
  induction fuel generalizing level tbl with
  | zero => rfl
  | succ n ih => simp only [walkFrom, poisoned_congr hpoison, rd_congr hmem, ih]

/-- A walk reads memory, with its errors, and the roots of the contexts. -/
theorem walk_congr (hmem : t.mem = s.mem) (hpoison : t.poison = s.poison) (hctxs : t.ctxs = s.ctxs) (ctx va : Nat) :
    t.walk ctx va = s.walk ctx va := by
  unfold walk ctx?
  simp only [hctxs, walkFrom_congr hmem hpoison]

theorem sameWalk_congr (hmem : t.mem = s.mem) (hpoison : t.poison = s.poison) (hctxs : t.ctxs = s.ctxs) (a b : Walk) :
    t.sameWalk a b = s.sameWalk a b := by
  unfold sameWalk
  rw [walk_congr hmem hpoison hctxs]

theorem noteError_eq (s : State) (loc : Nat) : s.noteError loc = { s with pkg := (s.noteError loc).pkg } := by
  unfold noteError
  split <;> rfl

/-- What the management controller learns of a walk stands in the package alone. -/
theorem noteWalk_eq (s : State) (ctx va : Nat) : s.noteWalk ctx va = { s with pkg := (s.noteWalk ctx va).pkg } := by
  unfold noteWalk
  split
  · exact noteError_eq ..
  · rfl

theorem poisonedEntry_endReqs (s : State) (o : Owner) (va fuel level tbl : Nat) :
    (s.endReqs o).poisonedEntry va fuel level tbl = s.poisonedEntry va fuel level tbl := by
  induction fuel generalizing level tbl with
  | zero => rfl
  | succ n ih => simp only [poisonedEntry, ih]; rfl

theorem noteError_endReqs (s : State) (o : Owner) (loc : Nat) : (s.endReqs o).noteError loc = (s.noteError loc).endReqs o := by
  have hdie (n : Nat) : (s.endReqs o).die? n = s.die? n := rfl
  unfold noteError
  rw [hdie]
  split <;> rfl

theorem noteWalk_endReqs (s : State) (o : Owner) (ctx va : Nat) : (s.endReqs o).noteWalk ctx va = (s.noteWalk ctx va).endReqs o := by
  have hctx : (s.endReqs o).ctx? ctx = s.ctx? ctx := rfl
  unfold noteWalk
  simp only [hctx, poisonedEntry_endReqs]
  split
  · exact noteError_endReqs ..
  · rfl

/-! ### Entries of TLBs (R253) -/

/-- A leaf's entry goes into TLBs of clusters and dies alone. -/
theorem installTlb_eq (s : State) (die cl : Nat) (e : TlbE) : s.installTlb die cl e =
    { s with clusters := (s.installTlb die cl e).clusters, dies := (s.installTlb die cl e).dies } := by
  unfold installTlb updCluster
  split_ifs <;> rfl

/-- What a TLB of a cluster holds after an entry is installed: the entry too, where it is the cluster's. -/
theorem cluster_tlb_installTlb (s : State) (die cl die' cl' : Nat) (e : TlbE) : ((s.installTlb die cl e).cluster die' cl').tlb =
    if cl < dieUnits ∧ clKey die' cl' = clKey die cl then tlbAdd 256 (s.cluster die' cl').tlb e else (s.cluster die' cl').tlb := by
  have hdie (u : State) (f : Die → Die) : (u.updDie die f).cluster die' cl' = u.cluster die' cl' := rfl
  unfold installTlb
  rw [hdie]
  by_cases hcl : cl < dieUnits
  · rw [if_pos hcl, cluster_updCluster]
    · simp only [hcl, true_and]
      split_ifs <;> rfl
    · exact fun _ => rfl
  · rw [if_neg hcl, if_neg fun h => hcl h.1]

theorem die?_installTlb (s : State) (die cl n : Nat) (e : TlbE) : (s.installTlb die cl e).die? n =
    if n = die then (s.die? n).map fun d => { d with tlb := tlbAdd 8192 d.tlb e } else s.die? n := by
  have hcl (f : Cluster → Cluster) : (s.updCluster die cl f).die? n = s.die? n := by
    rw [die?, updCluster_dies]; rfl
  unfold installTlb
  rw [die?_updDie]
  · by_cases hu : cl < dieUnits
    · rw [if_pos hu, hcl]
    · rw [if_neg hu]
  · exact fun _ h => h

/-- An entry stands in the TLB of a cluster. -/
def clusterHolds (die cl : Nat) (e : TlbE) (s : State) : Prop := e ∈ (s.cluster die cl).tlb

/-- An entry stands in the TLB of a die. -/
def dieHolds (die : Nat) (e : TlbE) (s : State) : Prop := ∃ d, s.die? die = some d ∧ e ∈ d.tlb

/-- Installing an entry again, wherever it is, keeps it where it stands. -/
theorem clusterHolds_installTlb {die cl : Nat} {e : TlbE} (h : clusterHolds die cl e s) (die' cl' : Nat) :
    clusterHolds die cl e (s.installTlb die' cl' e) := by
  unfold clusterHolds
  rw [cluster_tlb_installTlb]
  split_ifs
  · exact mem_tlbAdd ..
  · exact h

theorem dieHolds_installTlb {die : Nat} {e : TlbE} (h : dieHolds die e s) (die' cl' : Nat) :
    dieHolds die e (s.installTlb die' cl' e) := by
  obtain ⟨d, hd, he⟩ := h
  unfold dieHolds
  rw [die?_installTlb, hd]
  split_ifs
  · exact ⟨_, rfl, mem_tlbAdd ..⟩
  · exact ⟨d, rfl, he⟩

/-! ### The end of a walk (R253, R245) -/

/-- A walk of the die takes the result of walk `w`: it is `w`, or waits for the same page. -/
def takes (s : State) (w x : Walk) : Bool := x.id == w.id || (x.isWaiting && s.sameWalk w x)

/-- The leaf of walk `w` is installed for a walk that takes its result. -/
def installFor (s : State) (w : Walk) (e : TlbE) (t : State) (x : Walk) : State :=
  if s.takes w x && x.install && !w.stale then t.installTlb w.die x.cluster e else t

/-- The leaf of walk `w` is installed for every walk that takes its result. -/
def installAll (s : State) (w : Walk) (e : TlbE) : State := s.walks.foldl (s.installFor w e) s

/-- Of a state in which leaves are installed only TLBs of clusters and dies differ. -/
def Installed (s t : State) : Prop := t = { s with clusters := t.clusters, dies := t.dies }

theorem Installed.installFor {u : State} {w : Walk} {e : TlbE} (h : Installed u t) (x : Walk) : Installed u (s.installFor w e t x) := by
  unfold State.installFor
  split_ifs
  · refine (installTlb_eq t w.die x.cluster e).trans ?_
    generalize t.installTlb w.die x.cluster e = v
    rw [h]
  · exact h

theorem installed_installAll (s : State) (w : Walk) (e : TlbE) : Installed s (s.installAll w e) :=
  foldl_keeps (P := Installed s) (fun _ x ht => ht.installFor x) s.walks rfl

/-- A walk that read an invalidated entry installs nothing. -/
theorem installAll_of_stale {w : Walk} (h : w.stale = true) (e : TlbE) : s.installAll w e = s :=
  foldl_keeps (P := fun t => t = s) (fun t x ht => (if_neg (by simp [h])).trans ht) s.walks rfl

theorem installFor_of_takes {w x : Walk} (htakes : s.takes w x = true) (hinst : x.install = true) (hstale : w.stale = false) (e : TlbE)
    (t : State) : s.installFor w e t x = t.installTlb w.die x.cluster e :=
  if_pos (by simp [htakes, hinst, hstale])

section Installs

variable {w x : Walk} (hx : x ∈ s.walks) (htakes : s.takes w x = true) (hinst : x.install = true) (hstale : w.stale = false) (e : TlbE)
include hx htakes hinst hstale

/-- The leaf of a walk stands in the TLB of every cluster that takes its result. -/
theorem clusterHolds_installAll (hcl : x.cluster < 32) : clusterHolds w.die x.cluster e (s.installAll w e) := by
  refine foldl_reaches (P := clusterHolds w.die x.cluster e) (Q := fun _ => True) hx (fun _ _ _ => trivial) (fun t y ht => ?_)
    (fun t _ => ?_) trivial
  · unfold installFor
    split_ifs
    · exact clusterHolds_installTlb ht ..
    · exact ht
  · rw [installFor_of_takes htakes hinst hstale, clusterHolds, cluster_tlb_installTlb, if_pos ⟨hcl, rfl⟩]
    exact mem_tlbAdd ..

/-- And in the TLB of its die. -/
theorem dieHolds_installAll (hdie : (s.die? w.die).isSome = true) : dieHolds w.die e (s.installAll w e) := by
  refine foldl_reaches (P := dieHolds w.die e) (Q := fun t => (t.die? w.die).isSome = true) hx (fun t y ht => ?_) (fun t y ht => ?_)
    (fun t ht => ?_) hdie
  · unfold installFor
    split_ifs
    · rw [die?_installTlb, if_pos rfl, Option.isSome_map]
      exact ht
    · exact ht
  · unfold installFor
    split_ifs
    · exact dieHolds_installTlb ht ..
    · exact ht
  · obtain ⟨d, hd⟩ := Option.isSome_iff_exists.mp ht
    rw [installFor_of_takes htakes hinst hstale, dieHolds, die?_installTlb, if_pos rfl, hd]
    exact ⟨_, rfl, mem_tlbAdd ..⟩

end Installs

theorem takes_congr (hmem : t.mem = s.mem) (hpoison : t.poison = s.poison) (hctxs : t.ctxs = s.ctxs) (w x : Walk) :
    t.takes w x = s.takes w x := by
  unfold takes
  rw [sameWalk_congr hmem hpoison hctxs]

section Ends

variable {w : Walk}

theorem walk_noteWalk (ctx va : Nat) : (s.noteWalk ctx va).walk ctx va = s.walk ctx va := by
  refine walk_congr ?_ ?_ ?_ ctx va <;> rw [noteWalk_eq]

theorem takes_noteWalk (ctx va : Nat) (x : Walk) : (s.noteWalk ctx va).takes w x = s.takes w x := by
  refine takes_congr ?_ ?_ ?_ w x <;> rw [noteWalk_eq]

/-- A walk that finds no leaf gives its cause to every walk that takes its result. -/
theorem endWalk_of_cause {c : Nat} (h : s.walk w.ctx (w.vpn * 65536) = .cause c) : s.endWalk w =
    { s with
      pkg := (s.noteWalk w.ctx (w.vpn * 65536)).pkg
      walks := s.walks.map fun x => if s.takes w x then { x with phase := .done none c } else x } := by
  have hu := s.noteWalk_eq w.ctx (w.vpn * 65536)
  have hwalk := (s.walk_noteWalk w.ctx (w.vpn * 65536)).trans h
  have htakes := s.takes_noteWalk (w := w) w.ctx (w.vpn * 65536)
  have hx : s.endWalk w = { s.noteWalk w.ctx (w.vpn * 65536) with
      walks := (s.noteWalk w.ctx (w.vpn * 65536)).walks.map fun x =>
        if (s.noteWalk w.ctx (w.vpn * 65536)).takes w x then { x with phase := .done none c } else x } := by
    simp only [endWalk, hwalk]
    rfl
  rw [hx]
  simp only [htakes]
  rw [hu]

/-- A walk that finds a leaf gives it to every walk that takes its result, and installs it for them. -/
theorem endWalk_of_leaf {level pte : Nat} (h : s.walk w.ctx (w.vpn * 65536) = .leaf level pte) :
    let t := (s.noteWalk w.ctx (w.vpn * 65536)).installAll w (leafEntry w.ctx (w.vpn * 65536) level pte)
    s.endWalk w = { s with
      pkg := (s.noteWalk w.ctx (w.vpn * 65536)).pkg
      clusters := t.clusters
      dies := t.dies
      walks := s.walks.map fun x =>
        if s.takes w x then { x with phase := .done (some (w.vpn * 65536, level, BitVec.ofNat 64 pte)) 0 } else x } := by
  intro t
  have hu := s.noteWalk_eq w.ctx (w.vpn * 65536)
  have hwalk := (s.walk_noteWalk w.ctx (w.vpn * 65536)).trans h
  have htakes := s.takes_noteWalk (w := w) w.ctx (w.vpn * 65536)
  have ht : Installed _ t := installed_installAll ..
  have hx : s.endWalk w = { t with
      walks := t.walks.map fun x =>
        if (s.noteWalk w.ctx (w.vpn * 65536)).takes w x
          then { x with phase := .done (some (w.vpn * 65536, level, BitVec.ofNat 64 pte)) 0 } else x } := by
    simp only [endWalk, hwalk]
    rfl
  rw [hx]
  simp only [htakes]
  rw [ht, hu]

/-- The end of a walk changes walks, TLBs and what the management controller has learnt. -/
theorem endWalk_eq (s : State) (w : Walk) : s.endWalk w =
    { s with
      walks := (s.endWalk w).walks, clusters := (s.endWalk w).clusters, dies := (s.endWalk w).dies
      pkg := (s.noteWalk w.ctx (w.vpn * 65536)).pkg } := by
  cases h : s.walk w.ctx (w.vpn * 65536) with
  | leaf level pte => rw [endWalk_of_leaf h]
  | cause c => rw [endWalk_of_cause h]

/-- A leaf that was read from an invalidated entry enters no TLB (R255). -/
theorem endWalk_of_stale {level pte : Nat} (h : s.walk w.ctx (w.vpn * 65536) = .leaf level pte) (hstale : w.stale = true) :
    (s.endWalk w).clusters = s.clusters ∧ (s.endWalk w).dies = s.dies := by
  rw [endWalk_of_leaf h, installAll_of_stale hstale, noteWalk_eq]
  exact ⟨rfl, rfl⟩

/-- Another leaf enters the TLBs of each walk that takes the result and asks for its installing. -/
theorem endWalk_holds {level pte : Nat} {x : Walk} (h : s.walk w.ctx (w.vpn * 65536) = .leaf level pte) (hstale : w.stale = false)
    (hx : x ∈ s.walks) (htakes : s.takes w x = true) (hinst : x.install = true) :
    let e := leafEntry w.ctx (w.vpn * 65536) level pte
    (x.cluster < 32 → clusterHolds w.die x.cluster e (s.endWalk w)) ∧
      ((s.die? w.die).isSome = true → dieHolds w.die e (s.endWalk w)) := by
  have hnote := s.noteWalk_eq w.ctx (w.vpn * 65536)
  have hx : x ∈ (s.noteWalk w.ctx (w.vpn * 65536)).walks := by rw [hnote]; exact hx
  have htakes := (takes_noteWalk w.ctx (w.vpn * 65536) x).trans htakes
  rw [endWalk_of_leaf h]
  refine ⟨clusterHolds_installAll hx htakes hinst hstale _, fun hdie => dieHolds_installAll hx htakes hinst hstale _ ?_⟩
  rw [hnote]
  exact hdie

end Ends

/-- The requests of a walk have no part in what it finds. -/
theorem walk_endReqs (s : State) (o : Owner) (w : Walk) :
    (s.endReqs o).walk w.ctx (w.vpn * 65536) = s.walk w.ctx (w.vpn * 65536) ∧ (∀ x, (s.endReqs o).takes w x = s.takes w x) ∧
      ((s.endReqs o).noteWalk w.ctx (w.vpn * 65536)).pkg = (s.noteWalk w.ctx (w.vpn * 65536)).pkg :=
  ⟨walk_congr rfl rfl rfl .., takes_congr rfl rfl rfl w, by rw [noteWalk_endReqs]; rfl⟩

end State

/-! ### Steps of walks -/

section Steps

variable {s : State} {die : Nat} {d : Die}

section Done

variable {w : Walk} {s1 : State} (hw : Sole (fun x => x.id == w.id && x.die == w.die && x.isRunning) s.walks w)
include hw

/-- A running walk asks for its reads. -/
theorem pageWalkDone_asks (h : s.askFor { owner := .walk w.id, die := w.die, cluster := w.cluster, ctx := w.ctx, part := w.part }
    (s.walkBytes w) [] = (s1, false)) : exec (.pageWalkDone w.die w.id) s = .next s1 := by
  change Host.Outcome.next (match s.walks.find? _ with | none => s | some w => _) = _
  rw [hw.find?]
  dsimp only
  rw [h]

/-- A walk whose reads are done ends. -/
theorem pageWalkDone_ends (h : s.askFor { owner := .walk w.id, die := w.die, cluster := w.cluster, ctx := w.ctx, part := w.part }
    (s.walkBytes w) [] = (s1, true)) : exec (.pageWalkDone w.die w.id) s = .next (s1.endWalk w) := by
  change Host.Outcome.next (match s.walks.find? _ with | none => s | some w => _) = _
  rw [hw.find?]
  dsimp only
  rw [h]

end Done

/-- A register written without GO is written, and one written with GO starts its invalidation. -/
theorem tlbinv_idle {v : BitVec 128} (hgo : v.getLsbD 0 = false) :
    exec (.tlbinv die v) s = .next (s.updDie die fun d => { d with tlbinv := tlbinvWord v (!d.invs.isEmpty) }) := by
  have hbit : bit v.toNat 0 = false := hgo
  change Host.Outcome.next (if bit v.toNat 0 && _ then _ else _) = _
  simp only [hbit, Bool.false_and, Bool.false_eq_true, if_false]

theorem tlbinv_go {v : BitVec 128} (hd : s.die? die = some d) (hgo : v.getLsbD 0 = true) : exec (.tlbinv die v) s = .next
    ({ s with walks := s.walks.map fun (w : Walk) =>
        if w.isRunning && invHits v.toNat w.ctx (w.vpn * 65536) 65536 then { w with stale := true } else w }.updDie die
      fun d => { d with tlbinv := tlbinvWord v true, invs := d.invs ++ [v] }) := by
  have hbit : bit v.toNat 0 = true := hgo
  have hsome (f : Die → Die) (hf : ∀ a, (f a).num = a.num) : ((s.updDie die f).die? die).isSome = true := by
    rw [State.die?_updDie_self f hd hf]
    rfl
  have hbusy (l : List (BitVec 128)) : (!(l ++ [v]).isEmpty) = true := by simp
  refine congrArg Host.Outcome.next ((if_pos (Bool.and_eq_true_iff.mpr ⟨hbit, ?_⟩)).trans ?_)
  · exact hsome _ fun _ => rfl
  simp only [hbit, if_true, hbusy]
  rfl

/-- A TLB entry lies under an invalidation. -/
def TlbE.under (v : Nat) (e : TlbE) : Bool := invHits v e.ctx e.va (pageSize e.level)

/-- A running walk has read an entry that an invalidation names. -/
def State.staleWalk (s : State) (v : Nat) : Bool :=
  s.walks.any fun w => w.isRunning && w.stale && invHits v w.ctx (w.vpn * 65536) 65536

/-- A die once an invalidation is done: its own register knows of those that are left. -/
def Die.invalidated (x : Die) (die v : Nat) (rest : List (BitVec 128)) : Die :=
  let y := { x with tlb := x.tlb.filter fun e => !e.under v }
  if x.num = die then { y with invs := rest, tlbinv := if rest = [] then x.tlbinv &&& ~~~1#128 else x.tlbinv } else y

theorem Die.invalidated_own {x : Die} {n : Nat} (h : x.num = n) (v : Nat) (rest : List (BitVec 128)) : x.invalidated n v rest =
    { x with
      tlb := x.tlb.filter fun e => !e.under v
      invs := rest
      tlbinv := if rest = [] then x.tlbinv &&& ~~~1#128 else x.tlbinv } := if_pos h

@[simp] theorem Die.invalidated_num (x : Die) (n v : Nat) (rest : List (BitVec 128)) : (x.invalidated n v rest).num = x.num := by
  unfold Die.invalidated
  dsimp only
  split_ifs <;> rfl

@[simp] theorem Die.invalidated_tlb (x : Die) (n v : Nat) (rest : List (BitVec 128)) :
    (x.invalidated n v rest).tlb = x.tlb.filter fun e => !e.under v := by
  unfold Die.invalidated
  dsimp only
  split_ifs <;> rfl

/-- The state once an invalidation of a die is done (R255). -/
def State.invalidated (s : State) (die v : Nat) (rest : List (BitVec 128)) : State :=
  { s with
    walks := s.walks.filter fun w => !(w.isDone && invHits v w.ctx (w.vpn * 65536) 65536)
    clusters := s.clusters.map fun c => { c with tlb := c.tlb.filter fun e => !e.under v }
    dies := s.dies.map (·.invalidated die v rest) }

theorem State.die?_invalidated (s : State) (die v n : Nat) (rest : List (BitVec 128)) :
    (s.invalidated die v rest).die? n = (s.die? n).map (·.invalidated die v rest) := by
  rw [State.die?, State.invalidated, List.find?_map]
  simp only [Function.comp_def, Die.invalidated_num]
  rfl

theorem State.cluster_tlb_invalidated (s : State) (die v c k : Nat) (rest : List (BitVec 128)) :
    ((s.invalidated die v rest).cluster c k).tlb = (s.cluster c k).tlb.filter fun e => !e.under v := by
  rw [State.cluster, State.invalidated, List.find?_map, State.cluster]
  simp only [Function.comp_def]
  cases s.clusters.find? fun x => x.key == State.clKey c k <;> rfl

theorem tlbinvDone_none (hd : s.die? die = some d) (hi : d.invs = []) : exec (.tlbinvDone die) s = .next s := by
  change Host.Outcome.next (match (s.die? die).map (·.invs) with | some (i :: rest) => _ | _ => s) = _
  rw [hd, Option.map_some, hi]

section Oldest

variable {i : BitVec 128} {rest : List (BitVec 128)} (hd : s.die? die = some d) (hi : d.invs = i :: rest)
include hd hi

/-- The oldest invalidation of a die waits for the walks that read one of its entries and for the commands that planned with one. -/
theorem tlbinvDone_waits (h : s.staleWalk i.toNat = true ∨ s.oldPlans i.toNat = true) : exec (.tlbinvDone die) s = .next s := by
  change Host.Outcome.next (match (s.die? die).map (·.invs) with | some (i :: rest) => _ | _ => s) = _
  rw [hd, Option.map_some, hi]
  exact congrArg _ (if_pos ((Bool.or_eq_true _ _).mpr h))

theorem tlbinvDone_taken (hwalks : s.staleWalk i.toNat = false) (hplans : s.oldPlans i.toNat = false) :
    exec (.tlbinvDone die) s = .next (s.invalidated die i.toNat rest) := by
  change Host.Outcome.next (match (s.die? die).map (·.invs) with | some (i :: rest) => _ | _ => s) = _
  rw [hd, Option.map_some, hi]
  exact congrArg _ (if_neg fun h => by rcases (Bool.or_eq_true _ _).mp h with hw | hp <;> simp_all [State.staleWalk])

end Oldest

end Steps

/-! ### The obligation -/

/-- Settles O58: a walk's end is followed through the TLBs in which its leaf is installed, and an invalidation through those it clears. -/
theorem walkSteps : Obligations.WalkSteps := by
  unfold Obligations.WalkSteps
  refine ⟨?start, ?done, ?write, ?finish⟩
  case start =>
    intro s die starts busy
    refine ⟨fun hfull => congrArg _ (if_pos hfull), fun hroom hnone => ?_, fun w hroom hw => ?_⟩
    all_goals refine congrArg _ ((if_neg (Nat.not_le.mpr hroom)).trans ?_)
    · rw [hnone]
    · rw [hw]
  case done =>
    intro s w hw asks va takes s1
    refine ⟨pageWalkDone_asks hw, fun h => ?_⟩
    have hends := pageWalkDone_ends hw h
    obtain ⟨-, -, rfl⟩ := State.askFor_true h
    have hva : va = w.vpn * 65536 := Nat.mul_comm ..
    obtain ⟨hwalk, htakes, hpkg⟩ := State.walk_endReqs s (.walk w.id) w
    rw [hva]
    refine ⟨_, hends, ?_, fun level pte hres => ?_, fun c hres => ?_⟩
    · rw [← hpkg]
      exact State.endWalk_eq ..
    · have hleaf := hwalk.trans hres
      refine ⟨?_, State.endWalk_of_stale hleaf, fun hstale x hx htake hinst => ?_⟩
      · rw [State.endWalk_of_leaf hleaf]
        simp only [htakes]
        rfl
      · obtain ⟨hcluster, hdie⟩ := State.endWalk_holds hleaf hstale hx ((htakes x).trans htake) hinst
        exact ⟨hcluster, fun d hd => hdie (Option.isSome_iff_exists.mpr ⟨d, hd⟩)⟩
    · rw [State.endWalk_of_cause (hwalk.trans hres)]
      exact ⟨rfl, rfl, by simp only [htakes]; rfl⟩
  case write =>
    intro s die d v hd kept
    exact ⟨fun hgo => tlbinv_idle hgo, fun hgo => tlbinv_go hd hgo⟩
  case finish =>
    intro s die d hd
    refine ⟨tlbinvDone_none hd, ?_⟩
    intro i rest hi v hit runs
    refine ⟨tlbinvDone_waits hd hi, fun hwalks hplans => ?_⟩
    have hnum : d.num = die := by simpa using List.find?_some hd
    refine ⟨_, d.invalidated die i.toNat rest, tlbinvDone_taken hd hi hwalks hplans, rfl, ?_, ?_,
      fun n x hx => ⟨x.invalidated die i.toNat rest, ?_, Die.invalidated_tlb ..⟩, fun c k => State.cluster_tlb_invalidated ..⟩
    · rw [State.die?_invalidated, hd, Option.map_some]
    · rw [Die.invalidated_own hnum]
    · rw [State.die?_invalidated, hx, Option.map_some]

end Sys2Proof.Machine
end

section
/-! PROOFS. Engine steps: the equation of each step of a command in progress, of its streams, of a collective and of a collapse (spec 09
R252-R270, spec 11 R318-R320, spec 12 R334), and from them the obligation on commands in progress. -/

set_option Elab.async false

namespace Sys2Proof.Machine

/-! ### Starting a command (R257, R258) -/

namespace State

/-- The streams of a command are added to those there are. -/
theorem openStreams_eq (s : State) (die : Nat) (c : Cmd) (es : List Elem) : s.openStreams die c es =
    { s with streams := (s.openStreams die c es).streams, next := (s.openStreams die c es).next } := by
  induction es with
  | nil => rfl
  | cons e t ih =>
    unfold openStreams
    dsimp only
    split_ifs
    · exact ih
    · rw [ih]
    · rw [ih]

/-- A command that begins is added to those in progress; no byte and no group changes. -/
theorem beginCmd_adds (s : State) (die : Nat) (c : Cmd) : ∃ a, (s.beginCmd die c).active = s.active ++ [a] ∧ a.cmd = c ∧ a.die = die ∧
    (s.beginCmd die c).mem = s.mem ∧ (s.beginCmd die c).groups = s.groups := by
  unfold beginCmd
  dsimp only
  split
  case h_1 =>
    split
    · exact ⟨_, rfl, rfl, rfl, rfl, rfl⟩
    · rw [openStreams_eq]
      exact ⟨_, rfl, rfl, rfl, rfl, rfl⟩
  case h_2 =>
    split
    · split_ifs
      · exact ⟨_, rfl, rfl, rfl, rfl, rfl⟩
      · split <;> exact ⟨_, rfl, rfl, rfl, rfl, rfl⟩
    · exact ⟨_, rfl, rfl, rfl, rfl, rfl⟩
  case h_3 =>
    split
    · split_ifs
      · rw [collapseGate_eq]
        exact ⟨_, rfl, rfl, rfl, rfl, rfl⟩
      · exact ⟨_, rfl, rfl, rfl, rfl, rfl⟩
    · exact ⟨_, rfl, rfl, rfl, rfl, rfl⟩
  case h_4 => exact ⟨_, rfl, rfl, rfl, rfl, rfl⟩

/-- What a step's gate leaves of the state. -/
theorem gate_frame {s t : State} {q : Asker} {n : Need} {b : Bool} (h : s.gate q n = (t, b)) : t.mem = s.mem ∧ t.active = s.active ∧
    t.groups = s.groups ∧ t.colls = s.colls := by
  have ht : t = _ := (congrArg Prod.fst h).symm.trans (s.gate_eq q n)
  rw [ht]
  exact ⟨rfl, rfl, rfl, rfl⟩

end State

@[simp] theorem Group.popHead_id (g : Group) : g.popHead.id = g.id := by
  unfold Group.popHead Group.judge
  dsimp only
  split
  · rfl
  · split_ifs <;> rfl

section Start

variable {s s1 : State} {die ch slot : Nat} {g : Group} {c : Cmd} (hrun : s.relocking die = false)
  (hstall : s.channelStalled die ch = false) (hhead : s.nextHead die ch = some (g, c, slot))
include hrun hstall hhead

/-- A head judged false is discarded, once its status can be written. -/
theorem copyStart_discards (hfalse : c.verdict = some false) (hgate : s.cmdGate c die = (s1, true)) :
    exec (.copyStart die ch) s = .next ((s1.updGroup g.id Group.popHead).discardCmd c die) := by
  refine congrArg Host.Outcome.next ((if_neg (by simp [hrun, hstall])).trans ?_)
  rw [hhead]
  dsimp only
  rw [if_pos hfalse, hgate]

/-- A head judged true begins on a channel that has room. -/
theorem copyStart_begins (htrue : c.verdict = some true) (hroom : (s.active.filter fun a => a.die == die && a.cmd.ch == ch).length < 8)
    (hgate : s.gate (c.asker die (.copy c.id)) { vas := s.cmdVas c } = (s1, true)) : exec (.copyStart die ch) s = .next
      (((s1.updGroup g.id Group.popHead).updDie die fun d => { d with lastSlots := AMap.set d.lastSlots ch slot }).beginCmd die c) := by
  refine congrArg Host.Outcome.next ((if_neg (by simp [hrun, hstall])).trans ?_)
  rw [hhead]
  dsimp only
  rw [if_neg (by rw [htrue]; decide), if_neg (Nat.not_le.mpr hroom), hgate]

/-- It stands among the commands in progress, its group's head has left the queue, and no byte changes. -/
theorem copyStart_begins_frame (hg : s.group? g.id = some g) (htrue : c.verdict = some true)
    (hroom : (s.active.filter fun a => a.die == die && a.cmd.ch == ch).length < 8)
    (hgate : s.gate (c.asker die (.copy c.id)) { vas := s.cmdVas c } = (s1, true)) :
    ∃ t a, exec (.copyStart die ch) s = .next t ∧ t.active = s.active ++ [a] ∧ a.cmd = c ∧ a.die = die ∧ t.mem = s.mem ∧
      t.group? g.id = some g.popHead := by
  obtain ⟨hmem1, hactive1, hgroups1, -⟩ := State.gate_frame hgate
  obtain ⟨a, hactive, hcmd, hdie, hmem, hgroups⟩ := ((s1.updGroup g.id Group.popHead).updDie die fun d =>
    { d with lastSlots := AMap.set d.lastSlots ch slot }).beginCmd_adds die c
  refine ⟨_, a, copyStart_begins hrun hstall hhead htrue hroom hgate, ?_, hcmd, hdie, ?_, ?_⟩
  · rw [hactive, ← hactive1]; rfl
  · rw [hmem, ← hmem1]; rfl
  · have hs1g : s1.group? g.id = some g := (State.group?_congr hgroups1 _).trans hg
    rw [State.group?_congr (s := s1.updGroup g.id Group.popHead) hgroups,
      State.group?_updGroup _ _ _ _ fun a ha => (Group.popHead_id a).trans ha, if_pos rfl, hs1g]
    rfl

end Start

/-! ### Tags (R261) -/

/-- The older of a request and the best so far, in the order in which a link grants its tags. -/
def olderRequest (best : Option Stream) (st : Stream) : Option Stream :=
  match best with
  | none => some st
  | some b =>
    if st.since < b.since ∨ (st.since = b.since ∧ (st.src < b.src ∨ (st.src = b.src ∧ st.ch < b.ch))) then some st else some b

theorem olderRequest_first {best : Option Stream} {st : Stream} (h : ∀ b, best = some b → b = st ∨ st.since < b.since) :
    olderRequest best st = some st := by
  unfold olderRequest
  split
  · rfl
  · next b =>
    split_ifs with hlt
    · rfl
    · rcases h b rfl with rfl | hb
      · rfl
      · exact absurd (.inl hb) hlt

theorem olderRequest_later {st x : Stream} (h : x = st ∨ st.since < x.since) : olderRequest (some st) x = some st := by
  unfold olderRequest
  dsimp only
  split_ifs with hlt
  · rcases h with rfl | hx
    · rfl
    · omega
  · rfl

/-- The fold of the requests of a link finds the oldest. -/
theorem foldl_olderRequest {st : Stream} {l : List Stream} {best : Option Stream} (hbest : ∀ b, best = some b → b = st ∨ st.since < b.since)
    (hl : ∀ x ∈ l, x = st ∨ st.since < x.since) (hst : best = some st ∨ st ∈ l) : l.foldl olderRequest best = some st := by
  induction l generalizing best with
  | nil => exact hst.resolve_right List.not_mem_nil
  | cons x t ih =>
    have hx := hl x List.mem_cons_self
    have ht := fun y hy => hl y (List.mem_cons_of_mem _ hy)
    by_cases hxst : x = st
    · rw [List.foldl_cons, hxst, olderRequest_first hbest]
      exact ih (fun b hb => .inl (Option.some.inj hb).symm) ht (.inl rfl)
    · rcases hst with rfl | hmem
      · rw [List.foldl_cons, olderRequest_later hx]
        exact ih (fun b hb => .inl (Option.some.inj hb).symm) ht (.inl rfl)
      · refine ih (fun b hb => ?_) ht (.inr ((List.mem_cons.mp hmem).resolve_left fun h => hxst h.symm))
        cases best with
        | none => exact (Option.some.inj hb) ▸ hx
        | some y =>
          unfold olderRequest at hb
          dsimp only at hb
          split_ifs at hb <;> cases hb
          · exact hx
          · exact hbest _ rfl

/-- Below a bound that is greater than their number, some number stands outside a list; the lowest such is found. -/
theorem exists_lowest_free {used : List Nat} {n : Nat} (h : used.length < n) :
    ∃ t, (List.range n).find? (fun t => !used.contains t) = some t ∧ t < n ∧ t ∉ used ∧ ∀ k, k < t → k ∈ used := by
  cases hf : (List.range n).find? (fun t => !used.contains t) with
  | none =>
    have hall : List.range n ⊆ used := fun t ht => by simpa using List.find?_eq_none.mp hf t ht
    have hle := (List.nodup_range.subperm hall).length_le
    rw [List.length_range] at hle
    omega
  | some t =>
    obtain ⟨hfree, hlt, hbefore⟩ := List.find?_range_eq_some.mp hf
    exact ⟨t, rfl, List.mem_range.mp hlt, by simpa using hfree, fun k hk => by simpa using hbefore k hk⟩

/-- A link direction with a free tag grants the lowest to its oldest request. -/
theorem streamTagGrant_grants {s : State} {src dst : Nat} {st : Stream} {rest : List (Nat × Nat)} (hst : st ∈ s.streams)
    (hlinks : st.links = linkTo src dst :: rest)
    (holdest : ∀ x ∈ s.streams, x.links.head? = some (linkTo src dst) → x = st ∨ st.since < x.since)
    (hroom : (s.tagsOn (linkTo src dst)).length < 256) :
    ∃ t, t < 256 ∧ t ∉ s.tagsOn (linkTo src dst) ∧ (∀ k, k < t → k ∈ s.tagsOn (linkTo src dst)) ∧
      exec (.streamTagGrant src dst) s = .next { s with
        next := s.next + 1
        streams := s.streams.map fun x => if x.id = st.id then
          { x with links := x.links.drop 1, tags := x.tags ++ [((linkTo src dst).1, (linkTo src dst).2, t)], since := s.next } else x } := by
  obtain ⟨t, hfind, hlt, hfree, hlow⟩ := exists_lowest_free hroom
  have hfirst : (s.streams.filter fun x => x.links.head? == some (linkTo src dst)).foldl olderRequest none = some st := by
    refine foldl_olderRequest (by simp) (fun x hx => ?_) (.inr (List.mem_filter.mpr ⟨hst, by simp [hlinks]⟩))
    obtain ⟨hx, hlink⟩ := List.mem_filter.mp hx
    exact holdest x hx (by simpa using hlink)
  refine ⟨t, hlt, hfree, hlow, ?_⟩
  change Host.Outcome.next (match (s.streams.filter fun x => x.links.head? == some (linkTo src dst)).foldl olderRequest none,
    (List.range 256).find? _ with | some st, some t => _ | _, _ => s) = _
  rw [hfirst, hfind]

/-! ### The flits of a stream (R260-R262, R334) -/

section Flits

variable {s : State} {x : Stream} (hx : Sole (fun y => y.id == x.id) s.streams x)
include hx

theorem openFlit_opens (hlinks : x.links = []) (hclosing : x.closing = false) (hpair : s.stalledPair x.src x.dst = false)
    (hopened : x.opened = false) : exec (.openFlit x.id) s = .next (s.updStream x.id fun y =>
      { y with opened := true, due := List.range 4
               sent := some { headers := y.headers 0 0xFFFF 0, body := .addresses (s.opening y) } }) := by
  change Host.Outcome.next (match s.streams.find? _ with | some x => _ | none => s) = _
  rw [hx.find?]
  exact congrArg _ ((if_neg (by simp [hlinks, hclosing, hpair])).trans (if_pos (by simp [hopened])))

theorem openFlit_sends {q : Nat} (hlinks : x.links = []) (hclosing : x.closing = false) (hpair : s.stalledPair x.src x.dst = false)
    (hopened : x.opened = true) (hdue : s.dueQuarter x = some q) :
    exec (.openFlit x.id) s = .next (s.updStream x.id fun y => s.sendQuarter y q) := by
  change Host.Outcome.next (match s.streams.find? _ with | some x => _ | none => s) = _
  rw [hx.find?]
  refine congrArg _ ((if_neg (by simp [hlinks, hclosing, hpair])).trans ((if_neg (by simp [hopened])).trans ?_))
  rw [hdue]

/-- The next payload of a stream: sent and applied at the destination. -/
theorem dataFlit_eq {a : Active} {s1 : State} (hcmd : s.streamCmd x = some a) (hes : x.payload ≠ [])
    (hready : s.flitReady x a.cmd.scope = true) (hgate : s.elemsGate (a.payer x) x.payload = (s1, true)) : exec (.dataFlit x.id) s = .next
      (match (s1.dataSent x a x.payload).moveAll a.cmd.ctx x.payload with
        | (s2, none) => s2.carryClock x.src x.dst a.cmd.scope
        | (s2, some f) => (s2.carryClock x.src x.dst a.cmd.scope).failCmd x.cmd f) := by
  change Host.Outcome.next (match s.streams.find? _ with | none => s | some x => _) = _
  rw [hx.find?]
  dsimp only
  rw [hcmd]
  refine congrArg _ ((if_neg (by simp [hes, hready])).trans ?_)
  rw [hgate]
  rfl

theorem dataFlit_applies {a : Active} {s1 s2 : State} (hcmd : s.streamCmd x = some a) (hes : x.payload ≠ [])
    (hready : s.flitReady x a.cmd.scope = true) (hgate : s.elemsGate (a.payer x) x.payload = (s1, true))
    (hmove : (s1.dataSent x a x.payload).moveAll a.cmd.ctx x.payload = (s2, none)) :
    exec (.dataFlit x.id) s = .next (s2.carryClock x.src x.dst a.cmd.scope) := by
  rw [dataFlit_eq hx hcmd hes hready hgate, hmove]

theorem dataFlit_fails {a : Active} {s1 s2 : State} {f : Nat × Nat × Nat} (hcmd : s.streamCmd x = some a) (hes : x.payload ≠ [])
    (hready : s.flitReady x a.cmd.scope = true) (hgate : s.elemsGate (a.payer x) x.payload = (s1, true))
    (hmove : (s1.dataSent x a x.payload).moveAll a.cmd.ctx x.payload = (s2, some f)) :
    exec (.dataFlit x.id) s = .next ((s2.carryClock x.src x.dst a.cmd.scope).failCmd x.cmd f) := by
  rw [dataFlit_eq hx hcmd hes hready hgate, hmove]

theorem flagFlit_applies {a : Active} {ea : Nat} {v : Word} {rest : List Nat} {s1 : State} (hflags : x.flags = a.cmd.id :: rest)
    (ha : Sole (fun b => b.cmd.id == a.cmd.id) s.active a) (hkind : a.cmd.kind = .cflag ea v) (hes : x.elems = [])
    (hheld : s.flagHeld a = false) (hready : s.flitReady x a.cmd.scope = true)
    (hgate : s.gate (a.payer x) { writes := (s.flagLoc a.cmd ea).toList } = (s1, true)) : exec (.flagFlit x.id) s = .next
      (((s1.flitSent x a.cmd.scope 2 (.flag ea v) fun y => { y with flags := y.flags.drop 1 }).putFlag a ea v).carryClock
        x.src x.dst a.cmd.scope) := by
  change Host.Outcome.next (match s.streams.find? _ with | none => s | some x => _) = _
  rw [hx.find?]
  dsimp only
  rw [hflags]
  dsimp only
  rw [ha.find?]
  dsimp only
  rw [hkind]
  refine congrArg _ ((if_neg (by simp [hes, hheld, hready])).trans ?_)
  rw [hgate]

section Close

variable (hpair : s.stalledPair x.src x.dst = false)
include hpair

theorem closeFlit_closes (hcmd : x.cmd ≠ 0) (hopened : x.opened = true) (hes : x.elems = []) (hflags : x.flags = [])
    (hclosing : x.closing = false) : exec (.closeFlit x.id) s = .next (s.updStream x.id Stream.close) := by
  change Host.Outcome.next (match s.streams.find? _ with | some x => _ | none => s) = _
  rw [hx.find?]
  exact congrArg _ ((if_neg (by simp [hpair])).trans ((if_neg (by simp [hclosing])).trans (if_pos ⟨hcmd, hopened, hes, hflags⟩)))

/-- A CLOSE passes a link, whose tag is free. -/
theorem closeFlit_passes (hclosing : x.closing = true) (htags : 1 < x.tags.length) :
    exec (.closeFlit x.id) s = .next (s.updStream x.id fun y => { y with tags := y.tags.drop 1 }) := by
  change Host.Outcome.next (match s.streams.find? _ with | some x => _ | none => s) = _
  rw [hx.find?]
  exact congrArg _ ((if_neg (by simp [hpair])).trans ((if_pos hclosing).trans (if_neg (by omega))))

theorem closeFlit_ends (hclosing : x.closing = true) (htags : x.tags.length ≤ 1) :
    exec (.closeFlit x.id) s = .next { s with streams := s.streams.filter fun y => y.id ≠ x.id } := by
  change Host.Outcome.next (match s.streams.find? _ with | some x => _ | none => s) = _
  rw [hx.find?]
  exact congrArg _ ((if_neg (by simp [hpair])).trans ((if_pos hclosing).trans (if_pos htags)))

end Close

end Flits

theorem State.opening_copy {s : State} {x : Stream} {a : Active} {b se de sc : BitVec 512} (hcmd : s.streamCmd x = some a)
    (hkind : a.cmd.kind = .copy b se de sc) : s.opening x = some { src := se, dst := de, blk := b } := by
  unfold State.opening
  rw [hcmd, Option.bind_some, hkind]

theorem Stream.payload_cons {x : Stream} {e : Elem} {rest : List Elem} (h : x.elems = e :: rest) :
    x.payload = x.elems.take (max 1 (512 / max 1 e.bits)) := by
  unfold Stream.payload
  rw [h]

/-- A payload is 64 bytes of elements. -/
theorem Stream.payload_take {x : Stream} {e : Elem} {rest : List Elem} (h : x.elems = e :: rest) (hpos : 0 < e.bits) (hle : e.bits ≤ 512) :
    x.payload = x.elems.take (512 / e.bits) := by
  have hmax : max 1 e.bits = e.bits := by omega
  have hdiv : 1 ≤ 512 / e.bits := (Nat.le_div_iff_mul_le hpos).mpr (by omega)
  rw [Stream.payload_cons h, hmax, max_eq_right hdiv]

theorem Stream.payload_ne_nil {x : Stream} (h : x.elems ≠ []) : x.payload ≠ [] := by
  obtain ⟨e, rest, hes⟩ := List.exists_cons_of_ne_nil h
  rw [Stream.payload_cons hes, hes]
  have hpos : max 1 (512 / max 1 e.bits) ≠ 0 := by omega
  simp [hpos]

theorem itemStreamClose_closes {s : State} {x : Stream} (hx : Sole (fun y => y.forItems x.src x.dst) s.streams x) (hopened : x.opened = true)
    (hidle : (x.idle / 2048 + 2) * 2048 ≤ s.gtime) (hwrites : s.itemWritesOpen x.src x.dst = false)
    (hpair : s.stalledPair x.src x.dst = false) :
    exec (.itemStreamClose x.src x.dst) s = .next (s.updStream x.id Stream.close) := by
  change Host.Outcome.next (match s.streams.find? _ with | some x => _ | none => s) = _
  rw [hx.find?]
  exact congrArg _ (if_pos ⟨hopened, hidle, by simp [hwrites], by simp [hpair]⟩)

/-! ### Completion (R267, R268, R270, R272) -/

/-- A command without a status word leaves what is in progress, and its counter falls. -/
theorem State.closeCmd_statless (s : State) {a : Active} (h : a.cmd.stat = 0) : s.closeCmd a none =
    ({ s with active := s.active.filter fun b => b.cmd.id ≠ a.cmd.id, ops := s.ops.filter fun o => o.id ≠ a.cmd.op } : State).updGroup
      a.cmd.grp fun g => g.completed a.cmd.id := by
  unfold State.closeCmd State.putStatus
  simp only [Option.getD_none, if_pos h]
  rfl

theorem State.closeCmd_frame (s : State) {a : Active} (h : a.cmd.stat = 0) : (s.closeCmd a none).mem = s.mem ∧
    (s.closeCmd a none).dies = s.dies ∧ (∀ b, b ∈ (s.closeCmd a none).active ↔ b ∈ s.active ∧ b.cmd.id ≠ a.cmd.id) ∧
    ∀ o, o ∈ (s.closeCmd a none).ops ↔ o ∈ s.ops ∧ o.id ≠ a.cmd.op := by
  rw [s.closeCmd_statless h]
  exact ⟨rfl, rfl, fun b => by simp, fun o => by simp⟩

theorem State.putFlag_writes {s : State} {a : Active} {ea loc : Nat} (v : Word) (hloc : s.flagLoc a.cmd ea = some loc) : s.putFlag a ea v =
    (({ s with active := s.active.map fun b => if b.cmd.id = a.cmd.id then { b with flagged := true } else b } : State).wr loc 8
      v.toNat).feAct loc 2 := by
  change (match s.flagLoc a.cmd ea with | some loc => _ | none => _) = _
  rw [hloc]

/-- A cache line after the flush of a page from an address. -/
def CLine.flushed (lo n : Nat) (x : CLine) : CLine := if lo ≤ 128 * x.line ∧ 128 * x.line < lo + n then { x with dirty := false } else x

theorem CLine.flushed_clean {lo n : Nat} {x : CLine} (hlo : lo ≤ 128 * (x.flushed lo n).line) (hhi : 128 * (x.flushed lo n).line < lo + n) :
    (x.flushed lo n).dirty = false := by
  unfold CLine.flushed at *
  split_ifs at * with hin
  · rfl
  · exact absurd ⟨hlo, hhi⟩ hin

/-- The lines of a page that is in one place. -/
theorem State.flushPage_dies {s : State} {ctx va level pte : Nat} (hwalk : s.walk ctx va = .leaf level pte) (hattr : pteAttr pte = 0) :
    (s.flushPage ctx va).dies = s.dies.map fun d => { d with lines := d.lines.map (CLine.flushed (pteAddr pte) (pageSize level)) } := by
  unfold State.flushPage CLine.flushed
  rw [hwalk]
  simp [hattr]

theorem State.flushPage_clean {s : State} {ctx va level pte n : Nat} {d : Die} (hwalk : s.walk ctx va = .leaf level pte)
    (hattr : pteAttr pte = 0) (hd : (s.flushPage ctx va).die? n = some d) :
    ∀ x ∈ d.lines, pteAddr pte ≤ 128 * x.line → 128 * x.line < pteAddr pte + pageSize level → x.dirty = false := by
  have hmem : d ∈ (s.flushPage ctx va).dies := List.mem_of_find?_eq_some hd
  rw [State.flushPage_dies hwalk hattr] at hmem
  obtain ⟨d0, -, rfl⟩ := List.mem_map.mp hmem
  intro x hx
  obtain ⟨y, -, rfl⟩ := List.mem_map.mp hx
  exact CLine.flushed_clean

theorem State.flushPage_frame (s : State) (ctx va : Nat) : (s.flushPage ctx va).mem = s.mem ∧ (s.flushPage ctx va).active = s.active := by
  unfold State.flushPage
  split <;> exact ⟨rfl, rfl⟩

section Complete

variable {s : State} {a : Active} (ha : Sole (fun b => b.cmd.id == a.cmd.id) s.active a) (hrelock : s.relocking a.die = false)
  (hports : s.portsStall a = false)
include ha hrelock hports

theorem copyComplete_copy {b x d k : BitVec 512} {s1 s2 s3 : State} (hkind : a.cmd.kind = .copy b x d k) (hfail : a.fail = none)
    (hgate : s.elemsGate (a.cmd.asker a.die (.copy a.cmd.id)) a.elems = (s1, true))
    (hmove : s1.moveAll a.cmd.ctx a.elems = (s2, none)) (hstreams : ∀ x ∈ s2.streams, x.cmd ≠ a.cmd.id)
    (hstat : (s2.updActive a.cmd.id fun _ => { a with elems := [] }).cmdGate a.cmd a.die = (s3, true)) :
    exec (.copyComplete a.cmd.id) s = .next (s3.closeCmd { a with elems := [] } none) := by
  have hown : s1.moveOwn a = (s2.updActive a.cmd.id fun _ => { a with elems := [] }, { a with elems := [] }) := by
    unfold State.moveOwn
    rw [hfail]
    change (match s1.moveAll a.cmd.ctx a.elems with | (s, some f) => _ | (s, none) => _) = _
    rw [hmove]
  have hclose : (s2.updActive a.cmd.id fun _ => { a with elems := [] }).closeCopy { a with elems := [] } =
      s3.closeCmd { a with elems := [] } none := by
    have hopen : ((s2.updActive a.cmd.id fun _ => { a with elems := [] }).streams.any fun y => y.cmd == a.cmd.id) = false := by
      simpa using hstreams
    refine (if_neg (by rw [hopen]; decide)).trans ?_
    dsimp only
    rw [hstat, hfail]
  change Host.Outcome.next (match s.active.find? _ with | none => s | some a => _) = _
  rw [ha.find?]
  refine congrArg _ ((if_neg (by simp [hrelock, hports])).trans ?_)
  rw [hkind]
  dsimp only
  rw [hgate]
  dsimp only
  rw [hown, hclose]

section Flag

variable {ea : Nat} {v : Word} (hkind : a.cmd.kind = .cflag ea v) (hstreams : ∀ x ∈ s.streams, x.cmd ≠ a.cmd.id ∧ a.cmd.id ∉ x.flags)
include hkind hstreams

theorem copyComplete_flagged (hflagged : a.flagged = true) : exec (.copyComplete a.cmd.id) s = .next (s.closeCmd a none) := by
  change Host.Outcome.next (match s.active.find? _ with | none => s | some a => _) = _
  rw [ha.find?]
  refine congrArg _ ((if_neg (by simp [hrelock, hports])).trans ?_)
  rw [hkind]
  exact (if_neg (by simpa using hstreams)).trans (if_pos hflagged)

theorem copyComplete_flag {s1 : State} (hflagged : a.flagged = false) (hheld : s.flagHeld a = false)
    (hgate : s.gate (a.cmd.asker a.die (.copy a.cmd.id)) { writes := (s.flagLoc a.cmd ea).toList } = (s1, true)) :
    exec (.copyComplete a.cmd.id) s = .next ((s1.putFlag a ea v).closeCmd a none) := by
  change Host.Outcome.next (match s.active.find? _ with | none => s | some a => _) = _
  rw [ha.find?]
  refine congrArg _ ((if_neg (by simp [hrelock, hports])).trans ?_)
  rw [hkind]
  refine (if_neg (by simpa using hstreams)).trans ((if_neg (by simp [hflagged])).trans ((if_neg (by simp [hheld])).trans ?_))
  rw [hgate]

end Flag

theorem copyComplete_flush {va : Nat} {s1 : State} (hkind : a.cmd.kind = .pattr 2 va)
    (hgate : s.gate (a.cmd.asker a.die (.copy a.cmd.id)) { vas := [va] } = (s1, true)) :
    exec (.copyComplete a.cmd.id) s = .next ((s1.flushPage a.cmd.ctx va).closeCmd a none) := by
  change Host.Outcome.next (match s.active.find? _ with | none => s | some a => _) = _
  rw [ha.find?]
  refine congrArg _ ((if_neg (by simp [hrelock, hports])).trans ?_)
  rw [hkind]
  dsimp only
  rw [hgate]
  rfl

/-- A flush of a page moves no byte, leaves the page's lines clean, and is over. -/
theorem copyComplete_flush_frame {va level pte : Nat} {s1 : State} (hkind : a.cmd.kind = .pattr 2 va)
    (hgate : s.gate (a.cmd.asker a.die (.copy a.cmd.id)) { vas := [va] } = (s1, true)) (hwalk : s1.walk a.cmd.ctx va = .leaf level pte)
    (hattr : pteAttr pte = 0) : ∃ t, exec (.copyComplete a.cmd.id) s = .next t ∧ t.mem = s.mem ∧ (∀ b ∈ t.active, b.cmd.id ≠ a.cmd.id) ∧
      ∀ n d, t.die? n = some d → ∀ x ∈ d.lines, pteAddr pte ≤ 128 * x.line → 128 * x.line < pteAddr pte + pageSize level →
        x.dirty = false := by
  have hstat : a.cmd.stat = 0 := by unfold Cmd.stat; rw [hkind]
  obtain ⟨hmem1, -, -⟩ := State.gate_frame hgate
  obtain ⟨hmem, hdies, hactive, -⟩ := (s1.flushPage a.cmd.ctx va).closeCmd_frame hstat
  obtain ⟨hflush, -⟩ := s1.flushPage_frame a.cmd.ctx va
  refine ⟨_, copyComplete_flush ha hrelock hports hkind hgate, ?_, fun b hb => ((hactive b).mp hb).2, fun n d hd => ?_⟩
  · rw [hmem, hflush, hmem1]
  · unfold State.die? at hd
    rw [hdies] at hd
    exact State.flushPage_clean hwalk hattr hd

end Complete

/-! ### Collectives (R318-R320) -/

/-- A die's collective engine has taken a command. -/
def State.collTaken (s : State) (g : Group) (k : CollCmd) : State := { s.updGroup g.id Group.popHead with colls := s.colls ++ [k] }

/-- A taken command waits for its mates; where all have been issued they start or end. -/
def State.collMatched (s : State) (g : Group) (k : CollCmd) : State :=
  match (s.collTaken g k).collMates k with
  | none => s.collTaken g k
  | some part =>
    if !collAgree part then (s.collTaken g k).runColl part
    else match s.collsReadable part with | (s, false) => s | (s, true) => (s.collTaken g k).runColl part

theorem State.group?_collTaken (s : State) (g : Group) (k : CollCmd) :
    (s.collTaken g k).group? g.id = (s.group? g.id).map Group.popHead :=
  (State.group?_updGroup s g.id g.id Group.popHead fun a ha => (Group.popHead_id a).trans ha).trans (if_pos rfl)

/-- The head of a queue whose command is a collective of dies that have not failed is taken. -/
theorem collectiveMatch_takes {s : State} {g : Group} {c : Cmd} {t : List Cmd} {b x d : BitVec 512} {ga : Gang}
    (hg : Sole (fun y => y.engq.head?.map (·.id) == some c.id) s.groups g) (hengq : g.engq = c :: t) (hkind : c.kind = .coll b x d)
    (hverdict : c.verdict = some true) (hga : s.gang? g.gang = some ga) (hstop : ga.preempting = false)
    (hrelock : s.relocking g.die = false) (hcolls : s.colls = [])
    (hlive : (memberDies (colMembers b.toNat)).all (fun k => ((s.die? k).map (·.failed)).getD true == false) = true) :
    exec (.collectiveMatch c.id) s = .next (s.collMatched g { cmd := c, die := g.die, ctx := c.ctx }) := by
  have hblk : (CollCmd.blk { cmd := c, die := g.die, ctx := c.ctx }) = b.toNat := by unfold CollCmd.blk; rw [hkind]
  have hlost : ((memberDies (colMembers b.toNat)).any fun d => ((s.die? d).map (·.failed)).getD true) = false := by
    simpa using hlive
  have htwice : (s.colls.any fun y => y.die == g.die && y.pending && y.same { cmd := c, die := g.die, ctx := c.ctx }) = false := by
    rw [hcolls, List.any_nil]
  change Host.Outcome.next (match s.groups.find? _ with | none => s | some g => _) = _
  rw [hg.find?]
  dsimp only
  rw [hengq]
  refine congrArg _ ((if_neg ?_).trans ((if_neg (by simp [hverdict])).trans ((if_neg (by simp [hcolls])).trans ?_)))
  · simp [hkind, hverdict, hga, hrelock, Gang.stopped, hstop]
  · rw [hblk, hlost, htwice]
    simp only [Bool.false_eq_true, if_false, Option.isSome_none]
    rfl

/-- The members of a collective that no other command matches: itself, where it has no other member. -/
theorem State.collMates_alone {s : State} {k : CollCmd} (hcolls : s.colls = [k]) (hpending : k.pending = true) : s.collMates k =
    if (memberDies (colMembers k.blk)).all (fun d => k.die == d) then
      some ((memberDies (colMembers k.blk)).filterMap fun d => if k.die == d then some k else none) else none := by
  have hself : k.same k = true := by simp [CollCmd.same]
  have hpend : (s.colls.filter fun c => c.pending && c.same k) = [k] := by simp [hcolls, hpending, hself]
  unfold State.collMates
  rw [hpend]
  simp only [List.any_cons, List.any_nil, Bool.or_false, List.find?_cons, List.find?_nil]
  cases (memberDies (colMembers k.blk)).all (fun d => k.die == d)
  · rfl
  · simp only [Option.map_some, if_true]
    congr 2
    funext d
    cases k.die == d <;> rfl

theorem memberDies_nodup (m : Nat) : (memberDies m).Nodup := List.nodup_range.filter _

/-- The ranks that are all one die. -/
theorem memberDies_of_all {m die : Nat} (h : (memberDies m).all (fun d => die == d) = true) : memberDies m = [] ∨ memberDies m = [die] := by
  have hnodup := memberDies_nodup m
  generalize memberDies m = l at *
  match l with
  | [] => exact .inl rfl
  | [x] =>
    have hx : die = x := by simpa using h
    exact .inr (by rw [hx])
  | x :: y :: t =>
    simp only [List.all_cons, Bool.and_eq_true, beq_iff_eq] at h
    obtain ⟨rfl, rfl, -⟩ := h
    exact absurd List.mem_cons_self (List.nodup_cons.mp hnodup).1

/-- Matched commands keep their places; no byte and no group changes. -/
theorem State.runColl_frame (s : State) (part : List CollCmd) : (s.runColl part).mem = s.mem ∧ (s.runColl part).groups = s.groups ∧
    ∃ f : CollCmd → CollCmd, (∀ k, (f k).cmd = k.cmd ∧ (f k).die = k.die) ∧ (s.runColl part).colls = s.colls.map f := by
  unfold State.runColl
  split_ifs
  · refine ⟨rfl, rfl, _, fun k => ?_, rfl⟩
    split <;> exact ⟨rfl, rfl⟩
  · refine ⟨rfl, rfl, _, fun k => ?_, rfl⟩
    split_ifs <;> exact ⟨rfl, rfl⟩

theorem State.runColl_alone {s : State} {k : CollCmd} (hcolls : s.colls = [k]) (part : List CollCmd) :
    ∃ k', (s.runColl part).colls = [k'] ∧ k'.cmd = k.cmd ∧ k'.die = k.die := by
  obtain ⟨-, -, f, hf, heq⟩ := s.runColl_frame part
  exact ⟨f k, by rw [heq, hcolls]; rfl, hf k⟩

theorem State.collsReadable_alone {s : State} {k : CollCmd} (h : s.collReadable k = true) :
    s.collsReadable [k] = ((s.gate k.giver (s.givesNeed k)).1, true) := by
  have hrelock : s.relocking k.die = false := by
    rw [State.collReadable, Bool.and_eq_true, Bool.not_eq_true'] at h
    exact h.1
  simp [State.collsReadable, h, hrelock]

/-- What taking a command leaves: its group's head has left the queue, no byte has changed, and the engine holds that command alone. -/
def CollTaken (s : State) (g : Group) (k : CollCmd) (u : State) : Prop :=
  u.mem = s.mem ∧ u.group? g.id = (s.group? g.id).map Group.popHead ∧ ∃ k', u.colls = [k'] ∧ k'.cmd = k.cmd ∧ k'.die = k.die

section Alone

variable {s s1 : State} {g : Group} {k : CollCmd}

theorem collTaken_waits (hcolls : s.colls = []) : CollTaken s g k (s.collTaken g k) :=
  ⟨rfl, s.group?_collTaken g k, k, by rw [State.collTaken, hcolls]; rfl, rfl, rfl⟩

theorem collTaken_runs (hmem : s1.mem = s.mem) (hgroups : s1.groups = s.groups) (hcolls : s1.colls = []) (part : List CollCmd) :
    CollTaken s g k ((s1.collTaken g k).runColl part) := by
  obtain ⟨htaken, hgroup, -⟩ := (s1.collTaken g k).runColl_frame part
  refine ⟨htaken.trans hmem, ?_, State.runColl_alone (by rw [State.collTaken, hcolls]; rfl) part⟩
  rw [State.group?_congr hgroup, State.group?_collTaken, State.group?_congr hgroups]

theorem State.collMatched_alone (hcolls : s.colls = []) (hpending : k.pending = true) (hread : s.collReadable k = true) :
    CollTaken s g k (s.collMatched g k) ∧ (memberDies (colMembers k.blk) ≠ [k.die] → memberDies (colMembers k.blk) ≠ [] →
      s.collMatched g k = s.collTaken g k) := by
  have htaken : (s.collTaken g k).colls = [k] := by rw [State.collTaken, hcolls]; rfl
  have hmates := State.collMates_alone htaken hpending
  unfold State.collMatched
  rw [hmates]
  cases hall : (memberDies (colMembers k.blk)).all (fun d => k.die == d)
  case false => exact ⟨collTaken_waits hcolls, fun _ _ => rfl⟩
  case true =>
    rcases memberDies_of_all hall with hnil | hself
    · rw [hnil]
      exact ⟨collTaken_runs rfl rfl hcolls [], fun _ h => absurd rfl h⟩
    · refine ⟨?_, fun h => absurd hself h⟩
      rw [hself]
      simp only [if_true, List.filterMap_cons, List.filterMap_nil, beq_self_eq_true]
      obtain ⟨hmem, -, hgroups, hcolls1⟩ := State.gate_frame (Prod.eta (s.gate k.giver (s.givesNeed k))).symm
      cases collAgree [k]
      · exact collTaken_runs rfl rfl hcolls [k]
      · rw [State.collsReadable_alone hread]
        exact collTaken_runs hmem hgroups (hcolls1.trans hcolls) [k]

end Alone

theorem collectiveComplete_ends {s s2 s' : State} {c : CollCmd} (hc : Sole (fun k => k.cmd.id == c.cmd.id && !k.pending) s.colls c)
    (hrelock : s.relocking c.die = false) (hstatus : c.status = none) (hfail : c.fail = none)
    (hwritable : s.collWritable c c.results = (s2, true))
    (hwrite : ({ s2 with colls := s2.colls.filter fun x => x.cmd.id ≠ c.cmd.id } : State).collWrite c c.results = (s', none)) :
    exec (.collectiveComplete c.cmd.id) s = .next ((s'.putStatus c.cmd c.die 0 0 0).endCmd c.cmd) := by
  change Host.Outcome.next (match s.colls.find? _ with | none => s | some c => _) = _
  rw [hc.find?]
  refine congrArg _ ((if_neg (by simp [hrelock])).trans ?_)
  rw [hfail, hstatus]
  simp only [Option.isSome_none, Bool.false_eq_true, if_false]
  rw [hwritable]
  dsimp only
  rw [hwrite]
  rfl

/-! ### Collapses (R252) -/

/-- A translation of the page of a collapse. -/
def Collapse.translates (c : Collapse) (e : TlbE) : Bool :=
  pteAttr e.pte.toNat == 2 && replKey e.pte.toNat == c.page && bits (pteAddr e.pte.toNat) 47 42 == c.home

/-- A die without its translations of the page of a collapse and its cache lines of a span. -/
def Die.dropPage (c : Collapse) (lo n : Nat) (d : Die) : Die :=
  { d with
    tlb := d.tlb.filter fun e => !c.translates e
    lines := d.lines.filter fun x => !(decide (lo ≤ 128 * x.line) && decide (128 * x.line < lo + n)) }

theorem Die.dropPage_tlb {c : Collapse} {lo n : Nat} {d : Die} {e : TlbE} (h : e ∈ (d.dropPage c lo n).tlb) :
    ¬(pteAttr e.pte.toNat = 2 ∧ replKey e.pte.toNat = c.page ∧ pteAddr e.pte.toNat / 2 ^ 42 % 64 = c.home) := by
  rintro ⟨hattr, hkey, hhome⟩
  have hbits : bits (pteAddr e.pte.toNat) 47 42 = c.home := (bits_eq_div_mod ..).trans hhome
  have hkeep := (List.mem_filter.mp h).2
  simp [Collapse.translates, hattr, hkey, hbits] at hkeep

theorem Die.dropPage_lines {c : Collapse} {lo n : Nat} {d : Die} {x : CLine} (h : x ∈ (d.dropPage c lo n).lines) :
    ¬(lo ≤ 128 * x.line ∧ 128 * x.line < lo + n) := by
  rintro ⟨hlo, hhi⟩
  simpa [hlo, hhi] using (List.mem_filter.mp h).2

section Collapse

variable {s : State} {c : Collapse} {die lo n : Nat} (hspan : s.collapseSpan c die = (lo, n))
include hspan

/-- A die drops its translations and its lines of a page being collapsed; commands read the home copy. -/
theorem collapseMessage_drops (hc : Sole (fun k => k.page == c.page && k.todo.contains die && !k.dropped.contains die) s.collapses c) :
    ∃ t, exec (.collapseMessage die c.page) s = .next t ∧
      t = { s with
        collapses := s.collapses.map fun x => if x.page = c.page ∧ x.home = c.home then { x with dropped := insertNat x.dropped die } else x
        active := s.active.map fun a => { a with elems := a.elems.map (Elem.rehome lo n (c.home * 2 ^ 42 + c.page)) }
        streams := s.streams.map fun x => { x with elems := x.elems.map (Elem.rehome lo n (c.home * 2 ^ 42 + c.page)) }
        clusters := t.clusters, dies := t.dies } ∧
      t.dies = s.dies.map fun d => if d.num = die then d.dropPage c lo n else d := by
  have hexec : exec (.collapseMessage die c.page) s = .next (match s.collapses.find? fun k => k.page == c.page && k.todo.contains die &&
    !k.dropped.contains die with | none => s | some c => _) := rfl
  rw [hc.find?] at hexec
  dsimp only at hexec
  rw [hspan] at hexec
  exact ⟨_, hexec, rfl, rfl⟩

theorem collapseAck_acknowledges
    (hc : Sole (fun k => k.page == c.page && k.dropped.contains die && k.todo.contains die) s.collapses c)
    (hread : s.readOpen lo n = false) : exec (.collapseAck die c.page) s = .next { s with
      collapses := (s.collapses.map fun x => if x.page = c.page ∧ x.home = c.home then { x with todo := x.todo.filter (· ≠ die) } else x).filter
        fun x => x.todo ≠ [] } := by
  change Host.Outcome.next (match s.collapses.find? _ with | none => s | some c => _) = _
  rw [hc.find?]
  dsimp only
  rw [hspan]
  exact congrArg _ (if_neg (by simp [hread]))

end Collapse

/-- The die of a number after an update of the dies of that number. -/
theorem die?_of_map {s t : State} {die : Nat} {f : Die → Die} {d : Die} (hdies : t.dies = s.dies.map fun d => if d.num = die then f d else d)
    (hd : t.die? die = some d) : ∃ d0, d = f d0 := by
  have hmem : d ∈ t.dies := List.mem_of_find?_eq_some hd
  have hnum : d.num = die := by simpa using List.find?_some hd
  rw [hdies] at hmem
  obtain ⟨d0, -, rfl⟩ := List.mem_map.mp hmem
  split_ifs at hnum ⊢ with h
  · exact ⟨d0, rfl⟩
  · exact absurd hnum h

/-! ### An element's move (R267) -/

/-- Locations in a row. -/
def span (a n : Nat) : List Nat := (List.range n).map (a + ·)

theorem span_succ (a n : Nat) : span a (n + 1) = a :: span (a + 1) n := by
  unfold span
  rw [List.range_succ_eq_map, List.map_cons, List.map_map, Nat.add_zero]
  exact congrArg _ (List.map_congr_left fun k _ => by simp only [Function.comp_apply]; omega)

theorem mem_span {a n l : Nat} : l ∈ span a n ↔ a ≤ l ∧ l < a + n := by
  unfold span
  rw [List.mem_map]
  constructor
  · rintro ⟨k, hk, rfl⟩
    have := List.mem_range.mp hk
    omega
  · rintro ⟨hlo, hhi⟩
    exact ⟨l - a, List.mem_range.mpr (by omega), by omega⟩

theorem State.gather_span (s : State) (a n : Nat) : s.gather (span a n) = Memory.readN s.mem a n := by
  induction n generalizing a with
  | zero => rfl
  | succ n ih =>
    rw [span_succ, State.gather, ih]
    rfl

theorem State.scatterBytes_span (s : State) (b n v : Nat) : s.scatterBytes (span b n) v = { s with mem := Memory.writeN s.mem b n v } := by
  induction n generalizing s b v with
  | zero => rfl
  | succ n ih =>
    rw [span_succ, State.scatterBytes, ih]
    rfl

theorem Memory.readN_byte (m : List Host.Cell) {a n i : Nat} (h : i < n) :
    BitVec.ofNat 8 (Memory.readN m a n / 256 ^ i) = Memory.read m (a + i) := by
  induction n generalizing a i with
  | zero => omega
  | succ n ih =>
    have hbyte := (Memory.read m a).isLt
    rw [Memory.readN]
    cases i with
    | zero =>
      apply BitVec.eq_of_toNat_eq
      rw [BitVec.toNat_ofNat, Nat.pow_zero, Nat.div_one, Nat.add_zero a]
      omega
    | succ i =>
      have hdiv : ((Memory.read m a).toNat + 256 * Memory.readN m (a + 1) n) / 256 = Memory.readN m (a + 1) n := by omega
      rw [Nat.pow_succ', ← Nat.div_div_eq_div_mul, hdiv, ih (by omega)]
      congr 1
      omega

theorem isStoreLoc_of_lt {l : Nat} (h : l < 2 ^ 60) : isStoreLoc l = false := by
  rw [isStoreLoc, decide_eq_false (Nat.not_le.mpr h), Bool.false_and]

theorem State.stillResident_of_lt {s : State} {ctx : Nat} {ls : List Nat} (h : ∀ l ∈ ls, l < 2 ^ 60) : s.stillResident ctx ls = true := by
  refine List.all_eq_true.mpr fun l hl => ?_
  rw [isStoreLoc_of_lt (h l hl)]
  rfl

/-- No granule of memory below the stores is set full. -/
theorem State.fillGranules_of_lt {s : State} {ls : List Nat} (h : ∀ l ∈ ls, l < 2 ^ 60) : s.fillGranules ls = s := by
  have hnone : ls.filter isStoreLoc = [] := List.filter_eq_nil_iff.mpr fun l hl => by rw [isStoreLoc_of_lt (h l hl)]; decide
  unfold State.fillGranules
  rw [hnone]
  rfl

/-- The move of whole bytes in a row between places below the stores is the copy of those bytes. -/
theorem State.moveElem_span {s : State} {ctx a b n : Nat} {e : Elem} (hsrc : e.src = span a n) (hdst : e.dst = span b n) (hn : 0 < n)
    (hsbit : e.sbit = 0) (hdbit : e.dbit = 0) (hbits : e.bits = 8 * n) (hsbits : e.sbits = 8 * n) (ha : a + n ≤ 2 ^ 60)
    (hb : b + n ≤ 2 ^ 60) (hclean : ∀ l ∈ e.src, s.poisoned l 1 = false) :
    s.moveElem ctx e = .ok { s with mem := Memory.writeN s.mem b n (Memory.readN s.mem a n) } := by
  have hsrclt : ∀ l ∈ span a n, l < 2 ^ 60 := fun l hl => by have := mem_span.mp hl; omega
  have hdstlt : ∀ l ∈ span b n, l < 2 ^ 60 := fun l hl => by have := mem_span.mp hl; omega
  have hne : e.src ≠ [] := by
    intro h
    have hmem := mem_span.mpr (⟨le_rfl, by omega⟩ : a ≤ a ∧ a < a + n)
    rw [← hsrc, h] at hmem
    exact List.not_mem_nil hmem
  have hvalue : s.elemValue e = Memory.readN s.mem a n := by
    rw [State.elemValue, if_neg hne, hsbit, hsbits, hsrc, s.gather_span, Nat.shiftRight_zero, Nat.mod_eq_of_lt (Memory.readN_lt ..)]
  have hold : s.gather e.dst &&& (2 ^ e.bits - 1) <<< e.dbit = s.gather e.dst := by
    rw [hdst, s.gather_span, hbits, hdbit, Nat.shiftLeft_zero, Nat.and_two_pow_sub_one_eq_mod, Nat.mod_eq_of_lt (Memory.readN_lt ..)]
  unfold State.moveElem
  rw [if_neg (by rw [hsrc, State.stillResident_of_lt hsrclt]; decide), if_neg (by simpa using hclean),
    if_neg (by rw [hdst, State.stillResident_of_lt hdstlt]; decide)]
  dsimp only
  rw [hold, Nat.sub_self, Nat.zero_add, hvalue, hbits, hdbit, Nat.shiftLeft_zero, Nat.mod_eq_of_lt (Memory.readN_lt ..), hdst, State.scatter,
    State.fillGranules_of_lt hdstlt, State.scatterBytes_span]

/-- A copy of bytes changes the destination alone. -/
theorem Memory.read_writeN_readN {m : List Host.Cell} (hm : Memory.wf m = true) (a b n x : Nat) :
    Memory.read (Memory.writeN m b n (Memory.readN m a n)) x =
      if b ≤ x ∧ x < b + n then Memory.read m (a + (x - b)) else Memory.read m x := by
  rw [Memory.read_writeN n hm]
  split_ifs with h
  · exact Memory.readN_byte m (by omega)
  · rfl

/-- Settles O44, clause by clause: each step of a command in progress by the equation of its step where its record is the one the step
finds. -/
theorem engineSteps : Obligations.EngineSteps := by
  unfold Obligations.EngineSteps
  refine ⟨?start, ?grant, ?flits, ?items, ?complete, ?matching, ?collective, ?collapse, ?move⟩
  case start =>
    intro s die ch slot g c hrun hstall hhead hg
    exact ⟨fun s1 => copyStart_discards hrun hstall hhead, fun s1 htrue hroom => copyStart_begins_frame hrun hstall hhead hg htrue hroom⟩
  case grant =>
    intro s src dst st rest l hst hlinks holdest hroom
    exact streamTagGrant_grants hst hlinks holdest hroom
  case flits =>
    intro s x hx
    refine ⟨fun hlinks hclosing hpair => ⟨openFlit_opens hx hlinks hclosing hpair, fun a b se de sc => State.opening_copy,
      fun q => openFlit_sends hx hlinks hclosing hpair⟩, ?_, fun e rest => Stream.payload_take,
      fun a ea v rest s1 => flagFlit_applies hx, fun hpair => ⟨closeFlit_closes hx hpair, closeFlit_passes hx hpair, closeFlit_ends hx hpair⟩⟩
    intro a s1 s2 hcmd hes es s' hready hgate
    have hpayload := Stream.payload_ne_nil hes
    exact ⟨dataFlit_applies hx hcmd hpayload hready hgate, fun f => dataFlit_fails hx hcmd hpayload hready hgate⟩
  case items =>
    intro s x hx
    exact itemStreamClose_closes hx
  case complete =>
    intro s a ha hrelock hports q
    refine ⟨fun b x d k s1 s2 s3 => copyComplete_copy ha hrelock hports, fun ea v hkind hstreams =>
      ⟨copyComplete_flagged ha hrelock hports hkind hstreams, fun s1 => copyComplete_flag ha hrelock hports hkind hstreams⟩,
      fun va level pte s1 => copyComplete_flush_frame ha hrelock hports, fun ea v loc => State.putFlag_writes v, fun hstat => ?_⟩
    obtain ⟨hmem, -, hactive, hops⟩ := s.closeCmd_frame hstat
    exact ⟨_, rfl, hmem, hactive, hops⟩
  case matching =>
    intro s g c t b x d ga hg hengq hkind hverdict hga hstop hrelock hcolls hlive k u0 hread
    have hblk : k.blk = b.toNat := by unfold CollCmd.blk; rw [hkind]
    obtain ⟨⟨hmem, hgroup, hk⟩, hwaits⟩ := State.collMatched_alone (g := g) hcolls (rfl : k.pending = true) hread
    rw [hblk] at hwaits
    refine ⟨_, collectiveMatch_takes hg hengq hkind hverdict hga hstop hrelock hcolls hlive, hmem, hgroup, fun hself hnil => ?_, hk⟩
    rw [hwaits hself hnil, State.collTaken, hcolls]
    rfl
  case collective =>
    intro s s2 s' c
    exact collectiveComplete_ends
  case collapse =>
    intro s c die
    rcases hspan : s.collapseSpan c die with ⟨lo, n⟩
    dsimp only
    refine ⟨fun hc => ?_, collapseAck_acknowledges hspan⟩
    obtain ⟨t, hexec, ht, hdies⟩ := collapseMessage_drops hspan hc
    refine ⟨t, hexec, ht, fun d hd => ?_⟩
    obtain ⟨d0, rfl⟩ := die?_of_map hdies hd
    exact ⟨fun k => Die.dropPage_tlb, fun x => Die.dropPage_lines⟩
  case move =>
    intro s ctx a b n e hm hsrc hdst hn hsbit hdbit hbits hsbits ha hb hclean
    exact ⟨_, State.moveElem_span hsrc hdst hn hsbit hdbit hbits hsbits ha hb hclean, rfl, Memory.read_writeN_readN hm a b n⟩

end Sys2Proof.Machine
end

section
/-! PROOFS. Render steps: packets of a draw, the release of primitives, and the posts that the colour and depth units apply (spec 10
R278-R283, R292, R293), and from them the obligation on render steps. -/

set_option Elab.async false

namespace Sys2Proof.Machine

/-! ### The render state of a die -/

namespace Launch

variable (l : Launch) (die : Nat) (f : Focus → Focus)

/-- Of a launch only the render states of dies change. -/
theorem updFocus_eq : l.updFocus die f = { l with draw := (l.updFocus die f).draw } := by
  unfold updFocus
  split_ifs <;> rfl

@[simp] theorem updFocus_id : (l.updFocus die f).id = l.id := by rw [updFocus_eq]
@[simp] theorem updFocus_pkts : (l.updFocus die f).pkts = l.pkts := by rw [updFocus_eq]

variable {f}

/-- The render state of the die is the updated one, whether the launch had one there or not. -/
theorem focus_updFocus (hf : ∀ x, (f x).die = x.die) : (l.updFocus die f).focus die = f (l.focus die) := by
  unfold updFocus focus
  by_cases h : l.draw.any (·.die == die) = true
  · have hsome : (l.draw.find? (·.die == die)).isSome = true := by rw [List.find?_isSome, ← List.any_eq_true]; exact h
    obtain ⟨x, hx⟩ := Option.isSome_iff_exists.mp hsome
    rw [if_pos h]
    dsimp only
    rw [State.find?_map_id Focus.die l.draw die die f fun a ha => (hf a).trans ha, if_pos rfl, hx]
    rfl
  · have hnone : l.draw.find? (·.die == die) = none := by
      rw [← Option.not_isSome_iff_eq_none, List.find?_isSome, ← List.any_eq_true]; exact h
    rw [if_neg h]
    dsimp only
    rw [List.find?_append, hnone, Option.none_or, List.find?_singleton, hf, if_pos (beq_self_eq_true die)]
    rfl

end Launch

/-! ### Packets (R278, R279) -/

/-- A packet is the last of the launch it is sent for, under the next identifier. -/
theorem State.launch?_sendPkt (s : State) (l src dst : Nat) (p : RenderPkt) : (s.sendPkt l src dst p).launch? l =
    (s.launch? l).map fun x => { x with pkts := AMap.set x.pkts (s.next * 4096 + 64 * src + dst) p } :=
  (State.launch?_updLaunch { s with next := s.next + 1 } l l
    (fun x => { x with pkts := AMap.set x.pkts (s.next * 4096 + 64 * src + dst) p }) fun _ h => h).trans (if_pos rfl)

/-- The packets of a launch once one has been sent to each of a list of dies, the first under identifier `n`. -/
def sentTo (src : Nat) (p : Nat → RenderPkt) : List Nat → Nat → AMap RenderPkt → AMap RenderPkt
  | [], _, m => m
  | d :: ds, n, m => sentTo src p ds (n + 1) (AMap.set m (n * 4096 + 64 * src + d) (p d))

theorem State.launch?_sendAll (l src : Nat) (p : Nat → RenderPkt) (ds : List Nat) {s : State} {x : Launch} (hx : s.launch? l = some x) :
    (ds.foldl (fun (s : State) d => s.sendPkt l src d (p d)) s).launch? l = some { x with pkts := sentTo src p ds s.next x.pkts } := by
  induction ds generalizing s x with
  | nil => exact hx
  | cons d ds ih =>
    have hfirst := s.launch?_sendPkt l src d (p d)
    rw [hx] at hfirst
    exact ih hfirst

/-- Sending changes the launches and the identifiers alone. -/
theorem State.sendAll_eq (l src : Nat) (p : Nat → RenderPkt) (ds : List Nat) (s : State) :
    let t := ds.foldl (fun (s : State) d => s.sendPkt l src d (p d)) s
    t = { s with launches := t.launches, next := t.next } :=
  foldl_keeps (P := fun t : State => t = { s with launches := t.launches, next := t.next })
    (fun t d ht => by unfold State.sendPkt State.updLaunch; conv_lhs => rw [ht]) ds rfl

section Draw

variable {s : State} {la : Launch} {die src : Nat} (hla : s.launch? la.id = some la) (hrelock : s.relocking die = false)
include hla hrelock

/-- An owner with room on chip holds the primitive that arrives. -/
theorem primitivePacket_held {k : Nat} {p : Prim} (hpkt : la.firstPkt src die = some (k, .prim p)) (hpair : s.stalledPair src die = false)
    (hroom : s.primsHeld die false none < 4096) : exec (.primitivePacket la.id src die) s =
      .next ((s.updLaunch la.id fun l => { l with pkts := AMap.erase l.pkts k }).updLaunch la.id
        fun l => l.updFocus die fun f => { f with held := f.held ++ [{ p with spilled := false }] }) := by
  refine congrArg Host.Outcome.next ?_
  rw [hla]
  dsimp only
  rw [hpkt]
  dsimp only
  rw [if_neg (by simp [hpair, hrelock]), decide_eq_false (Nat.not_le.mpr hroom)]
  rfl

/-- An owner releases what an end marker completes. -/
theorem endMarker_releases {k : Nat} {m : Marker} (hpkt : la.firstPkt src die = some (k, .marker m)) (hpair : s.stalledPair src die = false) :
    exec (.endMarker la.id src die) s = .next (s.updLaunch la.id fun l => ({ l with pkts := AMap.erase l.pkts k }).updFocus die fun f =>
      let counts := (m.counts.zip (List.range 64)).foldl (fun c (x : BitVec 8 × Nat) =>
        if x.1 = 0xFF then c else AMap.set c (64 * m.window + x.2) x.1.toNat) f.counts
      Focus.release counts.length { f with counts := counts }) := by
  refine congrArg Host.Outcome.next ?_
  rw [hla]
  dsimp only
  rw [hpkt]
  exact if_neg (by simp [hpair, hrelock])

/-- The end marker of a window to one owner: of each task group dealt to the die, the primitives that it sent there. -/
def Launch.marker (la : Launch) (die w : Nat) (d : Nat) : RenderPkt :=
  .marker
    { header := la.markerHeader w
      counts := (List.range 64).map fun i =>
        if ((la.focus die).window la.items w).contains (64 * w + i)
          then BitVec.ofNat 8 (AMap.getD (la.focus die).sent (64 * (64 * w + i) + d) 0) else 0xFF }

/-- A die whose task groups of a window have ended notes the window and sends its end marker to every owner. -/
theorem markerSend_sends {w : Nat} (hlive : la.live = true) (hdraw : la.isDraw = true) (htgs : (la.focus die).window la.items w ≠ [])
    (hnew : w ∉ (la.focus die).markers) (hended : ∀ t ∈ (la.focus die).window la.items w, t ∈ (la.focus die).ended) :
    exec (.markerSend la.id die w) s = .next (la.owners.foldl (fun (s : State) d => s.sendPkt la.id die d (la.marker die w d))
      (s.updLaunch la.id fun l => l.updFocus die fun f => { f with markers := insertNat f.markers w })) := by
  refine congrArg Host.Outcome.next ?_
  rw [hla]
  exact if_neg (by simpa [hlive, hdraw, htgs, hnew, hrelock] using hended)

/-- The rasteriser turns the next released primitive, of finite depths, into its quads' items and posts. -/
theorem rasterise_emits {p : Prim} {rest : List Prim} (hreleased : (la.focus die).released = p :: rest)
    (hfin : ∀ k, k < 3 → (vertOf p.verts k).2.2.1.isFin = true) :
    let q := la.quads die (la.focus die).nextTicket p none
    exec (.rasterise la.id die) s = .next (s.updLaunch la.id fun l =>
      (l.updFocus die fun f => { f with released := rest, nextTicket := q.next, posts := f.posts ++ q.posts }).updStock die 1
        fun k => { k with items := k.items ++ q.items }) := by
  have hinf : ((List.range 3).any fun i => !(vertOf p.verts i).2.2.1.isFin) = false := by
    rw [List.any_eq_false]
    intro k hk
    rw [hfin k (List.mem_range.mp hk)]
    exact Bool.false_ne_true
  refine congrArg Host.Outcome.next ?_
  rw [hla]
  dsimp only
  rw [hreleased]
  dsimp only
  rw [if_neg (ne_true_of_eq_false hrelock), hinf]
  rfl

/-! ### The colour unit (R292) -/

/-- A colour entry has been applied: its post says so, and the last one of its counted operation makes that ready. -/
def State.colourApplied (s : State) (la : Launch) (die : Nat) (p : Post) (c : ColourPost) : State :=
  let t := s.updPost la.id die p.ticket fun p => { p with colour := none, colourDone := true }
  if t.colourOpen la.id c.op = true then t
  else { t with ops := t.ops.map fun o => if o.id = c.op then { o with ready := true } else o }

/-- What the colour unit does with an entry whose requests have been performed. -/
def State.blended (s : State) (la : Launch) (die : Nat) (p : Post) (c : ColourPost) : State :=
  match s.planColour la die p c with
  | .error a => s.logUnit la c.grp die 0x0D a
  | .ok none => s
  | .ok (some (w, reserved)) => s.drawn.applyColour la die c w reserved

/-- The colour unit applies an entry once every earlier ticket of its pixel is done and its requests have been performed. -/
theorem colourApply_applies {p : Post} {c : ColourPost} {s1 : State}
    (hpost : (la.focus die).posts.find? (·.ticket == p.ticket) = some p) (hc : p.colour = some c)
    (hclear : (la.focus die).clearBefore p (·.colourDone) = true)
    (hgate : s.gate (la.asker die (.colour la.id die p.ticket)) (s.blendNeed la die p c) = (s1, true)) :
    exec (.colourApply la.id die p.ticket) s = .next ((s1.blended la die p c).colourApplied la die p c) := by
  refine congrArg Host.Outcome.next ?_
  rw [hla]
  dsimp only
  rw [hpost]
  dsimp only
  rw [hc]
  dsimp only
  rw [if_neg (by simp [hrelock, hclear]), hgate]
  dsimp only
  unfold State.blended
  cases s1.planColour la die p c with
  | error a => rfl
  | ok r => cases r with | none | some x => rfl

omit hla hrelock in
/-- A blend whose writes succeed leaves what it wrote, and a record of a block whose mode was reserved. -/
theorem State.applyColour_of_written {c : ColourPost} {w : BlockWrite} {b : Bool} {s2 : State}
    (hw : s.writeBlock die la.ctx c.surface.toNat w = (s2, none)) : s.applyColour la die c w b =
      if b = true then s2.logUnit la c.grp die 0x0A (Ent.modeVa c.surface.toNat w.bx w.y) else s2 := by
  unfold State.applyColour
  dsimp only
  rw [hw]

/-! ### The depth unit (R293) -/

/-- A depth operation has been applied: its post says so, and the lane's predicate has its result. -/
def State.depthApplied (s : State) (la : Launch) (die : Nat) (p : Post) (d : DepthPost) (b : Bool) : State :=
  (s.updPost la.id die p.ticket fun p => { p with depth := none, depthDone := true }).updGroup d.grp fun g => g.setPat false d.pd d.lane b

/-- What the depth unit does with a post: a helper or a pixel outside the tensor fails, another is compared once its requests have been
performed. -/
def State.depthTurn (s : State) (la : Launch) (die : Nat) (p : Post) (d : DepthPost) : State :=
  match p.depthVa d with
  | none => s.depthApplied la die p d false
  | some va =>
    match s.gate (la.asker die (.depth la.id die p.ticket))
        (s.needVas die la.ctx [(va, 4)] (if s.depthWrites la die va d then [(va, 4)] else [])) with
    | (s, false) => s
    | (s, true) => (s.applyDepth la die va d).1.depthApplied la die p d (s.applyDepth la die va d).2

/-- The depth unit turns to a post once every earlier ticket of its pixel is done. -/
theorem depthApply_turns {p : Post} {d : DepthPost} (hpost : (la.focus die).posts.find? (·.ticket == p.ticket) = some p)
    (hd : p.depth = some d) (hclear : (la.focus die).clearBefore p (·.depthDone) = true) :
    exec (.depthApply la.id die p.ticket) s = .next (s.depthTurn la die p d) := by
  refine congrArg Host.Outcome.next ?_
  rw [hla]
  dsimp only
  rw [hpost]
  dsimp only
  rw [hd]
  exact if_neg (by simp [hrelock, hclear])

end Draw

/-- A depth operation whose value can be read: the comparison decides, and a passing one that writes gives its value. -/
theorem State.applyDepth_of_read {s : State} {la : Launch} {die va old : Nat} {d : DepthPost} (hread : s.readVa die la.ctx va 4 = some old) :
    (depthCond d.cond d.z.toNat old = false → s.applyDepth la die va d = (s, false)) ∧
    (depthCond d.cond d.z.toNat old = true → d.wr = false → s.applyDepth la die va d = (s, true)) ∧
    (∀ t, depthCond d.cond d.z.toNat old = true → d.wr = true → s.writeVa die la.ctx va 4 d.z.toNat = (t, true) →
      s.applyDepth la die va d = (t, true)) := by
  unfold State.applyDepth
  rw [hread]
  dsimp only
  refine ⟨fun hc => ?_, fun hc hw => ?_, fun t hc hw hwrite => ?_⟩
  · rw [hc]; rfl
  · rw [hc, hw]; rfl
  · rw [hc, hw, hwrite]; rfl

/-! ### The obligation -/

/-- Settles O47, clause by clause: each step by its equation where its packet, primitive or post is the one it finds. -/
theorem renderSteps : Obligations.RenderSteps := by
  unfold Obligations.RenderSteps
  intro s la die src hla hrelock
  refine ⟨fun k p => primitivePacket_held hla hrelock, fun k m => endMarker_releases hla hrelock, ?marker,
    fun p rest => rasterise_emits hla hrelock, ?colour, ?depth, ?cond, fun sv a d => ⟨rfl, rfl, rfl, rfl, rfl⟩⟩
  case marker =>
    intro w hlive hdraw htgs hnew hended
    let noted (l : Launch) : Launch := l.updFocus die fun f => { f with markers := insertNat f.markers w }
    have hnoted : (s.updLaunch la.id noted).launch? la.id = some (noted la) := by
      rw [State.launch?_updLaunch s la.id la.id noted fun x h => (x.updFocus_id ..).trans h, if_pos rfl, hla]
      rfl
    refine ⟨_, markerSend_sends hla hrelock hlive hdraw htgs hnew hended, ?_, _, State.launch?_sendAll _ _ _ _ hnoted, ?_, ?_, ?_⟩
    · exact State.sendAll_eq la.id die (la.marker die w) la.owners (s.updLaunch la.id noted)
    · change w ∈ ((noted la).focus die).markers
      rw [Launch.focus_updFocus la die (f := fun f => { f with markers := insertNat f.markers w }) fun _ => rfl]
      exact mem_insertNat ..
    · intro hnone
      rw [hnone]
      exact la.updFocus_pkts ..
    · intro d hone
      rw [hone]
      simp only [sentTo, Launch.marker, List.contains_iff_mem]
      exact congrArg (fun m => AMap.set m _ _) (la.updFocus_pkts ..)
  case colour =>
    intro p c hpost hc hclear en s1 hgate done
    have happly := colourApply_applies hla hrelock hpost hc hclear hgate
    unfold State.blended at happly
    refine ⟨fun hplan => ?_, fun a hplan => ?_, fun w b s2 hplan hwrite => ?_⟩
    · rw [hplan] at happly
      exact happly
    · rw [hplan] at happly
      exact happly
    · rw [hplan] at happly
      dsimp only at happly
      rw [State.applyColour_of_written hwrite] at happly
      exact happly
  case depth =>
    intro p d hpost hd hclear done
    have happly := depthApply_turns hla hrelock hpost hd hclear
    unfold State.depthTurn at happly
    refine ⟨fun hva => ?_, fun va old s1 hva hgate hread => ?_⟩
    · rw [hva] at happly
      exact happly
    obtain ⟨hfails, hpasses, hwrites⟩ := State.applyDepth_of_read (d := d) hread
    rw [hva] at happly
    dsimp only at happly
    rw [hgate] at happly
    dsimp only at happly
    refine ⟨fun hcond => ?_, fun hcond hwr => ?_, fun s2 hcond hwr hwrite => ?_⟩
    · rw [hfails hcond] at happly
      exact happly
    · rw [hpasses hcond hwr] at happly
      exact happly
    · rw [hwrites s2 hcond hwr hwrite] at happly
      exact happly
  case cond =>
    intro z d hz hd
    simp [depthCond, hz, hd]

end Sys2Proof.Machine
end

section
/-! PROOFS. Render forms: what sending a primitive, ending a task group and posting to a ticket change, the traps that `cwr` and `zcmp`
share, and the blocks of a box (spec 10 R275, R276, R292-R294), and from them the obligation on the render instructions. -/

set_option Elab.async false

namespace Sys2Proof.Machine

/-! ### What the lanes of a render form change -/

/-- From one state and group to another only launches and identifiers differ, and of the group its items. -/
def ItemsOnly (x y : State × Group) : Prop :=
  y.1 = { x.1 with launches := y.1.launches, next := y.1.next } ∧ y.2 = { x.2 with items := y.2.items }

namespace ItemsOnly

variable {x y z : State × Group}

theorem refl (x : State × Group) : ItemsOnly x x := ⟨rfl, rfl⟩

theorem trans (h : ItemsOnly x y) (k : ItemsOnly y z) : ItemsOnly x z := by
  obtain ⟨hs, hg⟩ := h
  obtain ⟨ks, kg⟩ := k
  exact ⟨by rw [ks, hs], by rw [kg, hg]⟩

/-- What every lane keeps so, a list of lanes keeps so. -/
theorem foldl {f : State × Group → Nat → State × Group} (h : ∀ x l, ItemsOnly x (f x l)) (ls : List Nat) (x : State × Group) :
    ItemsOnly x (ls.foldl f x) :=
  foldl_keeps (P := ItemsOnly x) (fun y l hy => hy.trans (h y l)) ls (refl x)

variable (h : ItemsOnly x y)
include h

theorem groups : y.1.groups = x.1.groups := by rw [h.1]
theorem ops : y.1.ops = x.1.ops := by rw [h.1]
theorem id : y.2.id = x.2.id := by rw [h.2]
theorem front : y.2.front = x.2.front := by rw [h.2]; rfl
theorem inHandler : y.2.inHandler = x.2.inHandler := by rw [h.2]; rfl

end ItemsOnly

theorem itemsOnly_updPost (s : State) (g : Group) (l die tk : Nat) (f : Post → Post) (items : AMap Item) :
    ItemsOnly (s, g) (s.updPost l die tk f, { g with items := items }) := ⟨rfl, rfl⟩

/-! ### `prim` (R275, R277) -/

/-- The primitive that a lane sends for its item. -/
def Group.primOf (g : Group) (la : Launch) (it : Item) (vp : Nat) (a : Src) (l : Nat) : Prim :=
  { verts := (List.range 6).flatMap fun k => [(g.getV (vp + k) l).truncate 32, (g.getV (vp + k) l >>> 32).truncate 32]
    handle := readSrc g l [] 0 a
    token := la.token it.tgseq it.prims }

/-- A primitive goes to an owner, and the die counts it for that owner (R278). -/
def State.sendPrimTo (la : Launch) (src tgseq : Nat) (p : Prim) (s : State) (d : Nat) : State :=
  (s.sendPkt la.id src d (.prim p)).updLaunch la.id fun l => l.updFocus src fun f =>
    { f with sent := AMap.set f.sent (64 * tgseq + d) (AMap.getD f.sent (64 * tgseq + d) 0 + 1) }

section Send

variable {s : State} {g : Group} {la : Launch} {it : Item} {vp l : Nat} {a : Src}

theorem sendPrim_of_item (hla : s.groupLaunch? g = some la) (hit : AMap.get? g.items l = some it) :
    let p := g.primOf la it vp a l
    sendPrim vp a (s, g) l = ((la.bin p.verts).foldl (State.sendPrimTo la g.die it.tgseq p) s,
      { g with items := AMap.set g.items l { it with prims := it.prims + 1 } }) := by
  unfold sendPrim
  dsimp only
  rw [hla, hit]
  rfl

/-- The packet of a primitive sent to one owner. -/
theorem launch?_sendPrimTo (hla : s.launch? la.id = some la) (src tgseq : Nat) (p : Prim) (d : Nat) :
    ∃ la', (s.sendPrimTo la src tgseq p d).launch? la.id = some la' ∧
      la'.pkts = AMap.set la.pkts (s.next * 4096 + 64 * src + d) (.prim p) := by
  unfold State.sendPrimTo
  rw [State.launch?_updLaunch _ la.id la.id _ fun x h => (x.updFocus_id ..).trans h, if_pos rfl, State.launch?_sendPkt, hla]
  exact ⟨_, rfl, Launch.updFocus_pkts ..⟩

theorem itemsOnly_sendPrim (vp : Nat) (a : Src) (x : State × Group) (l : Nat) : ItemsOnly x (sendPrim vp a x l) := by
  obtain ⟨s, g⟩ := x
  unfold sendPrim
  dsimp only
  split
  · refine ⟨?_, rfl⟩
    exact foldl_keeps (P := fun t : State => t = { s with launches := t.launches, next := t.next })
      (fun t d ht => by unfold State.sendPkt State.updLaunch; conv_lhs => rw [ht]) _ rfl
  · exact .refl _

end Send

/-! ### `pend` (R276) -/

/-- Whether a group's lane is an item of a draw depends on its launch's LPB image and on its item's stage. -/
theorem State.drawItem_updFocus (s : State) (g : Group) (id die : Nat) (f : Focus → Focus) (items : AMap Item) (l st : Nat)
    (hstage : (AMap.get? items l).map Item.stage = (AMap.get? g.items l).map Item.stage) :
    (s.updLaunch id fun l => l.updFocus die f).drawItem { g with items := items } l st = s.drawItem g l st := by
  have hlaunch (k : Nat) : ((s.updLaunch id fun l => l.updFocus die f).launch? k).map Launch.isDraw = (s.launch? k).map Launch.isDraw := by
    rw [State.launch?_updLaunch s id k _ fun x h => (x.updFocus_id ..).trans h]
    split_ifs
    · rw [Option.map_map]
      exact congrArg (Option.map · _) (funext fun x => by rw [Function.comp_apply, Launch.updFocus_eq]; rfl)
    · rfl
  have hgroup : ((s.updLaunch id fun l => l.updFocus die f).groupLaunch? { g with items := items }).map Launch.isDraw =
      (s.groupLaunch? g).map Launch.isDraw := by
    change (((s.gang? g.gang).bind fun x => _).map _) = ((s.gang? g.gang).bind fun x => _).map _
    cases s.gang? g.gang with
    | none => rfl
    | some x => exact hlaunch x.launch
  unfold State.drawItem
  rw [hgroup, hstage]

/-- A lane with an item of a draw has a launch and an item of that stage. -/
theorem State.exists_of_drawItem {s : State} {g : Group} {l st : Nat} (hst : st ≠ 4) (h : s.drawItem g l st = true) :
    ∃ la it, s.groupLaunch? g = some la ∧ AMap.get? g.items l = some it := by
  obtain ⟨hla, hit⟩ := (Bool.and_eq_true _ _).mp h
  cases hl : s.groupLaunch? g with
  | none => rw [hl] at hla; cases hla
  | some la =>
    cases hi : AMap.get? g.items l with
    | none => rw [hi] at hit; exact absurd (eq_of_beq hit).symm hst
    | some it => exact ⟨la, it, rfl, rfl⟩

/-- The lane of a stage-0 item of a draw ends its task group, and the draw items stay. -/
theorem endTask_ends {s : State} {g : Group} {l : Nat} (hdraw : s.drawItem g l 0 = true) :
    let x := endTask (s, g) l
    (∀ k, AMap.get? x.2.items k = (AMap.get? g.items k).map fun it => if k = l then { it with tgEnded := true } else it) ∧
      ∀ k, x.1.drawItem x.2 k 0 = s.drawItem g k 0 := by
  obtain ⟨la, it, hla, hit⟩ := State.exists_of_drawItem (by decide) hdraw
  unfold endTask
  dsimp only
  rw [hla, hit]
  dsimp only
  by_cases hended : it.tgEnded = true
  · rw [if_pos (by simp [hended])]
    refine ⟨fun k => ?_, fun k => rfl⟩
    by_cases hk : k = l
    · subst hk
      rw [hit, Option.map_some, if_pos rfl, ← hended]
    · simp only [hk, if_false, Option.map_id']
  · rw [if_neg (by simp [hdraw, hended])]
    have hget (k : Nat) : AMap.get? (AMap.set g.items l { it with tgEnded := true }) k =
        (AMap.get? g.items k).map fun it => if k = l then { it with tgEnded := true } else it := by
      rw [AMap.get?_set]
      split_ifs with hk
      · rw [hk, hit]; rfl
      · exact Option.map_id'.symm
    refine ⟨hget, fun k => State.drawItem_updFocus s g la.id g.die _ _ k 0 ?_⟩
    rw [hget, Option.map_map]
    refine congrArg (Option.map · _) (funext fun x => ?_)
    rw [Function.comp_apply]
    split_ifs <;> rfl

theorem itemsOnly_endTask (x : State × Group) (l : Nat) : ItemsOnly x (endTask x l) := by
  obtain ⟨s, g⟩ := x
  unfold endTask
  dsimp only
  split
  · split_ifs
    · exact .refl _
    · exact ⟨rfl, rfl⟩
  · exact .refl _

theorem endTask_next (x : State × Group) (l : Nat) : (endTask x l).1.next = x.1.next := by
  obtain ⟨s, g⟩ := x
  unfold endTask
  dsimp only
  split
  · split_ifs <;> rfl
  · rfl

/-- The lanes of stage-0 items of a draw end their task groups, and no other item changes. -/
theorem foldl_endTask_items (ls : List Nat) {s : State} {g : Group} (hdraw : ∀ l ∈ ls, s.drawItem g l 0 = true) (k : Nat) :
    AMap.get? (ls.foldl endTask (s, g)).2.items k =
      (AMap.get? g.items k).map fun it => if k ∈ ls then { it with tgEnded := true } else it := by
  induction ls generalizing s g with
  | nil => simp
  | cons l ls ih =>
    obtain ⟨hitems, hkeeps⟩ := endTask_ends (hdraw l List.mem_cons_self)
    rw [List.foldl_cons, ih fun j hj => (hkeeps j).trans (hdraw j (List.mem_cons_of_mem _ hj)), hitems, Option.map_map]
    refine congrArg (Option.map · _) (funext fun it => ?_)
    by_cases hk : k = l <;> by_cases hm : k ∈ ls <;> simp [hk, hm]

/-! ### Tickets: `cwr` and `zcmp` (R292, R293) -/

theorem itemsOnly_cwrLane (f : FCwr) (en op : Nat) (x : State × Group) (l : Nat) : ItemsOnly x (cwrLane f en op x l) := by
  obtain ⟨s, g⟩ := x
  unfold cwrLane
  dsimp only
  split
  · split
    · exact .refl _
    · exact itemsOnly_updPost ..
  · exact .refl _

theorem itemsOnly_zcmpLane (f : FZcmp) (en : Nat) (x : State × Group) (l : Nat) : ItemsOnly x (zcmpLane f en x l) := by
  obtain ⟨s, g⟩ := x
  unfold zcmpLane
  dsimp only
  split
  · split
    · exact .refl _
    · exact itemsOnly_updPost ..
  · exact .refl _

/-- The colours that lanes post are one counted operation (R292). -/
theorem Iss.postColours_of_lanes (u : Iss) (f : FCwr) (en ctr : Nat) {lanes : Mask} (h : lanes ≠ 0) :
    let r := lanes.toList.foldl (cwrLane f en u.s.next) (u.s.fresh, u.g)
    ∃ o, u.postColours f en ctr lanes = (r.1.addOp o, r.2) ∧ o.id = u.s.next ∧ o.grp = u.g.id ∧ o.lanes = lanes ∧ o.ctr = ctr :=
  ⟨_, if_neg h, rfl, rfl, rfl, rfl⟩

/-- Lanes that meet the illegal-state condition trap for themselves where the identifier is right. -/
theorem Iss.pixelTrap_of_bad {u : Iss} {bad : Mask} (hex : u.ex ≠ 0) (hbad : bad ≠ 0) (t : Nat) :
    u.pixelTrap bad t true = some { cls := 2, detail := 4, tmask := bad } := by
  unfold Iss.pixelTrap
  rw [if_neg hex]
  exact if_pos hbad

/-- An identifier that is not right traps for every lane: with the condition that the lowest one meets first (R425). -/
theorem Iss.pixelTrap_of_invalid {u : Iss} (hex : u.ex ≠ 0) (bad : Mask) (t : Nat) : u.pixelTrap bad t false =
    some (if bad.has (lowLane u.ex) = true then { cls := 2, detail := 4, tmask := u.ex } else { cls := 6, info := t, tmask := u.ex }) :=
  if_neg hex

theorem Iss.pixelTrap_of_idle {u : Iss} (hex : u.ex = 0) (bad : Mask) (t : Nat) (valid : Bool) : u.pixelTrap bad t valid = none :=
  if_pos hex

theorem Iss.pixelTrap_of_good (u : Iss) (t : Nat) : u.pixelTrap 0 t true = none := by
  unfold Iss.pixelTrap
  by_cases hex : u.ex = 0
  · exact if_pos hex
  · rw [if_neg hex, if_neg (by decide), if_neg (not_not_intro rfl)]

/-- What `cwr` and `zcmp` have in common: lanes of `bad` trap while the others post, an identifier of the wrong kind traps for every
lane, and otherwise the form goes on (R344, R425; log 23). -/
def Iss.postOrTrap (u : Iss) (bad : Mask) (t : Nat) (valid : Bool) (post : Mask → State × Group) (rest : State) : State :=
  match u.pixelTrap bad t valid with
  | some a => if a.tmask = u.ex then u.trap a
      else { u with s := (post (u.ex &&& ~~~a.tmask)).1 }.trapAfter (post (u.ex &&& ~~~a.tmask)).2 a
  | none => rest

section Trapping

variable {i : Instr} {s : State} {g : Group} {e : Entry} {bad : Mask} {t : Nat} {valid : Bool} {post : Mask → State × Group} {rest : State}
  (hx : exec i s = .next ((Iss.mk' s g e i).postOrTrap bad t valid post rest))
include hx

theorem postOrTrap_of_invalid (hex : (Iss.mk' s g e i).ex ≠ 0) (hvalid : valid = false) :
    (bad.has (lowLane (Iss.mk' s g e i).ex) = true → Traps i s g e 2 4 0 (Iss.mk' s g e i).ex) ∧
    (bad.has (lowLane (Iss.mk' s g e i).ex) = false → Traps i s g e 6 0 t (Iss.mk' s g e i).ex) := by
  unfold Iss.postOrTrap at hx
  rw [hvalid, Iss.pixelTrap_of_invalid hex] at hx
  refine ⟨fun hlow => ?_, fun hlow => ?_⟩
  · rw [hlow] at hx
    exact traps_of (a := { cls := 2, detail := 4, tmask := _ }) (hx.trans (congrArg _ (if_pos rfl)))
  · rw [hlow] at hx
    exact traps_of (a := { cls := 6, info := t, tmask := _ }) (hx.trans (congrArg _ (if_pos rfl)))

/-- Where every lane meets the illegal-state condition, none posts. -/
theorem postOrTrap_of_all_bad (hbad : bad ≠ 0) (hvalid : valid = true) (hall : bad = (Iss.mk' s g e i).ex) : Traps i s g e 2 4 0 bad := by
  unfold Iss.postOrTrap at hx
  rw [hvalid, Iss.pixelTrap_of_bad (hall ▸ hbad) hbad] at hx
  exact traps_of (a := { cls := 2, detail := 4, tmask := bad }) (hx.trans (congrArg _ (if_pos hall)))

/-- Where some lanes meet it, the others post before the trap. -/
theorem postOrTrap_of_some_bad (hex : (Iss.mk' s g e i).ex ≠ 0) (hbad : bad ≠ 0) (hvalid : valid = true) (hsome : bad ≠ (Iss.mk' s g e i).ex) :
    let r := post ((Iss.mk' s g e i).ex &&& ~~~bad)
    exec i s = .next ({ Iss.mk' s g e i with s := r.1 }.trapAfter r.2 { cls := 2, detail := 4, tmask := bad }) := by
  unfold Iss.postOrTrap at hx
  rw [hvalid, Iss.pixelTrap_of_bad hex hbad] at hx
  exact hx.trans (congrArg _ (if_neg hsome))

/-- A form goes on where no lane executes it, or no lane meets a trap's condition. -/
theorem postOrTrap_goes_on (h : (Iss.mk' s g e i).ex = 0 ∨ bad = 0 ∧ valid = true) : exec i s = .next rest := by
  unfold Iss.postOrTrap at hx
  rcases h with hex | ⟨rfl, rfl⟩
  · rw [Iss.pixelTrap_of_idle hex] at hx
    exact hx
  · rw [Iss.pixelTrap_of_good] at hx
    exact hx

end Trapping

/-- Of lanes that are some of `m`, but not all: there are such, and others. -/
theorem Mask.ne_zero_of_sub {a m : Mask} (hsub : ∀ l, a.has l = true → m.has l = true) (ha : a ≠ 0) : m ≠ 0 := by
  rintro rfl
  refine ha (Mask.ext_has fun l _ => ?_)
  rw [Mask.has_zero, ← Bool.not_eq_true]
  intro hl
  have := hsub l hl
  rw [Mask.has_zero] at this
  cases this

theorem Mask.diff_ne_zero_of_sub {a m : Mask} (hsub : ∀ l, a.has l = true → m.has l = true) (hne : a ≠ m) : m &&& ~~~a ≠ 0 := by
  intro hzero
  refine hne (Mask.ext_has fun l _ => Bool.eq_iff_iff.mpr ⟨hsub l, fun hm => ?_⟩)
  have := congrArg (Mask.has · l) hzero
  simp only [Mask.has_diff, hm, Mask.has_zero] at this
  simpa using this

/-! ### What a trap after posts leaves (R344) -/

theorem State.supAppend_launches (s : State) (g : Group) (t : TrapRec) : (s.supAppend g t).launches = s.launches := by
  unfold State.supAppend
  dsimp only
  split
  · rfl
  · split
    · rfl
    · simp only [State.updGroup_launches, State.event_launches, State.updCtx_launches, State.wr_launches]

theorem State.takeTrap_launches (s : State) (g : Group) (e : Entry) (a : TrapArgs) : (s.takeTrap g e a).launches = s.launches := by
  unfold State.takeTrap
  dsimp only
  split
  · refine (State.supAppend_launches ..).trans ?_
    rw [State.updCluster_launches]; rfl
  · split
    · exact State.supAppend_launches ..
    · rfl

theorem Group.trapTaken_items (g : Group) (e : Entry) (t : TrapRec) (st : Stop) : (g.trapTaken e t st).items = g.items := by
  have h : (g.tried.updEntry e.mask fun x => { x with restart := some t.lmask, mid := false, repi := e.repi }).items = g.tried.items := by
    rw [Group.updEntry, Group.samePlace_setFront g.tried]
  exact h

/-- A trap after effects in `g1`, outside handler mode, leaves the items of `g1`, the launches and the counted operations. -/
theorem Iss.trapAfter_posts {u : Iss} {g1 : Group} (a : TrapArgs) (hs : (u.s.group? u.g.id).isSome = true) (hid : g1.id = u.g.id)
    (hh : g1.inHandler = false) : ∃ x z, (u.trapAfter g1 a).group? u.g.id = some x ∧ x.trap = some z ∧ z.cls = a.cls ∧ z.detail = a.detail ∧
      z.tmask = a.tmask ∧ z.pc = u.e.pc ∧ x.items = g1.items ∧ (u.trapAfter g1 a).launches = u.s.launches ∧
      (u.trapAfter g1 a).ops = u.s.ops := by
  have hput : (u.put g1).group? u.g.id = some g1 := Iss.put_group u g1 hs hid
  have hplace := Iss.started_samePlace u g1
  have hstarted : (u.started g1).id = u.g.id := (Group.SamePlace.id hplace).trans hid
  obtain ⟨st, hx⟩ := State.group?_takeTrap (s := u.put g1) u.e (u.trapArgs a) ((Iss.started_inHandler u g1).trans hh)
    (by rw [hstarted, hput]; rfl)
  rw [hstarted] at hx
  refine ⟨_, _, hx, rfl, rfl, rfl, rfl, rfl, ?_, ?_, (u.trapAfter_flights g1 a).2⟩
  · have hitems : (u.started g1).items = g1.items := by rw [hplace]
    exact (Group.trapTaken_items ..).trans hitems
  · exact (State.takeTrap_launches ..).trans (State.updCluster_launches ..)

/-- A sequence that parks once its lanes have posted parks from the state that they leave (R95). -/
theorem parks_from {i : Instr} {s s' : State} {g g0 : Group} {e : Entry} {p : Park} (h : AtIssue i s g e)
    (hx : exec i s = .next (({ Iss.mk' s g e i with s := s' } : Iss).park g0 p)) (hs : s'.groups = s.groups) (hid : g0.id = g.id)
    (hf : g0.front = g.front) : Parks i s g e s' g0 p := by
  let u : Iss := { Iss.mk' s g e i with s := s' }
  let f (e : Entry) : Entry := { e with park := some p }
  have place : SamePlace g0 (s'.surgeFall g ((u.started g0).updEntry e.mask f)) :=
    Group.SamePlace.trans (u.samePlace_updEntry g0 f) (State.surgeFall_samePlace ..)
  have hid' := (Group.SamePlace.id place).trans hid
  have hhere : (s'.group? g.id).isSome = true := by rw [State.group?_congr hs, h.here]; rfl
  refine ⟨_, _, hx, u.put_group _ hhere hid', u.put_only _ hid', place,
    (u.sameRegisters_updEntry g0 f).trans (SameRegisters.surgeFall ..), f { e with yielded := false }, ?_, rfl, rfl, rfl, rfl, rfl⟩
  rw [State.surgeFall_front]
  exact u.mem_front_updEntry (hf ▸ select_mem h.entry) f

/-- An identifier that a sequence takes is none of what a sequence's end is told by. -/
theorem Ends.of_fresh {i : Instr} {s s' : State} {g g0 : Group} {e : Entry} (h : Ends i s g e s'.fresh g0) : Ends i s g e s' g0 := by
  obtain ⟨t, g', hnext, hg', honly, hclosed, hpast⟩ := h
  have hfresh : OnlyGroup s' s'.fresh g.id := ⟨rfl, rfl, fun _ _ => rfl, fun _ _ => rfl⟩
  exact ⟨t, g', hnext, hg', Iss.onlyGroup_trans hfresh honly, hclosed, hpast⟩

/-- A form that a handler may not run is at issue outside handler mode alone (R350). -/
theorem AtIssue.not_inHandler {i : Instr} {s : State} {g : Group} {e : Entry} (h : AtIssue i s g e) (hb : handlerBanned i = true) :
    g.inHandler = false := by
  rw [← Bool.not_eq_true]
  intro hh
  have hallowed := (h.allowed hh).1
  rw [hb] at hallowed
  cases hallowed

/-! ### What lanes post before a trap -/

section Trapping

variable {i : Instr} {s : State} {g : Group} {e : Entry} {bad : Mask} {t : Nat} {post : Mask → State × Group} {rest : State}

/-- Where some lanes meet the illegal-state condition, the trap keeps what the others post. -/
theorem postOrTrap_posts (hx : exec i s = .next ((Iss.mk' s g e i).postOrTrap bad t true post rest)) (hi : AtIssue i s g e)
    (hban : handlerBanned i = true) (hsub : ∀ l, bad.has l = true → (Iss.mk' s g e i).ex.has l = true) (hbad : bad ≠ 0)
    (hsome : bad ≠ (Iss.mk' s g e i).ex) {r : State × Group} (hr : post ((Iss.mk' s g e i).ex &&& ~~~bad) = r)
    (hgroups : r.1.groups = s.groups) (hid : r.2.id = g.id) (hh : r.2.inHandler = g.inHandler) :
    ∃ t g' z, exec i s = .next t ∧ t.group? g.id = some g' ∧ g'.trap = some z ∧ z.cls = 2 ∧ z.detail = 4 ∧ z.tmask = bad ∧
      z.pc = e.pc ∧ g'.items = r.2.items ∧ t.launches = r.1.launches ∧ t.ops = r.1.ops := by
  have hnext := postOrTrap_of_some_bad hx (Mask.ne_zero_of_sub hsub hbad) hbad rfl hsome
  rw [hr] at hnext
  have hhere : (r.1.group? g.id).isSome = true := by rw [State.group?_congr hgroups, hi.here]; rfl
  obtain ⟨x, z, hposts⟩ := Iss.trapAfter_posts (u := { Iss.mk' s g e i with s := r.1 }) { cls := 2, detail := 4, tmask := bad } hhere hid
    (hh.trans (hi.not_inHandler hban))
  exact ⟨_, x, z, hnext, hposts⟩

end Trapping

/-! ### The blocks of a box (R294) -/

namespace State

theorem writeVa_groups (s : State) (die ctx va n v : Nat) : (s.writeVa die ctx va n v).1.groups = s.groups := by
  unfold writeVa
  split
  · split_ifs <;> rfl
  · rfl

theorem writePieces_groups (s : State) (die ctx : Nat) (e : Ent) (bx y n i len v : Nat) :
    (s.writePieces die ctx e bx y n i len v).1.groups = s.groups := by
  induction n generalizing s i len v with
  | zero => rfl
  | succ n ih =>
    unfold writePieces
    split
    · rfl
    · split
      · rfl
      · next t hw => exact (ih ..).trans ((congrArg (·.1.groups) hw).symm.trans (writeVa_groups ..))

theorem writeBlock_groups (s : State) (die ctx : Nat) (e : Ent) (w : BlockWrite) : (s.writeBlock die ctx e w).1.groups = s.groups := by
  unfold writeBlock
  split
  · next t a hw => exact (congrArg (·.1.groups) hw).symm.trans (writePieces_groups ..)
  · next t hw =>
    have ht : t.groups = s.groups := (congrArg (·.1.groups) hw).symm.trans (writePieces_groups ..)
    split
    · exact ht
    · next t' hw' => exact ((congrArg (·.1.groups) hw').symm.trans (writeVa_groups ..)).trans ht

/-- Blocks cleared leave every group. -/
theorem clearBlocks_groups (s : State) (die ctx : Nat) (e : Ent) (bs : List (Nat × Nat)) :
    (s.clearBlocks die ctx e bs).1.groups = s.groups := by
  induction bs generalizing s with
  | nil => rfl
  | cons b bs ih =>
    unfold clearBlocks
    split
    · next t hw => exact (ih t).trans ((congrArg (·.1.groups) hw).symm.trans (writeVa_groups ..))
    · rfl

/-- Blocks decompressed leave every group. -/
theorem decodeBlocks_groups (s : State) (die ctx : Nat) (e : Ent) (bs : List (Nat × Nat)) :
    (s.decodeBlocks die ctx e bs).1.groups = s.groups := by
  induction bs generalizing s with
  | nil => rfl
  | cons b bs ih =>
    unfold decodeBlocks
    split
    · rfl
    · exact ih s
    · exact ih s
    · split
      · next t a hw => exact (congrArg (·.1.groups) hw).symm.trans (writeBlock_groups ..)
      · next t hw => exact (ih t).trans ((congrArg (·.1.groups) hw).symm.trans (writeBlock_groups ..))

end State

/-! ### `prim` and `pend` at issue -/

section AtIssue

variable {h : Head} {s : State} {g : Group} {e : Entry}

/-- The lanes that `prim` refuses: of no stage-0 item of a draw, of one whose task group has ended, or of one with its 254 primitives. -/
def Iss.primBad (u : Iss) : Mask :=
  Mask.ofPred fun l => u.ex.has l && (!u.s.drawItem u.g l 0 ||
    (match AMap.get? u.g.items l with | some it => it.tgEnded || decide (254 ≤ it.prims) | none => true))

theorem prim_traps {f : FPrim} (hi : AtIssue (.prim h f) s g e) (hbad : (Iss.mk' s g e (.prim h f)).primBad ≠ 0) :
    Traps (.prim h f) s g e 2 3 0 (Iss.mk' s g e (.prim h f)).primBad :=
  traps_of (a := { cls := 2, detail := 3, tmask := _ }) ((issue_next hi _).trans (congrArg _ (if_pos hbad)))

theorem prim_ends {f : FPrim} (hi : AtIssue (.prim h f) s g e) (ho : Only g e) (hgood : (Iss.mk' s g e (.prim h f)).primBad = 0) :
    let r := (Iss.mk' s g e (.prim h f)).ex.toList.foldl (sendPrim f.vp.toNat f.a) (s, g)
    Ends (.prim h f) s g e r.1 r.2 := by
  intro r
  have keeps : ItemsOnly (s, g) r := .foldl (itemsOnly_sendPrim _ _) _ _
  exact ends_of ((issue_next hi _).trans (congrArg _ (if_neg (not_not_intro hgood)))) hi ho keeps.groups keeps.id keeps.front

/-- The lanes that `pend` refuses: of no stage-0 item of a draw. -/
def Iss.pendBad (u : Iss) : Mask := Mask.ofPred fun l => u.act.has l && !u.s.drawItem u.g l 0

theorem pend_traps (hi : AtIssue (.pend h) s g e) (hbad : (Iss.mk' s g e (.pend h)).pendBad ≠ 0) :
    Traps (.pend h) s g e 2 3 0 (Iss.mk' s g e (.pend h)).pendBad :=
  traps_of (a := { cls := 2, detail := 3, tmask := _ }) ((issue_next hi _).trans (congrArg _ (if_pos hbad)))

/-- Where `pend` refuses no lane, every lane has a stage-0 item of a draw. -/
theorem drawItem_of_pendBad (hgood : (Iss.mk' s g e (.pend h)).pendBad = 0) {l : Nat} (hl : (Iss.mk' s g e (.pend h)).act.has l = true) :
    s.drawItem g l 0 = true := by
  have hnot : (Iss.mk' s g e (.pend h)).pendBad.has l = false := hgood ▸ Mask.has_zero l
  simpa [Iss.pendBad, Mask.has_ofPred, Mask.has_lt hl, hl] using hnot

theorem pend_ends (hi : AtIssue (.pend h) s g e) (ho : Only g e) (hgood : (Iss.mk' s g e (.pend h)).pendBad = 0) :
    ∃ s' g0, Ends (.pend h) s g e s' g0 ∧ s' = { s with launches := s'.launches } ∧ g0 = { g with items := g0.items } ∧
      ∀ l it, AMap.get? g.items l = some it → AMap.get? g0.items l =
        some (if (Iss.mk' s g e (.pend h)).act.has l = true then { it with tgEnded := true } else it) := by
  let ls := (Iss.mk' s g e (.pend h)).act.toList
  have keeps : ItemsOnly (s, g) (ls.foldl endTask (s, g)) := .foldl itemsOnly_endTask _ _
  have hs : (ls.foldl endTask (s, g)).1 = { s with launches := (ls.foldl endTask (s, g)).1.launches } := by
    have hnext : (ls.foldl endTask (s, g)).1.next = s.next := foldl_field (fun x => x.1.next) endTask_next ls (s, g)
    conv_lhs => rw [keeps.1, hnext]
  refine ⟨_, _, ends_of ((issue_next hi _).trans (congrArg _ (if_neg (not_not_intro hgood)))) hi ho keeps.groups keeps.id keeps.front,
    hs, keeps.2, fun l it hit => ?_⟩
  refine (foldl_endTask_items ls (fun k hk => drawItem_of_pendBad hgood (Mask.mem_toList.mp hk)) l).trans ?_
  rw [hit]
  simp only [ls, Mask.mem_toList, Option.map_some]

/-! ### `cwr` and `zcmp` at issue -/

/-- The lanes that `cwr` refuses: without a ticket whose colour is still to come. -/
def Iss.colourBad (u : Iss) : Mask :=
  Mask.ofPred fun l => u.ex.has l && (match u.s.ticketOf u.g l with | some t => t.cres | none => true)

/-- The lanes that `zcmp` refuses: without a ticket whose depth and colour are still to come. -/
def Iss.depthBad (u : Iss) : Mask :=
  Mask.ofPred fun l => u.ex.has l && (match u.s.ticketOf u.g l with | some t => t.dres || t.cres | none => true)

theorem colourBad_sub (u : Iss) (l : Nat) (hl : u.colourBad.has l = true) : u.ex.has l = true := by
  rw [Iss.colourBad, Mask.has_ofPred, Bool.and_eq_true, Bool.and_eq_true] at hl
  exact hl.2.1

theorem depthBad_sub (u : Iss) (l : Nat) (hl : u.depthBad.has l = true) : u.ex.has l = true := by
  rw [Iss.depthBad, Mask.has_ofPred, Bool.and_eq_true, Bool.and_eq_true] at hl
  exact hl.2.1

/-- `cwr` where no lane traps: it waits for room on its counter, and posts. -/
def Iss.colourRest (u : Iss) (f : FCwr) (en : Ent) : State :=
  if u.ex ≠ 0 ∧ 63 ≤ u.s.counter u.g.id f.cc.toNat then u.s
  else { u with s := (u.postColours f en f.cc.toNat u.ex).1 }.finish (u.postColours f en f.cc.toNat u.ex).2

theorem exec_cwr {f : FCwr} (hi : AtIssue (.cwr h f) s g e) (hopen : (Iss.mk' s g e (.cwr h f)).accessesOpen = false) :
    let u := Iss.mk' s g e (.cwr h f)
    let t := (g.getS f.st.toNat).toNat % 256
    let en := s.ent (s.groupCtx g) t
    exec (.cwr h f) s = .next (u.postOrTrap u.colourBad t (Ent.isSurface en) (u.postColours f en 8) (u.colourRest f en)) := by
  refine (issue_next hi _).trans (congrArg _ ((if_neg (by rw [hopen]; decide)).trans ?_))
  exact rfl

/-- `zcmp` where no lane traps: it posts and parks until its results come. -/
def Iss.depthRest (u : Iss) (f : FZcmp) (en : Ent) : State :=
  if u.ex = 0 then u.finish u.g
  else { u with s := (u.ex.toList.foldl (zcmpLane f en) (u.s, u.g)).1 }.park (u.ex.toList.foldl (zcmpLane f en) (u.s, u.g)).2
    (.zcmp u.toClose)

theorem exec_zcmp {f : FZcmp} (hi : AtIssue (.zcmp h f) s g e) (hopen : (Iss.mk' s g e (.zcmp h f)).accessesOpen = false) :
    let u := Iss.mk' s g e (.zcmp h f)
    let t := (g.getS f.st.toNat).toNat % 256
    let en := s.ent (s.groupCtx g) t
    exec (.zcmp h f) s = .next (u.postOrTrap u.depthBad t (Ent.isDepth en) (fun m => m.toList.foldl (zcmpLane f en) (s, g))
      (u.depthRest f en)) := by
  refine (issue_next hi _).trans (congrArg _ ((if_neg (by rw [hopen]; decide)).trans ?_))
  exact rfl

theorem cwr_idle {f : FCwr} (hi : AtIssue (.cwr h f) s g e) (ho : Only g e) (hopen : (Iss.mk' s g e (.cwr h f)).accessesOpen = false)
    (hex : (Iss.mk' s g e (.cwr h f)).ex = 0) : Ends (.cwr h f) s g e s g := by
  have hrest (en : Ent) : (Iss.mk' s g e (.cwr h f)).colourRest f en = (Iss.mk' s g e (.cwr h f)).finish g := by
    unfold Iss.colourRest Iss.postColours
    rw [if_neg fun hfull => hfull.1 hex, if_pos hex]
    rfl
  exact ends_of ((postOrTrap_goes_on (exec_cwr hi hopen) (.inl hex)).trans (congrArg _ (hrest _))) hi ho rfl rfl rfl

/-- Where some lanes of `cwr` trap, the others post under no counter. -/
theorem cwr_posts_before_trap {f : FCwr} (hi : AtIssue (.cwr h f) s g e) (hopen : (Iss.mk' s g e (.cwr h f)).accessesOpen = false) :
    let u := Iss.mk' s g e (.cwr h f)
    let en := s.ent (s.groupCtx g) ((g.getS f.st.toNat).toNat % 256)
    u.colourBad ≠ 0 → Ent.isSurface en = true → u.colourBad ≠ u.ex →
    let r := (u.ex &&& ~~~u.colourBad).toList.foldl (cwrLane f en s.next) (s.fresh, g)
    ∃ t g' z, exec (.cwr h f) s = .next t ∧ t.group? g.id = some g' ∧ g'.trap = some z ∧ z.cls = 2 ∧ z.detail = 4 ∧ z.tmask = u.colourBad ∧
      z.pc = e.pc ∧ g'.items = r.2.items ∧ t.launches = r.1.launches ∧ ∀ o ∈ t.ops, o ∈ s.ops ∨ o.ctr = 8 := by
  intro u en hbad hsurface hsome r
  have hx := exec_cwr hi hopen
  dsimp only at hx
  rw [hsurface] at hx
  have keeps : ItemsOnly (s.fresh, g) r := .foldl (itemsOnly_cwrLane _ _ _) _ _
  obtain ⟨o, hr, -, -, -, hctr⟩ := u.postColours_of_lanes f en 8 (Mask.diff_ne_zero_of_sub (colourBad_sub u) hsome)
  obtain ⟨t, g', z, hnext, hg', hz, hcls, hdetail, htmask, hpc, hitems, hlaunches, hops⟩ :=
    postOrTrap_posts hx hi rfl (colourBad_sub u) hbad hsome hr keeps.groups keeps.id keeps.inHandler
  refine ⟨t, g', z, hnext, hg', hz, hcls, hdetail, htmask, hpc, hitems, hlaunches, fun x hxt => ?_⟩
  rw [hops] at hxt
  rcases List.mem_append.mp hxt with hold | hnew
  · exact .inl (keeps.ops ▸ hold)
  · exact .inr (List.mem_singleton.mp hnew ▸ hctr)

/-- Where no lane of `cwr` traps, its posts are one operation under its counter. -/
theorem cwr_ends {f : FCwr} (hi : AtIssue (.cwr h f) s g e) (ho : Only g e) (hopen : (Iss.mk' s g e (.cwr h f)).accessesOpen = false) :
    let u := Iss.mk' s g e (.cwr h f)
    let en := s.ent (s.groupCtx g) ((g.getS f.st.toNat).toNat % 256)
    u.colourBad = 0 → u.ex ≠ 0 → Ent.isSurface en = true → s.counter g.id f.cc.toNat < 63 →
    let r := u.ex.toList.foldl (cwrLane f en s.next) (s.fresh, g)
    ∃ o, Ends (.cwr h f) s g e (r.1.addOp o) r.2 ∧ o.id = s.next ∧ o.grp = g.id ∧ o.lanes = u.ex ∧ o.ctr = f.cc.toNat := by
  intro u en hgood hex hsurface hroom r
  have keeps : ItemsOnly (s.fresh, g) r := .foldl (itemsOnly_cwrLane _ _ _) _ _
  obtain ⟨o, hr, hid, hgrp, hlanes, hctr⟩ := u.postColours_of_lanes f en f.cc.toNat hex
  have hrest : u.colourRest f en = { u with s := r.1.addOp o }.finish r.2 := by
    unfold Iss.colourRest
    rw [if_neg fun hfull => Nat.not_le.mpr hroom hfull.2, hr]
    rfl
  exact ⟨o, ends_of ((postOrTrap_goes_on (exec_cwr hi hopen) (.inr ⟨hgood, hsurface⟩)).trans (congrArg _ hrest)) hi ho keeps.groups keeps.id
    keeps.front, hid, hgrp, hlanes, hctr⟩

theorem zcmp_idle {f : FZcmp} (hi : AtIssue (.zcmp h f) s g e) (ho : Only g e) (hopen : (Iss.mk' s g e (.zcmp h f)).accessesOpen = false)
    (hex : (Iss.mk' s g e (.zcmp h f)).ex = 0) : Ends (.zcmp h f) s g e s g :=
  ends_of ((postOrTrap_goes_on (exec_zcmp hi hopen) (.inl hex)).trans (congrArg _ (if_pos hex))) hi ho rfl rfl rfl

/-- Where some lanes of `zcmp` trap, the others post. -/
theorem zcmp_posts_before_trap {f : FZcmp} (hi : AtIssue (.zcmp h f) s g e) (hopen : (Iss.mk' s g e (.zcmp h f)).accessesOpen = false) :
    let u := Iss.mk' s g e (.zcmp h f)
    let en := s.ent (s.groupCtx g) ((g.getS f.st.toNat).toNat % 256)
    u.depthBad ≠ 0 → Ent.isDepth en = true → u.depthBad ≠ u.ex →
    let r := (u.ex &&& ~~~u.depthBad).toList.foldl (zcmpLane f en) (s, g)
    ∃ t g' z, exec (.zcmp h f) s = .next t ∧ t.group? g.id = some g' ∧ g'.trap = some z ∧ z.cls = 2 ∧ z.detail = 4 ∧ z.tmask = u.depthBad ∧
      z.pc = e.pc ∧ g'.items = r.2.items ∧ t.launches = r.1.launches := by
  intro u en hbad hdepth hsome r
  have hx := exec_zcmp hi hopen
  dsimp only at hx
  rw [hdepth] at hx
  have keeps : ItemsOnly (s, g) r := .foldl (itemsOnly_zcmpLane _ _) _ _
  obtain ⟨t, g', z, hnext, hg', hz, hcls, hdetail, htmask, hpc, hitems, hlaunches, -⟩ :=
    postOrTrap_posts hx hi rfl (depthBad_sub u) hbad hsome rfl keeps.groups keeps.id keeps.inHandler
  exact ⟨t, g', z, hnext, hg', hz, hcls, hdetail, htmask, hpc, hitems, hlaunches⟩

/-- Where no lane of `zcmp` traps, it parks until the depths that it posts are compared. -/
theorem zcmp_parks {f : FZcmp} (hi : AtIssue (.zcmp h f) s g e) (hopen : (Iss.mk' s g e (.zcmp h f)).accessesOpen = false) :
    let u := Iss.mk' s g e (.zcmp h f)
    let en := s.ent (s.groupCtx g) ((g.getS f.st.toNat).toNat % 256)
    u.depthBad = 0 → u.ex ≠ 0 → Ent.isDepth en = true →
    let r := u.ex.toList.foldl (zcmpLane f en) (s, g)
    Parks (.zcmp h f) s g e r.1 r.2 (.zcmp u.toClose) := by
  intro u en hgood hex hdepth r
  have keeps : ItemsOnly (s, g) r := .foldl (itemsOnly_zcmpLane _ _) _ _
  exact parks_from hi ((postOrTrap_goes_on (exec_zcmp hi hopen) (.inr ⟨hgood, hdepth⟩)).trans (congrArg _ (if_neg hex))) keeps.groups keeps.id
    keeps.front

/-! ### `cclr` and `cdec` at issue -/

theorem boxSeq_traps {i : Instr} {f : FCclr} {dec : Bool} (hrun : exec i s = boxSeq i f dec s) (hi : AtIssue i s g e) :
    let t := (g.getS f.st.toNat).toNat % 256
    Ent.isSurface (s.ent (s.groupCtx g) t) = false → Traps i s g e 6 0 t (Iss.mk' s g e i).act := by
  intro t hsurface
  refine traps_of (a := { cls := 6, info := t, tmask := _ }) (hrun.trans ((issue_next hi _).trans (congrArg Host.Outcome.next (if_pos ?_))))
  simpa [Iss.ctx] using hsurface

/-- A counted operation added to a state whose groups stand ends the sequence. -/
theorem boxSeq_ends {i : Instr} {f : FCclr} {dec : Bool} {s1 s2 : State} (hrun : exec i s = boxSeq i f dec s) (hi : AtIssue i s g e)
    (ho : Only g e) :
    let en := s.ent (s.groupCtx g) ((g.getS f.st.toNat).toNat % 256)
    let bs := boxBlocks en (g.getS f.sb.toNat).toNat
    Ent.isSurface en = true → s.counter g.id f.cc.toNat < 63 → (Iss.mk' s g e i).accessesOpen = false →
    s.gate { owner := .box g.id, die := g.die, cluster := g.cluster, port := 6, ctx := s.groupCtx g, part := s.groupPart g }
      (s.boxNeed g.die (s.groupCtx g) en dec bs) = (s1, true) →
    (if dec = true then s1.decodeBlocks g.die (s.groupCtx g) en bs
      else ((s1.clearBlocks g.die (s.groupCtx g) en bs).1, (s1.clearBlocks g.die (s.groupCtx g) en bs).2, [])) = (s2, none, []) →
    s2.groups = s1.groups →
    ∃ o, Ends i s g e (s2.addOp o) g ∧ o.grp = g.id ∧ o.lanes = e.mask ∧ o.ctr = f.cc.toNat := by
  dsimp only
  intro hsurface hroom hopen hgate hdone hgroups
  let o : CountedOp := { id := s2.next, grp := g.id, ctr := f.cc.toNat, cc := f.cc.toNat, lanes := e.mask, pc := e.pc }
  obtain ⟨-, -, hgate_groups, -⟩ := State.gate_frame hgate
  refine ⟨o, Ends.of_fresh (ends_of ?_ hi ho (hgroups.trans hgate_groups) rfl rfl), rfl, rfl, rfl⟩
  refine hrun.trans ((issue_next hi _).trans (congrArg Host.Outcome.next ((if_neg ?_).trans ((if_neg ?_).trans ?_))))
  · simpa [Iss.ctx] using hsurface
  · simp [hopen, Nat.not_le.mpr hroom]
  · dsimp only [Iss.mk'_s, Iss.mk'_g, Iss.ctx]
    rw [hgate]
    dsimp only
    rw [hdone]
    rfl

end AtIssue

/-- A lane's colour goes to the post of its ticket, and a helper's is done at once (R292). -/
theorem cwrLane_of_ticket {s : State} {g : Group} {l op en : Nat} {f : FCwr} {la : Launch} {it : Item} {t : Ticket}
    (hla : s.groupLaunch? g = some la) (hit : AMap.get? g.items l = some it) (ht : it.ticket = some t) :
    cwrLane f en op (s, g) l =
      (s.updPost la.id t.die t.num fun p =>
        if p.helper then { p with colourDone := true }
        else { p with colour := some { bm := f.bm.toNat, colour := (readSrc g l [] 0 f.a).truncate 32, surface := BitVec.ofNat 512 en
                                       op := op, grp := g.id } },
       { g with items := AMap.set g.items l { it with ticket := some { t with cres := true } } }) := by
  unfold cwrLane
  dsimp only
  rw [hla, hit]
  dsimp only
  rw [ht]

/-- Settles O46: the lanes of `prim`, `pend`, `cwr` and `zcmp` change only items, launches and identifiers, `cwr` and `zcmp` share their
traps, and the blocks of a box change no group. -/
theorem renderForms : Obligations.RenderForms := by
  unfold Obligations.RenderForms
  refine ⟨fun h f s g e hi ho => ⟨prim_traps hi, prim_ends hi ho⟩, ?prims, fun h s g e hi ho => ⟨pend_traps hi, pend_ends hi ho⟩, ?cwr,
    fun s g l op en f la it t => cwrLane_of_ticket, ?zcmp, ?boxes⟩
  case prims =>
    intro s g l vp d a la it hgla hla hit vs r
    have hr : r = _ := sendPrim_of_item hgla hit
    refine ⟨by rw [hr], fun hnone => ?_, fun hone => ?_⟩
    · rw [hr]
      exact congrArg (List.foldl _ s) hnone
    · have hsent : r.1 = s.sendPrimTo la g.die it.tgseq (g.primOf la it vp a l) d := by
        rw [hr]
        exact congrArg (List.foldl _ s) hone
      rw [hsent]
      exact launch?_sendPrimTo hla g.die it.tgseq _ d
  case cwr =>
    intro h f s g e i u t en bad hi ho hopen
    have hx := exec_cwr hi hopen
    exact ⟨cwr_idle hi ho hopen, fun hex hno => (postOrTrap_of_invalid hx hex hno).1, fun hex hno => (postOrTrap_of_invalid hx hex hno).2,
      postOrTrap_of_all_bad hx, cwr_posts_before_trap hi hopen, cwr_ends hi ho hopen⟩
  case zcmp =>
    intro h f s g e i u t en bad hi ho hopen
    have hx := exec_zcmp hi hopen
    exact ⟨zcmp_idle hi ho hopen, fun hex hno => (postOrTrap_of_invalid hx hex hno).1, fun hex hno => (postOrTrap_of_invalid hx hex hno).2,
      postOrTrap_of_all_bad hx, zcmp_posts_before_trap hi hopen, zcmp_parks hi hopen⟩
  case boxes =>
    intro h f s s1 s2 g t en bs acts
    refine ⟨fun hi ho => ⟨boxSeq_traps rfl hi, fun hsurface hroom hopen hgate hdone => ?_⟩,
      fun hi ho => ⟨boxSeq_traps rfl hi, fun hsurface hroom hopen hgate hdone => ?_⟩⟩
    · refine boxSeq_ends (f := f) (dec := false) rfl hi ho hsurface hroom hopen hgate ?_ ?_
      · exact congrArg (fun r => (r.1, r.2, [])) hdone
      · exact (congrArg (·.1.groups) hdone).symm.trans (State.clearBlocks_groups ..)
    · refine boxSeq_ends (f := f) (dec := true) rfl hi ho hsurface hroom hopen hgate hdone ?_
      exact (congrArg (·.1.groups) hdone).symm.trans (State.decodeBlocks_groups ..)

end Sys2Proof.Machine
end
